-- ==== Sys2Proof/Word.lean ====
section
/-! DEFINITION. The words of the machine and bit fields of numbers (R3, R4). -/

namespace Sys2Proof

abbrev Word := BitVec 64
abbrev Lane := BitVec 32
abbrev Byte := BitVec 8

/-- A sparse table with numbers as keys. -/
abbrev Tbl (α : Type) := List (Nat × α)

end Sys2Proof
end

