-- ==== Sys2Proof/Syntax.lean ====
section
/-! DEFINITION. The syntax of every row of spec/opcode_table.json: one constructor of `Instr` a row. -/

namespace Sys2Proof

/-- The fields every stream command carries beside its operands (R181). -/
structure CmdHdr where
  sets : BitVec 5
  waitm : BitVec 16
  deriving DecidableEq, Repr

/-- Operands of the command word (R189). -/
structure CopyOps where
  far : BitVec 57
  len : BitVec 16
  near : BitVec 3
  noff : BitVec 20
  deriving DecidableEq, Repr

/-- Operands of the command word (R191). -/
structure Copy2dOps where
  dst : BitVec 57
  dsp : BitVec 3
  rows : BitVec 16
  dstride : BitVec 20
  src : BitVec 57
  ssp : BitVec 3
  rlen : BitVec 20
  sstride : BitVec 20
  deriving DecidableEq, Repr

/-- Operands of the command word (R189). -/
structure CopycOps where
  far : BitVec 57
  len : BitVec 16
  near : BitVec 3
  noff : BitVec 20
  cwa : BitVec 57
  cwv : BitVec 64
  deriving DecidableEq, Repr

/-- Operands of the command word (R196, of GATHER and SCATTER alike). -/
structure GatherOps where
  base : BitVec 57
  esz : BitVec 3
  iw : BitVec 1
  count : BitVec 16
  isp : BitVec 3
  idx : BitVec 57
  dsp : BitVec 3
  data : BitVec 57
  deriving DecidableEq, Repr

/-- Operands of the command word (R192). -/
structure DeckOps where
  src : BitVec 57
  doff : BitVec 16
  len : BitVec 16
  ssp : BitVec 3
  deriving DecidableEq, Repr

/-- Operands of the command word (R193). -/
structure BloadOps where
  doff : BitVec 16
  sc : BitVec 1
  deriving DecidableEq, Repr

/-- Operands of the command word (R194). -/
structure MxtOps where
  abase : BitVec 15
  mm1 : BitVec 6
  km1 : BitVec 8
  ascl : BitVec 23
  mode : BitVec 2
  aprec : BitVec 2
  bprec : BitVec 2
  afin : BitVec 1
  bfin : BitVec 1
  fresh : BitVec 1
  swap0 : BitVec 1
  bnext : BitVec 16
  ach : BitVec 1
  ahdr : BitVec 25
  aspc : BitVec 1
  deriving DecidableEq, Repr

/-- Operands of the command word (R195). -/
structure MxdrainOps where
  dst : BitVec 15
  mm1 : BitVec 6
  ofmt : BitVec 3
  prec : BitVec 2
  usgn : BitVec 1
  fin : BitVec 1
  deriving DecidableEq, Repr

/-- Operands of the command word (R198). -/
structure CollOps where
  kind : BitVec 2
  dt : BitVec 2
  scope : BitVec 3
  midx : BitVec 11
  nmem : BitVec 11
  group : BitVec 16
  len : BitVec 16
  src : BitVec 15
  dst : BitVec 15
  deriving DecidableEq, Repr

/-- Operands of the command word (R200). -/
structure IntakeOps where
  srca : BitVec 57
  slen : BitVec 30
  tenc : BitVec 2
  cset : BitVec 3
  cont : BitVec 2
  tag : BitVec 32
  prof : BitVec 20
  deriving DecidableEq, Repr

/-- Operands of the command word (R202). -/
structure WindowOps where
  wbase : BitVec 57
  tile : BitVec 4
  slot : BitVec 10
  gm1 : BitVec 8
  dims : BitVec 2
  dir : BitVec 1
  n0m1 : BitVec 12
  str0 : BitVec 20
  n1m1 : BitVec 12
  str1 : BitVec 20
  n2m1 : BitVec 12
  str2 : BitVec 20
  stream : BitVec 16
  deriving DecidableEq, Repr

/-- Operands of the command word (R203; `long` is the LONG bit of R181). -/
structure NoteOps where
  naddr : BitVec 57
  nsp : BitVec 3
  nval : BitVec 32
  long : BitVec 1
  nval64 : BitVec 64
  deriving DecidableEq, Repr

/-- Operands of the command word (R204). -/
structure QfenceOps where
  qmask : BitVec 6
  deriving DecidableEq, Repr

/-- Body of the ring packet (R281). -/
structure LaunchOps where
  block : BitVec 64
  count : BitVec 21
  deriving DecidableEq, Repr

/-- Body of the ring packet (R282). -/
structure PipeOps where
  block : BitVec 64
  deriving DecidableEq, Repr

/-- Body of the ring packet (R282). -/
structure CmdOps where
  core : BitVec 5
  queue : BitVec 3
  lo : BitVec 128
  hi : BitVec 128
  deriving DecidableEq, Repr

/-- Body of the ring packet (R283). -/
structure SignalOps where
  addr : BitVec 64
  value : BitVec 64
  op : BitVec 2
  deriving DecidableEq, Repr

/-- Body of the ring packet (R283). -/
structure WaitOps where
  addr : BitVec 64
  value : BitVec 64
  op : BitVec 2
  tmo : BitVec 32
  deriving DecidableEq, Repr

/-- Body of the ring packet (R306). -/
structure ReceiptOps where
  block : BitVec 64
  codea : BitVec 64
  arga : BitVec 64
  argl : BitVec 32
  resl : BitVec 32
  resa : BitVec 64
  rdst : BitVec 64
  bdst : BitVec 64
  deriving DecidableEq, Repr

/-- Body of the ring packet (R284). -/
structure PolicyLoadOps where
  img : BitVec 64
  lenm1 : BitVec 8
  deriving DecidableEq, Repr

/-- Body of the ring packet (R298). -/
structure PartCoresOps where
  p : BitVec 4
  mask : BitVec 32
  deriving DecidableEq, Repr

/-- Body of the ring packet (R298). -/
structure PartPoolOps where
  p : BitVec 4
  plevel : BitVec 32
  pcap : BitVec 32
  prate : BitVec 20
  deriving DecidableEq, Repr

/-- Body of the ring packet (R298). -/
structure PartCacheOps where
  p : BitVec 4
  dies : BitVec 4
  sbase : BitVec 10
  scount : BitVec 11
  tquota : BitVec 15
  lquota : BitVec 21
  bw : BitVec 8
  deriving DecidableEq, Repr

/-- Body of the ring packet (R298). -/
structure PartQueueOps where
  p : BitVec 4
  c : BitVec 5
  qsel : BitVec 3
  prio : BitVec 3
  urgent : BitVec 1
  segment : BitVec 64
  deriving DecidableEq, Repr

/-- Body of the ring packet (R298). -/
structure PartLimitsOps where
  p : BitVec 4
  drain : BitVec 32
  fault : BitVec 64
  dint : BitVec 32
  slice : BitVec 32
  deriving DecidableEq, Repr

/-- Body of the ring packet (R298). -/
structure PartVfOps where
  vf : BitVec 7
  qslots : BitVec 16
  dcnt : BitVec 16
  deriving DecidableEq, Repr

/-- Body of the ring packet (R298). -/
structure PartDropOps where
  p : BitVec 4
  deriving DecidableEq, Repr

/-- Body of the ring packet (R300). -/
structure PartCtxOps where
  p : BitVec 4
  c : BitVec 5
  priv : BitVec 1
  vf : BitVec 7
  en : BitVec 1
  nest : BitVec 1
  padlo : BitVec 7
  padn : BitVec 8
  dielo : BitVec 6
  dien : BitVec 7
  root1 : BitVec 64
  root2 : BitVec 64
  cring : BitVec 64
  dring : BitVec 64
  sring : BitVec 64
  farea : BitVec 64
  deriving DecidableEq, Repr

/-- Where an error of the scheduler's memories lies (R305), or one that another memory corrected (R328). -/
inductive EccSite where
  | correctable (die : Nat)
  | corrected (die cx : Nat)
  | runningImage (part : Nat)
  | stagedImage (part : Nat)
  | queueEntry (cx qsel : Nat)
  deriving DecidableEq, Repr

/-- The numeric sensors PLDM offers (R342). -/
inductive Sensor where
  | feedPower (feed : Nat)
  | dieTemperature (die : Nat)
  | minimumVoltage (die : Nat)
  | repairSummary (core : Nat)
  deriving DecidableEq, Repr

/-- What a pod link carries (R346), in the virtual channel of its partition: an arrival of a member at a barrier, the release of the group; a member's
contribution to the n-th instance of a collective with the fields of its command (R198), the end of one in a fault (R199); the master's timebase;
the write a stub forwards, by the exported context, the address and the bytes (R331). -/
inductive PodPayload where
  | barrierArrival (group member : Nat)
  | barrierRelease (group : Nat)
  | collective (inst group kind dt nmem len midx off : Nat) (data : List (BitVec 8))
  | collectiveFault (inst group nmem : Nat)
  | time (master : BitVec 64)
  | stubWrite (origin va : Nat) (data : List (BitVec 8))
  deriving DecidableEq, Repr

/-- A flit as a port receives it (R347). -/
structure Flit where
  port : Nat
  vc : Nat
  seq : BitVec 12
  crcGood : Bool
  payload : PodPayload
  deriving DecidableEq, Repr

/-- The header of a ring packet (R277). -/
structure PktHdr where
  kind : Nat
  acq : Nat
  rel : Nat
  crec : Bool
  irq : Bool
  deriving DecidableEq, Repr

/-- The steps of the part, one constructor for each row of spec/opcode_table.json. The operands of a row with a word are its fields, by the table's
names. -/
inductive Instr where
  /-- Writes the 64-bit sum of two scalar registers (R85). -/
  | add (d a b : BitVec 5)
  /-- Writes the 64-bit difference of two scalar registers (R85). -/
  | sub (d a b : BitVec 5)
  /-- Writes the low 64 bits of the product (R85). -/
  | mul (d a b : BitVec 5)
  /-- Writes the high 64 bits of the signed product (R85). -/
  | mulh (d a b : BitVec 5)
  /-- Writes the high 64 bits of the unsigned product (R85). -/
  | mulhn (d a b : BitVec 5)
  /-- Signed division truncated toward zero, with defined results for zero and overflow (R86). -/
  | div (d a b : BitVec 5)
  /-- Unsigned division, with all ones for a zero divisor (R86). -/
  | divn (d a b : BitVec 5)
  /-- Signed remainder with the sign of the dividend (R86). -/
  | rem (d a b : BitVec 5)
  /-- Unsigned remainder (R86). -/
  | remn (d a b : BitVec 5)
  /-- Bitwise AND of two scalar registers (R85). -/
  | and (d a b : BitVec 5)
  /-- Bitwise OR of two scalar registers (R85). -/
  | or (d a b : BitVec 5)
  /-- Bitwise XOR of two scalar registers (R85). -/
  | xor (d a b : BitVec 5)
  /-- AND of the first register with the complement of the second (R85). -/
  | andn (d a b : BitVec 5)
  /-- Shifts left by the low six bits of the second register (R85). -/
  | shl (d a b : BitVec 5)
  /-- Logical shift right by the low six bits of the second register (R85). -/
  | shr (d a b : BitVec 5)
  /-- Arithmetic shift right by the low six bits of the second register (R85). -/
  | sar (d a b : BitVec 5)
  /-- Writes the signed smaller of two registers (R85). -/
  | min (d a b : BitVec 5)
  /-- Writes the signed larger of two registers (R85). -/
  | max (d a b : BitVec 5)
  /-- Writes the unsigned smaller of two registers (R85). -/
  | minn (d a b : BitVec 5)
  /-- Writes the unsigned larger of two registers (R85). -/
  | maxn (d a b : BitVec 5)
  /-- Writes 1 if the first register is signed-less than the second (R85). -/
  | slt (d a b : BitVec 5)
  /-- Writes 1 if the first register is unsigned-less than the second (R85). -/
  | sltn (d a b : BitVec 5)
  /-- Writes 1 if the two registers are equal (R85). -/
  | seq (d a b : BitVec 5)
  /-- Counts leading zero bits (R85). -/
  | clz (d a : BitVec 5)
  /-- Counts one bits (R85). -/
  | popc (d a : BitVec 5)
  /-- Extracts the bits selected by a mask into the low bits (R85). -/
  | bext (d a b : BitVec 5)
  /-- Deposits low bits at the positions selected by a mask (R85). -/
  | bdep (d a b : BitVec 5)
  /-- Sign-extends a byte, half or word (R85). -/
  | sext (d a : BitVec 5) (w : BitVec 3)
  /-- Zero-extends a byte, half or word (R85). -/
  | zext (d a : BitVec 5) (w : BitVec 3)
  /-- Adds a sign-extended 16-bit immediate (R87). -/
  | addi (d a : BitVec 5) (i : BitVec 16)
  /-- ANDs a zero-extended immediate (R87). -/
  | andi (d a : BitVec 5) (i : BitVec 16)
  /-- ORs a zero-extended immediate (R87). -/
  | ori (d a : BitVec 5) (i : BitVec 16)
  /-- XORs a zero-extended immediate (R87). -/
  | xori (d a : BitVec 5) (i : BitVec 16)
  /-- Shifts left by an immediate amount (R87). -/
  | shli (d a : BitVec 5) (n : BitVec 6)
  /-- Logical shift right by an immediate amount (R87). -/
  | shri (d a : BitVec 5) (n : BitVec 6)
  /-- Arithmetic shift right by an immediate amount (R87). -/
  | sari (d a : BitVec 5) (n : BitVec 6)
  /-- Loads an immediate into bits 31:16, sign-extended from bit 31 (R87). -/
  | lui (d : BitVec 5) (i : BitVec 16)
  /-- Writes 1 if the register is signed-less than the immediate (R87). -/
  | slti (d a : BitVec 5) (i : BitVec 16)
  /-- Scalar FP add with rounding and flags (R88). -/
  | fadd (d a b : BitVec 5) (m w : BitVec 3)
  /-- Scalar FP subtract with rounding and flags (R88). -/
  | fsub (d a b : BitVec 5) (m w : BitVec 3)
  /-- Scalar FP multiply with rounding and flags (R88). -/
  | fmul (d a b : BitVec 5) (m w : BitVec 3)
  /-- Scalar FP divide with rounding and flags (R88). -/
  | fdiv (d a b : BitVec 5) (m w : BitVec 3)
  /-- Scalar FP square root (R88). -/
  | fsqrt (d a : BitVec 5) (m w : BitVec 3)
  /-- Correctly rounded scalar reciprocal square root (R88). -/
  | frsq (d a : BitVec 5) (m w : BitVec 3)
  /-- Scalar minimumNumber without rounding (R89). -/
  | fmin (d a b : BitVec 5) (w : BitVec 3)
  /-- Scalar maximumNumber without rounding (R89). -/
  | fmax (d a b : BitVec 5) (w : BitVec 3)
  /-- Converts between FP types and 64-bit integers as selected by the conversion code (R91). -/
  | fcvt (d a c : BitVec 5) (m w : BitVec 3)
  /-- Quiet FP equality compare (R89). -/
  | fcmpEq (d a b : BitVec 5) (w : BitVec 3)
  /-- Signalling FP less-than compare (R89). -/
  | fcmpLt (d a b : BitVec 5) (w : BitVec 3)
  /-- Signalling FP less-or-equal compare (R89). -/
  | fcmpLe (d a b : BitVec 5) (w : BitVec 3)
  /-- Quiet FP unordered test (R89). -/
  | fcmpUn (d a b : BitVec 5) (w : BitVec 3)
  /-- Writes a one-hot class mask of an FP value (R90). -/
  | fclass (d a : BitVec 5) (w : BitVec 3)
  /-- Fused multiply-add with d as addend and destination (R92). -/
  | fma (d a b : BitVec 5) (m w : BitVec 3)
  /-- Reads a special register into a scalar register (R93). -/
  | mfs (d n : BitVec 5)
  /-- Writes a writable special register from a scalar register (R93). -/
  | mts (a n : BitVec 5)
  /-- Loads 1 to 8 bytes, seeing the task's own staged stores (R94). -/
  | ld (x b : BitVec 5) (s w : BitVec 3) (o : BitVec 10)
  /-- Stages a store of 1 to 8 bytes until commit (R94). -/
  | st (x b : BitVec 5) (s w : BitVec 3) (o : BitVec 10)
  /-- Loads a vector register from 64 bytes, converting on FMT pages (R151). -/
  | vld (x b : BitVec 5) (s : BitVec 3) (o : BitVec 10)
  /-- Gathers each lane from its own address (R151). -/
  | vgld (x b : BitVec 5) (s : BitVec 3) (o : BitVec 10)
  /-- Stages one 64-byte or 32-byte vector store (R151). -/
  | vst (x b : BitVec 5) (s : BitVec 3) (o : BitVec 10)
  /-- Loads each lane from one offset of its own lane slice (R152). -/
  | vlds (x b : BitVec 5) (o : BitVec 10)
  /-- Loads each lane from its own offset in its lane slice (R152). -/
  | vldsIx (x b : BitVec 5) (o : BitVec 10)
  /-- Stages a store of each lane to its own lane slice (R152). -/
  | vsts (x b : BitVec 5) (o : BitVec 10)
  /-- Translates each active lane through the row's LUT island (R156). -/
  | lutx (d a b : BitVec 5) (k : BitVec 3)
  /-- Loads the 2048-byte LUT configuration from the pad (R156). -/
  | lutld (a : BitVec 5)
  /-- Branches when two registers are equal (R96). -/
  | beq (a b : BitVec 5) (d : BitVec 16)
  /-- Branches when two registers differ (R96). -/
  | bne (a b : BitVec 5) (d : BitVec 16)
  /-- Branches on signed less-than (R96). -/
  | blt (a b : BitVec 5) (d : BitVec 16)
  /-- Branches on signed greater-or-equal (R96). -/
  | bge (a b : BitVec 5) (d : BitVec 16)
  /-- Branches on unsigned less-than (R96). -/
  | bltn (a b : BitVec 5) (d : BitVec 16)
  /-- Branches on unsigned greater-or-equal (R96). -/
  | bgen (a b : BitVec 5) (d : BitVec 16)
  /-- Decrements a register and branches if the result is non-zero (R96). -/
  | bdnz (a : BitVec 5) (d : BitVec 16)
  /-- Jumps by a 26-bit displacement and links into s31 (R97). -/
  | jal (d : BitVec 26)
  /-- Jumps to a register plus offset and links (R97). -/
  | jalr (d a : BitVec 5) (i : BitVec 16)
  /-- Requests packets from the pool and raises the budget by the grant (R98). -/
  | charge (d a : BitVec 5) (n : BitVec 12)
  /-- Reads pool level, held packets or remaining charge (R99). -/
  | mcs (d : BitVec 5) (s : BitVec 12)
  /-- Reads a word of a guaranteed input channel slot (R101). -/
  | crd (d a : BitVec 5) (h : BitVec 4) (o : BitVec 9)
  /-- Reads the tag of a guaranteed input channel slot (R101). -/
  | crdt (d a : BitVec 5) (h : BitVec 4) (o : BitVec 9)
  /-- Stages a data word into an output channel slot (R101). -/
  | cwr (d a : BitVec 5) (h : BitVec 4) (o : BitVec 9)
  /-- Stages a marker tag into an output channel slot (R101). -/
  | cwrt (t a : BitVec 5) (h : BitVec 4) (o : BitVec 9)
  /-- Stages an advance of an input channel's read count (R102). -/
  | advR (a : BitVec 5) (h : BitVec 4) (o : BitVec 9)
  /-- Stages an advance of an output channel's write count (R102). -/
  | advW (a : BitVec 5) (h : BitVec 4) (o : BitVec 9)
  /-- Captures and checks a stream command from lane 0's slice and stages it for a queue (R103). -/
  | emit (a : BitVec 5) (q : BitVec 3)
  /-- Commits and enqueues up to four successors (R104). -/
  | exit (n : BitVec 3) (f : BitVec 5)
  /-- Commits and enqueues a successor with a wait condition on a word (R104). -/
  | xwait (s a v : BitVec 5) (c : BitVec 1)
  /-- Commits as a barrier arrival; member 0 names the group's successor gang (R56). -/
  | xbar (c : BitVec 3) (s : BitVec 5) (n : BitVec 4)
  /-- Commits, performs an atomic and passes the old value to the successor (R105). -/
  | xamo (s a v : BitVec 5) (o : BitVec 4) (w : BitVec 1)
  /-- Commits with no successor and disarms a bound block (R104). -/
  | xstop
  /-- Stages an atomic add (R107). -/
  | sadd (s : BitVec 3) (a b : BitVec 5) (w : BitVec 3)
  /-- Stages an atomic signed minimum (R107). -/
  | smin (s : BitVec 3) (a b : BitVec 5) (w : BitVec 3)
  /-- Stages an atomic signed maximum (R107). -/
  | smax (s : BitVec 3) (a b : BitVec 5) (w : BitVec 3)
  /-- Stages an atomic OR (R107). -/
  | sor (s : BitVec 3) (a b : BitVec 5) (w : BitVec 3)
  /-- Stages an atomic AND (R107). -/
  | sand (s : BitVec 3) (a b : BitVec 5) (w : BitVec 3)
  /-- Stages an atomic FP32 add (R107). -/
  | sfadd (s : BitVec 3) (a b : BitVec 5)
  /-- Orders later loads after writes of commits seen by earlier loads at a scope (R108). -/
  | fenceAcq (s : BitVec 3)
  /-- Stages invalidation of the translations of one page (R110). -/
  | tlbiPage (a : BitVec 5) (s : BitVec 1)
  /-- Stages invalidation of every translation of the context (R110). -/
  | tlbiCtx (s : BitVec 1)
  /-- Stages invalidation of every translation of the partition (R110). -/
  | tlbiPart (s : BitVec 1)
  /-- Stages a sync making committed stores visible to every walker (R110). -/
  | ptsync
  /-- Stops the task with reason trap (R109). -/
  | trap (c : BitVec 22)
  /-- Freezes the task for the debugger, or stops it if breakpoints are off (R109). -/
  | brk
  /-- Vector integer add per sub-element (R133). -/
  | vadd (d a b : BitVec 5) (k t : BitVec 3)
  /-- Vector integer subtract (R133). -/
  | vsub (d a b : BitVec 5) (k t : BitVec 3)
  /-- Vector integer multiply, low bits (R133). -/
  | vmul (d a b : BitVec 5) (k t : BitVec 3)
  /-- Vector integer multiply, high bits (R133). -/
  | vmulh (d a b : BitVec 5) (k t : BitVec 3)
  /-- Vector saturating add (R133). -/
  | vadds (d a b : BitVec 5) (k t : BitVec 3)
  /-- Vector saturating subtract (R133). -/
  | vsubs (d a b : BitVec 5) (k t : BitVec 3)
  /-- Vector integer minimum (R133). -/
  | vmin (d a b : BitVec 5) (k t : BitVec 3)
  /-- Vector integer maximum (R133). -/
  | vmax (d a b : BitVec 5) (k t : BitVec 3)
  /-- Vector AND (R133). -/
  | vand (d a b : BitVec 5) (k t : BitVec 3)
  /-- Vector OR (R133). -/
  | vor (d a b : BitVec 5) (k t : BitVec 3)
  /-- Vector XOR (R133). -/
  | vxor (d a b : BitVec 5) (k t : BitVec 3)
  /-- Vector AND with complement (R133). -/
  | vandn (d a b : BitVec 5) (k t : BitVec 3)
  /-- Vector shift left (R133). -/
  | vshl (d a b : BitVec 5) (k t : BitVec 3)
  /-- Vector logical shift right (R133). -/
  | vshr (d a b : BitVec 5) (k t : BitVec 3)
  /-- Vector arithmetic shift right (R133). -/
  | vsar (d a b : BitVec 5) (k t : BitVec 3)
  /-- Vector absolute difference (R133). -/
  | vabsd (d a b : BitVec 5) (k t : BitVec 3)
  /-- Vector count leading zeros (R133). -/
  | vclz (d a : BitVec 5) (k t : BitVec 3)
  /-- Vector population count (R133). -/
  | vpopc (d a : BitVec 5) (k t : BitVec 3)
  /-- Narrowing saturating pack of two registers (R134). -/
  | vpack (d a b : BitVec 5) (k t : BitVec 3)
  /-- Widening unpack of one part (R134). -/
  | vunpack (d a p : BitVec 5) (k t : BitVec 3)
  /-- Vector FP add, nearest-even (R135). -/
  | vfadd (d a b : BitVec 5) (k t : BitVec 3)
  /-- Vector FP subtract (R135). -/
  | vfsub (d a b : BitVec 5) (k t : BitVec 3)
  /-- Vector FP multiply (R135). -/
  | vfmul (d a b : BitVec 5) (k t : BitVec 3)
  /-- Vector FP minimumNumber (R135). -/
  | vfmin (d a b : BitVec 5) (k t : BitVec 3)
  /-- Vector FP maximumNumber (R135). -/
  | vfmax (d a b : BitVec 5) (k t : BitVec 3)
  /-- Vector fused multiply-subtract with the old destination (R135). -/
  | vfms (d a b : BitVec 5) (k t : BitVec 3)
  /-- Vector fused negated multiply-add with the old destination (R135). -/
  | vfnma (d a b : BitVec 5) (k t : BitVec 3)
  /-- Scales each sub-element by a power of two (R135). -/
  | vscale (d a b : BitVec 5) (k t : BitVec 3)
  /-- Vector fused multiply-add of three registers (R136). -/
  | vfma (d a b c : BitVec 5) (k t : BitVec 3)
  /-- Vector conversion between FP, binary8 and integer types with a rounding mode (R138). -/
  | vcvt (d a : BitVec 5) (s : BitVec 3) (i : BitVec 1) (k : BitVec 3) (p : BitVec 2) (r t : BitVec 3)
  /-- Vector conversion with stochastic rounding from Squall bits (R120). -/
  | vcvtSr (d a : BitVec 5) (s : BitVec 3) (i : BitVec 1) (k : BitVec 3) (p : BitVec 2) (t : BitVec 3)
  /-- Integer sum over lanes by a fixed tree, broadcast (R142). -/
  | vrsum (d a : BitVec 5) (k t : BitVec 3)
  /-- Integer minimum over lanes (R142). -/
  | vrmin (d a : BitVec 5) (k t : BitVec 3)
  /-- Integer maximum over lanes (R142). -/
  | vrmax (d a : BitVec 5) (k t : BitVec 3)
  /-- FP sum over lanes by a fixed pairwise tree (R142). -/
  | vrfsum (d a : BitVec 5) (k t : BitVec 3)
  /-- Inclusive prefix sum over active lanes (R143). -/
  | vscan (d a : BitVec 5) (k t : BitVec 3)
  /-- Permutes lanes by an index register (R144). -/
  | vperm (d a b : BitVec 5) (k : BitVec 3)
  /-- Shuffles lanes from a source and the old destination (R144). -/
  | vshuf (d a b : BitVec 5) (k : BitVec 3)
  /-- Rotates lanes by an immediate (R144). -/
  | vrot (d a n : BitVec 5) (k : BitVec 3)
  /-- Exchanges lanes with a neighbour at a power-of-two distance (R144). -/
  | vnbr (d a n : BitVec 5) (k : BitVec 3)
  /-- Integer equality compare into a mask (R145). -/
  | vcmpEq (d a b : BitVec 5) (k t : BitVec 3)
  /-- Integer inequality compare into a mask (R145). -/
  | vcmpNe (d a b : BitVec 5) (k t : BitVec 3)
  /-- Integer less-than compare into a mask (R145). -/
  | vcmpLt (d a b : BitVec 5) (k t : BitVec 3)
  /-- Integer less-or-equal compare into a mask (R145). -/
  | vcmpLe (d a b : BitVec 5) (k t : BitVec 3)
  /-- FP equality compare into a mask (R145). -/
  | vfcmpEq (d a b : BitVec 5) (k t : BitVec 3)
  /-- FP less-than compare into a mask (R145). -/
  | vfcmpLt (d a b : BitVec 5) (k t : BitVec 3)
  /-- FP less-or-equal compare into a mask (R145). -/
  | vfcmpLe (d a b : BitVec 5) (k t : BitVec 3)
  /-- FP unordered test into a mask (R145). -/
  | vfcmpUn (d a b : BitVec 5) (k t : BitVec 3)
  /-- Broadcasts a scalar into every active lane (R147). -/
  | vbcst (d a : BitVec 5) (k t : BitVec 3)
  /-- Inserts a scalar into one lane (R147). -/
  | vins (d a n : BitVec 5) (t : BitVec 3)
  /-- Extracts one lane into a scalar (R147). -/
  | vext (d a n : BitVec 5) (t : BitVec 3)
  /-- Copies every active lane (R147). -/
  | vmov (d a : BitVec 5) (k : BitVec 3)
  /-- Sets every lane to a sign-extended immediate (R148). -/
  | vli (d : BitVec 5) (i : BitVec 16)
  /-- Sets both halves of every lane to an immediate (R148). -/
  | vlih (d : BitVec 5) (i : BitVec 16)
  /-- Sets every lane to an immediate shifted left 16 (R148). -/
  | vlui (d : BitVec 5) (i : BitVec 16)
  /-- ORs an immediate into every lane (R148). -/
  | vorli (d : BitVec 5) (i : BitVec 16)
  /-- Adds a sign-extended immediate to every lane (R148). -/
  | vaddi (d : BitVec 5) (i : BitVec 16)
  /-- Selects each lane from one of two registers by a mask (R146). -/
  | vsel (d a b : BitVec 5) (k : BitVec 3)
  /-- ANDs two mask registers (R146). -/
  | kand (d a b : BitVec 5)
  /-- ORs two mask registers (R146). -/
  | kor (d a b : BitVec 5)
  /-- Complements a mask register (R146). -/
  | knot (d a : BitVec 5)
  /-- Copies a mask register to a mask register (R146). -/
  | kmov (d a : BitVec 5)
  /-- Sets a mask register from the low 16 bits of a scalar (R146). -/
  | kmovFromScalar (d a : BitVec 5)
  /-- Copies a mask register into a scalar (R146). -/
  | kmovToScalar (d a : BitVec 5)
  /-- Faithful vector reciprocal (R140). -/
  | vrcp (d a : BitVec 5) (k t : BitVec 3)
  /-- Correctly rounded vector reciprocal square root (R140). -/
  | vrsq (d a : BitVec 5) (k t : BitVec 3)
  /-- Faithful vector 2 to the x (R140). -/
  | vexp2 (d a : BitVec 5) (k t : BitVec 3)
  /-- Faithful vector base-2 logarithm (R140). -/
  | vlog2 (d a : BitVec 5) (k t : BitVec 3)
  /-- Faithful vector hyperbolic tangent (R140). -/
  | vtanh (d a : BitVec 5) (k t : BitVec 3)
  /-- Loads an 8-bit immediate into a Forecast register (R289). -/
  | fcLdi (d : BitVec 3) (n : BitVec 8)
  /-- Loads a field of the cursor queue (R290). -/
  | fcLdq (d : BitVec 3) (n : BitVec 8)
  /-- Loads a partition field (R291). -/
  | fcLdp (d : BitVec 3) (n : BitVec 8)
  /-- Loads a decision field (R292). -/
  | fcLde (d : BitVec 3) (n : BitVec 8)
  /-- Loads a scratch word as it stood at decision start (R297). -/
  | fcLds (d : BitVec 3) (n : BitVec 4)
  /-- Stages a scratch word write for END (R297). -/
  | fcSto (d : BitVec 3) (n : BitVec 4)
  /-- Forecast add modulo 2^32 (R289). -/
  | fcAdd (d s : BitVec 3)
  /-- Forecast subtract modulo 2^32 (R289). -/
  | fcSub (d s : BitVec 3)
  /-- Forecast shift left (R289). -/
  | fcShl (d : BitVec 3) (n : BitVec 5)
  /-- Forecast logical shift right (R289). -/
  | fcShr (d : BitVec 3) (n : BitVec 5)
  /-- Forecast bitwise AND (R289). -/
  | fcAnd (d s : BitVec 3)
  /-- Forecast bitwise OR (R289). -/
  | fcOr (d s : BitVec 3)
  /-- Forecast unsigned minimum (R289). -/
  | fcMin (d s : BitVec 3)
  /-- Forecast unsigned maximum (R289). -/
  | fcMax (d s : BitVec 3)
  /-- Conditionally selects a register (R289). -/
  | fcSel (d c s : BitVec 3)
  /-- Jumps by a signed displacement (R289). -/
  | fcJmp (n : BitVec 8)
  /-- Jumps when the register is zero (R289). -/
  | fcJz (d : BitVec 3) (n : BitVec 8)
  /-- Jumps when the register is non-zero (R289). -/
  | fcJnz (d : BitVec 3) (n : BitVec 8)
  /-- Jumps when bit 31 of the register is set (R289). -/
  | fcJlt (d : BitVec 3) (n : BitVec 8)
  /-- Moves the cursor to the next candidate queue (R270). -/
  | fcNextq (d : BitVec 3) (r : BitVec 1)
  /-- Moves the cursor to the candidate with the smallest field (R289). -/
  | fcPickmin (d : BitVec 3) (n : BitVec 8)
  /-- Moves the cursor to the candidate with the largest field (R289). -/
  | fcPickmax (d : BitVec 3) (n : BitVec 8)
  /-- Answers: dispatch the cursor queue's oldest activation (R293). -/
  | fcDisp
  /-- Answers: freeze a victim context's general rows and dispatch urgent work on a standby row (R274). -/
  | fcPreempt (d : BitVec 3)
  /-- Answers a fault decision with a halt action (R293). -/
  | fcFaultact (d : BitVec 3)
  /-- Answers: take no action now (R294). -/
  | fcDefer
  /-- Ends a decision, performs staged scratch writes and carries out the answer (R273). -/
  | fcEnd
  /-- Copies granules between mem and a near space (R189). -/
  | copy (h : CmdHdr) (o : CopyOps)
  /-- Copies strided rows between any two spaces (R191). -/
  | copy2d (h : CmdHdr) (o : Copy2dOps)
  /-- Copies granules then writes a completion word (R190). -/
  | copyc (h : CmdHdr) (o : CopycOps)
  /-- Gathers indexed table elements into a dense array (R197). -/
  | gather (h : CmdHdr) (o : GatherOps)
  /-- Scatters a dense array to indexed table elements (R197). -/
  | scatter (h : CmdHdr) (o : GatherOps)
  /-- Writes granules into the weight deck (R192). -/
  | deck (h : CmdHdr) (o : DeckOps)
  /-- Fills the loading tile registers from the deck (R193). -/
  | bload (h : CmdHdr) (o : BloadOps)
  /-- Runs a tile-task on the matrix array (R194). -/
  | mxt (h : CmdHdr) (o : MxtOps)
  /-- Writes accumulator rows to the core pad in a chosen format (R195). -/
  | mxdrain (h : CmdHdr) (o : MxdrainOps)
  /-- Contributes a member's buffer to a collective instance (R198). -/
  | coll (h : CmdHdr) (o : CollOps)
  /-- Submits one message to the die's intake engine (R200). -/
  | intake (h : CmdHdr) (o : IntakeOps)
  /-- Configures an L2 window slot and its address generator (R202). -/
  | window (h : CmdHdr) (o : WindowOps)
  /-- Writes a value as a release of everything ahead in its queue (R203). -/
  | note (h : CmdHdr) (o : NoteOps)
  /-- Joins queues, completing when its join set has completed (R204). -/
  | qfence (h : CmdHdr) (o : QfenceOps)
  /-- Checks a launch block and enqueues, arms or spans its activations (R281). -/
  | launch (o : LaunchOps)
  /-- Checks and starts a virtual pipeline or refuses it (R219). -/
  | pipe (o : PipeOps)
  /-- Appends one stream command from the host to a core's queue (R282). -/
  | cmd (o : CmdOps)
  /-- Performs an atomic store, add or maximum on a doubleword (R283). -/
  | signal (o : SignalOps)
  /-- Holds the ring until a doubleword satisfies a comparison (R283). -/
  | wait (o : WaitOps)
  /-- Measures and launches a block and builds a signed receipt (R310). -/
  | receipt (o : ReceiptOps)
  /-- Reads a Forecast image into the partition's staged slot (R284). -/
  | policyLoad (o : PolicyLoadOps)
  /-- Makes the staged image running at the next decision boundary (R275). -/
  | policySwap
  /-- Moves cores to a partition at each core's boundary (R301). -/
  | partCores (o : PartCoresOps)
  /-- Sets a partition's pool level, cap and rate (R298). -/
  | partPool (o : PartPoolOps)
  /-- Sets a partition's edge-tile and LLC shares, releasing windows (R256). -/
  | partCache (o : PartCacheOps)
  /-- Creates a queue or sets its priority and adds a segment (R299). -/
  | partQueue (o : PartQueueOps)
  /-- Sets drain, fault, defer and slice limits (R298). -/
  | partLimits (o : PartLimitsOps)
  /-- Sets a VF's queue and command quotas (R303). -/
  | partVf (o : PartVfOps)
  /-- Destroys an empty partition (R298). -/
  | partDrop (o : PartDropOps)
  /-- Creates, re-creates or destroys a context (R300). -/
  | partCtx (o : PartCtxOps)
  /-- A whole packet of refill joins the pool level (R70). -/
  | poolRefill (part : Nat)
  /-- A decision exceeding 128 operations or giving an illegal answer is taken by the fallback (R273). -/
  | overrun (die part : Nat)
  /-- F1 links a free-list segment to a full queue tail, or raises queue exhausted (R63). -/
  | segmentLink (cx qsel : Nat)
  /-- A commit waiting for room in a full engine queue resumes its appends (R184). -/
  | queueRoom (row : Nat)
  /-- A committed TLBI or PTSYNC item completes, letting the commit enqueue successors (R110). -/
  | tlbiComplete (row : Nat)
  /-- An enqueued or armed activation meets its wait, input and output conditions and is stamped ready (R51). -/
  | activationReady (cx act : Nat)
  /-- Passes isobars from every input to every output of a block without running it (R54). -/
  | isobarRound (cx act : Nat)
  /-- The Forecast unit raises and runs a kind 0, 1 or 2 decision (R272). -/
  | decision (die part : Nat)
  /-- The defer interval expires and a deferred decision is raised again (R294). -/
  | deferInterval (die part : Nat)
  /-- Rows frozen by PREEMPT resume when both standby rows are clear (R274). -/
  | lullResume (core : Nat)
  /-- F6 writes a frozen row's image to the pad and powers the row down (R323). -/
  | rowGate (row : Nat)
  /-- A page-table walk ends by installing an entry or reporting a page fault (R243). -/
  | walk (port : Nat)
  /-- A miss reaching the drain limit drains and deschedules the context on affected cores (R247). -/
  | drainLimit (port : Nat)
  /-- A miss reaching the fault limit becomes a translation context fault (R248). -/
  | faultLimit (port : Nat)
  /-- The page service replays a stalled access after its table writes are visible (R249). -/
  | replay (port : Nat)
  /-- An edge tile fills the next granule of a read stream window (R252). -/
  | windowFill (die tile slot : Nat)
  /-- After issued commands complete, writes the fault record, completes packets and the unsolicited record (R326). -/
  | faultRecordWrite (cx : Nat)
  /-- An uncorrectable error in unowned state faults every context on the die and stops it (R328). -/
  | machineCheck (die : Nat)
  /-- An uncorrectable error in scheduler memory forces fallback or faults a queue's context (R305). -/
  | schedulerEccError (site : EccSite)
  /-- A slice expires; dispatch stops for the outgoing VF and its pipelines park (R304). -/
  | sliceEnd (part : Nat)
  /-- The next VF starts after the last outgoing task retires, releasing withheld records (R304). -/
  | sliceStart (part : Nat)
  /-- A scroll's save completes; the row restores the next position or is freed (R211). -/
  | scrollSaveComplete (row : Nat)
  /-- A scroll's restore completes and the position is hosted (R211). -/
  | scrollRestoreComplete (row : Nat)
  /-- The Front dispatches a hosted position's ready activation on its row (R214). -/
  | frontDispatch (row : Nat)
  /-- The Front passes a cut's isobar through a hosted position (R224). -/
  | frontIsobarRound (row : Nat)
  /-- A command completes after its last write and updates its dependency slot (R186). -/
  | commandComplete (cx queue seq : Nat)
  /-- Once every member has issued, the instance combines and writes its results (R199). -/
  | collectiveResult (inst : Nat)
  /-- An intake message finishes tokenising or faults in a stage (R179). -/
  | messageDecided (die place : Nat)
  /-- Delivers a decided message's tokens or quarantine record in commit order (R179). -/
  | messageDelivery (die : Nat)
  /-- Tells the device how many packets of a context's ring are written (R276). -/
  | doorbellWrite (vf cx n : Nat)
  /-- A WAIT's limit expires and it completes with status 6 (R283). -/
  | waitTimeout (cx : Nat)
  /-- On launch completion re-checks code and arguments, chains the result and adds the receipt to the batch (R310). -/
  | receiptFinish (cx : Nat)
  /-- Closes the open batch, signs its root and writes receipts, records and completions (R317). -/
  | batchClose
  /-- Halt register ACT 0 resumes a halted context at the next packet (R327). -/
  | contextResume (cx : Nat)
  /-- Halt register ACT 1 halts the context with class 13 (R327). -/
  | hostHalt (cx : Nat)
  /-- Halt register ACT 2 resumes and re-parses packets after PKTSEQ (R327). -/
  | resumeWithRewind (cx : Nat)
  /-- Migration CMD 1 quiesces a context and writes its export image (R330). -/
  | exportCtx (cx : Nat)
  /-- Migration CMD 2 installs an export image on the destination (R330). -/
  | importCtx (cx : Nat)
  /-- Migration CMD 3 ends the source's forwarding stubs (R331). -/
  | releaseStubs (cx : Nat)
  /-- Counter bank ACT 1 claims the bank for the host or a guest (R353). -/
  | claim (vf bank : Nat)
  /-- Counter bank ACT 2 releases the bank, restoring a set-aside guest hold (R353). -/
  | release (vf bank : Nat)
  /-- Counter bank ACT 3 clears counters, captures and capture count (R351). -/
  | clearCounters (vf bank : Nat)
  /-- Reading a counter's low half latches its high half into the function's shadow (R354). -/
  | counterLowRead (vf bank k : Nat)
  /-- Reading the first doubleword latches the lowest-voltage report (R340). -/
  | voltageReportRead (die : Nat)
  /-- Writing the first doubleword latches and clears the report (R340). -/
  | voltageReportClear (die : Nat)
  /-- Debug ACT 1 stops the context at an isobar cut (R356). -/
  | debugStop (cx : Nat)
  /-- Debug ACT 2 resumes dispatch, issue and the cut (R356). -/
  | debugRelease (cx : Nat)
  /-- Debug ACT 3 stops, copies the context to DUMPA and releases (R357). -/
  | liveDump (cx : Nat)
  /-- A write to a device register with no behaviour of its own stores its defined fields (R6). -/
  | registerWrite (vf off : Nat) (v : BitVec 64)
  /-- Power from a feed starts the start-up sequence (R332). -/
  | powerOn
  /-- Management repeats start-up from step 2 after a failed start (R333). -/
  | startUpRequest
  /-- Management resets a die, repeating training and repair for it (R341). -/
  | dieReset (die : Nat)
  /-- One 48 V feed is lost and reported (R337). -/
  | feedLoss (feed : Nat)
  /-- A lost 48 V feed returns and is reported (R337). -/
  | feedReturn (feed : Nat)
  /-- Both feeds fail and every state is lost (R337). -/
  | powerLoss
  /-- At each power window F6 lowers or raises an island's LVLMAX against the cap (R338): the window's mean power as measured, in milliwatts, and
  which of the islands below their ceilings gains a level where one does. -/
  | powerWindow (mean island : Nat)
  /-- A PLDM effecter sets the power cap (R338). -/
  | powerCapSet (watts : Nat)
  /-- A PLDM effecter sets an island's LVLCAP (R338). -/
  | lvlcapSet (island level : Nat)
  /-- A PLDM numeric sensor read returns power, temperature, voltage or repair data (R342). -/
  | sensorRead (sensor : Sensor)
  /-- SPDM request returning supported versions (R342). -/
  | getVersion
  /-- SPDM request returning capabilities (R342). -/
  | getCapabilities
  /-- SPDM request negotiating SHA-256 and SLH-DSA (R342). -/
  | negotiateAlgorithms (sha256 slhDsa : Bool)
  /-- SPDM request returning certificate chain digests (R342). -/
  | getDigests
  /-- SPDM request returning the identity certificate chain (R342). -/
  | getCertificate (slot off len : Nat)
  /-- SPDM request answered with an identity-key signature (R342). -/
  | challenge (slot : Nat) (nonce : BitVec 256)
  /-- SPDM request returning firmware, certificate and repair digests (R343). -/
  | getMeasurements (index : Nat)
  /-- A CXL.io configuration request, retried until start-up completes (R333). -/
  | configurationRequest (off : Nat)
  /-- A host read through an HDM decoder reaches a location or returns poison (R345). -/
  | cxlMemRead (dec addr size : Nat)
  /-- A host write of `size` bytes of the number v through an HDM decoder reaches locations or is dropped (R345). -/
  | cxlMemWrite (dec addr size v : Nat)
  /-- A pod link flit is received, checked and delivered in order or retried (R347). -/
  | flitReceive (flit : Flit)
  /-- A time flit steps or slows the package timebase toward the master (R341). -/
  | timeFlit (master : BitVec 64)
  /-- After 8 failed retries a port goes down and unacknowledged flits reroute (R347). -/
  | portDown (port : Nat)
  /-- A lost route returns and stalled pod members proceed (R348). -/
  | routeReturn (dest port : Nat)
  /-- A voltage sensor reports a reading below the lowest seen since the last clear, and the die's report takes its value, sensor, island and stamp (R340). -/
  | voltageMinimum (die mv sensor island : Nat)
  /-- Management loads a package's pod route table, giving up to two ports per destination package (R346). -/
  | routeTableLoad (table : List (Nat × List Nat))
  /-- A pod barrier or COLL member stalled on an unreachable destination passes its partition's fault limit, and its context takes a collective context fault (R348). -/
  | collectiveFaultLimit (inst : Nat)
  deriving DecidableEq, Repr

end Sys2Proof
end

