-- ==== Sys2Proof/WellFormed.lean ====
section
/-! DEFINITION. Which operand values an instruction word, a command word or a packet body may hold: everything outside is an
illegal encoding (R6, R25, R28), an invalid command (R183) or an invalid packet (R277). -/

namespace Sys2Proof

/-- A canonical 57-bit virtual address (R38, R183). -/
def canonical (a : BitVec 64) : Bool := a.toNat < 2 ^ 56 || 2 ^ 64 - 2 ^ 56 ≤ a.toNat

/-- The space codes of R19 less `lane`. -/
def isWide (s : BitVec 3) : Bool := s == 0 || s == 2 || s == 3 || s == 4

/-- Elements a lane holds of a conversion type (R137). -/
def cvtElems (t : BitVec 3) : Nat := if t = 0 ∨ t = 7 then 1 else if t ≤ 2 then 2 else 4

/-- The reserved cases of `VCVT` (R137). -/
def cvtLegal (s : BitVec 3) (i : BitVec 1) (p : BitVec 2) (t : BitVec 3) : Bool :=
  decide (s ≠ t ∧ p.toNat < max (cvtElems s) (cvtElems t) / min (cvtElems s) (cvtElems t) ∧ (i = 1 → s = 7 ∨ t = 7))

/-- Bytes a space holds (R38); `mem` has no extent. -/
def extentOf (sp : BitVec 3) : Nat :=
  if sp = 1 then 4096 else if sp = 2 then 2 ^ 23 else if sp = 3 then 2 ^ 25 else 2 ^ 26

/-- `n` bytes from a 57-bit address or offset lie in the space `sp`; in `mem` every byte is canonical (R183, R191). -/
def fits (sp : BitVec 3) (a n : Nat) : Bool :=
  if sp = 0 then (if a < 2 ^ 56 then a + n ≤ 2 ^ 56 else a + n ≤ 2 ^ 57) else a + n ≤ extentOf sp

/-- `SETS` is a slot or none, and no slot the command waits on (R181, R183). -/
def CmdHdr.wf (h : CmdHdr) : Bool :=
  h.sets == 31 || (h.sets ≤ 15 && !h.waitm.getLsbD h.sets.toNat)

/-- The space a near code names: 2 and 5 `pad`, 3 and 6 `quad`, 4 and 7 `die` (R189). -/
def nearSpace (n : BitVec 3) : BitVec 3 := if n ≤ 4 then n else n - 3

/-- Bounds and alignment of R189, R191. R189 states no extent for `FAR`: that a command whose far side runs past the canonical range is not valid is the
model's choice, of COPY and COPYC (log 32, DESIGN CHOICE). -/
def CopyOps.wf (o : CopyOps) : Bool :=
  decide (o.far.toNat % 256 = 0 ∧ o.len ≠ 0 ∧ 2 ≤ o.near ∧ 256 * (o.noff.toNat + o.len.toNat) ≤ extentOf (nearSpace o.near))
    && fits 0 o.far.toNat (256 * o.len.toNat)

def CopycOps.wf (o : CopycOps) : Bool :=
  decide (o.far.toNat % 256 = 0 ∧ o.len ≠ 0 ∧ 2 ≤ o.near ∧ 256 * (o.noff.toNat + o.len.toNat) ≤ extentOf (nearSpace o.near) ∧ o.cwa.toNat % 8 = 0)
    && fits 0 o.far.toNat (256 * o.len.toNat)

def Copy2dOps.wf (o : Copy2dOps) : Bool :=
  isWide o.dsp && isWide o.ssp && decide (o.rows ≠ 0 ∧ o.rlen ≠ 0)
    && fits o.dsp o.dst.toNat ((o.rows.toNat - 1) * o.dstride.toNat + o.rlen.toNat)
    && fits o.ssp o.src.toNat ((o.rows.toNat - 1) * o.sstride.toNat + o.rlen.toNat)

/-- Bytes of an element and of an index (R196). -/
def GatherOps.esize (o : GatherOps) : Nat := 4 * 2 ^ o.esz.toNat
def GatherOps.isize (o : GatherOps) : Nat := if o.iw = 0 then 4 else 8

def GatherOps.wf (o : GatherOps) : Bool :=
  decide (o.esz ≤ 6 ∧ o.base.toNat % o.esize = 0 ∧ o.count ≠ 0 ∧ o.idx.toNat % o.isize = 0 ∧ o.data.toNat % o.esize = 0)
    && isWide o.isp && isWide o.dsp
    && fits o.isp o.idx.toNat (o.count.toNat * o.isize) && fits o.dsp o.data.toNat (o.count.toNat * o.esize)

def DeckOps.wf (o : DeckOps) : Bool :=
  decide (o.src.toNat % 256 = 0 ∧ o.len ≠ 0 ∧ o.doff.toNat + o.len.toNat ≤ 65536) && isWide o.ssp
    && fits o.ssp o.src.toNat (256 * o.len.toNat)

def BloadOps.wf (o : BloadOps) : Bool := decide (o.doff.toNat + 512 + 4 * o.sc.toNat ≤ 65536)

def MxtOps.m (o : MxtOps) : Nat := o.mm1.toNat + 1
def MxtOps.kc (o : MxtOps) : Nat := o.km1.toNat + 1
/-- Granules from one chained tile to the next (R163). -/
def MxtOps.stride (o : MxtOps) : Nat := if o.mode = 0 then 516 else 512

def MxtOps.wf (o : MxtOps) : Bool :=
  decide (o.mode ≠ 3 ∧ o.m * o.kc ≤ 256
    ∧ (o.mode = 0 → o.aprec ≠ 3 ∧ o.bprec ≠ 3 ∧ o.ascl.toNat + 2 * (o.m * o.kc) ≤ 2 ^ 23)
    ∧ (o.mode ≠ 0 → o.ascl = 0 ∧ o.aprec = 0 ∧ o.bprec = 0 ∧ o.afin = 0 ∧ o.bfin = 0)
    ∧ (o.ach = 1 → o.abase = 0 ∧ o.ahdr.toNat % 64 = 0)
    ∧ (o.ach = 0 → o.abase.toNat + o.m * o.kc ≤ 32768 ∧ o.ahdr = 0 ∧ o.aspc = 0)
    ∧ (o.kc = 1 → o.bnext = 0) ∧ (1 < o.kc → o.bnext.toNat + (o.kc - 1) * o.stride ≤ 65536))

def MxdrainOps.m (o : MxdrainOps) : Nat := o.mm1.toNat + 1
/-- Bytes a drain writes (R195). -/
def MxdrainOps.bytes (o : MxdrainOps) : Nat :=
  if o.ofmt = 0 then 2048 * o.m else if o.ofmt ≤ 2 then 1024 * o.m else 516 * o.m

def MxdrainOps.wf (o : MxdrainOps) : Bool :=
  decide (o.ofmt ≤ 3 ∧ (o.ofmt = 3 → o.prec ≠ 3) ∧ (o.ofmt ≠ 3 → o.prec = 0)
    ∧ 256 * o.dst.toNat + o.bytes ≤ 2 ^ 23)

def CollOps.wf (o : CollOps) : Bool :=
  decide (o.kind ≠ 3 ∧ o.dt ≤ 1 ∧ (o.kind = 2 → o.dt = 0) ∧ 2 ≤ o.scope ∧ o.scope ≤ 5 ∧ o.midx < o.nmem ∧ o.len ≠ 0
    ∧ o.src.toNat + o.len.toNat ≤ 32768 ∧ o.dst.toNat + o.len.toNat ≤ 32768)

def IntakeOps.wf (o : IntakeOps) : Bool := decide (o.slen ≠ 0 ∧ o.tenc ≠ 3 ∧ o.cset ≠ 7)

def WindowOps.wf (o : WindowOps) : Bool :=
  decide (o.wbase.toNat % 256 = 0 ∧ (o.dims = 0 → o.n0m1 = 0 ∧ o.str0 = 0) ∧ (o.dims ≤ 1 → o.n1m1 = 0 ∧ o.str1 = 0)
    ∧ (o.dims ≤ 2 → o.n2m1 = 0 ∧ o.str2 = 0))

def NoteOps.wf (o : NoteOps) : Bool :=
  isWide o.nsp && decide (o.naddr.toNat % 8 = 0 ∧ (o.long = 1 → o.nval = 0) ∧ (o.long = 0 → o.nval64 = 0))
    && fits o.nsp o.naddr.toNat 8

def QfenceOps.wf (o : QfenceOps) : Bool := o.qmask != 0

/-- A 4 KiB-aligned ring base with its log in bits [3:0], 4 to 12 (R300). -/
def ringField (a : BitVec 64) : Bool := canonical a && decide (a.toNat % 4096 ≤ 12 ∧ 4 ≤ a.toNat % 4096)

/-- A table root: 4 KiB aligned and inside PA[51:0] (R235, R300). -/
def rootField (a : BitVec 64) : Bool := decide (a.toNat % 4096 = 0 ∧ a.toNat < 2 ^ 52)

/-- The doublewords of a PART.CTX that destroys are held to the same rules, but for the log of a ring, which may be 0 as well (R300, log 32). -/
def PartCtxOps.wf (o : PartCtxOps) : Bool :=
  let ring := fun a => ringField a || (o.en == 0 && canonical a && a.toNat % 4096 == 0)
  decide (o.vf ≤ 64 ∧ o.padlo.toNat + o.padn.toNat ≤ 128 ∧ o.dielo.toNat + o.dien.toNat ≤ 64)
    && rootField o.root1 && rootField o.root2 && (o.nest == 1 || o.root2 == 0)
    && ring o.cring && ring o.dring && ring o.sring && canonical o.farea && o.farea.toNat % 4096 == 0

/-- Every check of an encoding, constructor by constructor. A step without a word has none. DESIGN CHOICE (R248,
R298): a fault limit is one of 40 bits, so 2^40 itself, which R248 names, is reserved (log 32). -/
def Instr.wf : Instr → Bool
  | .add .. => true
  | .sub .. => true
  | .mul .. => true
  | .mulh .. => true
  | .mulhn .. => true
  | .div .. => true
  | .divn .. => true
  | .rem .. => true
  | .remn .. => true
  | .and .. => true
  | .or .. => true
  | .xor .. => true
  | .andn .. => true
  | .shl .. => true
  | .shr .. => true
  | .sar .. => true
  | .min .. => true
  | .max .. => true
  | .minn .. => true
  | .maxn .. => true
  | .slt .. => true
  | .sltn .. => true
  | .seq .. => true
  | .clz .. => true
  | .popc .. => true
  | .bext .. => true
  | .bdep .. => true
  | .sext _ _ w => decide (w ≤ 2)
  | .zext _ _ w => decide (w ≤ 2)
  | .addi .. => true
  | .andi .. => true
  | .ori .. => true
  | .xori .. => true
  | .shli .. => true
  | .shri .. => true
  | .sari .. => true
  | .lui .. => true
  | .slti .. => true
  | .fadd _ _ _ m w => decide (m ≤ 4 ∧ w ≤ 2)
  | .fsub _ _ _ m w => decide (m ≤ 4 ∧ w ≤ 2)
  | .fmul _ _ _ m w => decide (m ≤ 4 ∧ w ≤ 2)
  | .fdiv _ _ _ m w => decide (m ≤ 4 ∧ w ≤ 2)
  | .fsqrt _ _ m w => decide (m ≤ 4 ∧ w ≤ 2)
  | .frsq _ _ m w => decide (m ≤ 4 ∧ w ≤ 2)
  | .fmin _ _ _ w => decide (w ≤ 2)
  | .fmax _ _ _ w => decide (w ≤ 2)
  | .fcvt _ _ c m w => decide (m ≤ 4 ∧ w ≤ 2 ∧ c ≤ 6 ∧ (c ≤ 2 → c.toNat ≠ w.toNat))
  | .fcmpEq _ _ _ w => decide (w ≤ 2)
  | .fcmpLt _ _ _ w => decide (w ≤ 2)
  | .fcmpLe _ _ _ w => decide (w ≤ 2)
  | .fcmpUn _ _ _ w => decide (w ≤ 2)
  | .fclass _ _ w => decide (w ≤ 2)
  | .fma _ _ _ m w => decide (m ≤ 4 ∧ w ≤ 2)
  | .mfs _ n => decide (n ≤ 10)
  | .mts _ n => decide (n = 4 ∨ n = 5 ∨ n = 8 ∨ n = 9)
  | .ld _ _ s w _ => decide (s ≤ 4 ∧ w ≤ 3)
  | .st _ _ s w _ => decide (s ≤ 4 ∧ w ≤ 3)
  | .vld _ _ s _ => decide (isWide s)
  | .vgld _ _ s _ => decide (isWide s)
  | .vst _ _ s _ => decide (isWide s)
  | .vlds .. => true
  | .vldsIx .. => true
  | .vsts .. => true
  | .lutx .. => true
  | .lutld .. => true
  | .beq .. => true
  | .bne .. => true
  | .blt .. => true
  | .bge .. => true
  | .bltn .. => true
  | .bgen .. => true
  | .bdnz a _ => decide (a ≠ 0)
  | .jal .. => true
  | .jalr .. => true
  | .charge .. => true
  | .mcs _ s => decide (s ≤ 2)
  | .crd .. => true
  | .crdt .. => true
  | .cwr .. => true
  | .cwrt t _ _ _ => decide (1 ≤ t ∧ t ≤ 3)
  | .advR .. => true
  | .advW .. => true
  | .emit _ q => decide (q ≤ 5)
  | .exit n f => decide (n ≤ 4 ∧ f.toNat + n.toNat ≤ 32 ∧ (n = 0 → f = 0))
  | .xwait .. => true
  | .xbar c _ n => decide (1 ≤ c ∧ c ≤ 5 ∧ 1 ≤ n ∧ n ≤ 12)
  | .xamo _ _ _ o _ => decide (o ≤ 8)
  | .xstop .. => true
  | .sadd s _ _ w => decide (isWide s ∧ (w = 2 ∨ w = 3))
  | .smin s _ _ w => decide (isWide s ∧ (w = 2 ∨ w = 3))
  | .smax s _ _ w => decide (isWide s ∧ (w = 2 ∨ w = 3))
  | .sor s _ _ w => decide (isWide s ∧ (w = 2 ∨ w = 3))
  | .sand s _ _ w => decide (isWide s ∧ (w = 2 ∨ w = 3))
  | .sfadd s _ _ => decide (isWide s)
  | .fenceAcq s => decide (1 ≤ s ∧ s ≤ 6)
  | .tlbiPage .. => true
  | .tlbiCtx .. => true
  | .tlbiPart .. => true
  | .ptsync .. => true
  | .trap .. => true
  | .brk .. => true
  | .vadd _ _ _ _ t => decide (t ≤ 5)
  | .vsub _ _ _ _ t => decide (t ≤ 5)
  | .vmul _ _ _ _ t => decide (t ≤ 5)
  | .vmulh _ _ _ _ t => decide (t ≤ 5)
  | .vadds _ _ _ _ t => decide (t ≤ 5)
  | .vsubs _ _ _ _ t => decide (t ≤ 5)
  | .vmin _ _ _ _ t => decide (t ≤ 5)
  | .vmax _ _ _ _ t => decide (t ≤ 5)
  | .vand _ _ _ _ t => decide (t ≤ 5)
  | .vor _ _ _ _ t => decide (t ≤ 5)
  | .vxor _ _ _ _ t => decide (t ≤ 5)
  | .vandn _ _ _ _ t => decide (t ≤ 5)
  | .vshl _ _ _ _ t => decide (t ≤ 5)
  | .vshr _ _ _ _ t => decide (t ≤ 5)
  | .vsar _ _ _ _ t => decide (t ≤ 5)
  | .vabsd _ _ _ _ t => decide (t ≤ 5)
  | .vclz _ _ _ t => decide (t ≤ 5)
  | .vpopc _ _ _ t => decide (t ≤ 5)
  | .vpack _ _ _ _ t => decide (2 ≤ t ∧ t ≤ 5)
  | .vunpack _ _ p _ t => decide (2 ≤ t ∧ t ≤ 5 ∧ p ≤ 1)
  | .vfadd _ _ _ _ t => decide (t ≤ 5)
  | .vfsub _ _ _ _ t => decide (t ≤ 5)
  | .vfmul _ _ _ _ t => decide (t ≤ 5)
  | .vfmin _ _ _ _ t => decide (t ≤ 5)
  | .vfmax _ _ _ _ t => decide (t ≤ 5)
  | .vfms _ _ _ _ t => decide (t ≤ 5)
  | .vfnma _ _ _ _ t => decide (t ≤ 5)
  | .vscale _ _ _ _ t => decide (t ≤ 5)
  | .vfma _ _ _ _ _ t => decide (t ≤ 5)
  | .vcvt _ _ s i _ p r t => decide (r ≤ 4 ∧ cvtLegal s i p t)
  | .vcvtSr _ _ s i _ p t => decide (t ≠ 7 ∧ cvtLegal s i p t)
  | .vrsum _ _ _ t => decide (t ≤ 5)
  | .vrmin _ _ _ t => decide (t ≤ 5)
  | .vrmax _ _ _ t => decide (t ≤ 5)
  | .vrfsum _ _ _ t => decide (t ≤ 5)
  | .vscan _ _ _ t => decide (t ≤ 5)
  | .vperm .. => true
  | .vshuf .. => true
  | .vrot _ _ n _ => decide (n ≤ 15)
  | .vnbr _ _ n _ => decide (n ≤ 3)
  | .vcmpEq d _ _ _ t => decide (d ≤ 7 ∧ t ≤ 5)
  | .vcmpNe d _ _ _ t => decide (d ≤ 7 ∧ t ≤ 5)
  | .vcmpLt d _ _ _ t => decide (d ≤ 7 ∧ t ≤ 5)
  | .vcmpLe d _ _ _ t => decide (d ≤ 7 ∧ t ≤ 5)
  | .vfcmpEq d _ _ _ t => decide (d ≤ 7 ∧ t ≤ 5)
  | .vfcmpLt d _ _ _ t => decide (d ≤ 7 ∧ t ≤ 5)
  | .vfcmpLe d _ _ _ t => decide (d ≤ 7 ∧ t ≤ 5)
  | .vfcmpUn d _ _ _ t => decide (d ≤ 7 ∧ t ≤ 5)
  | .vbcst _ _ _ t => decide (t ≤ 5)
  | .vins _ _ n t => decide (n ≤ 15 ∧ t ≤ 1)
  | .vext _ _ n t => decide (n ≤ 15 ∧ t ≤ 1)
  | .vmov .. => true
  | .vli .. => true
  | .vlih .. => true
  | .vlui .. => true
  | .vorli .. => true
  | .vaddi .. => true
  | .vsel .. => true
  | .kand d a b => decide (d ≤ 7 ∧ a ≤ 7 ∧ b ≤ 7)
  | .kor d a b => decide (d ≤ 7 ∧ a ≤ 7 ∧ b ≤ 7)
  | .knot d a => decide (d ≤ 7 ∧ a ≤ 7)
  | .kmov d a => decide (d ≤ 7 ∧ a ≤ 7)
  | .kmovFromScalar d _ => decide (d ≤ 7)
  | .kmovToScalar _ a => decide (a ≤ 7)
  | .vrcp _ _ _ t => decide (t ≤ 2)
  | .vrsq _ _ _ t => decide (t ≤ 2)
  | .vexp2 _ _ _ t => decide (t ≤ 2)
  | .vlog2 _ _ _ t => decide (t ≤ 2)
  | .vtanh _ _ _ t => decide (t ≤ 2)
  | .fcLdi .. => true
  | .fcLdq _ n => decide (n ≤ 11)
  | .fcLdp _ n => decide (n ≤ 8)
  | .fcLde _ n => decide (n ≤ 9)
  | .fcLds .. => true
  | .fcSto .. => true
  | .fcAdd .. => true
  | .fcSub .. => true
  | .fcShl .. => true
  | .fcShr .. => true
  | .fcAnd .. => true
  | .fcOr .. => true
  | .fcMin .. => true
  | .fcMax .. => true
  | .fcSel .. => true
  | .fcJmp .. => true
  | .fcJz .. => true
  | .fcJnz .. => true
  | .fcJlt .. => true
  | .fcNextq .. => true
  | .fcPickmin _ n => decide (n ≤ 11)
  | .fcPickmax _ n => decide (n ≤ 11)
  | .fcDisp .. => true
  | .fcPreempt .. => true
  | .fcFaultact .. => true
  | .fcDefer .. => true
  | .fcEnd .. => true
  | .copy h o => decide (h.wf = true ∧ o.wf = true)
  | .copy2d h o => decide (h.wf = true ∧ o.wf = true)
  | .copyc h o => decide (h.wf = true ∧ o.wf = true)
  | .gather h o => decide (h.wf = true ∧ o.wf = true)
  | .scatter h o => decide (h.wf = true ∧ o.wf = true)
  | .deck h o => decide (h.wf = true ∧ o.wf = true)
  | .bload h o => decide (h.wf = true ∧ o.wf = true)
  | .mxt h o => decide (h.wf = true ∧ o.wf = true)
  | .mxdrain h o => decide (h.wf = true ∧ o.wf = true)
  | .coll h o => decide (h.wf = true ∧ o.wf = true)
  | .intake h o => decide (h.wf = true ∧ o.wf = true)
  | .window h o => decide (h.wf = true ∧ o.wf = true)
  | .note h o => decide (h.wf = true ∧ o.wf = true)
  | .qfence h o => decide (h.wf = true ∧ o.wf = true)
  | .launch o => decide (1 ≤ o.count ∧ o.count.toNat ≤ 2 ^ 20)
  | .pipe .. => true
  | .cmd o => decide (o.queue ≤ 5)
  | .signal o => decide (o.op ≤ 2 ∧ canonical o.addr ∧ o.addr.toNat % 8 = 0)
  | .wait o => decide (o.op ≤ 1 ∧ canonical o.addr ∧ o.addr.toNat % 8 = 0)
  | .receipt .. => true
  | .policyLoad o => decide (canonical o.img ∧ o.img.toNat % 2 = 0)
  | .policySwap .. => true
  | .partCores .. => true
  | .partPool o => decide (1 ≤ o.pcap)
  | .partCache o => decide (o.scount.toNat ≤ 1024 ∧ o.tquota.toNat ≤ 24576 ∧ o.lquota.toNat ≤ 2 ^ 20)
  | .partQueue o => decide (canonical o.segment ∧ o.segment.toNat % 4096 = 0)
  | .partLimits o => decide (1000 ≤ o.drain ∧ o.drain.toNat ≤ o.fault.toNat ∧ o.fault.toNat < 2 ^ 40 ∧ 1 ≤ o.dint)
  | .partVf o => decide (o.vf ≤ 64)
  | .partDrop .. => true
  | .partCtx o => decide (o.wf = true)
  | .poolRefill .. => true
  | .overrun .. => true
  | .segmentLink .. => true
  | .queueRoom .. => true
  | .tlbiComplete .. => true
  | .activationReady .. => true
  | .isobarRound .. => true
  | .decision .. => true
  | .deferInterval .. => true
  | .lullResume .. => true
  | .rowGate .. => true
  | .walk .. => true
  | .drainLimit .. => true
  | .faultLimit .. => true
  | .replay .. => true
  | .windowFill .. => true
  | .faultRecordWrite .. => true
  | .machineCheck .. => true
  | .schedulerEccError .. => true
  | .sliceEnd .. => true
  | .sliceStart .. => true
  | .scrollSaveComplete .. => true
  | .scrollRestoreComplete .. => true
  | .frontDispatch .. => true
  | .frontIsobarRound .. => true
  | .commandComplete .. => true
  | .collectiveResult .. => true
  | .messageDecided .. => true
  | .messageDelivery .. => true
  | .doorbellWrite vf _ _ => decide (vf ≤ 64)
  | .waitTimeout .. => true
  | .receiptFinish .. => true
  | .batchClose .. => true
  | .contextResume .. => true
  | .hostHalt .. => true
  | .resumeWithRewind .. => true
  | .exportCtx .. => true
  | .importCtx .. => true
  | .releaseStubs .. => true
  | .claim vf bank => decide (vf ≤ 64 ∧ bank < 36)
  | .release vf bank => decide (vf ≤ 64 ∧ bank < 36)
  | .clearCounters vf bank => decide (vf ≤ 64 ∧ bank < 36)
  | .counterLowRead vf bank k => decide (vf ≤ 64 ∧ bank < 36 ∧ k ≤ 16)
  | .voltageReportRead .. => true
  | .voltageReportClear .. => true
  | .debugStop .. => true
  | .debugRelease .. => true
  | .liveDump .. => true
  | .registerWrite vf _ _ => decide (vf ≤ 64)
  | .powerOn .. => true
  | .startUpRequest .. => true
  | .dieReset .. => true
  | .feedLoss .. => true
  | .feedReturn .. => true
  | .powerLoss .. => true
  | .powerWindow .. => true
  | .powerCapSet .. => true
  | .lvlcapSet .. => true
  | .sensorRead .. => true
  | .getVersion .. => true
  | .getCapabilities .. => true
  | .negotiateAlgorithms .. => true
  | .getDigests .. => true
  | .getCertificate .. => true
  | .challenge .. => true
  | .getMeasurements .. => true
  | .configurationRequest .. => true
  | .cxlMemRead .. => true
  | .cxlMemWrite .. => true
  | .flitReceive f => decide (f.port < 16 ∧ f.vc < 16)
  | .timeFlit .. => true
  | .portDown .. => true
  | .routeReturn .. => true
  | .voltageMinimum .. => true
  | .routeTableLoad .. => true
  | .collectiveFaultLimit .. => true

end Sys2Proof
end

