-- ==== Sys2Proof/Decode.lean ====
section
/-! DEFINITION. Decoding of instruction words, Forecast halfwords, command words and packets, each total and rejecting what the spec
reserves; and the encoders written from the same tables. -/

namespace Sys2Proof

/-- Bits `hi` to `lo` of a number. -/
def fld (w hi lo : Nat) : Nat := w / 2 ^ lo % 2 ^ (hi - lo + 1)

/-- Bits `hi` to `lo` of a number as a field. -/
def bvf (w hi lo : Nat) : BitVec (hi - lo + 1) := BitVec.ofNat _ (w / 2 ^ lo)

/-- The number whose little-endian bytes are given (R3). -/
def natOfBytes : List Byte → Nat
  | [] => 0
  | b :: bs => b.toNat + 256 * natOfBytes bs

/-- The `n` little-endian bytes of a number (R3). -/
def bytesOfNat : Nat → Nat → List Byte
  | 0, _ => []
  | n + 1, w => BitVec.ofNat 8 w :: bytesOfNat n (w / 256)

/-- Major opcode 0x01 (R27). -/
def decodeOp01 (w : Nat) : Option Instr :=
  if fld w 10 0 = 0 then some (.add (bvf w 25 21) (bvf w 20 16) (bvf w 15 11)) else
  if fld w 10 0 = 8 then some (.sub (bvf w 25 21) (bvf w 20 16) (bvf w 15 11)) else
  if fld w 10 0 = 16 then some (.mul (bvf w 25 21) (bvf w 20 16) (bvf w 15 11)) else
  if fld w 10 0 = 24 then some (.mulh (bvf w 25 21) (bvf w 20 16) (bvf w 15 11)) else
  if fld w 10 0 = 32 then some (.mulhn (bvf w 25 21) (bvf w 20 16) (bvf w 15 11)) else
  if fld w 10 0 = 40 then some (.div (bvf w 25 21) (bvf w 20 16) (bvf w 15 11)) else
  if fld w 10 0 = 48 then some (.divn (bvf w 25 21) (bvf w 20 16) (bvf w 15 11)) else
  if fld w 10 0 = 56 then some (.rem (bvf w 25 21) (bvf w 20 16) (bvf w 15 11)) else
  if fld w 10 0 = 64 then some (.remn (bvf w 25 21) (bvf w 20 16) (bvf w 15 11)) else
  if fld w 10 0 = 72 then some (.and (bvf w 25 21) (bvf w 20 16) (bvf w 15 11)) else
  if fld w 10 0 = 80 then some (.or (bvf w 25 21) (bvf w 20 16) (bvf w 15 11)) else
  if fld w 10 0 = 88 then some (.xor (bvf w 25 21) (bvf w 20 16) (bvf w 15 11)) else
  if fld w 10 0 = 96 then some (.andn (bvf w 25 21) (bvf w 20 16) (bvf w 15 11)) else
  if fld w 10 0 = 104 then some (.shl (bvf w 25 21) (bvf w 20 16) (bvf w 15 11)) else
  if fld w 10 0 = 112 then some (.shr (bvf w 25 21) (bvf w 20 16) (bvf w 15 11)) else
  if fld w 10 0 = 120 then some (.sar (bvf w 25 21) (bvf w 20 16) (bvf w 15 11)) else
  if fld w 10 0 = 128 then some (.min (bvf w 25 21) (bvf w 20 16) (bvf w 15 11)) else
  if fld w 10 0 = 136 then some (.max (bvf w 25 21) (bvf w 20 16) (bvf w 15 11)) else
  if fld w 10 0 = 144 then some (.minn (bvf w 25 21) (bvf w 20 16) (bvf w 15 11)) else
  if fld w 10 0 = 152 then some (.maxn (bvf w 25 21) (bvf w 20 16) (bvf w 15 11)) else
  if fld w 10 0 = 160 then some (.slt (bvf w 25 21) (bvf w 20 16) (bvf w 15 11)) else
  if fld w 10 0 = 168 then some (.sltn (bvf w 25 21) (bvf w 20 16) (bvf w 15 11)) else
  if fld w 10 0 = 176 then some (.seq (bvf w 25 21) (bvf w 20 16) (bvf w 15 11)) else
  if fld w 15 0 = 184 then some (.clz (bvf w 25 21) (bvf w 20 16)) else
  if fld w 15 0 = 192 then some (.popc (bvf w 25 21) (bvf w 20 16)) else
  if fld w 10 0 = 200 then some (.bext (bvf w 25 21) (bvf w 20 16) (bvf w 15 11)) else
  if fld w 10 0 = 208 then some (.bdep (bvf w 25 21) (bvf w 20 16) (bvf w 15 11)) else
  if fld w 15 3 = 27 then some (.sext (bvf w 25 21) (bvf w 20 16) (bvf w 2 0)) else
  if fld w 15 3 = 28 then some (.zext (bvf w 25 21) (bvf w 20 16) (bvf w 2 0)) else
  none

/-- Major opcode 0x02 (R27). -/
def decodeOp02 (w : Nat) : Option Instr :=
  some (.addi (bvf w 25 21) (bvf w 20 16) (bvf w 15 0))

/-- Major opcode 0x03 (R27). -/
def decodeOp03 (w : Nat) : Option Instr :=
  some (.andi (bvf w 25 21) (bvf w 20 16) (bvf w 15 0))

/-- Major opcode 0x04 (R27). -/
def decodeOp04 (w : Nat) : Option Instr :=
  some (.ori (bvf w 25 21) (bvf w 20 16) (bvf w 15 0))

/-- Major opcode 0x05 (R27). -/
def decodeOp05 (w : Nat) : Option Instr :=
  some (.xori (bvf w 25 21) (bvf w 20 16) (bvf w 15 0))

/-- Major opcode 0x06 (R27). -/
def decodeOp06 (w : Nat) : Option Instr :=
  if fld w 15 6 = 0 then some (.shli (bvf w 25 21) (bvf w 20 16) (bvf w 5 0)) else
  if fld w 15 6 = 1 then some (.shri (bvf w 25 21) (bvf w 20 16) (bvf w 5 0)) else
  if fld w 15 6 = 2 then some (.sari (bvf w 25 21) (bvf w 20 16) (bvf w 5 0)) else
  none

/-- Major opcode 0x07 (R27). -/
def decodeOp07 (w : Nat) : Option Instr :=
  if fld w 20 16 = 0 then some (.lui (bvf w 25 21) (bvf w 15 0)) else
  none

/-- Major opcode 0x08 (R27). -/
def decodeOp08 (w : Nat) : Option Instr :=
  some (.slti (bvf w 25 21) (bvf w 20 16) (bvf w 15 0))

/-- Major opcode 0x09 (R27). -/
def decodeOp09 (w : Nat) : Option Instr :=
  if fld w 10 6 = 0 then some (.fadd (bvf w 25 21) (bvf w 20 16) (bvf w 15 11) (bvf w 5 3) (bvf w 2 0)) else
  if fld w 10 6 = 1 then some (.fsub (bvf w 25 21) (bvf w 20 16) (bvf w 15 11) (bvf w 5 3) (bvf w 2 0)) else
  if fld w 10 6 = 2 then some (.fmul (bvf w 25 21) (bvf w 20 16) (bvf w 15 11) (bvf w 5 3) (bvf w 2 0)) else
  if fld w 10 6 = 3 then some (.fdiv (bvf w 25 21) (bvf w 20 16) (bvf w 15 11) (bvf w 5 3) (bvf w 2 0)) else
  if fld w 15 6 = 4 then some (.fsqrt (bvf w 25 21) (bvf w 20 16) (bvf w 5 3) (bvf w 2 0)) else
  if fld w 15 6 = 5 then some (.frsq (bvf w 25 21) (bvf w 20 16) (bvf w 5 3) (bvf w 2 0)) else
  if fld w 10 3 = 48 then some (.fmin (bvf w 25 21) (bvf w 20 16) (bvf w 15 11) (bvf w 2 0)) else
  if fld w 10 3 = 56 then some (.fmax (bvf w 25 21) (bvf w 20 16) (bvf w 15 11) (bvf w 2 0)) else
  if fld w 10 6 = 8 then some (.fcvt (bvf w 25 21) (bvf w 20 16) (bvf w 15 11) (bvf w 5 3) (bvf w 2 0)) else
  if fld w 10 3 = 72 then some (.fcmpEq (bvf w 25 21) (bvf w 20 16) (bvf w 15 11) (bvf w 2 0)) else
  if fld w 10 3 = 80 then some (.fcmpLt (bvf w 25 21) (bvf w 20 16) (bvf w 15 11) (bvf w 2 0)) else
  if fld w 10 3 = 88 then some (.fcmpLe (bvf w 25 21) (bvf w 20 16) (bvf w 15 11) (bvf w 2 0)) else
  if fld w 10 3 = 96 then some (.fcmpUn (bvf w 25 21) (bvf w 20 16) (bvf w 15 11) (bvf w 2 0)) else
  if fld w 15 3 = 104 then some (.fclass (bvf w 25 21) (bvf w 20 16) (bvf w 2 0)) else
  none

/-- Major opcode 0x0A (R27). -/
def decodeOp0A (w : Nat) : Option Instr :=
  if fld w 10 6 = 0 then some (.fma (bvf w 25 21) (bvf w 20 16) (bvf w 15 11) (bvf w 5 3) (bvf w 2 0)) else
  none

/-- Major opcode 0x0B (R27). -/
def decodeOp0B (w : Nat) : Option Instr :=
  if fld w 20 5 = 0 then some (.mfs (bvf w 25 21) (bvf w 4 0)) else
  if fld w 15 5 = 1024 ∧ fld w 25 21 = 0 then some (.mts (bvf w 20 16) (bvf w 4 0)) else
  none

/-- Major opcode 0x10 (R27). -/
def decodeOp10 (w : Nat) : Option Instr :=
  some (.ld (bvf w 25 21) (bvf w 20 16) (bvf w 15 13) (bvf w 12 10) (bvf w 9 0))

/-- Major opcode 0x11 (R27). -/
def decodeOp11 (w : Nat) : Option Instr :=
  some (.st (bvf w 25 21) (bvf w 20 16) (bvf w 15 13) (bvf w 12 10) (bvf w 9 0))

/-- Major opcode 0x12 (R27). -/
def decodeOp12 (w : Nat) : Option Instr :=
  if fld w 12 10 = 0 then some (.vld (bvf w 25 21) (bvf w 20 16) (bvf w 15 13) (bvf w 9 0)) else
  if fld w 12 10 = 1 then some (.vgld (bvf w 25 21) (bvf w 20 16) (bvf w 15 13) (bvf w 9 0)) else
  none

/-- Major opcode 0x13 (R27). -/
def decodeOp13 (w : Nat) : Option Instr :=
  if fld w 12 10 = 0 then some (.vst (bvf w 25 21) (bvf w 20 16) (bvf w 15 13) (bvf w 9 0)) else
  none

/-- Major opcode 0x14 (R27). -/
def decodeOp14 (w : Nat) : Option Instr :=
  if fld w 15 10 = 8 then some (.vlds (bvf w 25 21) (bvf w 20 16) (bvf w 9 0)) else
  if fld w 15 10 = 9 then some (.vldsIx (bvf w 25 21) (bvf w 20 16) (bvf w 9 0)) else
  none

/-- Major opcode 0x15 (R27). -/
def decodeOp15 (w : Nat) : Option Instr :=
  if fld w 15 10 = 8 then some (.vsts (bvf w 25 21) (bvf w 20 16) (bvf w 9 0)) else
  none

/-- Major opcode 0x16 (R27). -/
def decodeOp16 (w : Nat) : Option Instr :=
  if fld w 7 0 = 0 then some (.lutx (bvf w 25 21) (bvf w 20 16) (bvf w 15 11) (bvf w 10 8)) else
  if fld w 15 0 = 8 ∧ fld w 25 21 = 0 then some (.lutld (bvf w 20 16)) else
  none

/-- Major opcode 0x18 (R27). -/
def decodeOp18 (w : Nat) : Option Instr :=
  some (.beq (bvf w 25 21) (bvf w 20 16) (bvf w 15 0))

/-- Major opcode 0x19 (R27). -/
def decodeOp19 (w : Nat) : Option Instr :=
  some (.bne (bvf w 25 21) (bvf w 20 16) (bvf w 15 0))

/-- Major opcode 0x1A (R27). -/
def decodeOp1A (w : Nat) : Option Instr :=
  some (.blt (bvf w 25 21) (bvf w 20 16) (bvf w 15 0))

/-- Major opcode 0x1B (R27). -/
def decodeOp1B (w : Nat) : Option Instr :=
  some (.bge (bvf w 25 21) (bvf w 20 16) (bvf w 15 0))

/-- Major opcode 0x1C (R27). -/
def decodeOp1C (w : Nat) : Option Instr :=
  some (.bltn (bvf w 25 21) (bvf w 20 16) (bvf w 15 0))

/-- Major opcode 0x1D (R27). -/
def decodeOp1D (w : Nat) : Option Instr :=
  some (.bgen (bvf w 25 21) (bvf w 20 16) (bvf w 15 0))

/-- Major opcode 0x1E (R27). -/
def decodeOp1E (w : Nat) : Option Instr :=
  if fld w 20 16 = 0 then some (.bdnz (bvf w 25 21) (bvf w 15 0)) else
  none

/-- Major opcode 0x20 (R27). -/
def decodeOp20 (w : Nat) : Option Instr :=
  some (.jal (bvf w 25 0))

/-- Major opcode 0x21 (R27). -/
def decodeOp21 (w : Nat) : Option Instr :=
  some (.jalr (bvf w 25 21) (bvf w 20 16) (bvf w 15 0))

/-- Major opcode 0x22 (R27). -/
def decodeOp22 (w : Nat) : Option Instr :=
  if fld w 15 12 = 0 then some (.charge (bvf w 25 21) (bvf w 20 16) (bvf w 11 0)) else
  if fld w 20 12 = 1 then some (.mcs (bvf w 25 21) (bvf w 11 0)) else
  none

/-- Major opcode 0x23 (R27). -/
def decodeOp23 (w : Nat) : Option Instr :=
  if fld w 15 13 = 0 then some (.crd (bvf w 25 21) (bvf w 20 16) (bvf w 12 9) (bvf w 8 0)) else
  if fld w 15 13 = 1 then some (.crdt (bvf w 25 21) (bvf w 20 16) (bvf w 12 9) (bvf w 8 0)) else
  if fld w 15 13 = 2 then some (.cwr (bvf w 25 21) (bvf w 20 16) (bvf w 12 9) (bvf w 8 0)) else
  if fld w 15 13 = 3 then some (.cwrt (bvf w 25 21) (bvf w 20 16) (bvf w 12 9) (bvf w 8 0)) else
  if fld w 15 13 = 4 ∧ fld w 25 21 = 0 then some (.advR (bvf w 20 16) (bvf w 12 9) (bvf w 8 0)) else
  if fld w 15 13 = 5 ∧ fld w 25 21 = 0 then some (.advW (bvf w 20 16) (bvf w 12 9) (bvf w 8 0)) else
  none

/-- Major opcode 0x24 (R27). -/
def decodeOp24 (w : Nat) : Option Instr :=
  if fld w 15 3 = 0 ∧ fld w 25 21 = 0 then some (.emit (bvf w 20 16) (bvf w 2 0)) else
  none

/-- Major opcode 0x25 (R27). -/
def decodeOp25 (w : Nat) : Option Instr :=
  if fld w 13 0 = 0 ∧ fld w 25 22 = 0 then some (.exit (bvf w 21 19) (bvf w 18 14)) else
  if fld w 5 0 = 0 ∧ fld w 25 22 = 1 then some (.xwait (bvf w 21 17) (bvf w 16 12) (bvf w 11 7) (bvf w 6 6)) else
  if fld w 9 0 = 0 ∧ fld w 25 22 = 2 then some (.xbar (bvf w 21 19) (bvf w 18 14) (bvf w 13 10)) else
  if fld w 1 0 = 0 ∧ fld w 25 22 = 3 then some (.xamo (bvf w 21 17) (bvf w 16 12) (bvf w 11 7) (bvf w 6 3) (bvf w 2 2)) else
  if fld w 25 0 = 16777216 then some (.xstop) else
  none

/-- Major opcode 0x26 (R27). -/
def decodeOp26 (w : Nat) : Option Instr :=
  if fld w 10 3 = 0 ∧ fld w 25 24 = 0 then some (.sadd (bvf w 23 21) (bvf w 20 16) (bvf w 15 11) (bvf w 2 0)) else
  if fld w 10 3 = 1 ∧ fld w 25 24 = 0 then some (.smin (bvf w 23 21) (bvf w 20 16) (bvf w 15 11) (bvf w 2 0)) else
  if fld w 10 3 = 2 ∧ fld w 25 24 = 0 then some (.smax (bvf w 23 21) (bvf w 20 16) (bvf w 15 11) (bvf w 2 0)) else
  if fld w 10 3 = 3 ∧ fld w 25 24 = 0 then some (.sor (bvf w 23 21) (bvf w 20 16) (bvf w 15 11) (bvf w 2 0)) else
  if fld w 10 3 = 4 ∧ fld w 25 24 = 0 then some (.sand (bvf w 23 21) (bvf w 20 16) (bvf w 15 11) (bvf w 2 0)) else
  if fld w 10 0 = 42 ∧ fld w 25 24 = 0 then some (.sfadd (bvf w 23 21) (bvf w 20 16) (bvf w 15 11)) else
  none

/-- Major opcode 0x27 (R27). -/
def decodeOp27 (w : Nat) : Option Instr :=
  if fld w 18 0 = 0 ∧ fld w 25 22 = 0 then some (.fenceAcq (bvf w 21 19)) else
  none

/-- Major opcode 0x28 (R27). -/
def decodeOp28 (w : Nat) : Option Instr :=
  if fld w 13 0 = 0 ∧ fld w 16 15 = 0 ∧ fld w 25 22 = 0 then some (.tlbiPage (bvf w 21 17) (bvf w 14 14)) else
  if fld w 13 0 = 0 ∧ fld w 25 15 = 1 then some (.tlbiCtx (bvf w 14 14)) else
  if fld w 13 0 = 0 ∧ fld w 25 15 = 2 then some (.tlbiPart (bvf w 14 14)) else
  if fld w 25 0 = 4194304 then some (.ptsync) else
  none

/-- Major opcode 0x29 (R27). -/
def decodeOp29 (w : Nat) : Option Instr :=
  if fld w 25 22 = 0 then some (.trap (bvf w 21 0)) else
  if fld w 25 0 = 4194304 then some (.brk) else
  none

/-- Major opcode 0x30 (R27). -/
def decodeOp30 (w : Nat) : Option Instr :=
  if fld w 7 3 = 0 then some (.vadd (bvf w 25 21) (bvf w 20 16) (bvf w 15 11) (bvf w 10 8) (bvf w 2 0)) else
  if fld w 7 3 = 1 then some (.vsub (bvf w 25 21) (bvf w 20 16) (bvf w 15 11) (bvf w 10 8) (bvf w 2 0)) else
  if fld w 7 3 = 2 then some (.vmul (bvf w 25 21) (bvf w 20 16) (bvf w 15 11) (bvf w 10 8) (bvf w 2 0)) else
  if fld w 7 3 = 3 then some (.vmulh (bvf w 25 21) (bvf w 20 16) (bvf w 15 11) (bvf w 10 8) (bvf w 2 0)) else
  if fld w 7 3 = 4 then some (.vadds (bvf w 25 21) (bvf w 20 16) (bvf w 15 11) (bvf w 10 8) (bvf w 2 0)) else
  if fld w 7 3 = 5 then some (.vsubs (bvf w 25 21) (bvf w 20 16) (bvf w 15 11) (bvf w 10 8) (bvf w 2 0)) else
  if fld w 7 3 = 6 then some (.vmin (bvf w 25 21) (bvf w 20 16) (bvf w 15 11) (bvf w 10 8) (bvf w 2 0)) else
  if fld w 7 3 = 7 then some (.vmax (bvf w 25 21) (bvf w 20 16) (bvf w 15 11) (bvf w 10 8) (bvf w 2 0)) else
  if fld w 7 3 = 8 then some (.vand (bvf w 25 21) (bvf w 20 16) (bvf w 15 11) (bvf w 10 8) (bvf w 2 0)) else
  if fld w 7 3 = 9 then some (.vor (bvf w 25 21) (bvf w 20 16) (bvf w 15 11) (bvf w 10 8) (bvf w 2 0)) else
  if fld w 7 3 = 10 then some (.vxor (bvf w 25 21) (bvf w 20 16) (bvf w 15 11) (bvf w 10 8) (bvf w 2 0)) else
  if fld w 7 3 = 11 then some (.vandn (bvf w 25 21) (bvf w 20 16) (bvf w 15 11) (bvf w 10 8) (bvf w 2 0)) else
  if fld w 7 3 = 12 then some (.vshl (bvf w 25 21) (bvf w 20 16) (bvf w 15 11) (bvf w 10 8) (bvf w 2 0)) else
  if fld w 7 3 = 13 then some (.vshr (bvf w 25 21) (bvf w 20 16) (bvf w 15 11) (bvf w 10 8) (bvf w 2 0)) else
  if fld w 7 3 = 14 then some (.vsar (bvf w 25 21) (bvf w 20 16) (bvf w 15 11) (bvf w 10 8) (bvf w 2 0)) else
  if fld w 7 3 = 15 then some (.vabsd (bvf w 25 21) (bvf w 20 16) (bvf w 15 11) (bvf w 10 8) (bvf w 2 0)) else
  if fld w 7 3 = 16 ∧ fld w 15 11 = 0 then some (.vclz (bvf w 25 21) (bvf w 20 16) (bvf w 10 8) (bvf w 2 0)) else
  if fld w 7 3 = 17 ∧ fld w 15 11 = 0 then some (.vpopc (bvf w 25 21) (bvf w 20 16) (bvf w 10 8) (bvf w 2 0)) else
  if fld w 7 3 = 18 then some (.vpack (bvf w 25 21) (bvf w 20 16) (bvf w 15 11) (bvf w 10 8) (bvf w 2 0)) else
  if fld w 7 3 = 19 then some (.vunpack (bvf w 25 21) (bvf w 20 16) (bvf w 15 11) (bvf w 10 8) (bvf w 2 0)) else
  none

/-- Major opcode 0x31 (R27). -/
def decodeOp31 (w : Nat) : Option Instr :=
  if fld w 7 3 = 0 then some (.vfadd (bvf w 25 21) (bvf w 20 16) (bvf w 15 11) (bvf w 10 8) (bvf w 2 0)) else
  if fld w 7 3 = 1 then some (.vfsub (bvf w 25 21) (bvf w 20 16) (bvf w 15 11) (bvf w 10 8) (bvf w 2 0)) else
  if fld w 7 3 = 2 then some (.vfmul (bvf w 25 21) (bvf w 20 16) (bvf w 15 11) (bvf w 10 8) (bvf w 2 0)) else
  if fld w 7 3 = 3 then some (.vfmin (bvf w 25 21) (bvf w 20 16) (bvf w 15 11) (bvf w 10 8) (bvf w 2 0)) else
  if fld w 7 3 = 4 then some (.vfmax (bvf w 25 21) (bvf w 20 16) (bvf w 15 11) (bvf w 10 8) (bvf w 2 0)) else
  if fld w 7 3 = 5 then some (.vfms (bvf w 25 21) (bvf w 20 16) (bvf w 15 11) (bvf w 10 8) (bvf w 2 0)) else
  if fld w 7 3 = 6 then some (.vfnma (bvf w 25 21) (bvf w 20 16) (bvf w 15 11) (bvf w 10 8) (bvf w 2 0)) else
  if fld w 7 3 = 7 then some (.vscale (bvf w 25 21) (bvf w 20 16) (bvf w 15 11) (bvf w 10 8) (bvf w 2 0)) else
  none

/-- Major opcode 0x32 (R27). -/
def decodeOp32 (w : Nat) : Option Instr :=
  some (.vfma (bvf w 25 21) (bvf w 20 16) (bvf w 15 11) (bvf w 10 6) (bvf w 5 3) (bvf w 2 0))

/-- Major opcode 0x33 (R27). -/
def decodeOp33 (w : Nat) : Option Instr :=
  if fld w 5 3 = 5 ∧ fld w 11 11 = 0 then some (.vcvtSr (bvf w 25 21) (bvf w 20 16) (bvf w 15 13) (bvf w 12 12) (bvf w 10 8) (bvf w 7 6) (bvf w 2 0)) else
  if fld w 11 11 = 0 then some (.vcvt (bvf w 25 21) (bvf w 20 16) (bvf w 15 13) (bvf w 12 12) (bvf w 10 8) (bvf w 7 6) (bvf w 5 3) (bvf w 2 0)) else
  none

/-- Major opcode 0x34 (R27). -/
def decodeOp34 (w : Nat) : Option Instr :=
  if fld w 7 3 = 0 ∧ fld w 15 11 = 0 then some (.vrsum (bvf w 25 21) (bvf w 20 16) (bvf w 10 8) (bvf w 2 0)) else
  if fld w 7 3 = 1 ∧ fld w 15 11 = 0 then some (.vrmin (bvf w 25 21) (bvf w 20 16) (bvf w 10 8) (bvf w 2 0)) else
  if fld w 7 3 = 2 ∧ fld w 15 11 = 0 then some (.vrmax (bvf w 25 21) (bvf w 20 16) (bvf w 10 8) (bvf w 2 0)) else
  if fld w 7 3 = 3 ∧ fld w 15 11 = 0 then some (.vrfsum (bvf w 25 21) (bvf w 20 16) (bvf w 10 8) (bvf w 2 0)) else
  if fld w 7 3 = 4 ∧ fld w 15 11 = 0 then some (.vscan (bvf w 25 21) (bvf w 20 16) (bvf w 10 8) (bvf w 2 0)) else
  none

/-- Major opcode 0x35 (R27). -/
def decodeOp35 (w : Nat) : Option Instr :=
  if fld w 7 0 = 0 then some (.vperm (bvf w 25 21) (bvf w 20 16) (bvf w 15 11) (bvf w 10 8)) else
  if fld w 7 0 = 8 then some (.vshuf (bvf w 25 21) (bvf w 20 16) (bvf w 15 11) (bvf w 10 8)) else
  if fld w 7 0 = 16 then some (.vrot (bvf w 25 21) (bvf w 20 16) (bvf w 15 11) (bvf w 10 8)) else
  if fld w 7 0 = 24 then some (.vnbr (bvf w 25 21) (bvf w 20 16) (bvf w 15 11) (bvf w 10 8)) else
  none

/-- Major opcode 0x36 (R27). -/
def decodeOp36 (w : Nat) : Option Instr :=
  if fld w 7 3 = 0 then some (.vcmpEq (bvf w 25 21) (bvf w 20 16) (bvf w 15 11) (bvf w 10 8) (bvf w 2 0)) else
  if fld w 7 3 = 1 then some (.vcmpNe (bvf w 25 21) (bvf w 20 16) (bvf w 15 11) (bvf w 10 8) (bvf w 2 0)) else
  if fld w 7 3 = 2 then some (.vcmpLt (bvf w 25 21) (bvf w 20 16) (bvf w 15 11) (bvf w 10 8) (bvf w 2 0)) else
  if fld w 7 3 = 3 then some (.vcmpLe (bvf w 25 21) (bvf w 20 16) (bvf w 15 11) (bvf w 10 8) (bvf w 2 0)) else
  if fld w 7 3 = 8 then some (.vfcmpEq (bvf w 25 21) (bvf w 20 16) (bvf w 15 11) (bvf w 10 8) (bvf w 2 0)) else
  if fld w 7 3 = 9 then some (.vfcmpLt (bvf w 25 21) (bvf w 20 16) (bvf w 15 11) (bvf w 10 8) (bvf w 2 0)) else
  if fld w 7 3 = 10 then some (.vfcmpLe (bvf w 25 21) (bvf w 20 16) (bvf w 15 11) (bvf w 10 8) (bvf w 2 0)) else
  if fld w 7 3 = 11 then some (.vfcmpUn (bvf w 25 21) (bvf w 20 16) (bvf w 15 11) (bvf w 10 8) (bvf w 2 0)) else
  none

/-- Major opcode 0x37 (R27). -/
def decodeOp37 (w : Nat) : Option Instr :=
  if fld w 7 3 = 0 ∧ fld w 15 11 = 0 then some (.vbcst (bvf w 25 21) (bvf w 20 16) (bvf w 10 8) (bvf w 2 0)) else
  if fld w 10 3 = 1 then some (.vins (bvf w 25 21) (bvf w 20 16) (bvf w 15 11) (bvf w 2 0)) else
  if fld w 10 3 = 2 then some (.vext (bvf w 25 21) (bvf w 20 16) (bvf w 15 11) (bvf w 2 0)) else
  if fld w 7 0 = 24 ∧ fld w 15 11 = 0 then some (.vmov (bvf w 25 21) (bvf w 20 16) (bvf w 10 8)) else
  none

/-- Major opcode 0x38 (R27). -/
def decodeOp38 (w : Nat) : Option Instr :=
  if fld w 20 16 = 0 then some (.vli (bvf w 25 21) (bvf w 15 0)) else
  if fld w 20 16 = 1 then some (.vlih (bvf w 25 21) (bvf w 15 0)) else
  if fld w 20 16 = 2 then some (.vlui (bvf w 25 21) (bvf w 15 0)) else
  if fld w 20 16 = 3 then some (.vorli (bvf w 25 21) (bvf w 15 0)) else
  if fld w 20 16 = 4 then some (.vaddi (bvf w 25 21) (bvf w 15 0)) else
  none

/-- Major opcode 0x39 (R27). -/
def decodeOp39 (w : Nat) : Option Instr :=
  if fld w 7 0 = 0 then some (.vsel (bvf w 25 21) (bvf w 20 16) (bvf w 15 11) (bvf w 10 8)) else
  if fld w 10 0 = 8 then some (.kand (bvf w 25 21) (bvf w 20 16) (bvf w 15 11)) else
  if fld w 10 0 = 16 then some (.kor (bvf w 25 21) (bvf w 20 16) (bvf w 15 11)) else
  if fld w 15 0 = 24 then some (.knot (bvf w 25 21) (bvf w 20 16)) else
  if fld w 15 0 = 32 then some (.kmov (bvf w 25 21) (bvf w 20 16)) else
  if fld w 15 0 = 40 then some (.kmovFromScalar (bvf w 25 21) (bvf w 20 16)) else
  if fld w 15 0 = 48 then some (.kmovToScalar (bvf w 25 21) (bvf w 20 16)) else
  none

/-- Major opcode 0x3A (R27). -/
def decodeOp3A (w : Nat) : Option Instr :=
  if fld w 7 3 = 0 ∧ fld w 15 11 = 0 then some (.vrcp (bvf w 25 21) (bvf w 20 16) (bvf w 10 8) (bvf w 2 0)) else
  if fld w 7 3 = 1 ∧ fld w 15 11 = 0 then some (.vrsq (bvf w 25 21) (bvf w 20 16) (bvf w 10 8) (bvf w 2 0)) else
  if fld w 7 3 = 2 ∧ fld w 15 11 = 0 then some (.vexp2 (bvf w 25 21) (bvf w 20 16) (bvf w 10 8) (bvf w 2 0)) else
  if fld w 7 3 = 3 ∧ fld w 15 11 = 0 then some (.vlog2 (bvf w 25 21) (bvf w 20 16) (bvf w 10 8) (bvf w 2 0)) else
  if fld w 7 3 = 4 ∧ fld w 15 11 = 0 then some (.vtanh (bvf w 25 21) (bvf w 20 16) (bvf w 10 8) (bvf w 2 0)) else
  none

/-- The row of the opcode table a word matches, reserved operand values not yet looked at. -/
def decodeRaw (w : Nat) : Option Instr :=
  match fld w 31 26 with
  | 1 => decodeOp01 w
  | 2 => decodeOp02 w
  | 3 => decodeOp03 w
  | 4 => decodeOp04 w
  | 5 => decodeOp05 w
  | 6 => decodeOp06 w
  | 7 => decodeOp07 w
  | 8 => decodeOp08 w
  | 9 => decodeOp09 w
  | 10 => decodeOp0A w
  | 11 => decodeOp0B w
  | 16 => decodeOp10 w
  | 17 => decodeOp11 w
  | 18 => decodeOp12 w
  | 19 => decodeOp13 w
  | 20 => decodeOp14 w
  | 21 => decodeOp15 w
  | 22 => decodeOp16 w
  | 24 => decodeOp18 w
  | 25 => decodeOp19 w
  | 26 => decodeOp1A w
  | 27 => decodeOp1B w
  | 28 => decodeOp1C w
  | 29 => decodeOp1D w
  | 30 => decodeOp1E w
  | 32 => decodeOp20 w
  | 33 => decodeOp21 w
  | 34 => decodeOp22 w
  | 35 => decodeOp23 w
  | 36 => decodeOp24 w
  | 37 => decodeOp25 w
  | 38 => decodeOp26 w
  | 39 => decodeOp27 w
  | 40 => decodeOp28 w
  | 41 => decodeOp29 w
  | 48 => decodeOp30 w
  | 49 => decodeOp31 w
  | 50 => decodeOp32 w
  | 51 => decodeOp33 w
  | 52 => decodeOp34 w
  | 53 => decodeOp35 w
  | 54 => decodeOp36 w
  | 55 => decodeOp37 w
  | 56 => decodeOp38 w
  | 57 => decodeOp39 w
  | 58 => decodeOp3A w
  | _ => none

/-- The instruction a 32-bit word holds; none where R28 makes it an illegal encoding. -/
def decodeTask (w : Nat) : Option Instr :=
  match decodeRaw w with
  | some i => if i.wf then some i else none
  | none => none

/-- The Forecast operation a halfword matches (R269, R289), reserved field numbers not yet looked at. -/
def decodeForecastRaw (w : Nat) : Option Instr :=
  match fld w 15 11 with
  | 1 => some (.fcLdi (bvf w 10 8) (bvf w 7 0))
  | 2 => some (.fcLdq (bvf w 10 8) (bvf w 7 0))
  | 3 => some (.fcLdp (bvf w 10 8) (bvf w 7 0))
  | 4 => some (.fcLde (bvf w 10 8) (bvf w 7 0))
  | 5 => if fld w 7 4 = 0 then some (.fcLds (bvf w 10 8) (bvf w 3 0)) else none
  | 6 => if fld w 7 4 = 0 then some (.fcSto (bvf w 10 8) (bvf w 3 0)) else none
  | 7 => if fld w 7 3 = 0 then some (.fcAdd (bvf w 10 8) (bvf w 2 0)) else none
  | 8 => if fld w 7 3 = 0 then some (.fcSub (bvf w 10 8) (bvf w 2 0)) else none
  | 9 => if fld w 7 5 = 0 then some (.fcShl (bvf w 10 8) (bvf w 4 0)) else none
  | 10 => if fld w 7 5 = 0 then some (.fcShr (bvf w 10 8) (bvf w 4 0)) else none
  | 11 => if fld w 7 3 = 0 then some (.fcAnd (bvf w 10 8) (bvf w 2 0)) else none
  | 12 => if fld w 7 3 = 0 then some (.fcOr (bvf w 10 8) (bvf w 2 0)) else none
  | 13 => if fld w 7 3 = 0 then some (.fcMin (bvf w 10 8) (bvf w 2 0)) else none
  | 14 => if fld w 7 3 = 0 then some (.fcMax (bvf w 10 8) (bvf w 2 0)) else none
  | 15 => if fld w 7 6 = 0 then some (.fcSel (bvf w 10 8) (bvf w 5 3) (bvf w 2 0)) else none
  | 16 => if fld w 10 8 = 0 then some (.fcJmp (bvf w 7 0)) else none
  | 17 => some (.fcJz (bvf w 10 8) (bvf w 7 0))
  | 18 => some (.fcJnz (bvf w 10 8) (bvf w 7 0))
  | 19 => some (.fcJlt (bvf w 10 8) (bvf w 7 0))
  | 20 => if fld w 7 1 = 0 then some (.fcNextq (bvf w 10 8) (bvf w 0 0)) else none
  | 21 => some (.fcPickmin (bvf w 10 8) (bvf w 7 0))
  | 22 => some (.fcPickmax (bvf w 10 8) (bvf w 7 0))
  | 23 => if fld w 10 0 = 0 then some (.fcDisp) else none
  | 24 => if fld w 7 0 = 0 then some (.fcPreempt (bvf w 10 8)) else none
  | 25 => if fld w 7 0 = 0 then some (.fcFaultact (bvf w 10 8)) else none
  | 26 => if fld w 10 0 = 0 then some (.fcDefer) else none
  | 27 => if fld w 10 0 = 0 then some (.fcEnd) else none
  | _ => none

/-- The operation a Forecast halfword holds; none where the decision ends as an overrun (R269). -/
def decodeForecast (w : Nat) : Option Instr :=
  match decodeForecastRaw w with
  | some i => if i.wf then some i else none
  | none => none

/-- The `SETS` and `WAITM` of a command word (R181). -/
def decodeHdr (w0 : Nat) : CmdHdr := ⟨bvf w0 103 99, bvf w0 119 104⟩

/-- `OPC` 0x01. -/
def decodeCmd01 (w0 w1 : Nat) : Option Instr :=
  if fld w0 97 96 = 0 ∧ fld w0 98 98 = 0 ∧ w1 = 0 then
    some (.copy (decodeHdr w0) ⟨bvf w0 56 0, bvf w0 72 57, bvf w0 75 73, bvf w0 95 76⟩)
  else none

/-- `OPC` 0x02. -/
def decodeCmd02 (w0 w1 : Nat) : Option Instr :=
  if fld w0 97 96 = 0 ∧ fld w1 63 60 = 0 ∧ fld w1 127 104 = 0 ∧ fld w0 98 98 = 1 then
    some (.copy2d (decodeHdr w0) ⟨bvf w0 56 0, bvf w0 59 57, bvf w0 75 60, bvf w0 95 76, bvf w1 56 0, bvf w1 59 57, bvf w1 83 64, bvf w1 103 84⟩)
  else none

/-- `OPC` 0x03. -/
def decodeCmd03 (w0 w1 : Nat) : Option Instr :=
  if fld w0 97 96 = 0 ∧ fld w1 63 57 = 0 ∧ fld w0 98 98 = 1 then
    some (.copyc (decodeHdr w0) ⟨bvf w0 56 0, bvf w0 72 57, bvf w0 75 73, bvf w0 95 76, bvf w1 56 0, bvf w1 127 64⟩)
  else none

/-- `OPC` 0x04. -/
def decodeCmd04 (w0 w1 : Nat) : Option Instr :=
  if fld w0 61 61 = 0 ∧ fld w0 97 81 = 0 ∧ fld w1 63 60 = 0 ∧ fld w1 127 121 = 0 ∧ fld w0 98 98 = 1 then
    some (.gather (decodeHdr w0) ⟨bvf w0 56 0, bvf w0 59 57, bvf w0 60 60, bvf w0 77 62, bvf w0 80 78, bvf w1 56 0, bvf w1 59 57, bvf w1 120 64⟩)
  else none

/-- `OPC` 0x05. -/
def decodeCmd05 (w0 w1 : Nat) : Option Instr :=
  if fld w0 61 61 = 0 ∧ fld w0 97 81 = 0 ∧ fld w1 63 60 = 0 ∧ fld w1 127 121 = 0 ∧ fld w0 98 98 = 1 then
    some (.scatter (decodeHdr w0) ⟨bvf w0 56 0, bvf w0 59 57, bvf w0 60 60, bvf w0 77 62, bvf w0 80 78, bvf w1 56 0, bvf w1 59 57, bvf w1 120 64⟩)
  else none

/-- `OPC` 0x06. -/
def decodeCmd06 (w0 w1 : Nat) : Option Instr :=
  if fld w0 97 92 = 0 ∧ fld w0 98 98 = 0 ∧ w1 = 0 then
    some (.deck (decodeHdr w0) ⟨bvf w0 56 0, bvf w0 72 57, bvf w0 88 73, bvf w0 91 89⟩)
  else none

/-- `OPC` 0x07. -/
def decodeCmd07 (w0 w1 : Nat) : Option Instr :=
  if fld w0 97 17 = 0 ∧ fld w0 98 98 = 0 ∧ w1 = 0 then
    some (.bload (decodeHdr w0) ⟨bvf w0 15 0, bvf w0 16 16⟩)
  else none

/-- `OPC` 0x08. -/
def decodeCmd08 (w0 w1 : Nat) : Option Instr :=
  if fld w0 97 79 = 0 ∧ fld w1 127 26 = 0 ∧ fld w0 98 98 = fld w0 78 78 ∧ (fld w0 98 98 = 0 → w1 = 0) then
    some (.mxt (decodeHdr w0) ⟨bvf w0 14 0, bvf w0 20 15, bvf w0 28 21, bvf w0 51 29, bvf w0 53 52, bvf w0 55 54, bvf w0 57 56, bvf w0 58 58, bvf w0 59 59, bvf w0 60 60, bvf w0 61 61, bvf w0 77 62, bvf w0 78 78, bvf w1 24 0, bvf w1 25 25⟩)
  else none

/-- `OPC` 0x09. -/
def decodeCmd09 (w0 w1 : Nat) : Option Instr :=
  if fld w0 97 28 = 0 ∧ fld w0 98 98 = 0 ∧ w1 = 0 then
    some (.mxdrain (decodeHdr w0) ⟨bvf w0 14 0, bvf w0 20 15, bvf w0 23 21, bvf w0 25 24, bvf w0 26 26, bvf w0 27 27⟩)
  else none

/-- `OPC` 0x0A. -/
def decodeCmd0A (w0 w1 : Nat) : Option Instr :=
  if fld w0 97 91 = 0 ∧ fld w0 98 98 = 0 ∧ w1 = 0 then
    some (.coll (decodeHdr w0) ⟨bvf w0 1 0, bvf w0 3 2, bvf w0 6 4, bvf w0 17 7, bvf w0 28 18, bvf w0 44 29, bvf w0 60 45, bvf w0 75 61, bvf w0 90 76⟩)
  else none

/-- `OPC` 0x0B. -/
def decodeCmd0B (w0 w1 : Nat) : Option Instr :=
  if fld w0 97 94 = 0 ∧ fld w1 127 52 = 0 ∧ fld w0 98 98 = 1 then
    some (.intake (decodeHdr w0) ⟨bvf w0 56 0, bvf w0 86 57, bvf w0 88 87, bvf w0 91 89, bvf w0 93 92, bvf w1 31 0, bvf w1 51 32⟩)
  else none

/-- `OPC` 0x0C. -/
def decodeCmd0C (w0 w1 : Nat) : Option Instr :=
  if fld w0 97 82 = 0 ∧ fld w1 127 112 = 0 ∧ fld w0 98 98 = 1 then
    some (.window (decodeHdr w0) ⟨bvf w0 56 0, bvf w0 60 57, bvf w0 70 61, bvf w0 78 71, bvf w0 80 79, bvf w0 81 81, bvf w1 11 0, bvf w1 31 12, bvf w1 43 32, bvf w1 63 44, bvf w1 75 64, bvf w1 95 76, bvf w1 111 96⟩)
  else none

/-- `OPC` 0x0D. -/
def decodeCmd0D (w0 w1 : Nat) : Option Instr :=
  if fld w0 63 60 = 0 ∧ fld w0 97 96 = 0 ∧ fld w1 127 64 = 0 ∧ (fld w0 98 98 = 0 → w1 = 0) then
    some (.note (decodeHdr w0) ⟨bvf w0 56 0, bvf w0 59 57, bvf w0 95 64, bvf w0 98 98, bvf w1 63 0⟩)
  else none

/-- `OPC` 0x0E. -/
def decodeCmd0E (w0 w1 : Nat) : Option Instr :=
  if fld w0 97 6 = 0 ∧ fld w0 98 98 = 0 ∧ w1 = 0 then
    some (.qfence (decodeHdr w0) ⟨bvf w0 5 0⟩)
  else none

/-- The command a first and a second word hold, limits not yet looked at. A short command has the second word 0. -/
def decodeCommandRaw (w0 w1 : Nat) : Option Instr :=
  match fld w0 127 120 with
  | 1 => decodeCmd01 w0 w1
  | 2 => decodeCmd02 w0 w1
  | 3 => decodeCmd03 w0 w1
  | 4 => decodeCmd04 w0 w1
  | 5 => decodeCmd05 w0 w1
  | 6 => decodeCmd06 w0 w1
  | 7 => decodeCmd07 w0 w1
  | 8 => decodeCmd08 w0 w1
  | 9 => decodeCmd09 w0 w1
  | 10 => decodeCmd0A w0 w1
  | 11 => decodeCmd0B w0 w1
  | 12 => decodeCmd0C w0 w1
  | 13 => decodeCmd0D w0 w1
  | 14 => decodeCmd0E w0 w1
  | _ => none

/-- The command two 128-bit words hold, by the checks made at `EMIT` (R183); none where it is invalid. -/
def decodeCommand (w0 w1 : Nat) : Option Instr :=
  match decodeCommandRaw w0 w1 with
  | some i => if i.wf then some i else none
  | none => none

/-- `KIND` 1. -/
def decodePkt1 (w : Nat) : Option Instr :=
  if fld w 511 149 = 0 then some (.launch ⟨bvf w 127 64, bvf w 148 128⟩) else none

/-- `KIND` 2. -/
def decodePkt2 (w : Nat) : Option Instr :=
  if fld w 511 128 = 0 then some (.pipe ⟨bvf w 127 64⟩) else none

/-- `KIND` 3. -/
def decodePkt3 (w : Nat) : Option Instr :=
  if fld w 127 72 = 0 ∧ fld w 511 384 = 0 then some (.cmd ⟨bvf w 68 64, bvf w 71 69, bvf w 255 128, bvf w 383 256⟩) else none

/-- `KIND` 4. -/
def decodePkt4 (w : Nat) : Option Instr :=
  if fld w 511 194 = 0 then some (.signal ⟨bvf w 127 64, bvf w 191 128, bvf w 193 192⟩) else none

/-- `KIND` 5. -/
def decodePkt5 (w : Nat) : Option Instr :=
  if fld w 223 194 = 0 ∧ fld w 511 256 = 0 then some (.wait ⟨bvf w 127 64, bvf w 191 128, bvf w 193 192, bvf w 255 224⟩) else none

/-- `KIND` 6. -/
def decodePkt6 (w : Nat) : Option Instr :=
  if True then some (.receipt ⟨bvf w 127 64, bvf w 191 128, bvf w 255 192, bvf w 287 256, bvf w 319 288, bvf w 383 320, bvf w 447 384, bvf w 511 448⟩) else none

/-- `KIND` 7. -/
def decodePkt7 (w : Nat) : Option Instr :=
  if fld w 511 136 = 0 then some (.policyLoad ⟨bvf w 127 64, bvf w 135 128⟩) else none

/-- `KIND` 8. -/
def decodePkt8 (w : Nat) : Option Instr :=
  if fld w 511 64 = 0 then some (.policySwap) else none

/-- `KIND` 16. -/
def decodePkt16 (w : Nat) : Option Instr :=
  if fld w 127 68 = 0 ∧ fld w 511 160 = 0 then some (.partCores ⟨bvf w 67 64, bvf w 159 128⟩) else none

/-- `KIND` 17. -/
def decodePkt17 (w : Nat) : Option Instr :=
  if fld w 127 68 = 0 ∧ fld w 511 212 = 0 then some (.partPool ⟨bvf w 67 64, bvf w 159 128, bvf w 191 160, bvf w 211 192⟩) else none

/-- `KIND` 18. -/
def decodePkt18 (w : Nat) : Option Instr :=
  if fld w 127 72 = 0 ∧ fld w 191 185 = 0 ∧ fld w 511 200 = 0 then some (.partCache ⟨bvf w 67 64, bvf w 71 68, bvf w 137 128, bvf w 148 138, bvf w 163 149, bvf w 184 164, bvf w 199 192⟩) else none

/-- `KIND` 19. -/
def decodePkt19 (w : Nat) : Option Instr :=
  if fld w 71 68 = 0 ∧ fld w 127 84 = 0 ∧ fld w 511 192 = 0 then some (.partQueue ⟨bvf w 67 64, bvf w 76 72, bvf w 79 77, bvf w 82 80, bvf w 83 83, bvf w 191 128⟩) else none

/-- `KIND` 20. -/
def decodePkt20 (w : Nat) : Option Instr :=
  if fld w 127 68 = 0 ∧ fld w 511 288 = 0 then some (.partLimits ⟨bvf w 67 64, bvf w 159 128, bvf w 223 160, bvf w 255 224, bvf w 287 256⟩) else none

/-- `KIND` 21. -/
def decodePkt21 (w : Nat) : Option Instr :=
  if fld w 79 71 = 0 ∧ fld w 511 112 = 0 then some (.partVf ⟨bvf w 70 64, bvf w 95 80, bvf w 111 96⟩) else none

/-- `KIND` 22. -/
def decodePkt22 (w : Nat) : Option Instr :=
  if fld w 511 68 = 0 then some (.partDrop ⟨bvf w 67 64⟩) else none

/-- `KIND` 23. -/
def decodePkt23 (w : Nat) : Option Instr :=
  if fld w 95 83 = 0 ∧ fld w 103 103 = 0 ∧ fld w 119 118 = 0 ∧ fld w 127 127 = 0 then some (.partCtx ⟨bvf w 67 64, bvf w 72 68, bvf w 73 73, bvf w 80 74, bvf w 81 81, bvf w 82 82, bvf w 102 96, bvf w 111 104, bvf w 117 112, bvf w 126 120, bvf w 191 128, bvf w 255 192, bvf w 319 256, bvf w 383 320, bvf w 447 384, bvf w 511 448⟩) else none

/-- The body of a packet of kind `k` (R278), limits not yet looked at. -/
def decodePacketRaw (k w : Nat) : Option Instr :=
  match k with
  | 1 => decodePkt1 w
  | 2 => decodePkt2 w
  | 3 => decodePkt3 w
  | 4 => decodePkt4 w
  | 5 => decodePkt5 w
  | 6 => decodePkt6 w
  | 7 => decodePkt7 w
  | 8 => decodePkt8 w
  | 16 => decodePkt16 w
  | 17 => decodePkt17 w
  | 18 => decodePkt18 w
  | 19 => decodePkt19 w
  | 20 => decodePkt20 w
  | 21 => decodePkt21 w
  | 22 => decodePkt22 w
  | 23 => decodePkt23 w
  | _ => none

/-- The packet of kind `k` that 64 bytes hold; none where it is invalid (R277). -/
def decodePacket (k w : Nat) : Option Instr :=
  match decodePacketRaw k w with
  | some i => if i.wf then some i else none
  | none => none

/-- The header doubleword of a packet (R277). -/
def decodePktHdr (w : Nat) : Option PktHdr :=
  let h : PktHdr := ⟨fld w 7 0, fld w 10 8, fld w 13 11, fld w 14 14 == 1, fld w 15 15 == 1⟩
  if fld w 63 16 = 0 ∧ (h.acq = 0 ∨ h.acq = 4 ∨ h.acq = 6) ∧ (h.rel = 0 ∨ h.rel = 4 ∨ h.rel = 6) ∧ (h.irq = true → h.crec = true)
  then some h else none

/-- A task instruction from the bytes at `pc` (R24). -/
def decodeTaskBytes (bs : List Byte) : Option Instr := decodeTask (natOfBytes (bs.take 4))

/-- A Forecast operation from its two bytes (R269). -/
def decodeForecastBytes (bs : List Byte) : Option Instr := decodeForecast (natOfBytes (bs.take 2))

/-- The instruction of a row of the opcode table with `nbits` bits, `w` laid out in bytes as the hardware stores it. -/
def decodeTableWord (nbits w : Nat) : Option Instr :=
  if nbits = 32 then decodeTaskBytes (bytesOfNat 4 w)
  else if nbits = 16 then decodeForecastBytes (bytesOfNat 2 w)
  else none

/-- The word of an instruction that has one: 32 bits for a task instruction (R24), 16 for a Forecast operation (R269); 0 for a
step with no instruction word. -/
def encode : Instr → Nat
  | .add d a b => 0x4000000 + d.toNat * 2097152 + a.toNat * 65536 + b.toNat * 2048
  | .sub d a b => 0x4000008 + d.toNat * 2097152 + a.toNat * 65536 + b.toNat * 2048
  | .mul d a b => 0x4000010 + d.toNat * 2097152 + a.toNat * 65536 + b.toNat * 2048
  | .mulh d a b => 0x4000018 + d.toNat * 2097152 + a.toNat * 65536 + b.toNat * 2048
  | .mulhn d a b => 0x4000020 + d.toNat * 2097152 + a.toNat * 65536 + b.toNat * 2048
  | .div d a b => 0x4000028 + d.toNat * 2097152 + a.toNat * 65536 + b.toNat * 2048
  | .divn d a b => 0x4000030 + d.toNat * 2097152 + a.toNat * 65536 + b.toNat * 2048
  | .rem d a b => 0x4000038 + d.toNat * 2097152 + a.toNat * 65536 + b.toNat * 2048
  | .remn d a b => 0x4000040 + d.toNat * 2097152 + a.toNat * 65536 + b.toNat * 2048
  | .and d a b => 0x4000048 + d.toNat * 2097152 + a.toNat * 65536 + b.toNat * 2048
  | .or d a b => 0x4000050 + d.toNat * 2097152 + a.toNat * 65536 + b.toNat * 2048
  | .xor d a b => 0x4000058 + d.toNat * 2097152 + a.toNat * 65536 + b.toNat * 2048
  | .andn d a b => 0x4000060 + d.toNat * 2097152 + a.toNat * 65536 + b.toNat * 2048
  | .shl d a b => 0x4000068 + d.toNat * 2097152 + a.toNat * 65536 + b.toNat * 2048
  | .shr d a b => 0x4000070 + d.toNat * 2097152 + a.toNat * 65536 + b.toNat * 2048
  | .sar d a b => 0x4000078 + d.toNat * 2097152 + a.toNat * 65536 + b.toNat * 2048
  | .min d a b => 0x4000080 + d.toNat * 2097152 + a.toNat * 65536 + b.toNat * 2048
  | .max d a b => 0x4000088 + d.toNat * 2097152 + a.toNat * 65536 + b.toNat * 2048
  | .minn d a b => 0x4000090 + d.toNat * 2097152 + a.toNat * 65536 + b.toNat * 2048
  | .maxn d a b => 0x4000098 + d.toNat * 2097152 + a.toNat * 65536 + b.toNat * 2048
  | .slt d a b => 0x40000A0 + d.toNat * 2097152 + a.toNat * 65536 + b.toNat * 2048
  | .sltn d a b => 0x40000A8 + d.toNat * 2097152 + a.toNat * 65536 + b.toNat * 2048
  | .seq d a b => 0x40000B0 + d.toNat * 2097152 + a.toNat * 65536 + b.toNat * 2048
  | .clz d a => 0x40000B8 + d.toNat * 2097152 + a.toNat * 65536
  | .popc d a => 0x40000C0 + d.toNat * 2097152 + a.toNat * 65536
  | .bext d a b => 0x40000C8 + d.toNat * 2097152 + a.toNat * 65536 + b.toNat * 2048
  | .bdep d a b => 0x40000D0 + d.toNat * 2097152 + a.toNat * 65536 + b.toNat * 2048
  | .sext d a w => 0x40000D8 + d.toNat * 2097152 + a.toNat * 65536 + w.toNat
  | .zext d a w => 0x40000E0 + d.toNat * 2097152 + a.toNat * 65536 + w.toNat
  | .addi d a i => 0x8000000 + d.toNat * 2097152 + a.toNat * 65536 + i.toNat
  | .andi d a i => 0xC000000 + d.toNat * 2097152 + a.toNat * 65536 + i.toNat
  | .ori d a i => 0x10000000 + d.toNat * 2097152 + a.toNat * 65536 + i.toNat
  | .xori d a i => 0x14000000 + d.toNat * 2097152 + a.toNat * 65536 + i.toNat
  | .shli d a n => 0x18000000 + d.toNat * 2097152 + a.toNat * 65536 + n.toNat
  | .shri d a n => 0x18000040 + d.toNat * 2097152 + a.toNat * 65536 + n.toNat
  | .sari d a n => 0x18000080 + d.toNat * 2097152 + a.toNat * 65536 + n.toNat
  | .lui d i => 0x1C000000 + d.toNat * 2097152 + i.toNat
  | .slti d a i => 0x20000000 + d.toNat * 2097152 + a.toNat * 65536 + i.toNat
  | .fadd d a b m w => 0x24000000 + d.toNat * 2097152 + a.toNat * 65536 + b.toNat * 2048 + m.toNat * 8 + w.toNat
  | .fsub d a b m w => 0x24000040 + d.toNat * 2097152 + a.toNat * 65536 + b.toNat * 2048 + m.toNat * 8 + w.toNat
  | .fmul d a b m w => 0x24000080 + d.toNat * 2097152 + a.toNat * 65536 + b.toNat * 2048 + m.toNat * 8 + w.toNat
  | .fdiv d a b m w => 0x240000C0 + d.toNat * 2097152 + a.toNat * 65536 + b.toNat * 2048 + m.toNat * 8 + w.toNat
  | .fsqrt d a m w => 0x24000100 + d.toNat * 2097152 + a.toNat * 65536 + m.toNat * 8 + w.toNat
  | .frsq d a m w => 0x24000140 + d.toNat * 2097152 + a.toNat * 65536 + m.toNat * 8 + w.toNat
  | .fmin d a b w => 0x24000180 + d.toNat * 2097152 + a.toNat * 65536 + b.toNat * 2048 + w.toNat
  | .fmax d a b w => 0x240001C0 + d.toNat * 2097152 + a.toNat * 65536 + b.toNat * 2048 + w.toNat
  | .fcvt d a c m w => 0x24000200 + d.toNat * 2097152 + a.toNat * 65536 + c.toNat * 2048 + m.toNat * 8 + w.toNat
  | .fcmpEq d a b w => 0x24000240 + d.toNat * 2097152 + a.toNat * 65536 + b.toNat * 2048 + w.toNat
  | .fcmpLt d a b w => 0x24000280 + d.toNat * 2097152 + a.toNat * 65536 + b.toNat * 2048 + w.toNat
  | .fcmpLe d a b w => 0x240002C0 + d.toNat * 2097152 + a.toNat * 65536 + b.toNat * 2048 + w.toNat
  | .fcmpUn d a b w => 0x24000300 + d.toNat * 2097152 + a.toNat * 65536 + b.toNat * 2048 + w.toNat
  | .fclass d a w => 0x24000340 + d.toNat * 2097152 + a.toNat * 65536 + w.toNat
  | .fma d a b m w => 0x28000000 + d.toNat * 2097152 + a.toNat * 65536 + b.toNat * 2048 + m.toNat * 8 + w.toNat
  | .mfs d n => 0x2C000000 + d.toNat * 2097152 + n.toNat
  | .mts a n => 0x2C008000 + a.toNat * 65536 + n.toNat
  | .ld x b s w o => 0x40000000 + x.toNat * 2097152 + b.toNat * 65536 + s.toNat * 8192 + w.toNat * 1024 + o.toNat
  | .st x b s w o => 0x44000000 + x.toNat * 2097152 + b.toNat * 65536 + s.toNat * 8192 + w.toNat * 1024 + o.toNat
  | .vld x b s o => 0x48000000 + x.toNat * 2097152 + b.toNat * 65536 + s.toNat * 8192 + o.toNat
  | .vgld x b s o => 0x48000400 + x.toNat * 2097152 + b.toNat * 65536 + s.toNat * 8192 + o.toNat
  | .vst x b s o => 0x4C000000 + x.toNat * 2097152 + b.toNat * 65536 + s.toNat * 8192 + o.toNat
  | .vlds x b o => 0x50002000 + x.toNat * 2097152 + b.toNat * 65536 + o.toNat
  | .vldsIx x b o => 0x50002400 + x.toNat * 2097152 + b.toNat * 65536 + o.toNat
  | .vsts x b o => 0x54002000 + x.toNat * 2097152 + b.toNat * 65536 + o.toNat
  | .lutx d a b k => 0x58000000 + d.toNat * 2097152 + a.toNat * 65536 + b.toNat * 2048 + k.toNat * 256
  | .lutld a => 0x58000008 + a.toNat * 65536
  | .beq a b d => 0x60000000 + a.toNat * 2097152 + b.toNat * 65536 + d.toNat
  | .bne a b d => 0x64000000 + a.toNat * 2097152 + b.toNat * 65536 + d.toNat
  | .blt a b d => 0x68000000 + a.toNat * 2097152 + b.toNat * 65536 + d.toNat
  | .bge a b d => 0x6C000000 + a.toNat * 2097152 + b.toNat * 65536 + d.toNat
  | .bltn a b d => 0x70000000 + a.toNat * 2097152 + b.toNat * 65536 + d.toNat
  | .bgen a b d => 0x74000000 + a.toNat * 2097152 + b.toNat * 65536 + d.toNat
  | .bdnz a d => 0x78000000 + a.toNat * 2097152 + d.toNat
  | .jal d => 0x80000000 + d.toNat
  | .jalr d a i => 0x84000000 + d.toNat * 2097152 + a.toNat * 65536 + i.toNat
  | .charge d a n => 0x88000000 + d.toNat * 2097152 + a.toNat * 65536 + n.toNat
  | .mcs d s => 0x88001000 + d.toNat * 2097152 + s.toNat
  | .crd d a h o => 0x8C000000 + d.toNat * 2097152 + a.toNat * 65536 + h.toNat * 512 + o.toNat
  | .crdt d a h o => 0x8C002000 + d.toNat * 2097152 + a.toNat * 65536 + h.toNat * 512 + o.toNat
  | .cwr d a h o => 0x8C004000 + d.toNat * 2097152 + a.toNat * 65536 + h.toNat * 512 + o.toNat
  | .cwrt t a h o => 0x8C006000 + t.toNat * 2097152 + a.toNat * 65536 + h.toNat * 512 + o.toNat
  | .advR a h o => 0x8C008000 + a.toNat * 65536 + h.toNat * 512 + o.toNat
  | .advW a h o => 0x8C00A000 + a.toNat * 65536 + h.toNat * 512 + o.toNat
  | .emit a q => 0x90000000 + a.toNat * 65536 + q.toNat
  | .exit n f => 0x94000000 + n.toNat * 524288 + f.toNat * 16384
  | .xwait s a v c => 0x94400000 + s.toNat * 131072 + a.toNat * 4096 + v.toNat * 128 + c.toNat * 64
  | .xbar c s n => 0x94800000 + c.toNat * 524288 + s.toNat * 16384 + n.toNat * 1024
  | .xamo s a v o w => 0x94C00000 + s.toNat * 131072 + a.toNat * 4096 + v.toNat * 128 + o.toNat * 8 + w.toNat * 4
  | .xstop => 0x95000000
  | .sadd s a b w => 0x98000000 + s.toNat * 2097152 + a.toNat * 65536 + b.toNat * 2048 + w.toNat
  | .smin s a b w => 0x98000008 + s.toNat * 2097152 + a.toNat * 65536 + b.toNat * 2048 + w.toNat
  | .smax s a b w => 0x98000010 + s.toNat * 2097152 + a.toNat * 65536 + b.toNat * 2048 + w.toNat
  | .sor s a b w => 0x98000018 + s.toNat * 2097152 + a.toNat * 65536 + b.toNat * 2048 + w.toNat
  | .sand s a b w => 0x98000020 + s.toNat * 2097152 + a.toNat * 65536 + b.toNat * 2048 + w.toNat
  | .sfadd s a b => 0x9800002A + s.toNat * 2097152 + a.toNat * 65536 + b.toNat * 2048
  | .fenceAcq s => 0x9C000000 + s.toNat * 524288
  | .tlbiPage a s => 0xA0000000 + a.toNat * 131072 + s.toNat * 16384
  | .tlbiCtx s => 0xA0008000 + s.toNat * 16384
  | .tlbiPart s => 0xA0010000 + s.toNat * 16384
  | .ptsync => 0xA0400000
  | .trap c => 0xA4000000 + c.toNat
  | .brk => 0xA4400000
  | .vadd d a b k t => 0xC0000000 + d.toNat * 2097152 + a.toNat * 65536 + b.toNat * 2048 + k.toNat * 256 + t.toNat
  | .vsub d a b k t => 0xC0000008 + d.toNat * 2097152 + a.toNat * 65536 + b.toNat * 2048 + k.toNat * 256 + t.toNat
  | .vmul d a b k t => 0xC0000010 + d.toNat * 2097152 + a.toNat * 65536 + b.toNat * 2048 + k.toNat * 256 + t.toNat
  | .vmulh d a b k t => 0xC0000018 + d.toNat * 2097152 + a.toNat * 65536 + b.toNat * 2048 + k.toNat * 256 + t.toNat
  | .vadds d a b k t => 0xC0000020 + d.toNat * 2097152 + a.toNat * 65536 + b.toNat * 2048 + k.toNat * 256 + t.toNat
  | .vsubs d a b k t => 0xC0000028 + d.toNat * 2097152 + a.toNat * 65536 + b.toNat * 2048 + k.toNat * 256 + t.toNat
  | .vmin d a b k t => 0xC0000030 + d.toNat * 2097152 + a.toNat * 65536 + b.toNat * 2048 + k.toNat * 256 + t.toNat
  | .vmax d a b k t => 0xC0000038 + d.toNat * 2097152 + a.toNat * 65536 + b.toNat * 2048 + k.toNat * 256 + t.toNat
  | .vand d a b k t => 0xC0000040 + d.toNat * 2097152 + a.toNat * 65536 + b.toNat * 2048 + k.toNat * 256 + t.toNat
  | .vor d a b k t => 0xC0000048 + d.toNat * 2097152 + a.toNat * 65536 + b.toNat * 2048 + k.toNat * 256 + t.toNat
  | .vxor d a b k t => 0xC0000050 + d.toNat * 2097152 + a.toNat * 65536 + b.toNat * 2048 + k.toNat * 256 + t.toNat
  | .vandn d a b k t => 0xC0000058 + d.toNat * 2097152 + a.toNat * 65536 + b.toNat * 2048 + k.toNat * 256 + t.toNat
  | .vshl d a b k t => 0xC0000060 + d.toNat * 2097152 + a.toNat * 65536 + b.toNat * 2048 + k.toNat * 256 + t.toNat
  | .vshr d a b k t => 0xC0000068 + d.toNat * 2097152 + a.toNat * 65536 + b.toNat * 2048 + k.toNat * 256 + t.toNat
  | .vsar d a b k t => 0xC0000070 + d.toNat * 2097152 + a.toNat * 65536 + b.toNat * 2048 + k.toNat * 256 + t.toNat
  | .vabsd d a b k t => 0xC0000078 + d.toNat * 2097152 + a.toNat * 65536 + b.toNat * 2048 + k.toNat * 256 + t.toNat
  | .vclz d a k t => 0xC0000080 + d.toNat * 2097152 + a.toNat * 65536 + k.toNat * 256 + t.toNat
  | .vpopc d a k t => 0xC0000088 + d.toNat * 2097152 + a.toNat * 65536 + k.toNat * 256 + t.toNat
  | .vpack d a b k t => 0xC0000090 + d.toNat * 2097152 + a.toNat * 65536 + b.toNat * 2048 + k.toNat * 256 + t.toNat
  | .vunpack d a p k t => 0xC0000098 + d.toNat * 2097152 + a.toNat * 65536 + p.toNat * 2048 + k.toNat * 256 + t.toNat
  | .vfadd d a b k t => 0xC4000000 + d.toNat * 2097152 + a.toNat * 65536 + b.toNat * 2048 + k.toNat * 256 + t.toNat
  | .vfsub d a b k t => 0xC4000008 + d.toNat * 2097152 + a.toNat * 65536 + b.toNat * 2048 + k.toNat * 256 + t.toNat
  | .vfmul d a b k t => 0xC4000010 + d.toNat * 2097152 + a.toNat * 65536 + b.toNat * 2048 + k.toNat * 256 + t.toNat
  | .vfmin d a b k t => 0xC4000018 + d.toNat * 2097152 + a.toNat * 65536 + b.toNat * 2048 + k.toNat * 256 + t.toNat
  | .vfmax d a b k t => 0xC4000020 + d.toNat * 2097152 + a.toNat * 65536 + b.toNat * 2048 + k.toNat * 256 + t.toNat
  | .vfms d a b k t => 0xC4000028 + d.toNat * 2097152 + a.toNat * 65536 + b.toNat * 2048 + k.toNat * 256 + t.toNat
  | .vfnma d a b k t => 0xC4000030 + d.toNat * 2097152 + a.toNat * 65536 + b.toNat * 2048 + k.toNat * 256 + t.toNat
  | .vscale d a b k t => 0xC4000038 + d.toNat * 2097152 + a.toNat * 65536 + b.toNat * 2048 + k.toNat * 256 + t.toNat
  | .vfma d a b c k t => 0xC8000000 + d.toNat * 2097152 + a.toNat * 65536 + b.toNat * 2048 + c.toNat * 64 + k.toNat * 8 + t.toNat
  | .vcvt d a s i k p r t => 0xCC000000 + d.toNat * 2097152 + a.toNat * 65536 + s.toNat * 8192 + i.toNat * 4096 + k.toNat * 256 + p.toNat * 64 + r.toNat * 8 + t.toNat
  | .vcvtSr d a s i k p t => 0xCC000028 + d.toNat * 2097152 + a.toNat * 65536 + s.toNat * 8192 + i.toNat * 4096 + k.toNat * 256 + p.toNat * 64 + t.toNat
  | .vrsum d a k t => 0xD0000000 + d.toNat * 2097152 + a.toNat * 65536 + k.toNat * 256 + t.toNat
  | .vrmin d a k t => 0xD0000008 + d.toNat * 2097152 + a.toNat * 65536 + k.toNat * 256 + t.toNat
  | .vrmax d a k t => 0xD0000010 + d.toNat * 2097152 + a.toNat * 65536 + k.toNat * 256 + t.toNat
  | .vrfsum d a k t => 0xD0000018 + d.toNat * 2097152 + a.toNat * 65536 + k.toNat * 256 + t.toNat
  | .vscan d a k t => 0xD0000020 + d.toNat * 2097152 + a.toNat * 65536 + k.toNat * 256 + t.toNat
  | .vperm d a b k => 0xD4000000 + d.toNat * 2097152 + a.toNat * 65536 + b.toNat * 2048 + k.toNat * 256
  | .vshuf d a b k => 0xD4000008 + d.toNat * 2097152 + a.toNat * 65536 + b.toNat * 2048 + k.toNat * 256
  | .vrot d a n k => 0xD4000010 + d.toNat * 2097152 + a.toNat * 65536 + n.toNat * 2048 + k.toNat * 256
  | .vnbr d a n k => 0xD4000018 + d.toNat * 2097152 + a.toNat * 65536 + n.toNat * 2048 + k.toNat * 256
  | .vcmpEq d a b k t => 0xD8000000 + d.toNat * 2097152 + a.toNat * 65536 + b.toNat * 2048 + k.toNat * 256 + t.toNat
  | .vcmpNe d a b k t => 0xD8000008 + d.toNat * 2097152 + a.toNat * 65536 + b.toNat * 2048 + k.toNat * 256 + t.toNat
  | .vcmpLt d a b k t => 0xD8000010 + d.toNat * 2097152 + a.toNat * 65536 + b.toNat * 2048 + k.toNat * 256 + t.toNat
  | .vcmpLe d a b k t => 0xD8000018 + d.toNat * 2097152 + a.toNat * 65536 + b.toNat * 2048 + k.toNat * 256 + t.toNat
  | .vfcmpEq d a b k t => 0xD8000040 + d.toNat * 2097152 + a.toNat * 65536 + b.toNat * 2048 + k.toNat * 256 + t.toNat
  | .vfcmpLt d a b k t => 0xD8000048 + d.toNat * 2097152 + a.toNat * 65536 + b.toNat * 2048 + k.toNat * 256 + t.toNat
  | .vfcmpLe d a b k t => 0xD8000050 + d.toNat * 2097152 + a.toNat * 65536 + b.toNat * 2048 + k.toNat * 256 + t.toNat
  | .vfcmpUn d a b k t => 0xD8000058 + d.toNat * 2097152 + a.toNat * 65536 + b.toNat * 2048 + k.toNat * 256 + t.toNat
  | .vbcst d a k t => 0xDC000000 + d.toNat * 2097152 + a.toNat * 65536 + k.toNat * 256 + t.toNat
  | .vins d a n t => 0xDC000008 + d.toNat * 2097152 + a.toNat * 65536 + n.toNat * 2048 + t.toNat
  | .vext d a n t => 0xDC000010 + d.toNat * 2097152 + a.toNat * 65536 + n.toNat * 2048 + t.toNat
  | .vmov d a k => 0xDC000018 + d.toNat * 2097152 + a.toNat * 65536 + k.toNat * 256
  | .vli d i => 0xE0000000 + d.toNat * 2097152 + i.toNat
  | .vlih d i => 0xE0010000 + d.toNat * 2097152 + i.toNat
  | .vlui d i => 0xE0020000 + d.toNat * 2097152 + i.toNat
  | .vorli d i => 0xE0030000 + d.toNat * 2097152 + i.toNat
  | .vaddi d i => 0xE0040000 + d.toNat * 2097152 + i.toNat
  | .vsel d a b k => 0xE4000000 + d.toNat * 2097152 + a.toNat * 65536 + b.toNat * 2048 + k.toNat * 256
  | .kand d a b => 0xE4000008 + d.toNat * 2097152 + a.toNat * 65536 + b.toNat * 2048
  | .kor d a b => 0xE4000010 + d.toNat * 2097152 + a.toNat * 65536 + b.toNat * 2048
  | .knot d a => 0xE4000018 + d.toNat * 2097152 + a.toNat * 65536
  | .kmov d a => 0xE4000020 + d.toNat * 2097152 + a.toNat * 65536
  | .kmovFromScalar d a => 0xE4000028 + d.toNat * 2097152 + a.toNat * 65536
  | .kmovToScalar d a => 0xE4000030 + d.toNat * 2097152 + a.toNat * 65536
  | .vrcp d a k t => 0xE8000000 + d.toNat * 2097152 + a.toNat * 65536 + k.toNat * 256 + t.toNat
  | .vrsq d a k t => 0xE8000008 + d.toNat * 2097152 + a.toNat * 65536 + k.toNat * 256 + t.toNat
  | .vexp2 d a k t => 0xE8000010 + d.toNat * 2097152 + a.toNat * 65536 + k.toNat * 256 + t.toNat
  | .vlog2 d a k t => 0xE8000018 + d.toNat * 2097152 + a.toNat * 65536 + k.toNat * 256 + t.toNat
  | .vtanh d a k t => 0xE8000020 + d.toNat * 2097152 + a.toNat * 65536 + k.toNat * 256 + t.toNat
  | .fcLdi d n => 0x800 + d.toNat * 256 + n.toNat
  | .fcLdq d n => 0x1000 + d.toNat * 256 + n.toNat
  | .fcLdp d n => 0x1800 + d.toNat * 256 + n.toNat
  | .fcLde d n => 0x2000 + d.toNat * 256 + n.toNat
  | .fcLds d n => 0x2800 + d.toNat * 256 + n.toNat
  | .fcSto d n => 0x3000 + d.toNat * 256 + n.toNat
  | .fcAdd d s => 0x3800 + d.toNat * 256 + s.toNat
  | .fcSub d s => 0x4000 + d.toNat * 256 + s.toNat
  | .fcShl d n => 0x4800 + d.toNat * 256 + n.toNat
  | .fcShr d n => 0x5000 + d.toNat * 256 + n.toNat
  | .fcAnd d s => 0x5800 + d.toNat * 256 + s.toNat
  | .fcOr d s => 0x6000 + d.toNat * 256 + s.toNat
  | .fcMin d s => 0x6800 + d.toNat * 256 + s.toNat
  | .fcMax d s => 0x7000 + d.toNat * 256 + s.toNat
  | .fcSel d c s => 0x7800 + d.toNat * 256 + c.toNat * 8 + s.toNat
  | .fcJmp n => 0x8000 + n.toNat
  | .fcJz d n => 0x8800 + d.toNat * 256 + n.toNat
  | .fcJnz d n => 0x9000 + d.toNat * 256 + n.toNat
  | .fcJlt d n => 0x9800 + d.toNat * 256 + n.toNat
  | .fcNextq d r => 0xA000 + d.toNat * 256 + r.toNat
  | .fcPickmin d n => 0xA800 + d.toNat * 256 + n.toNat
  | .fcPickmax d n => 0xB000 + d.toNat * 256 + n.toNat
  | .fcDisp => 0xB800
  | .fcPreempt d => 0xC000 + d.toNat * 256
  | .fcFaultact d => 0xC800 + d.toNat * 256
  | .fcDefer => 0xD000
  | .fcEnd => 0xD800
  | .copy .. => 0
  | .copy2d .. => 0
  | .copyc .. => 0
  | .gather .. => 0
  | .scatter .. => 0
  | .deck .. => 0
  | .bload .. => 0
  | .mxt .. => 0
  | .mxdrain .. => 0
  | .coll .. => 0
  | .intake .. => 0
  | .window .. => 0
  | .note .. => 0
  | .qfence .. => 0
  | .launch .. => 0
  | .pipe .. => 0
  | .cmd .. => 0
  | .signal .. => 0
  | .wait .. => 0
  | .receipt .. => 0
  | .policyLoad .. => 0
  | .policySwap .. => 0
  | .partCores .. => 0
  | .partPool .. => 0
  | .partCache .. => 0
  | .partQueue .. => 0
  | .partLimits .. => 0
  | .partVf .. => 0
  | .partDrop .. => 0
  | .partCtx .. => 0
  | .poolRefill .. => 0
  | .overrun .. => 0
  | .segmentLink .. => 0
  | .queueRoom .. => 0
  | .tlbiComplete .. => 0
  | .activationReady .. => 0
  | .isobarRound .. => 0
  | .decision .. => 0
  | .deferInterval .. => 0
  | .lullResume .. => 0
  | .rowGate .. => 0
  | .walk .. => 0
  | .drainLimit .. => 0
  | .faultLimit .. => 0
  | .replay .. => 0
  | .windowFill .. => 0
  | .faultRecordWrite .. => 0
  | .machineCheck .. => 0
  | .schedulerEccError .. => 0
  | .sliceEnd .. => 0
  | .sliceStart .. => 0
  | .scrollSaveComplete .. => 0
  | .scrollRestoreComplete .. => 0
  | .frontDispatch .. => 0
  | .frontIsobarRound .. => 0
  | .commandComplete .. => 0
  | .collectiveResult .. => 0
  | .messageDecided .. => 0
  | .messageDelivery .. => 0
  | .doorbellWrite .. => 0
  | .waitTimeout .. => 0
  | .receiptFinish .. => 0
  | .batchClose .. => 0
  | .contextResume .. => 0
  | .hostHalt .. => 0
  | .resumeWithRewind .. => 0
  | .exportCtx .. => 0
  | .importCtx .. => 0
  | .releaseStubs .. => 0
  | .claim .. => 0
  | .release .. => 0
  | .clearCounters .. => 0
  | .counterLowRead .. => 0
  | .voltageReportRead .. => 0
  | .voltageReportClear .. => 0
  | .debugStop .. => 0
  | .debugRelease .. => 0
  | .liveDump .. => 0
  | .registerWrite .. => 0
  | .powerOn .. => 0
  | .startUpRequest .. => 0
  | .dieReset .. => 0
  | .feedLoss .. => 0
  | .feedReturn .. => 0
  | .powerLoss .. => 0
  | .powerWindow .. => 0
  | .powerCapSet .. => 0
  | .lvlcapSet .. => 0
  | .sensorRead .. => 0
  | .getVersion .. => 0
  | .getCapabilities .. => 0
  | .negotiateAlgorithms .. => 0
  | .getDigests .. => 0
  | .getCertificate .. => 0
  | .challenge .. => 0
  | .getMeasurements .. => 0
  | .configurationRequest .. => 0
  | .cxlMemRead .. => 0
  | .cxlMemWrite .. => 0
  | .flitReceive .. => 0
  | .timeFlit .. => 0
  | .portDown .. => 0
  | .routeReturn .. => 0
  | .voltageMinimum .. => 0
  | .routeTableLoad .. => 0
  | .collectiveFaultLimit .. => 0

/-- `SETS`, `WAITM`, `LONG` and `OPC` in their places (R181). -/
def encodeHdr (h : CmdHdr) (opc long : Nat) : Nat :=
  h.sets.toNat * 633825300114114700748351602688 + h.waitm.toNat * 20282409603651670423947251286016 + long * 316912650057057350374175801344 + opc * 1329227995784915872903807060280344576

def encodeCopy (h : CmdHdr) (o : CopyOps) : Nat × Nat :=
  (encodeHdr h 1 0 + o.far.toNat + o.len.toNat * 144115188075855872 + o.near.toNat * 9444732965739290427392 + o.noff.toNat * 75557863725914323419136, 0)

def encodeCopy2d (h : CmdHdr) (o : Copy2dOps) : Nat × Nat :=
  (encodeHdr h 2 1 + o.dst.toNat + o.dsp.toNat * 144115188075855872 + o.rows.toNat * 1152921504606846976 + o.dstride.toNat * 75557863725914323419136, o.src.toNat + o.ssp.toNat * 144115188075855872 + o.rlen.toNat * 18446744073709551616 + o.sstride.toNat * 19342813113834066795298816)

def encodeCopyc (h : CmdHdr) (o : CopycOps) : Nat × Nat :=
  (encodeHdr h 3 1 + o.far.toNat + o.len.toNat * 144115188075855872 + o.near.toNat * 9444732965739290427392 + o.noff.toNat * 75557863725914323419136, o.cwa.toNat + o.cwv.toNat * 18446744073709551616)

def encodeGather (h : CmdHdr) (o : GatherOps) : Nat × Nat :=
  (encodeHdr h 4 1 + o.base.toNat + o.esz.toNat * 144115188075855872 + o.iw.toNat * 1152921504606846976 + o.count.toNat * 4611686018427387904 + o.isp.toNat * 302231454903657293676544, o.idx.toNat + o.dsp.toNat * 144115188075855872 + o.data.toNat * 18446744073709551616)

def encodeScatter (h : CmdHdr) (o : GatherOps) : Nat × Nat :=
  (encodeHdr h 5 1 + o.base.toNat + o.esz.toNat * 144115188075855872 + o.iw.toNat * 1152921504606846976 + o.count.toNat * 4611686018427387904 + o.isp.toNat * 302231454903657293676544, o.idx.toNat + o.dsp.toNat * 144115188075855872 + o.data.toNat * 18446744073709551616)

def encodeDeck (h : CmdHdr) (o : DeckOps) : Nat × Nat :=
  (encodeHdr h 6 0 + o.src.toNat + o.doff.toNat * 144115188075855872 + o.len.toNat * 9444732965739290427392 + o.ssp.toNat * 618970019642690137449562112, 0)

def encodeBload (h : CmdHdr) (o : BloadOps) : Nat × Nat :=
  (encodeHdr h 7 0 + o.doff.toNat + o.sc.toNat * 65536, 0)

def encodeMxt (h : CmdHdr) (o : MxtOps) : Nat × Nat :=
  (encodeHdr h 8 o.ach.toNat + o.abase.toNat + o.mm1.toNat * 32768 + o.km1.toNat * 2097152 + o.ascl.toNat * 536870912 + o.mode.toNat * 4503599627370496 + o.aprec.toNat * 18014398509481984 + o.bprec.toNat * 72057594037927936 + o.afin.toNat * 288230376151711744 + o.bfin.toNat * 576460752303423488 + o.fresh.toNat * 1152921504606846976 + o.swap0.toNat * 2305843009213693952 + o.bnext.toNat * 4611686018427387904 + o.ach.toNat * 302231454903657293676544, o.ahdr.toNat + o.aspc.toNat * 33554432)

def encodeMxdrain (h : CmdHdr) (o : MxdrainOps) : Nat × Nat :=
  (encodeHdr h 9 0 + o.dst.toNat + o.mm1.toNat * 32768 + o.ofmt.toNat * 2097152 + o.prec.toNat * 16777216 + o.usgn.toNat * 67108864 + o.fin.toNat * 134217728, 0)

def encodeColl (h : CmdHdr) (o : CollOps) : Nat × Nat :=
  (encodeHdr h 10 0 + o.kind.toNat + o.dt.toNat * 4 + o.scope.toNat * 16 + o.midx.toNat * 128 + o.nmem.toNat * 262144 + o.group.toNat * 536870912 + o.len.toNat * 35184372088832 + o.src.toNat * 2305843009213693952 + o.dst.toNat * 75557863725914323419136, 0)

def encodeIntake (h : CmdHdr) (o : IntakeOps) : Nat × Nat :=
  (encodeHdr h 11 1 + o.srca.toNat + o.slen.toNat * 144115188075855872 + o.tenc.toNat * 154742504910672534362390528 + o.cset.toNat * 618970019642690137449562112 + o.cont.toNat * 4951760157141521099596496896, o.tag.toNat + o.prof.toNat * 4294967296)

def encodeWindow (h : CmdHdr) (o : WindowOps) : Nat × Nat :=
  (encodeHdr h 12 1 + o.wbase.toNat + o.tile.toNat * 144115188075855872 + o.slot.toNat * 2305843009213693952 + o.gm1.toNat * 2361183241434822606848 + o.dims.toNat * 604462909807314587353088 + o.dir.toNat * 2417851639229258349412352, o.n0m1.toNat + o.str0.toNat * 4096 + o.n1m1.toNat * 4294967296 + o.str1.toNat * 17592186044416 + o.n2m1.toNat * 18446744073709551616 + o.str2.toNat * 75557863725914323419136 + o.stream.toNat * 79228162514264337593543950336)

def encodeNote (h : CmdHdr) (o : NoteOps) : Nat × Nat :=
  (encodeHdr h 13 o.long.toNat + o.naddr.toNat + o.nsp.toNat * 144115188075855872 + o.nval.toNat * 18446744073709551616, o.nval64.toNat)

def encodeQfence (h : CmdHdr) (o : QfenceOps) : Nat × Nat :=
  (encodeHdr h 14 0 + o.qmask.toNat, 0)

/-- The first and second word of a stream command (R181 to R204); none for another step. -/
def encodeCommand : Instr → Nat × Nat
  | .copy h o => encodeCopy h o
  | .copy2d h o => encodeCopy2d h o
  | .copyc h o => encodeCopyc h o
  | .gather h o => encodeGather h o
  | .scatter h o => encodeScatter h o
  | .deck h o => encodeDeck h o
  | .bload h o => encodeBload h o
  | .mxt h o => encodeMxt h o
  | .mxdrain h o => encodeMxdrain h o
  | .coll h o => encodeColl h o
  | .intake h o => encodeIntake h o
  | .window h o => encodeWindow h o
  | .note h o => encodeNote h o
  | .qfence h o => encodeQfence h o
  | _ => (0, 0)

def encodeLaunch (o : LaunchOps) : Nat :=
  o.block.toNat * 18446744073709551616 + o.count.toNat * 340282366920938463463374607431768211456

def encodePipe (o : PipeOps) : Nat :=
  o.block.toNat * 18446744073709551616

def encodeCmd (o : CmdOps) : Nat :=
  o.core.toNat * 18446744073709551616 + o.queue.toNat * 590295810358705651712 + o.lo.toNat * 340282366920938463463374607431768211456 + o.hi.toNat * 115792089237316195423570985008687907853269984665640564039457584007913129639936

def encodeSignal (o : SignalOps) : Nat :=
  o.addr.toNat * 18446744073709551616 + o.value.toNat * 340282366920938463463374607431768211456 + o.op.toNat * 6277101735386680763835789423207666416102355444464034512896

def encodeWait (o : WaitOps) : Nat :=
  o.addr.toNat * 18446744073709551616 + o.value.toNat * 340282366920938463463374607431768211456 + o.op.toNat * 6277101735386680763835789423207666416102355444464034512896 + o.tmo.toNat * 26959946667150639794667015087019630673637144422540572481103610249216

def encodeReceipt (o : ReceiptOps) : Nat :=
  o.block.toNat * 18446744073709551616 + o.codea.toNat * 340282366920938463463374607431768211456 + o.arga.toNat * 6277101735386680763835789423207666416102355444464034512896 + o.argl.toNat * 115792089237316195423570985008687907853269984665640564039457584007913129639936 + o.resl.toNat * 497323236409786642155382248146820840100456150797347717440463976893159497012533375533056 + o.resa.toNat * 2135987035920910082395021706169552114602704522356652769947041607822219725780640550022962086936576 + o.rdst.toNat * 39402006196394479212279040100143613805079739270465446667948293404245721771497210611414266254884915640806627990306816 + o.bdst.toNat * 726838724295606890549323807888004534353641360687318060281490199180639288113397923326191050713763565560762521606266177933534601628614656

def encodePolicyLoad (o : PolicyLoadOps) : Nat :=
  o.img.toNat * 18446744073709551616 + o.lenm1.toNat * 340282366920938463463374607431768211456

def encodePartCores (o : PartCoresOps) : Nat :=
  o.p.toNat * 18446744073709551616 + o.mask.toNat * 340282366920938463463374607431768211456

def encodePartPool (o : PartPoolOps) : Nat :=
  o.p.toNat * 18446744073709551616 + o.plevel.toNat * 340282366920938463463374607431768211456 + o.pcap.toNat * 1461501637330902918203684832716283019655932542976 + o.prate.toNat * 6277101735386680763835789423207666416102355444464034512896

def encodePartCache (o : PartCacheOps) : Nat :=
  o.p.toNat * 18446744073709551616 + o.dies.toNat * 295147905179352825856 + o.sbase.toNat * 340282366920938463463374607431768211456 + o.scount.toNat * 348449143727040986586495598010130648530944 + o.tquota.toNat * 713623846352979940529142984724747568191373312 + o.lquota.toNat * 23384026197294446691258957323460528314494920687616 + o.bw.toNat * 6277101735386680763835789423207666416102355444464034512896

def encodePartQueue (o : PartQueueOps) : Nat :=
  o.p.toNat * 18446744073709551616 + o.c.toNat * 4722366482869645213696 + o.qsel.toNat * 151115727451828646838272 + o.prio.toNat * 1208925819614629174706176 + o.urgent.toNat * 9671406556917033397649408 + o.segment.toNat * 340282366920938463463374607431768211456

def encodePartLimits (o : PartLimitsOps) : Nat :=
  o.p.toNat * 18446744073709551616 + o.drain.toNat * 340282366920938463463374607431768211456 + o.fault.toNat * 1461501637330902918203684832716283019655932542976 + o.dint.toNat * 26959946667150639794667015087019630673637144422540572481103610249216 + o.slice.toNat * 115792089237316195423570985008687907853269984665640564039457584007913129639936

def encodePartVf (o : PartVfOps) : Nat :=
  o.vf.toNat * 18446744073709551616 + o.qslots.toNat * 1208925819614629174706176 + o.dcnt.toNat * 79228162514264337593543950336

def encodePartDrop (o : PartDropOps) : Nat :=
  o.p.toNat * 18446744073709551616

def encodePartCtx (o : PartCtxOps) : Nat :=
  o.p.toNat * 18446744073709551616 + o.c.toNat * 295147905179352825856 + o.priv.toNat * 9444732965739290427392 + o.vf.toNat * 18889465931478580854784 + o.en.toNat * 2417851639229258349412352 + o.nest.toNat * 4835703278458516698824704 + o.padlo.toNat * 79228162514264337593543950336 + o.padn.toNat * 20282409603651670423947251286016 + o.dielo.toNat * 5192296858534827628530496329220096 + o.dien.toNat * 1329227995784915872903807060280344576 + o.root1.toNat * 340282366920938463463374607431768211456 + o.root2.toNat * 6277101735386680763835789423207666416102355444464034512896 + o.cring.toNat * 115792089237316195423570985008687907853269984665640564039457584007913129639936 + o.dring.toNat * 2135987035920910082395021706169552114602704522356652769947041607822219725780640550022962086936576 + o.sring.toNat * 39402006196394479212279040100143613805079739270465446667948293404245721771497210611414266254884915640806627990306816 + o.farea.toNat * 726838724295606890549323807888004534353641360687318060281490199180639288113397923326191050713763565560762521606266177933534601628614656

/-- The body of a ring packet, its header doubleword 0 (R281 to R306). -/
def encodePacket : Instr → Nat
  | .launch o => encodeLaunch o
  | .pipe o => encodePipe o
  | .cmd o => encodeCmd o
  | .signal o => encodeSignal o
  | .wait o => encodeWait o
  | .receipt o => encodeReceipt o
  | .policyLoad o => encodePolicyLoad o
  | .partCores o => encodePartCores o
  | .partPool o => encodePartPool o
  | .partCache o => encodePartCache o
  | .partQueue o => encodePartQueue o
  | .partLimits o => encodePartLimits o
  | .partVf o => encodePartVf o
  | .partDrop o => encodePartDrop o
  | .partCtx o => encodePartCtx o
  | _ => 0

end Sys2Proof
end

