-- ==== Sys2Proof/Config.lean ====
section
/-! DEFINITION. What the spec fixes for every part as plain numbers, and the values it leaves open as constants without a body
(log 3, 5, 11, 12, 13, 14). -/

namespace Sys2Proof.Config

/-- A 64-bit value the spec leaves open; the argument is the draw's number (log 3). -/
opaque freeWord : Nat → BitVec 64

/-- A number the spec leaves open (log 3, 11, 12). -/
opaque freeNat : Nat → Nat

/-- Whether a measured task's bank reaches its floor in the instruction of this draw (R75, log 3). -/
opaque freeFloor : Nat → Bool

/-- `SHORT` of a rated dark run that ends with a meter below its base, by the two: the same on every replay (R8, R82, log 3). -/
opaque shortBelow : Nat → Nat → Nat

/-- The value of an operation on operands for which the spec states none: a code for the operation, then its operand (log 3). -/
opaque freeResult : Nat → Nat → BitVec 64

/-- What a stack read at an offset of 96 GiB or more returns as poison over CXL.mem (R345, log 3). -/
opaque poisonValue : Nat → BitVec 64

/-- The reading of a numeric sensor the spec gives no value for, by its code and the moment (R342, log 5). -/
opaque sensorReading : Nat → Nat → Nat

/-- The present voltage in millivolts of an island's rail, by its level and the tick (R339, log 5). -/
opaque railMillivolts : Nat → Nat → Nat → BitVec 12

/-- Whether a line of a bus fails the walking-ones test of a start-up (R334, log 5): by the test, the core, the bus and the line; of group g, lines
64g to 64g + 63 are its data lines and 1024 + 2g and 1025 + 2g its spares. -/
opaque lineFaulty : Nat → Nat → Nat → Nat → Bool

/-- What an island draws in a power window (R338, log 5). -/
opaque islandPower : Nat → Nat → Nat

/-- Whether the two stacks of a die, a Zorsin port and a UCIe module come up trained in a start-up (R332, R344, log 5). -/
opaque stacksTrain : Nat → Nat → Bool
opaque portTrains : Nat → Nat → Bool
opaque moduleTrains : Nat → Nat → Bool

/-- What management and the pod decide outside the package (log 6): its own number, whether it is the time master of its pod, the package that holds
a member of a collective group of a partition, and the package a context was exported to. -/
opaque ownPackage : Nat
opaque podMaster : Bool
opaque packageOf : Nat → Nat → Nat → Nat
opaque exportedTo : Nat → Nat

/-- How many of the flits sent over a link the other end has acknowledged since (R347, log 6). -/
opaque acknowledged : Nat → Nat

/-- The credits of a virtual channel of a port beyond the first (R347, log 6). -/
opaque linkCredits : Nat

/-- The SHA-256 of a firmware image in management storage (R332, R343, log 13). -/
opaque firmwareDigest : Nat → BitVec 256

/-- The 32 bytes that the corrected PUF response gives (R319, log 13). -/
opaque pufSeed : BitVec 256

/-- The 48 bytes of the DRBG from which a start-up generates its receipt key (R318, log 13). -/
opaque receiptSeeds : Nat → BitVec 384

/-- The certificate's 16 bytes from the DRBG, by start-up (R319, log 13). -/
opaque certNonce : Nat → BitVec 128

/-- The 16 bytes with which the signature of a message in a start-up is randomised (FIPS 205, log 13). -/
opaque slhRandom : Nat → List (BitVec 8) → BitVec 128

/-- Byte `i` of a management reply whose layout an outside standard gives (R342, log 13): a code, then the index. -/
opaque outsideReply : Nat → Nat → BitVec 8

end Sys2Proof.Config
end

