-- ==== Sys2Proof/Machine/State.lean ====
section
/-! DEFINITION. The state of the machine: every register and record the spec gives the package, as plain data, and the state right
after start-up has completed (R7, R332). -/

namespace Sys2Proof.Machine

/-- Stops of the whole machine. -/
inductive Fault where
  /-- Raised by `step` of a device that has lost both feeds or power (R337), in every turn but `POWER_ON`. Safe. -/
  | noPower
  deriving DecidableEq, Repr

/-- Why a step has no meaning. -/
inductive Refusal where
  /-- Raised by the dispatch of an instruction that has no meaning yet. Safe. -/
  | notModelled (mnemonic : String)
  /-- Raised by a task instruction, Forecast operation, command or packet when no agent is there to perform it. Safe. -/
  | noAgent
  deriving DecidableEq, Repr

/-! ## Translation -/

/-- An affine entry of a port (R242): a VA range, where it maps, the attributes of R237, the space it belongs to. `k1` and `k2` are the logs of the
sizes of the stage-one and stage-two leaves it is cut from, one leaf where there is one stage (R110, R240). -/
structure PEnt where
  va : Nat
  len : Nat
  gpa : Nat
  pa : Nat
  r : Bool
  w : Bool
  x : Bool
  d : Bool
  g : Bool
  node : Nat
  fmt : Nat
  geo : Nat
  plc : Nat
  cx : Nat
  root : Nat
  k1 : Nat
  k2 : Nat
  deriving DecidableEq, Repr

/-- A walk in progress and the generation counts it recorded (R243, R250). `acc`: 0 fetch, 1 read, 2 write, 3 atomic. -/
structure Walk where
  cx : Nat
  va : Nat
  acc : Nat
  gen1 : Nat
  gen2 : Nat
  deriving DecidableEq, Repr

/-- The work a stalled access belongs to; a scroll names its row, and a record the die whose `CTX` port writes it (R361). `receipt`: a RECEIPT's reads of
its measured items; `launch`: those of its block, and the write of the copy (R310). -/
inductive Who where
  | row (row : Nat)
  | engine (cx k : Nat)
  | message (die seq : Nat)
  | ring (cx : Nat)
  | pipe (cx q row : Nat)
  | receipt (cx : Nat)
  | launch (cx : Nat)
  | ready (cx act : Nat)
  | record (cx kind die : Nat)
  deriving DecidableEq, Repr

/-- Whether a stalled access is a record of a kind of a context, through whichever port. -/
def Who.isRecord (w : Who) (cx kind : Nat) : Bool :=
  match w with
  | .record c k _ => c == cx && k == kind
  | _ => false

/-- A page fault that stalls (R246). -/
structure Miss where
  cx : Nat
  va : Nat
  acc : Nat
  stage : Nat
  level : Nat
  since : Nat
  drained : Bool
  who : Who
  deriving DecidableEq, Repr

/-- A port (R241, R242): its entries, most recently used first, the translations its access in progress has obtained, its walk and its
stalled miss. -/
structure Port where
  entries : List PEnt
  got : List PEnt
  walk : Option Walk
  miss : Option Miss
  deriving DecidableEq, Repr

/-! ## Tasks -/

/-- An entry of a channel table as read when the block was enqueued or armed (R47, R59): direction, slots needed, the offset it names, and
the location of its header, none for a `quad` entry that is bound at placement. -/
structure Chan where
  out : Bool
  quad : Bool
  need : Nat
  hdr : Nat
  hkey : Option Nat
  deriving DecidableEq, Repr

/-- A channel handle as its activation recorded it (R47, R52, R101). `hkey` is the location of the header; `placed`: its `BIND` bit was set
at placement (R59). -/
structure Handle where
  out : Bool
  quad : Bool
  hkey : Nat
  placed : Bool
  slotSz : Nat
  logn : Nat
  cnt0 : Nat
  g : Nat
  adv : Nat
  deriving DecidableEq, Repr

/-- A staged item (R39, R76), in program order. A store holds its bytes by location, an atomic the location of its first byte; `uses` are the
entries their translations used, none outside `mem` (R77). -/
inductive Staged where
  | store (cells : List Host.Cell) (va : Nat) (uses : List PEnt)
  | atomic (key size op : Nat) (v : Word) (uses : List PEnt)
  | chan (h e : Nat) (v : Word)
  | tag (h e t : Nat)
  | cmd (q w0 w1 : Nat)
  | tlbi (kind : Nat) (s2 : Bool) (va : Word)
  | ptsync
  deriving DecidableEq, Repr

/-- What an exit asks for, read when it issues (R104): successor registers in order, then the action of its kind; `pod`: the scope of an `XBAR` is
`.POD`. -/
inductive ExitAct where
  | plain (succ : List Word)
  | wait (succ : Word) (kind : Nat) (addr val : Word)
  | bar (succ : Word) (size : Nat) (pod : Bool)
  | amo (succ : Word) (op size key : Nat) (v va : Word)
  | stop
  deriving DecidableEq, Repr

/-- What F0 or a commit has read of a block (R46, R285 step 3): image, packets, each member's channels, the wait word's location. -/
structure LBlock where
  image : Nat
  npkt : Nat
  chans : List (List Chan)
  wkey : Option Nat
  deriving DecidableEq, Repr

/-- What a commit waits for (R63, R110, R184, R303, R311, R361), a package of the pod among them (R348). -/
inductive CWait where
  | none
  | hold
  | room
  | sync
  | segment (qsel : Nat)
  | quota
  | page
  | pod (since : Nat)
  deriving DecidableEq, Repr

/-- A commit under way (R78): the next of the steps 1, 4, 5, 7 and 8; items of step 4 still to append, and those not complete (kind 0 page,
1 context, 2 partition, 3 `PTSYNC`; stage two; address); successors still to enqueue by position, 16 + n for a barrier group's of size n;
those found invalid; the value an `XAMO` read; the block of the next successor where it has been read and its `BIND` bits set, while its copy waits
(R285). `wrote`: the ranges that steps 1 to 3 have written while an `XAMO` is still to come (R78); `ord`:
its place among the commits of its core at step 4 (R185). -/
structure Commit where
  act : ExitAct
  step : Nat
  todo : List Staged
  syncs : List (Nat × Bool × Word)
  succ : List (Nat × Word)
  bad : List (Nat × Word)
  old : Word
  held : Option LBlock
  wait : CWait
  wrote : List (Nat × Nat)
  ord : Nat
  deriving DecidableEq, Repr

/-- A dark run (R11, R37): the base, the packets drawn above it, and what the stop record will hold (R82). -/
structure Dark where
  base : Nat
  drawn : Nat
  pc : Word
  meter : Nat
  nstore : Nat
  nchw : Nat
  ncmd : Nat
  deriving DecidableEq, Repr

/-- A task (R43, R44). `faulted`: its instruction raised a context fault, and the halt will end it (R325). `ir` is the word fetched last, and
`charged`: its instruction has been charged and waits at its step 4 (R29). `freed`: its `BRK` freeze has been released, but its VF is descheduled
(R329). `flags` and `fmt` are the registers of R84 and R115; `s` index 0 and `k` index 0 are never written. -/
structure Task where
  cx : Nat
  core : Nat
  row : Nat
  pc : Word
  s : Vector Word 32
  v : Vector (Vector Lane 16) 32
  k : Vector (BitVec 16) 8
  cfg : Vector Word 256
  tid : Word
  gid : Word
  seed : Word
  srctr : Word
  fmt : Word
  flags : Word
  meter : Nat
  budget : Nat
  measured : Bool
  smf : Bool
  lvl : Nat
  cscope : Nat
  dark : Option Dark
  staged : List Staged
  nstore : Nat
  nbytes : Nat
  nchw : Nat
  ncmd : Nat
  handles : List Handle
  block : Nat
  gsz : Nat
  gspan : Bool
  grp : Option Nat
  bound : Option Nat
  stage : Option (Nat × Nat)
  pkt : Option Nat
  receipt : Bool
  vf : Nat
  froPre : Bool
  froDrain : Bool
  froBrk : Bool
  freed : Bool
  faulted : Bool
  ir : Nat
  charged : Bool
  commit : Option Commit
  deriving DecidableEq, Repr

/-- A row (R1, R66, R232, R323, R350). `claim` is the pipeline that holds it. -/
structure Row where
  task : Option Task
  bankB : Bool
  sliceCx : Option Nat
  gated : Bool
  claim : Option (Nat × Nat)
  cls : Nat
  port : Nat
  deriving DecidableEq, Repr

/-- A core: its partition, a move under way (R301), the context that owns its array and whether a slice boundary still permits a handover of it, its
owner having no new work since (R170), the array bank that runs (R74), its repair summary (R336), the spare bus that serves each retired one (R335),
and the faulty data lines that each shift-repair register steers past, by 16 × bus + group (R334). -/
structure Core where
  part : Option Nat
  target : Option Nat
  owner : Option Nat
  handover : Bool
  bankB : Bool
  shifted : Nat
  retired : Nat
  spused : Nat
  oos : Bool
  moved : Tbl Nat
  shifts : Tbl (List Nat)
  deriving DecidableEq, Repr

/-! ## Engines -/

/-- How far a command has come (R172): queued, paid for while it waited at its head (R70, R74), issued and still working, or with every write
performed. -/
inductive CmdSt where
  | queued
  | paid
  | issued
  | done
  deriving DecidableEq, Repr

/-- An appended command (R185). `rows` are the A rows of its present chunk that a tile-task has taken from its channel, `chunk` how many chunks
are done and `part` its partial words after them (R164, R166); `join` what a `QFENCE` still waits for (R204); `pipe` the position whose prefetch
it is (R222); `sat`: its wait condition has been satisfied (R187); `due`: the packets it waits for (R71); `held`: it waits behind a hold (R311). -/
structure Cmd where
  seq : Nat
  core : Nat
  w0 : Nat
  w1 : Nat
  pkt : Option Nat
  receipt : Bool
  st : CmdSt
  rows : List Nat
  join : List (Nat × Nat)
  pipe : Option (Nat × Nat)
  chunk : Nat
  part : List Nat
  sat : Bool
  due : Option Nat
  held : Bool
  deriving DecidableEq, Repr

/-- A queue of a context (R184, R185, R326): the highest number appended, the first number that will never complete (0 for none), and
its commands not yet completed. -/
structure EQ where
  appended : Nat
  lost : Nat
  cmds : List Cmd
  deriving DecidableEq, Repr

/-- A dependency slot (R186). -/
structure Slot where
  set : Bool
  pend : Nat
  deriving DecidableEq, Repr

/-- An intake message that holds a place (R179). `verdict`: its tokens, or reason, stage and offset of its fault. `sent`: slots delivered. -/
structure Msg where
  cx : Nat
  core : Nat
  seq : Nat
  srca : Nat
  slen : Nat
  tenc : Nat
  cset : Nat
  cont : Nat
  tag : Nat
  merge : Nat
  nmerge : Nat
  tokcap : Nat
  replim : Nat
  dict : Nat
  dlen : Nat
  dictid : Nat
  ochan : Nat
  qring : Nat
  verdict : Option (List Nat ⊕ (Nat × Nat × Nat))
  sent : Nat
  deriving DecidableEq, Repr

/-- A member of a collective instance (R198, R199). `src` and `dst` are locations. -/
structure Member where
  cx : Nat
  core : Nat
  seq : Nat
  midx : Nat
  src : Nat
  dst : Nat
  since : Nat
  deriving DecidableEq, Repr

/-- A collective instance (R199). `ord`: which of its group's instances it is; `remote`: pieces of contributions that have come from other packages, each
with its member index and offset (R346, R347); `broken`: no result will be written, since a member was discarded, lost or mismatched, or faulted
(R199, R348); `dead`: the member indexes that such an instance is done with. -/
structure Coll where
  id : Nat
  ord : Nat
  part : Nat
  kind : Nat
  dt : Nat
  scope : Nat
  place : Nat
  group : Nat
  nmem : Nat
  len : Nat
  members : List Member
  remote : List (Nat × Nat × List Byte)
  broken : Bool
  dead : List Nat
  deriving DecidableEq, Repr

/-- An L2 window (R251 to R253). `kind`: 0 stream, 1 demand, 2 pool. `pos`: the positions of a write stream's dirty granules; `uses`: the entries that
translated its addresses (R110). -/
structure Win where
  kind : Nat
  part : Nat
  cx : Nat
  base : Nat
  len : Nat
  write : Bool
  dims : List (Nat × Int)
  tail : Nat
  head : Nat
  held : List Nat
  dirty : List Nat
  stream : Nat
  used : Nat
  pos : List Nat
  uses : List PEnt
  deriving DecidableEq, Repr

/-- A window of an LLC slice (R254): its partition, its first granule and how many it holds; more than one where it reads ahead. -/
structure Line where
  part : Nat
  base : Nat
  len : Nat
  deriving DecidableEq, Repr

/-- A compute die: stopped by a machine check (R328), request counters (R230), windows keyed by tile × 1024 + slot, the voltage report
and its latch (R340), intake messages (R179). -/
structure Die where
  stopped : Bool
  localRq : Nat
  remoteRq : Nat
  wins : Tbl Win
  mv : BitVec 12
  sensor : BitVec 12
  island : BitVec 8
  stamp : Word
  latched : Word
  msgs : List Msg
  deriving DecidableEq, Repr

/-! ## Contexts -/

/-- A queue-table entry (R299): its segments from head to tail, each with its location. -/
structure QEnt where
  prio : Nat
  urgent : Bool
  segs : List (Nat × Nat)
  headx : Nat
  tailx : Nat
  deriving DecidableEq, Repr

/-- An enqueued activation (R51, R285). `key` is where its copy stands (R62), `blk` the address it was launched by; `ready` its stamp;
`wkey` the location of its wait word and `wok` whether its condition has held (R53); `bound`: an armed block's own, which has no entry (R55). -/
structure Act where
  id : Nat
  qsel : Nat
  seg : Nat
  idx : Nat
  key : Nat
  blk : Nat
  npkt : Nat
  tid : Word
  gid : Nat
  pkt : Option Nat
  grp : Option Nat
  receipt : Bool
  wkey : Option Nat
  wok : Bool
  ready : Option Nat
  bound : Bool
  chans : List Chan
  deriving DecidableEq, Repr

/-- An armed bound block (R55): its image as read when it was armed. -/
structure Bound where
  id : Nat
  blk : Nat
  image : Nat
  npkt : Nat
  base : Word
  n : Nat
  qsel : Nat
  chans : List Chan
  deriving DecidableEq, Repr

/-- A barrier group (R56, R57). -/
structure Grp where
  id : Nat
  size : Nat
  arrived : List Nat
  ended : Nat
  cancelled : Bool
  placed : Option Nat
  succ : Option (Word × Nat × Word)
  deriving DecidableEq, Repr

/-- A spanning launch (R286, R287): its queued copy stands in `act`; `ranges` holds die, first index and end. -/
structure Span where
  act : Nat
  q : Nat
  count : Nat
  ranges : List (Nat × Nat × Nat)
  deriving DecidableEq, Repr

/-- A packet that has started and not completed (R279, R280). `live`: activations of a launch still to end; `body`: the packet, of a PART
kind that takes effect later. -/
structure Pkt where
  seq : Nat
  kind : Nat
  rel : Nat
  crec : Bool
  irq : Bool
  live : Nat
  body : Nat
  deriving DecidableEq, Repr

/-- The packet at the head of the ring (R279, R283): its number, header and body, whether it has started, the location a WAIT compares
and whether the comparison has held, its time limit, the queue whose segment is full, the address of a miss of its reads that has reached
the fault limit (R219), and the block of a LAUNCH once it has been read and its `BIND` bits set, while its copy waits (R285). -/
structure Cur where
  seq : Nat
  hdr : PktHdr
  body : Nat
  started : Bool
  wkey : Option Nat
  wval : Word
  wge : Bool
  wok : Bool
  until_ : Option Nat
  full : Option Nat
  lost : Option Nat
  block : Option LBlock
  deriving DecidableEq, Repr

/-- A completion record not yet written (R280, R304). -/
structure Rec where
  seq : Nat
  status : Nat
  code : Nat
  stage : Nat
  irq : Bool
  deriving DecidableEq, Repr

/-- A context fault (R324, R326). -/
structure FaultRec where
  cls : Nat
  detail : Nat
  core : Nat
  row : Nat
  addr : Nat
  pc : Nat
  tb : Nat
  pktseq : Nat
  nact : Nat
  nrun : Nat
  nlate : Nat
  succ : List Nat
  deriving DecidableEq, Repr

/-- The halt of a context (R325, R327): the fault, how far the halt has come (1 raised, 2 halted, 3 record written), a resume that waits. -/
structure Halt where
  halted : Bool
  nores : Bool
  fault : Option FaultRec
  stage : Nat
  resume : Option Nat
  deriving DecidableEq, Repr

/-- The debug register of a context (R355); `dumping` marks a live dump (R357). -/
structure Dbg where
  brken : Bool
  state : Nat
  tokbp : Bool
  tcore : Nat
  tspc : Bool
  thdr : Nat
  tord : Word
  dumpa : Word
  dumping : Bool
  deriving DecidableEq, Repr

/-- A hold of a receipt (R311): the regions of its items, each an address and a length, and whether it is the result hold. -/
structure Hold where
  regions : List (Nat × Nat)
  result : Bool
  deriving DecidableEq, Repr

/-- A RECEIPT in progress (R310 to R314). `step`: 1 is checked, 2 reads its items, 3 is enqueued, 4 runs, 5 reads its result; `lost`: the addresses
and details of the misses of its reads that have reached the fault limit. -/
structure Receipt where
  seq : Nat
  step : Nat
  block : Nat
  codea : Nat
  clen : Nat
  arga : Nat
  argl : Nat
  resa : Nat
  resl : Nat
  rdst : Nat
  bdst : Nat
  image : Nat
  npkt : Nat
  chans : List (List Chan)
  wkey : Option Nat
  mbefore : BitVec 256
  mafter : BitVec 256
  hcode : BitVec 256
  harg : BitVec 256
  hres : BitVec 256
  hpol : Option (Option (BitVec 256))
  altered : Bool
  stopped : Bool
  faulted : Bool
  polmix : Bool
  lost : List (Nat × Nat)
  pktd : Nat
  pktc : Nat
  tbs : Nat
  tbe : Nat
  deriving DecidableEq, Repr

/-- A receipt in the open batch (R315): its context and address space, its destinations and its 256-byte body. -/
structure Leaf where
  cx : Nat
  seq : Nat
  rdst : Nat
  bdst : Nat
  faulted : Bool
  body : Nat
  deriving DecidableEq, Repr

/-- How a hosted position stands on its row (R211, R215, R221). -/
inductive Scroll where
  | restoreWait
  | restoring
  | hosted
  | saveWait
  | saving
  | held
  deriving DecidableEq, Repr

/-- A band position of a pipeline (R211, R217): the row, the pipeline position, how it stands, whether its task runs, the sections it has
committed, whether end-of-pass was emitted; `parking`: the scroll parks the position, or brings a parked one back (R225, R226). -/
structure Hosted where
  slot : Nat
  row : Nat
  pos : Nat
  st : Scroll
  busy : Bool
  sec : Nat
  eop : Bool
  parking : Bool
  deriving DecidableEq, Repr

/-- A running pipeline (R207, R214). `next`: the next position to restore; `outw`: tokens copied to `OUTBUF`; `done`: positions saved for
good; `cut`: 0 none, 1 asked, 2 the isobar travels, 3 the cut holds; `park`: 0 running, 1 parking, 2 parked; `prefs`: positions whose
prefetch has not completed, with its number once appended; `rings`: the ring that serves the input of each position; `iso`: the position whose input an
isobar is still to enter; `written`: the record as it was last written (R358). -/
structure Pipe where
  q : Nat
  pkt : Nat
  stab : Nat
  nstg : Nat
  rwin : Nat
  nsec : Nat
  npass : Nat
  core : Nat
  lvl : Nat
  inbuf : Nat
  outbuf : Nat
  work : Nat
  stages : List Nat
  hosts : List Hosted
  parked : List Hosted
  next : Nat
  outw : Nat
  done : List Nat
  cut : Nat
  park : Nat
  prefs : List (Nat × Option Nat)
  rings : Tbl Nat
  iso : Option Nat
  written : Nat
  deriving DecidableEq, Repr

/-- What a context was created with (R298, R300). A log of 0 and a flag off mean the ring, root or area is not set. -/
structure Setup where
  priv : Bool
  vf : Nat
  nest : Bool
  padlo : Nat
  padn : Nat
  dielo : Nat
  dien : Nat
  rootOk : Bool
  root1 : Nat
  root2 : Nat
  cring : Nat
  clog : Nat
  dring : Nat
  dlog : Nat
  sring : Nat
  slog : Nat
  areaOk : Bool
  area : Nat
  deriving DecidableEq, Repr

/-- A context (R300). Table keys: `queues` by `QSEL`; `eqs` by 5 × core + code, `Q.IN` of die d by 160 + d (R326); `slots` by 16 × core +
slot; `images` the cores whose saved array image stands in the context area (R329); `mig`: 0 idle, 1 busy, 2 imported, 3 failed, 4 exported (R330);
`stubs` the locations of the words with a stub and their addresses, and `origin` the context this one was imported from (R331). -/
structure Ctx where
  setup : Setup
  doorbell : Word
  consumed : Word
  recs : Word
  cur : Option Cur
  pkts : List Pkt
  queues : Tbl QEnt
  free : List Nat
  acts : List Act
  bounds : List Bound
  groups : List Grp
  spans : List Span
  eqs : Tbl EQ
  slots : Tbl Slot
  images : List Nat
  chain : BitVec 256
  halt : Halt
  dbg : Dbg
  mig : Nat
  stubs : List (Nat × Nat)
  origin : Option Nat
  withheld : List Rec
  pipes : List Pipe
  holds : List Hold
  receipt : Option Receipt
  nextId : Nat
  deriving DecidableEq, Repr

/-! ## Partitions and Forecast -/

/-- A Forecast image and its policy hash (R269, R273). -/
structure Image where
  words : List (BitVec 16)
  hash : BitVec 256
  deriving DecidableEq, Repr

/-- A partition's share of a die's caches and bandwidth (R298). -/
structure Share where
  sbase : Nat
  scount : Nat
  tquota : Nat
  lquota : Nat
  bw : Nat
  deriving DecidableEq, Repr

/-- A partition (R70, R250, R284, R298, R304). `cored`: it has been given a core (R297). `slice`: the VF whose slice runs, its end, and whether the
slice is ending. -/
structure Part where
  plevel : Nat
  pcap : Nat
  prate : Nat
  carry : Nat
  image : Option Image
  staged : Option Image
  badImage : Bool
  badStaged : Bool
  swap : Option (Nat × Nat)
  drain : Nat
  fault : Nat
  dint : Nat
  slen : Nat
  slice : Option (Nat × Nat × Bool)
  gen1 : Nat
  gen2 : Nat
  shares : Tbl Share
  cored : Bool
  deriving DecidableEq, Repr

/-- The answers of a decision (R270, R293). -/
inductive Answer where
  | disp (q : Option Nat)
  | preempt (victim : Nat)
  | faultact (act : Nat)
  | defer
  deriving DecidableEq, Repr

/-- A candidate queue as the snapshot holds it (R272, R290): its number, whether it is a candidate, its twelve fields, its oldest
activation's exact stamp. -/
structure QSnap where
  q : Nat
  fields : List Nat
  stamp : Nat
  deriving DecidableEq, Repr

/-- The running decision (R270 to R273). `scr`: the scratch words as it began; `before`: it began before a swap that waits for its end (R275). -/
structure Decision where
  kind : Nat
  core : Nat
  row : Nat
  f : Vector (BitVec 32) 8
  cursor : Option Nat
  pc : Nat
  ops : Nat
  ans : Option Answer
  sto : Tbl (BitVec 32)
  snap : List QSnap
  pfields : List Nat
  efields : List Nat
  image : Image
  start : Nat
  scr : Vector (BitVec 32) 16
  before : Bool
  deriving DecidableEq, Repr

/-- A decision record (R273). -/
structure DecRec where
  seq : Nat
  kind : Nat
  answer : Answer
  byFallback : Bool
  hash : BitVec 256
  deriving DecidableEq, Repr

/-- Forecast on one die for one partition (R271, R273, R294, R297), keyed by die × 16 + partition. `deferred`: kind, core, row and the tick
at which the decision was deferred. `faults`: contexts whose kind-2 decision is pending, in order. -/
structure Fcast where
  scratch : Vector (BitVec 32) 16
  overruns : Nat
  dseq : Nat
  defers : Nat
  prev : Option Nat
  run : Option Decision
  record : Option DecRec
  deferred : List (Nat × Nat × Nat × Nat)
  faults : List Nat
  deriving DecidableEq, Repr

/-! ## The package -/

/-- A charging island (R339). Its present rail voltage is a reading, not a register (log 5). -/
structure Island where
  lvlmax : Nat
  lvlcap : Nat
  deriving DecidableEq, Repr

/-- A guest's bank state, set aside while the host holds the bank (R353). -/
structure BankSave where
  vf : Nat
  snap : Bool
  sel : Vector (BitVec 8) 8
  cnt : Vector Word 8
  icnt : Vector Word 8
  iseq : Word
  deriving DecidableEq, Repr

/-- A counter bank (R351). -/
structure Bank where
  own : Nat
  ovf : Nat
  snap : Bool
  sel : Vector (BitVec 8) 8
  cnt : Vector Word 8
  icnt : Vector Word 8
  iseq : Word
  aside : Option BankSave
  deriving DecidableEq, Repr

/-- A virtual function's quotas (R303) and its counter shadow (R354), keyed by its tag. -/
structure Vf where
  qslots : Nat
  dcnt : Nat
  shadow : BitVec 32
  deriving DecidableEq, Repr

/-- A virtual channel of a pod port (R347): the number expected next and failed attempts at it; the number of the next flit to send, and those sent
that may not have been acknowledged, each with its destination, none for a time flit. -/
structure Link where
  expect : BitVec 12
  tries : Nat
  next : BitVec 12
  out : List (BitVec 12 × Option Nat × PodPayload)
  deriving DecidableEq, Repr

/-- The open batch, and the receipts of closed batches whose packets have not completed (R315 to R317). -/
structure Batch where
  number : Nat
  tbo : Nat
  leaves : List Leaf
  closing : List Leaf
  deriving DecidableEq, Repr

/-- A write by the device on behalf of a context that waits on a page fault (R361): the address, the bytes, its kind, and for the stop record of a
stage the core, row and pc of the pipeline fault that follows it (R209). `queued`: it only waits behind an earlier record that stalls, and has met no
page fault itself. -/
structure DevWrite where
  miss : Miss
  va : Nat
  bytes : List Byte
  kind : Nat
  stage : Option (Nat × Nat × Nat)
  queued : Bool
  deriving DecidableEq, Repr

/-- How far start-up has come (R332, R333). -/
inductive Phase where
  | off
  | stopped (step : Nat)
  | complete
  deriving DecidableEq, Repr

/-- Who moves in a step (log 1). -/
inductive Turn where
  | idle
  | row (row : Nat)
  | engine (cx k : Nat)
  | ring (cx : Nat)
  | forecast (die part : Nat)
  | event (i : Instr)
  deriving DecidableEq, Repr

/-- One entry of the agenda: ticks that pass, then the agent that moves (log 1). -/
structure Slice where
  dt : Nat
  who : Turn
  deriving DecidableEq, Repr

/-- The machine. Table keys: `ctxs` 32 × partition + context; `rows` 12 × core + row; `ports` as `portOf` numbers them; `fcasts` 16 × die + partition;
`links` 16 × port + virtual channel; `llc` by LLC slice 2 × die + stack, the most recently used window first; `dieUse` 64 × die + unit of 1 MiB, the
partition that last held that unit of a die pad (R232). `podTx` holds what other packages are still to be sent, in order, each with its destination
and virtual channel, `podBar` the barrier arrivals that have come, by virtual channel, group and member, `collDone` the instances of a collective
group that have ended, by 2^16 × partition + group, `downAt` when a package ceased to be reached (R346 to R348), and `early` the forwarded writes,
each with its origin, address and bytes, that came before their context was imported (R331); `tb` is the timebase, a number that does not wrap inside
the machine and is cut to 64 bits where it is read (R4, R5, log 2); `seen` pairs a row with one whose unreleased commit a load of its task has seen
(R108, log 32); `irqs` counts interrupts by 512 × VF tag + context (R277); `lead` is how far the timebase is ahead of the pod's master (R341),
`window` the power windows that have ended and `powers` the mean power of the last nine in milliwatts, the latest first (R338), `fwBad` the firmware
images that do not verify (R332), `ucie` the modules that work (R344); `events` are what management has been told: 64 × 1 + feed for a lost feed, 64 ×
2 + feed for one that returned, 64 × 3 + die for a machine check, 64 × 4 + core for a core out of service (R342), 64 × 5 + partition for an error in
its Forecast image (R305), 64 × 6 + port and 64 × 7 + module for one that failed to train, 64 × 8 + image for the first firmware image that did not
verify (R332). -/
structure State where
  turn : Turn
  agenda : List Slice
  freeCtr : Nat
  phase : Phase
  startups : Nat
  fwBad : List Nat
  pufOk : Bool
  feeds : Nat
  powerCap : Nat
  window : Nat
  powers : List Nat
  tb : Nat
  lead : Nat
  tbHalf : Bool
  mem : List Host.Cell
  poison : List Nat
  ctxs : Tbl Ctx
  parts : Tbl Part
  cores : Tbl Core
  rows : Tbl Row
  ports : Tbl Port
  dies : Tbl Die
  fcasts : Tbl Fcast
  islands : Tbl Island
  banks : Tbl Bank
  vfs : Tbl Vf
  irqs : Tbl Nat
  seen : List (Nat × Nat)
  llc : Tbl (List Line)
  hdm : Tbl Nat
  dieUse : Tbl Nat
  colls : List Coll
  batch : Batch
  pendW : List DevWrite
  pendR : List Miss
  routes : Tbl (List Nat)
  portsUp : List Nat
  ucie : List Nat
  downAt : Tbl Nat
  links : Tbl Link
  podTx : List (Nat × Nat × PodPayload)
  podBar : List (Nat × Nat × Nat)
  collDone : Tbl Nat
  early : List (Nat × Nat × List Byte)
  mailbox : List Byte
  lastRead : List Byte
  events : List Nat
  certTb : Nat
  certRep : List Nat
  spdm : Nat
  deriving DecidableEq, Repr

/-! ## After start-up -/

/-- A port before its first access. -/
def Port.empty : Port := ⟨[], [], none, none⟩

/-- A row with no task (R350: `CLASS` 3). -/
def Row.idle : Row := ⟨none, false, none, false, none, 3, 0⟩

/-- A core when start-up completes: partition 0 holds it (R298). -/
def Core.start : Core := ⟨some 0, none, none, false, false, 0, 0, 0, false, [], []⟩

/-- A die when start-up completes (R230, R340). -/
def Die.start : Die := ⟨false, 0, 0, [], 0xFFF, 0, 0, 0, 0, []⟩

/-- The registers of R327, R330 and R355 at their reset values. -/
def Halt.none : Halt := ⟨false, false, Option.none, 0, Option.none⟩
def Dbg.zero : Dbg := ⟨false, 0, false, 0, false, 0, 0, 0, false⟩

/-- A context as it is created (R186, R299, R300): no queue, counts at zero, the chain value given. -/
def Ctx.create (su : Setup) (chain : BitVec 256) : Ctx :=
  ⟨su, 0, 0, 0, none, [], [], [], [], [], [], [], [], [], [], chain, Halt.none, Dbg.zero, 0, [], none, [], [], [], none, 0⟩

/-- Context 0 of partition 0 (R298). -/
def Setup.ctx0 : Setup := ⟨true, 0, false, 0, 128, 0, 64, false, 0, 0, 0, 0, 0, 0, 0, 0, false, 0⟩

/-- M₀ of context 0 of partition 0 (R309, log 9). -/
def chain00 : BitVec 256 := 0x025D10256C27B8200AF26AAA39CCB89C1798D23D07DB3AC68E8BC429592FA276

/-- The full share of R298: every slot, every granule, the whole bandwidth. -/
def Share.full : Share := ⟨0, 1024, 24576, 2 ^ 20, 255⟩

/-- A partition as it comes into existence: the defaults of R298. -/
def Part.fresh : Part := ⟨0, 2 ^ 32 - 1, 0, 0, none, none, false, false, none, 20000, 10 ^ 7, 100000, 0, none, 0, 0, [], false⟩

/-- Partition 0 when start-up completes (R298). -/
def Part.zero : Part := { Part.fresh with cored := true, shares := [(0, Share.full), (1, Share.full), (2, Share.full), (3, Share.full)] }

/-- Forecast of a die and partition at start-up (R297). -/
def Fcast.start : Fcast := ⟨Vector.replicate 16 0, 0, 0, 0, none, none, none, [], []⟩

def Island.start : Island := ⟨3, 3⟩
def Bank.start : Bank := ⟨0, 0, false, Vector.replicate 8 0, Vector.replicate 8 0, Vector.replicate 8 0, 0, none⟩
def Vf.start : Vf := ⟨0, 0, 0⟩
def Link.start : Link := ⟨0, 0, 0, []⟩

/-- The machine when start-up has completed (R7, R298, R332). A table lists only what differs from the start of its kind; memory lists
no byte, and an unlisted byte is zero (R332). -/
def State.reset : State where
  turn := .idle
  agenda := []
  freeCtr := 0
  phase := .complete
  startups := 1
  fwBad := []
  pufOk := true
  feeds := 3
  powerCap := 1750
  window := 0
  powers := []
  tb := 0
  lead := 0
  tbHalf := false
  mem := []
  poison := []
  ctxs := [(0, Ctx.create Setup.ctx0 chain00)]
  parts := [(0, Part.zero)]
  cores := []
  rows := []
  ports := []
  dies := []
  fcasts := []
  islands := []
  banks := []
  vfs := []
  irqs := []
  seen := []
  llc := []
  hdm := []
  dieUse := []
  colls := []
  batch := ⟨0, 0, [], []⟩
  pendW := []
  pendR := []
  routes := []
  portsUp := List.range 16
  ucie := List.range 8
  downAt := []
  links := []
  podTx := []
  podBar := []
  collDone := []
  early := []
  mailbox := []
  lastRead := []
  events := []
  certTb := 0
  certRep := List.replicate 32 0
  spdm := 0

end Sys2Proof.Machine
end

