-- ==== Sys2Proof/Machine/Ops.lean ====
section
/-! DEFINITION. The operations over tables, memory and registers that every meaning is written with: where a byte stands (R231, R233,
R257, R111), what a write touches (R53, R331), and the accessors of State. -/

namespace Sys2Proof.Machine

/-! ## Tables -/

/-- The entry of a key, or the start value of its kind. -/
def getT {α : Type} (t : Tbl α) (k : Nat) (d : α) : α :=
  match t with
  | [] => d
  | (a, x) :: r => if a = k then x else getT r k d

/-- Whether a key is listed, and its entry. -/
def findT {α : Type} (t : Tbl α) (k : Nat) : Option α :=
  match t with
  | [] => none
  | (a, x) :: r => if a = k then some x else findT r k

/-- The table with an entry set; a new key goes to the end. -/
def putT {α : Type} (t : Tbl α) (k : Nat) (x : α) : Tbl α :=
  match t with
  | [] => [(k, x)]
  | (a, y) :: r => if a = k then (k, x) :: r else (a, y) :: putT r k x

/-- The table without a key. -/
def delT {α : Type} (t : Tbl α) (k : Nat) : Tbl α := t.filter fun e => e.1 != k

/-! ## Memory -/

/-- The byte at a location; a byte that nothing has written is zero (R332). -/
def getB (m : List Host.Cell) (k : Nat) : Byte :=
  match m with
  | [] => 0
  | (a, b) :: t => if a = k then b else getB t k

/-- The memory with one byte written. Locations rise, and no entry is zero. -/
def putB (m : List Host.Cell) (k : Nat) (b : Byte) : List Host.Cell :=
  match m with
  | [] => if b = 0 then [] else [(k, b)]
  | (a, c) :: t =>
    if k < a then (if b = 0 then (a, c) :: t else (k, b) :: (a, c) :: t)
    else if k = a then (if b = 0 then t else (k, b) :: t)
    else (a, c) :: putB t k b

/-- The canonical form of memory: locations rise strictly, and no entry is zero. -/
def Memory.wf (m : List Host.Cell) : Bool :=
  match m with
  | [] => true
  | (a, b) :: t => b != 0 && t.all (fun c => decide (a < c.1)) && Memory.wf t

/-- `n` bytes from a location, lowest first. -/
def getBs (m : List Host.Cell) (k n : Nat) : List Byte := (List.range n).map fun i => getB m (k + i)

/-- The little-endian number of `n` bytes from a location (R3). -/
def getN (m : List Host.Cell) (k n : Nat) : Nat := natOfBytes (getBs m k n)

/-- Memory with bytes written at their locations, in order. -/
def putCells (m : List Host.Cell) (cs : List Host.Cell) : List Host.Cell := cs.foldl (fun a c => putB a c.1 c.2) m

/-- Bytes laid from a location upward. -/
def cellsAt (k : Nat) (bs : List Byte) : List Host.Cell :=
  match bs with
  | [] => []
  | b :: r => (k, b) :: cellsAt (k + 1) r

/-- Memory with the locations of a range cleared to zero (R232). -/
def clearRange (m : List Host.Cell) (k n : Nat) : List Host.Cell := m.filter fun c => !(decide (k ≤ c.1) && decide (c.1 < k + n))

/-- Locations: a `mem` location is a PA and a `PLC` (R257); the on-chip storage of R1 follows above. -/
def memKey (plc pa : Nat) : Nat := plc * 2 ^ 52 + pa
def padKey (core off : Nat) : Nat := 2 ^ 56 + core * 2 ^ 23 + off
def dieKey (die off : Nat) : Nat := 2 ^ 57 + die * 2 ^ 26 + off
def deckKey (core off : Nat) : Nat := 2 ^ 58 + core * 2 ^ 24 + off
def laneKey (row lane off : Nat) : Nat := 2 ^ 59 + (row * 16 + lane) * 4096 + off
def arrKey (core off : Nat) : Nat := 2 ^ 60 + core * 2 ^ 20 + off

/-- Whether a location is a byte of a memory stack. -/
def isMemKey (k : Nat) : Bool := decide (k < 2 ^ 56)

/-- The quad's first core, for a core (R1). -/
def quadBase (core : Nat) : Nat := core / 4 * 4

/-- The location of an offset in the space `sp` of a core: 2 `pad`, 3 `quad`, 4 `die` (R111, R231). -/
def spaceKey (sp core off : Nat) : Nat :=
  if sp = 2 then padKey core off
  else if sp = 3 then padKey (quadBase core + off / 2 ^ 23) (off % 2 ^ 23)
  else dieKey (core / 8) off

/-! ## State accessors -/

/-- The partition of a context number 32p + c. -/
def partOf (c : Nat) : Nat := c / 32

/-- The name of a context among all packages. -/
def originOf (cx : Nat) : Nat := 512 * Config.ownPackage + cx

def State.ctx (s : State) (c : Nat) : Option Ctx := findT s.ctxs c
def State.setCtx (s : State) (c : Nat) (x : Ctx) : State := { s with ctxs := putT s.ctxs c x }
def State.part (s : State) (p : Nat) : Part := getT s.parts p Part.fresh
def State.setPart (s : State) (p : Nat) (x : Part) : State := { s with parts := putT s.parts p x }
def State.core (s : State) (n : Nat) : Core := getT s.cores n Core.start
def State.setCore (s : State) (n : Nat) (x : Core) : State := { s with cores := putT s.cores n x }
def State.row (s : State) (r : Nat) : Row := getT s.rows r Row.idle
def State.setRow (s : State) (r : Nat) (x : Row) : State := { s with rows := putT s.rows r x }
def State.port (s : State) (n : Nat) : Port := getT s.ports n Port.empty
def State.setPort (s : State) (n : Nat) (x : Port) : State := { s with ports := putT s.ports n x }
def State.die (s : State) (d : Nat) : Die := getT s.dies d Die.start
def State.setDie (s : State) (d : Nat) (x : Die) : State := { s with dies := putT s.dies d x }
def State.fcast (s : State) (k : Nat) : Fcast := getT s.fcasts k Fcast.start
def State.setFcast (s : State) (k : Nat) (x : Fcast) : State := { s with fcasts := putT s.fcasts k x }
def State.island (s : State) (i : Nat) : Island := getT s.islands i Island.start
def State.bank (s : State) (b : Nat) : Bank := getT s.banks b Bank.start
def State.setBank (s : State) (b : Nat) (x : Bank) : State := { s with banks := putT s.banks b x }
def State.vf (s : State) (v : Nat) : Vf := getT s.vfs v Vf.start
def State.setVf (s : State) (v : Nat) (x : Vf) : State := { s with vfs := putT s.vfs v x }

/-- A context changed, if it exists. -/
def State.modCtx (s : State) (c : Nat) (f : Ctx → Ctx) : State :=
  match s.ctx c with
  | some x => s.setCtx c (f x)
  | none => s

def State.modPart (s : State) (p : Nat) (f : Part → Part) : State := s.setPart p (f (s.part p))
def State.modRow (s : State) (r : Nat) (f : Row → Row) : State := s.setRow r (f (s.row r))
def State.modCore (s : State) (n : Nat) (f : Core → Core) : State := s.setCore n (f (s.core n))
def State.modDie (s : State) (d : Nat) (f : Die → Die) : State := s.setDie d (f (s.die d))
def State.modFcast (s : State) (k : Nat) (f : Fcast → Fcast) : State := s.setFcast k (f (s.fcast k))
def State.modPort (s : State) (n : Nat) (f : Port → Port) : State := s.setPort n (f (s.port n))

/-- The task of the row whose turn it is. -/
def State.task (s : State) (r : Nat) : Option Task := (s.row r).task
def State.setTask (s : State) (r : Nat) (t : Option Task) : State := s.modRow r fun w => { w with task := t }

/-- A value the spec leaves open, drawn from the counter (log 3). -/
def State.freeWord (s : State) : Word × State := (Config.freeWord s.freeCtr, { s with freeCtr := s.freeCtr + 1 })
/-- A digest the spec leaves open, from four such values. -/
def State.freeDigest (s : State) : BitVec 256 :=
  Config.freeWord s.freeCtr ++ Config.freeWord (s.freeCtr + 1) ++ Config.freeWord (s.freeCtr + 2) ++ Config.freeWord (s.freeCtr + 3)
def State.freeNat (s : State) : Nat × State := (Config.freeNat s.freeCtr, { s with freeCtr := s.freeCtr + 1 })

/-- The cores of a partition in ascending order. -/
def State.coresOf (s : State) (p : Nat) : List Nat := (List.range 32).filter fun n => (s.core n).part == some p

/-- The lowest-numbered die that holds a core of a partition (R272); 0 where none does. -/
def State.firstDie (s : State) (p : Nat) : Nat := (((s.coresOf p).head?).map fun n => n / 8).getD 0

/-- Whether a partition exists: it is listed (R298). -/
def State.hasPart (s : State) (p : Nat) : Bool := (findT s.parts p).isSome

/-- The contexts of a partition. -/
def State.ctxsOf (s : State) (p : Nat) : List Nat := (s.ctxs.map Prod.fst).filter fun c => partOf c == p

/-! ## Small numbers -/

/-- a / b rounded up. -/
def cdiv (a b : Nat) : Nat := (a + b - 1) / b

/-- Saturation at 2^32 − 1. -/
def sat32 (n : Nat) : Nat := min n (2 ^ 32 - 1)

/-- A field of `n` bits at `lo` of a number. -/
def bits (w lo n : Nat) : Nat := w / 2 ^ lo % 2 ^ n

/-! ## Context faults -/

/-- The highest number s such that every packet up to s has completed (R326). -/
def pktSeq (x : Ctx) : Nat :=
  let open_ := x.pkts.map (fun p => p.seq) ++ (x.cur.map fun c => c.seq).toList
  open_.foldl (fun a n => min a (n - 1)) x.consumed.toNat

/-- A context fault (R324, R325): recorded, and a kind-2 decision raised (R272); a further one only counts in `NLATE`. -/
def State.fault (s : State) (cx cls detail core row addr pc : Nat) (succ : List Nat) : State :=
  match s.ctx cx with
  | none => s
  | some x =>
    match x.halt.fault with
    | some f =>
      s.setCtx cx { x with halt := { x.halt with fault := some { f with nlate := sat32 (f.nlate + 1) } } }
    | none =>
      let f : FaultRec := ⟨cls, detail, core, row, addr, pc, s.tb, pktSeq x, 0, 0, 0, succ⟩
      let die := if core < 32 then core / 8 else s.firstDie (partOf cx)
      let s := s.setCtx cx { x with halt := { x.halt with fault := some f, stage := 1 }
                                    dbg := { x.dbg with state := 0, dumping := false } }
      s.modFcast (die * 16 + partOf cx) fun d => { d with faults := d.faults ++ [cx] }

/-! ## Writes -/

/-- Whether two ranges of locations meet. -/
def meets (a n b m : Nat) : Bool := decide (a < b + m) && decide (b < a + n)

/-- Whether a granule of [k, k + n) is poisoned (R328), and which. -/
def State.poisoned (s : State) (k n : Nat) : Option Nat := s.poison.find? fun g => meets k n (g * 256) 256

/-- The wait condition of R53: `kind` 1 equal, 2 unsigned at least. -/
def waitHolds (kind : Nat) (cur val : Nat) : Bool := if kind = 1 then cur == val else decide (val ≤ cur)

/-- An activation after a write to [k, k + n): a comparison that holds, holds for good (R53). -/
def actTouched (m : List Host.Cell) (k n : Nat) (a : Act) (image : Nat) : Act :=
  match a.wkey with
  | some w =>
    if !a.wok && meets k n w 8 && waitHolds (image / 2 ^ 101 % 8) (getN m w 8) (image / 2 ^ 320 % 2 ^ 64) then { a with wok := true } else a
  | none => a

/-- The launch image of an activation: its queue entry as it stands, or the image its bound block was armed with (R55, R62). -/
def actImage (m : List Host.Cell) (x : Ctx) (a : Act) : Nat :=
  match x.bounds.find? (fun b => a.bound && b.id == a.id) with
  | some b => b.image
  | none => getN m a.key 64

/-- The words that a context's waits read after a write to [k, k + n), with their addresses (R53, R283). -/
def ctxReads (m : List Host.Cell) (k n : Nat) (x : Ctx) : List (Nat × Nat) :=
  (x.acts.filterMap fun a => if a.wok then none else a.wkey.map fun w => (w, bits (actImage m x a) 256 64))
    ++ ((x.cur.toList.filterMap fun c => if c.wok then none else c.wkey.map fun w => (w, bits c.body 64 64)))
  |>.filter fun e => meets k n e.1 8

/-- A context after a write to [k, k + n): its waits compared (R53, R283), but for those whose word is poisoned still (R328), and its stubs that the
write ends (R331). -/
def ctxTouched (bad : Nat → Bool) (m : List Host.Cell) (k n : Nat) (x : Ctx) : Ctx :=
  { x with
    acts := x.acts.map fun a => if a.wkey.any bad then a else actTouched m k n a (actImage m x a)
    cur := x.cur.map fun c =>
      match c.wkey with
      | some w =>
        if !c.wok && meets k n w 8 && !bad w && waitHolds (if c.wge then 2 else 1) (getN m w 8) c.wval.toNat then { c with wok := true } else c
      | none => c
    stubs := x.stubs.filter fun w => !meets k n w.1 8 }

/-- The first write after an export to a word with a stub goes to the destination package: the bytes of the word that it wrote (R331). -/
def stubFlits (m : List Host.Cell) (k n : Nat) (cx : Nat) (x : Ctx) : List (Nat × Nat × PodPayload) :=
  (x.stubs.filter fun w => meets k n w.1 8).map fun w =>
    let lo := max k w.1
    (Config.exportedTo cx, partOf cx, PodPayload.stubWrite (originOf cx) (w.2 + (lo - w.1)) (getBs m lo (min (k + n) (w.1 + 8) - lo)))

/-- The granule of the first poisoned word that a context's waits read after a write to [k, k + n). -/
def State.badWait (s : State) (k n : Nat) (x : Ctx) : Option Nat :=
  if x.halt.halted then none else ((ctxReads s.mem k n x).find? fun w => (s.poisoned w.1 8).isSome).map fun w => w.2 / 256 * 256

/-- The contexts whose waits read a poisoned word take the data error (R328). -/
def State.waitsBad (s : State) (k n : Nat) : State :=
  s.ctxs.foldl (fun u e => (s.badWait k n e.2).elim u fun a => u.fault e.1 12 0 63 15 a 0 []) s

/-- One write of the memory model (R258): the bytes land, a granule written whole is no longer poisoned, and waits on them are compared, a word that is
poisoned still giving the data error (R328). -/
def State.write (s : State) (k : Nat) (bs : List Byte) : State :=
  let m := putCells s.mem (cellsAt k bs)
  let n := bs.length
  let s := { s with mem := m, poison := s.poison.filter fun g => !(decide (k ≤ g * 256) && decide (g * 256 + 256 ≤ k + n)) }
  if isMemKey k then
    ({ s with
      ctxs := s.ctxs.map fun e => (e.1, ctxTouched (fun w => (s.poisoned w 8).isSome) m k n e.2)
      podTx := s.podTx ++ s.ctxs.flatMap fun e => stubFlits m k n e.1 e.2 } : State).waitsBad k n
  else s

/-- A number written in `n` little-endian bytes (R3). -/
def State.writeN (s : State) (k n v : Nat) : State := s.write k (bytesOfNat n v)

/-- A write whose bytes need not be adjacent, such as a staged store that crosses a page: one write for each run. -/
def runs (cs : List Host.Cell) : List (Nat × List Byte) :=
  cs.foldr (fun c acc =>
    match acc with
    | (k, bs) :: r => if c.1 + 1 = k then (c.1, c.2 :: bs) :: r else (c.1, [c.2]) :: acc
    | [] => [(c.1, [c.2])]) []

def State.writeCells (s : State) (cs : List Host.Cell) : State := (runs cs).foldl (fun s e => s.write e.1 e.2) s

/-! ## Addresses -/

/-- The sign extension of the low 57 bits of an address (R183): a canonical address is its own. -/
def canon57 (a : Nat) : Nat := if a % 2 ^ 57 < 2 ^ 56 then a % 2 ^ 57 else a % 2 ^ 57 + (2 ^ 64 - 2 ^ 57)

/-- Whether a number below 2^64 is a canonical address (R38). -/
def isCanon (a : Nat) : Bool := decide (a < 2 ^ 56) || (decide (2 ^ 64 - 2 ^ 56 ≤ a) && decide (a < 2 ^ 64))

end Sys2Proof.Machine
end

