-- ==== Sys2Proof/Machine/Xlate.lean ====
section
/-! DEFINITION. Translation of `mem`: page tables (R235 to R240), placement (R228, R233, R234), ports and their entries (R241 to R243), and
the outcome of one access. -/

namespace Sys2Proof.Machine

/-! ## Placement -/

/-- The home die of a granule (R228). -/
def homeDie (plc pa : Nat) : Nat :=
  if plc = 1 then (bits pa 12 2) ^^^ (bits pa 14 2) ^^^ (bits pa 16 2) ^^^ (bits pa 18 2)
  else if plc = 2 then (bits pa 16 2) ^^^ (bits pa 18 2) ^^^ (bits pa 20 2) ^^^ (bits pa 22 2)
  else bits pa 38 2

/-- The stack of the home die (R234). -/
def stackOf (plc pa : Nat) : Nat := if plc = 3 then bits pa 12 1 else bits pa 37 1

/-- The storage offset (R234): PA[36:0] with the bits the placement consumes replaced. -/
def storageOffset (plc pa : Nat) : Nat :=
  let o := pa % 2 ^ 37
  if plc = 1 then o - bits pa 12 2 * 2 ^ 12 + bits pa 38 2 * 2 ^ 12
  else if plc = 2 then o - bits pa 16 2 * 2 ^ 16 + bits pa 38 2 * 2 ^ 16
  else if plc = 3 then o - bits pa 12 1 * 2 ^ 12 + bits pa 37 1 * 2 ^ 12
  else o

/-- Storage exists below 96 GiB of each stack (R233). -/
def hasStorage (plc pa : Nat) : Bool := decide (storageOffset plc pa < 96 * 2 ^ 30)

/-! ## Page tables -/

/-- A leaf that a walk found, with the log of its size. -/
structure LeafInfo where
  pa : Nat
  k : Nat
  w : Nat
  level : Nat
  deriving DecidableEq, Repr

/-- A non-leaf entry is well formed (R236, R238); `real` where its table address is a PA. -/
def tableOk (real : Bool) (l w : Nat) : Bool :=
  decide (l ≠ 0 ∧ bits w 3 9 = 0 ∧ bits w 52 12 = 0 ∧ (bits w 2 1 = 1 → l = 1)) && (!real || bits w 40 12 == 0)

/-- A leaf entry is well formed (R121, R125, R228, R229, R237, R238). DESIGN CHOICE (R240): bits 51 to 40 of an address of stage one that stage two is to
translate are not checked (log 32). -/
def leafOk (real : Bool) (l w : Nat) : Bool :=
  decide (l ≠ 4 ∧ bits w 10 2 = 0 ∧ bits w 52 6 ≤ 2 ∧ bits w 58 3 ≤ 2 ∧ bits w 61 3 ≤ 4 ∧ bits w 8 2 ≠ 3
    ∧ bits w 12 40 % 2 ^ (9 * l) = 0 ∧ bits w 6 1 = 1) && (!real || bits w 40 12 == 0)

/-- Why a walk ends without a leaf: a page fault of a stage and level (R238), a table that stands where there is no storage (R233), or a poisoned
granule of a table, by its PA (R328). -/
inductive WalkErr where
  | fault (stage level : Nat)
  | noStorage
  | data (addr : Nat)
  deriving DecidableEq, Repr

/-- A walk of one stage from a table at level `l` (given as l + 1): the leaf, or why there is none (R235, R238). `rd` reads an entry of a table
of a level, and may itself fail in stage two. -/
def walkFrom (rd : Nat → Nat → Nat ⊕ WalkErr) (stage : Nat) (real : Bool) (va : Nat) : Nat → Nat → LeafInfo ⊕ WalkErr
  | 0, _ => .inr (.fault stage 0)
  | l + 1, table =>
    match rd l (table + 8 * (va / 2 ^ (12 + 9 * l) % 512)) with
    | .inr e => .inr e
    | .inl w =>
      if w % 2 = 0 then .inr (.fault stage l)
      else if bits w 1 1 = 0 then
        (if tableOk real l w then walkFrom rd stage real va l (bits w 12 40 * 4096) else .inr (.fault stage l))
      else if leafOk real l w then .inl ⟨bits w 12 40 * 4096, 12 + 9 * l, w, l⟩
      else .inr (.fault stage l)

/-- An entry read at its location (R233, R235, R328). -/
def State.readEntry (s : State) (plc pa : Nat) : Nat ⊕ WalkErr :=
  if !hasStorage plc pa then .inr .noStorage
  else if (s.poisoned (memKey plc pa) 8).isSome then .inr (.data (pa - pa % 256))
  else .inl (getN s.mem (memKey plc pa) 8)

/-- Stage two of a guest PA (R240). -/
def State.walkTwo (s : State) (root gpa : Nat) : LeafInfo ⊕ WalkErr := walkFrom (fun _ a => s.readEntry 0 a) 1 true gpa 5 root

/-- An entry of a stage-one table of a nested context (R235, R240): the root stands at its PA, every other table at a guest PA. -/
def State.readGuest (s : State) (root2 l a : Nat) : Nat ⊕ WalkErr :=
  if l = 4 then s.readEntry 0 a
  else match s.walkTwo root2 a with
    | .inr e => .inr e
    | .inl f => s.readEntry (bits f.w 61 3) (f.pa + a % 2 ^ f.k)

/-- How an access translates: the entry that serves it, a page fault with stage and level, a protection violation, or a data error of a table. -/
inductive Xl where
  | ok (e : PEnt)
  | pageFault (stage level : Nat)
  | prot
  | data (addr : Nat)
  deriving DecidableEq, Repr

/-- The affine entry of a walk that is not nested (R242). -/
def entOne (cx root va : Nat) (f : LeafInfo) : PEnt :=
  ⟨va - va % 2 ^ f.k, 2 ^ f.k, f.pa, f.pa, bits f.w 2 1 == 1, bits f.w 3 1 == 1, bits f.w 4 1 == 1, bits f.w 7 1 == 1, bits f.w 5 1 == 1,
    bits f.w 8 2, bits f.w 52 6, bits f.w 58 3, bits f.w 61 3, cx, root, f.k, f.k⟩

/-- The affine entry of a nested walk (R240): both stages' permissions, the format of stage one, the placement of stage two. It
maps what both leaves cover. -/
def entTwo (cx root va : Nat) (f g : LeafInfo) : PEnt :=
  let k := min f.k g.k
  let gpa := f.pa + va % 2 ^ f.k
  let e1 := entOne cx root va f
  let e2 := entOne cx root gpa g
  ⟨va - va % 2 ^ k, 2 ^ k, gpa - gpa % 2 ^ k, g.pa + (gpa % 2 ^ g.k - gpa % 2 ^ k), e1.r && e2.r, e1.w && e2.w, e1.x && e2.x, e1.d && e2.d, e1.g,
    e2.node, e1.fmt, e1.geo, e2.plc, cx, root, f.k, g.k⟩

/-- The permissions an access needs (R239): 0 fetch, 1 read, 2 write, 3 atomic, 4 none. -/
def permits (e : PEnt) (acc : Nat) : Bool :=
  if acc = 0 then e.x else if acc = 1 then e.r else if acc = 2 then e.w else if acc = 3 then e.r && e.w else true

/-- Whether an access writes, so that `D` must be 1 (R238). -/
def writes (acc : Nat) : Bool := acc == 2 || acc == 3

/-- An access through a valid entry (R233, R238, R239); a dirty bit of 0 is a page fault of the leaf's stage. -/
def useEnt (e : PEnt) (va acc stage level : Nat) : Xl :=
  if !permits e acc then .prot
  else if writes acc && !e.d then .pageFault stage level
  else if !hasStorage e.plc (e.pa + (va - e.va)) then .prot
  else .ok e

/-- The outcome of a walk that found no leaf (R233, R238, R328). -/
def WalkErr.xl : WalkErr → Xl
  | .fault st l => .pageFault st l
  | .noStorage => .prot
  | .data a => .data a

/-- The low 57 bits of a canonical address. -/
def va57 (va : Nat) : Nat := va % 2 ^ 57

/-- A whole walk for a context (R235, R240, R298). A stage-one leaf that lacks the permission is found before stage two is walked (R239). DESIGN CHOICE
(R245): no walk installs an entry of 64 KiB for a group of 16 leaves. DESIGN CHOICE (R240): of a write whose stage-one leaf has `D` 0 and whose stage
two misses, the page fault is stage two's (log 32). -/
def State.walk (s : State) (cx va acc : Nat) : Xl :=
  match s.ctx cx with
  | none => .pageFault 0 4
  | some x =>
    let su := x.setup
    let v := va57 va
    if !su.rootOk then .pageFault 0 4
    else if su.nest then
      match walkFrom (s.readGuest su.root2) 0 false v 5 su.root1 with
      | .inr e => e.xl
      | .inl f =>
        if !permits (entOne cx su.root1 v f) acc then .prot
        else match s.walkTwo su.root2 (f.pa + v % 2 ^ f.k) with
        | .inr e => e.xl
        | .inl g => useEnt (entTwo cx su.root1 v f g) v acc (if bits f.w 7 1 = 0 then 0 else 1) (if bits f.w 7 1 = 0 then f.level else g.level)
    else
      match walkFrom (fun _ a => s.readEntry 0 a) 0 true v 5 su.root1 with
      | .inr e => e.xl
      | .inl f => useEnt (entOne cx su.root1 v f) v acc 0 f.level

/-! ## Ports -/

/-- Port numbers (R241): `ROW` by 12 × core + row, then `CP0` and `CP1`, `IN`, `GEN`, `GA` of each base die, and `CTX`. -/
def cpPort (core i : Nat) : Nat := 384 + core * 2 + i
def inPort (die : Nat) : Nat := 448 + die
def genPort (die tile : Nat) : Nat := 452 + die * 16 + tile
def gaPort (die quad : Nat) : Nat := 516 + die * 2 + quad
def ctxPort (die : Nat) : Nat := 524 + die

/-- The die a port belongs to. -/
def portDie (n : Nat) : Nat :=
  if n < 384 then n / 96 else if n < 448 then (n - 384) / 16 else if n < 452 then n - 448 else if n < 516 then (n - 452) / 16
  else if n < 524 then (n - 516) / 2 else n - 524

/-- The code a row status register gives a port (R350). -/
def portCode (n : Nat) : Nat :=
  if n < 384 then n % 12 else if n < 448 then 12 + n % 2 else if n < 452 then 14 else if n < 516 then 15 + (n - 452) % 16
  else if n < 524 then 31 else 37

/-- An entry serves an address of a context (R237 `G`, R242). -/
def serves (e : PEnt) (cx root va : Nat) : Bool :=
  (e.cx == cx || (e.g && partOf e.cx == partOf cx && e.root == root)) && decide (e.va ≤ va) && decide (va < e.va + e.len)

/-- The smallest entry that serves an address (R244). -/
def pick (es : List PEnt) (cx root va : Nat) : Option PEnt :=
  es.foldl (fun best e =>
    if serves e cx root va then (match best with | some b => if e.len < b.len then some e else best | none => some e) else best) none

/-- Whether two entries map an address they both cover to one location. -/
def agrees (e f : PEnt) : Bool := e.plc == f.plc && e.pa + f.va == f.pa + e.va

/-- The entry of one lookup of an access that reaches the addresses `as` (R244): the smallest, but where a larger one that maps other bytes serves
an address of the access which the smallest does not, the access uses the larger as a whole. -/
def pickOf (es : List PEnt) (cx root : Nat) (as : List Nat) (va : Nat) : Option PEnt :=
  match pick es cx root va with
  | none => none
  | some e =>
    match pick (es.filter fun f => !agrees e f && as.any fun a => serves f cx root a && !serves e cx root a) cx root va with
    | some f => some f
    | none => some e

/-- An entry becomes the most recently used; the seventeenth falls out (R242). -/
def install (es : List PEnt) (e : PEnt) : List PEnt := (e :: es.filter fun f => f != e).take 16

/-- The stage-one root of a context. -/
def State.rootOf (s : State) (cx : Nat) : Nat := ((s.ctx cx).map fun x => x.setup.root1).getD 0

/-- The location an entry gives an address (R242, R257). -/
def entKey (e : PEnt) (va : Nat) : Nat := memKey e.plc (e.pa + (va57 va - e.va))

/-- What an entry that was found says of an access; none where it has `D` 0, so that the page is walked again. -/
def entSays (e : Option PEnt) (va acc : Nat) : Option Xl :=
  match e with
  | none => none
  | some e =>
    match useEnt e (va57 va) acc 0 0 with
    | .pageFault _ _ => none
    | r => some r

/-- What the entries a port holds say of an access; none where no entry covers it (R243), or where one covers it with `D` 0. -/
def State.lookup (s : State) (port cx va acc : Nat) : Option Xl :=
  entSays (pick ((s.port port).got ++ (s.port port).entries) cx (s.rootOf cx) (va57 va)) va acc

/-- The same for one of the addresses `as` that an access reaches (R244). -/
def State.lookupOf (s : State) (port cx : Nat) (as : List Nat) (va acc : Nat) : Option Xl :=
  entSays (pickOf ((s.port port).got ++ (s.port port).entries) cx (s.rootOf cx) (as.map va57) (va57 va)) va acc

/-- A port after an access its entries served. -/
def State.usePort (s : State) (port : Nat) (e : PEnt) : State := s.modPort port fun p => { p with entries := install p.entries e }

/-- One address of those that an access of an engine or of the device reaches: its walk is taken at once (R243, log 1). -/
def State.xlateOf (s : State) (port cx : Nat) (as : List Nat) (va acc : Nat) : Xl × State :=
  match s.lookupOf port cx as va acc with
  | some (.ok e) => (.ok e, s.usePort port e)
  | some r => (r, s)
  | none =>
    match s.walk cx va acc with
    | .ok e => (.ok e, s.usePort port e)
    | r => (r, s)

/-- An access that reaches one address. -/
def State.xlate (s : State) (port cx va acc : Nat) : Xl × State := s.xlateOf port cx [va] va acc

/-- The cores of a die. -/
def dieCores (d : Nat) : List Nat := (List.range 8).map fun i => d * 8 + i

/-- The `CTX` port through which a firmware core reaches a context's memory: that of the first die of its partition (log 32). -/
def State.devPort (s : State) (cx : Nat) : Nat := ctxPort (s.firstDie (partOf cx))

/-- The runs of a range of addresses that no 4 KiB page boundary crosses. -/
def pieces : Nat → Nat → Nat → List (Nat × Nat)
  | 0, _, _ => []
  | f + 1, a, n =>
    if n = 0 then []
    else let k := min n (4096 - a % 4096); (a, k) :: pieces f ((a + k) % 2 ^ 64) (n - k)

/-- The pages of a range. -/
def pagesOf (a n : Nat) : List (Nat × Nat) := pieces (n / 4096 + 2) a n

/-- The result of reaching a range of `mem`: its locations, or where it failed. -/
inductive Reach where
  | ok (ks : List (Nat × Nat)) (s : State)
  | pageFault (va stage level : Nat) (s : State)
  | prot (va : Nat) (s : State)
  | data (addr : Nat) (s : State)
  deriving DecidableEq, Repr

/-- Translates the pages of a range that begin at the addresses `as`, in ascending order, at a port. -/
def State.reachPieces (s : State) (port cx acc : Nat) (as : List Nat) : List (Nat × Nat) → Reach
  | [] => .ok [] s
  | (a, n) :: r =>
    match s.xlateOf port cx as a acc with
    | (.ok e, s) =>
      match s.reachPieces port cx acc as r with
      | .ok ks s => .ok ((entKey e a, n) :: ks) s
      | f => f
    | (.pageFault st l, s) => .pageFault a st l s
    | (.prot, s) => .prot a s
    | (.data g, s) => .data g s

/-- The pages of a range are all translated before any of them is used, so that two translations of different sizes which its lookups find are told
apart (R244). -/
def State.reach (s : State) (port cx a n acc : Nat) : Reach :=
  let as := (pagesOf a n).map Prod.fst
  match s.reachPieces port cx acc as (pagesOf a n) with
  | .ok _ s => s.reachPieces port cx acc as (pagesOf a n)
  | f => f

/-- The bytes at a list of location ranges. -/
def State.gets (s : State) (ks : List (Nat × Nat)) : List Byte := ks.flatMap fun e => getBs s.mem e.1 e.2

/-- Bytes written over a list of location ranges. -/
def State.puts (s : State) : List (Nat × Nat) → List Byte → State
  | [], _ => s
  | (k, n) :: r, bs => (s.write k (bs.take n)).puts r (bs.drop n)

end Sys2Proof.Machine
end

