-- ==== Sys2Proof/Machine/Fault.lean ====
section
/-! DEFINITION. Context faults (R324 to R326), the device's own writes (R361), completion records (R280, R304), counters of events (R352),
the pool (R71), and what freeing a row does. -/

namespace Sys2Proof.Machine

/-! ## The pool and counters -/

/-- Deferred decisions are raised again when an activation becomes ready or funded, or a row of the die becomes free (R294). -/
def State.undefer (s : State) (p : Nat) (d : Option Nat) : State :=
  { s with fcasts := s.fcasts.map fun e =>
      if e.1 % 16 = p ∧ (d = none ∨ d = some (e.1 / 16)) then (e.1, { e.2 with deferred := [] }) else e }

/-- A debit of the pool; none where it cannot be met (R71). -/
def State.debit (s : State) (p n : Nat) : Option State :=
  if (s.part p).plevel < n then none else some (s.modPart p fun x => { x with plevel := x.plevel - n })

/-- Packets drawn or credited by the work of a receipt (R314). -/
def State.tally (s : State) (cx : Nat) (tag : Bool) (drawn credited : Nat) : State :=
  if tag then s.modCtx cx fun x => { x with receipt := x.receipt.map fun r => { r with pktd := r.pktd + drawn, pktc := r.pktc + credited } } else s

/-- The commands of a partition that wait for the pool (R71): context, queue, number, packets, whether a receipt's. -/
def State.dues (s : State) (p : Nat) : List (Nat × Nat × Nat × Nat × Bool) :=
  s.ctxs.flatMap fun e =>
    if partOf e.1 = p ∧ e.2.halt.fault.isNone = true then
      e.2.eqs.flatMap fun q => q.2.cmds.filterMap fun c => c.due.map fun n => (e.1, q.1, c.seq, n, c.receipt)
    else []

/-- A waiting command that has been paid for: its engine begins it at its next turn. -/
def Ctx.paid (x : Ctx) (k seq : Nat) : Ctx :=
  { x with eqs := x.eqs.map fun e => if e.1 = k then
      (k, { e.2 with cmds := e.2.cmds.map fun c => if c.seq = seq then { c with st := .paid, due := none } else c }) else e }

/-- The commands that wait on the pool are paid as far as it covers them, by context, queue and number (R70, log 31). -/
def State.payDue (s : State) (p : Nat) : State :=
  (s.dues p).foldl (fun s d => match s.debit p d.2.2.2.1 with
    | some s => (s.tally d.1 d.2.2.2.2 d.2.2.2.1 0).modCtx d.1 fun x => x.paid d.2.1 d.2.2.1
    | none => s) s

/-- After a change of a partition's pool that stood at `old`: deferred decisions are raised again where a ready activation has become funded (R51,
R294). -/
def State.poolRose (s : State) (p old : Nat) : State :=
  if s.ctxs.any fun e => partOf e.1 == p && e.2.acts.any fun a => a.ready.isSome && decide (old < a.npkt) && decide (a.npkt ≤ (s.part p).plevel)
  then s.undefer p none else s

/-- A credit or refill of the pool (R70, R71): above the cap it is discarded, and what waits on the pool is paid. -/
def State.credit (s : State) (p n : Nat) : State :=
  let old := (s.part p).plevel
  let s := s.modPart p fun x => { x with plevel := min (x.plevel + n) x.pcap }
  if n = 0 then s else (s.payDue p).poolRose p old

/-- A die event counted by its bank (R352): a bank held by a guest counts only its own tag. -/
def State.countDie (s : State) (d ev n vf : Nat) : State :=
  let b := s.bank (32 + d)
  if b.own = 0 ∨ (b.own = 2 ∧ b.ovf ≠ vf) then s
  else s.setBank (32 + d) { b with cnt := Vector.ofFn fun k =>
    if (b.sel[k]).toNat = 128 + ev then b.cnt[k] + BitVec.ofNat 64 n else b.cnt[k] }

/-- Whether a core bank's selector counts a beat of class `cls` by unit `u` (R352). -/
def selHits (sel : BitVec 8) (u cls : Nat) : Bool :=
  decide (128 ≤ sel.toNat) && sel.toNat % 8 == cls && (sel.toNat / 8 % 16 == u || (sel.toNat / 8 % 16 == 15 && decide (u < 12)))

/-- Beats of a class by a unit of a core (R349, R352). -/
def State.beats (s : State) (core u cls n vf : Nat) : State :=
  let b := s.bank core
  if b.own = 0 ∨ (b.own = 2 ∧ b.ovf ≠ vf) then s
  else s.setBank core { b with cnt := Vector.ofFn fun k => if selHits b.sel[k] u cls then b.cnt[k] + BitVec.ofNat 64 n else b.cnt[k] }

/-- The capture at a scroll end (R351). -/
def State.capture (s : State) (core : Nat) : State :=
  let b := s.bank core
  if b.snap then s.setBank core { b with icnt := b.cnt, iseq := b.iseq + 1, cnt := Vector.replicate 8 0 } else s

/-- The VF tag of a context. -/
def State.vfOf (s : State) (cx : Nat) : Nat := ((s.ctx cx).map fun x => x.setup.vf).getD 0

/-! ## Context faults -/

/-- Whether a context fault of a context stands, or a PART.CTX has halted it as one does (R79, R300). -/
def State.faulting (s : State) (cx : Nat) : Bool := (s.ctx cx).any fun x => x.halt.fault.isSome || x.halt.halted

/-- A protection fault of an engine or of the device (R231, R239): `DETAIL` 1 for a read, 2 for a write, 3 for both. -/
def State.protFault (s : State) (cx acc core row addr : Nat) : State := s.fault cx 3 acc core row addr 0 []

/-! ## Records -/

/-- Whether a context's VF is descheduled (R304). -/
def State.descheduled (s : State) (cx : Nat) : Bool :=
  let p := s.part (partOf cx)
  if p.slen = 0 then false
  else match p.slice with
    | some (vf, _, ending) => s.vfOf cx != vf || ending
    | none => true

/-- The result of one attempt at a device write. -/
inductive Dev where
  | ok (s : State)
  | data (va : Nat) (s : State)
  | pageFault (va stage level : Nat) (s : State)
  | prot (va : Nat) (s : State)
  deriving DecidableEq, Repr

/-- A write of bytes through the `CTX` port of a die (R361). -/
def State.devPut (s : State) (die cx va acc : Nat) (bs : List Byte) : Dev :=
  match s.reach (ctxPort die) cx va bs.length acc with
  | .ok ks s => .ok (s.puts ks bs)
  | .pageFault a st l s => .pageFault a st l s
  | .prot a s => .prot a s
  | .data a s => .data a s

/-- The address of the first poisoned granule of ranges that start at an address (R328). -/
def State.poisonIn (s : State) : Nat → List (Nat × Nat) → Option Nat
  | _, [] => none
  | a, (k, n) :: r =>
    match s.poisoned k n with
    | some g => some (a + g * 256 - k)
    | none => s.poisonIn (a + n) r

/-- A stop record (R81): written at its place and counted, or counted lost where the ring is full. -/
def State.devStop (s : State) (die cx va : Nat) (bs : List Byte) : Dev :=
  let log := ((s.ctx cx).map fun x => x.setup.slog).getD 0
  match s.reach (ctxPort die) cx va 24 3 with
  | .pageFault a st l s => .pageFault a st l s
  | .prot a s => .prot a s
  | .data a s => .data a s
  | .ok ks s => match s.poisonIn va ks with
    | some g => .data (g - g % 256) s
    | none =>
    let h := natOfBytes (s.gets ks)
    let w := bits h 0 64
    let r := bits h 64 64
    if (w + 2 ^ 64 - r) % 2 ^ 64 = 2 ^ log then .ok (s.puts ks (bytesOfNat 24 (h % 2 ^ 128 + sat32 (bits h 128 32 + 1) * 2 ^ 128 + bits h 160 32 * 2 ^ 160)))
    else
      match s.reach (ctxPort die) cx (va + 64 + 32 * (w % 2 ^ log)) 32 3 with
      | .pageFault a st l s => .pageFault a st l s
      | .prot a s => .prot a s
      | .data a s => .data a s
      | .ok rs s => .ok ((s.puts rs bs).puts ks (bytesOfNat 24 ((w + 1) % 2 ^ 64 + h / 2 ^ 64 * 2 ^ 64)))

/-- The interrupt of a context is signalled through its function (R277); the table is keyed by 512 × VF tag + context. -/
def State.interrupt (s : State) (cx : Nat) : State :=
  let k := 512 * s.vfOf cx + cx
  { s with irqs := putT s.irqs k (getT s.irqs k 0 + 1) }

/-- One device write by kind: 1 stop record, 2 completion record (its `TBLO` is the tick of the write), 3 fault record, 4 batch write,
5 array image, 6 export or dump, 7 the header of a new stop ring, 8 a completion record whose interrupt follows the write (R277), 9 the
header of a segment (R62). -/
def State.devTry (s : State) (die cx kind va : Nat) (bs : List Byte) : Dev :=
  if kind = 1 then s.devStop die cx va bs
  else if kind = 2 then s.devPut die cx va 2 (bs.take 12 ++ bytesOfNat 4 s.tb)
  else if kind = 7 then s.devPut die cx va 3 bs
  else if kind = 8 then
    match s.devPut die cx va 2 (bs.take 12 ++ bytesOfNat 4 s.tb) with
    | .ok s => .ok (s.interrupt cx)
    | r => r
  else s.devPut die cx va 2 bs

/-- Records of one kind are written one at a time, in order; both kinds of completion record are one. -/
def recClass (kind : Nat) : Nat := if kind = 8 then 2 else kind

/-- The access a device write makes: its rings are read as well as written (R81). -/
def devAccess (kind : Nat) : Nat := if kind = 1 ∨ kind = 7 then 3 else 2

/-- What a record's protection violation means (R81, R280, R317, R326, R329): a context fault, but for the fault record. -/
def State.devLost (s : State) (cx kind addr : Nat) (cls detail : Nat) : State :=
  if kind = 3 then s.modCtx cx fun x => { x with halt := { x.halt with fault := x.halt.fault.map fun f => { f with cls := 0 } } }
  else s.fault cx cls detail 63 15 addr 0 []

/-- Whether a write of the device waits behind one that stalls: an earlier record of its kind and context; of the writes of a batch none (R317), and of
array images only one of the same place (R329, R361). -/
def DevWrite.before (w : DevWrite) (cx kind va : Nat) : Bool :=
  kind != 4 && w.miss.cx == cx && recClass w.kind == recClass kind && (kind != 5 || w.va == va)

/-- A device write made now by a die, or stalled behind a page fault or behind an earlier record of the same kind (R361). -/
def State.devWriteAt (s : State) (die cx kind va : Nat) (bs : List Byte) : State :=
  match s.pendW.find? fun w => w.before cx kind va with
  | some _ => { s with pendW := s.pendW ++ [⟨⟨cx, va, devAccess kind, 0, 0, s.tb, false, .record cx kind die⟩, va, bs, kind, none, true⟩] }
  | none =>
    match s.devTry die cx kind va bs with
    | .ok s => s
    | .prot a s => s.devLost cx kind a 3 (devAccess kind)
    | .data a s => s.devLost cx kind a 12 0
    | .pageFault a st l s => { s with pendW := s.pendW ++ [⟨⟨cx, a, devAccess kind, st, l, s.tb, false, .record cx kind die⟩, va, bs, kind, none, false⟩] }

/-- A device write made by a firmware core: through the `CTX` port of the context's first die (log 32). -/
def State.devWrite (s : State) (cx kind va : Nat) (bs : List Byte) : State := s.devWriteAt (s.firstDie (partOf cx)) cx kind va bs

/-- A completion record written, and its interrupt after it (R277, R280). -/
def State.record (s : State) (cx : Nat) (r : Rec) : State :=
  match s.ctx cx with
  | none => s
  | some x =>
    if s.descheduled cx then s.setCtx cx { x with withheld := x.withheld ++ [r] }
    else
      let va := (x.setup.dring + 16 * (x.recs.toNat % 2 ^ x.setup.dlog)) % 2 ^ 64
      let bs := bytesOfNat 16 (r.seq % 2 ^ 64 + r.status * 2 ^ 64 + r.code * 2 ^ 72 + r.stage * 2 ^ 80)
      (s.setCtx cx { x with recs := x.recs + 1 }).devWrite cx (if r.irq then 8 else 2) va bs

/-- A packet completes (R280): it leaves the open packets, and its record is written where `CREC` asks for one. -/
def State.complete (s : State) (cx seq status code stage : Nat) : State :=
  match s.ctx cx with
  | none => s
  | some x =>
    match x.pkts.find? fun p => p.seq == seq with
    | none => s
    | some p =>
      let s := s.setCtx cx { x with pkts := x.pkts.filter fun q => q.seq != seq }
      if p.crec then s.record cx ⟨seq, status, code, stage, p.irq⟩ else s

/-- Whether commands that a packet's work appended are still under way (R279: a release waits for them). -/
def cmdsOf (x : Ctx) (seq : Nat) : Bool := x.eqs.any fun e => e.2.cmds.any fun c => c.pkt == some seq

/-- Completes a launch whose last activation has ended, or a PIPE whose last position is saved, once its release allows (R213, R279, R281), and a
CMD; a RECEIPT is completed by its batch. -/
def State.settle (s : State) (cx seq : Nat) : State :=
  match s.ctx cx with
  | none => s
  | some x =>
    match x.pkts.find? fun p => p.seq == seq with
    | none => s
    | some p =>
      if (p.kind = 1 ∨ p.kind = 2 ∨ p.kind = 3) ∧ p.live = 0 ∧ ((p.rel = 0 ∧ p.kind ≠ 3) ∨ cmdsOf x seq = false) then s.complete cx seq 0 0 0 else s

/-- An activation of a launch has ended (R281). -/
def State.ended (s : State) (cx : Nat) (pkt : Option Nat) : State :=
  match pkt with
  | none => s
  | some q =>
    (s.modCtx cx fun x => { x with pkts := x.pkts.map fun p => if p.seq = q then { p with live := p.live - 1 } else p }).settle cx q

/-! ## Channels' `BIND` bits -/

/-- Sets or clears a `BIND` bit of a channel header (R48, R49): bit 0 its reader, bit 1 its writer. -/
def State.setBind (s : State) (hkey : Nat) (writer on : Bool) : State :=
  let b := (getB s.mem (hkey + 17)).toNat
  let m := if writer then 2 else 1
  let v := if on then (if b / m % 2 = 1 then b else b + m) else (if b / m % 2 = 1 then b - m else b)
  s.write (hkey + 17) [BitVec.ofNat 8 v]

def State.isBound (s : State) (hkey : Nat) (writer : Bool) : Bool := (getB s.mem (hkey + 17)).toNat / (if writer then 2 else 1) % 2 == 1

/-! ## Rows -/

/-- A row becomes free (R78 step 8, R294). -/
def State.freeRow (s : State) (r : Nat) : State :=
  let p := ((s.core (r / 12)).part).getD 0
  let s := { s with seen := s.seen.filter fun e => e.1 != r && e.2 != r }
  ((s.setTask r none).modRow r fun w => { w with gated := false }).undefer p (some (r / 96))

/-- Rows of a core, and every row of the package. -/
def rowsOf (core : Nat) : List Nat := (List.range 12).map fun i => core * 12 + i

/-- The rows that hold a task, in ascending order. -/
def State.busyRows (s : State) : List Nat := (List.range 384).filter fun r => (s.task r).isSome

end Sys2Proof.Machine
end

