-- ==== Sys2Proof/Machine/Pod.lean ====
section
/-! DEFINITION. The pod links as the rest of the machine uses them: routes, what is sent and over which port, and which packages cannot be
reached (R341, R346 to R348). -/

namespace Sys2Proof.Machine

/-- The port that traffic to a package takes: the first of its two routes that works (R346, R347). -/
def State.route (s : State) (dest : Nat) : Option Nat := (getT s.routes dest []).find? fun p => s.portsUp.contains p

/-- Something is to be sent to a package in the virtual channel of a partition. -/
def State.podSend (s : State) (dest vc : Nat) (p : PodPayload) : State := { s with podTx := s.podTx ++ [(dest, vc, p)] }

def State.podSendAll (s : State) (dests : List Nat) (vc : Nat) (p : PodPayload) : State := dests.foldl (fun s d => s.podSend d vc p) s

/-- A flit takes the next number of its virtual channel (R347). -/
def State.transmit (s : State) (port vc : Nat) (dest : Option Nat) (p : PodPayload) : State :=
  let k := 16 * port + vc
  let l := getT s.links k Link.start
  { s with links := putT s.links k { l with next := l.next + 1, out := l.out ++ [(l.next, dest, p)] } }

/-- Whether a virtual channel of a port has a credit left: each flit that has not been acknowledged holds one (R347, log 6). -/
def State.credits (s : State) (port vc : Nat) : Bool := decide ((getT s.links (16 * port + vc) Link.start).out.length < Config.linkCredits + 1)

/-- What has a route and a credit is sent, in order; the rest waits (R347, R348). -/
def State.podGo (s : State) : State :=
  s.podTx.foldl (fun s e => match (s.route e.1).filter fun p => s.credits p e.2.1 with
    | some port => s.transmit port e.2.1 (some e.1) e.2.2
    | none => { s with podTx := s.podTx ++ [e] }) { s with podTx := [] }

/-- As ticks pass, the other end of each link acknowledges flits, in order, as many as a free value says, and their credits return (R347, log 6). -/
def State.acked (s : State) : State :=
  { s with
    freeCtr := s.freeCtr + 256
    links := s.links.map fun (e : Nat × Link) => (e.1, { e.2 with out := e.2.out.drop (Config.acknowledged (s.freeCtr + e.1) % (e.2.out.length + 1)) }) }

/-- Routes and working ports change: a package that can no longer be reached is noted, and what waited for a route is sent. -/
def State.relink (s : State) (routes : Tbl (List Nat)) (up : List Nat) : State :=
  let t := { s with routes := routes, portsUp := up }
  let lost := (List.range 64).filter fun d => (s.route d).isSome && (t.route d).isNone
  ({ t with downAt := lost.foldl (fun m d => putT m d s.tb) s.downAt } : State).podGo

/-- A port goes down: the flits that were not acknowledged go first, in order, over the other routes of their destinations (R347). -/
def State.loseLink (s : State) (port : Nat) : State :=
  let again := (List.range 16).flatMap fun vc =>
    let out := (getT s.links (16 * port + vc) Link.start).out
    (out.drop (Config.acknowledged (s.freeCtr + vc) % (out.length + 1))).filterMap fun f => f.2.1.map fun d => (d, vc, f.2.2)
  let s := { s with freeCtr := s.freeCtr + 16, podTx := again ++ s.podTx }
  let s := { s with links := s.links.map fun (e : Nat × Link) => if e.1 / 16 = port then (e.1, { e.2 with tries := 0, out := [] }) else e }
  s.relink s.routes (s.portsUp.filter fun p => p != port)

/-- The time master of a pod sends its timebase on every port (R341). -/
def State.sendTime (s : State) : State :=
  if Config.podMaster then s.portsUp.foldl (fun s p => if s.credits p 0 then s.transmit p 0 none (.time (BitVec.ofNat 64 s.tb)) else s) s else s

/-! ## Barriers at `.POD` (R346, R348) -/

/-- The packages of the pod, which its route table lists. -/
def State.podPackages (s : State) : List Nat := (s.routes.map Prod.fst).filter fun d => d != Config.ownPackage

/-- Since when some of a list of packages cannot be reached; none where all can. -/
def State.unreached (s : State) (dests : List Nat) : Option Nat :=
  (dests.filter fun d => (s.route d).isNone).foldl (fun a d => some (match a with
    | some t => min t (getT s.downAt d 0)
    | none => getT s.downAt d 0)) none

/-! ## Collectives at `.POD` (R199, R348) -/

/-- The packages other than this one that hold members of an instance. -/
def podMembers (part group nmem : Nat) : List Nat :=
  ((List.range nmem).map fun m => Config.packageOf part group m).dedup.filter fun d => d != Config.ownPackage

def Coll.dests (g : Coll) : List Nat := if g.scope = 5 then podMembers g.part g.group g.nmem else []

end Sys2Proof.Machine
end

