-- ==== Sys2Proof/Machine/Operands.lean ====
section
/-! DEFINITION. Register operands of a task (R36), extensions, and the fields of immediates and displacements (R20, R26, R38). -/

namespace Sys2Proof.Machine

/-! ## Scalar registers -/

/-- S(n): register 0 reads zero (R36). -/
def Task.S (t : Task) (n : BitVec 5) : Word := if n = 0 then 0 else t.s[n.toNat]'(n.isLt)

/-- SetS(n, x): a write to register 0 is discarded (R36). -/
def Task.setS (t : Task) (n : BitVec 5) (x : Word) : Task := if n = 0 then t else { t with s := t.s.set n.toNat x n.isLt }

/-! ## Vector and mask registers -/

/-- V(n): the sixteen lanes of a vector register. -/
def Task.V (t : Task) (n : BitVec 5) : Vector Lane 16 := t.v[n.toNat]'(n.isLt)

def Task.setV (t : Task) (n : BitVec 5) (x : Vector Lane 16) : Task := { t with v := t.v.set n.toNat x n.isLt }

/-- K(n): register 0 reads 0xFFFF (R36). -/
def Task.K (t : Task) (n : BitVec 3) : BitVec 16 := if n = 0 then 0xFFFF else t.k[n.toNat]'(n.isLt)

def Task.setK (t : Task) (n : BitVec 3) (x : BitVec 16) : Task := if n = 0 then t else { t with k := t.k.set n.toNat x n.isLt }

/-- Active(km, i) (R36). -/
def active (km : BitVec 16) (i : Nat) : Bool := km.getLsbD i

/-- Writes the active lanes of a vector register; the others keep their value (R36). -/
def Task.setLanes (t : Task) (n : BitVec 5) (km : BitVec 3) (f : Nat → Lane) : Task :=
  t.setV n (Vector.ofFn fun i => if active (t.K km) i then f i else (t.V n)[i])

/-! ## Immediates -/

/-- sext(x, b) of an immediate (R36). -/
def sext64 {n : Nat} (x : BitVec n) : Word := x.signExtend 64
def zext64 {n : Nat} (x : BitVec n) : Word := x.setWidth 64

/-- The instruction after this one. -/
def Task.adv (t : Task) : Task := { t with pc := t.pc + 4 }

/-- The target of a displacement in words, from this instruction (R26). -/
def Task.jump {n : Nat} (t : Task) (disp : BitVec n) : Task := { t with pc := t.pc + sext64 disp * 4 }

/-- The width in bits of a size code: 8, 16, 32 or 64. -/
def widthBits (w : Nat) : Nat := 8 * 2 ^ w

/-- Extent(sp) (R19, R38). -/
def extent (sp : Nat) : Nat := if sp = 1 then 4096 else if sp = 2 then 2 ^ 23 else if sp = 3 then 2 ^ 25 else 2 ^ 26

/-- ea of R38 and R151: the base plus the scaled offset, modulo 2^64. -/
def Task.ea (t : Task) (base : BitVec 5) (off : BitVec 10) (scale : Nat) : Word := t.S base + sext64 off * BitVec.ofNat 64 scale

/-- Why a task stops (R80). -/
inductive Stop where
  | shortfall
  | overflow
  | illegal
  | misaligned
  | unresolved
  | trap
  deriving DecidableEq, Repr

/-- `REASON` (R80). -/
def Stop.code : Stop → Nat
  | .shortfall => 1
  | .overflow => 2
  | .illegal => 3
  | .misaligned => 4
  | .unresolved => 5
  | .trap => 6

/-- The checks of Addr before any translation (R38): alignment first, then canonical form or extent. -/
def addrCheck (sp : Nat) (ea : Word) (size : Nat) : Option Stop :=
  if ea.toNat % size ≠ 0 then some .misaligned
  else if sp = 0 then (if isCanon ea.toNat then none else some .unresolved)
  else if extent sp ≤ ea.toNat then some .unresolved
  else none

end Sys2Proof.Machine
end

