-- ==== Sys2Proof/Machine/Flags.lean ====
section
/-! DEFINITION. The sticky flags of R84 and how an instruction raises them (R40, R119). -/

namespace Sys2Proof.Machine

/-- Flags raised, as the bits of R84. -/
abbrev Fl := BitVec 5

def flNX : Fl := 1
def flUF : Fl := 2
def flOF : Fl := 4
def flDZ : Fl := 8
def flNV : Fl := 16

/-- A flag where a condition holds. -/
def flIf (c : Bool) (f : Fl) : Fl := if c then f else 0

/-- Raise (R40): the sticky bits are set, never cleared. -/
def Task.raise (t : Task) (f : Fl) : Task := { t with flags := t.flags ||| f.setWidth 64 }

end Sys2Proof.Machine
end

