-- ==== Sys2Proof/Machine/Float.lean ====
section
/-! DEFINITION. Number formats and rounding: FP32, FP16, BF16 (R113), binary8 (R114 to R118), the OCP bytes of the memory path (R122, R123),
Round (R40), stochastic rounding (R120), and the exact operations the instructions round (R88 to R92). -/

namespace Sys2Proof.Machine

/-! ## Values -/

/-- What bits encode (R40 Value): a NaN, an infinity, or ±m × 2^e. -/
inductive FVal where
  | nan (sig : Bool)
  | inf (neg : Bool)
  | fin (neg : Bool) (m : Nat) (e : Int)
  deriving DecidableEq, Repr

/-- A rounding: a mode of R23 (0 RNE, 1 RZ, 2 RU, 3 RD, 4 RA), or a stochastic draw of 16 bits (R120). -/
inductive Rm where
  | mode (n : Nat)
  | stoch (r : Nat)
  deriving DecidableEq, Repr

/-- Whether a rounding is stochastic: it raises NX whenever the value is not exact (R120). -/
def Rm.isStoch : Rm → Bool
  | .mode _ => false
  | .stoch _ => true

/-- A format: precision, exponent of the last place of subnormals, and the kind of its codes. -/
inductive Fm where
  | ieee (p : Nat) (qmin qmax : Int) (width : Nat)
  | b8 (p : Nat) (usgn fin sat : Bool)
  deriving DecidableEq, Repr

def fp32 : Fm := .ieee 24 (-149) 104 32
def fp16 : Fm := .ieee 11 (-24) 5 16
def bf16 : Fm := .ieee 8 (-133) 120 16

/-- A scalar FP type code (R23). -/
def fmOf (w : Nat) : Fm := if w = 0 then fp32 else if w = 1 then fp16 else bf16

/-- The bias of a binary8 variant (R114). -/
def b8Bias (p : Nat) (usgn : Bool) : Nat := if usgn then 2 ^ (8 - p) else 2 ^ (7 - p)

def Fm.p : Fm → Nat
  | .ieee p _ _ _ => p
  | .b8 p _ _ _ => p

def Fm.qmin : Fm → Int
  | .ieee _ q _ _ => q
  | .b8 p u _ _ => 2 - (b8Bias p u : Int) - p

def Fm.width : Fm → Nat
  | .ieee _ _ _ w => w
  | .b8 .. => 8

/-- The magnitude code of m × 2^q (R113, R114). -/
def magCode (f : Fm) (m : Nat) (q : Int) : Nat := (q - f.qmin).toNat * 2 ^ (f.p - 1) + m

/-- The value of a magnitude code. -/
def magVal (f : Fm) (neg : Bool) (c : Nat) : FVal :=
  let t := 2 ^ (f.p - 1)
  if c / t = 0 then .fin neg c f.qmin else .fin neg (t + c % t) (f.qmin + (c / t : Nat) - 1)

/-- The largest finite magnitude code, and the codes of infinity and NaN, of a binary8 variant (R114). -/
def b8Max (usgn fin : Bool) : Nat := if usgn then (if fin then 0xFE else 0xFD) else (if fin then 0x7F else 0x7E)
def b8Inf (usgn neg : Bool) : Nat := if usgn then 0xFE else if neg then 0xFF else 0x7F
def b8NaN (usgn : Bool) : Nat := if usgn then 0xFF else 0x80

/-- Value(F, bits) (R40). -/
def Fm.value (f : Fm) (b : Nat) : FVal :=
  match f with
  | .ieee p _ _ w =>
    let s := b / 2 ^ (w - 1) % 2 == 1
    let c := b % 2 ^ (w - 1)
    let top := (2 ^ (w - p) - 1) * 2 ^ (p - 1)
    if c < top then magVal f s c else if c = top then .inf s else .nan (c / 2 ^ (p - 2) % 2 == 0)
  | .b8 _ u fi _ =>
    let c := b % 256
    if c = b8NaN u then .nan false
    else if !fi && c = b8Inf u false then .inf false
    else if !fi && !u && c = 0xFF then .inf true
    else if u then magVal f false c else magVal f (c / 128 == 1) (c % 128)

/-- QNaN(F) (R40). -/
def Fm.qnan : Fm → Nat
  | .ieee p _ _ w => (2 ^ (w - p) - 1) * 2 ^ (p - 1) + 2 ^ (p - 2)
  | .b8 _ u _ _ => b8NaN u

def Fm.infBits (f : Fm) (neg : Bool) : Nat :=
  match f with
  | .ieee p _ _ w => (2 ^ (w - p) - 1) * 2 ^ (p - 1) + if neg then 2 ^ (w - 1) else 0
  | .b8 _ u _ _ => b8Inf u neg

def Fm.maxCode : Fm → Nat
  | .ieee p _ _ w => (2 ^ (w - p) - 1) * 2 ^ (p - 1) - 1
  | .b8 _ u fi _ => b8Max u fi

def Fm.maxBits (f : Fm) (neg : Bool) : Nat := f.maxCode + if neg then 2 ^ (f.width - 1) else 0

/-! ## Rounding -/

/-- The length in bits of a number. -/
def bitLen (m : Nat) : Nat := if m = 0 then 0 else m.log2 + 1

/-- Whether hi moves up when r of 2^k is cut off (R23, R40, R120). -/
def roundUp (rm : Rm) (neg : Bool) (hi r k : Nat) : Bool :=
  match rm with
  | .mode 0 => decide (2 ^ k < 2 * r) || (decide (2 * r = 2 ^ k) && hi % 2 == 1)
  | .mode 2 => decide (r ≠ 0) && !neg
  | .mode 3 => decide (r ≠ 0) && neg
  | .mode 4 => decide (2 ^ k ≤ 2 * r)
  | .mode _ => false
  | .stoch d => decide (d * 2 ^ k < r * 65536)

/-- m × 2^e rounded to p bits with last place 2^q at least 2^lo: magnitude, last place, whether inexact. A sticky value lies strictly
between m and m + 1. -/
def roundMag (rm : Rm) (neg : Bool) (p : Nat) (lo : Option Int) (m : Nat) (e : Int) (sticky : Bool) : Nat × Int × Bool :=
  let m := if sticky then 2 * m + 1 else m
  let e := if sticky then e - 1 else e
  let q0 := e + bitLen m - p
  let q := match lo with | some l => max q0 l | none => q0
  if q ≤ e then (m * 2 ^ (e - q).toNat, q, false)
  else
    let k := (q - e).toNat
    let hi := m / 2 ^ k
    let r := m % 2 ^ k
    let h := if roundUp rm neg hi r k then hi + 1 else hi
    if h = 2 ^ p then (2 ^ (p - 1), q + 1, decide (r ≠ 0)) else (h, q, decide (r ≠ 0))

/-- Whether overflow under a rounding gives infinity (R40, R120). -/
def toInf (rm : Rm) (neg : Bool) : Bool :=
  match rm with
  | .mode 1 => false
  | .mode 2 => !neg
  | .mode 3 => neg
  | _ => true

/-- Tiny after rounding (R40). -/
def tiny (f : Fm) (rm : Rm) (neg : Bool) (m : Nat) (e : Int) (sticky : Bool) (h : Nat) (q : Int) : Bool :=
  match rm with
  | .stoch _ => decide (h < 2 ^ (f.p - 1)) && decide (q = f.qmin)
  | _ => decide ((roundMag rm neg f.p none m e sticky).2.1 < f.qmin)

/-- Round of ±m × 2^e (R40, R117, R118): the bits and the flags raised. -/
def Fm.round (f : Fm) (rm : Rm) (neg : Bool) (m : Nat) (e : Int) (sticky : Bool) : Nat × Fl :=
  if m = 0 ∧ !sticky then
    (match f with
      | .ieee _ _ _ w => if neg then 2 ^ (w - 1) else 0
      | .b8 .. => 0, 0)
  else
    let (h, q, inex) := roundMag rm neg f.p (some f.qmin) m e sticky
    let c := magCode f h q
    match f with
    | .ieee _ _ _ w =>
      if f.maxCode < c then (if toInf rm neg then f.infBits neg else f.maxBits neg, flOF ||| flNX)
      else (c + (if neg then 2 ^ (w - 1) else 0), flIf inex flNX ||| flIf (inex && tiny f rm neg m e sticky h q) flUF)
    | .b8 _ u fi sat =>
      if u && neg then
        (if h = 0 then (0, flNX) else if sat then (0, flNX) else (b8NaN u, flNV ||| flIf (inex && rm.isStoch) flNX))
      else if f.maxCode < c then
        (if sat then f.maxBits neg else if fi then b8NaN u else if toInf rm neg then b8Inf u neg else f.maxBits neg, flOF ||| flNX)
      else if h = 0 then (0, flUF ||| flNX)
      else (c + (if neg then 128 else 0), flIf inex flNX ||| flIf (inex && tiny f rm neg m e sticky h q) flUF)

/-- Round of an infinity (R40, R117, R118). -/
def Fm.roundInf (f : Fm) (neg : Bool) : Nat × Fl :=
  match f with
  | .ieee .. => (f.infBits neg, 0)
  | .b8 _ u fi sat =>
    if u && neg then (if sat then (0, flNX) else (b8NaN u, flNV))
    else if !fi then (b8Inf u neg, 0)
    else if sat then (f.maxBits neg, flOF ||| flNX) else (b8NaN u, flNV)

/-- Round of any value; a NaN gives QNaN and raises nothing here (R40). -/
def Fm.roundVal (f : Fm) (rm : Rm) (v : FVal) : Nat × Fl :=
  match v with
  | .nan _ => (f.qnan, 0)
  | .inf n => f.roundInf n
  | .fin n m e => f.round rm n m e false

/-! ## Exact operations -/

def FVal.isNaN : FVal → Bool
  | .nan _ => true
  | _ => false

def FVal.isSig : FVal → Bool
  | .nan s => s
  | _ => false

def FVal.isZero : FVal → Bool
  | .fin _ 0 _ => true
  | _ => false

def FVal.isInf : FVal → Bool
  | .inf _ => true
  | _ => false

def FVal.neg : FVal → Bool
  | .nan _ => false
  | .inf n => n
  | .fin n _ _ => n

def FVal.flip : FVal → FVal
  | .nan s => .nan s
  | .inf n => .inf !n
  | .fin n m e => .fin (!n) m e

/-- A signed number times 2^e. -/
def signed (neg : Bool) (m : Nat) : Int := if neg then -(m : Int) else m

/-- The sum of two finite values, with the sign an exact zero takes (R89). -/
def addFin (rm : Rm) (n1 : Bool) (m1 : Nat) (e1 : Int) (n2 : Bool) (m2 : Nat) (e2 : Int) : FVal :=
  let e := min e1 e2
  let v := signed n1 m1 * 2 ^ (e1 - e).toNat + signed n2 m2 * 2 ^ (e2 - e).toNat
  if v = 0 then .fin (if m1 = 0 ∧ m2 = 0 ∧ n1 = n2 then n1 else rm == .mode 3) 0 0 else .fin (decide (v < 0)) v.natAbs e

/-- x + y, none where it is invalid (R89). -/
def addVal (rm : Rm) (x y : FVal) : Option FVal :=
  match x, y with
  | .inf a, .inf b => if a = b then some (.inf a) else none
  | .inf a, _ => some (.inf a)
  | _, .inf b => some (.inf b)
  | .fin n1 m1 e1, .fin n2 m2 e2 => some (addFin rm n1 m1 e1 n2 m2 e2)
  | a, _ => some a

/-- x × y, none where it is invalid (R89). -/
def mulVal (x y : FVal) : Option FVal :=
  match x, y with
  | .inf a, .inf b => some (.inf (a != b))
  | .inf a, .fin b m _ => if m = 0 then none else some (.inf (a != b))
  | .fin a m _, .inf b => if m = 0 then none else some (.inf (a != b))
  | .fin n1 m1 e1, .fin n2 m2 e2 => some (.fin (n1 != n2) (m1 * m2) (e1 + e2))
  | a, _ => some a

/-- The result of an operation on two operands, with the NaN rules of R88. -/
def binop (f : Fm) (x y : FVal) (go : Nat × Fl) : Nat × Fl :=
  let sig := flIf (x.isSig || y.isSig) flNV
  if x.isNaN || y.isNaN then (f.qnan, sig) else go

/-- An invalid operation gives the canonical NaN with NV (R88). -/
def orInvalid (f : Fm) (rm : Rm) (v : Option FVal) : Nat × Fl :=
  match v with
  | some v => f.roundVal rm v
  | none => (f.qnan, flNV)

def fAdd (f : Fm) (rm : Rm) (a b : Nat) : Nat × Fl := binop f (f.value a) (f.value b) (orInvalid f rm (addVal rm (f.value a) (f.value b)))
def fSub (f : Fm) (rm : Rm) (a b : Nat) : Nat × Fl :=
  binop f (f.value a) (f.value b) (orInvalid f rm (addVal rm (f.value a) (f.value b).flip))
def fMul (f : Fm) (rm : Rm) (a b : Nat) : Nat × Fl := binop f (f.value a) (f.value b) (orInvalid f rm (mulVal (f.value a) (f.value b)))

/-- x / y (R88, R89). -/
def fDiv (f : Fm) (rm : Rm) (a b : Nat) : Nat × Fl :=
  binop f (f.value a) (f.value b) <|
    match f.value a, f.value b with
    | .inf _, .inf _ => (f.qnan, flNV)
    | .inf n, y => f.roundInf (n != y.neg)
    | .fin n _ _, .inf k => f.round rm (n != k) 0 0 false
    | .fin n m e, .fin k d g =>
      if d = 0 then (if m = 0 then (f.qnan, flNV) else (f.infBits (n != k), flDZ))
      else if m = 0 then f.round rm (n != k) 0 0 false
      else
        let sh := bitLen d + 64
        f.round rm (n != k) (m * 2 ^ sh / d) (e - g - sh) (decide (m * 2 ^ sh % d ≠ 0))
    | _, _ => (f.qnan, 0)

/-- The integer square root, one bit at a time below 2^k. -/
def isqrtFrom : Nat → Nat → Nat → Nat
  | 0, _, r => r
  | k + 1, n, r => isqrtFrom k n (if (r + 2 ^ k) * (r + 2 ^ k) ≤ n then r + 2 ^ k else r)

def isqrt (n : Nat) : Nat := isqrtFrom (bitLen n / 2 + 1) n 0

/-- √x (R88, R89). -/
def fSqrt (f : Fm) (rm : Rm) (a : Nat) : Nat × Fl :=
  match f.value a with
  | .nan s => (f.qnan, flIf s flNV)
  | .inf n => if n then (f.qnan, flNV) else f.roundInf false
  | .fin n m e =>
    if m = 0 then f.round rm n 0 0 false
    else if n then (f.qnan, flNV)
    else
      let m2 := if e % 2 = 0 then m else 2 * m
      let e2 := if e % 2 = 0 then e else e - 1
      let r := isqrt (m2 * 2 ^ 128)
      f.round rm false r (e2 / 2 - 64) (decide (r * r ≠ m2 * 2 ^ 128))

/-- 1/√x (R88, R89). -/
def fRsq (f : Fm) (rm : Rm) (a : Nat) : Nat × Fl :=
  match f.value a with
  | .nan s => (f.qnan, flIf s flNV)
  | .inf n => if n then (f.qnan, flNV) else f.round rm false 0 0 false
  | .fin n m e =>
    if m = 0 then (f.infBits n, flDZ)
    else if n then (f.qnan, flNV)
    else
      let m2 := if e % 2 = 0 then m else 2 * m
      let e2 := if e % 2 = 0 then e else e - 1
      let k := bitLen m2 + 64
      let r := isqrt (2 ^ (2 * k) / m2)
      f.round rm false r (-(e2 / 2) - k) (decide (r * r * m2 ≠ 2 ^ (2 * k)))

/-- x × y + z with one rounding (R92, R136). -/
def fFmaVal (f : Fm) (rm : Rm) (x y z : FVal) : Nat × Fl :=
  let sig := flIf (x.isSig || y.isSig || z.isSig) flNV
  if (x.isZero && y.isInf) || (x.isInf && y.isZero) then (f.qnan, flNV)
  else if x.isNaN || y.isNaN || z.isNaN then (f.qnan, sig)
  else
    match mulVal x y with
    | none => (f.qnan, flNV)
    | some v => orInvalid f rm (addVal rm v z)

def fFma (f : Fm) (rm : Rm) (a b c : Nat) : Nat × Fl := fFmaVal f rm (f.value a) (f.value b) (f.value c)

/-- x × 2^n (R135): an exponent beyond ±4096 gives the overflow or underflow that ±4096 gives. -/
def fScale (f : Fm) (a : Nat) (n : Int) : Nat × Fl :=
  match f.value a with
  | .nan s => (f.qnan, flIf s flNV)
  | .inf _ => (a, 0)
  | .fin s m e => f.round (.mode 0) s m (e + max (-4096) (min 4096 n)) false

/-- Whether x is below y, for values that are not NaN; −0 equals +0. -/
def ltVal (x y : FVal) : Bool :=
  match x, y with
  | .inf a, .inf b => a && !b
  | .inf a, _ => a
  | _, .inf b => !b
  | .fin n1 m1 e1, .fin n2 m2 e2 =>
    let e := min e1 e2
    decide (signed n1 m1 * 2 ^ (e1 - e).toNat < signed n2 m2 * 2 ^ (e2 - e).toNat)
  | _, _ => false

def eqVal (x y : FVal) : Bool :=
  match x, y with
  | .nan _, _ => false
  | _, .nan _ => false
  | _, _ => !ltVal x y && !ltVal y x

/-- minimumNumber and maximumNumber (R89): a number wins over a NaN, and −0 lies below +0. -/
def fMinMax (f : Fm) (max : Bool) (a b : Nat) : Nat × Fl :=
  let x := f.value a
  let y := f.value b
  let sig := flIf (x.isSig || y.isSig) flNV
  if x.isNaN && y.isNaN then (f.qnan, sig)
  else if x.isNaN then (b, sig)
  else if y.isNaN then (a, sig)
  else
    let less := ltVal x y || (x.isZero && y.isZero && x.neg && !y.neg)
    (if less == max then b else a, 0)

/-- The comparisons: equal, less, at most, unordered (R88, R89). -/
def fCmp (f : Fm) (op : Nat) (a b : Nat) : Bool × Fl :=
  let x := f.value a
  let y := f.value b
  let un := x.isNaN || y.isNaN
  let sig := flIf (x.isSig || y.isSig) flNV
  match op with
  | 0 => (!un && eqVal x y, sig)
  | 1 => (!un && ltVal x y, flIf un flNV)
  | 2 => (!un && (ltVal x y || eqVal x y), flIf un flNV)
  | _ => (un, sig)

/-- FCLASS (R90). -/
def fClass (f : Fm) (a : Nat) : Nat :=
  match f.value a with
  | .nan s => if s then 8 else 9
  | .inf n => if n then 0 else 7
  | .fin n m _ =>
    if m = 0 then (if n then 3 else 4)
    else if m < 2 ^ (f.p - 1) then (if n then 2 else 5)
    else (if n then 1 else 6)

/-- One format to another (R91, R137): a signalling NaN raises NV. -/
def fConv (src dst : Fm) (rm : Rm) (a : Nat) : Nat × Fl :=
  let v := src.value a
  let r := dst.roundVal rm v
  (r.1, r.2 ||| flIf v.isSig flNV)

/-- An integer to a format (R91, R138). -/
def intToF (f : Fm) (rm : Rm) (v : Int) : Nat × Fl := f.round rm (decide (v < 0)) v.natAbs 0 false

/-- A format to an integer of [lo, hi] (R91, R138): saturating, with NV outside the range. -/
def fToInt (f : Fm) (rm : Rm) (lo hi : Int) (a : Nat) : Int × Fl :=
  match f.value a with
  | .nan _ => (0, flNV)
  | .inf n => (if n then lo else hi, flNV)
  | .fin n m e =>
    let (v, inex) : Int × Bool :=
      if 0 ≤ e then (signed n (m * 2 ^ e.toNat), false)
      else
        let k := (-e).toNat
        let h := m / 2 ^ k
        let r := m % 2 ^ k
        (signed n (if roundUp rm n h r k then h + 1 else h), decide (r ≠ 0))
    if hi < v then (hi, flNV) else if v < lo then (lo, flNV) else (v, flIf inex flNX)

/-! ## The OCP bytes of the memory path -/

/-- A byte of a page with `FMT` 1 or 2 as FP16 (R122). -/
def ocpLoad (fmt : Nat) (b : Nat) : Nat :=
  if fmt = 2 then (if b % 128 / 4 = 31 ∧ b % 4 ≠ 0 then 0x7E00 else b * 256)
  else if b % 128 = 127 then 0x7E00
  else
    let v := if b % 128 / 8 = 0 then FVal.fin (b / 128 == 1) (b % 8) (-9) else FVal.fin (b / 128 == 1) (8 + b % 8) ((b % 128 / 8 : Nat) - 10)
    (fp16.roundVal (.mode 0) v).1

/-- A rounded magnitude as an OCP byte (R123). -/
def ocpFin (fmt : Nat) (sat neg : Bool) (m : Nat) (e : Int) : Nat × Fl :=
  let sgn := if neg then 128 else 0
  let p := if fmt = 1 then 4 else 3
  let qmin : Int := if fmt = 1 then -9 else -16
  let (h, q, inex) := roundMag (.mode 0) neg p (some qmin) m e false
  let c := (q - qmin).toNat * 2 ^ (p - 1) + h
  if fmt = 1 ∧ 0x7E < c then (if sat then 0x7E + sgn else 0x7F, flOF ||| flNX)
  else if fmt = 2 ∧ 0x7B < c then ((if sat then 0x7B else 0x7C) + sgn, flOF ||| flNX)
  else (c + sgn, flIf inex flNX ||| flIf (inex && decide ((roundMag (.mode 0) neg p none m e false).2.1 < qmin)) flUF)

/-- An FP16 half stored to a page with `FMT` 1 or 2 (R123). -/
def ocpStore (fmt : Nat) (sat : Bool) (h : Nat) : Nat × Fl :=
  match fp16.value h with
  | .nan _ => (if fmt = 1 then 0x7F else 0x7E, 0)
  | .inf n =>
    let sgn := if n then 128 else 0
    if fmt = 2 then (0x7C + sgn, 0)
    else if sat then (0x7E + sgn, flOF ||| flNX) else (0x7F, flNV)
  | .fin n m e => if m = 0 then (if n then 128 else 0, 0) else ocpFin fmt sat n m e

end Sys2Proof.Machine
end

