-- ==== Sys2Proof/Machine/Launch.lean ====
section
/-! DEFINITION. Launch blocks (R45, R46), channels (R47 to R49), readiness (R51 to R54), activation queues (R61 to R63, R299), bound blocks
(R55), and the activation of a task (R44, R66). -/

namespace Sys2Proof.Machine

/-! ## Launch block fields (R45) -/

def lbEntry (w : Nat) : Nat := bits w 0 64
def lbNpkt (w : Nat) : Nat := bits w 64 12
def lbMode (w : Nat) : Bool := bits w 76 1 == 1
def lbLvl (w : Nat) : Nat := bits w 77 2
def lbSmf (w : Nat) : Bool := bits w 79 1 == 1
def lbScope (w : Nat) : Nat := bits w 80 3
def lbPlace (w : Nat) : Nat := bits w 83 2
def lbTgt (w : Nat) : Nat := bits w 85 5
def lbGsz (w : Nat) : Nat := bits w 90 4
def lbGspan (w : Nat) : Bool := bits w 94 1 == 1
def lbRearm (w : Nat) : Bool := bits w 95 1 == 1
def lbNch (w : Nat) : Nat := bits w 96 5
def lbWkind (w : Nat) : Nat := bits w 101 3
def lbQsel (w : Nat) : Nat := bits w 104 3
def lbArg0 (w : Nat) : Nat := bits w 128 64
def lbArg1 (w : Nat) : Nat := bits w 192 64
def lbWaddr (w : Nat) : Nat := bits w 256 64
def lbWval (w : Nat) : Nat := bits w 320 64
def lbChtab (w : Nat) : Nat := bits w 384 64

/-- A number with the `n` bits at `lo` replaced. -/
def setBits (w lo n v : Nat) : Nat := w - bits w lo n * 2 ^ lo + v % 2 ^ n * 2 ^ lo

/-- The cores a block may run on (R45, R58). -/
def placeCores (w : Nat) : List Nat :=
  (List.range 32).filter fun n =>
    match lbPlace w with
    | 0 => n == lbTgt w
    | 1 => n / 4 == lbTgt w / 4
    | 2 => n / 8 == lbTgt w / 8
    | _ => true

/-- The checks of R46 that the image and the context decide. -/
def lbValid (s : State) (cx : Nat) (x : Ctx) (w : Nat) : Bool :=
  isCanon (lbEntry w) && decide (lbEntry w % 4 = 0 ∧ bits w 107 21 = 0 ∧ bits w 448 64 = 0 ∧ lbScope w ≠ 0 ∧ lbScope w ≠ 7
    ∧ 1 ≤ lbGsz w ∧ lbGsz w ≤ 12 ∧ lbNch w ≤ 16 ∧ lbWkind w ≤ 2)
    && (lbWkind w == 0 || (isCanon (lbWaddr w) && lbWaddr w % 8 == 0))
    && (lbNch w == 0 || (isCanon (lbChtab w) && lbChtab w % 8 == 0))
    && (findT x.queues (lbQsel w)).isSome
    && (!lbRearm w || (lbGsz w == 1 && lbNch w != 0))
    && (placeCores w).any fun n => (s.core n).part == some (partOf cx)

/-! ## Channels -/

/-- A channel header (R48). -/
structure ChanHdr where
  wcnt : Nat
  rcnt : Nat
  slotSz : Nat
  logn : Nat
  deriving DecidableEq, Repr

/-- Bytes of the tag array (R48). -/
def tagBytes (logn : Nat) : Nat := 64 * cdiv (2 ^ logn) 256

/-- The end of the space a channel lies in. -/
def chanLimit (quad : Bool) (hkey : Nat) : Nat :=
  let core := (hkey - 2 ^ 56) / 2 ^ 23
  if quad then padKey (quadBase core) (2 ^ 25) else padKey core (2 ^ 23)

/-- A valid header and region (R48). -/
def chanHdr (m : List Host.Cell) (quad : Bool) (hkey : Nat) : Option ChanHdr :=
  let w := getN m hkey 64
  let h : ChanHdr := ⟨bits w 0 64, bits w 64 64, 4 * 2 ^ bits w 128 3, bits w 132 4⟩
  if bits w 128 3 ≤ 4 ∧ bits w 131 1 = 0 ∧ 2 ≤ h.logn ∧ h.logn ≤ 12 ∧ w / 2 ^ 138 = 0
      ∧ hkey + 64 + tagBytes h.logn + 2 ^ h.logn * h.slotSz ≤ chanLimit quad hkey then some h else none

/-- The location of the byte that holds a slot's tag (R48). -/
def tagKey (hkey logn cnt : Nat) : Nat := hkey + 64 + cnt % 2 ^ logn / 4

/-- The tag of ring slot j (R48): 0 data, 1 end-of-section, 2 end-of-pass, 3 isobar. -/
def tagAt (m : List Host.Cell) (hkey logn cnt : Nat) : Nat :=
  let j := cnt % 2 ^ logn
  (getB m (hkey + 64 + j / 4)).toNat / 4 ^ (j % 4) % 4

/-- The location of a ring slot (R48). -/
def slotKey (hkey logn slotSz cnt : Nat) : Nat := hkey + 64 + tagBytes logn + cnt % 2 ^ logn * slotSz

def State.setTag (s : State) (hkey logn cnt t : Nat) : State :=
  let j := cnt % 2 ^ logn
  let b := (getB s.mem (hkey + 64 + j / 4)).toNat
  s.write (hkey + 64 + j / 4) [BitVec.ofNat 8 (b - b / 4 ^ (j % 4) % 4 * 4 ^ (j % 4) + t * 4 ^ (j % 4))]

/-- The filled count (R48). -/
def ChanHdr.filled (h : ChanHdr) : Nat := (h.wcnt + 2 ^ 64 - h.rcnt) % 2 ^ 64
def ChanHdr.free (h : ChanHdr) : Nat := 2 ^ h.logn - h.filled

/-- Filled slots before the first isobar (R51). -/
def avail (m : List Host.Cell) (hkey : Nat) (h : ChanHdr) : Nat :=
  ((List.range (min h.filled (2 ^ h.logn))).takeWhile fun i => tagAt m hkey h.logn (h.rcnt + i) != 3).length

/-- Whether a channel satisfies its entry (R51); none where the header is invalid (R49). -/
def chanReady (m : List Host.Cell) (c : Chan) (hkey : Nat) : Option Bool :=
  match chanHdr m c.quad hkey with
  | none => none
  | some h =>
    if c.out then some (decide (c.need ≤ h.free))
    else
      let a := avail m hkey h
      some (decide (c.need ≤ a) || (List.range (min a c.need)).any fun i =>
        let t := tagAt m hkey h.logn (h.rcnt + i); t == 1 || t == 2)

/-- The guaranteed count (R52). -/
def guarantee (m : List Host.Cell) (c : Chan) (hkey : Nat) (h : ChanHdr) : Nat := if c.out then c.need else min (avail m hkey h) c.need

/-- A `quad` entry rebased for a core (R59). -/
def rebase (core hdr : Nat) : Nat := padKey (quadBase core) ((hdr + core % 4 * 2 ^ 23) % 2 ^ 25)

/-- Where an entry's channel stands for a task on a core. -/
def Chan.key (c : Chan) (core : Nat) : Nat := c.hkey.getD (rebase core c.hdr)

/-- An advance of a channel's counts at the scope of its space (R50); a token breakpoint that it passes stops its context (R356). -/
def State.advance (s : State) (hkey : Nat) (writer : Bool) (n : Nat) : State :=
  let off := if writer then 0 else 8
  let old := getN s.mem (hkey + off) 8
  let s := s.writeN (hkey + off) 8 (old + n)
  if writer ∧ n ≠ 0 then
    { s with ctxs := s.ctxs.map fun e =>
        let d := e.2.dbg
        let k := if d.tspc then padKey (quadBase d.tcore) (d.thdr % 2 ^ 25) else padKey d.tcore d.thdr
        if d.tokbp ∧ k = hkey ∧ old ≤ d.tord.toNat ∧ d.tord.toNat < old + n then
          (e.1, { e.2 with dbg := { d with tokbp := false, state := if d.state = 0 then 1 else d.state } })
        else e }
  else s

/-! ## Reading a block -/

/-- A read of the device stalls (R361). -/
def State.pendRead (s : State) (cx va acc stage level : Nat) (who : Who) : State :=
  { s with pendR := s.pendR ++ [⟨cx, va, acc, stage, level, s.tb, false, who⟩] }

/-- The outcome of a read that may find its subject invalid. -/
inductive LR (α : Type) where
  | ok (a : α) (s : State)
  | invalid (s : State)
  | pageFault (va stage level : Nat) (s : State)
  | prot (va : Nat) (s : State)
  | data (va : Nat) (s : State)

/-- A number read from `mem` by the device through the `CTX` port of a die (R361). -/
def State.devReadAt (s : State) (die cx va n : Nat) : LR Nat :=
  match s.reach (ctxPort die) cx va n 1 with
  | .ok ks s => (match s.poisonIn va ks with
    | some g => .data (g - g % 256) s
    | none => .ok (natOfBytes (s.gets ks)) s)
  | .pageFault a st l s => .pageFault a st l s
  | .prot a s => .prot a s
  | .data a s => .data a s

/-- A number read by a firmware core: at the context's first die (log 32). -/
def State.devRead (s : State) (cx va n : Nat) : LR Nat := s.devReadAt (s.firstDie (partOf cx)) cx va n

def LR.bind {α β : Type} (r : LR α) (f : α → State → LR β) : LR β :=
  match r with
  | .ok a s => f a s
  | .invalid s => .invalid s
  | .pageFault v a b s => .pageFault v a b s
  | .prot a s => .prot a s
  | .data a s => .data a s

/-! ## On-chip ranges -/

/-- Whether a context's ranges hold [off, off + n) of a space (R231, R300); in `quad`, in every pad reached. -/
def Setup.reaches (su : Setup) (sp off n : Nat) : Bool :=
  let pad := fun a b => decide (su.padlo * 65536 ≤ a) && decide (b ≤ (su.padlo + su.padn) * 65536)
  if sp = 2 then pad off (off + n)
  else if sp = 3 then (List.range 4).all fun i =>
    let a := max off (i * 2 ^ 23)
    let b := min (off + n) ((i + 1) * 2 ^ 23)
    decide (b ≤ a) || pad (a - i * 2 ^ 23) (b - i * 2 ^ 23)
  else decide (su.dielo * 2 ^ 20 ≤ off) && decide (off + n ≤ (su.dielo + su.dien) * 2 ^ 20)

/-- Whether a pad range meets the units in which images of gated rows stand (R323). -/
def Setup.overImages (su : Setup) : Bool := decide (su.padn ≠ 0 ∧ su.padlo < 128 ∧ 110 < su.padlo + su.padn)

/-- Whether a context's accesses from a core reach a range of a space: within its ranges, while the core and, in `quad`, the pads it reaches are its
partition's (R231, R232, R300). -/
def State.reachable (s : State) (cx core sp off n : Nat) : Bool :=
  (s.ctx cx).any (fun x => x.setup.reaches sp off n) && (s.core core).part == some (partOf cx) && (sp != 3 || (List.range 4).all fun i =>
    decide (off + n ≤ i * 2 ^ 23) || decide ((i + 1) * 2 ^ 23 ≤ off) || (s.core (quadBase core + i)).part == some (partOf cx))

/-- The offset of a location of a pad in the space of a channel. -/
def chanOffset (quad : Bool) (k : Nat) : Nat :=
  let off := (k - 2 ^ 56) % 2 ^ 23
  if quad then (k - 2 ^ 56) / 2 ^ 23 % 4 * 2 ^ 23 + off else off

/-- Whether bytes of a channel lie where a context may reach (R231). -/
def State.chanHolds (s : State) (cx : Nat) (quad : Bool) (k n : Nat) : Bool :=
  s.reachable cx ((k - 2 ^ 56) / 2 ^ 23) (if quad then 3 else 2) (chanOffset quad k) n

/-- Whether a channel's header and tags lie where a context may reach (R231). -/
def State.chanIn (s : State) (cx : Nat) (quad : Bool) (k : Nat) : Bool :=
  s.chanHolds cx quad k (64 + ((chanHdr s.mem quad k).map fun h => tagBytes h.logn).getD 0)

/-- The granule of a channel's header, where it is poisoned, as an offset of its space (R328). -/
def State.hdrPoison (s : State) (quad : Bool) (k : Nat) : Option Nat := (s.poisoned k 64).map fun g => chanOffset quad k + g * 256 - k

/-- The first poisoned granule of a channel's header and tags, as an offset of its space (R328). -/
def State.chanPoison (s : State) (quad : Bool) (k : Nat) : Option Nat :=
  (s.poisoned k (64 + ((chanHdr s.mem quad k).map fun h => tagBytes h.logn).getD 0)).map fun g => chanOffset quad k + g * 256 - k

/-- A channel's `BIND` bit cleared for a context (R49). Where the context no longer reaches the header it is a protection violation (R231), but of one
that a PART.CTX has halted (R300, log 32). -/
def State.clearBind (s : State) (cx core row pc : Nat) (quad : Bool) (k : Nat) (writer : Bool) : State :=
  if s.chanIn cx quad k then s.setBind k writer false
  else if (s.ctx cx).any (fun x => x.halt.halted && x.halt.fault.isNone) then s
  else s.fault cx 3 2 core row (chanOffset quad k) pc []

/-- Clears the bits of channel table entries that were bound (R49). -/
def State.unbind (s : State) (cx : Nat) (cs : List Chan) : State :=
  cs.foldl (fun s c => match c.hkey with | some k => s.clearBind cx 63 15 0 c.quad k c.out | none => s) s

/-- The same for a block that was read and whose copy still waited. -/
def State.unhold (s : State) (cx : Nat) (b : Option LBlock) : State := s.unbind cx ((b.map fun b => b.chans.flatten).getD [])

/-- The outcome of reading channel table entries; a fault names an offset of the channel's space. -/
inductive ChanR (α : Type) where
  | ok (a : α)
  | prot (addr : Nat)
  | data (addr : Nat)
  | invalid

/-- One channel table entry (R47), with its header where it is bound at once (R49, R59). A `pad` entry names the pad of `TGT` whatever `PLACE`
says, and the slot count of a `quad` entry bound at placement is not known yet, so its `NEED` is not held against it (log 32). A header the context
may not reach is a protection violation (R231), a poisoned one a data error (R328). -/
def readChan (s : State) (cx w e : Nat) : ChanR Chan :=
  let quad := bits e 16 2 == 1
  let hdr := bits e 32 32
  let c : Chan := ⟨e % 2 == 1, quad, bits e 8 8, hdr,
    if quad then (if lbPlace w = 0 then some (rebase (lbTgt w) hdr) else none) else some (padKey (lbTgt w) hdr)⟩
  if bits e 1 7 ≠ 0 ∨ c.need = 0 ∨ 2 ≤ bits e 16 2 ∨ bits e 18 14 ≠ 0 ∨ hdr % 64 ≠ 0 ∨ (if quad then 2 ^ 25 else 2 ^ 23) ≤ hdr then .invalid
  else
    match c.hkey with
    | none => .ok c
    | some k =>
      if !s.chanIn cx quad k then .prot hdr
      else match s.chanPoison quad k with
      | some a => .data a
      | none => match chanHdr s.mem quad k with
        | some h => if c.need ≤ min 255 (2 ^ h.logn) then .ok c else .invalid
        | none => .invalid

/-- The first `n` entries of one member's row (R47). -/
def readChans (s : State) (cx w row : Nat) : Nat → ChanR (List Chan)
  | 0 => .ok []
  | n + 1 =>
    match readChans s cx w row n with
    | .ok cs => (match readChan s cx w (bits row (64 * n) 64) with
      | .ok c => .ok (cs ++ [c])
      | .prot a => .prot a
      | .data a => .data a
      | .invalid => .invalid)
    | r => r

/-- The channel tables of members 0 to n − 1 (R47). -/
def State.readRows (s : State) (die cx w : Nat) : Nat → LR (List (List Chan))
  | 0 => .ok [] s
  | g + 1 =>
    (s.readRows die cx w g).bind fun rows s =>
      if lbNch w = 0 then .ok (rows ++ [[]]) s
      else (s.devReadAt die cx ((lbChtab w + 128 * g) % 2 ^ 64) (8 * lbNch w)).bind fun row s =>
        match readChans s cx w row (lbNch w) with
        | .ok cs => .ok (rows ++ [cs]) s
        | .prot a => .prot a s
        | .data a => .data a s
        | .invalid => .invalid s

/-- No channel is named twice in one direction, by one member or by two, and no bit is set already (R46, R49, log 32). -/
def bindable (s : State) (cs : List Chan) : Bool :=
  match cs with
  | [] => true
  | c :: r => (match c.hkey with | some k => !s.isBound k c.out && !r.any (fun d => d.hkey == some k && d.out == c.out) | none => true) && bindable s r

/-- What else F0 or a commit reads of a block whose image is valid: its packets (R33), its channel tables (R47), its wait word (R53). -/
def State.readRest (s : State) (die cx w : Nat) : LR LBlock :=
  let hdr : LR Nat := if lbNpkt w ≠ 0 then .ok (lbNpkt w) s
    else (s.devReadAt die cx ((lbEntry w + 2 ^ 64 - 16) % 2 ^ 64) 16).bind fun h s =>
      if bits h 0 16 = 0x7A34 ∧ bits h 16 12 ≠ 0 ∧ bits h 28 4 = 0 ∧ bits h 64 64 = 0 then .ok (bits h 16 12) s else .invalid s
  hdr.bind fun n s => (s.readRows die cx w (lbGsz w)).bind fun rows s =>
    if lbWkind w = 0 then .ok ⟨w, n, rows, none⟩ s
    else match s.xlate (ctxPort die) cx (lbWaddr w) 1 with
      | (.ok e, s) => (match s.poisoned (entKey e (lbWaddr w)) 8 with
        | some _ => .data (lbWaddr w - lbWaddr w % 256) s
        | none => .ok ⟨w, n, rows, some (entKey e (lbWaddr w))⟩ s)
      | (.pageFault st l, s) => .pageFault (lbWaddr w) st l s
      | (.prot, s) => .prot (lbWaddr w) s
      | (.data a, s) => .data a s

/-- Reads and checks a block through the `CTX` port of a die (R46, R33). `edit` rewrites the copy as an exit asks (R104): the block as it stands
must be valid, and the copy too; an `XBAR` with n below the block's own `GSZ` has only the channel rows 0 to n − 1 read (log 32); such an exit may not
name a bound block. A block that is armed already is not named again, whatever its
`REARM` bit says by then (R55). -/
def State.readBlock (s : State) (die cx addr : Nat) (edit : Nat → Nat) (mayArm : Bool) : LR LBlock :=
  if addr % 64 ≠ 0 ∨ isCanon addr = false then .invalid s
  else (s.devReadAt die cx addr 64).bind fun raw s =>
    let w := edit raw
    match s.ctx cx with
    | none => .invalid s
    | some x =>
      if lbValid s cx x raw = false ∨ lbValid s cx x w = false ∨ (lbRearm w = true ∧ mayArm = false) then .invalid s
      else if x.bounds.any (fun b => b.blk == addr) = true then .invalid s
      else
        (s.readRest die cx w).bind fun b s => if bindable s b.chans.flatten then .ok b s else .invalid s

/-! ## Activation queues -/

/-- Entries that a VF's contexts hold (R303). -/
def State.entriesOf (s : State) (vf : Nat) : Nat :=
  (s.ctxs.map fun e => if e.2.setup.vf = vf then
    ((e.2.acts.filter fun a => !a.bound).map fun a => (a.seg, a.idx)).dedup.length else 0).sum

/-- The outcome of an enqueue: done, waiting for a segment (R63) or for the quota (R303), or for the page service. -/
inductive Enq where
  | ok (s : State)
  | full (s : State)
  | quota (s : State)
  | pageFault (va stage level : Nat) (s : State)
  | prot (va : Nat) (s : State)
  | data (va : Nat) (s : State)
  deriving DecidableEq, Repr

/-- Who launches a copy: the base of its `tid` (R44), the packet it counts for, a receipt's tag. -/
structure Origin where
  base : Word
  pkt : Option Nat
  receipt : Bool
  deriving DecidableEq, Repr

/-- The header of a segment (R62). -/
def segHeader (next headx tailx : Nat) : Nat := next + headx * 2 ^ 64 + tailx * 2 ^ 70

/-- `HEADX` of a queue: its oldest occupied entry, or the next to fill where none is occupied (R62). -/
def headOf (x : Ctx) (q : Nat) (e : QEnt) : Nat :=
  match e.segs with
  | [] => 1
  | (seg, _) :: _ =>
    let occ := (x.acts.filter fun a => !a.bound && a.qsel == q && a.seg == seg).map fun a => a.idx
    match occ with
    | [] => if e.segs.length = 1 ∧ e.tailx ≠ 0 then e.tailx else 1
    | i :: r => r.foldl min i

/-- `HEADX` and `TAILX` of a segment's header are written as the queue-table entry has them (R62), through the context's address space (R361). -/
def State.writeHead (s : State) (cx seg headx tailx : Nat) : State := s.devWrite cx 9 ((seg + 8) % 2 ^ 64) (bytesOfNat 2 (headx + tailx * 64))

/-- `TAILX` of the head segment: of one that is not the tail too, full. -/
def QEnt.headTail (e : QEnt) : Nat := if e.segs.length ≤ 1 then e.tailx else 0

/-- Segments emptied at the head go back to the free list (R299), and the head's header follows. -/
def State.retireHead (s : State) (cx q : Nat) : State :=
  match s.ctx cx with
  | none => s
  | some x =>
    match findT x.queues q with
    | none => s
    | some e =>
      match e.segs with
      | (seg, _) :: (nx, nk) :: r =>
        if x.acts.any (fun a => !a.bound && a.qsel == q && a.seg == seg) then
          let e := { e with headx := headOf x q e }
          (s.setCtx cx { x with queues := putT x.queues q e }).writeHead cx seg e.headx e.headTail
        else
          let e := { e with segs := (nx, nk) :: r }
          let e := { e with headx := headOf x q e }
          (s.setCtx cx { x with queues := putT x.queues q e, free := x.free ++ [seg] }).writeHead cx nx e.headx e.headTail
      | [(seg, _)] =>
        let e := { e with headx := headOf x q e }
        (s.setCtx cx { x with queues := putT x.queues q e }).writeHead cx seg e.headx e.headTail
      | [] => s

/-- The activations of a copy (R44, R56): one for each member. -/
def newActs (b : LBlock) (o : Origin) (addr id q seg idx key : Nat) (grp : Option Nat) (wok : Bool) : List Act :=
  b.chans.zipIdx.map fun e =>
    ⟨id + 1 + e.2, q, seg, idx, key, addr, b.npkt, o.base * 16 + BitVec.ofNat 64 e.2, e.2, o.pkt, grp, o.receipt, b.wkey, wok, none, false, e.1⟩

/-- Whether a block's wait holds when it is compared at once (R53). -/
def waitNow (s : State) (b : LBlock) : Bool :=
  match b.wkey with
  | none => true
  | some k => waitHolds (lbWkind b.image) (getN s.mem k 8) (lbWval b.image)

/-- Sets the `BIND` bits of a block's entries (R49). -/
def State.bindAll (s : State) (cs : List Chan) : State :=
  cs.foldl (fun s c => match c.hkey with | some k => s.setBind k c.out true | none => s) s

/-- Copies a block whose `BIND` bits are set into its queue (R61, R62, R285 step 4) and makes its activations, with `count` indices where it spans. -/
def State.enqueue (s : State) (cx addr : Nat) (b : LBlock) (o : Origin) (span : Option Span) : Enq :=
  match s.ctx cx with
  | none => .ok s
  | some x =>
    let q := lbQsel b.image
    match findT x.queues q with
    | none => .ok s
    | some e =>
      let quota := (s.vf x.setup.vf).qslots
      if quota ≠ 0 ∧ quota ≤ s.entriesOf x.setup.vf then .quota s
      else if e.tailx = 0 then .full s
      else match e.segs.getLast? with
        | none => .full s
        | some (seg, _) =>
          match s.reach (s.devPort cx) cx seg 4096 2 with
          | .pageFault v st l s => .pageFault v st l s
          | .prot v s => .prot v s
          | .data v s => .data v s
          | .ok ks s =>
            let k := (ks.head?.map Prod.fst).getD 0
            let s := s.writeN (k + 64 * e.tailx) 64 b.image
            let tx := if e.tailx = 63 then 0 else e.tailx + 1
            let grp := if lbGsz b.image = 1 then none else some x.nextId
            let acts := newActs b o addr x.nextId q seg e.tailx (k + 64 * e.tailx) grp (waitNow s b)
            let groups := if lbGsz b.image = 1 then [] else [(⟨x.nextId, lbGsz b.image, [], 0, false, none, none⟩ : Grp)]
            let s := s.modCtx cx fun x => { x with
              queues := putT x.queues q { e with tailx := tx, segs := e.segs.dropLast ++ [(seg, k)] }
              acts := x.acts ++ acts, groups := x.groups ++ groups
              spans := x.spans ++ (span.map fun sp => { sp with act := x.nextId + 1 }).toList
              nextId := x.nextId + 1 + acts.length
              pkts := x.pkts.map fun p => if o.pkt = some p.seq then
                { p with live := p.live + (match span with | some sp => sp.count | none => acts.length) } else p }
            .ok ((if e.segs.length = 1 then s else s.writeHead cx seg 1 tx).retireHead cx q)

/-- Arms a bound block (R55): it is not enqueued, and its first wait begins. -/
def State.arm (s : State) (cx addr : Nat) (b : LBlock) (o : Origin) : State :=
  match s.ctx cx with
  | none => s
  | some x =>
    let s := s.bindAll b.chans.flatten
    let cs := b.chans.flatten
    let a : Act := ⟨x.nextId, lbQsel b.image, 0, 0, 0, addr, b.npkt, o.base * 16, 0, none, none, false, b.wkey, waitNow s b, none, true, cs⟩
    s.modCtx cx fun x => { x with
      bounds := x.bounds ++ [⟨x.nextId, addr, b.image, b.npkt, o.base, 0, lbQsel b.image, cs⟩], acts := x.acts ++ [a], nextId := x.nextId + 1 }

/-- The wait word of an armed block is found and compared (R53); a page fault stalls the read, and with it the activation, a protection violation or a
poisoned granule is a context fault (R328, R361). -/
def State.findWait (s : State) (cx : Nat) (a : Act) (w : Nat) : State :=
  if a.wkey.isSome || a.wok || lbWkind w == 0 then s
  else if s.pendR.any fun m => m.who == .ready cx a.id then s
  else match s.xlate (s.devPort cx) cx (lbWaddr w) 1 with
    | (.ok e, s) =>
      let k := entKey e (lbWaddr w)
      if (s.poisoned k 8).isSome then s.fault cx 12 0 63 15 (lbWaddr w - lbWaddr w % 256) 0 []
      else s.modCtx cx fun x => { x with acts := x.acts.map fun b =>
        if b.id = a.id then { b with wkey := some k, wok := waitHolds (lbWkind w) (getN s.mem k 8) (lbWval w) } else b }
    | (.pageFault st l, s) => s.pendRead cx (lbWaddr w) 1 st l (.ready cx a.id)
    | (.prot, s) => s.fault cx 3 1 63 15 (lbWaddr w) 0 []
    | (.data a, s) => s.fault cx 12 0 63 15 a 0 []

/-- After a bound block's activation has retired by an exit other than `XSTOP`, the block is armed again and waits afresh (R53, R55). -/
def State.rearm (s : State) (cx id : Nat) : State :=
  match s.ctx cx with
  | none => s
  | some x =>
    match x.bounds.find? fun b => b.id == id with
    | none => s
    | some b =>
      let n := b.n + 1
      let a : Act := ⟨b.id, b.qsel, 0, 0, 0, b.blk, b.npkt, (b.base + BitVec.ofNat 64 n) * 16, 0, none, none, false, none, lbWkind b.image == 0, none, true, b.chans⟩
      (s.modCtx cx fun x => { x with bounds := x.bounds.map fun c => if c.id = id then { c with n := n } else c, acts := x.acts ++ [a] }).findWait cx a b.image

/-- Disarms a bound block (R49, R55). -/
def State.disarm (s : State) (cx id : Nat) : State :=
  match s.ctx cx with
  | none => s
  | some x =>
    match x.bounds.find? fun b => b.id == id with
    | none => s
    | some b => (s.unbind cx b.chans).modCtx cx fun x => { x with bounds := x.bounds.filter fun c => c.id != id, acts := x.acts.filter fun a => !(a.bound && a.id == id) }

/-! ## Readiness -/

/-- Whether an activation is ready on a core (R51, R59): none where a header is invalid. -/
def readyOn (m : List Host.Cell) (a : Act) (core : Nat) : Option Bool :=
  a.chans.foldl (fun acc c =>
    match acc, chanReady m c (c.key core) with
    | some b, some r => some (b && r)
    | _, _ => none) (some a.wok)

/-- The offset of the first channel of an activation that its context may not reach, as resolved for a core (R231). -/
def State.chanProt (s : State) (cx : Nat) (a : Act) (core : Nat) : Option Nat :=
  (a.chans.find? fun c => !s.chanIn cx c.quad (c.key core)).map fun c => c.hdr

/-- Whether entries bound at placement name different channels in each direction on a core (R49, R59, log 32). -/
def distinctOn (core : Nat) : List Chan → Bool
  | [] => true
  | c :: r => (c.hkey.isSome || !r.any fun d => d.hkey.isNone && d.key core == c.key core && d.out == c.out) && distinctOn core r

/-- Whether the bits of entries bound at placement are clear on a core (R59). -/
def State.unboundOn (s : State) (a : Act) (core : Nat) : Bool :=
  distinctOn core a.chans && a.chans.all fun c => c.hkey.isSome || !s.isBound (c.key core) c.out

/-- Whether a scope's instance that holds one core holds another (R260). -/
def scopeHolds (scope a b : Nat) : Bool :=
  match scope with
  | 1 => a == b
  | 2 => a / 4 == b / 4
  | 3 => a / 8 == b / 8
  | _ => decide (4 ≤ scope)

/-- Whether a commit has performed its first steps and not yet its `XAMO`, the last of what it releases (R78). -/
def Commit.unreleased (c : Commit) : Bool := (c.step == 4 || c.step == 5) && (match c.act with | .amo .. => true | _ => false)

/-- Whether a count that would make an activation ready on a core is of a commit that is not yet released to it (R64, R78, R259). -/
def State.unreleased (s : State) (a : Act) (core : Nat) : Bool :=
  s.rows.any fun e => match e.2.task with
    | some t => t.commit.any (fun c => c.unreleased) && scopeHolds t.cscope t.core core &&
        t.handles.any fun h => h.adv != 0 && a.chans.any fun c => c.key core == h.hkey
    | none => false

/-- The level a core allows (R58, R67): the lowest of its eight charging islands (log 12). -/
def State.levelOf (s : State) (core : Nat) : Nat := ((List.range 8).map fun i => (s.island (core * 8 + i)).lvlmax).foldl min 3

/-- The die whose `CTX` port a stalled access of the device uses (R361): that of the row, core or pipeline it belongs to, else a firmware
core's. -/
def State.missDie (s : State) (m : Miss) : Nat :=
  match m.who with
  | .row r => r / 96
  | .engine _ k => if k < 160 then k / 40 else s.firstDie (partOf m.cx)
  | .pipe cx q _ => (((s.ctx cx).bind fun x => x.pipes.find? fun p => p.q == q).map fun p => p.core / 8).getD (s.firstDie (partOf m.cx))
  | .record _ _ die => die
  | _ => s.firstDie (partOf m.cx)

/-- Whether a context drains from a core (R247): a miss of its own that has reached the drain limit concerns the core, or the core's die where the
device stalls (R361). -/
def State.drainedOn (s : State) (cx core : Nat) : Bool :=
  let dev := fun (m : Miss) => m.drained && m.cx == cx && s.missDie m == core / 8
  (s.ports.any fun e => match e.2.miss with
    | some m => m.drained && m.cx == cx && (if e.1 < 384 then e.1 / 12 == core else if e.1 < 448 then (e.1 - 384) / 2 == core else portDie e.1 == core / 8)
    | none => false) || s.pendW.any (fun w => dev w.miss) || s.pendR.any dev

/-! ## Frozen tasks (R247, R322) -/

/-- Whether a row is frozen, or is to be at its next boundary. -/
def Task.frozen (t : Task) : Bool := t.froPre || t.froDrain || t.froBrk

/-- Whether a row waits on a translation of its own: a walk or a miss at its port, or an access of the device (R243, R246, R361). -/
def State.translating (s : State) (r : Nat) : Bool :=
  (s.port r).walk.isSome || (s.port r).miss.isSome || s.pendR.any fun (m : Miss) => m.who == Who.row r

/-- Whether a task stands at an instruction boundary at which it was to freeze (R322). -/
def State.lulled (s : State) (r : Nat) (t : Task) : Bool :=
  t.commit.isNone && (t.froPre || t.froBrk) && !t.charged && !s.translating r

/-- Whether step 2 of a context's drain from a core is over: no task of it runs there but those that the drain stalled, and its pipelines there are cut
or parked, but for one that holds such a task (R247). -/
def State.drainRest (s : State) (cx core : Nat) : Bool :=
  ((rowsOf core).all fun q => (s.task q).all fun u => u.cx != cx || (u.commit.isNone && u.froDrain) || s.lulled q u)
    && (s.ctx cx).all fun x => x.pipes.all fun p => p.core != core || p.cut == 3 || p.park == 2
      || p.hosts.any fun h => h.busy && (s.task h.row).any fun u => u.froDrain

/-- Whether a context is descheduled from a core that it drains from (R247 step 4). -/
def State.offCore (s : State) (cx core : Nat) : Bool := s.drainedOn cx core && s.drainRest cx core

/-- Whether a task stands frozen: at the instruction that a drain stalled, once the rest of its context there has ended, or at the boundary after the
one in flight (R247, R322). -/
def State.stands (s : State) (r : Nat) (t : Task) : Bool :=
  (t.commit.isNone && t.froDrain && (!s.translating r || s.drainRest t.cx (r / 12))) || s.lulled r t

/-- Whether a context dispatches at all at this moment (R304, R325, R356); once a fault of it is recorded it does not (log 21). -/
def State.dispatches (s : State) (cx : Nat) : Bool :=
  match s.ctx cx with
  | none => false
  | some x => !x.halt.halted && x.halt.fault.isNone && x.dbg.state == 0 && x.mig != 1 && x.mig != 4 && !s.descheduled cx

/-- Whether an activation is admissible on a core (R58, R59). -/
def State.admissible (s : State) (cx : Nat) (x : Ctx) (a : Act) (core : Nat) : Bool :=
  let w := actImage s.mem x a
  let c := s.core core
  (placeCores w).contains core && c.part == some (partOf cx) && c.target.isNone && !(s.die (core / 8)).stopped && !s.drainedOn cx core
    && decide (lbLvl w ≤ s.levelOf core) && readyOn s.mem a core == some true && !s.unreleased a core && s.unboundOn a core
    && (match x.groups.find? (fun g => a.grp == some g.id) with
        | some g => (match g.placed with
          | some n => if lbGspan w then n / 4 == core / 4 else n == core
          | none => true)
        | none => true)

/-! ## Activation of a task -/

/-- The registers of R44. -/
def newTask (cx core row : Nat) (w npkt : Nat) (a0 a1 blk tid gid : Word) (hs : List Handle) : Task :=
  { cx := cx, core := core, row := row, pc := BitVec.ofNat 64 (lbEntry w)
    s := ((((Vector.replicate 32 0).set 1 a0).set 2 a1).set 3 blk).set 4 gid
    v := Vector.replicate 32 (Vector.replicate 16 0), k := Vector.replicate 8 0, cfg := Vector.replicate 256 0
    tid := tid, gid := gid, seed := 0, srctr := 0, fmt := 0, flags := 0, meter := 48, budget := 64 * npkt
    measured := lbMode w, smf := lbSmf w, lvl := lbLvl w, cscope := lbScope w, dark := none
    staged := [], nstore := 0, nbytes := 0, nchw := 0, ncmd := 0, handles := hs, block := blk.toNat, gsz := lbGsz w, gspan := lbGspan w
    grp := none, bound := none, stage := none, pkt := none, receipt := false, vf := 0
    froPre := false, froDrain := false, froBrk := false, freed := false, faulted := false, ir := 0, charged := false, commit := none }

/-- The handles of an activation on a core, as R52 and R101 record them. -/
def newHandles (m : List Host.Cell) (cs : List Chan) (core : Nat) : List Handle :=
  cs.map fun c =>
    let k := c.key core
    match chanHdr m c.quad k with
    | some h => ⟨c.out, c.quad, k, c.hkey.isNone, h.slotSz, h.logn, if c.out then h.wcnt else h.rcnt, guarantee m c k h, 0⟩
    | none => ⟨c.out, c.quad, k, c.hkey.isNone, 4, 2, 0, 0, 0⟩

/-- Puts a task on a row (R66, R232): the idle bank is filled and powers it, and slices of another context's task become zero. -/
def State.place (s : State) (r : Nat) (t : Task) : State :=
  let w := s.row r
  let s := if w.sliceCx = some t.cx then s else { s with mem := clearRange s.mem (laneKey r 0 0) 65536 }
  s.setRow r { w with task := some t, bankB := !w.bankB, sliceCx := some t.cx, gated := false }

/-- The first poisoned header or tag of an activation's channels, as resolved for cores (R328). -/
def State.checkPoison (s : State) (a : Act) (cores : List Nat) : Option Nat :=
  cores.findSome? fun n => a.chans.findSome? fun c => s.chanPoison c.quad (c.key n)

/-- The granule of an activation's queue entry, where it is poisoned (R62, R328). -/
def State.entryPoison (s : State) (a : Act) : Option Nat :=
  if a.bound then none else (s.poisoned a.key 64).map fun _ => (a.seg + 64 * a.idx) / 256 * 256

/-- What forbids the reading of an activation's entry, and of its channels on cores: a violation (R231) or a data error (R328), with its class, detail
and address. -/
def State.chanBad (s : State) (cx : Nat) (a : Act) (cores : List Nat) : Option (Nat × Nat × Nat) :=
  match s.entryPoison a with
  | some g => some (12, 0, g)
  | none =>
    match cores.findSome? fun n => s.chanProt cx a n with
    | some off => some (3, 1, off)
    | none => (s.checkPoison a cores).map fun off => (12, 0, off)

/-- Dispatches an activation on a row (R66, R44): the pool pays, the entry is given up, the task stands on the row. `idx` is the index of a
spanning launch (R286), and `take` whether the entry goes with it. A channel that may not be read then ends the dispatch in a fault (R231, R328). -/
def State.dispatch (s : State) (cx : Nat) (a : Act) (r : Nat) (idx : Option Nat) (take : Bool) : State :=
  match s.ctx cx with
  | none => s
  | some x =>
    if let some (cls, det, off) := s.chanBad cx a [r / 12] then s.fault cx cls det 63 15 off 0 []
    else
    match s.debit (partOf cx) a.npkt with
    | none => s
    | some s =>
      let core := r / 12
      let w := actImage s.mem x a
      let hs := newHandles s.mem a.chans core
      let i := idx.getD 0
      let t := newTask cx core r w a.npkt (BitVec.ofNat 64 (lbArg0 w)) (BitVec.ofNat 64 (lbArg1 w + i)) (BitVec.ofNat 64 a.blk)
        (a.tid + BitVec.ofNat 64 (i * 16)) (BitVec.ofNat 64 a.gid) hs
      let t := { t with grp := a.grp, bound := if a.bound then some a.id else none, pkt := a.pkt, receipt := a.receipt, vf := x.setup.vf }
      let s := (s.place r t).tally cx a.receipt a.npkt 0
      let s := hs.foldl (fun s h => if h.placed then s.setBind h.hkey h.out true else s) s
      let s := s.modCtx cx fun x => { x with
        acts := if take then x.acts.filter fun b => b.id != a.id else x.acts
        groups := x.groups.map fun g => if a.grp = some g.id ∧ g.placed = none then { g with placed := some core } else g }
      if a.bound then s else s.retireHead cx a.qsel

/-- The bits of an activation that retires (R49, R231): all of an enqueued copy's, and of a bound block's those bound at placement. -/
def State.releaseHandles (s : State) (t : Task) : State :=
  if t.stage.isSome then s
  else t.handles.foldl (fun s h => if t.bound.isNone || h.placed then s.clearBind t.cx t.core (t.row % 12) t.pc.toNat h.quad h.hkey h.out else s) s

end Sys2Proof.Machine
end

