-- ==== Sys2Proof/Machine/Queue.lean ====
section
/-! DEFINITION. Engine queues (R171, R184, R185), dependency slots (R186, R187) and `QFENCE` joins (R204). -/

namespace Sys2Proof.Machine

/-- The key of a queue of a context (R326): 5 × core + code, and 160 + die for `Q.IN`. -/
def eqKey (core code : Nat) : Nat := if code = 5 then 160 + core / 8 else 5 * core + code

/-- The queue code of a key (R22). -/
def codeOf (k : Nat) : Nat := if k < 160 then k % 5 else 5

def getEq (x : Ctx) (k : Nat) : EQ := getT x.eqs k ⟨0, 0, []⟩

/-- Which opcodes a queue accepts (R171, R182). -/
def accepts (code opc : Nat) : Bool :=
  match opc with
  | 0x01 | 0x02 | 0x03 | 0x06 | 0x0C => code == 1 || code == 2
  | 0x04 | 0x05 => code == 3
  | 0x07 | 0x08 | 0x09 => code == 0
  | 0x0A => code == 4
  | 0x0B => code == 5
  | 0x0D | 0x0E => decide (code ≤ 5)
  | _ => false

def opcOf (w0 : Nat) : Nat := bits w0 120 8
def setsOf (w0 : Nat) : Nat := bits w0 99 5
def waitmOf (w0 : Nat) : Nat := bits w0 104 16

/-- A command that `EMIT` and CMD take for a queue (R103, R183, R282). -/
def cmdValid (code w0 w1 : Nat) : Bool := (decodeCommand w0 w1).isSome && accepts code (opcOf w0)

/-- Commands of a VF's contexts appended with a slot and not completed (R303). -/
def State.slottedOf (s : State) (vf : Nat) : Nat :=
  (s.ctxs.map fun e => if e.2.setup.vf = vf then
    (e.2.eqs.map fun q => (q.2.cmds.filter fun c => setsOf c.w0 != 31).length).sum else 0).sum

/-- Whether a queue has room for one more command (R184, R303). -/
def State.roomFor (s : State) (cx core code w0 : Nat) : Bool :=
  match s.ctx cx with
  | none => true
  | some x =>
    let d := (s.vf x.setup.vf).dcnt
    decide ((getEq x (eqKey core code)).cmds.length < 1024) && (setsOf w0 == 31 || d == 0 || decide (s.slottedOf x.setup.vf < d))

/-- The commands a `QFENCE` joins (R204): those appended before it to the named queues, of the core that appends it, and not completed. -/
def joinSet (x : Ctx) (core w0 : Nat) : List (Nat × Nat) :=
  if opcOf w0 ≠ 0x0E then []
  else (List.range 6).flatMap fun q => if w0 / 2 ^ q % 2 = 1 then (getEq x (eqKey core q)).cmds.map fun c => (eqKey core q, c.seq) else []

/-- A slot's pending setter completes (R186). -/
def slotDone (x : Ctx) (core w0 : Nat) : Tbl Slot :=
  if setsOf w0 = 31 then x.slots
  else
    let sk := 16 * core + setsOf w0
    let d := getT x.slots sk ⟨false, 0⟩
    putT x.slots sk ⟨d.set || d.pend == 1, d.pend - 1⟩

/-- A command leaves every join set that holds it (R204). -/
def unjoin (x : Ctx) (k seq : Nat) : Ctx :=
  { x with eqs := x.eqs.map fun e => (e.1, { e.2 with cmds := e.2.cmds.map fun c => { c with join := c.join.filter fun j => j != (k, seq) } }) }

/-- Every slot a command waits on is set (R187). -/
def slotsSet (x : Ctx) (core w0 : Nat) : Bool :=
  (List.range 16).all fun i => waitmOf w0 / 2 ^ i % 2 == 0 || (getT x.slots (16 * core + i) ⟨false, 0⟩).set

/-- A command of a queue, by its number. -/
def findCmd (x : Ctx) (k seq : Nat) : Option Cmd := (getEq x k).cmds.find? fun c => c.seq == seq

/-- A command changed in its place. -/
def State.modCmd (s : State) (cx k seq : Nat) (f : Cmd → Cmd) : State :=
  s.modCtx cx fun x =>
    let e := getEq x k
    { x with eqs := putT x.eqs k { e with cmds := e.cmds.map fun c => if c.seq = seq then f c else c } }

/-- Whether a command has not issued yet. -/
def Cmd.waits (c : Cmd) : Bool := c.st == .queued || c.st == .paid

/-- Whether a command is an issued `MXT` whose last swap has taken place (R163, R172), every write of it perhaps performed. -/
def Cmd.swapped (c : Cmd) : Bool :=
  match decodeCommand c.w0 c.w1 with
  | some (.mxt _ o) => c.st == .done || (c.st == .issued && c.chunk == o.km1.toNat)
  | _ => false

/-- Whether a command is an `MXT` without a swap token. -/
def Cmd.swapless (c : Cmd) : Bool :=
  match decodeCommand c.w0 c.w1 with
  | some (.mxt _ o) => o.swap0 == 0
  | _ => false

/-- In `Q.MX` the command behind the head issues before the head has completed (R172): a `BLOAD` behind an `MXT` whose last swap has taken place, an
`MXT` with `SWAP0` 0 behind a `BLOAD` that is filling. A `BLOAD` that still waits, for its slots, the pool or the end of a stop, leaves the turn to
the `MXT`; one whose wait has been satisfied waits for no slot again (R187). -/
def overlaps (x : Ctx) (c d : Cmd) : Bool :=
  d.waits && ((c.swapped && opcOf d.w0 == 0x07 && (d.sat || slotsSet x d.core d.w0) && d.due.isNone && x.halt.fault.isNone &&
      !x.halt.halted && x.dbg.state == 0)
    || (opcOf c.w0 == 0x07 && c.st == .done && d.swapless))

/-- The command its engine examines (R172): the head of the queue; in `Q.MX` the one behind it where the two overlap; in `Q.IN` an `INTAKE` may
follow others that hold places (R201). -/
def headCmd (x : Ctx) (k : Nat) : Option Cmd :=
  let cs := (getEq x k).cmds
  if k < 160 then
    match cs with
    | c :: d :: _ => if k % 5 = 0 ∧ overlaps x c d = true then some d else some c
    | _ => cs.head?
  else
    match cs.find? fun c => c.waits with
    | some c => if opcOf c.w0 = 0x0B ∧ cs.all (fun d => d.waits || opcOf d.w0 == 0x0B) then some c else (match cs.head? with
      | some d => if d.seq = c.seq then some c else none
      | none => none)
    | none => cs.head?

/-- The heads of the queues whose slots are all set have satisfied their wait for good (R187). The head is the first command that has not issued: it
stands there while the one ahead of it completes, which R172 makes a condition of its own. -/
def Ctx.latch (x : Ctx) : Ctx :=
  { x with eqs := x.eqs.map fun e =>
      match e.2.cmds.find? Cmd.waits with
      | some c => if slotsSet x c.core c.w0 then (e.1, { e.2 with cmds := e.2.cmds.map fun d => if d.seq = c.seq then { d with sat := true } else d }) else e
      | none => e }

/-- Whether a command works on what the owner of a core's queues has: the array and the deck (R170). -/
def usesArray (code w0 : Nat) : Bool := code == 0 || opcOf w0 == 0x06

/-- New work of the owner of a core's array keeps it until the next slice boundary (R170, log 16). -/
def State.keepArray (s : State) (cx core code w0 : Nat) : State :=
  if usesArray code w0 ∧ (s.core core).owner = some cx then s.modCore core fun c => { c with handover := false } else s

/-- Appends a command (R184 to R186): the next number of its queue, and its slot pending. -/
def State.append (s : State) (cx core code w0 w1 : Nat) (pkt : Option Nat) (receipt : Bool) (pipe : Option (Nat × Nat)) : State :=
  (s.keepArray cx core code w0).modCtx cx fun x => Ctx.latch <|
    let k := eqKey core code
    let e := getEq x k
    let c : Cmd := ⟨e.appended + 1, core, w0, w1, pkt, receipt, .queued, [], joinSet x core w0, pipe, 0, [], false, none, false⟩
    let sk := 16 * core + setsOf w0
    { x with
      eqs := putT x.eqs k { e with appended := e.appended + 1, cmds := e.cmds ++ [c] }
      slots := if setsOf w0 = 31 then x.slots else putT x.slots sk ⟨false, (getT x.slots sk ⟨false, 0⟩).pend + 1⟩ }

/-- Discards the commands of a context that have not issued (R206, R325): they never complete, and their joins no longer wait for them. -/
def dropQueued (x : Ctx) : Ctx :=
  let gone := x.eqs.flatMap fun e => (e.2.cmds.filter Cmd.waits).map fun c => (e.1, c.seq)
  { x with eqs := x.eqs.map fun e =>
      let lost := ((e.2.cmds.filter Cmd.waits).head?.map fun c => c.seq).getD 0
      (e.1, { e.2 with
        lost := if e.2.lost = 0 then lost else e.2.lost
        cmds := (e.2.cmds.filter fun c => !c.waits).map fun c => { c with join := c.join.filter fun j => !gone.contains j } }) }

/-- The highest number up to which every command of a queue has completed (R326). -/
def doneUpTo (e : EQ) : Nat :=
  let m := match e.cmds.head? with
    | some c => c.seq - 1
    | none => e.appended
  if e.lost = 0 then m else min m (e.lost - 1)

end Sys2Proof.Machine
end

