-- ==== Sys2Proof/Machine/Front.lean ====
section
/-! DEFINITION. The Front (R207 to R227): pipeline geometry, rings, scrolls, markers, isobar cuts, parking and the loader's refusals. -/

namespace Sys2Proof.Machine

/-! ## Stage descriptors and geometry (R208, R214, R217) -/

def stCode (w : Nat) : Nat := bits w 0 64
def stArea (w : Nat) : Nat := bits w 64 64
def stSsize (w : Nat) : Nat := bits w 128 15
def stFbd (w : Nat) : Nat := bits w 144 4
def stTin (w : Nat) : Nat := bits w 152 8
def stTout (w : Nat) : Nat := bits w 160 8
def stPps (w : Nat) : Nat := bits w 168 12
def stPref (w : Nat) : Nat := bits w 384 128

def Pipe.st (p : Pipe) (i : Nat) : Nat := (p.stages[i]?).getD 0
def Pipe.r (p : Pipe) : Nat := min p.rwin p.nstg
def Pipe.total (p : Pipe) : Nat := p.nstg * p.npass
def Pipe.stage (p : Pipe) (pos : Nat) : Nat := pos % p.nstg

/-- The smallest log from 2 to 12 whose ring holds `n` slots; 13 where none does. -/
def ringLog (n : Nat) : Nat := ((List.range 11).map (· + 2)).foldr (fun l acc => if n ≤ 2 ^ l then l else acc) 13

/-- The stride of a ring of 4-byte slots (R217). -/
def ringStride (l : Nat) : Nat := cdiv (64 + 64 * cdiv (2 ^ l) 256 + 4 * 2 ^ l) 64 * 64

/-- P of R217. -/
def Pipe.maxSec (p : Pipe) : Nat :=
  (p.stages.map fun w => p.nsec * (stTout w + 1)).foldl max (p.nsec * (stTin (p.st 0) + 1))

def Pipe.lf (p : Pipe) : Nat := ringLog p.maxSec
def Pipe.sf (p : Pipe) : Nat := ringStride p.lf

/-- The feedback rings of the stages before stage i (R217). -/
def Pipe.fbBefore (p : Pipe) (i : Nat) : Nat :=
  ((p.stages.take i).map fun w => if stFbd w = 0 then 0 else ringStride (ringLog (stTout w + 1))).sum

def Pipe.fbBase (p : Pipe) : Nat := 16384 * p.r + (p.r + 2) * p.sf
def Pipe.recOff (p : Pipe) : Nat := p.fbBase + p.fbBefore p.nstg
def Pipe.workLen (p : Pipe) : Nat := p.recOff + 256

/-- The source that feeds stage i, if any (R220). -/
def Pipe.sourceOf (p : Pipe) (i : Nat) : Option Nat :=
  (List.range p.nstg).find? fun j => stFbd (p.st j) != 0 && decide (stFbd (p.st j) ≤ j) && j - stFbd (p.st j) == i

/-- The ring map (R217): which of the R + 1 shared forward rings serves the input of a position. -/
def Pipe.freeRing (p : Pipe) : Nat := ((List.range (p.r + 1)).find? fun i => p.rings.all fun e => e.2 != i).getD 0
def Pipe.addLink (p : Pipe) (n : Nat) : Pipe := if (findT p.rings n).isSome then p else { p with rings := p.rings ++ [(n, p.freeRing)] }
def Pipe.ringKey (p : Pipe) (i : Nat) : Nat := padKey p.core (p.work + 16384 * p.r + i * p.sf)

/-- Ring headers: the input of position n, the last stage's output, and the feedback ring of stage i. -/
def Pipe.linkKey (p : Pipe) (n : Nat) : Nat := p.ringKey ((findT p.rings n).getD 0)
def Pipe.outKey (p : Pipe) : Nat := p.ringKey (p.r + 1)
def Pipe.fbKey (p : Pipe) (i : Nat) : Nat := padKey p.core (p.work + p.fbBase + p.fbBefore i)

/-- The forward output of a position. -/
def Pipe.fwdKey (p : Pipe) (pos : Nat) : Nat := if p.stage pos + 1 = p.nstg then p.outKey else p.linkKey (pos + 1)

/-- The position whose input an isobar that leaves a position enters: the next of its pass that has not been saved for good; none where the last stage
drops it (R224). -/
def Pipe.nextLink (p : Pipe) (pos : Nat) : Option Nat :=
  (((List.range p.nstg).map fun i => pos + 1 + i).find? fun n => p.stage n == 0 || !p.done.contains n).filter fun n => p.stage n != 0

/-- The header of a ring that has log `l`; none where it is not as the Front set it up, or counts more slots than the ring has (R48, R218). -/
def ringHdr (m : List Host.Cell) (l k : Nat) : Option ChanHdr :=
  (chanHdr m false k).filter fun h => h.logn == l && h.slotSz == 4 && decide (h.filled ≤ 2 ^ l)

/-- The log of the feedback ring of stage i (R217). -/
def Pipe.lb (p : Pipe) (i : Nat) : Nat := ringLog (stTout (p.st i) + 1)

/-- The headers of a forward ring and of a feedback ring. -/
def Pipe.fwdHdr (p : Pipe) (m : List Host.Cell) (k : Nat) : Option ChanHdr := ringHdr m p.lf k
def Pipe.fbHdr (p : Pipe) (m : List Host.Cell) (i : Nat) : Option ChanHdr := ringHdr m (p.lb i) (p.fbKey i)

def Pipe.slotKey (p : Pipe) (slot : Nat) : Nat := padKey p.core (p.work + 16384 * slot)

def State.pipe (s : State) (cx q : Nat) : Option Pipe :=
  match s.ctx cx with
  | some x => x.pipes.find? fun p => p.q == q
  | none => none

def State.setPipe (s : State) (cx : Nat) (p : Pipe) : State :=
  s.modCtx cx fun x => { x with pipes := x.pipes.map fun o => if o.q = p.q then p else o }

def Pipe.setHost (p : Pipe) (h : Hosted) : Pipe := { p with hosts := p.hosts.map fun o => if o.slot = h.slot then h else o }

/-! ## Rings -/

/-- An empty ring (R48, R217). -/
def State.ringInit (s : State) (hkey l : Nat) : State := s.writeN hkey 64 (l * 2 ^ 132)

/-- One slot of a ring of log `l` written after those counted, with its tag, and counted. -/
def State.ringPut (s : State) (l hkey : Nat) (v tag : Nat) : State :=
  match ringHdr s.mem l hkey with
  | none => s
  | some h => ((s.writeN (slotKey hkey l 4 h.wcnt) 4 v).setTag hkey l h.wcnt tag).advance hkey true 1

/-- What keeps the Front from reading forward rings: a poisoned header or tag (R328), or a header that is not as it left it (R218); the class and the
pad offset. -/
def State.ringsBad (s : State) (p : Pipe) (ks : List Nat) : Option (Nat × Nat) :=
  match ks.findSome? (s.chanPoison false) with
  | some a => some (12, a)
  | none => if ks.any fun k => (p.fwdHdr s.mem k).isNone then some (8, 0) else none

/-- Tokens written with a marker after them. DESIGN CHOICE (R101, R210): the four bytes of a marker's slot are written as zero (log 32). -/
def State.ringSection (s : State) (l hkey : Nat) (vs : List Nat) (tag : Nat) : State :=
  (vs.foldl (fun s v => s.ringPut l hkey v 0) s).ringPut l hkey 0 tag

/-- What a ring still holds leaves it. -/
def State.ringDrop (s : State) (l hkey : Nat) : State :=
  match ringHdr s.mem l hkey with
  | some h => if h.filled = 0 then s else s.advance hkey false h.filled
  | none => s

/-- The input of stage 0 in a pass (R210, R217). -/
def State.feed (s : State) (p : Pipe) (pos : Nat) : State :=
  let pass := pos / p.nstg
  let tin := stTin (p.st 0)
  (List.range p.nsec).foldl (fun s sec =>
    s.ringSection p.lf (p.linkKey pos) ((List.range tin).map fun t => getN s.mem (padKey p.core (p.inbuf + 4 * ((pass * p.nsec + sec) * tin + t))) 4)
      (if sec + 1 = p.nsec then 2 else 1)) s

/-- The first poisoned granule of the tokens that feed a pass, as a pad offset (R328). -/
def State.feedPoison (s : State) (p : Pipe) (pos : Nat) : Option Nat :=
  let n := 4 * p.nsec * stTin (p.st 0)
  if p.stage pos ≠ 0 then none
  else (s.poisoned (padKey p.core (p.inbuf + pos / p.nstg * n)) n).map fun g => g * 256 - padKey p.core 0

/-- Whether a position has emitted end-of-pass. -/
def Pipe.emitted (p : Pipe) (pos : Nat) : Bool := p.done.contains pos || (p.hosts ++ p.parked).any fun h => h.pos == pos && h.eop && (h.st != .restoreWait || h.parking)

/-- A target stays pinned until its source has emitted end-of-pass (R212, R220). -/
def Pipe.pinned (p : Pipe) (h : Hosted) : Bool :=
  match p.sourceOf (p.stage h.pos) with
  | some j => !p.emitted (h.pos - p.stage h.pos + j)
  | none => false

/-- Every hosted position that has emitted end-of-pass, runs nothing and is not pinned goes to scroll (R211, R212). -/
def Pipe.retire (p : Pipe) : Pipe :=
  { p with hosts := p.hosts.map fun h => if h.st = .hosted ∧ h.eop ∧ !h.busy ∧ !p.pinned h then { h with st := .saveWait } else h }

/-! ## The Front record (R358) -/

/-- The positions the record shows: those assigned to a row, and while the pipeline is parked or being parked those it has saved as well, as they
stood (R225). -/
def Pipe.shown (p : Pipe) : List Hosted := (p.hosts.filter fun h => h.st != .restoreWait) ++ if p.park = 0 then [] else p.parked

def frontRecord (p : Pipe) : Nat :=
  let tail := p.shown.foldl (fun a h => min a h.pos) p.next
  let deep := p.shown.foldl (fun a h => max a h.pos) (if p.shown.isEmpty then p.next - 1 else 0)
  let mask (f : Hosted → Bool) := (p.shown.map fun h => if f h then 2 ^ h.slot else 0).sum
  tail % 2 ^ 32 + deep % 2 ^ 32 * 2 ^ 32 + mask (fun _ => true) * 2 ^ 64 + mask (fun h => h.eop && p.pinned h) * 2 ^ 74
    + (if p.cut = 3 then 2 ^ 84 else 0) + (if p.park = 2 then 2 ^ 85 else 0)
    + (p.shown.map fun h => h.pos % 2 ^ 32 * 2 ^ (128 + 32 * h.slot)).sum

def Pipe.recKey (p : Pipe) : Nat := padKey p.core (p.work + p.recOff)

/-- Writes a pipeline's record, and keeps what was written. -/
def State.frontRecord (s : State) (cx : Nat) (p : Pipe) : State :=
  (s.writeN p.recKey 56 (Machine.frontRecord p)).setPipe cx { p with written := Machine.frontRecord p }

/-- Whether a pipeline's record still stands as the Front wrote it (R218). -/
def State.recordOk (s : State) (p : Pipe) : Bool := getN s.mem p.recKey 56 == p.written

/-- The pipelines of a core, with their contexts. -/
def State.pipesOn (s : State) (core : Nat) : List (Nat × Nat) :=
  s.ctxs.flatMap fun e => (e.2.pipes.filter fun p => p.core == core).map fun p => (e.1, p.q)

/-- The records of a core's pipelines that have changed are written. -/
def State.recordsOn (s : State) (core : Nat) : State :=
  (s.pipesOn core).foldl (fun s e => match s.pipe e.1 e.2 with
    | some p => if Machine.frontRecord p = p.written then s else s.frontRecord e.1 p
    | none => s) s

/-! ## Scrolls -/

/-- Scrolls in flight on a core (R211, R221). -/
def State.scrolling (s : State) (core : Nat) : Nat :=
  (s.ctxs.map fun e => (e.2.pipes.map fun p => if p.core = core then
    (p.hosts.filter fun h => h.st == .restoring || h.st == .saving).length else 0).sum).sum

/-- A row leaves its pipeline: it is free again, and deferred decisions are raised (R294). -/
def State.unclaim (s : State) (row : Nat) : State :=
  (s.modRow row fun w => { w with claim := none }).undefer (((s.core (row / 12)).part).getD 0) (some (row / 96))

/-- Whether a waiting restore may begin (R215, R222, R224, R225): also once the prefetch of its position has been appended. -/
def Pipe.mayRestore (p : Pipe) (h : Hosted) : Bool :=
  p.cut != 3 && p.park == 0 && !p.prefs.contains (if h.parking then h.pos else p.next, none)
    && (h.parking || (decide (p.next < p.total) && (decide (p.next < p.nstg) || p.done.contains (p.next - p.nstg))))

/-- The prefetch of a position is to be appended (R222). -/
def Pipe.wantPref (p : Pipe) (pos : Nat) : Pipe :=
  if pos < p.total ∧ stPref (p.st (p.stage pos)) ≠ 0 then { p with prefs := p.prefs ++ [(pos, none)] } else p

/-- Appends the prefetches that wait, in position order, as far as `Q.CP0` has room (R184, R222). -/
def State.appendPrefs (s : State) (cx : Nat) (p : Pipe) : List (Nat × Option Nat) → State
  | [] => s
  | (_, some _) :: r => s.appendPrefs cx p r
  | (pos, none) :: r =>
    let w := stPref (p.st (p.stage pos))
    if s.roomFor cx p.core 1 w then
      let n := ((s.ctx cx).map fun x => (getEq x (eqKey p.core 1)).appended + 1).getD 0
      let s := s.append cx p.core 1 w 0 (some p.pkt) false (some (p.q, pos))
      let s := match s.pipe cx p.q with
        | some p => s.setPipe cx { p with prefs := p.prefs.map fun e => if e = (pos, none) then (pos, some n) else e }
        | none => s
      s.appendPrefs cx p r
    else s

/-- A restore begins (R211, R215): the position is assigned, a ring serves its output and stage 0 is fed; a parked position only returns. A ring
whose header is inconsistent is a pipeline fault (R218), a poisoned header, tag or token of the pass a data error (R328). -/
def State.beginRestore (s : State) (cx : Nat) (p : Pipe) (h : Hosted) : State :=
  if h.parking then s.setPipe cx (p.setHost { h with st := .restoring })
  else
    let n := p.next
    let p := p.addLink n
    let p := if p.stage n + 1 = p.nstg then p else p.addLink (n + 1)
    let q := ({ p with next := n + 1 }.setHost { h with st := .restoring, pos := n, sec := 0, eop := false, busy := false }).wantPref (n + p.r)
    if let some (cls, a) := s.ringsBad p [p.linkKey n, p.fwdKey n] then (s.setPipe cx q).fault cx cls 0 p.core (h.row % 12) a 0 []
    else if let some a := s.feedPoison p n then (s.setPipe cx q).fault cx 12 0 p.core (h.row % 12) a 0 []
    else
      let s := if p.stage n = 0 then s.feed p n else s
      (s.setPipe cx q).appendPrefs cx q q.prefs

/-- Whether a waiting scroll of a host can start now. -/
def Pipe.startable (p : Pipe) (h : Hosted) : Bool :=
  match h.st with
  | .saveWait => p.cut != 3
  | .restoreWait => p.mayRestore h
  | _ => false

/-- The stage a waiting scroll is ordered by (R211). -/
def Pipe.order (p : Pipe) (h : Hosted) : Nat := if h.st = .restoreWait ∧ !h.parking then p.next else h.pos

/-- The waiting scrolls of a core that can start: context, pipeline, slot and order. -/
def State.waiting (s : State) (core : Nat) : List (Nat × Nat × Nat × Nat) :=
  s.ctxs.flatMap fun e => e.2.pipes.flatMap fun p => if p.core = core then
    (p.hosts.filter p.startable).map fun h => (e.1, p.q, h.slot, p.order h) else []

/-- Starts waiting scrolls, shallower first, while a scroll place is free (R211). -/
def State.pump (s : State) (core : Nat) : Nat → State
  | 0 => s
  | n + 1 =>
    if 2 ≤ s.scrolling core then s
    else
      match (s.waiting core).foldl (fun (best : Option (Nat × Nat × Nat × Nat)) w => match best with
          | some b => if w.2.2.2 < b.2.2.2 then some w else best
          | none => some w) none with
      | none => s
      | some (cx, q, slot, _) =>
        match s.pipe cx q with
        | none => s
        | some p =>
          match p.hosts.find? fun h => h.slot == slot with
          | none => s
          | some h =>
            let s := if h.st = .saveWait then s.setPipe cx (p.setHost { h with st := .saving }) else s.beginRestore cx p h
            s.pump core n

/-- Free general rows of a core (R272). -/
def State.freeGeneral (s : State) (core : Nat) : List Nat :=
  ((List.range 10).map fun i => core * 12 + i).filter fun r => (s.task r).isNone && (s.row r).claim.isNone

/-- Whether a pipeline may hold rows now: its core is its partition's and stays so (R301), and its VF's slice runs (R304). -/
def State.bandRuns (s : State) (cx : Nat) (p : Pipe) : Bool :=
  p.park == 0 && (s.core p.core).part == some (partOf cx) && (s.core p.core).target.isNone && !s.descheduled cx

/-- Whether a row's restore waits after the save of its scroll (R215). -/
def Hosted.midScroll (h : Hosted) : Bool := h.st == .restoreWait && h.eop && !h.parking

/-- The counters are captured for scrolls whose restores still waited as their rows were freed: only then are they scrolls that free their rows (R221,
R351, log 24). -/
def State.endScrolls (s : State) (core : Nat) (hs : List Hosted) : State := (hs.filter Hosted.midScroll).foldl (fun s _ => s.capture core) s

/-- Rows that wait to host a position not yet assigned. -/
def Pipe.spare (p : Pipe) : List Hosted := p.hosts.filter fun h => h.st == .restoreWait && !h.parking

/-- The lowest slot that no position of the band has, hosted or parked. -/
def Pipe.freeSlot (p : Pipe) : Nat := ((List.range p.r).find? fun i => (p.hosts ++ p.parked).all fun h => h.slot != i).getD 0

/-- A free row joins the band: for the first parked position, which keeps its slot (R226), else for a position beyond the deepest (R211). -/
def State.claimRow (s : State) (cx : Nat) (p : Pipe) (row : Nat) : State :=
  let s := s.modRow row fun w => { w with claim := some (cx, p.q) }
  match p.parked with
  | h :: r => s.setPipe cx { p with parked := r, hosts := p.hosts ++ [{ h with row := row, st := .restoreWait, parking := true }] }
  | [] => s.setPipe cx { p with hosts := p.hosts ++ [⟨p.freeSlot, row, 0, .restoreWait, false, 0, false, false⟩] }

/-- Rows are claimed while the band lacks some and rows are free. DESIGN CHOICE (R211): of the free general rows the lowest each time (log 32). -/
def State.claimRows (s : State) (cx q : Nat) : Nat → State
  | 0 => s
  | n + 1 =>
    match s.pipe cx q with
    | none => s
    | some p =>
      if s.bandRuns cx p && decide (p.hosts.length < p.r) && (!p.parked.isEmpty || decide (p.next + p.spare.length < p.total)) then
        match s.freeGeneral p.core with
        | row :: _ => (s.claimRow cx p row).claimRows cx q n
        | [] => s
      else s

/-- An isobar that left with a position enters the input of the next one that stays, once there is room (R224, log 32). A ring that the Front cannot
read is the fault of R218 or R328. -/
def State.placeIso (s : State) (cx q : Nat) : State :=
  match s.pipe cx q with
  | none => s
  | some p =>
    match p.iso with
    | none => s
    | some n =>
      if let some (cls, a) := s.ringsBad p [p.linkKey n] then (if s.faulting cx then s else s.fault cx cls 0 p.core 15 a 0 [])
      else (match (p.fwdHdr s.mem (p.linkKey n)).map fun h => h.free with
      | some (_ + 1) => (s.ringPut p.lf (p.linkKey n) 0 3).setPipe cx { p with iso := none }
      | _ => s)

/-- A pipeline of a core goes on after a change: isobar, rows, prefetches (R211, R222, R226). -/
def State.bandGo (s : State) (cx q : Nat) : State :=
  let s := (s.placeIso cx q).claimRows cx q 10
  match s.pipe cx q with
  | some p => s.appendPrefs cx p p.prefs
  | none => s

/-- After any change on a core: its pipelines go on, waiting scrolls start, and the records are written (R217, R222). -/
def State.frontCore (s : State) (core : Nat) : State :=
  let s := (s.pipesOn core).foldl (fun s e => s.bandGo e.1 e.2) s
  (s.pump core 4).recordsOn core

/-- After a change of one pipeline. -/
def State.frontGo (s : State) (cx q : Nat) : State :=
  match s.pipe cx q with
  | none => s
  | some p => s.frontCore p.core

/-- A task's row becomes free, and the pipelines of its core may claim it. -/
def State.freeRowGo (s : State) (r : Nat) : State := (s.freeRow r).frontCore (r / 12)

/-- Whether every ring of a position is as the Front set it up (R218). -/
def Pipe.ringsOk (p : Pipe) (m : List Host.Cell) (pos : Nat) : Bool :=
  let i := p.stage pos
  (p.fwdHdr m (p.linkKey pos)).isSome && (p.fwdHdr m (p.fwdKey pos)).isSome && (p.sourceOf i).all (fun j => (p.fbHdr m j).isSome)
    && (stFbd (p.st i) == 0 || (p.fbHdr m i).isSome)

/-- The first poisoned header or tag of the rings of a position (R328). -/
def State.ringPoison (s : State) (p : Pipe) (pos : Nat) : Option Nat :=
  let i := p.stage pos
  ([p.linkKey pos, p.fwdKey pos] ++ ((p.sourceOf i).map p.fbKey).toList ++ if stFbd (p.st i) = 0 then [] else [p.fbKey i]).findSome? (s.chanPoison false)

/-- The first poisoned granule of the tokens at the head of a forward ring, as a pad offset (R328). -/
def State.tokenPoison (s : State) (p : Pipe) (k n : Nat) : Option Nat :=
  (p.fwdHdr s.mem k).bind fun h => (List.range n).findSome? fun t =>
    (s.poisoned (slotKey k h.logn 4 (h.rcnt + t)) 4).map fun g => g * 256 - padKey p.core 0

/-- What the Front does after a stage's commit (R210): inputs pass their markers, outputs get theirs, the last stage's tokens go to `OUTBUF`, but for a
poisoned one, which is a data error (R328). The last of a pass's sections ends it even where its tag has been written over, so that `OUTBUF` holds all
that is copied to it (R207, R218). DESIGN CHOICE (R101, R210): the four bytes of a marker's slot are written as zero (log 32). -/
def State.markers (s : State) (cx q pos : Nat) : State :=
  match s.pipe cx q with
  | none => s
  | some p =>
    match p.hosts.find? fun h => h.pos == pos && h.busy with
    | none => s
    | some h =>
      let i := p.stage pos
      let ik := p.linkKey pos
      match p.fwdHdr s.mem ik, p.ringsOk s.mem pos with
      | some ih, true =>
        let eop := tagAt s.mem ik ih.logn ih.rcnt == 2 || decide (p.nsec ≤ h.sec + 1)
        let s := s.advance ik false 1
        let s := match p.sourceOf i with
          | some j => s.advance (p.fbKey j) false 1
          | none => s
        let ok := p.fwdKey pos
        let s := s.ringPut p.lf ok 0 (if eop then 2 else 1)
        let s := if stFbd (p.st i) = 0 then s else s.ringPut (p.lb i) (p.fbKey i) 0 1
        let out := if i + 1 = p.nstg then stTout (p.st i) else 0
        let s := if out = 0 then s else
          if let some a := s.tokenPoison p ok out then s.fault cx 12 0 p.core (h.row % 12) a 0 [] else
          match p.fwdHdr s.mem ok with
          | some oh => ((List.range out).foldl (fun s t =>
              s.writeN (padKey p.core (p.outbuf + 4 * (p.outw + t))) 4 (getN s.mem (slotKey ok oh.logn 4 (oh.rcnt + t)) 4)) s).advance ok false (out + 1)
          | none => s
        let p := (p.setHost { h with busy := false, sec := h.sec + 1, eop := eop })
        (s.setPipe cx ({ p with outw := p.outw + out }.retire)).frontGo cx q
      | _, _ => s.fault cx 8 0 p.core (h.row % 12) 0 0 []

/-! ## Dispatch of a stage (R209, R216) -/

/-- A ring that holds `n` data tokens and the marker that ends them. -/
def sectionReady (m : List Host.Cell) (l k n : Nat) : Option Bool :=
  match ringHdr m l k with
  | none => none
  | some h => some (decide (n + 1 ≤ avail m k h) && tagAt m k h.logn (h.rcnt + n) != 0)

def roomReady (m : List Host.Cell) (l k n : Nat) : Option Bool := (ringHdr m l k).map fun h => decide (n ≤ h.free)

/-- The readiness of a position (R209, R216); none where a ring header is inconsistent (R218). -/
def Pipe.posReady (p : Pipe) (m : List Host.Cell) (pos : Nat) : Option Bool :=
  let i := p.stage pos
  let w := p.st i
  let fin := match p.sourceOf i with
    | some j => sectionReady m (p.lb j) (p.fbKey j) (stTout (p.st j))
    | none => some true
  let fout := if stFbd w = 0 then some true else roomReady m (p.lb i) (p.fbKey i) (stTout w + 1)
  match sectionReady m p.lf (p.linkKey pos) (stTin w), roomReady m p.lf (p.fwdKey pos) (stTout w + 1), fin, fout with
  | some a, some b, some c, some d => some (a && b && c && d)
  | _, _, _, _ => none

/-- A stage's handle: its ring with the count it guarantees (R209). -/
def ringHandle (m : List Host.Cell) (out : Bool) (k g : Nat) : Handle :=
  match chanHdr m false k with
  | some h => ⟨out, false, k, false, 4, h.logn, if out then h.wcnt else h.rcnt, g, 0⟩
  | none => ⟨out, false, k, false, 4, 2, 0, g, 0⟩

/-- A handle the task does not have (R209): a slot size of 0 marks it, and every use of it is unresolved. -/
def noHandle : Handle := ⟨true, false, 0, false, 0, 2, 0, 0, 0⟩

/-- The task of a stage's activation (R209): its work counts for the PIPE (R213, R279). -/
def stageTask (m : List Host.Cell) (cx : Nat) (vf : Nat) (p : Pipe) (h : Hosted) : Task :=
  let i := p.stage h.pos
  let w := p.st i
  let k := h.pos / p.nstg * p.nsec + h.sec
  let h2 := match p.sourceOf i with
    | some j => [ringHandle m false (p.fbKey j) (stTout (p.st j))]
    | none => if stFbd w = 0 then [] else [noHandle]
  let h3 := if stFbd w = 0 then [] else [ringHandle m true (p.fbKey i) (stTout w)]
  let hs := [ringHandle m false (p.linkKey h.pos) (stTin w), ringHandle m true (p.fwdKey h.pos) (stTout w)] ++ h2 ++ h3
  let img := stCode w + p.lvl * 2 ^ 77 + 2 ^ 80 + 2 ^ 90
  let t := newTask cx p.core h.row img (stPps w) (BitVec.ofNat 64 (p.work + 16384 * h.slot)) (BitVec.ofNat 64 i)
    (BitVec.ofNat 64 (p.stab + 64 * i)) (BitVec.ofNat 64 (p.q * 2 ^ 44 + i * 2 ^ 32 + 16 * k)) 0 hs
  { t with s := t.s.set 4 (BitVec.ofNat 64 k), stage := some (p.q, h.pos), pkt := some p.pkt, vf := vf }

/-! ## Cuts (R224) -/

/-- Whether a ring of log `l` has an isobar at its head, or anywhere among its filled slots. -/
def isoHead (m : List Host.Cell) (l k : Nat) : Bool :=
  match ringHdr m l k with
  | some h => decide (h.filled ≠ 0) && tagAt m k h.logn h.rcnt == 3
  | none => false

def isoIn (m : List Host.Cell) (l k : Nat) : Bool :=
  match ringHdr m l k with
  | some h => (List.range h.filled).any fun i => tagAt m k h.logn (h.rcnt + i) == 3
  | none => false

/-- Whether a position is hosted: restored, and not yet saved. -/
def Hosted.inPlace (h : Hosted) : Bool := h.st == .hosted || h.st == .saveWait || h.st == .saving

/-- Whether the isobar of a cut under way has already passed a position, so that what it would run lies behind the cut (R224). -/
def Pipe.behindIso (p : Pipe) (m : List Host.Cell) (h : Hosted) : Bool :=
  let at_ := ((p.hosts.filter fun o => o.inPlace && isoIn m p.lf (p.linkKey o.pos)).map fun o => o.pos) ++ p.iso.toList
  p.cut == 2 && at_.all fun n => decide (h.pos < n)

/-- The progress of a cut: the isobar goes into the tail's input once there is room, and the cut holds once no hosted input has it. -/
def State.cutGo (s : State) (cx q : Nat) : State :=
  match s.pipe cx q with
  | none => s
  | some p =>
    let hosted := p.hosts.filter Hosted.inPlace
    if (p.cut ≠ 1 ∧ p.cut ≠ 2) ∨ s.faulting cx = true then s
    else if let some (cls, a) := s.ringsBad p (hosted.map fun h => p.linkKey h.pos) then s.fault cx cls 0 p.core 15 a 0 []
    else
    let s := if p.cut = 1 then
        match hosted.foldl (fun (b : Option Hosted) h => match b with
            | some g => if h.pos < g.pos then some h else b
            | none => some h) none with
        | none => s.setPipe cx { p with cut := 2 }
        | some h => (match roomReady s.mem p.lf (p.linkKey h.pos) 1 with
          | some true => (s.ringPut p.lf (p.linkKey h.pos) 0 3).setPipe cx { p with cut := 2 }
          | _ => s)
      else s
    match s.pipe cx q with
    | some p => if p.cut = 2 ∧ p.iso = none ∧ (hosted.all fun h => !isoIn s.mem p.lf (p.linkKey h.pos)) then (s.setPipe cx { p with cut := 3 }).frontGo cx q else s
    | none => s

/-- Something for every pipeline of a context, each as it then stands. -/
def State.eachPipe (s : State) (cx : Nat) (f : State → Pipe → State) : State :=
  match s.ctx cx with
  | none => s
  | some x => x.pipes.foldl (fun s o => match s.pipe cx o.q with
    | some p => f s p
    | none => s) s

/-- Asks for a cut of every pipeline of a context on some cores (R224, R247, R356). -/
def State.cutAll (s : State) (cx : Nat) (on : Nat → Bool) : State :=
  s.eachPipe cx fun s p => if on p.core ∧ p.cut = 0 then (s.setPipe cx { p with cut := 1 }).cutGo cx p.q else s

/-- Releases the cuts of a context, but for those of cores that it drains from: dispatch and scrolling resume (R224, R247, R356). -/
def State.uncutAll (s : State) (cx : Nat) : State :=
  s.eachPipe cx fun s p => if p.cut = 0 ∨ s.drainedOn cx p.core = true then s else (s.setPipe cx { p with cut := 0 }).frontGo cx p.q

/-! ## Parking (R225, R226) -/

/-- Saved positions in position order. -/
def inPosition (l : List Hosted) : List Hosted := l.mergeSort fun a b => decide (a.pos ≤ b.pos)

/-- Parking goes on: once no activation runs and no scroll is in flight, every hosted position is to be saved. A position that was to come back stays
as it was saved, and a row that waits for one is freed. -/
def State.parkGo (s : State) (cx q : Nat) : State :=
  match s.pipe cx q with
  | none => s
  | some p =>
    if p.park ≠ 1 then s
    else if p.hosts.any fun h => h.busy || h.st == .restoring || (h.st == .saving && !h.parking) then s
    else
      let waits := p.hosts.filter fun h => h.st == .restoreWait
      let back := (waits.filter fun h => h.parking).map fun h => { h with st := .held, parking := false }
      let hs := (p.hosts.filter fun h => h.st != .restoreWait).map fun h =>
        if h.st = .hosted ∨ h.st = .saveWait then { h with st := .saveWait, parking := true } else h
      let p := { p with hosts := hs, parked := inPosition (p.parked ++ back), park := if hs.isEmpty then 2 else 1 }
      (waits.foldl (fun s h => s.unclaim h.row) ((s.endScrolls p.core waits).setPipe cx p)).frontGo cx q

def State.parkAll (s : State) (cx : Nat) (on : Nat → Bool) : State :=
  s.eachPipe cx fun s p => if on p.core ∧ p.park = 0 then (s.setPipe cx { p with park := 1 }).parkGo cx p.q else s

/-- A parked pipeline resumes (R226): the prefetches of the parked positions and of those up to R beyond the deepest are appended again, those already
appended run on, and rows are claimed as they are free. It stays parked while its core is not its partition's, or its VF is descheduled. -/
def State.resumePipe (s : State) (cx q : Nat) : State :=
  match s.pipe cx q with
  | none => s
  | some p =>
    if p.park ≠ 2 ∨ s.bandRuns cx { p with park := 0 } = false then s
    else
      let p := { p with park := 0, prefs := p.prefs.filter fun e => e.2.isSome }
      let p := p.parked.foldl (fun p h => p.wantPref h.pos) p
      let p := (List.range p.r).foldl (fun p i => p.wantPref (p.next + i)) p
      (s.setPipe cx p).frontGo cx q

def State.resumePipes (s : State) (cx : Nat) : State := s.eachPipe cx fun s p => s.resumePipe cx p.q

/-- A pipeline whose every position is saved for good is over: its PIPE completes once the packet's release allows (R213, R279). DESIGN CHOICE (R213): the
completion waits for every position's save, also where the last stage's final save comes before another's (log 32). -/
def State.pipeDone (s : State) (cx q : Nat) : State :=
  match s.pipe cx q with
  | none => s
  | some p =>
    if p.total ≤ p.done.length then
      ((s.modCtx cx fun x => { x with pipes := x.pipes.filter fun o => o.q != q }).ended cx (some p.pkt)).frontCore p.core
    else s

/-! ## The loader (R219) -/

/-- A pipeline block's fields (R207); none where code 1 refuses it. DESIGN CHOICE (R207, R219): an `INBUF`, `OUTBUF` or `WORK` that is not a multiple as
R207 has it is refused with code 1 (log 32). -/
def pipeBlock (q w : Nat) : Option Pipe :=
  let p : Pipe := ⟨q, q, bits w 0 64, bits w 64 12, bits w 76 4, bits w 80 16, bits w 96 32, bits w 128 5, bits w 133 2, bits w 136 23, bits w 160 23,
    bits w 192 23, [], [], [], 0, 0, [], 0, 0, [], [], none, 0⟩
  if bits w 135 1 = 0 ∧ bits w 159 1 = 0 ∧ bits w 183 9 = 0 ∧ w / 2 ^ 215 = 0 ∧ isCanon p.stab ∧ p.stab % 64 = 0 ∧ p.nstg ≠ 0 ∧ 1 ≤ p.rwin
      ∧ p.rwin ≤ 10 ∧ p.nsec ≠ 0 ∧ p.npass ≠ 0 ∧ p.inbuf % 4 = 0 ∧ p.outbuf % 4 = 0 ∧ p.work % 256 = 0 then some p else none

/-- The checks of code 2 (R208). -/
def stageOk (w : Nat) : Bool :=
  decide (bits w 143 1 = 0 ∧ bits w 148 4 = 0 ∧ bits w 180 204 = 0 ∧ stSsize w ≤ 16384 ∧ stSsize w % 16 = 0 ∧ isCanon (stCode w) ∧ stCode w % 4 = 0
    ∧ isCanon (stArea w) ∧ stArea w % 16 = 0 ∧ stTin w ≠ 0 ∧ stTout w ≠ 0 ∧ stPps w ≠ 0)

/-- A prefetch command the loader takes (R223). -/
def prefOk (w : Nat) : Bool :=
  w == 0 || (cmdValid 1 w 0 && (opcOf w == 1 || opcOf w == 6) && waitmOf w == 0 && setsOf w == 31)

/-- The lowest index below n of which something holds. -/
def lowest (n : Nat) (f : Nat → Bool) : Option Nat := (List.range n).find? f

/-- The feedback check of a stage (R220): of two sources of one target both are concerned. -/
def Pipe.fbBad (p : Pipe) (i : Nat) : Bool :=
  let d := stFbd (p.st i)
  d != 0 && (decide (i < d) || decide (p.r - 1 < d) ||
    (List.range p.nstg).any fun j => j != i && stFbd (p.st j) != 0 && decide (stFbd (p.st j) ≤ j) && j - stFbd (p.st j) == i - d)

/-- Whether [a, a + n) passes the pad or the context's range of it (R231, R300). -/
def Setup.padOut (su : Setup) (a n : Nat) : Bool := decide (2 ^ 23 < a + n) || decide (a < su.padlo * 65536) || decide ((su.padlo + su.padn) * 65536 < a + n)

/-- The first check that fails, with the lowest stage concerned (R219, codes 3 to 9). -/
def State.refusal (s : State) (cx : Nat) (x : Ctx) (p : Pipe) : Option (Nat × Nat) :=
  let inl := 4 * p.npass * p.nsec * stTin (p.st 0)
  let outl := 4 * p.npass * p.nsec * stTout (p.st (p.nstg - 1))
  if (s.core p.core).part ≠ some (partOf cx) ∨ s.levelOf p.core < p.lvl then some (3, 0)
  else match lowest (p.nstg - 1) fun i => stTout (p.st i) != stTin (p.st (i + 1)) with
  | some i => some (4, i)
  | none =>
  match lowest p.nstg p.fbBad with
  | some i => some (5, i)
  | none =>
  if 4096 < p.maxSec then some (6, (lowest p.nstg fun i => decide (4096 < p.nsec * (stTout (p.st i) + 1)) ||
      (i == 0 && decide (4096 < p.nsec * (stTin (p.st 0) + 1)))).getD 0)
  else if x.setup.padOut p.work p.workLen ∨ x.setup.padOut p.inbuf inl ∨ x.setup.padOut p.outbuf outl
      ∨ meets p.work p.workLen p.inbuf inl ∨ meets p.work p.workLen p.outbuf outl ∨ meets p.inbuf inl p.outbuf outl then some (7, 0)
  else match lowest p.nstg fun i => !prefOk (stPref (p.st i)) with
  | some i => some (8, i)
  | none =>
    if s.ctxs.any fun e => e.2.pipes.any fun o => o.core == p.core && meets o.work o.workLen p.work p.workLen then some (9, 0) else none

/-- Builds the work region, with every ring, and asks for the first R restores (R211, R212, R217, R222). -/
def State.loadPipe (s : State) (cx : Nat) (p : Pipe) : State :=
  let s := (List.range (p.r + 2)).foldl (fun s i => s.ringInit (p.ringKey i) p.lf) s
  let s := (List.range p.nstg).foldl (fun s i =>
    let t := stTout (p.st i)
    if stFbd (p.st i) = 0 then s else (s.ringInit (p.fbKey i) (p.lb i)).ringSection (p.lb i) (p.fbKey i) (List.replicate t 0) 1) s
  let p := (List.range p.r).foldl (fun p i => p.wantPref i) p
  ((s.modCtx cx fun x => { x with pipes := x.pipes ++ [p] }).frontRecord cx p).frontGo cx p.q

end Sys2Proof.Machine
end

