-- ==== Sys2Proof/Machine/Window.lean ====
section
/-! DEFINITION. L2 windows (R251 to R256) and the request counters they decide (R230). No value a read returns depends on them. -/

namespace Sys2Proof.Machine

/-- The positions of a stream window (R252). -/
def Win.size (w : Win) : Nat := (w.dims.map Prod.fst).foldl (· * ·) 1

/-- The address of position n (R202): dimension 0 varies fastest. -/
def Win.addr (w : Win) (n : Nat) : Nat :=
  let off := (w.dims.foldl (fun (a : Nat × Int) d => (a.1 / d.1, a.2 + (a.1 % d.1 : Nat) * d.2)) (n, 0)).2
  (((w.base : Int) + 256 * off) % 2 ^ 64).toNat

/-- Granules a window counts against its partition's quota (R255). -/
def Win.granules (w : Win) : Nat := if w.kind = 2 then 1 else w.len

/-- The share of a partition on a die (R298): partition 0 starts with all of it. -/
def State.share (s : State) (p die : Nat) : Share := getT (s.part p).shares die ⟨0, 0, 0, 0, 0⟩

/-- The edge tile of a pool granule (R253). -/
def poolTile (pa : Nat) : Nat := bits pa 8 4 ^^^ bits pa 12 4

/-- Windows of one tile. -/
def Die.tile (d : Die) (t : Nat) : Tbl Win := d.wins.filter fun e => e.1 / 1024 == t

/-- One more than the latest use stamp. -/
def Die.stampNext (d : Die) : Nat := (d.wins.map fun e => e.2.used).foldl max 0 + 1

/-- The least recently used pool window of a partition in a tile. -/
def Die.oldest (d : Die) (t p : Nat) : Option Nat :=
  ((d.tile t).foldl (fun (b : Option (Nat × Nat)) e =>
    if e.2.kind = 2 ∧ e.2.part = p then
      match b with
      | some (_, u) => if e.2.used < u then some (e.1, e.2.used) else b
      | none => some (e.1, e.2.used)
    else b) none).map Prod.fst

/-- Granules that the windows of a tile hold (R251: at most 24,576). -/
def Die.heldIn (d : Die) (t : Nat) : Nat := ((d.tile t).map fun e => e.2.held.length + e.2.pos.length).sum

def tileSize : Nat := 24576

/-- A pool window for a granule, in a free slot of the partition's range, which the tile's 1024 slots bound, or in place of its oldest one (R251, R253,
R255). -/
def Die.poolPut (d : Die) (sh : Share) (p cx g pa : Nat) (dirty : List Nat) : Die :=
  let t := poolTile pa
  let w : Win := ⟨2, p, cx, 0, 1, false, [], 0, 0, [g], dirty, 0, d.stampNext, [], []⟩
  let used := (((d.tile t).filter fun e => e.2.part == p).map fun e => e.2.granules).sum
  let slot := if used < sh.tquota ∧ d.heldIn t < tileSize then
      ((List.range (min sh.scount (1024 - sh.sbase))).map fun i => t * 1024 + sh.sbase + i).find? fun k => (findT d.wins k).isNone
    else none
  match slot with
  | some k => { d with wins := putT d.wins k w }
  | none => match d.oldest t p with
    | some k => { d with wins := putT d.wins k w }
    | none => d

/-! ## LLC slices (R254 to R256) -/

/-- The windows of a partition in an LLC slice brought within a quota: single granules leave first, the least recently used first, then the windows
that read ahead (R255, R256, log 33). -/
def trimLines (p quota : Nat) : Nat → List Line → List Line
  | 0, l => l
  | n + 1, l =>
    let mine := l.filter fun w => w.part == p
    if (mine.map fun w => w.len).sum ≤ quota then l
    else match (mine.filter fun w => w.len == 1).getLast?, mine.getLast? with
      | some w, _ => trimLines p quota n (l.filter fun v => v != w)
      | none, some w => trimLines p quota n (l.filter fun v => v != w)
      | none, none => l

/-- The LLC slices of a die release what a partition's new share leaves no room for (R256). -/
def State.trimSlices (s : State) (p die : Nat) : State :=
  [2 * die, 2 * die + 1].foldl (fun s k =>
    let ls := getT s.llc k []
    if ls.isEmpty then s else { s with llc := putT s.llc k (trimLines p (s.share p die).lquota ls.length ls) }) s

/-- A request served by the home die's LLC slice (R230, R254): a page with `PLC` 4 never allocates; one whose `NODE` is streaming opens a window that
reads ahead over its 4 KiB (log 33). -/
def State.llcRead (s : State) (p node key : Nat) : State :=
  let plc := key / 2 ^ 52
  let pa := key % 2 ^ 52
  let d := homeDie plc pa
  let k := 2 * d + stackOf plc pa
  let g := key / 256
  let ls := getT s.llc k []
  if plc = 4 then s
  else
    let w := (ls.find? fun w => decide (w.base ≤ g) && decide (g < w.base + w.len)).getD
      (if node = 1 then ⟨p, g / 16 * 16, 16⟩ else ⟨p, g, 1⟩)
    let ls := w :: ls.filter fun v => v != w
    { s with llc := putT s.llc k (trimLines p (s.share p d).lquota ls.length ls) }

/-- The node class of the page that an address names (R229). -/
def State.nodeOf (s : State) (cx va : Nat) : Nat :=
  match s.walk cx va 4 with
  | .ok e => e.node
  | _ => 0

/-! ## Requests and reads -/

/-- A request towards a home die (R230). -/
def State.request (s : State) (die home vf : Nat) : State :=
  let s := s.modDie die fun d => if home = die then { d with localRq := (d.localRq + 1) % 2 ^ 64 } else { d with remoteRq := (d.remoteRq + 1) % 2 ^ 64 }
  s.countDie die (if home = die then 1 else 2) 1 vf

/-- A counted read request for a granule, served by its LLC slice (R230, R254). -/
def State.fetchGranule (s : State) (die cx va key : Nat) : State :=
  (s.request die (homeDie (key / 2 ^ 52) (key % 2 ^ 52)) (s.vfOf cx)).llcRead (partOf cx) (s.nodeOf cx va) key

/-- A read stream that holds a granule moves past it; a stream that ends gives up its slot (R252). -/
def Win.consume (w : Win) (g : Nat) : Win :=
  let i := (w.held.takeWhile fun h => h != g).length
  let held := w.held.drop (i + 1)
  { w with held := held, tail := w.tail + i + 1, dirty := w.dirty.filter held.contains }

/-- Whether a window holds a granule. -/
def Win.holds (w : Win) (g : Nat) : Bool := if w.kind = 0 ∧ w.write = true then w.dirty.contains g else w.held.contains g

/-- The entry with which a tile's generator port translates an address (R241); none where it does not, or where the port stalls. -/
def State.genEnt (s : State) (die tile cx va acc : Nat) : Option PEnt :=
  if !isCanon va then none
  else match s.lookup (genPort die tile) cx va acc with
    | some (.ok e) => some e
    | some _ => none
    | none =>
      if (s.port (genPort die tile)).miss.isSome then none
      else match s.walk cx va acc with
        | .ok e => some e
        | _ => none

/-- The first of `n` addresses that a tile translates to a granule, and the entry it does so with. -/
def State.genFind (s : State) (die tile cx acc g n : Nat) (addr : Nat → Nat) : Option (Nat × PEnt) :=
  (List.range n).findSome? fun i => (s.genEnt die tile cx (addr i) acc).bind fun e => if entKey e (addr i) / 256 = g then some (i, e) else none

/-- The address of a granule of a demand window's range (R251). -/
def Win.spot (w : Win) (i : Nat) : Nat := (w.base + 256 * i) % 2 ^ 64

/-- A window keeps the entries that translate its addresses (R110). -/
def Win.use (w : Win) (e : PEnt) : Win := { w with uses := if w.uses.contains e then w.uses else w.uses ++ [e] }

/-- The pool window that holds a granule. -/
def Die.poolOf (d : Die) (g : Nat) : Option (Nat × Win) := d.wins.find? fun e => e.2.kind == 2 && e.2.held.contains g

/-- A granule leaves the pool for another window. -/
def Die.unpool (d : Die) (g : Nat) : Die :=
  match d.poolOf g with
  | some (k, _) => { d with wins := delT d.wins k }
  | none => d

/-- The demand window with room whose range covers a granule, and the entry that says so: its addresses are translated at the tile's port (R241,
R253). -/
def State.demandFor (s : State) (die g acc : Nat) : Option (Nat × Win × PEnt) :=
  (s.die die).wins.findSome? fun e =>
    if e.2.kind = 1 ∧ (s.die die).heldIn (e.1 / 1024) < tileSize then
      (s.genFind die (e.1 / 1024) e.2.cx acc g e.2.len e.2.spot).map fun x => (e.1, e.2, x.2)
    else none

/-- A demand window takes a granule over, from the pool where that holds it (R253). -/
def State.demandTake (s : State) (die k g : Nat) (w : Win) (e : PEnt) (dirty : Bool) : State :=
  let was := ((s.die die).poolOf g).any fun p => p.2.dirty.contains g
  (s.usePort (genPort die (k / 1024)) e).modDie die fun d =>
    { d.unpool g with wins := putT (d.unpool g).wins k { w.use e with held := w.held ++ [g], dirty := if dirty || was then w.dirty ++ [g] else w.dirty } }

/-- Whether a read stream holds a granule. -/
def Win.reads (w : Win) (g : Nat) : Bool := w.kind == 0 && !w.write && w.held.contains g

/-- Every read stream that holds a granule moves past it (R252). -/
def Die.consume (d : Die) (g : Nat) : Die :=
  { d with wins := d.wins.filterMap fun e =>
      if e.2.reads g then (if (e.2.consume g).size ≤ (e.2.consume g).tail then none else some (e.1, e.2.consume g)) else some e }

/-- A read of one granule by a task or engine of a die (R230, R251 to R253): every read stream that holds it serves it, else the window that holds it,
else the demand window whose range covers it, else the pool. -/
def State.readGranule (s : State) (die cx va key : Nat) : State :=
  let d := s.die die
  let g := key / 256
  if d.wins.any fun e => e.2.reads g then s.modDie die fun d => d.consume g
  else if d.wins.any fun e => e.2.kind != 2 && e.2.holds g then s
  else match s.demandFor die g 1 with
    | some (k, w, e) => (if (d.poolOf g).isSome then s else s.fetchGranule die cx va key).demandTake die k g w e false
    | none => match d.poolOf g with
      | some (k, w) => s.setDie die { d with wins := putT d.wins k { w with used := d.stampNext } }
      | none => (s.fetchGranule die cx va key).modDie die fun d => d.poolPut (s.share (partOf cx) die) (partOf cx) cx g (key % 2 ^ 52) []

/-- The position from the tail on at which a write stream has a granule, translated at its tile's port (R241, R252). -/
def State.posOf (s : State) (die : Nat) (e : Nat × Win) (g : Nat) : Option (Nat × PEnt) :=
  if e.2.kind = 0 ∧ e.2.write = true then
    (s.genFind die (e.1 / 1024) e.2.cx 2 g (e.2.size - e.2.tail) fun i => e.2.addr (e.2.tail + i)).map fun x => (e.2.tail + x.1, x.2)
  else none

/-- A write stream's tail moves on: the granules of the positions before it are written back (R252). -/
def Win.writeBack (w : Win) (tail : Nat) : Win :=
  let kept := (w.pos.zip w.dirty).filter fun e => decide (tail ≤ e.1)
  { w with tail := tail, pos := kept.map Prod.fst, dirty := kept.map Prod.snd }

/-- A write to position n of a write stream (R252): later positions push the tail on. The dirty granules stand in position order. -/
def Win.land (w : Win) (n g : Nat) : Win :=
  let w := w.writeBack (if n < w.tail + w.len then w.tail else n + 1 - w.len)
  let at_ := w.pos.zip w.dirty
  let all := (at_.filter fun e => decide (e.1 < n)) ++ (n, g) :: at_.filter fun e => decide (n < e.1)
  { w with head := max w.head (n + 1), pos := all.map Prod.fst, dirty := all.map Prod.snd }

/-- A granule added to a list that does not hold it. -/
def addOnce (l : List Nat) (g : Nat) : List Nat := if l.contains g then l else l ++ [g]

/-- The write stream in which a granule lands, as it stands then: one whose tile has room for it (R251, R252). -/
def State.landing (s : State) (die g : Nat) : Option (Nat × Win × PEnt) :=
  (s.die die).wins.findSome? fun e => (s.posOf die e g).bind fun x =>
    let w := (e.2.land x.1 g).use x.2
    let d := (s.die die).unpool g
    if ({ d with wins := putT d.wins e.1 w } : Die).heldIn (e.1 / 1024) ≤ tileSize then some (e.1, w, x.2) else none

/-- A write of one granule by a die (R251 to R253): it lands in the write stream that has it ahead, else in the stream or demand window that holds it,
else in the demand window whose range covers it, else in the pool. -/
def State.writeGranule (s : State) (die cx key : Nat) : State :=
  let d := s.die die
  let g := key / 256
  match s.landing die g with
  | some (k, w, e) => (s.usePort (genPort die (k / 1024)) e).modDie die fun d => { d.unpool g with wins := putT (d.unpool g).wins k w }
  | none =>
    match d.wins.find? fun e => e.2.kind != 2 && e.2.holds g with
    | some (k, w) => s.setDie die { d with wins := putT d.wins k { w with dirty := addOnce w.dirty g } }
    | none => match s.demandFor die g 2 with
      | some (k, w, e) => s.demandTake die k g w e true
      | none => match d.poolOf g with
        | some (k, w) => s.setDie die { d with wins := putT d.wins k { w with dirty := addOnce w.dirty g, used := d.stampNext } }
        | none => s.setDie die (d.poolPut (s.share (partOf cx) die) (partOf cx) cx g (key % 2 ^ 52) [g])

/-- The granules of location ranges, each with its address. -/
def granules : Nat → List (Nat × Nat) → List (Nat × Nat)
  | _, [] => []
  | va, (k, n) :: r =>
    ((List.range (cdiv (k % 256 + n) 256)).map fun i => (va - va % 256 + 256 * i, k - k % 256 + 256 * i)) ++ granules (va + n) r

/-- Every granule of a read from `va` counted (R230). -/
def State.readVia (s : State) (die cx va : Nat) (ks : List (Nat × Nat)) : State :=
  (granules va ks).foldl (fun s e => s.readGranule die cx e.1 e.2) s

/-- The requests of a read that ends in a data error at an address: those up to its granule have been sent (R230, R328). -/
def State.readSent (s : State) (die cx va : Nat) (ks : List (Nat × Nat)) (bad : Nat) : State :=
  ((granules va ks).takeWhile fun e => decide (e.1 ≤ bad)).foldl (fun s e => s.readGranule die cx e.1 e.2) s

def State.writeVia (s : State) (die cx va : Nat) (ks : List (Nat × Nat)) : State :=
  (granules va ks).foldl (fun s e => s.writeGranule die cx e.2) s

/-- Windows kept when a share is reduced (R256): those outside the slots go first, then pool windows from the oldest, then the others from the
highest slot. -/
def trimWins (sh : Share) (p : Nat) : Nat → Tbl Win → Tbl Win
  | 0, ws => ws
  | n + 1, ws =>
    let mine := ws.filter fun e => e.2.part == p
    if (mine.map fun e => e.2.granules).sum ≤ sh.tquota then ws
    else
      match mine.foldl (fun (b : Option (Nat × Win)) e => match b with
          | none => some e
          | some x =>
            if x.2.kind = 2 then (if e.2.kind = 2 ∧ e.2.used < x.2.used then some e else b)
            else if e.2.kind = 2 ∨ x.1 < e.1 then some e else b) none with
      | some (k, _) => trimWins sh p n (delT ws k)
      | none => ws

/-- A die's windows after a partition's share has been set (R256). -/
def Die.setShare (d : Die) (sh : Share) (p : Nat) : Die :=
  let inRange := d.wins.filter fun e => e.2.part != p || (decide (sh.sbase ≤ e.1 % 1024) && decide (e.1 % 1024 < sh.sbase + sh.scount))
  { d with wins := (List.range 16).flatMap fun t => let ws := inRange.filter fun e => e.1 / 1024 == t; trimWins sh p ws.length ws }

end Sys2Proof.Machine
end

