-- ==== Sys2Proof/Machine/Run.lean ====
section
/-! DEFINITION. From fetch to effect (R29): charging (R9 to R11, R37, R75), stops and their records (R80 to R82), memory access by a task
(R38, R39, R76, R77, R231), and staging (R39). -/

namespace Sys2Proof.Machine

/-! ## What an execute step comes to -/

/-- The execute and retire steps (R29): the state and task after it, a stop, a context fault, one that comes after requests have been counted (R230,
R328), or a translation that misses (R243). -/
inductive Body where
  | done (s : State) (t : Task)
  | stop (r : Stop)
  | fault (cls detail addr : Nat)
  | faultAt (s : State) (cls detail addr : Nat)
  | miss (va acc : Nat)

/-- The charge step (R37): paid, short of the budget, or the end of a dark run with its code (R82). -/
inductive Paid where
  | ok (s : State) (t : Task)
  | short (s : State)
  | darkEnd (code : Nat)

/-- Charge(ru) (R37). In measured mode whether the bank reaches its floor is a free value (R75, log 3). An instruction that has waited at its step 4
is charged already (R29). -/
def State.pay (s : State) (t : Task) (ru : Nat) : Paid :=
  if t.charged then .ok s { t with charged := false }
  else match t.dark with
  | some d =>
    if 262144 < t.meter + ru then .darkEnd 3
    else
      let need := cdiv (t.meter + ru - d.base) 64
      match s.debit (partOf t.cx) (need - d.drawn) with
      | none => .darkEnd 4
      | some s => .ok (s.tally t.cx t.receipt (need - d.drawn) 0) { t with meter := t.meter + ru, dark := some { d with drawn := max need d.drawn } }
  | none =>
    if t.measured then
      (if Config.freeFloor s.freeCtr then .short { s with freeCtr := s.freeCtr + 1 }
       else .ok { s with freeCtr := s.freeCtr + 1 } { t with meter := t.meter + ru })
    else if t.budget < t.meter + ru then .short s
    else .ok s { t with meter := t.meter + ru }

/-! ## Stops -/

/-- Discards the undispatched members of a barrier group (R57). -/
def State.discardActs (s : State) (cx : Nat) (gone : List Act) : State :=
  gone.foldl (fun s a =>
    let s := (s.modCtx cx fun x => { x with acts := x.acts.filter fun b => b.id != a.id }).unbind cx a.chans
    (if a.bound then s else s.retireHead cx a.qsel).ended cx a.pkt) s

/-- A member of a barrier group has ended; the group is dropped with its last member. -/
def State.memberEnded (s : State) (cx : Nat) (grp : Option Nat) (n : Nat) : State :=
  match grp with
  | none => s
  | some g => s.modCtx cx fun x => { x with groups := (x.groups.map fun h => if h.id = g then { h with ended := h.ended + n } else h).filter fun h =>
      !(h.id == g && decide (h.size ≤ h.ended)) }

/-- Whether a stop of this task cancels its barrier group (R57). -/
def State.cancels (s : State) (t : Task) : Bool :=
  match s.ctx t.cx, t.grp with
  | some x, some g => x.groups.any fun h => h.id == g && !h.cancelled
  | _, _ => false

def State.cancelGroup (s : State) (t : Task) : State :=
  match s.ctx t.cx, t.grp with
  | some x, some g =>
    let gone := x.acts.filter fun a => a.grp == some g
    let s := (s.modCtx t.cx fun x => { x with groups := x.groups.map fun h => if h.id = g then { h with cancelled := true } else h }).discardActs t.cx gone
    s.memberEnded t.cx t.grp (1 + gone.length)
  | _, _ => s

/-- `SHORT` of a stop record (R11, R82). A rated dark run that ends at the instruction it issues again has a meter below its base, for which the
spec states no value: it is free, and a function of the two, so that every replay gives the same (R8, log 3, log 32). -/
def State.shortOf (s : State) (t : Task) (darkend : Nat) : Nat × State :=
  match t.dark with
  | some d =>
    if darkend = 0 then (0, s)
    else if t.meter < d.base then (Config.shortBelow t.meter d.base, s)
    else (t.meter - d.base, s)
  | none => (0, s)

/-- The 32 bytes of a stop record (R80). DESIGN CHOICE (R80): of a meter past 2^32 - 1, which a measured task is never held to, `METER` has the low 32
bits (log 32). -/
def stopBytes (t : Task) (reason darkend short : Nat) (gang : Bool) : List Byte :=
  let d := t.dark.getD ⟨0, 0, t.pc, t.meter, t.nstore, t.nchw, t.ncmd⟩
  bytesOfNat 32 (d.pc.toNat + d.meter % 2 ^ 32 * 2 ^ 64 + t.budget * 2 ^ 96 + short % 2 ^ 32 * 2 ^ 128 + reason * 2 ^ 160 + darkend * 2 ^ 168
    + (if t.measured then 2 ^ 171 else 0) + (if t.smf then 2 ^ 172 else 0) + t.lvl * 2 ^ 173 + t.gid.toNat % 16 * 2 ^ 175
    + (if gang then 2 ^ 179 else 0) + (if t.bound.isSome then 2 ^ 180 else 0)
    + d.nstore * 2 ^ 184 + d.nchw * 2 ^ 199 + d.ncmd * 2 ^ 208 + t.tid.toNat % 2 ^ 32 * 2 ^ 224)

/-- A task stops for good (R12, R80): its record is written, its group cancelled, its block disarmed, its bits cleared and its row freed. The stop of
a stage's task is a pipeline fault once its record is complete (R209). -/
def State.finishStop (s : State) (t : Task) (reason darkend : Nat) : State :=
  let gang := s.cancels t
  let su := (s.ctx t.cx).map fun x => x.setup
  let (short, s) := s.shortOf t darkend
  let before := s.pendW.length
  let s := match su with
    | some u => if u.slog = 0 then s else s.devWriteAt (t.core / 8) t.cx 1 u.sring (stopBytes t reason darkend short gang)
    | none => s
  let waits := decide (before < s.pendW.length)
  let s := if gang then s.cancelGroup t else s.memberEnded t.cx t.grp 1
  let s := s.releaseHandles t
  let s := match t.bound with
    | some b => s.disarm t.cx b
    | none => s
  let s := if t.receipt then s.modCtx t.cx fun x => { x with receipt := x.receipt.map fun r => { r with stopped := true } } else s
  let s := s.freeRowGo t.row
  if t.stage.isNone then s.ended t.cx t.pkt
  else if waits then { s with pendW := s.pendW.modify before fun w => { w with stage := some (t.core, t.row % 12, t.pc.toNat) } }
  else s.fault t.cx 8 0 t.core (t.row % 12) 0 t.pc.toNat []

/-- Stop(reason) (R37): a dark run ends, a shortfall under `SMF` begins one, anything else ends the task. The barrier group of a member that runs
dark is cancelled as its dark run ends, with its record (R57, log 32). -/
def State.stopTask (s : State) (t : Task) (r : Stop) : State :=
  match t.dark with
  | some _ => s.finishStop t 1 2
  | none =>
    if r = .shortfall ∧ t.smf = true then
      s.setTask t.row (some { t with dark := some ⟨if t.measured then t.meter else t.budget, 0, t.pc, t.meter, t.nstore, t.nchw, t.ncmd⟩ })
    else s.finishStop t r.code 0

/-- An instruction's context fault (R29, R77): the task stays on its row until the halt ends it. -/
def State.faultTask (s : State) (t : Task) (cls detail addr : Nat) : State :=
  (s.setTask t.row (some { t with faulted := true })).fault t.cx cls detail t.core (t.row % 12) addr t.pc.toNat []

/-- A miss at the row's port takes a walk slot (R243). -/
def State.missRow (s : State) (t : Task) (va acc : Nat) : State :=
  let p := s.part (partOf t.cx)
  s.modPort t.row fun q => { q with walk := some ⟨t.cx, va, acc, p.gen1, p.gen2⟩ }

/-- The steps 3 to 5 of R29 for a decoded instruction; `fin` retires it. A miss of step 4 comes after the charge of step 3, which stands. -/
def State.issue (s : State) (t : Task) (cost : Nat) (body : State → Task → Body) (fin : State → Task → State) : State :=
  match s.pay t cost with
  | .short s => s.stopTask t .shortfall
  | .darkEnd k => s.finishStop t 1 k
  | .ok s' t' =>
    match body s' t' with
    | .done s'' t'' => fin s'' t''
    | .stop r => s'.stopTask t' r
    | .fault c d a => s'.faultTask t' c d a
    | .faultAt s'' c d a => s''.faultTask t' c d a
    | .miss va acc => (s'.setTask t.row (some { t' with charged := true })).missRow t va acc

/-- Retire (R29): the task's registers and staging take their values. -/
def retire (s : State) (t : Task) : State := s.setTask t.row (some t)

/-- A step of the task on the row whose turn it is. -/
def State.onRow (s : State) (f : Task → State) : Host.Outcome State Fault Refusal :=
  match s.turn with
  | .row r =>
    match s.task r with
    | some t => .next (f t)
    | none => .refused .noAgent
  | _ => .refused .noAgent

/-- A task instruction performed by the row whose turn it is. -/
def State.runTask (s : State) (cost : Task → Nat) (body : State → Task → Body) : Host.Outcome State Fault Refusal :=
  s.onRow fun t => s.issue t (cost t) body retire

/-- An instruction that touches only the task's registers. -/
def State.runReg (s : State) (cost : Nat) (f : Task → Task) : Host.Outcome State Fault Refusal :=
  s.runTask (fun _ => cost) fun s t => .done s (f t)

/-! ## Memory -/

/-- Addr and its translation (R38, R239): the location of `size` bytes of a space, or how the access ends. `lane` names the issuing lane. -/
def State.withAddr (s : State) (t : Task) (sp : Nat) (ea : Word) (size acc lane : Nat) (k : State → Nat → List PEnt → Body) : Body :=
  match addrCheck sp ea size with
  | some r => .stop r
  | none =>
    if sp = 0 then
      match s.lookup t.row t.cx ea.toNat acc with
      | some (.ok e) => k (s.usePort t.row e) (entKey e ea.toNat) [e]
      | some .prot => .fault 3 acc ea.toNat
      | _ => .miss ea.toNat acc
    else if sp = 1 then k s (laneKey t.row lane ea.toNat) []
    else if s.reachable t.cx t.core sp ea.toNat size then k s (spaceKey sp t.core ea.toNat) []
    else .fault 3 acc ea.toNat

/-- The byte a task's load sees: its latest staged store that covers the location, else memory (R39, R95). -/
def loadByte (m : List Host.Cell) (staged : List Staged) (k : Nat) : Byte :=
  staged.foldl (fun b i => match i with
    | .store cells _ _ => cells.foldl (fun (a : Byte) (c : Host.Cell) => if c.1 = k then c.2 else a) b
    | _ => b) (getB m k)

/-- Whether staged stores cover every byte of a load. -/
def covered (staged : List Staged) (k n : Nat) : Bool :=
  (List.range n).all fun i => staged.any fun e => match e with
    | .store cells _ _ => cells.any fun c => c.1 == k + i
    | _ => false

def loadN (m : List Host.Cell) (t : Task) (k n : Nat) : Nat := natOfBytes ((List.range n).map fun i => loadByte m t.staged (k + i))

/-- A read of locations by a task (R328): poisoned bytes are a data error naming their granule. -/
def State.readable (s : State) (k n : Nat) (ea : Word) (go : Body) : Body :=
  match s.poisoned k n with
  | some _ => .faultAt s 12 0 (ea.toNat - ea.toNat % 256)
  | none => go

/-- A load of a task has returned bytes of locations: the commits that wrote there and have not released yet are noted for its fences (R108). -/
def State.saw (s : State) (row k n : Nat) : State :=
  let rs := s.busyRows.filter fun r => r != row && ((s.task r).bind fun u => u.commit).any fun c =>
    c.unreleased && c.wrote.any fun w => meets k n w.1 w.2
  { s with seen := s.seen ++ rs.map fun r => (row, r) }

/-- A load of `size` bytes (R94, R151). The request is counted as it is sent, before a data error is found (R230, R328). -/
def State.load (s : State) (t : Task) (sp : Nat) (ea : Word) (size lane : Nat) (k : State → Nat → List PEnt → Body) : Body :=
  s.withAddr t sp ea size 1 lane fun s key es =>
    if covered t.staged key size then k s (loadN s.mem t key size) es
    else
      let s := if sp = 0 then s.readVia (t.core / 8) t.cx ea.toNat [(key, size)] else s
      s.readable key size ea (k (s.saw t.row key size) (loadN s.mem t key size) es)

/-! ## Staging (R39, R76) -/

/-- StageStore: bytes at a location, or a staging overflow. -/
def stageStore (t : Task) (cells : List Host.Cell) (size va : Nat) (uses : List PEnt) : Option Task :=
  if 16384 < t.nbytes + size then none
  else some { t with staged := t.staged ++ [.store cells va uses], nstore := t.nstore + 1, nbytes := t.nbytes + size }

def stageAtomic (t : Task) (key size op : Nat) (v : Word) (uses : List PEnt) : Option Task :=
  if 16384 < t.nbytes + size then none
  else some { t with staged := t.staged ++ [.atomic key size op v uses], nstore := t.nstore + 1, nbytes := t.nbytes + size }

def stageChan (t : Task) (i : Staged) : Option Task :=
  if 256 < t.nchw + 1 then none else some { t with staged := t.staged ++ [i], nchw := t.nchw + 1 }

def stageCmd (t : Task) (i : Staged) : Option Task :=
  if 16 < t.ncmd + 1 then none else some { t with staged := t.staged ++ [i], ncmd := t.ncmd + 1 }

/-- Staging that fits retires the instruction; staging that does not stops it (R76). -/
def staged (s : State) (t : Option Task) : Body :=
  match t with
  | some t => .done s t.adv
  | none => .stop .overflow

/-- A store of `size` bytes (R94, R151). -/
def State.stage (s : State) (t : Task) (sp : Nat) (ea : Word) (size lane v : Nat) : Body :=
  s.withAddr t sp ea size 2 lane fun s key es => staged s (stageStore t (cellsAt key (bytesOfNat size v)) size ea.toNat es)

end Sys2Proof.Machine
end

