-- ==== Sys2Proof/Machine/Commit.lean ====
section
/-! DEFINITION. The commit of a task (R78, R79): staged effects, channel effects (R50), engine commands (R184), translation maintenance
(R110), the exit's action, barrier groups (R56), the credit (R13, R75), successors (R61, R63) and the end of the row's task. -/

namespace Sys2Proof.Machine

/-! ## Atomics -/

/-- A number of `n` bytes read as signed. -/
def signedN (n v : Nat) : Int := if v % 2 ^ (8 * n) < 2 ^ (8 * n - 1) then (v % 2 ^ (8 * n) : Nat) else (v % 2 ^ (8 * n) : Nat) - 2 ^ (8 * n)

/-- The operations of R105, and code 9 the `SFADD` of R107. -/
def rmw (op size old v : Nat) : Nat :=
  let m := 2 ^ (8 * size)
  let a := old % m
  let b := v % m
  match op with
  | 0 => (a + b) % m
  | 1 => if signedN size a ≤ signedN size b then a else b
  | 2 => if signedN size b ≤ signedN size a then a else b
  | 3 => min a b
  | 4 => max a b
  | 5 => a ||| b
  | 6 => a &&& b
  | 7 => a ^^^ b
  | 8 => b
  | _ => (fAdd fp32 (.mode 0) a b).1

/-- One atomic at a location (R264): the old value, and the state after. -/
def State.atomic (s : State) (key size op v : Nat) : Nat × State := (getN s.mem key size, s.writeN key size (rmw op size (getN s.mem key size) v))

/-! ## Holds (R311) -/

/-- The locations a hold covers now: a page of its regions that is not mapped yet has none (R311). -/
def State.heldKeys (s : State) (cx : Nat) (h : Hold) : List (Nat × Nat) :=
  h.regions.flatMap fun r => (pagesOf r.1 r.2).filterMap fun p => match s.walk cx p.1 4 with
    | .ok e => some (entKey e p.1, p.2)
    | _ => none

/-- Whether writes to location ranges meet a hold: true where it is the hold of the writer's own receipt, false where another's. -/
def State.holdHit (s : State) (cx : Nat) (tagged : Bool) (ks : List (Nat × Nat)) : Option Bool :=
  let hit := fun (e : Nat × Ctx) => e.2.holds.any fun h => (s.heldKeys e.1 h).any fun r => ks.any fun k => meets k.1 k.2 r.1 r.2
  if s.ctxs.any (fun e => e.1 == cx && tagged && hit e) then some true
  else if s.ctxs.any hit then some false
  else none

/-- The address of a staged atomic, through the entry that translated it; outside `mem` its offset in the pad or the die pad. -/
def atomicVa (k : Nat) (us : List PEnt) : Nat := (us.head?.map fun e => e.va + (k % 2 ^ 52 - e.pa)).getD (if k < 2 ^ 57 then k % 2 ^ 23 else k % 2 ^ 26)

/-- The address of a commit's write that meets a hold: a staged one, else the exit's atomic. -/
def State.holdAddr (s : State) (cx : Nat) (t : Task) (c : Commit) : Nat :=
  (t.staged.findSome? fun i => match i with
    | .store cells va _ => (s.holdHit cx true ((runs cells).map fun r => (r.1, r.2.length))).map fun _ => va
    | .atomic k n _ _ us => (s.holdHit cx true [(k, n)]).map fun _ => atomicVa k us
    | _ => none).getD (match c.act with
    | .amo _ _ _ _ _ va => va.toNat
    | _ => 0)

/-- The ranges of memory a commit writes. -/
def writeRanges (t : Task) (c : Commit) : List (Nat × Nat) :=
  (t.staged.flatMap fun i => match i with
    | .store cells _ _ => (runs cells).map fun r => (r.1, r.2.length)
    | .atomic k n _ _ _ => [(k, n)]
    | _ => []) ++ (match c.act with | .amo _ _ n k _ _ => [(k, n)] | _ => [])

/-! ## Steps 1 to 3 -/

/-- Step 1: staged stores in program order. -/
def State.doStores (s : State) (t : Task) : State :=
  t.staged.foldl (fun s i => match i with
    | .store cells va uses =>
      let s := if uses.isEmpty then s else s.writeVia (t.core / 8) t.cx va ((runs cells).map fun r => (r.1, r.2.length))
      s.writeCells cells
    | _ => s) s

/-- An atomic of a task at a location (R251, R264, R328): a poisoned granule it reads is a data error of the task; the windows see a write. -/
def State.taskAtomic (s : State) (t : Task) (key size op : Nat) (v : Word) (va : Nat) : Nat × State :=
  match s.poisoned key size with
  | some _ => (0, s.fault t.cx 12 0 t.core (t.row % 12) (va - va % 256) t.pc.toNat [])
  | none => (if isMemKey key then s.writeGranule (t.core / 8) t.cx key else s).atomic key size op v.toNat

/-- Step 2: staged atomics in program order. -/
def State.doAtomics (s : State) (t : Task) : State :=
  t.staged.foldl (fun s i => match i with
    | .atomic k n op v us => (s.taskAtomic t k n op v (atomicVa k us)).2
    | _ => s) s

/-- Words a slot holds, and bytes of a channel word (R101). -/
def slotWords (sz : Nat) : Nat := max 1 (sz / 8)
def wordBytes (sz : Nat) : Nat := min sz 8

/-- One handle's slot words and tags, in program order (R50, R101). -/
def State.doWords (s : State) (t : Task) (i : Nat) (h : Handle) : State :=
  t.staged.foldl (fun s e => match e with
    | .chan j e v => if j = i then
        let c := h.cnt0 + e / slotWords h.slotSz
        (s.writeN (slotKey h.hkey h.logn h.slotSz c + e % slotWords h.slotSz * wordBytes h.slotSz) (wordBytes h.slotSz) v.toNat).setTag h.hkey h.logn c 0 else s
    | .tag j e g => if j = i then s.setTag h.hkey h.logn (h.cnt0 + e / slotWords h.slotSz) g else s
    | _ => s) s

/-- Slots of a handle that the commit wrote. -/
def writtenSlots (t : Task) (i : Nat) (h : Handle) : List Nat :=
  t.staged.flatMap fun e => match e with
    | .chan j e _ => if j = i then [e / slotWords h.slotSz] else []
    | .tag j e _ => if j = i then [e / slotWords h.slotSz] else []
    | _ => []

/-- One handle's effects (R50, R102): words and tags, data tags on slots an advance covers unwritten, then the count. -/
def State.doHandle (s : State) (t : Task) (i : Nat) (h : Handle) : State :=
  let s := s.doWords t i h
  let w := writtenSlots t i h
  let s := if h.out then (List.range h.adv).foldl (fun s j => if w.contains j then s else s.setTag h.hkey h.logn (h.cnt0 + j) 0) s else s
  if h.adv = 0 then s else s.advance h.hkey h.out h.adv

/-- Whether a handle has anything to perform. -/
def handleUsed (t : Task) (i : Nat) (h : Handle) : Bool :=
  h.adv != 0 || t.staged.any fun e => match e with
    | .chan j _ _ => j == i
    | .tag j _ _ => j == i
    | _ => false

/-- Step 3: channel effects, outputs before inputs (R50). A channel that the context no longer reaches is a protection fault (R231), a poisoned header
or tag a data error (R328), and a header found invalid a format fault (R49); the channel keeps its contents. -/
def State.doChannels (s : State) (t : Task) : State :=
  let hs := t.handles.zipIdx
  ((hs.filter fun e => e.1.out) ++ hs.filter fun e => !e.1.out).foldl (fun s e =>
    let bad := fun (cls detail addr : Nat) => s.fault t.cx cls detail t.core (t.row % 12) addr t.pc.toNat []
    if handleUsed t e.2 e.1 = false then s
    else if !s.chanIn t.cx e.1.quad e.1.hkey then bad 3 3 (chanOffset e.1.quad e.1.hkey)
    else match s.chanPoison e.1.quad e.1.hkey with
      | some a => bad 12 0 a
      | none => match chanHdr s.mem e.1.quad e.1.hkey with
        | some _ => s.doHandle t e.2 e.1
        | none => bad 4 0 0) s

/-- The ranges that step 3 writes: slot words, tags and counts (R50). -/
def chanRanges (t : Task) : List (Nat × Nat) :=
  t.handles.zipIdx.flatMap fun e =>
    let h := e.1
    if handleUsed t e.2 h = false then []
    else
      (t.staged.flatMap fun i => match i with
        | .chan j n _ => if j = e.2 then
            [(slotKey h.hkey h.logn h.slotSz (h.cnt0 + n / slotWords h.slotSz) + n % slotWords h.slotSz * wordBytes h.slotSz, wordBytes h.slotSz)] else []
        | _ => [])
      ++ ((writtenSlots t e.2 h ++ if h.out then List.range h.adv else []).map fun n => (tagKey h.hkey h.logn (h.cnt0 + n), 1))
      ++ (if h.adv = 0 then [] else [(h.hkey + if h.out then 0 else 8, 8)])

def Task.withCommit (t : Task) (c : Commit) : Task := { t with commit := some c }

/-- The place of a commit among those of its core that are at step 4 (R185). -/
def State.nextOrd (s : State) (core : Nat) : Nat :=
  ((rowsOf core).map fun r => ((s.task r).bind fun t => t.commit.map fun c => c.ord).getD 0).foldl max 0 + 1

/-- Steps 1 to 3, or a wait behind a hold, or the end of a task whose context a fault has reached before step 1 (R79, R311). -/
def State.commitStart (s : State) (t : Task) (c : Commit) : State :=
  if s.faulting t.cx && c.wait != CWait.hold then s.setTask t.row (some { t with staged := [], commit := none, faulted := true })
  else match s.holdHit t.cx t.receipt (writeRanges t c) with
    | some true => (s.setTask t.row (some { t with staged := [], commit := none, faulted := true })).fault t.cx 10 0 t.core (t.row % 12)
        (s.holdAddr t.cx t c) t.pc.toNat []
    | some false => s.setTask t.row (some (t.withCommit { c with wait := .hold }))
    | none =>
      let todo := t.staged.filter fun i => match i with
        | .cmd .. => true
        | .tlbi .. => true
        | .ptsync => true
        | _ => false
      let amo := match c.act with | .amo .. => true | _ => false
      let s := ((s.doStores t).doAtomics t).doChannels t
      s.setTask t.row (some ({ t with staged := [] }.withCommit
        { c with step := 4, todo := todo, wait := .none, ord := s.nextOrd t.core, wrote := if amo then writeRanges t { c with act := .stop } ++ chanRanges t else [] }))

/-! ## Step 4 -/

/-- Whether a translation is one a `TLBI` covers (R110): its context or partition, and for a page the leaf that holds the address, at every size, so
that every piece which a nested walk has cut from it goes; a stage-two page is named by its guest PA. DESIGN CHOICE (R110): where S(a) is not canonical
the page is that of its low 57 bits (log 32). -/
def tlbiCovers (cx root kind : Nat) (s2 : Bool) (va : Nat) (e : PEnt) : Bool :=
  partOf e.cx == partOf cx && (kind == 2 ||
    ((e.cx == cx || (e.g && e.root == root)) && (kind == 1 ||
      (if s2 then e.gpa / 2 ^ e.k2 == va57 va / 2 ^ e.k2 else e.va / 2 ^ e.k1 == va57 va / 2 ^ e.k1))))

/-- Whether a stream window still has an address that a `TLBI` of a page covers (R110): in the 4 KiB page itself, under an entry of its port or one that
has translated it that is dropped, or in the leaf that its pages now give. -/
def State.streamOn (s : State) (die : Nat) (e : Nat × Win) (root : Nat) (s2 : Bool) (va : Nat) (covers : PEnt → Bool) : Bool :=
  let es := ((s.port (genPort die (e.1 / 1024))).entries ++ e.2.uses).filter covers
  (List.range (e.2.size - e.2.tail)).any fun i =>
    let a := va57 (e.2.addr (e.2.tail + i))
    es.any (fun f => serves f e.2.cx root a) || (match s.walk e.2.cx a 4 with
      | .ok f => covers f
      | _ => false) || (!s2 && a / 4096 == va57 va / 4096)

/-- A `TLBI` takes effect: the generation advances (R250), covered entries and stream windows are dropped (R110). DESIGN CHOICE (R110): a stream-port
window is one of a read or write stream; a demand window stays, and loses its entries only (log 32). -/
def State.tlbi (s : State) (cx kind : Nat) (s2 : Bool) (va : Nat) : State :=
  let root := s.rootOf cx
  let s0 := s
  let s := s.modPart (partOf cx) fun p => (if s2 then { p with gen2 := p.gen2 + 1 } else { p with gen1 := p.gen1 + 1 })
  let keep := fun (f : PEnt) => !tlbiCovers cx root kind s2 va f
  let hold := fun (d : Nat) (w : Nat × Win) =>
    !(w.2.kind == 0 && partOf w.2.cx == partOf cx && (kind == 2 || (w.2.cx == cx && kind == 1) ||
      (kind == 0 && (w.2.cx == cx || s0.rootOf w.2.cx == root) && s0.streamOn d w root s2 va fun f => !keep f)))
  let port := fun (e : Nat × Port) => (e.1, { e.2 with entries := e.2.entries.filter keep, got := e.2.got.filter keep })
  let die := fun (e : Nat × Die) => (e.1, { e.2 with wins := e.2.wins.filter (hold e.1) })
  { s with ports := s.ports.map port, dies := s.dies.map die }

/-- Whether a `TLBI` or `PTSYNC` item has completed (R77, R110, R250): no walk under the old generation, no staged use of a covered entry. -/
def State.syncDone (s : State) (cx row : Nat) (i : Nat × Bool × Word) : Bool :=
  if i.1 = 3 then true
  else
    let p := s.part (partOf cx)
    let root := s.rootOf cx
    s.ports.all (fun e => match e.2.walk with
      | some w => partOf w.cx != partOf cx || (w.gen1 == p.gen1 && w.gen2 == p.gen2)
      | none => true)
    && s.rows.all fun e => e.1 == row || (match e.2.task with
      | some t => t.staged.all fun g => match g with
        | .store _ _ us => us.all fun f => !tlbiCovers cx root i.1 i.2.1 i.2.2.toNat f
        | .atomic _ _ _ _ us => us.all fun f => !tlbiCovers cx root i.1 i.2.1 i.2.2.toNat f
        | _ => true
      | none => true)

/-- Whether a commit of the core that began step 4 earlier has still to append to a queue (R185). -/
def State.appendsFirst (s : State) (t : Task) (q : Nat) : Bool :=
  let ord := (t.commit.map fun c => c.ord).getD 0
  (rowsOf t.core).any fun r => r != t.row && ((s.task r).bind fun u => u.commit).any fun c =>
    c.step == 4 && decide (c.ord < ord) && c.todo.any fun i => match i with
      | .cmd p _ _ => p == q
      | _ => false

/-- Step 4 for the items left: appended or performed in program order until a queue is full (R184, R185, R303). -/
def State.doItems (s : State) (t : Task) : List Staged → List (Nat × Bool × Word) → State × List Staged × List (Nat × Bool × Word)
  | [], ys => (s, [], ys)
  | .cmd q w0 w1 :: r, ys =>
    if s.roomFor t.cx t.core q w0 && !s.appendsFirst t q then (s.append t.cx t.core q w0 w1 t.pkt t.receipt none).doItems t r ys else (s, .cmd q w0 w1 :: r, ys)
  | .tlbi k s2 va :: r, ys => (s.tlbi t.cx k s2 va.toNat).doItems t r (ys ++ [(k, s2, va)])
  | .ptsync :: r, ys => s.doItems t r (ys ++ [(3, false, 0)])
  | _ :: r, ys => s.doItems t r ys

/-- Step 4, and step 5 once every item has completed. -/
def State.commitItems (s : State) (t : Task) (c : Commit) : State :=
  let (s, todo, ys) := s.doItems t c.todo c.syncs
  let step := if todo.isEmpty ∧ ys.isEmpty then 5 else 4
  let wait : CWait := if !todo.isEmpty then .room else if !ys.isEmpty then .sync else .none
  s.setTask t.row (some (t.withCommit { c with todo := todo, syncs := ys, step := step, wait := wait }))

/-! ## Steps 5 and 6 -/

/-- The successors an exit names, by position; zeros name none (R104). -/
def ownSuccs : ExitAct → List (Nat × Word)
  | .plain ss => (ss.zipIdx.map fun e => (e.2, e.1)).filter fun e => e.2 != 0
  | .wait w _ _ _ => if w = 0 then [] else [(0, w)]
  | .amo w _ _ _ _ _ => if w = 0 then [] else [(0, w)]
  | _ => []

/-- An arrival at the barrier group (R56): the group after it. -/
def Grp.arrive (g : Grp) (t : Task) (act : ExitAct) : Grp :=
  let g := { g with arrived := g.arrived ++ [t.gid.toNat] }
  if t.gid = 0 then { g with succ := (match act with
    | .bar w n _ => if w = 0 then none else some (w, n, t.tid)
    | _ => none) } else g

def Ctx.group (x : Ctx) (g : Option Nat) : Option Grp := x.groups.find? fun h => g == some h.id

/-- Whether an exit is an `XBAR` at `.POD`. -/
def ExitAct.atPod (a : ExitAct) : Bool :=
  match a with
  | .bar _ _ pod => pod
  | _ => false

/-- Since when a member of a `.POD` barrier stalls: a package of the pod cannot be reached (R348). -/
def State.podStall (s : State) (t : Task) (c : Commit) : Option Nat :=
  if c.act.atPod && !s.faulting t.cx then (s.unreached s.podPackages).map fun _ => match c.wait with
    | .pod since => since
    | _ => s.tb
  else none

/-- What a member of a `.POD` barrier sends with its arrival: the arrival, and the release with the last one (R346). -/
def State.podArrive (s : State) (t : Task) (c : Commit) (last : Bool) : State :=
  if c.act.atPod then
    let g := t.grp.getD t.tid.toNat
    let s := s.podSendAll s.podPackages (partOf t.cx) (.barrierArrival g t.gid.toNat)
    if last then s.podSendAll s.podPackages (partOf t.cx) (.barrierRelease g) else s
  else s

/-- The exit's atomic, where it has one, and the value it read; none while a hold of another receipt keeps the write waiting. The hold of its own receipt
is a measurement fault before the write (R311). -/
def State.commitAmo (s : State) (t : Task) (c : Commit) : Option (Nat × State) :=
  match c.act with
  | .amo _ op n k v va =>
    (match s.holdHit t.cx t.receipt [(k, n)] with
    | some true => some (0, s.fault t.cx 10 0 t.core (t.row % 12) va.toNat t.pc.toNat [])
    | some false => none
    | none => some (s.taskAtomic t k n op v va.toNat))
  | _ => some (0, s)

/-- Steps 5 and 6 after the exit's atomic: the rest of its action, and the credit (R13, R75). Under a context fault step 7 is left out (R79). A member
whose group has been cancelled commits as any task does: its own successors and its arrival at `.POD` stand, and only its group gets nothing from it
(R57, log 32). -/
def State.commitActNow (s : State) (t : Task) (c : Commit) (old : Nat) : State :=
  let s := { s with seen := s.seen.filter fun e => e.2 != t.row }
  let s := s.modCtx t.cx fun x => { x with groups := x.groups.map fun g => if t.grp = some g.id then g.arrive t c.act else g }
  let grp := match (s.ctx t.cx).bind fun x => x.group t.grp with
    | some g => if !g.cancelled && g.arrived.length == g.size then (match g.succ with | some (w, n, _) => [(16 + n, w)] | none => []) else []
    | none => match c.act with
      | .bar w n _ => if t.grp = none ∧ w ≠ 0 then [(16 + n, w)] else []
      | _ => []
  let last := match (s.ctx t.cx).bind fun x => x.group t.grp with
    | some g => g.arrived.length == g.size
    | none => true
  let s := s.podArrive t c last
  let n := (t.budget - t.meter) / 64
  let s := (s.credit (partOf t.cx) n).tally t.cx t.receipt 0 n
  let succ := if s.faulting t.cx then [] else ownSuccs c.act ++ grp
  s.setTask t.row (some (t.withCommit { c with step := 7, succ := succ, old := BitVec.ofNat 64 old, wait := .none }))

/-- Steps 5 and 6, once every package that a `.POD` barrier involves can be reached (R348) and no hold keeps the exit's atomic waiting (R311). -/
def State.commitAct (s : State) (t : Task) (c : Commit) : State :=
  match s.podStall t c with
  | some since => s.setTask t.row (some (t.withCommit { c with wait := .pod since }))
  | none => match s.commitAmo t c with
    | none => s.setTask t.row (some (t.withCommit { c with wait := .hold }))
    | some (old, s) => s.commitActNow t c old

/-! ## Step 7 -/

/-- How a successor's copy is rewritten (R104, R56). -/
def editCopy (c : Commit) (k : Nat) (w : Nat) : Nat :=
  if 16 ≤ k then setBits w 90 4 (k - 16)
  else match c.act with
    | .wait _ kind a v => setBits (setBits (setBits w 101 3 kind) 256 64 a.toNat) 320 64 v.toNat
    | .amo .. => setBits w 192 64 c.old.toNat
    | _ => w

/-- The base b of a successor (R44). -/
def succBase (s : State) (t : Task) (k : Nat) : Word :=
  if 16 ≤ k then (match (s.ctx t.cx).bind fun x => x.group t.grp with
    | some g => (match g.succ with | some (_, _, t0) => t0 * 5 + 1 | none => 0)
    | none => t.tid * 5 + 1)
  else t.tid * 5 + BitVec.ofNat 64 (k + 1)

/-- The outcome of one successor. -/
inductive Succ where
  | ok (s : State)
  | invalid (s : State)
  | wait (s : State) (w : CWait) (held : Option LBlock)
  | prot (s : State) (va acc : Nat)
  | data (s : State) (va : Nat)

/-- A successor that has been read and bound is copied into its queue, or keeps waiting (R61, R63, R285, R303, R361). -/
def State.copySucc (s : State) (t : Task) (k : Nat) (w : Word) (b : LBlock) : Succ :=
  match s.enqueue t.cx w.toNat b ⟨succBase s t k, none, false⟩ none with
  | .ok s => .ok s
  | .full s => .wait s (.segment (lbQsel b.image)) (some b)
  | .quota s => .wait s .quota (some b)
  | .pageFault va st l s => .wait (s.pendRead t.cx va 2 st l (.row t.row)) .page (some b)
  | .prot va s => .prot (s.unhold t.cx (some b)) va 2
  | .data va s => .data (s.unhold t.cx (some b)) va

/-- Reads, checks and enqueues or arms one successor (R55, R61, R361). -/
def State.oneSucc (s : State) (t : Task) (c : Commit) (k : Nat) (w : Word) : Succ :=
  let plain := decide (k < 16) && (match c.act with | .plain _ => true | _ => false)
  match c.held with
  | some b => s.copySucc t k w b
  | none => match s.readBlock (t.core / 8) t.cx w.toNat (editCopy c k) plain with
    | .invalid s => .invalid s
    | .pageFault va st l s => .wait (s.pendRead t.cx va 1 st l (.row t.row)) .page none
    | .prot va s => .prot s va 1
    | .data va s => .data s va
    | .ok b s =>
      if lbRearm b.image then .ok (s.arm t.cx w.toNat b ⟨succBase s t k, none, false⟩)
      else (s.bindAll b.chans.flatten).copySucc t k w b

/-- The faults of the successors found invalid (R104, R324): the first names its position, and every block not enqueued is listed in the order
named (R326); `left` are those that stay behind them. -/
def State.badSuccs (s : State) (t : Task) (bad left : List (Nat × Word)) : State :=
  bad.foldl (fun s e => s.fault t.cx 1 (if 16 ≤ e.1 then 0 else e.1) t.core (t.row % 12) e.2.toNat t.pc.toNat ((bad ++ left).map fun b => b.2.toNat)) s

/-- Step 7 over the successors left: the state, and the commit with those left, those found invalid, and what it waits for. -/
def State.doSuccs (s : State) (t : Task) (c : Commit) : List (Nat × Word) → List (Nat × Word) → State × Commit
  | [], bad => (s, { c with succ := [], bad := bad, wait := .none })
  | (k, w) :: r, bad =>
    match s.oneSucc t c k w with
    | .ok s => s.doSuccs t { c with held := none } r bad
    | .invalid s => s.doSuccs t { c with held := none } r (bad ++ [(k, w)])
    | .wait s x b => (s, { c with succ := (k, w) :: r, bad := bad, wait := x, held := b })
    | .prot s va acc => ((s.badSuccs t bad ((k, w) :: r)).fault t.cx 3 acc t.core (t.row % 12) va t.pc.toNat [],
        { c with succ := [], bad := [], wait := .none, held := none })
    | .data s va => ((s.badSuccs t bad ((k, w) :: r)).fault t.cx 12 0 t.core (t.row % 12) va t.pc.toNat [],
        { c with succ := [], bad := [], wait := .none, held := none })

/-- Step 7, and step 8 once no successor is left. A fault that came after step 5 ends it (R79, R300, R325). -/
def State.commitSuccs (s : State) (t : Task) (c : Commit) : State :=
  let ends := fun (s : State) (c : Commit) => (s.badSuccs t c.bad []).setTask t.row
    (some (t.withCommit { c with step := 8, succ := [], bad := [], wait := .none, held := none }))
  if s.faulting t.cx then ends (s.unhold t.cx c.held) c
  else
    let (s, c) := s.doSuccs t c c.succ c.bad
    if c.succ.isEmpty then ends s c else s.setTask t.row (some (t.withCommit c))

/-! ## Step 8 -/

/-- Whether a stage's commit advanced every handle by its guaranteed count (R209). -/
def stageAdvanced (t : Task) : Bool := t.handles.all fun h => h.adv == h.g

/-- Step 8: the row becomes free, bits clear, a bound block is armed again or disarmed, the Front passes markers (R49, R55, R210, R281). -/
def State.commitEnd (s : State) (t : Task) (c : Commit) : State :=
  let s := match t.stage with
    | some (q, pos) => if stageAdvanced t then s.markers t.cx q pos else s.fault t.cx 8 0 t.core (t.row % 12) 0 t.pc.toNat []
    | none => s
  let s := s.releaseHandles t
  let s := (s.memberEnded t.cx t.grp 1).freeRowGo t.row
  let s := match t.bound with
    | some b => if c.act == ExitAct.stop then s.disarm t.cx b else if s.faulting t.cx then s else s.rearm t.cx b
    | none => s
  let s := s.ended t.cx (if t.stage.isSome then none else t.pkt)
  match t.stage with
  | some (q, _) => (s.parkGo t.cx q).cutGo t.cx q
  | none => s

/-! ## The whole -/

/-- Performs what a commit is at, where its task has reached that step. -/
def State.atStep (s : State) (r k : Nat) (f : Task → Commit → State) : State :=
  match s.task r with
  | some t => (match t.commit with
    | some c => if c.step = k then f t c else s
    | none => s)
  | none => s

/-- A commit goes on as far as it can (R78). -/
def State.commitGo (s : State) (r : Nat) : State :=
  let s := s.atStep r 1 s.commitStart
  let s := s.atStep r 4 s.commitItems
  let s := s.atStep r 5 s.commitAct
  let s := s.atStep r 7 s.commitSuccs
  s.atStep r 8 s.commitEnd

end Sys2Proof.Machine
end

