-- ==== Sys2Proof/Machine/Matrix.lean ====
section
/-! DEFINITION. The matrix array (R160 to R164, R168, R169): block products (R126, R128), their order (R127), tile registers and swaps (R158),
and the formats of a drain. -/

namespace Sys2Proof.Machine

/-! ## Block products (R126, R128) -/

/-- An element of a mode: its value, exact. -/
def elemFm (mode prec : Nat) (fin : Bool) : Fm := if mode = 0 then .b8 (3 + prec) false fin false else bf16

/-- A value as an integer times 2^q. -/
def scaledBy (q : Int) (v : FVal) : Int :=
  match v with
  | .fin n m e => signed n (m * 2 ^ (e - q).toNat)
  | _ => 0

/-- The infinity of a product of two elements: none where the product is finite, `some none` where it is 0 × Inf. -/
def infProd (x y : FVal) : Option (Option Bool) :=
  if x.isInf || y.isInf then (if x.isZero || y.isZero then some none else some (some (x.neg != y.neg))) else none

/-- A dot product of one block in FP32 (R126): one rounding of the exact sum times 2^sh. -/
def dotBlock (fa fb : Fm) (sh : Int) (as bs : List FVal) : Nat :=
  let ps := as.zip bs
  if as.any FVal.isNaN || bs.any FVal.isNaN then fp32.qnan
  else
    let infs := ps.filterMap fun p => infProd p.1 p.2
    match infs with
    | [] =>
      let n := (ps.map fun p => scaledBy fa.qmin p.1 * scaledBy fb.qmin p.2).sum
      (fp32.round (.mode 0) (decide (n < 0)) n.natAbs (fa.qmin + fb.qmin + sh) false).1
    | none :: _ => fp32.qnan
    | some s :: r => if r.all fun x => x == some s then fp32.infBits s else fp32.qnan

/-- The settings of a tile-task that its arithmetic depends on. -/
structure MatMode where
  mode : Nat
  aprec : Nat
  bprec : Nat
  afin : Bool
  bfin : Bool
  deriving DecidableEq, Repr

/-- The elements of `n` bytes of a row or column. -/
def elemsOf (f : Fm) (bs : List Byte) : Nat → List FVal
  | 0 => []
  | n + 1 =>
    if f.width = 8 then f.value (natOfBytes (bs.take 1)) :: elemsOf f (bs.drop 1) n
    else f.value (natOfBytes (bs.take 2)) :: elemsOf f (bs.drop 2) n

/-- A signed byte. -/
def sbyte (b : Byte) : Int := b.toInt

/-- The block results of one A row and one column in order (R126 to R128): `sa` and `sb` are the two scales of each. -/
def blockResults (m : MatMode) (a b : List Byte) (sa sb : Nat → Nat) : List Nat :=
  if m.mode = 0 then
    let fa := elemFm 0 m.aprec m.afin
    let fb := elemFm 0 m.bprec m.bfin
    (List.range 2).map fun h =>
      if sa h = 0xFF ∨ sb h = 0xFF then fp32.qnan
      else dotBlock fa fb ((sa h : Int) + sb h - 254) (elemsOf fa (a.drop (128 * h)) 128) (elemsOf fb (b.drop (128 * h)) 128)
  else if m.mode = 1 then [dotBlock bf16 bf16 0 (elemsOf bf16 a 128) (elemsOf bf16 b 128)]
  else [(((a.zip b).map fun (p : Byte × Byte) => sbyte p.1 * sbyte p.2).sum % 2 ^ 32).toNat]

/-- One addition of R127: FP32 to nearest-even, or modulo 2^32. -/
def accAdd (mode x y : Nat) : Nat := if mode = 2 then (x + y) % 2 ^ 32 else (fAdd fp32 (.mode 0) x y).1

/-- The partial word after all block results, in order. -/
def accChain (mode : Nat) (ds : List Nat) : Nat :=
  match ds with
  | [] => 0
  | d :: r => r.foldl (accAdd mode) d

/-! ## The array's storage -/

/-- Where the registers of a core's array stand: in the order of the image of R329. -/
def actEl (core : Nat) : Nat := arrKey core 0
def loadEl (core : Nat) : Nat := arrKey core 0x20000
def actSc (core : Nat) : Nat := arrKey core 0x40000
def loadSc (core : Nat) : Nat := arrKey core 0x40400
def accKey (core row col : Nat) : Nat := arrKey core (0x40800 + 2048 * row + 4 * col)

/-- A range of locations overwritten with bytes. -/
def setRange (m : List Host.Cell) (k : Nat) (bs : List Byte) : List Host.Cell :=
  m.filter (fun c => decide (c.1 < k)) ++ (cellsAt k bs).filter (fun c => c.2 != 0) ++ m.filter fun c => decide (k + bs.length ≤ c.1)

/-- A swap token (R158): the active and loading registers of every column are exchanged. -/
def swapTiles (m : List Host.Cell) (core : Nat) : List Host.Cell :=
  let ae := getBs m (actEl core) 131072
  let le := getBs m (loadEl core) 131072
  let as := getBs m (actSc core) 1024
  let ls := getBs m (loadSc core) 1024
  setRange (setRange (setRange (setRange m (actEl core) le) (loadEl core) ae) (actSc core) ls) (loadSc core) as

/-- The loading registers filled from a deck granule (R157, R168): with the scales that follow, or with 0x7F. -/
def fillTile (m : List Host.Cell) (core doff : Nat) (sc : Bool) : List Host.Cell :=
  let m := setRange m (loadEl core) (getBs m (deckKey core (256 * doff)) 131072)
  setRange m (loadSc core) (if sc then getBs m (deckKey core (256 * doff + 131072)) 1024 else List.replicate 1024 0x7F)

/-- The column j of the active registers, and its scales. -/
def colOf (m : List Host.Cell) (core j : Nat) : List Byte := getBs m (actEl core + 256 * j) 256
def colScale (m : List Host.Cell) (core j h : Nat) : Nat := (getB m (actSc core + 2 * j + h)).toNat

/-- The results of one chunk: for every row and column, its block results (R161, R162). -/
def chunkResults (mm : MatMode) (m : List Host.Cell) (core : Nat) (rows : List (List Byte)) (sc : Nat → Nat → Nat) : List (List (List Nat)) :=
  rows.zipIdx.map fun r => (List.range 512).map fun j => blockResults mm r.1 (colOf m core j) (sc r.2) (colScale m core j)

/-- The chunks of a tile-task (R163): tiles swap in turn, and the memory is left with the registers as R163 says. -/
def runChunks (mm : MatMode) (core rows bnext : Nat) (rowAt : Nat → List Byte) (sc : Nat → Nat → Nat) :
    Nat → Nat → List Host.Cell → List Host.Cell × List (List (List (List Nat)))
  | 0, _, m => (m, [])
  | n + 1, r, m =>
    let m := if r = 0 then m else swapTiles (fillTile m core (bnext + (r - 1) * (if mm.mode = 0 then 516 else 512)) (mm.mode == 0)) core
    let c := chunkResults mm m core ((List.range rows).map fun i => rowAt (r * rows + i)) (fun i => sc (r * rows + i))
    let rest := runChunks mm core rows bnext rowAt sc n (r + 1) m
    (rest.1, c :: rest.2)

/-- The partial words after one more chunk (R127, R164): those after the chunks before it, continued with its block results. -/
def chainChunk (mode rows : Nat) (part : List Nat) (c : List (List (List Nat))) : List Nat :=
  (List.range (512 * rows)).map fun i => accChain mode ((part[i]?).toList ++ (c.getD (i / 512) []).getD (i % 512) [])

/-- C written from the partial words of the last chunk. -/
def finishPart (mm : MatMode) (fresh : Bool) (core : Nat) (part : List Nat) (m : List Host.Cell) : List Host.Cell :=
  setRange m (accKey core 0 0) (part.zipIdx.flatMap fun t =>
    bytesOfNat 4 (if fresh then t.1 else accAdd mm.mode (getN m (accKey core (t.2 / 512) (t.2 % 512)) 4) t.1))

/-- The accumulator words of a finished tile-task (R127): replaced, or added to. -/
def finishAcc (mm : MatMode) (fresh : Bool) (core rows : Nat) (cs : List (List (List (List Nat)))) (m : List Host.Cell) : List Host.Cell :=
  setRange m (accKey core 0 0) ((List.range (512 * rows)).flatMap fun i =>
    let t := accChain mm.mode (cs.flatMap fun c => (c.getD (i / 512) []).getD (i % 512) [])
    bytesOfNat 4 (if fresh then t else accAdd mm.mode (getN m (accKey core (i / 512) (i % 512)) 4) t))

/-! ## Drains (R169) -/

/-- Floor of log2 of a finite non-zero value. -/
def log2Of (v : FVal) : Int :=
  match v with
  | .fin _ m e => e + bitLen m - 1
  | _ => 0

/-- A block of 128 accumulator words as a scale and element codes. -/
def drainBlock (f : Fm) (ws : List Nat) : Nat × List Nat :=
  let vs := ws.map fp32.value
  if vs.any (fun v => v.isNaN || v.isInf) then (0xFF, vs.map fun _ => f.qnan)
  else if vs.all FVal.isZero then (0x7F, vs.map fun _ => 0)
  else
    let top := ((vs.filter fun v => !v.isZero).map log2Of).foldl max (-1000)
    let s := max 0 (min 254 (127 + top - log2Of (f.value f.maxCode)))
    (s.toNat, vs.map fun v => match v with
      | .fin n m e => (f.round (.mode 0) n m (e + 127 - s) false).1
      | _ => 0)

/-- The bytes of a drain of M rows. -/
def drainBytes (rows ofmt prec : Nat) (usgn fin : Bool) (acc : Nat → Nat → Nat) : List Byte :=
  if ofmt = 0 then (List.range (512 * rows)).flatMap fun i => bytesOfNat 4 (acc (i / 512) (i % 512))
  else if ofmt ≤ 2 then (List.range (512 * rows)).flatMap fun i =>
    bytesOfNat 2 (fConv fp32 (if ofmt = 1 then bf16 else fp16) (.mode 0) (acc (i / 512) (i % 512))).1
  else
    let bs := (List.range (4 * rows)).map fun i =>
      drainBlock (.b8 (3 + prec) usgn fin true) ((List.range 128).map fun j => acc (i / 4) (128 * (i % 4) + j))
    (bs.flatMap fun b => b.2.map fun c => BitVec.ofNat 8 c) ++ bs.map fun b => BitVec.ofNat 8 b.1

end Sys2Proof.Machine
end

