-- ==== Sys2Proof/Machine/Engine.lean ====
section
/-! DEFINITION. Stream commands as their engines perform them (R172, R173, R183, R188 to R198, R202 to R204). -/

namespace Sys2Proof.Machine

/-! ## Issue -/

/-- A command at issue: its context, its queue and itself. -/
structure Iss where
  cx : Nat
  k : Nat
  c : Cmd
  deriving DecidableEq, Repr

/-- The outcome of a part of a command's issue (R183): done, a context fault, one that comes after requests have been counted (R230, R328), a miss that
stalls the port, or a wait. -/
inductive Eng (α : Type) where
  | ok (a : α) (s : State)
  | fault (cls detail addr : Nat)
  | faultAt (s : State) (cls detail addr : Nat)
  | stall (port va acc stage level : Nat)
  | wait

def Eng.bind {α β : Type} (r : Eng α) (f : α → State → Eng β) : Eng β :=
  match r with
  | .ok a s => f a s
  | .fault c d a => .fault c d a
  | .faultAt s c d a => .faultAt s c d a
  | .stall p v a st l => .stall p v a st l
  | .wait => .wait

/-- Whether a command would wait now, behind a hold or a port's miss. -/
def Eng.waits {α : Type} (r : Eng α) : Bool :=
  match r with
  | .wait => true
  | _ => false

/-- The port of a queue's engine (R241). -/
def Iss.port (i : Iss) : Nat :=
  match codeOf i.k with
  | 2 => cpPort i.c.core 1
  | 3 => gaPort (i.c.core / 8) (i.c.core % 8 / 4)
  | 5 => inPort (i.c.core / 8)
  | _ => cpPort i.c.core 0

/-- The core a fault of a command names (R326): none for the die's intake engine. -/
def Iss.faultCore (i : Iss) : Nat := if codeOf i.k = 5 then 63 else i.c.core

/-- The array image that stands for a context in its area (R329). -/
def imageAt (x : Ctx) (core : Nat) : Nat := x.setup.area + 0x1000 + 0x61000 * core

/-- The bytes of a core's image for a context: tile registers, accumulators, slots. -/
def coreImage (s : State) (x : Ctx) (core : Nat) : List Byte :=
  getBs s.mem (actEl core) 0x60800 ++ ((List.range 16).flatMap fun d =>
    let q := getT x.slots (16 * core + d) ⟨false, 0⟩
    bytesOfNat 8 (q.pend % 2 ^ 32 + if q.set then 2 ^ 32 else 0)) ++ List.replicate (0x61000 - 0x60880) 0

/-- Whether a context's image of a core is still to be written (R361). -/
def State.imagePending (s : State) (cx core : Nat) : Bool :=
  s.pendW.any fun w => w.miss.cx == cx && w.kind == 5 && (s.ctx cx).any fun x => w.va == imageAt x core

/-- The incoming context's registers: from its image, or zero where it has none (R329, log 8). False: the read waits for the page service, or for the
image itself to be written. -/
def State.restoreArray (s : State) (cx core : Nat) : Bool × State :=
  let own := fun (s : State) => s.modCore core fun c => { c with owner := some cx, handover := false }
  match s.ctx cx with
  | none => (true, s)
  | some x =>
    if x.images.contains core then
      if s.pendR.any (fun m => m.who == .engine cx (5 * core)) || s.imagePending cx core then (false, s)
      else match s.reach (ctxPort (core / 8)) cx (imageAt x core) 0x60800 1 with
        | .ok ks s => (match s.poisonIn (imageAt x core) ks with
          | some g => (false, s.fault cx 12 0 core 15 (g - g % 256) 0 [])
          | none => (true, own { s with mem := setRange s.mem (actEl core) (s.gets ks) }))
        | .pageFault a st l s => (false, { s with pendR := s.pendR ++ [⟨cx, a, 1, st, l, s.tb, false, .engine cx (5 * core)⟩] })
        | .prot a s => (false, s.fault cx 3 1 core 15 a 0 [])
        | .data a s => (false, s.fault cx 12 0 core 15 a 0 [])
    else (true, own { s with mem := clearRange s.mem (actEl core) 0x60800 })

/-- Whether a context still has matrix work on a core: commands of `Q.MX`, or loads of the deck (R170). -/
def Ctx.matrixWork (x : Ctx) (core : Nat) : Bool :=
  !(getEq x (5 * core)).cmds.isEmpty || [1, 2].any fun code => (getEq x (5 * core + code)).cmds.any fun c => opcOf c.w0 == 0x06

/-- A core's array and deck are the context's, after a handover where another context owned them (R170, R329), once the owner's work there is done:
each slice boundary permits one, as long as its owner has appended no new work since (log 16). False: that must wait. -/
def State.takeArray (s : State) (cx core : Nat) : Bool × State :=
  match (s.core core).owner with
  | none => s.restoreArray cx core
  | some o =>
    if o = cx then (true, s)
    else match s.ctx o with
      | none => s.restoreArray cx core
      | some y =>
        if y.matrixWork core || !(s.core core).handover then (false, s)
        else
          let s := if y.setup.areaOk then
              (s.devWriteAt (core / 8) o 5 (imageAt y core) (coreImage s y core)).modCtx o fun y => { y with images := core :: y.images.filter fun n => n != core }
            else s
          s.restoreArray cx core

/-- Whether the head command may issue (R172, R187): its wait has been satisfied, and its context is neither faulted, halted nor stopped (R300, R325,
R356). DESIGN CHOICE (R247): commands of a context that drains from the core go on issuing there (log 32). -/
def State.mayIssue (s : State) (x : Ctx) (c : Cmd) : Bool :=
  (c.sat || slotsSet x c.core c.w0) && x.halt.fault.isNone && !x.halt.halted && x.dbg.state == 0 && !(s.die (c.core / 8)).stopped

/-- Whether a command needs the core's array or deck (R170). -/
def ownsArray (k : Nat) (c : Cmd) : Bool := usesArray (codeOf k) c.w0

/-- A command that the pool has paid for (R71): at this turn, or while it waited. The packets of one that cannot be paid yet stand as due. -/
def State.payCmd (s : State) (cx : Nat) (c : Cmd) (n : Nat) : Option State :=
  if c.st = .paid then some s else (s.debit (partOf cx) n).map fun s => s.tally cx c.receipt n 0

/-- The head command of a queue issues, once its conditions hold and the pool pays (R172, R188), and the command that is then at the head is examined
(R187). A fault at issue leaves it unissued, but paid for: the pool pays as it goes to issue, and the checks of R183 are part of the issue (log 32). -/
def State.engineTurn (s : State) (cx k : Nat) (cost : State → Iss → Nat) (body : State → Iss → Eng CmdSt) (more : State → Iss → State) : State :=
  match s.ctx cx with
  | none => s
  | some x =>
    match headCmd x k with
    | none => s
    | some c =>
      let i : Iss := ⟨cx, k, c⟩
      match c.st with
      | .done => s
      | .issued => (more s i).modCtx cx Ctx.latch
      | _ =>
        if !s.mayIssue x c then s
        else
          let (ready, s) := if ownsArray k c then s.takeArray cx c.core else (true, s)
          if !ready then s
          else
            let n := cdiv (cost s i) 64
            match s.payCmd cx c n with
            | none => s.modCmd cx k c.seq fun d => { d with due := some n, held := (body s i).waits }
            | some s' =>
              match body s' i with
              | .ok st s => (s.modCmd cx k c.seq fun d => { d with st := st, due := none, held := false }).modCtx cx Ctx.latch
              | .fault cls d a => s'.fault cx cls d i.faultCore 15 a 0 []
              | .faultAt s cls d a => s.fault cx cls d i.faultCore 15 a 0 []
              | .stall p va acc st l => s.modPort p fun q => { q with miss := some ⟨cx, va, acc, st, l, s.tb, false, .engine cx k⟩ }
              | .wait => s.modCmd cx k c.seq fun d => { d with held := true }

/-- A stream command performed by the engine whose turn it is. -/
def State.runCmd (s : State) (cost : State → Iss → Nat) (body : State → Iss → Eng CmdSt) (more : State → Iss → State) :
    Host.Outcome State Fault Refusal :=
  match s.turn with
  | .engine cx k => .next (s.engineTurn cx k cost body more)
  | _ => .refused .noAgent

/-! ## Reaching memory -/

/-- The locations of an operand (R183, R231): translated, or within the context's ranges. -/
def State.engKeys (s : State) (i : Iss) (sp addr n acc : Nat) : Eng (List (Nat × Nat)) :=
  if sp = 0 then
    if (s.port i.port).miss.isSome then .wait
    else match s.reach i.port i.cx (canon57 addr) n acc with
      | .ok ks s => .ok ks s
      | .pageFault a st l _ => .stall i.port a acc st l
      | .prot a _ => .fault 3 acc a
      | .data a _ => .fault 12 0 a
  else if s.reachable i.cx i.c.core sp addr n then .ok [(spaceKey sp i.c.core addr, n)] s
  else .fault 3 acc addr

/-- Bytes read by an engine (R205, R230): a poisoned granule is a data error, once the requests up to it have been sent; the indirect-stream engines'
requests are not counted. -/
def State.engRead (s : State) (i : Iss) (sp addr n : Nat) : Eng (List Byte) :=
  (s.engKeys i sp addr n 1).bind fun ks s =>
    let a := if sp = 0 then canon57 addr else addr
    let counts := sp = 0 ∧ codeOf i.k ≠ 3
    match s.poisonIn a ks with
    | some g => .faultAt (if counts then s.readSent (i.c.core / 8) i.cx a ks g else s) 12 0 (g - g % 256)
    | none => .ok (s.gets ks) (if counts then s.readVia (i.c.core / 8) i.cx a ks else s)

/-- Writes held back, or stopped, by a receipt (R311). -/
def State.engHold (s : State) (i : Iss) (ks : List (Nat × Nat)) (addr : Nat) : Eng Unit :=
  match s.holdHit i.cx i.c.receipt (ks.filter fun k => isMemKey k.1) with
  | some true => .fault 10 0 addr
  | some false => .wait
  | none => .ok () s

/-- Bytes written by an engine over locations already reached. -/
def State.engPut (s : State) (i : Iss) (sp addr : Nat) (ks : List (Nat × Nat)) (bs : List Byte) : State :=
  (if sp = 0 ∧ codeOf i.k ≠ 3 then s.writeVia (i.c.core / 8) i.cx (canon57 addr) ks else s).puts ks bs

/-- An operand of a command: its space, address and length, and how it is accessed. -/
abbrev OpSpan := Nat × Nat × Nat × Nat

/-- The first operand on chip that the context's ranges do not hold, as access kind and address (R231). -/
def State.outside (s : State) (i : Iss) (l : List OpSpan) : Option (Nat × Nat) :=
  l.findSome? fun (sp, addr, n, acc) => if sp = 0 ∨ s.reachable i.cx i.c.core sp addr n = true then none else some (acc, addr)

/-- The range check at issue (R231): over every byte that the command will reach on chip, before any of them is read. DESIGN CHOICE (R183, R231): of
several operands that fail a check, the fault names the first in the order in which the command's meaning takes them: source before destination, index
array before dense array, A rows or channel before scales before deck, output channel before quarantine ring (log 32). -/
def State.engRanges (s : State) (i : Iss) (l : List OpSpan) : Eng Unit :=
  match s.outside i l with
  | some (acc, a) => .fault 3 acc a
  | none => .ok () s

/-! ## Copies (R189 to R191) -/

/-- One side of a copy of contiguous bytes to another (R190): the ranges are checked first (R231), and both sides translated before anything is
written. -/
def State.engCopy (s : State) (i : Iss) (ssp src dsp dst n : Nat) (after : State → Eng (State → State)) : Eng CmdSt :=
  (s.engRanges i [(ssp, src, n, 1), (dsp, dst, n, 2)]).bind fun _ s => (s.engRead i ssp src n).bind fun bs s =>
    (s.engKeys i dsp dst n 2).bind fun ks s => (after s).bind fun fin s => (s.engHold i ks dst).bind fun _ s => .ok .done (fin (s.engPut i dsp dst ks bs))

/-- The near space of R189, and whether it is the source. -/
def nearSpace (n : BitVec 3) : Nat := (n.toNat + 1) % 3 + 2
def nearIsSource (n : BitVec 3) : Bool := decide (n.toNat < 5)

/-- COPY and the payload of COPYC. -/
def State.nearCopy (s : State) (i : Iss) (far len near noff : Nat) (src : Bool) (after : State → Eng (State → State)) : Eng CmdSt :=
  if src then s.engCopy i near (256 * noff) 0 far (256 * len) after else s.engCopy i 0 far near (256 * noff) (256 * len) after

/-- Nothing further to do for a command already issued. -/
def noMore (s : State) (_ : Iss) : State := s

def execCopy (_h : CmdHdr) (o : CopyOps) (s : State) : Host.Outcome State Fault Refusal :=
  s.runCmd (fun _ _ => 64 + 16 * o.len.toNat)
    (fun s i => s.nearCopy i o.far.toNat o.len.toNat (nearSpace o.near) o.noff.toNat (nearIsSource o.near) fun s => .ok id s) noMore

def execCopyc (_h : CmdHdr) (o : CopycOps) (s : State) : Host.Outcome State Fault Refusal :=
  s.runCmd (fun _ _ => 80 + 16 * o.len.toNat)
    (fun s i => s.nearCopy i o.far.toNat o.len.toNat (nearSpace o.near) o.noff.toNat (nearIsSource o.near) fun s =>
      (s.engKeys i 0 o.cwa.toNat 8 2).bind fun ks s => (s.engHold i ks (canon57 o.cwa.toNat)).bind fun _ s =>
        .ok (fun s => s.engPut i 0 o.cwa.toNat ks (bytesOfNat 8 o.cwv.toNat)) s) noMore

/-- Something for each row of a strided operand, in ascending order. -/
def forRows {α : Type} (f : State → Nat → Eng α) : State → List Nat → Eng (List α)
  | s, [] => .ok [] s
  | s, r :: rs => (f s r).bind fun a s => (forRows f s rs).bind fun as s => .ok (a :: as) s

/-- An address of row r of a `mem` operand or an offset in a space. -/
def rowAddr (sp base stride r : Nat) : Nat := if sp = 0 then (base + r * stride) % 2 ^ 57 else base + r * stride

/-- The rows of a strided operand. -/
def rowSpans (sp base stride n acc rows : Nat) : List OpSpan := (List.range rows).map fun r => (sp, rowAddr sp base stride r, n, acc)

def copy2dSpans (o : Copy2dOps) : List OpSpan :=
  rowSpans o.ssp.toNat o.src.toNat o.sstride.toNat o.rlen.toNat 1 o.rows.toNat ++ rowSpans o.dsp.toNat o.dst.toNat o.dstride.toNat o.rlen.toNat 2 o.rows.toNat

def execCopy2d (_h : CmdHdr) (o : Copy2dOps) (s : State) : Host.Outcome State Fault Refusal :=
  let rows := o.rows.toNat
  let n := o.rlen.toNat
  s.runCmd (fun _ _ => 64 + 16 * cdiv (rows * n) 256 + 8 * rows)
    (fun s i => (s.engRanges i (copy2dSpans o)).bind fun _ s =>
      (forRows (fun s r => s.engRead i o.ssp.toNat (rowAddr o.ssp.toNat o.src.toNat o.sstride.toNat r) n) s (List.range rows)).bind fun bs s =>
      (forRows (fun s r => s.engKeys i o.dsp.toNat (rowAddr o.dsp.toNat o.dst.toNat o.dstride.toNat r) n 2) s (List.range rows)).bind fun ks s =>
      (s.engHold i ks.flatten o.dst.toNat).bind fun _ s =>
        .ok .done ((ks.zip bs).zipIdx.foldl (fun s e =>
          s.engPut i o.dsp.toNat (rowAddr o.dsp.toNat o.dst.toNat o.dstride.toNat e.2) e.1.1 e.1.2) s)) noMore

/-! ## Deck, tile loads, drains (R192, R193, R195) -/

/-- DECK moves the bytes of its source as they stand: it applies no scales, so the `GEO` of its pages has no effect (R125, log 32). -/
def execDeck (_h : CmdHdr) (o : DeckOps) (s : State) : Host.Outcome State Fault Refusal :=
  s.runCmd (fun _ _ => 64 + 16 * o.len.toNat)
    (fun s i => (s.engRead i o.ssp.toNat o.src.toNat (256 * o.len.toNat)).bind fun bs s =>
      .ok .done (s.write (deckKey i.c.core (256 * o.doff.toNat)) bs)) noMore

/-- A data error of the deck (R328). -/
def State.deckCheck (s : State) (core doff n : Nat) : Eng Unit :=
  match s.poisoned (deckKey core (256 * doff)) (256 * n) with
  | some g => .fault 12 0 (g * 256 - deckKey core 0)
  | none => .ok () s

def execBload (_h : CmdHdr) (o : BloadOps) (s : State) : Host.Outcome State Fault Refusal :=
  s.runCmd (fun _ _ => if o.sc = 1 then 8320 else 8256)
    (fun s i => (s.deckCheck i.c.core o.doff.toNat (if o.sc = 1 then 516 else 512)).bind fun _ s =>
      .ok .done { s with mem := fillTile s.mem i.c.core o.doff.toNat (o.sc == 1) }) noMore

/-- Bytes a drain writes (R195). -/
def drainLen (ofmt rows : Nat) : Nat := (if ofmt = 0 then 2048 else if ofmt ≤ 2 then 1024 else 516) * rows

def execMxdrain (_h : CmdHdr) (o : MxdrainOps) (s : State) : Host.Outcome State Fault Refusal :=
  let rows := o.mm1.toNat + 1
  s.runCmd (fun _ _ => 64 + 16 * cdiv (drainLen o.ofmt.toNat rows) 256)
    (fun s i => (s.engKeys i 2 (256 * o.dst.toNat) (drainLen o.ofmt.toNat rows) 2).bind fun ks s =>
      .ok .done (s.puts ks (drainBytes rows o.ofmt.toNat o.prec.toNat (o.usgn == 1) (o.fin == 1)
        fun m j => getN s.mem (accKey i.c.core m j) 4))) noMore

/-! ## Tile-tasks (R161 to R166, R194) -/

def mxtM (o : MxtOps) : Nat := o.mm1.toNat + 1
def mxtK (o : MxtOps) : Nat := o.km1.toNat + 1
def mxtMode (o : MxtOps) : MatMode := ⟨o.mode.toNat, o.aprec.toNat, o.bprec.toNat, o.afin == 1, o.bfin == 1⟩

/-- Where the A channel of a tile-task stands (R166). -/
def mxtHdr (o : MxtOps) (core : Nat) : Nat := spaceKey (if o.aspc = 1 then 3 else 2) core o.ahdr.toNat

/-- The whole tile-task once its A rows are known: the swap, the chunks and the accumulators (R158, R163, R164, R127). -/
def mxtRun (o : MxtOps) (core : Nat) (rowAt : Nat → List Byte) (m : List Host.Cell) : List Host.Cell :=
  let m := if o.swap0 = 1 then swapTiles m core else m
  let scale := fun g h => (getB m (padKey core (o.ascl.toNat + 2 * g + h))).toNat
  let r := runChunks (mxtMode o) core (mxtM o) o.bnext.toNat rowAt scale (mxtK o) 0 m
  finishAcc (mxtMode o) (o.fresh == 1) core (mxtM o) r.2 r.1

/-- What a tile-task reaches in the pad or quad before its channel's header is read. -/
def mxtSpans (o : MxtOps) : List OpSpan :=
  let n := mxtM o * mxtK o
  (if o.ach = 0 then [(2, 256 * o.abase.toNat, 256 * n, 1)] else [(if o.aspc = 1 then 3 else 2, o.ahdr.toNat, 64, 3)])
    ++ if o.mode = 0 then [(2, o.ascl.toNat, 2 * n, 1)] else []

/-- The checks of a tile-task at issue (R166, R183, R194, R231, R328). DESIGN CHOICE (R194): an `AHDR` at or past the end of the pad, whose region is both
invalid (R48) and out of reach (R231), is a protection fault; and a channel out of reach is one of access kind 3, since its counts are read and written
(log 32). -/
def State.mxtCheck (s : State) (i : Iss) (o : MxtOps) : Eng Unit :=
  let n := mxtM o * mxtK o
  let chan : Eng Unit :=
    if o.ach = 0 then (s.engRead i 2 (256 * o.abase.toNat) (256 * n)).bind fun _ s => .ok () s
    else
      let sp := if o.aspc = 1 then 3 else 2
      let k := mxtHdr o i.c.core
      if let some a := s.hdrPoison (o.aspc == 1) k then .fault 12 0 a
      else match chanHdr s.mem (o.aspc == 1) k with
        | none => .fault 4 0 o.ahdr.toNat
        | some h =>
          (s.engKeys i sp o.ahdr.toNat (64 + tagBytes h.logn + 2 ^ h.logn * h.slotSz) 3).bind fun _ s =>
            if let some a := s.chanPoison (o.aspc == 1) k then .fault 12 0 a
            else if h.slotSz ≠ 64 then .fault 4 0 o.ahdr.toNat
            else if s.isBound k false then .fault 7 0 o.ahdr.toNat
            else .ok () s
  (s.engRanges i (mxtSpans o)).bind fun _ _ => chan.bind fun _ s =>
    let scales : Eng Unit := if o.mode = 0 then (s.engRead i 2 o.ascl.toNat (2 * n)).bind fun _ s => .ok () s else .ok () s
    scales.bind fun _ s => if mxtK o = 1 then .ok () s else s.deckCheck i.c.core o.bnext.toNat ((mxtK o - 1) * (if o.mode = 0 then 516 else 512))

/-- A channel-fed tile-task ends without completing (R166). -/
def State.loseCmd (s : State) (cx k seq : Nat) : State :=
  s.modCtx cx fun x =>
    let e := getEq x k
    (unjoin { x with eqs := putT x.eqs k { e with cmds := e.cmds.filter (fun c => c.seq != seq), lost := if e.lost = 0 then seq else e.lost } } k seq).latch

/-- A swap of a channel-fed tile-task, and the chained load of the tile after it where there is one: tile r is active then (R158, R163). -/
def mxtSwap (o : MxtOps) (core r : Nat) (swap : Bool) (m : List Host.Cell) : List Host.Cell :=
  let m := if swap then swapTiles m core else m
  if r + 1 < mxtK o then fillTile m core (o.bnext.toNat + r * (if o.mode = 0 then 516 else 512)) (o.mode == 0) else m

/-- A channel-fed tile-task has the M rows of its present chunk (R163, R164): the partial words go on; then the next tile is swapped in, or C is
written. -/
def State.mxtChunk (s : State) (i : Iss) (o : MxtOps) (rows : List Nat) : State :=
  let core := i.c.core
  let r := i.c.chunk
  let sc := fun (j h : Nat) => (getB s.mem (padKey core (o.ascl.toNat + 2 * (r * mxtM o + j) + h))).toNat
  let part := chainChunk o.mode.toNat (mxtM o) i.c.part (chunkResults (mxtMode o) s.mem core (rows.map fun w => bytesOfNat 256 w) sc)
  if r + 1 < mxtK o then
    ({ s with mem := mxtSwap o core (r + 1) true s.mem } : State).modCmd i.cx i.k i.c.seq fun c => { c with rows := [], chunk := r + 1, part := part }
  else
    ({ s with mem := finishPart (mxtMode o) (o.fresh == 1) core part s.mem } : State).modCmd i.cx i.k i.c.seq fun c =>
      { c with rows := [], part := [], st := .done }

/-- The first poisoned granule of the four slots of a channel row, as an offset of the channel's space (R328). -/
def State.rowPoison (s : State) (o : MxtOps) (k : Nat) (h : ChanHdr) : Option Nat :=
  (List.range 4).findSome? fun j =>
    let key := slotKey k h.logn h.slotSz (h.rcnt + j)
    (s.poisoned key 64).map fun g => o.ahdr.toNat + (key - k) - (key - g * 256)

/-- One row taken from the channel (R166): four filled slots, `RCNT` advanced by 4. A marker slot is a format fault, as soon as it is among the first
filled slots (log 32), and a poisoned granule of header, tags or slots a data error (R328): the swaps made so far stand, and C is not written (R164,
log 32). -/
def State.mxtMore (s : State) (i : Iss) (o : MxtOps) : State :=
  let k := mxtHdr o i.c.core
  let lose := fun (cls addr : Nat) => ((s.loseCmd i.cx i.k i.c.seq).setBind k false false).fault i.cx cls 0 i.c.core 15 addr 0 []
  match chanHdr s.mem (o.aspc == 1) k with
  | none => (s.loseCmd i.cx i.k i.c.seq).fault i.cx 4 0 i.c.core 15 o.ahdr.toNat 0 []
  | some h =>
    if let some a := s.chanPoison (o.aspc == 1) k then lose 12 a
    else if (List.range (min 4 h.filled)).any fun j => tagAt s.mem k h.logn (h.rcnt + j) != 0 then lose 4 o.ahdr.toNat
    else if h.filled < 4 then s
    else match s.rowPoison o k h with
    | some g => lose 12 g
    | none =>
      let row := natOfBytes ((List.range 4).flatMap fun j => getBs s.mem (slotKey k h.logn h.slotSz (h.rcnt + j)) 64)
      let rows := i.c.rows ++ [row]
      let s := s.advance k false 4
      if rows.length < mxtM o then s.modCmd i.cx i.k i.c.seq fun c => { c with rows := rows } else s.mxtChunk i o rows

def execMxt (_h : CmdHdr) (o : MxtOps) (s : State) : Host.Outcome State Fault Refusal :=
  s.runCmd (fun _ _ => 12288 * (mxtM o * mxtK o) + 4096)
    (fun s i => (s.mxtCheck i o).bind fun _ s =>
      let s := s.modCore i.c.core fun c => { c with bankB := !c.bankB }
      if o.ach = 1 then
        let s := s.setBind (mxtHdr o i.c.core) false true
        .ok .issued { s with mem := mxtSwap o i.c.core 0 (o.swap0 == 1) s.mem }
      else
        let m := s.mem
        .ok .done { s with mem := mxtRun o i.c.core (fun g => getBs m (padKey i.c.core (256 * (o.abase.toNat + g))) 256) m })
    fun s i => if o.ach = 1 then s.mxtMore i o else s

/-! ## Gather and scatter (R196, R197) -/

/-- The addresses and locations of the elements in index order, up to the first that cannot be reached: none, or its fault. -/
def State.elemKeys (s : State) (i : Iss) (e acc : Nat) : List Nat → Eng (List (Nat × List (Nat × Nat)) × Option (Nat × Nat × Nat))
  | [] => .ok ([], none) s
  | a :: r =>
    if !isCanon a then .ok ([], some (6, 0, a)) s
    else match s.engKeys i 0 a e acc with
      | .ok ks s => (s.elemKeys i e acc r).bind fun x s => .ok ((a, ks) :: x.1, x.2) s
      | .fault c d x => .ok ([], some (c, d, x)) s
      | .faultAt s c d x => .ok ([], some (c, d, x)) s
      | .stall p v c st l => .stall p v c st l
      | .wait => .wait

/-- The element addresses: BASE + x(i) × E modulo 2^64. -/
def elemAddrs (o : GatherOps) (idx : List Byte) : List Nat :=
  let w := if o.iw = 1 then 8 else 4
  (List.range o.count.toNat).map fun i => (canon57 o.base.toNat + natOfBytes ((idx.drop (w * i)).take w) * (4 * 2 ^ o.esz.toNat)) % 2 ^ 64

/-- The parts of a gather or scatter: its index array, its dense array, its elements. -/
def State.indirect (s : State) (i : Iss) (o : GatherOps) (acc : Nat)
    (go : State → List (Nat × List (Nat × Nat)) → Eng CmdSt) : Eng CmdSt :=
  let w := if o.iw = 1 then 8 else 4
  (s.engRead i o.isp.toNat o.idx.toNat (w * o.count.toNat)).bind fun idx s =>
    (s.elemKeys i (4 * 2 ^ o.esz.toNat) acc (elemAddrs o idx)).bind fun x s => (go s x.1).bind fun st s =>
      match if ((s.ctx i.cx).bind fun y => findCmd y i.k i.c.seq).isNone then none else x.2 with
      | none => .ok st s
      | some (c, d, a) => .ok .done ((s.loseCmd i.cx i.k i.c.seq).fault i.cx c d i.faultCore 15 a 0 [])

/-- GATHER's elements: a poisoned one ends the command after those before it (R197, R328). -/
def State.gatherGo (s : State) (i : Iss) (o : GatherOps) (dk : List (Nat × Nat)) : Nat → List (Nat × List (Nat × Nat)) → State
  | _, [] => s
  | n, (a, ks) :: r =>
    let e := 4 * 2 ^ o.esz.toNat
    match s.poisonIn a ks with
    | some g => (s.loseCmd i.cx i.k i.c.seq).fault i.cx 12 0 i.faultCore 15 (g - g % 256) 0 []
    | none => (s.puts (subRange dk (e * n) e) (s.gets ks)).gatherGo i o dk (n + 1) r
where
  /-- The part of a list of ranges from an offset. -/
  subRange : List (Nat × Nat) → Nat → Nat → List (Nat × Nat)
    | [], _, _ => []
    | (k, m) :: r, off, n =>
      if m ≤ off then subRange r (off - m) n
      else if off + n ≤ m then [(k + off, n)]
      else (k + off, m - off) :: subRange r 0 (n - (m - off))

/-- The index and dense arrays; the dense one is written by a GATHER and read by a SCATTER. -/
def gatherSpans (o : GatherOps) (acc : Nat) : List OpSpan :=
  [(o.isp.toNat, o.idx.toNat, (if o.iw = 1 then 8 else 4) * o.count.toNat, 1), (o.dsp.toNat, o.data.toNat, 4 * 2 ^ o.esz.toNat * o.count.toNat, acc)]

def gatherCost (o : GatherOps) : Nat := 128 + 32 * o.count.toNat + 16 * cdiv (o.count.toNat * (4 * 2 ^ o.esz.toNat)) 256

def execGather (_h : CmdHdr) (o : GatherOps) (s : State) : Host.Outcome State Fault Refusal :=
  let e := 4 * 2 ^ o.esz.toNat
  s.runCmd (fun _ _ => gatherCost o)
    (fun s i => (s.engRanges i (gatherSpans o 2)).bind fun _ s => (s.engKeys i o.dsp.toNat o.data.toNat (e * o.count.toNat) 2).bind fun dk s =>
      (s.engHold i dk o.data.toNat).bind fun _ s =>
        s.indirect i o 1 fun s ks => .ok .done (s.gatherGo i o dk 0 ks)) noMore

def execScatter (_h : CmdHdr) (o : GatherOps) (s : State) : Host.Outcome State Fault Refusal :=
  let e := 4 * 2 ^ o.esz.toNat
  s.runCmd (fun _ _ => gatherCost o)
    (fun s i => (s.engRanges i (gatherSpans o 1)).bind fun _ s => (s.engRead i o.dsp.toNat o.data.toNat (e * o.count.toNat)).bind fun bs s =>
      s.indirect i o 2 fun s ks => (s.engHold i (ks.flatMap Prod.snd) (canon57 o.base.toNat)).bind fun _ s =>
        .ok .done (ks.zipIdx.foldl (fun s k => s.puts k.1.2 ((bs.drop (e * k.2)).take e)) s)) noMore

/-! ## Collectives (R198, R199) -/

/-- The instance of a scope that holds a core. -/
def placeOf (scope core : Nat) : Nat := if scope = 2 then core / 4 else if scope = 3 then core / 8 else 0

/-- Whether a command joins an instance: equal group and partition, and cores in one instance of a scope of either. DESIGN CHOICE (R199): the spec matches
in one instance of `SCOPE` and faults unequal `SCOPE`, and says not whose counts; either command's does (log 32). -/
def Coll.takes (g : Coll) (part group scope core : Nat) : Bool :=
  g.part == part && g.group == group && (placeOf g.scope core == g.place ||
    g.members.any fun m => placeOf scope m.core == placeOf scope core)

/-- Whether a member index has issued in an instance, or an instance without a result is done with it. -/
def Coll.has (g : Coll) (midx : Nat) : Bool := g.members.any (fun n => n.midx == midx) || g.remote.any (fun r => r.1 == midx) || g.dead.contains midx

/-- The member indexes that this package issues. -/
def Coll.own (g : Coll) : List Nat :=
  (List.range g.nmem).filter fun m => g.scope != 5 || Config.packageOf g.part g.group m == Config.ownPackage

/-- An instance ended: later contributions to it are late ones (R347). -/
def State.forgetColl (s : State) (g : Coll) : State :=
  { s with colls := s.colls.filter fun h => h.id != g.id, collDone := if g.scope = 5 then putT s.collDone (2 ^ 16 * g.part + g.group) g.ord else s.collDone }

/-- Members' contexts take a collective fault. -/
def State.collFault (s : State) (ms : List Member) : State := (ms.map fun m => m.cx).dedup.foldl (fun s c => s.fault c 9 0 63 15 0 0 []) s

/-- A member's command has completed (R199): without a result where its instance came to nothing. -/
def State.memberDone (s : State) (m : Member) : State := s.modCmd m.cx (eqKey m.core 4) m.seq fun c => { c with st := .done }

/-- An instance without a result stands until every member index of this package is done with, for the members that are still to issue (R199). -/
def State.keepColl (s : State) (g : Coll) : State :=
  if g.members.isEmpty && g.own.all g.dead.contains then s.forgetColl g
  else { s with colls := if s.colls.any fun h => h.id == g.id then s.colls.map fun h => if h.id = g.id then g else h else s.colls ++ [g] }

/-- An instance comes to nothing, with the members `gone` that will not issue: a collective fault in every context that holds a member, and every
issued member's command completes without a result (R199). -/
def State.doom (s : State) (g : Coll) (gone : List Nat) : State :=
  (g.members.foldl State.memberDone (s.collFault g.members)).keepColl
    { g with members := [], remote := [], broken := true, dead := g.dead ++ g.members.map (fun m => m.midx) ++ gone }

def State.badColl (s : State) (g : Coll) : State := s.doom g []

/-- The same where the end is found in this package: the packages that hold members are told. -/
def State.tellColl (s : State) (g : Coll) : State := s.podSendAll g.dests g.part (.collectiveFault g.ord g.group g.nmem)
def State.endColl (s : State) (g : Coll) : State := (s.tellColl g).badColl g

/-- A member that issues into an instance without a result completes at once, and its context takes the fault (R199). -/
def State.joinBroken (s : State) (g : Coll) (m : Member) : State := (s.collFault [m]).keepColl { g with dead := g.dead ++ [m.midx] }

/-- An instance that is not open yet. -/
def State.newColl (s : State) (ord part scope place group nmem : Nat) : Coll :=
  ⟨(s.colls.map fun g => g.id).foldl max 0 + 1, ord, part, 0, 0, scope, place, group, nmem, 0, [], [], false, []⟩

/-- A contribution crosses the pod in flits (R347), each with a piece of this many bytes and what names it (log 6). -/
def podPiece : Nat := 224

def collPieces (data : List Byte) : List (Nat × List Byte) :=
  (List.range (cdiv data.length podPiece)).map fun i => (podPiece * i, (data.drop (podPiece * i)).take podPiece)

/-- Which instance of its group a new one is (R199). -/
def State.nextOrdOf (s : State) (part group : Nat) : Nat :=
  ((s.colls.filter fun g => g.part == part && g.group == group && g.scope == 5).map fun g => g.ord).foldl max (getT s.collDone (2 ^ 16 * part + group) 0) + 1

/-- A new member joins its instance, or opens one, and what it contributes at `.POD` goes to the packages that hold other members (R346); the fault
of a mismatch ends every member's command (R199). -/
def State.joinColl (s : State) (i : Iss) (o : CollOps) : Eng CmdSt :=
  let p := partOf i.cx
  let m : Member := ⟨i.cx, i.c.core, i.c.seq, o.midx.toNat, padKey i.c.core (256 * o.src.toNat), padKey i.c.core (256 * o.dst.toNat), s.tb⟩
  let tell := fun (s : State) (g : Coll) => (collPieces (getBs s.mem m.src (256 * o.len.toNat))).foldl (fun s e =>
    s.podSendAll g.dests p (.collective g.ord g.group o.kind.toNat o.dt.toNat o.nmem.toNat o.len.toNat m.midx e.1 e.2)) s
  match s.colls.find? fun g => g.takes p o.group.toNat o.scope.toNat i.c.core && !(g.broken && g.has m.midx) with
  | none =>
    let g : Coll := { s.newColl (s.nextOrdOf p o.group.toNat) p o.scope.toNat (placeOf o.scope.toNat i.c.core) o.group.toNat o.nmem.toNat with
      kind := o.kind.toNat, dt := o.dt.toNat, len := o.len.toNat, members := [m] }
    .ok .issued (tell { s with colls := s.colls ++ [g] } g)
  | some g =>
    let g' := { g with members := g.members ++ [m] }
    if g.broken then .ok .done (s.joinBroken g m)
    else if g.kind ≠ o.kind.toNat ∨ g.dt ≠ o.dt.toNat ∨ g.scope ≠ o.scope.toNat ∨ g.nmem ≠ o.nmem.toNat ∨ g.len ≠ o.len.toNat
        ∨ g.has m.midx = true then
      .ok .done (s.endColl g')
    else .ok .issued (tell { s with colls := s.colls.map fun h => if h.id = g.id then g' else h } g)

/-- The buffers of a COLL. -/
def collSpans (o : CollOps) : List OpSpan := [(2, 256 * o.src.toNat, 256 * o.len.toNat, 1), (2, 256 * o.dst.toNat, 256 * o.len.toNat, 2)]

def execColl (_h : CmdHdr) (o : CollOps) (s : State) : Host.Outcome State Fault Refusal :=
  s.runCmd (fun _ _ => 128 + 32 * o.len.toNat)
    (fun s i => (s.engRanges i (collSpans o)).bind fun _ s => (s.engRead i 2 (256 * o.src.toNat) (256 * o.len.toNat)).bind fun _ s =>
      (s.engKeys i 2 (256 * o.dst.toNat) (256 * o.len.toNat) 2).bind fun _ s =>
        s.joinColl i o) noMore

/-- One level of the tree of R175. -/
def treeLevel (f : List Byte → List Byte → List Byte) : List (List Byte) → List (List Byte)
  | a :: b :: r => f a b :: treeLevel f r
  | l => l

/-- The tree over eleven levels, which cover 2047 members. -/
def treeRoot (f : List Byte → List Byte → List Byte) : Nat → List (List Byte) → List Byte
  | 0, l => l.headD []
  | n + 1, l => treeRoot f n (treeLevel f l)

/-- Two partials combined word by word (R175). -/
def combine (dt : Nat) : Nat → List Byte → List Byte → List Byte
  | 0, _, _ => []
  | n + 1, a, b => bytesOfNat 4 (accAdd (if dt = 0 then 0 else 2) (natOfBytes (a.take 4)) (natOfBytes (b.take 4))) ++ combine dt n (a.drop 4) (b.drop 4)

/-- The bytes of a contribution that have come from another package. -/
def Coll.pieces (g : Coll) (i : Nat) : List Byte :=
  (List.range (cdiv (256 * g.len) podPiece)).flatMap fun j => ((g.remote.find? fun r => r.1 == i && r.2.1 == podPiece * j).map fun r => r.2.2).getD []

/-- Every member of an instance has issued. -/
def Coll.full (g : Coll) : Bool :=
  (List.range g.nmem).all fun i => g.members.any (fun m => m.midx == i) || (decide (g.len ≠ 0) && (g.pieces i).length == 256 * g.len)

/-- A member's contribution as it is read (R199). -/
def State.contribution (s : State) (g : Coll) (i : Nat) : List Byte :=
  match g.members.find? fun m => m.midx == i with
  | some m => getBs s.mem m.src (256 * g.len)
  | none => g.pieces i

/-- COLLECTIVE_RESULT: once every member has issued and every package that holds one can be reached; one with a faulted member comes to nothing
(R199, R348). -/
def execCollectiveResult (inst : Nat) (s : State) : Host.Outcome State Fault Refusal :=
  .next <|
    match s.colls.find? fun g => g.id == inst with
    | none => s
    | some g =>
      if (s.unreached g.dests).isSome then s
      else if g.broken then (if g.members.isEmpty then s else s.endColl g)
      else if !g.full then s
      else
        let r := if g.kind = 2 then s.contribution g 0
          else treeRoot (combine g.dt (64 * g.len)) 11 ((List.range g.nmem).map fun i => s.contribution g i)
        let s := g.members.foldl (fun s m => if g.kind = 0 ∧ m.midx ≠ 0 then s else s.write m.dst r) s
        g.members.foldl State.memberDone (s.forgetColl g)

/-! ## Windows (R202, R242, R255) -/

/-- The dimensions of a generator. -/
def windowDims (o : WindowOps) : List (Nat × Int) :=
  ([(o.n0m1.toNat + 1, o.str0.toInt), (o.n1m1.toNat + 1, o.str1.toInt), (o.n2m1.toNat + 1, o.str2.toInt)]).take o.dims.toNat

/-- Pool windows of a partition leave a tile, oldest first, until its windows fit (R253, R255). -/
def Die.fitTile (d : Die) (t p quota : Nat) : Nat → Die
  | 0 => d
  | n + 1 =>
    if (((d.tile t).filter fun e => e.2.part == p).map fun e => e.2.granules).sum ≤ quota then d
    else match d.oldest t p with
      | some k => ({ d with wins := delT d.wins k } : Die).fitTile t p quota n
      | none => d

def execWindow (_h : CmdHdr) (o : WindowOps) (s : State) : Host.Outcome State Fault Refusal :=
  s.runCmd (fun _ _ => 64)
    (fun s i =>
      let die := i.c.core / 8
      let p := partOf i.cx
      let sh := s.share p die
      let t := o.tile.toNat
      let key := t * 1024 + o.slot.toNat
      let len := o.gm1.toNat + 1
      let d := s.die die
      let others := ((d.tile t).filter fun e => e.2.part == p && e.2.kind != 2 && e.1 != key).map fun e => e.2.granules
      if o.slot.toNat < sh.sbase ∨ sh.sbase + sh.scount ≤ o.slot.toNat ∨ sh.tquota < others.sum + len then .fault 5 0 0
      else
        let w : Win := ⟨if o.dims = 0 then 1 else 0, p, i.cx, canon57 o.wbase.toNat, len, o.dir == 1, windowDims o, 0, 0, [], [], o.stream.toNat, 0, [], []⟩
        let s := s.modPort (genPort die t) fun q => { q with entries := [], got := [] }
        .ok .done (s.setDie die (({ d with wins := putT d.wins key w } : Die).fitTile t p sh.tquota 1024))) noMore

/-- The addresses that a write stream or a demand window is to have translated: of the positions it may hold now, of its whole range. -/
def Win.ahead (w : Win) : List Nat :=
  if w.kind = 0 then (List.range (min w.len (w.size - w.tail))).map fun i => w.addr (w.tail + i) else (List.range w.len).map w.spot

/-- A tile translates the next address of a write stream or a demand window at its port (R241): an entry of the port serves it, a page fault stalls the
port, a violation is a context fault. DESIGN CHOICE (R239, R252): a read stream and a demand window ask for `R`, a write stream for `W` and `D`; an address
that is not canonical is passed over (log 32). -/
def State.windowAhead (s : State) (die tile slot : Nat) (w : Win) : State :=
  let port := genPort die tile
  let acc := if w.kind = 0 then 2 else 1
  if w.kind = 2 ∨ (s.port port).miss.isSome ∨ s.faulting w.cx then s
  else match w.ahead.find? fun va => isCanon va && (w.uses.all fun e => !serves e w.cx (s.rootOf w.cx) (va57 va)) with
    | none => s
    | some va => match s.xlate port w.cx va acc with
      | (.ok e, s) => s.modDie die fun d => { d with wins := putT d.wins (tile * 1024 + slot) (w.use e) }
      | (.pageFault st l, s) => s.modPort port fun q => { q with miss := some ⟨w.cx, va, acc, st, l, s.tb, false, .engine w.cx 999⟩ }
      | (.prot, s) => s.fault w.cx 3 acc 63 15 va 0 []
      | (.data a, s) => s.fault w.cx 12 0 63 15 a 0 []

/-- A read stream's next granule (R252): translated at the tile's port, requested, held. A write stream that every position has passed writes back
what it still holds, in position order, and ends as its tail reaches N (log 32); another window has its next address translated. DESIGN CHOICE (R252):
a read stream whose next address is not canonical stands still there, without a fault (log 32). -/
def execWindowFill (die tile slot : Nat) (s : State) : Host.Outcome State Fault Refusal :=
  .next <|
    let key := tile * 1024 + slot
    match findT (s.die die).wins key with
    | none => s
    | some w =>
      if w.kind = 0 ∧ w.write = true ∧ w.size ≤ w.head then
        s.modDie die fun d => { d with wins := if w.size ≤ w.tail + 1 then delT d.wins key else putT d.wins key (w.writeBack (w.tail + 1)) }
      else if w.kind ≠ 0 ∨ w.write = true then s.windowAhead die tile slot w
      else if w.len ≤ w.head - w.tail ∨ w.size ≤ w.head ∨ tileSize ≤ (s.die die).heldIn tile
          ∨ (s.port (genPort die tile)).miss.isSome then s
      else
        let va := w.addr w.head
        if !isCanon va then s
        else match s.xlate (genPort die tile) w.cx va 1 with
          | (.ok e, s) =>
            let k := entKey e va
            (s.fetchGranule die w.cx va k).modDie die fun d =>
              { d with wins := putT d.wins key { w.use e with head := w.head + 1, held := w.held ++ [k / 256] } }
          | (.pageFault st l, s) => s.modPort (genPort die tile) fun q => { q with miss := some ⟨w.cx, va, 1, st, l, s.tb, false, .engine w.cx 999⟩ }
          | (.prot, s) => s.fault w.cx 3 1 63 15 va 0 []
          | (.data a, s) => s.fault w.cx 12 0 63 15 a 0 []

/-! ## NOTE and QFENCE (R203, R204) -/

def execNote (_h : CmdHdr) (o : NoteOps) (s : State) : Host.Outcome State Fault Refusal :=
  s.runCmd (fun _ _ => 16)
    (fun s i =>
      let v := if o.long = 1 then o.nval64.toNat else o.nval.toNat
      (s.engKeys i o.nsp.toNat o.naddr.toNat 8 2).bind fun ks s => (s.engHold i ks (if o.nsp = 0 then canon57 o.naddr.toNat else o.naddr.toNat)).bind fun _ s =>
        .ok .done (s.engPut i o.nsp.toNat o.naddr.toNat ks (bytesOfNat 8 v))) noMore

/-- QFENCE issues, and completes once every command it joins has completed (R204). -/
def execQfence (_h : CmdHdr) (_o : QfenceOps) (s : State) : Host.Outcome State Fault Refusal :=
  s.runCmd (fun _ _ => 16) (fun s _ => .ok .issued s) noMore

/-! ## Completion (R172, R186) -/

/-- Whether a command's writes are all performed; a `QFENCE`'s joins have completed. -/
def cmdFinished (c : Cmd) : Bool := c.st == .done || (c.st == .issued && opcOf c.w0 == 0x0E && c.join.isEmpty)

/-- A channel-fed tile-task lets its channel go as it completes (R166). -/
def State.freeChan (s : State) (c : Cmd) : State :=
  match decodeCommand c.w0 c.w1 with
  | some (.mxt _ o) => if o.ach = 1 then s.setBind (mxtHdr o c.core) false false else s
  | _ => s

/-- A command completes: its slot is set, its joins let go, and what waited for it goes on, a prefetch that found the queue full among it (R222). -/
def execCommandComplete (cx k seq : Nat) (s : State) : Host.Outcome State Fault Refusal :=
  .next <|
    match (s.ctx cx).bind fun x => findCmd x k seq with
    | none => s
    | some c =>
      if !cmdFinished c then s
      else
        let s := s.modCtx cx fun x =>
          let e := getEq x k
          let x := { x with eqs := putT x.eqs k { e with cmds := e.cmds.filter fun d => d.seq != seq } }
          (unjoin { x with slots := slotDone x c.core c.w0 } k seq).latch
        let s := match c.pkt with
          | some q => s.settle cx q
          | none => s
        let s := match c.pipe with
          | some (q, pos) => (match s.pipe cx q with
            | some p => s.setPipe cx { p with prefs := p.prefs.filter fun e => e != (pos, some seq) }
            | none => s)
          | none => s
        let s := s.freeChan c
        if codeOf k = 1 then s.frontCore c.core else s

end Sys2Proof.Machine
end

