-- ==== Sys2Proof/Machine/Inflate.lean ====
section
/-! DEFINITION. Stage 1 of the intake engine (R177): raw DEFLATE (RFC 1951) and gzip (RFC 1952). Where a stream is malformed or its sums do
not match, the reason and the offset (log 14). -/

namespace Sys2Proof.Machine

/-- A fault of a stage: its reason and the offset in the stage's input. -/
abbrev StageR (α : Type) := α ⊕ (Nat × Nat)

/-- The longest output (R177). -/
def outLimit : Nat := 2 ^ 26

/-- `n` bits from bit `pos` on, lowest first. -/
def bitsFrom (a : Array Byte) (pos n : Nat) : Option Nat :=
  if 8 * a.size < pos + n then none
  else some ((List.range n).foldl (fun v i => v + (a.getD ((pos + i) / 8) 0).toNat / 2 ^ ((pos + i) % 8) % 2 * 2 ^ i) 0)

/-- A canonical prefix code (RFC 1951 3.2.2): how many codes of each length, and the symbols in code order. -/
structure Huff where
  counts : Array Nat
  syms : Array Nat

def mkHuff (lens : List Nat) : Huff :=
  ⟨((List.range 16).map fun l => (lens.filter fun x => x == l).length).toArray,
   ((List.range 15).flatMap fun l => (lens.zipIdx.filter fun e => e.1 == l + 1).map Prod.snd).toArray⟩

/-- Whether the code lengths are usable: none in excess, and none missing but where at most one code of one bit is used. -/
def huffOk (h : Huff) : Bool :=
  let left := (List.range 15).foldl (fun (v : Option Nat) l =>
    v.bind fun v => if 2 * v < h.counts.getD (l + 1) 0 then none else some (2 * v - h.counts.getD (l + 1) 0)) (some 1)
  match left with
  | none => false
  | some 0 => true
  | some _ => h.syms.size == 0 || (h.syms.size == 1 && h.counts.getD 1 0 == 1)

/-- The next symbol and the position after it. -/
def nextSym (a : Array Byte) (h : Huff) : Nat → Nat → Nat → Nat → Nat → Nat → Option (Nat × Nat)
  | 0, _, _, _, _, _ => none
  | n + 1, len, code, first, index, pos =>
    match bitsFrom a pos 1 with
    | none => none
    | some b =>
      let code := code + b
      let c := h.counts.getD len 0
      if code < first + c then some (h.syms.getD (index + (code - first)) 0, pos + 1)
      else nextSym a h n (len + 1) (2 * code) (2 * (first + c)) (index + c) (pos + 1)

def sym (a : Array Byte) (h : Huff) (pos : Nat) : Option (Nat × Nat) := nextSym a h 15 1 0 0 0 pos

def lenBase : List Nat := [3, 4, 5, 6, 7, 8, 9, 10, 11, 13, 15, 17, 19, 23, 27, 31, 35, 43, 51, 59, 67, 83, 99, 115, 131, 163, 195, 227, 258]
def lenExtra : List Nat := [0, 0, 0, 0, 0, 0, 0, 0, 1, 1, 1, 1, 2, 2, 2, 2, 3, 3, 3, 3, 4, 4, 4, 4, 5, 5, 5, 5, 0]
def distBase : List Nat := [1, 2, 3, 4, 5, 7, 9, 13, 17, 25, 33, 49, 65, 97, 129, 193, 257, 385, 513, 769, 1025, 1537, 2049, 3073, 4097, 6145,
  8193, 12289, 16385, 24577]
def distExtra : List Nat := [0, 0, 0, 0, 1, 1, 2, 2, 3, 3, 4, 4, 5, 5, 6, 6, 7, 7, 8, 8, 9, 9, 10, 10, 11, 11, 12, 12, 13, 13]

/-- The earlier bytes a length and distance repeat. -/
def copyBack : Nat → Nat → Array Byte → Array Byte
  | 0, _, out => out
  | n + 1, d, out => copyBack n d (out.push (out.getD (out.size - d) 0))

/-- The symbols of one compressed block until its end; `none` where the stream is malformed, with the position. -/
def inflateBlock (a : Array Byte) (lit dist : Huff) : Nat → Nat → Array Byte → StageR (Nat × Array Byte)
  | 0, pos, _ => .inr (1, pos / 8)
  | n + 1, pos, out =>
    if outLimit < out.size then .inr (4, pos / 8)
    else match sym a lit pos with
      | none => .inr (1, pos / 8)
      | some (x, pos) =>
        if x < 256 then inflateBlock a lit dist n pos (out.push (BitVec.ofNat 8 x))
        else if x = 256 then .inl (pos, out)
        else if 285 < x then .inr (1, pos / 8)
        else match bitsFrom a pos (lenExtra.getD (x - 257) 0) with
          | none => .inr (1, pos / 8)
          | some e =>
            let len := lenBase.getD (x - 257) 0 + e
            let pos := pos + lenExtra.getD (x - 257) 0
            match sym a dist pos with
            | none => .inr (1, pos / 8)
            | some (y, pos) =>
              if 30 ≤ y then .inr (1, pos / 8)
              else match bitsFrom a pos (distExtra.getD y 0) with
                | none => .inr (1, pos / 8)
                | some f =>
                  let d := distBase.getD y 0 + f
                  let pos := pos + distExtra.getD y 0
                  if out.size < d then .inr (1, pos / 8) else inflateBlock a lit dist n pos (copyBack len d out)

/-- The code lengths of a dynamic block. -/
def readLens (a : Array Byte) (h : Huff) (total : Nat) : Nat → Nat → List Nat → Option (List Nat × Nat)
  | 0, _, _ => none
  | n + 1, pos, ls =>
    if ls.length = total then some (ls, pos)
    else match sym a h pos with
      | none => none
      | some (x, pos) =>
        let rep := fun (v k base pos : Nat) =>
          match bitsFrom a pos k with
          | none => none
          | some c => if total < ls.length + base + c then none else some (List.replicate (base + c) v, pos + k)
        match (if x < 16 then some ([x], pos)
          else if x = 16 then (match ls.getLast? with
            | some v => rep v 2 3 pos
            | none => none)
          else if x = 17 then rep 0 3 3 pos else rep 0 7 11 pos) with
        | none => none
        | some (more, pos) => readLens a h total n pos (ls ++ more)

def fixedLit : Huff := mkHuff (List.replicate 144 8 ++ List.replicate 112 9 ++ List.replicate 24 7 ++ List.replicate 8 8)
def fixedDist : Huff := mkHuff (List.replicate 30 5)
def lenOrder : List Nat := [16, 17, 18, 0, 8, 7, 9, 6, 10, 5, 11, 4, 12, 3, 13, 2, 14, 1, 15]

/-- The two codes of a dynamic block and the position after them. -/
def dynamicCodes (a : Array Byte) (pos : Nat) : Option (Huff × Huff × Nat) :=
  match bitsFrom a pos 14 with
  | none => none
  | some w =>
    let nl := w % 32 + 257
    let nd := w / 32 % 32 + 1
    let nc := w / 1024 + 4
    let pos := pos + 14
    if 286 < nl then none
    else match bitsFrom a pos (3 * nc) with
      | none => none
      | some v =>
        let cl := (List.range 19).map fun s => (((List.range nc).zip lenOrder).find? fun e => e.2 == s).elim 0 fun e => v / 8 ^ e.1 % 8
        let h := mkHuff cl
        if !huffOk h then none
        else match readLens a h (nl + nd) (nl + nd + 1) (pos + 3 * nc) [] with
          | none => none
          | some (ls, pos) =>
            let lit := mkHuff (ls.take nl)
            let dist := mkHuff (ls.drop nl)
            if huffOk lit && huffOk dist then some (lit, dist, pos) else none

/-- The blocks of a DEFLATE stream: the position after its last block, and the output. -/
def inflateFrom (a : Array Byte) : Nat → Nat → Array Byte → StageR (Nat × Array Byte)
  | 0, pos, _ => .inr (1, pos / 8)
  | n + 1, pos, out =>
    match bitsFrom a pos 3 with
    | none => .inr (1, a.size)
    | some hd =>
      let body : StageR (Nat × Array Byte) :=
        if hd / 2 = 0 then
          let p := (pos + 3 + 7) / 8
          match bitsFrom a (8 * p) 32 with
          | none => .inr (1, a.size)
          | some w =>
            let len := w % 65536
            if w / 65536 ≠ 65535 - len then .inr (1, p)
            else if a.size < p + 4 + len then .inr (1, a.size)
            else .inl (8 * (p + 4 + len), out ++ a.extract (p + 4) (p + 4 + len))
        else if hd / 2 = 1 then inflateBlock a fixedLit fixedDist (8 * a.size + 1) (pos + 3) out
        else if hd / 2 = 2 then
          match dynamicCodes a (pos + 3) with
          | none => .inr (1, (pos + 3) / 8)
          | some (lit, dist, pos) => inflateBlock a lit dist (8 * a.size + 1) pos out
        else .inr (1, pos / 8)
      match body with
      | .inr e => .inr e
      | .inl (pos, out) => if outLimit < out.size then .inr (4, pos / 8) else if hd % 2 = 1 then .inl (pos, out) else inflateFrom a n pos out

/-- A whole raw DEFLATE stream; bytes after it are a fault (R177). -/
def inflate (bs : List Byte) : StageR (List Byte) :=
  let a := bs.toArray
  match inflateFrom a (8 * a.size + 1) 0 #[] with
  | .inr e => .inr e
  | .inl (pos, out) => if (pos + 7) / 8 < a.size then .inr (1, (pos + 7) / 8) else .inl out.toList

/-! ## gzip -/

/-- CRC-32 of RFC 1952, one byte at a time. -/
def crcByte (c : Nat) (b : Byte) : Nat :=
  (List.range 8).foldl (fun c _ => if c % 2 = 1 then c / 2 ^^^ 0xEDB88320 else c / 2) (c ^^^ b.toNat)

def crc32 (bs : List Byte) : Nat := bs.foldl crcByte 0xFFFFFFFF ^^^ 0xFFFFFFFF

/-- The offset after a string that a zero byte ends. -/
def skipZ (bs : List Byte) (p : Nat) : Option Nat :=
  let n := ((bs.drop p).takeWhile fun b => b != 0).length
  if p + n < bs.length then some (p + n + 1) else none

/-- The length of a gzip header, or its fault. -/
def gzipHeader (bs : List Byte) : StageR Nat :=
  let flg := (bs.getD 3 0).toNat
  if bs.length < 10 then .inr (1, bs.length)
  else if bs.getD 0 0 ≠ 0x1F ∨ bs.getD 1 0 ≠ 0x8B ∨ bs.getD 2 0 ≠ 8 ∨ 32 ≤ flg then .inr (1, 0)
  else
    let p := if flg / 4 % 2 = 1 then 12 + natOfBytes ((bs.drop 10).take 2) else 10
    match (if flg / 8 % 2 = 1 then skipZ bs p else some p) with
    | none => .inr (1, bs.length)
    | some p =>
      match (if flg / 16 % 2 = 1 then skipZ bs p else some p) with
      | none => .inr (1, bs.length)
      | some p =>
        if flg / 2 % 2 = 0 then .inl p
        else if bs.length < p + 2 then .inr (1, bs.length)
        else if natOfBytes ((bs.drop p).take 2) = crc32 (bs.take p) % 65536 then .inl (p + 2)
        else .inr (2, bs.length)

/-- One gzip member, its sum and its size checked, and nothing after it (R177). -/
def gunzip (bs : List Byte) : StageR (List Byte) :=
  match gzipHeader bs with
  | .inr e => .inr e
  | .inl p =>
    let a := bs.toArray
    if a.size < p then .inr (1, a.size)
    else match inflateFrom a (8 * a.size + 1) (8 * p) #[] with
      | .inr e => .inr e
      | .inl (pos, out) =>
        let q := (pos + 7) / 8
        if a.size < q + 8 then .inr (1, a.size)
        else if natOfBytes ((bs.drop q).take 4) ≠ crc32 out.toList ∨ natOfBytes ((bs.drop (q + 4)).take 4) ≠ out.size % 2 ^ 32 then .inr (2, a.size)
        else if q + 8 < a.size then .inr (1, q + 8)
        else .inl out.toList

end Sys2Proof.Machine
end

