-- ==== Sys2Proof/Machine/Zstd.lean ====
section
/-! DEFINITION. Stage 1 of the intake engine, container 3 (R177): Zstandard as RFC 8878 describes it: frames and skippable frames, raw, RLE and
compressed blocks, FSE and Huffman codes, dictionaries, the content checksum (log 14). -/

namespace Sys2Proof.Machine

/-! ## Bit streams -/

/-- `n` bits from bit `pos` on, lowest first; bits beyond the end are zero. -/
def bitsZ (a : Array Byte) (pos n : Nat) : Nat :=
  (List.range n).foldl (fun v i => v + (a.getD ((pos + i) / 8) 0).toNat / 2 ^ ((pos + i) % 8) % 2 * 2 ^ i) 0

/-- `n` bytes from `p` on as a number, the first lowest; none where they are not all there. -/
def leAt (a : Array Byte) (p n : Nat) : Option Nat := if a.size < p + n then none else some (bitsZ a (8 * p) (8 * n))

/-- A stream read from its end (RFC 8878 4.1): its bytes, where they start, and the bits not yet read, those below the final 1. -/
structure Back where
  a : Array Byte
  at_ : Nat
  left : Nat

def Back.open_ (a : Array Byte) (p n : Nat) : Option Back :=
  let b := (a.getD (p + n - 1) 0).toNat
  if n = 0 ∨ a.size < p + n ∨ b = 0 then none else some ⟨a, p, 8 * (n - 1) + Nat.log2 b⟩

/-- The next `k` bits; zeros where fewer are left. -/
def Back.peek (b : Back) (k : Nat) : Nat :=
  if k ≤ b.left then bitsZ b.a (8 * b.at_ + b.left - k) k else bitsZ b.a (8 * b.at_) b.left * 2 ^ (k - b.left)

def Back.read (b : Back) (k : Nat) : Option (Nat × Back) := if b.left < k then none else some (b.peek k, { b with left := b.left - k })

/-! ## FSE (RFC 8878 4.1.1) -/

/-- An entry of a decoding table: the symbol, the bits to read, and the base of the next state. -/
structure FseEnt where
  sym : Nat
  nb : Nat
  base : Nat

/-- A decoding table and its accuracy log. -/
structure Fse where
  al : Nat
  ents : Array FseEnt

/-- The probabilities of a table and the bit after them: -1 stands for less than one. -/
def fseProbs (a : Array Byte) : Nat → Nat → Nat → List Int → Option (List Int × Nat)
  | 0, _, _, _ => none
  | n + 1, left, pos, ps =>
    if left = 0 then some (ps, pos)
    else
      let k := Nat.log2 (left + 1) + 1
      let v := bitsZ a pos k
      let low := v % 2 ^ (k - 1)
      let few := 2 ^ k - 1 - (left + 1)
      let short := decide (low < few)
      let p : Int := (if short then low else if 2 ^ (k - 1) ≤ v then v - few else v) - 1
      let pos := pos + (if short then k - 1 else k)
      if left < p.natAbs then none
      else if p = 0 then
        let (z, pos) := zeros a n pos 0
        fseProbs a n left pos (ps ++ 0 :: List.replicate z 0)
      else fseProbs a n (left - p.natAbs) pos (ps ++ [p])
where
  /-- The repeat flags after a probability of zero. -/
  zeros (a : Array Byte) : Nat → Nat → Nat → Nat × Nat
    | 0, pos, z => (z, pos)
    | n + 1, pos, z => if bitsZ a pos 2 = 3 then zeros a n (pos + 2) (z + 3) else (z + bitsZ a pos 2, pos + 2)

/-- Cells of a table filled one after another, in the order of the step, over the cells that the rare symbols leave. -/
def fsePlace (size high : Nat) : Nat → Nat → Array Nat → Nat → Nat × Array Nat
  | 0, pos, t, _ => (pos, t)
  | n + 1, pos, t, s =>
    let t := t.setIfInBounds pos s
    fsePlace size high n (fseNext size high size ((pos + size / 2 + size / 8 + 3) % size)) t s
where
  /-- The next cell that no rare symbol holds. -/
  fseNext (size high : Nat) : Nat → Nat → Nat
    | 0, pos => pos
    | n + 1, pos => if pos < high then pos else fseNext size high n ((pos + size / 2 + size / 8 + 3) % size)

/-- The decoding table of probabilities. -/
def fseBuild (al : Nat) (ps : List Int) : Fse :=
  let size := 2 ^ al
  let rare := (ps.zipIdx.filter fun e => e.1 == -1).map Prod.snd
  let high := size - rare.length
  let t := rare.zipIdx.foldl (fun (t : Array Nat) e => t.setIfInBounds (size - 1 - e.2) e.1) (Array.replicate size 0)
  let t := (ps.zipIdx.foldl (fun (p : Nat × Array Nat) e => if 0 < e.1 then fsePlace size high e.1.toNat p.1 p.2 e.2 else p) (0, t)).2
  let next : Array Nat := (ps.map fun p => if p = -1 then 1 else p.toNat).toArray
  ⟨al, (t.toList.foldl (fun (acc : Array FseEnt × Array Nat) s =>
    let x := acc.2.getD s 0
    let nb := al - Nat.log2 x
    (acc.1.push ⟨s, nb, x * 2 ^ nb - size⟩, acc.2.setIfInBounds s (x + 1))) (#[], next)).1⟩

/-- A table of a description that starts at byte `p` and ends before `q`, with the byte after it. -/
def fseRead (a : Array Byte) (p q maxLog maxSym : Nat) : Option (Fse × Nat) :=
  let al := bitsZ a (8 * p) 4 + 5
  if q ≤ p ∨ maxLog < al then none
  else match fseProbs a 600 (2 ^ al) (8 * p + 4) [] with
    | none => none
    | some (ps, pos) =>
      let e := (pos + 7) / 8
      if q < e ∨ maxSym + 1 < ps.length then none else some (fseBuild al ps, e)

def Fse.sym (t : Fse) (st : Nat) : Nat := (t.ents[st]?.map FseEnt.sym).getD 0

/-- The next state. -/
def Fse.step (t : Fse) (st : Nat) (b : Back) : Option (Nat × Back) :=
  match t.ents[st]? with
  | none => none
  | some e => (b.read e.nb).map fun r => (e.base + r.1, r.2)

/-! ## Huffman codes (RFC 8878 4.2) -/

/-- A code's longest length, and for each value of as many bits the symbol and its length. -/
structure ZHuff where
  bits : Nat
  ents : Array (Nat × Nat)

/-- Weights that two interleaved states decode, until a state's bits run out. -/
def fseWeights (t : Fse) : Nat → Nat → Nat → Back → List Nat → Option (List Nat)
  | 0, _, _, _, _ => none
  | n + 1, s1, s2, b, ws =>
    match t.step s1 b with
    | none => some (ws ++ [t.sym s1, t.sym s2])
    | some (s, b) => fseWeights t n s2 s b (ws ++ [t.sym s1])

/-- The code of weights, the last of which is implied. -/
def zhuffOf (ws : List Nat) : Option ZHuff :=
  let sum := (ws.map fun w => if w = 0 then 0 else 2 ^ (w - 1)).sum
  let mb := Nat.log2 sum + 1
  let rest := 2 ^ mb - sum
  if sum = 0 ∨ 11 < mb ∨ 255 < ws.length ∨ 2 ^ Nat.log2 rest ≠ rest then none
  else
    let ws := (ws ++ [Nat.log2 rest + 1]).zipIdx
    some ⟨mb, ((List.range mb).flatMap fun i => (ws.filter fun e => e.1 == i + 1).flatMap fun e => List.replicate (2 ^ i) (e.2, mb - i)).toArray⟩

/-- A tree description from byte `p`, before `q`: the code and the byte after it. -/
def zhuffRead (a : Array Byte) (p q : Nat) : Option (ZHuff × Nat) :=
  let h := (a.getD p 0).toNat
  if q ≤ p then none
  else if 128 ≤ h then
    let n := h - 127
    let e := p + 1 + (n + 1) / 2
    if q < e then none
    else (zhuffOf ((List.range n).map fun i => (a.getD (p + 1 + i / 2) 0).toNat / (if i % 2 = 0 then 16 else 1) % 16)).map fun z => (z, e)
  else
    let e := p + 1 + h
    if q < e then none
    else match fseRead a (p + 1) e 6 255 with
      | none => none
      | some (t, m) => match Back.open_ a m (e - m) with
        | none => none
        | some b => match b.read t.al with
          | none => none
          | some (s1, b) => match b.read t.al with
            | none => none
            | some (s2, b) => ((fseWeights t 256 s1 s2 b []).bind zhuffOf).map fun z => (z, e)

/-- Literals of one stream: as many as asked for, and no bit is left. -/
def zhuffLits (z : ZHuff) : Nat → Back → Array Byte → Option (Array Byte)
  | 0, b, out => if b.left = 0 then some out else none
  | n + 1, b, out =>
    match z.ents[b.peek z.bits]? with
    | none => none
    | some (s, k) => if b.left < k then none else zhuffLits z n { b with left := b.left - k } (out.push (BitVec.ofNat 8 s))

def zhuffStream (a : Array Byte) (z : ZHuff) (p n count : Nat) (out : Array Byte) : Option (Array Byte) :=
  (Back.open_ a p n).bind fun b => zhuffLits z count b out

/-! ## Blocks (RFC 8878 3.1.1.3) -/

/-- What a block hands to the next: the code of literals, the tables of literal lengths, offsets and match lengths, the three recent offsets. -/
structure ZCtx where
  huff : Option ZHuff
  ll : Option Fse
  ofs : Option Fse
  ml : Option Fse
  reps : Nat × Nat × Nat

/-- The longest block. -/
def zBlockMax : Nat := 2 ^ 17

/-- The literals of a block of the bytes `p` to `q`: they, the code that stays, and the byte after them. -/
def zLits (a : Array Byte) (p q : Nat) (old : Option ZHuff) : Option (Array Byte × Option ZHuff × Nat) :=
  let b := (a.getD p 0).toNat
  let ty := b % 4
  let sf := b / 4 % 4
  if q ≤ p then none
  else if ty < 2 then
    let hs := if sf % 2 = 0 then 1 else if sf = 1 then 2 else 3
    let n := if sf % 2 = 0 then b / 8 else bitsZ a (8 * p + 4) (if sf = 1 then 12 else 20)
    let e := p + hs + (if ty = 0 then n else 1)
    if q < e ∨ zBlockMax < n then none
    else some (if ty = 0 then a.extract (p + hs) e else Array.replicate n (a.getD (p + hs) 0), old, e)
  else
    let k := if sf < 2 then 10 else if sf = 2 then 14 else 18
    let hs := if sf < 2 then 3 else if sf = 2 then 4 else 5
    let n := bitsZ a (8 * p + 4) k
    let c := bitsZ a (8 * p + 4 + k) k
    let e := p + hs + c
    if q < e ∨ zBlockMax < n then none
    else
      let tree : Option (ZHuff × Nat) := if ty = 2 then zhuffRead a (p + hs) e else old.map fun z => (z, p + hs)
      match tree with
      | none => none
      | some (z, m) =>
        if sf = 0 then (zhuffStream a z m (e - m) n #[]).map fun o => (o, some z, e)
        else
          let l1 := bitsZ a (8 * m) 16
          let l2 := bitsZ a (8 * m + 16) 16
          let l3 := bitsZ a (8 * m + 32) 16
          let each := (n + 3) / 4
          let m := m + 6
          if e < m + l1 + l2 + l3 ∨ n < 3 * each then none
          else
            let o := (((zhuffStream a z m l1 each #[]).bind (zhuffStream a z (m + l1) l2 each)).bind (zhuffStream a z (m + l1 + l2) l3 each)).bind
              (zhuffStream a z (m + l1 + l2 + l3) (e - (m + l1 + l2 + l3)) (n - 3 * each))
            o.map fun o => (o, some z, e)

/-- A code's base value and extra bits: literal lengths and match lengths. -/
def llCode (c : Nat) : Nat × Nat :=
  if c < 16 then (c, 0)
  else ([16, 18, 20, 22, 24, 28, 32, 40, 48, 64, 128, 256, 512, 1024, 2048, 4096, 8192, 16384, 32768, 65536].getD (c - 16) 0,
    [1, 1, 1, 1, 2, 2, 3, 3, 4, 6, 7, 8, 9, 10, 11, 12, 13, 14, 15, 16].getD (c - 16) 0)

def mlCode (c : Nat) : Nat × Nat :=
  if c < 32 then (c + 3, 0)
  else ([35, 37, 39, 41, 43, 47, 51, 59, 67, 83, 99, 131, 259, 515, 1027, 2051, 4099, 8195, 16387, 32771, 65539].getD (c - 32) 0,
    [1, 1, 1, 1, 2, 2, 3, 3, 4, 4, 5, 7, 8, 9, 10, 11, 12, 13, 14, 15, 16].getD (c - 32) 0)

/-- The predefined tables (RFC 8878 3.1.1.3.2.2). -/
def llDefault : Fse := fseBuild 6
  [4, 3, 2, 2, 2, 2, 2, 2, 2, 2, 2, 2, 2, 1, 1, 1, 2, 2, 2, 2, 2, 2, 2, 2, 2, 3, 2, 1, 1, 1, 1, 1, -1, -1, -1, -1]
def ofDefault : Fse := fseBuild 5 [1, 1, 1, 1, 1, 1, 2, 2, 2, 1, 1, 1, 1, 1, 1, 1, 1, 1, 1, 1, 1, 1, 1, 1, -1, -1, -1, -1, -1]
def mlDefault : Fse := fseBuild 6
  ([1, 4, 3, 2, 2, 2, 2, 2, 2] ++ List.replicate 37 1 ++ List.replicate 7 (-1))

/-- The table of one kind of code by its mode, and the byte after its description. -/
def zTable (a : Array Byte) (p q mode maxLog maxSym : Nat) (dflt : Fse) (old : Option Fse) : Option (Fse × Nat) :=
  if mode = 0 then some (dflt, p)
  else if mode = 1 then (if q ≤ p ∨ maxSym < (a.getD p 0).toNat then none else some (⟨0, #[⟨(a.getD p 0).toNat, 0, 0⟩]⟩, p + 1))
  else if mode = 2 then fseRead a p q maxLog maxSym
  else old.map fun t => (t, p)

/-- The distance an offset value stands for, and the recent offsets after it (RFC 8878 3.1.1.5). -/
def zOffset (v ll : Nat) (r : Nat × Nat × Nat) : Nat × (Nat × Nat × Nat) :=
  if 3 < v then (v - 3, (v - 3, r.1, r.2.1))
  else
    let i := if ll = 0 then v + 1 else v
    if i = 1 then (r.1, r)
    else if i = 2 then (r.2.1, (r.2.1, r.1, r.2.2))
    else if i = 3 then (r.2.2, (r.2.2, r.1, r.2.1))
    else (r.1 - 1, (r.1 - 1, r.1, r.2.1))

/-- Whether a match may go back `d` bytes where `n` bytes stand, a frame's own output beginning at `base`: into all that stands before it until the
frame has given more than its window, and within the window from then on (RFC 8878 3.1.1.1.2, 5). -/
def zReaches (base win n d : Nat) : Bool := d != 0 && decide (d ≤ n) && (decide (n - base ≤ win) || decide (d ≤ win))

/-- The sequences of a block performed: literals, then a match, for each; then the literals that remain. `n`: sequences left. -/
def zSeqs (base win : Nat) (ll ofs ml : Fse) (lits : Array Byte) :
    Nat → Nat → Nat → Nat → Back → Nat → Nat × Nat × Nat → Array Byte → Option (Array Byte × (Nat × Nat × Nat))
  | 0, _, _, _, b, lp, reps, out => if b.left = 0 then some (out ++ lits.extract lp lits.size, reps) else none
  | n + 1, sl, so, sm, b, lp, reps, out =>
    let oc := ofs.sym so
    let mc := mlCode (ml.sym sm)
    let lc := llCode (ll.sym sl)
    match b.read oc with
    | none => none
    | some (ov, b) => match b.read mc.2 with
      | none => none
      | some (mv, b) => match b.read lc.2 with
        | none => none
        | some (lv, b) =>
          let len := lc.1 + lv
          let (d, reps) := zOffset (2 ^ oc + ov) len reps
          let put := out ++ lits.extract lp (lp + len)
          if lits.size < lp + len ∨ zReaches base win put.size d = false then none
          else
            let out := copyBack (mc.1 + mv) d put
            if n = 0 then zSeqs base win ll ofs ml lits n sl so sm b (lp + len) reps out
            else match ll.step sl b with
              | none => none
              | some (sl, b) => match ml.step sm b with
                | none => none
                | some (sm, b) => match ofs.step so b with
                  | none => none
                  | some (so, b) => zSeqs base win ll ofs ml lits n sl so sm b (lp + len) reps out

/-- The number of sequences and the byte after it. -/
def zCount (a : Array Byte) (p q : Nat) : Option (Nat × Nat) :=
  let b := (a.getD p 0).toNat
  let r := if b < 128 then (b, p + 1) else if b < 255 then ((b - 128) * 256 + (a.getD (p + 1) 0).toNat, p + 2) else (bitsZ a (8 * p + 8) 16 + 0x7F00, p + 3)
  if q ≤ p ∨ q < r.2 then none else some r

/-- A compressed block of the bytes `p` to `q`, after what the frame has given so far. -/
def zBlock (a : Array Byte) (base win p q : Nat) (c : ZCtx) (out : Array Byte) : Option (ZCtx × Array Byte) :=
  match zLits a p q c.huff with
  | none => none
  | some (lits, z, p) =>
    let c := { c with huff := z }
    match zCount a p q with
    | none => none
    | some (0, p) => if p = q then some (c, out ++ lits) else none
    | some (n, p) =>
      let m := (a.getD p 0).toNat
      if q ≤ p ∨ m % 4 ≠ 0 then none
      else match zTable a (p + 1) q (m / 64) 9 35 llDefault c.ll with
        | none => none
        | some (ll, p) => match zTable a p q (m / 16 % 4) 8 31 ofDefault c.ofs with
          | none => none
          | some (ofs, p) => match zTable a p q (m / 4 % 4) 9 52 mlDefault c.ml with
            | none => none
            | some (ml, p) => match Back.open_ a p (q - p) with
              | none => none
              | some b => match b.read ll.al with
                | none => none
                | some (sl, b) => match b.read ofs.al with
                  | none => none
                  | some (so, b) => match b.read ml.al with
                    | none => none
                    | some (sm, b) => (zSeqs base win ll ofs ml lits n sl so sm b 0 c.reps out).map fun r =>
                      ({ c with ll := some ll, ofs := some ofs, ml := some ml, reps := r.2 }, r.1)

/-- The blocks of a frame: the byte after the last, and all that stands before and in it; `base` is where the frame's own output begins. A block is held
to the smaller of the window and 128 KiB, as it stands and as it decodes (RFC 8878 3.1.1.2.4). -/
def zBlocks (a : Array Byte) (base win : Nat) : Nat → Nat → ZCtx → Array Byte → StageR (Nat × Array Byte)
  | 0, p, _, _ => .inr (1, p)
  | n + 1, p, c, out =>
    match leAt a p 3 with
    | none => .inr (1, a.size)
    | some h =>
      let ty := h / 2 % 4
      let size := h / 8
      let e := p + 3 + (if ty = 1 then 1 else size)
      if ty = 3 ∨ min win zBlockMax < size then .inr (1, p)
      else if a.size < e then .inr (1, a.size)
      else
        let r := if ty = 0 then some (c, out ++ a.extract (p + 3) e)
          else if ty = 1 then some (c, out ++ Array.replicate size (a.getD (p + 3) 0))
          else zBlock a base win (p + 3) e c out
        match r with
        | none => .inr (1, p + 3)
        | some (c, o) =>
          if outLimit < o.size - base then .inr (4, p)
          else if min win zBlockMax < o.size - out.size then .inr (1, p)
          else if h % 2 = 1 then .inl (e, o) else zBlocks a base win n e c o

/-! ## XXH64 -/

def xxP1 : Nat := 0x9E3779B185EBCA87
def xxP2 : Nat := 0xC2B2AE3D27D4EB4F
def xxP3 : Nat := 0x165667B19E3779F9
def xxP4 : Nat := 0x85EBCA77C2B2AE63
def xxP5 : Nat := 0x27D4EB2F165667C5

def rol64 (x r : Nat) : Nat := x % 2 ^ (64 - r) * 2 ^ r + x % 2 ^ 64 / 2 ^ (64 - r)
def xxRound (acc x : Nat) : Nat := rol64 ((acc + x * xxP2) % 2 ^ 64) 31 * xxP1 % 2 ^ 64
def xxMerge (h v : Nat) : Nat := ((h ^^^ xxRound 0 v) * xxP1 + xxP4) % 2 ^ 64

/-- The four lanes over the whole stripes from `p` on. -/
def xxStripes (a : Array Byte) : Nat → Nat → Nat × Nat × Nat × Nat → Nat × Nat × Nat × Nat
  | 0, _, v => v
  | n + 1, p, v => xxStripes a n (p + 32) (xxRound v.1 (bitsZ a (8 * p) 64), xxRound v.2.1 (bitsZ a (8 * p + 64) 64),
      xxRound v.2.2.1 (bitsZ a (8 * p + 128) 64), xxRound v.2.2.2 (bitsZ a (8 * p + 192) 64))

/-- The bytes after the last stripe. -/
def xxTail (a : Array Byte) : Nat → Nat → Nat → Nat
  | 0, _, h => h
  | n + 1, p, h =>
    if p + 8 ≤ a.size then xxTail a n (p + 8) ((rol64 (h ^^^ xxRound 0 (bitsZ a (8 * p) 64)) 27 * xxP1 + xxP4) % 2 ^ 64)
    else if p + 4 ≤ a.size then xxTail a n (p + 4) ((rol64 (h ^^^ bitsZ a (8 * p) 32 * xxP1 % 2 ^ 64) 23 * xxP2 + xxP3) % 2 ^ 64)
    else if p < a.size then xxTail a n (p + 1) (rol64 (h ^^^ bitsZ a (8 * p) 8 * xxP5 % 2 ^ 64) 11 * xxP1 % 2 ^ 64)
    else h

/-- XXH64 with seed 0, as the content checksum takes it. -/
def xxh64 (a : Array Byte) : Nat :=
  let n := a.size / 32
  let h :=
    if n = 0 then xxP5
    else
      let v := xxStripes a n 0 ((xxP1 + xxP2) % 2 ^ 64, xxP2, 0, 2 ^ 64 - xxP1)
      let h := (rol64 v.1 1 + rol64 v.2.1 7 + rol64 v.2.2.1 12 + rol64 v.2.2.2 18) % 2 ^ 64
      xxMerge (xxMerge (xxMerge (xxMerge h v.1) v.2.1) v.2.2.1) v.2.2.2
  let h := xxTail a 32 (32 * n) ((h + a.size) % 2 ^ 64)
  let h := (h ^^^ h / 2 ^ 33) * xxP2 % 2 ^ 64
  let h := (h ^^^ h / 2 ^ 29) * xxP3 % 2 ^ 64
  h ^^^ h / 2 ^ 32

/-! ## Dictionaries and frames (RFC 8878 3.1.1, 5) -/

/-- A dictionary ready for use: what it gives a frame's first block, and its content. -/
structure ZDict where
  ctx : ZCtx
  content : Array Byte

def ZCtx.start : ZCtx := ⟨none, none, none, none, (1, 4, 8)⟩

/-- The dictionary of a profile: bytes with no magic number are content alone; otherwise its own number must be the profile's. -/
def zDict (d : Array Byte) (id : Nat) : Option ZDict :=
  if leAt d 0 4 ≠ some 0xEC30A437 then some ⟨ZCtx.start, d⟩
  else if leAt d 4 4 ≠ some id then none
  else match zhuffRead d 8 d.size with
    | none => none
    | some (z, p) => match fseRead d p d.size 8 31 with
      | none => none
      | some (ofs, p) => match fseRead d p d.size 9 52 with
        | none => none
        | some (ml, p) => match fseRead d p d.size 9 35 with
          | none => none
          | some (ll, p) =>
            let r := (bitsZ d (8 * p) 32, bitsZ d (8 * p + 32) 32, bitsZ d (8 * p + 64) 32)
            let content := d.extract (p + 12) d.size
            if d.size < p + 12 ∨ [r.1, r.2.1, r.2.2].any fun x => x == 0 || decide (content.size < x) then none
            else some ⟨⟨some z, some ll, some ofs, some ml, r⟩, content⟩

/-- A frame's header: its window, its content size where it states one, its dictionary's number, whether a checksum follows, and where its blocks
begin. -/
structure ZHdr where
  win : Nat
  size : Option Nat
  id : Nat
  sum : Bool
  start : Nat

def zHeader (a : Array Byte) (p : Nat) : Option ZHdr :=
  match leAt a p 1 with
  | none => none
  | some f =>
    let single := f / 32 % 2 == 1
    let dn := [0, 1, 2, 4].getD (f % 4) 0
    let sn := if f / 64 = 0 then (if single then 1 else 0) else 2 ^ (f / 64)
    let wp := p + 1
    let dp := if single then wp else wp + 1
    match leAt a wp (dp - wp + dn + sn) with
    | none => none
    | some _ =>
      let w := bitsZ a (8 * wp) 8
      let size := bitsZ a (8 * (dp + dn)) (8 * sn) + (if sn = 2 then 256 else 0)
      if f / 8 % 2 = 1 then none
      else some ⟨if single then size else 2 ^ (10 + w / 8) + 2 ^ (7 + w / 8) * (w % 8), if sn = 0 then none else some size, bitsZ a (8 * dp) (8 * dn),
        f / 4 % 2 == 1, dp + dn + sn⟩

/-- One frame whose magic number has been read: the byte after it, and its content. -/
def zFrame (a : Array Byte) (p : Nat) (dict : Array Byte) (id : Nat) : StageR (Nat × Array Byte) :=
  match zHeader a p with
  | none => .inr (1, p)
  | some h =>
    if 2 ^ 23 < h.win then .inr (4, p)
    else if (if dict.isEmpty then h.id ≠ 0 else h.id ≠ id) then .inr (3, p)
    else match (if dict.isEmpty then some ⟨ZCtx.start, #[]⟩ else zDict dict id) with
      | none => .inr (3, p)
      | some d =>
        match zBlocks a d.content.size h.win (a.size + 1) h.start d.ctx d.content with
        | .inr e => .inr e
        | .inl (e, out) =>
          let out := out.extract d.content.size out.size
          if h.size.any fun n => n != out.size then .inr (2, a.size)
          else if h.sum = false then .inl (e, out)
          else match leAt a e 4 with
            | none => .inr (1, a.size)
            | some c => if c = xxh64 out % 2 ^ 32 then .inl (e + 4, out) else .inr (2, a.size)

/-- The frames of a stream one after another, skippable frames skipped. -/
def zFrames (a dict : Array Byte) (id : Nat) : Nat → Nat → Array Byte → StageR (Array Byte)
  | 0, p, _ => .inr (1, p)
  | n + 1, p, out =>
    match leAt a p 4 with
    | none => .inr (1, p)
    | some m =>
      let next := fun (e : Nat) (out : Array Byte) => if outLimit < out.size then .inr (4, p) else if e = a.size then .inl out else zFrames a dict id n e out
      if m / 16 = 0x184D2A5 then
        (match leAt a (p + 4) 4 with
        | none => .inr (1, a.size)
        | some k => if a.size < p + 8 + k then .inr (1, a.size) else next (p + 8 + k) out)
      else if m = 0xFD2FB528 then
        (match zFrame a (p + 4) dict id with
        | .inr e => .inr e
        | .inl (e, o) => next e (out ++ o))
      else .inr (1, p)

/-- A whole Zstandard stream with the dictionary of a profile and the number its frames must carry (R177, R201). -/
def unzstd (src dict : List Byte) (id : Nat) : StageR (List Byte) :=
  match zFrames src.toArray dict.toArray id (src.length + 1) 0 #[] with
  | .inl o => .inl o.toList
  | .inr e => .inr e

end Sys2Proof.Machine
end

