-- ==== Sys2Proof/Machine/Intake.lean ====
section
/-! DEFINITION. The intake engine: the stages of a message (R177, R178), its issue (R200, R201), its decision and its delivery (R179, R180). -/

namespace Sys2Proof.Machine

/-! ## Stage 2, transfer decoding -/

/-- The value of a base64 character. -/
def b64Val (c : Nat) : Option Nat :=
  if 65 ≤ c ∧ c ≤ 90 then some (c - 65)
  else if 97 ≤ c ∧ c ≤ 122 then some (c - 71)
  else if 48 ≤ c ∧ c ≤ 57 then some (c + 4)
  else if c = 43 then some 62
  else if c = 47 then some 63
  else none

/-- CR, LF, space and tab. -/
def blank (c : Nat) : Bool := c == 13 || c == 10 || c == 32 || c == 9

/-- Base64 from an offset: `acc` holds `n` bits not yet output, `pads` counts the padding seen. Input whose padding is short, or longer than its last
group needs, and a lone last character are accepted, and the bits left over are dropped: R177 names none of these among its faults, and this is the
model's choice (log 14, log 32). -/
def unbase64 : List Byte → Nat → Nat → Nat → Nat → StageR (List Byte)
  | [], _, _, _, _ => .inl []
  | b :: r, off, acc, n, pads =>
    let c := b.toNat
    if blank c then unbase64 r (off + 1) acc n pads
    else if c = 61 then (if pads < 2 then unbase64 r (off + 1) acc n (pads + 1) else .inr (5, off))
    else match b64Val c with
      | none => .inr (5, off)
      | some v =>
        if pads ≠ 0 then .inr (5, off)
        else
          let a := acc * 64 + v
          if n + 6 < 8 then unbase64 r (off + 1) a (n + 6) pads
          else match unbase64 r (off + 1) (a % 2 ^ (n - 2)) (n - 2) pads with
            | .inl bs => .inl (BitVec.ofNat 8 (a / 2 ^ (n - 2)) :: bs)
            | .inr e => .inr e

/-- The value of a hexadecimal digit. -/
def hexVal (c : Nat) : Option Nat :=
  if 48 ≤ c ∧ c ≤ 57 then some (c - 48)
  else if 65 ≤ c ∧ c ≤ 70 then some (c - 55)
  else if 97 ≤ c ∧ c ≤ 102 then some (c - 87)
  else none

/-- Whether what follows ends a line: nothing, LF, or CR and LF. -/
def lineEnds : List (Byte × Nat) → Bool
  | [] => true
  | [b] => b.1 == 10
  | b :: c :: _ => b.1 == 10 || (b.1 == 13 && c.1 == 10)

/-- A text without the spaces and tabs at the ends of its lines, which RFC 2045 deletes; each byte with its offset. -/
def cutBlanks : List (Byte × Nat) → List (Byte × Nat)
  | [] => []
  | b :: r =>
    let sp := fun (c : Byte × Nat) => c.1 == 32 || c.1 == 9
    if sp b && lineEnds (r.dropWhile sp) then cutBlanks r else b :: cutBlanks r

/-- Quoted-printable (log 14). -/
def unquoteFrom : List (Byte × Nat) → StageR (List Byte)
  | [] => .inl []
  | (61#8, _) :: (13#8, _) :: (10#8, _) :: r => unquoteFrom r
  | (61#8, _) :: (10#8, _) :: r => unquoteFrom r
  | (61#8, off) :: x :: y :: r =>
    match hexVal x.1.toNat, hexVal y.1.toNat with
    | some a, some b => (match unquoteFrom r with
      | .inl bs => .inl (BitVec.ofNat 8 (16 * a + b) :: bs)
      | .inr e => .inr e)
    | _, _ => .inr (5, off)
  | b :: r =>
    if b.1 = 61 then .inr (5, b.2)
    else match unquoteFrom r with
      | .inl bs => .inl (b.1 :: bs)
      | .inr e => .inr e

def unquote (bs : List Byte) : StageR (List Byte) := unquoteFrom (cutBlanks bs.zipIdx)

/-! ## Stage 3, transcoding -/

/-- Code points with the offset of each; none for an invalid sequence. -/
abbrev Points := List (Option Nat × Nat)

/-- How many continuation bytes a UTF-8 lead byte asks for, and the range of the first of them; none for a byte that starts nothing. -/
def utf8Lead (b : Nat) : Option (Nat × Nat × Nat) :=
  if 0xC2 ≤ b ∧ b ≤ 0xDF then some (1, 0x80, 0xBF)
  else if b = 0xE0 then some (2, 0xA0, 0xBF)
  else if b = 0xED then some (2, 0x80, 0x9F)
  else if 0xE1 ≤ b ∧ b ≤ 0xEF then some (2, 0x80, 0xBF)
  else if b = 0xF0 then some (3, 0x90, 0xBF)
  else if 0xF1 ≤ b ∧ b ≤ 0xF3 then some (3, 0x80, 0xBF)
  else if b = 0xF4 then some (3, 0x80, 0x8F)
  else none

/-- UTF-8 with each maximal subpart of an invalid sequence given once: `st` is the sequence in progress: where it began, bytes still to come,
the range of the next, the value so far. -/
def utf8Points : List Byte → Nat → Option (Nat × Nat × Nat × Nat × Nat) → Points
  | [], _, none => []
  | [], _, some (o, _) => [(none, o)]
  | b :: r, off, st =>
    let c := b.toNat
    let fresh : Points :=
      if c < 0x80 then (some c, off) :: utf8Points r (off + 1) none
      else match utf8Lead c with
        | none => (none, off) :: utf8Points r (off + 1) none
        | some (n, lo, hi) => utf8Points r (off + 1) (some (off, n, lo, hi, c % 2 ^ (6 - n)))
    match st with
    | none => fresh
    | some (o, n, lo, hi, v) =>
      if lo ≤ c ∧ c ≤ hi then
        (if n = 1 then (some (v * 64 + c % 64), o) :: utf8Points r (off + 1) none
         else utf8Points r (off + 1) (some (o, n - 1, 0x80, 0xBF, v * 64 + c % 64)))
      else (none, o) :: fresh

/-- UTF-16 units to code points; an unpaired surrogate and an odd last byte are invalid. `hi`: a high surrogate and its offset. -/
def utf16Points (be : Bool) : List Byte → Nat → Option (Nat × Nat) → Points
  | [], _, none => []
  | [], _, some (_, o) => [(none, o)]
  | [_], off, hi => (match hi with | some (_, o) => [(none, o)] | none => []) ++ [(none, off)]
  | a :: b :: r, off, hi =>
    let u := if be then a.toNat * 256 + b.toNat else b.toNat * 256 + a.toNat
    match hi with
    | some (h, o) =>
      if 0xDC00 ≤ u ∧ u < 0xE000 then (some (0x10000 + (h - 0xD800) * 1024 + (u - 0xDC00)), o) :: utf16Points be r (off + 2) none
      else (none, o) :: (if 0xD800 ≤ u ∧ u < 0xDC00 then utf16Points be r (off + 2) (some (u, off)) else (some u, off) :: utf16Points be r (off + 2) none)
    | none =>
      if 0xD800 ≤ u ∧ u < 0xDC00 then utf16Points be r (off + 2) (some (u, off))
      else if 0xDC00 ≤ u ∧ u < 0xE000 then (none, off) :: utf16Points be r (off + 2) none
      else (some u, off) :: utf16Points be r (off + 2) none

/-- Windows-1252, bytes 0x80 to 0x9F; the five undefined bytes map to the code point of the same value (R177). -/
def cp1252 : List Nat :=
  [0x20AC, 0x81, 0x201A, 0x0192, 0x201E, 0x2026, 0x2020, 0x2021, 0x02C6, 0x2030, 0x0160, 0x2039, 0x0152, 0x8D, 0x017D, 0x8F,
   0x90, 0x2018, 0x2019, 0x201C, 0x201D, 0x2022, 0x2013, 0x2014, 0x02DC, 0x2122, 0x0161, 0x203A, 0x0153, 0x9D, 0x017E, 0x0178]

/-- The two-byte character of a lead and a trail byte in a table of rows; none where there is none. -/
def pairIn (rows : List Nat) (lead trail : Nat) : Option Nat :=
  let v := bits (rows.getD lead 0) (16 * (trail - 0x40 - (if 0x7F ≤ trail then 1 else 0))) 16
  if v = 0 ∨ trail < 0x40 ∨ trail = 0x7F then none else some v

/-- Shift_JIS (log 14); `lead`: a lead byte and its offset. A pair without a character is no sequence of the charset, so the lead alone is
replaced. -/
def sjisPoints : List Byte → Nat → Option (Nat × Nat) → Points
  | [], _, none => []
  | [], _, some (_, o) => [(none, o)]
  | b :: r, off, lead =>
    let c := b.toNat
    let fresh : Points :=
      if c < 0x80 then (some c, off) :: sjisPoints r (off + 1) none
      else if 0xA1 ≤ c ∧ c ≤ 0xDF then (some (c - 0xA1 + 0xFF61), off) :: sjisPoints r (off + 1) none
      else if c = 0x80 ∨ c = 0xA0 ∨ 0xFD ≤ c then (none, off) :: sjisPoints r (off + 1) none
      else sjisPoints r (off + 1) (some (if c < 0xA0 then c - 0x81 else c - 0xC1, off))
    match lead with
    | none => fresh
    | some (l, o) => match (if c ≤ 0xFC then pairIn sjisRow l c else none) with
      | some v => (some v, o) :: sjisPoints r (off + 1) none
      | none => (none, o) :: fresh

/-- The character of a four-byte sequence of GB18030 by its linear index. -/
def gbLinear (n : Nat) : Option Nat :=
  if n ≤ 39419 then (gbRange.takeWhile fun e => decide (e.1 ≤ n)).getLast?.map fun e => e.2 + (n - e.1)
  else if 189000 ≤ n ∧ n ≤ 1237575 then some (n - 189000 + 0x10000)
  else none

/-- Whether some four-byte sequence with an index of a range stands for a character. -/
def gbMay (lo n : Nat) : Bool := decide (lo ≤ 39419) || (decide (189000 < lo + n) && decide (lo ≤ 1237575))

/-- GB18030 (log 14); `st`: how many bytes of a sequence have come, their linear index or the lead byte, and the offset of the first. -/
def gbPoints : List Byte → Nat → Option (Nat × Nat × Nat) → Points
  | [], _, none => []
  | [], _, some (_, _, o) => [(none, o)]
  | b :: r, off, st =>
    let c := b.toNat
    let fresh : Points :=
      if c < 0x80 then (some c, off) :: gbPoints r (off + 1) none
      else if c = 0x80 ∨ c = 0xFF then (none, off) :: gbPoints r (off + 1) none
      else gbPoints r (off + 1) (some (1, c - 0x81, off))
    let digit := decide (0x30 ≤ c ∧ c ≤ 0x39)
    match st with
    | none => fresh
    | some (1, l, o) =>
      if digit && gbMay ((l * 10 + (c - 0x30)) * 1260) 1260 then gbPoints r (off + 1) (some (2, (l * 10 + (c - 0x30)) * 1260, o))
      else (match (if c ≤ 0xFE then pairIn gbRow l c else none) with
        | some v => (some v, o) :: gbPoints r (off + 1) none
        | none => (none, o) :: fresh)
    | some (2, l, o) =>
      if 0x81 ≤ c ∧ c ≤ 0xFE ∧ gbMay (l + (c - 0x81) * 10) 10 = true then gbPoints r (off + 1) (some (3, l + (c - 0x81) * 10, o)) else (none, o) :: fresh
    | some (_, l, o) => match (if digit then gbLinear (l + (c - 0x30)) else none) with
      | some v => (some v, o) :: gbPoints r (off + 1) none
      | none => (none, o) :: fresh

/-- Code points of a text in a charset (R177), its byte-order mark removed. -/
def points (cset : Nat) (bs : List Byte) : Points :=
  let ps : Points :=
    match cset with
    | 0 => utf8Points bs 0 none
    | 1 => utf16Points false bs 0 none
    | 2 => utf16Points true bs 0 none
    | 3 => bs.zipIdx.map fun e => (some e.1.toNat, e.2)
    | 4 => bs.zipIdx.map fun e => (some (if 0x80 ≤ e.1.toNat ∧ e.1.toNat < 0xA0 then cp1252.getD (e.1.toNat - 0x80) 0 else e.1.toNat), e.2)
    | 5 => sjisPoints bs 0 none
    | _ => gbPoints bs 0 none
  match ps with
  | (some 0xFEFF, _) :: r => if cset = 3 ∨ cset = 4 ∨ cset = 5 then ps else r
  | _ => ps

/-- The UTF-8 bytes of a code point. -/
def utf8 (c : Nat) : List Byte :=
  (if c < 0x80 then [c]
   else if c < 0x800 then [0xC0 + c / 64, 0x80 + c % 64]
   else if c < 0x10000 then [0xE0 + c / 4096, 0x80 + c / 64 % 64, 0x80 + c % 64]
   else [0xF0 + c / 262144 % 8, 0x80 + c / 4096 % 64, 0x80 + c / 64 % 64, 0x80 + c % 64]).map fun n => BitVec.ofNat 8 n

/-- Stage 3: well-formed UTF-8, or reason 6 at the sequence that passes the limit. -/
def transcode (lim : Nat) : Points → StageR (List Byte)
  | [] => .inl []
  | (p, off) :: r =>
    match p, lim with
    | none, 0 => .inr (6, off)
    | none, n + 1 => (match transcode n r with
      | .inl bs => .inl (utf8 0xFFFD ++ bs)
      | .inr e => .inr e)
    | some c, n => match transcode n r with
      | .inl bs => .inl (utf8 c ++ bs)
      | .inr e => .inr e

/-! ## Stage 4, tokenising (R178) -/

/-- A token with the offset of its first byte. -/
abbrev Tok := Nat × Nat

def isSpace (b : Byte) : Bool := b == 0x09 || b == 0x0A || b == 0x0D || b == 0x20

/-- Pieces: one begins at each whitespace byte after a byte that is not whitespace. -/
def spacePieces : List Tok → List Tok → List (List Tok)
  | [], cur => if cur.isEmpty then [] else [cur]
  | t :: r, cur =>
    let last := (cur.getLast?.map fun u => !isSpace (BitVec.ofNat 8 u.1)).getD false
    if isSpace (BitVec.ofNat 8 t.1) && last then cur :: spacePieces r [t] else spacePieces r (cur ++ [t])

/-- The last character boundary at or before 1024 bytes of a longer piece. -/
def cutAt (p : List Tok) : Nat :=
  match (List.range 4).find? fun i => (p.getD (1024 - i) (0, 0)).1 / 64 != 2 with
  | some i => 1024 - i
  | none => 1024

def cutPiece : Nat → List Tok → List (List Tok)
  | 0, p => [p]
  | n + 1, p => if p.length ≤ 1024 then [p] else p.take (cutAt p) :: cutPiece n (p.drop (cutAt p))

/-- The lowest-index entry that an adjacent pair matches; an entry that names an identifier it comes before never matches. -/
def lowestMerge (table : List Nat) (p : List Tok) : Option (Nat × Nat) :=
  (table.zipIdx.find? fun e =>
    let l := bits e.1 0 20
    let r := bits e.1 20 20
    decide (l < 256 + e.2 ∧ r < 256 + e.2) && (p.zip p.tail).any fun q => q.1.1 == l && q.2.1 == r).map fun e => (e.1, e.2)

/-- Every occurrence of a pair merged, left to right without overlap. -/
def mergeAll (l r id : Nat) : List Tok → List Tok
  | a :: b :: t => if a.1 = l ∧ b.1 = r then (id, a.2) :: mergeAll l r id t else a :: mergeAll l r id (b :: t)
  | t => t

def mergePiece (table : List Nat) : Nat → List Tok → List Tok
  | 0, p => p
  | n + 1, p =>
    match lowestMerge table p with
    | none => p
    | some (w, i) => mergePiece table n (mergeAll (bits w 0 20) (bits w 20 20) (256 + i) p)

/-- The tokens of a text, or reason 7 at the token that passes the capacity. -/
def tokenise (table : List Nat) (cap : Nat) (bs : List Byte) : StageR (List Nat) :=
  let ts := ((spacePieces (bs.zipIdx.map fun e => (e.1.toNat, e.2)) []).flatMap fun p => cutPiece p.length p).flatMap fun p => mergePiece table p.length p
  match ts.drop cap with
  | [] => .inl (ts.map Prod.fst)
  | t :: _ => .inr (7, t.2)

/-! ## The four stages -/

/-- A stage's outcome carried on, its fault with the stage's number. -/
def stageThen {α β : Type} (n : Nat) (r : StageR α) (f : α → β ⊕ (Nat × Nat × Nat)) : β ⊕ (Nat × Nat × Nat) :=
  match r with
  | .inl a => f a
  | .inr (reason, off) => .inr (reason, n, off)

/-- Stage 1 (R177). -/
def decompress (m : Msg) (src dict : List Byte) : StageR (List Byte) :=
  match m.cont with
  | 0 => if outLimit < src.length then .inr (4, outLimit) else .inl src
  | 1 => inflate src
  | 2 => gunzip src
  | _ => unzstd src dict m.dictid

/-- The verdict of a message: its tokens, or reason, stage and offset. -/
def verdict (m : Msg) (src dict : List Byte) (table : List Nat) : List Nat ⊕ (Nat × Nat × Nat) :=
  stageThen 0 (decompress m src dict) fun a =>
    stageThen 1 (if m.tenc = 1 then unbase64 a 0 0 0 0 else if m.tenc = 2 then unquote a else .inl a) fun b =>
      stageThen 2 (transcode m.replim (points m.cset b)) fun c =>
        stageThen 3 (tokenise table m.tokcap c) .inl

/-! ## INTAKE (R200, R201) -/

/-- The profile of a command, as its bytes stand. -/
def profileOf (s : State) (core : Nat) (o : IntakeOps) : Nat := getN s.mem (dieKey (core / 8) (64 * o.prof.toNat)) 64

/-- The reserved values and Zero fields of R201. -/
def profileOk (w : Nat) : Bool :=
  let merge := bits w 0 64
  let dict := bits w 160 64
  isCanon merge && decide (merge % 8 = 0 ∧ bits w 64 19 ≤ 262144 ∧ bits w 83 13 = 0 ∧ bits w 96 32 ≠ 0 ∧ bits w 144 16 = 0)
    && isCanon dict && decide (bits w 224 21 ≤ 2 ^ 20 ∧ (bits w 224 21 = 0 ↔ dict = 0) ∧ bits w 245 11 = 0 ∧ bits w 291 1 = 0
      ∧ bits w 292 23 % 64 = 0 ∧ bits w 315 5 = 0 ∧ bits w 320 26 % 64 = 0 ∧ w / 2 ^ 346 = 0)

def intakeCost (o : IntakeOps) (w : Nat) : Nat := 512 + 2 * o.slen.toNat + 4 * bits w 96 32

/-- The log of a quarantine ring; none where its header is not one (R180). -/
def qringLog (m : List Host.Cell) (k : Nat) : Option Nat :=
  let h := getN m k 64
  if 2 ≤ bits h 128 4 ∧ bits h 128 4 ≤ 12 ∧ h / 2 ^ 132 = 0 then some (bits h 128 4) else none

/-- A message takes its place once one is free (R179), after the checks of R201, R180 and R231: the ranges before what stands
in them. DESIGN CHOICE (R201, R231): a channel or ring out of reach is a protection fault of access kind 3, since its counts are read and written
(log 32). -/
def State.takePlace (s : State) (i : Iss) (o : IntakeOps) : Eng CmdSt :=
  let die := i.c.core / 8
  let ms := (s.die die).msgs
  if 64 ≤ ms.length then .wait
  else (s.engRead i 4 (64 * o.prof.toNat) 64).bind fun _ s =>
    let w := profileOf s i.c.core o
    if !profileOk w then .fault 4 0 (64 * o.prof.toNat)
    else
      let core := die * 8 + bits w 288 3
      let hdr := bits w 292 23
      let hk := padKey core hdr
      let qo := bits w 320 26
      let qk := dieKey die qo
      if (s.core core).part ≠ some (partOf i.cx) ∨ s.reachable i.cx core 2 hdr 64 = false then .fault 3 3 hdr
      else if s.reachable i.cx i.c.core 4 qo 64 = false then .fault 3 3 qo
      else if let some a := s.hdrPoison false hk then .fault 12 0 a
      else if let some g := s.poisonIn qo [(qk, 64)] then .fault 12 0 (g - g % 256)
      else match chanHdr s.mem false hk, qringLog s.mem qk with
        | none, _ => .fault 4 0 hdr
        | some h, l =>
          if s.reachable i.cx core 2 hdr (64 + tagBytes h.logn + 2 ^ h.logn * h.slotSz) = false then .fault 3 3 hdr
          else match l with
            | none => .fault 4 0 qo
            | some l => (s.engKeys i 4 qo (64 + 32 * 2 ^ l) 3).bind fun _ s =>
              let held := ms.any fun m => m.ochan == hk
              if let some a := s.chanPoison false hk then .fault 12 0 a
              else if h.slotSz ≠ 4 then .fault 4 0 hdr
              else if s.isBound hk true && !held then .fault 7 0 hdr
              else
                let m : Msg := ⟨i.cx, i.c.core, i.c.seq, canon57 o.srca.toNat, o.slen.toNat, o.tenc.toNat, o.cset.toNat, o.cont.toNat, o.tag.toNat,
                  bits w 0 64, bits w 64 19, bits w 96 32, bits w 128 16, bits w 160 64, bits w 224 21, bits w 256 32, hk, qk, none, 0⟩
                .ok .issued ((s.setBind hk true true).modDie die fun d => { d with msgs := d.msgs ++ [m] })

def execIntake (_h : CmdHdr) (o : IntakeOps) (s : State) : Host.Outcome State Fault Refusal :=
  s.runCmd (fun s i => intakeCost o (profileOf s i.c.core o)) (fun s i => s.takePlace i o) noMore

/-! ## Decision -/

/-- Bytes a message reads through the engine's port, or how the read ends it: a data error comes once the requests up to it have been sent (R230,
R328). A read that begins at a canonical address and runs past 2^56 goes on at the low 57 bits of the addresses that follow: R200 and R201 state no
extent for the source, the dictionary and the merge table, and this is the model's choice (log 32). -/
def State.msgRead (s : State) (die : Nat) (m : Msg) (va n : Nat) : Eng (List Byte) :=
  if n = 0 then .ok [] s
  else match s.reach (inPort die) m.cx va n 1 with
    | .pageFault a st l _ => .stall (inPort die) a 1 st l
    | .prot a _ => .fault 3 1 a
    | .data a _ => .fault 12 0 a
    | .ok ks s =>
      match s.poisonIn va ks with
      | some g => .faultAt (s.readSent die m.cx va ks g) 12 0 (g - g % 256)
      | none => .ok (s.gets ks) (s.readVia die m.cx va ks)

/-- Entries of 8 bytes. -/
def tableOf : Nat → List Byte → List Nat
  | 0, _ => []
  | n + 1, bs => natOfBytes (bs.take 8) :: tableOf n (bs.drop 8)

/-- A held message changed. -/
def State.modMsg (s : State) (die cx seq : Nat) (f : Msg → Msg) : State :=
  s.modDie die fun d => { d with msgs := d.msgs.map fun m => if m.cx = cx ∧ m.seq = seq then f m else m }

/-- The message in a place finishes its stages, or faults in one (R177, R179). An entry of the merge table whose Zero field is not zero is a format
fault (R178, R183), after the table's requests have been counted. DESIGN CHOICE (R230): the engine reads the whole source, the whole dictionary whatever
the container, and the whole merge table of every message, also of one that an early stage faults; where a translation of one of them ends in a
protection fault or at the fault limit, none of the message's reads have been sent, and none count (log 32). -/
def execMessageDecided (die place : Nat) (s : State) : Host.Outcome State Fault Refusal :=
  .next <|
    match (s.die die).msgs[place]? with
    | none => s
    | some m =>
      if m.verdict.isSome ∨ (s.port (inPort die)).miss.isSome ∨ s.faulting m.cx then s
      else
        let r := (s.msgRead die m m.srca m.slen).bind fun src s => (s.msgRead die m m.dict m.dlen).bind fun dict s =>
          (s.msgRead die m m.merge (8 * m.nmerge)).bind fun tab s =>
            let table := tableOf m.nmerge tab
            match table.findIdx? fun w => decide (2 ^ 40 ≤ w) with
            | some n => .faultAt s 4 0 (m.merge + 8 * n)
            | none => .ok (verdict m src dict table) s
        match r with
        | .ok v s => s.modMsg die m.cx m.seq fun m => { m with verdict := some v }
        | .fault c d a => s.fault m.cx c d 63 15 a 0 []
        | .faultAt s c d a => s.fault m.cx c d 63 15 a 0 []
        | .stall p va acc st l => s.modPort p fun q => { q with miss := some ⟨m.cx, va, acc, st, l, s.tb, false, .message die m.seq⟩ }
        | .wait => s

/-! ## Delivery -/

/-- A quarantine record (R180). -/
def quarantine (m : Msg) (reason stage off : Nat) : List Byte :=
  bytesOfNat 32 (m.srca + m.slen * 2 ^ 64 + reason * 2 ^ 96 + stage * 2 ^ 104 + off % 2 ^ 64 * 2 ^ 128 + m.tag * 2 ^ 192 + m.seq % 2 ^ 32 * 2 ^ 224)

/-- A message leaves its place and its command is done; `BIND` clears with the last message for its channel (R201). -/
def State.freePlace (s : State) (die : Nat) (m : Msg) : State :=
  let s := s.modDie die fun d => { d with msgs := d.msgs.filter fun n => !(n.cx == m.cx && n.seq == m.seq) }
  let s := if (s.die die).msgs.any fun n => n.ochan == m.ochan then s else s.setBind m.ochan true false
  s.modCmd m.cx (160 + die) m.seq fun c => { c with st := .done }

/-- Slots written to a channel in order: tokens, then one end-of-section slot after the last. -/
def State.putSlots (s : State) (hk logn cnt : Nat) : List (Nat × Nat) → State
  | [] => s
  | (v, t) :: r => ((s.writeN (slotKey hk logn 4 cnt) 4 v).setTag hk logn cnt t).putSlots hk logn (cnt + 1) r

/-- Part of a message's tokens, as many as a free value within the free slots (log 11). The four bytes of the end-of-section slot are written as
zero: R179 gives the slot and not its bytes, and this is the model's choice (log 32). -/
def State.deliver (s : State) (die : Nat) (m : Msg) (toks : List Nat) (h : ChanHdr) : State :=
  let all := (toks.map fun v => (v, 0)) ++ [(0, 1)]
  let left := all.drop m.sent
  let (f, s) := s.freeNat
  let n := min (1 + f % left.length) h.free
  let s := (s.putSlots m.ochan h.logn h.wcnt (left.take n)).advance m.ochan true n
  if all.length ≤ m.sent + n then s.freePlace die m else s.modMsg die m.cx m.seq fun m => { m with sent := m.sent + n }

/-- One record into the ring, and the count after it (R180). -/
def State.quarantined (s : State) (die : Nat) (m : Msg) (l reason stage off : Nat) : State :=
  let w := getN s.mem m.qring 8
  let s := s.write (m.qring + 64 + 32 * (w % 2 ^ l)) (quarantine m reason stage off)
  ((s.writeN m.qring 8 (w + 1)).freePlace die m).countDie die 4 1 (s.vfOf m.cx)

/-- A decided message whose channel or ring cannot be written: its place is free, its context takes the fault, and nothing is delivered (R49, R328). -/
def State.undelivered (s : State) (die : Nat) (m : Msg) (cls addr : Nat) : State := (s.freePlace die m).fault m.cx cls 0 63 15 addr 0 []

/-- The delivery of one message: none where it must wait for room. A header found invalid is a format fault (R49), a poisoned one a data error
(R328). -/
def State.deliverMsg (s : State) (die : Nat) (m : Msg) : Option State :=
  match m.verdict with
  | none => none
  | some (.inl toks) =>
    (match s.chanPoison false m.ochan, chanHdr s.mem false m.ochan with
    | some a, _ => some (s.undelivered die m 12 a)
    | none, none => some (s.undelivered die m 4 0)
    | none, some h => if h.free = 0 then none else some (s.deliver die m toks h))
  | some (.inr (reason, stage, off)) =>
    match s.poisoned m.qring 64, qringLog s.mem m.qring with
    | some g, _ => some (s.undelivered die m 12 (g * 256 - dieKey die 0))
    | none, none => some (s.undelivered die m 4 0)
    | none, some l =>
      let h := getN s.mem m.qring 16
      if 2 ^ l ≤ (bits h 0 64 + 2 ^ 64 - bits h 64 64) % 2 ^ 64 then none else some (s.quarantined die m l reason stage off)

/-- Decided messages are delivered in commit sequence order (R179): a message waits for every earlier one of its queue. DESIGN CHOICE (R179): the numbers
are a context's own (R185), so between contexts the first message that can be delivered goes, in the order the places were taken (log 32). -/
def execMessageDelivery (die : Nat) (s : State) : Host.Outcome State Fault Refusal :=
  .next <|
    let ms := (s.die die).msgs
    let heads := ms.filter fun m => ms.all fun n => n.cx != m.cx || decide (m.seq ≤ n.seq)
    (heads.findSome? fun m => s.deliverMsg die m).getD s

end Sys2Proof.Machine
end

