-- ==== Sys2Proof/Machine/Page.lean ====
section
/-! DEFINITION. The ends of walks and of stalls: WALK, REPLAY, DRAIN_LIMIT, FAULT_LIMIT (R243 to R250, R361), and what a commit waits for (R63, R110,
R184). A number below 528 names a port; 1000 + i and 2000 + i name the i-th stalled read and write of the device. -/

namespace Sys2Proof.Machine

/-! ## The stalled access an event names -/

def State.missAt (s : State) (n : Nat) : Option Miss :=
  if n < 1000 then (s.port n).miss else if n < 2000 then s.pendR[n - 1000]? else (s.pendW[n - 2000]?).bind fun w => if w.queued then none else some w.miss

/-- The miss changed in its place. -/
def State.modMiss (s : State) (n : Nat) (f : Miss → Miss) : State :=
  if n < 1000 then s.modPort n fun p => { p with miss := p.miss.map f }
  else if n < 2000 then { s with pendR := s.pendR.modify (n - 1000) f }
  else { s with pendW := s.pendW.modify (n - 2000) fun w => { w with miss := f w.miss } }

/-- The miss taken away. -/
def State.dropMiss (s : State) (n : Nat) : State :=
  if n < 1000 then s.modPort n fun p => { p with miss := none }
  else if n < 2000 then { s with pendR := s.pendR.eraseIdx (n - 1000) }
  else { s with pendW := s.pendW.eraseIdx (n - 2000) }

/-- The cores that a miss's drain concerns (R247). -/
def State.missCores (s : State) (n : Nat) (m : Miss) : List Nat :=
  if n < 384 then [n / 12]
  else if n < 448 then [(n - 384) / 2]
  else if n < 1000 then dieCores (portDie n)
  else dieCores (s.missDie m)

/-- A frozen row's task may run on: a drain's once its access goes on, one that `BRK` froze once it has been released. None that stands frozen does while
its VF is descheduled, in a debug stop of its context, or while another drain keeps the context from the core (R247, R329, R356); one that a drain was
still to freeze goes on. -/
def State.thawRow (s : State) (r : Nat) : State :=
  match s.task r with
  | some t =>
    let off := s.descheduled t.cx || !(s.ctx t.cx).any fun x => x.dbg.state == 0
    let out := s.offCore t.cx (r / 12)
    let waits := (s.port r).miss.isSome || s.pendR.any fun (m : Miss) => m.who == Who.row r
    let brk := t.froBrk && (!t.freed || off || out)
    s.setTask r (some { t with froDrain := t.froDrain && (waits || out || (off && s.drainRest t.cx (r / 12))), froBrk := brk, freed := t.freed && brk })
  | none => s

/-- The same for every row of a context. -/
def State.thawCtx (s : State) (cx : Nat) : State :=
  (s.busyRows.filter fun r => (s.task r).any fun t => t.cx == cx).foldl State.thawRow s

/-- A stalled access goes on: its row thaws, its commit continues, and where no drain is left its context's frozen tasks and its pipelines run on (R247,
R249). -/
def State.missOver (s : State) (m : Miss) : State :=
  let s := match m.who with
    | .row r => (s.thawRow r).commitGo r
    | _ => s
  if m.drained then (let s := s.thawCtx m.cx; if (s.ctx m.cx).any fun x => x.dbg.state == 0 then s.uncutAll m.cx else s) else s

/-! ## WALK (R243, R250) -/

/-- An entry without permissions, which the access that finds no storage behind its leaf meets again (R233). -/
def denied (cx root va : Nat) : PEnt := ⟨va57 va, 1, 0, 0, false, false, false, true, false, 0, 0, 0, 0, cx, root, 12, 12⟩

/-- A walk that found a valid leaf is over; a miss it resolves ends. -/
def State.walked (s : State) (port : Nat) (e : PEnt) (keep : Bool) : State :=
  let m := (s.port port).miss
  let s := s.modPort port fun p =>
    { p with entries := if keep then install p.entries e else p.entries, got := p.got ++ [e], walk := none, miss := none }
  match m with
  | some m => s.missOver m
  | none => s

/-- A walk that reads a poisoned granule of a table is a data error of the task whose access it serves (R328). -/
def State.walkLost (s : State) (port : Nat) (w : Walk) (a : Nat) : State :=
  let s := s.modPort port fun q => { q with walk := none, miss := none }
  match s.task port with
  | some t => s.faultTask t 12 0 a
  | none => s.fault w.cx 12 0 63 15 a 0 []

/-- A walk ends: it restarts where a generation has changed, installs an entry, or reports a page fault (R243, R246, R250). -/
def execWalk (port : Nat) (s : State) : Host.Outcome State Fault Refusal :=
  .next <|
    match (s.port port).walk with
    | none => s
    | some w =>
      let p := s.part (partOf w.cx)
      if w.gen1 ≠ p.gen1 ∨ w.gen2 ≠ p.gen2 then s.modPort port fun q => { q with walk := some { w with gen1 := p.gen1, gen2 := p.gen2 } }
      else match s.walk w.cx w.va w.acc with
        | .ok e => s.walked port e true
        | .prot => (match s.walk w.cx w.va 4 with
          | .ok e => s.walked port e true
          | _ => s.walked port (denied w.cx (s.rootOf w.cx) w.va) false)
        | .data a => s.walkLost port w a
        | .pageFault st l => s.modPort port fun q =>
          { q with walk := none, miss := some (match q.miss with
              | some m => { m with stage := st, level := l }
              | none => ⟨w.cx, w.va, w.acc, st, l, s.tb, false, .row port⟩) }

/-! ## REPLAY (R249) -/

/-- The fault record (R326). -/
def faultBytes (x : Ctx) (f : FaultRec) : List Byte :=
  bytesOfNat 128 (f.cls + f.detail % 256 * 2 ^ 8 + f.core % 64 * 2 ^ 16 + f.row % 16 * 2 ^ 22 + f.nlate * 2 ^ 32 + f.addr % 2 ^ 64 * 2 ^ 64 + f.pc * 2 ^ 128
      + f.tb % 2 ^ 64 * 2 ^ 192 + f.pktseq * 2 ^ 256 + f.nact * 2 ^ 320 + f.nrun % 2 ^ 12 * 2 ^ 340
      + ((List.range 4).map fun n => f.succ.getD n 0 * 2 ^ (384 + 64 * n)).sum)
    ++ (List.range 164).flatMap fun k => let e := getEq x k; bytesOfNat 8 e.appended ++ bytesOfNat 8 (doneUpTo e)

/-- The bytes of a stalled write as it is made: a fault record counts the faults that have come meanwhile (R325). -/
def State.pendBytes (s : State) (w : DevWrite) : List Byte :=
  match (s.ctx w.miss.cx).bind fun x => x.halt.fault.map fun f => (x, f) with
  | some (x, f) => if w.kind = 3 then faultBytes x f else w.bytes
  | none => w.bytes

/-- A record's write tried again, in the order of its kind (R361); a completion record waits while its VF is descheduled (R304). A write that has only
waited meets its own page fault here first. -/
def State.tryWrite (s : State) (i : Nat) : State :=
  match s.pendW[i]? with
  | none => s
  | some w =>
    if recClass w.kind = 2 ∧ s.descheduled w.miss.cx = true then s
    else if (s.pendW.take i).any fun v => v.before w.miss.cx w.kind w.va then s
    else match s.devTry (s.missDie w.miss) w.miss.cx w.kind w.va (s.pendBytes w) with
      | .ok s =>
        let s := (s.dropMiss (2000 + i)).missOver w.miss
        (match w.stage with
        | some (core, row, pc) => s.fault w.miss.cx 8 0 core row 0 pc []
        | none => s)
      | .prot a s => ((s.dropMiss (2000 + i)).devLost w.miss.cx w.kind a 3 (devAccess w.kind)).missOver w.miss
      | .data a s => ((s.dropMiss (2000 + i)).devLost w.miss.cx w.kind a 12 0).missOver w.miss
      | .pageFault a st l t => { t with pendW := t.pendW.modify i fun v =>
          { v with queued := false, miss := { v.miss with va := a, stage := st, level := l, since := if v.queued then s.tb else v.miss.since } } }

/-- The writes that waited behind one that is over are made, in their order (R361). -/
def State.writeNext (s : State) (cx kind : Nat) : Nat → State
  | 0 => s
  | n + 1 =>
    match s.pendW.zipIdx.find? fun e => e.1.queued && e.1.miss.cx == cx && recClass e.1.kind == recClass kind &&
        !(s.pendW.take e.2).any fun v => v.before cx e.1.kind e.1.va with
    | some e => (s.tryWrite e.2).writeNext cx kind n
    | none => s

/-- A stalled write is replayed, and with it those that waited behind it. -/
def State.replayWrite (s : State) (i : Nat) : State :=
  match s.pendW[i]? with
  | none => s
  | some w => if w.queued then s else (s.tryWrite i).writeNext w.miss.cx w.kind s.pendW.length

/-- The completion records of a context that are still to be written, as its VF's slice begins (R304). -/
def State.replayRecords (s : State) (cx : Nat) : Nat → State
  | 0 => s
  | n + 1 =>
    match s.pendW.findIdx? fun w => w.miss.cx == cx && recClass w.kind == 2 with
    | none => s
    | some i =>
      let t := s.tryWrite i
      if s.pendW.length ≤ t.pendW.length then t else t.replayRecords cx n

/-- The page service replays a stalled access (R249): the port walks again. -/
def execReplay (port : Nat) (s : State) : Host.Outcome State Fault Refusal :=
  .next <|
    match s.missAt port with
    | none => s
    | some m =>
      if 2000 ≤ port then s.replayWrite (port - 2000)
      else if port < 384 then
        let p := s.part (partOf m.cx)
        s.modPort port fun q => { q with walk := some ⟨m.cx, m.va, m.acc, p.gen1, p.gen2⟩ }
      else
        let at_ := if port < 1000 then port else ctxPort (s.missDie m)
        match s.xlate at_ m.cx m.va m.acc with
        | (.pageFault st l, s) => s.modMiss port fun m => { m with stage := st, level := l }
        | (_, s) => (s.dropMiss port).missOver m

/-! ## The limits (R247, R248) -/

/-- A miss reaches the drain limit: its context stops dispatching on the cores concerned, its pipelines are cut, and its stalled task is to stand frozen
once the context's other tasks there have ended (R247, `State.stands`). -/
def execDrainLimit (port : Nat) (s : State) : Host.Outcome State Fault Refusal :=
  .next <|
    match s.missAt port with
    | none => s
    | some m =>
      if m.drained ∨ s.tb < m.since + (s.part (partOf m.cx)).drain then s
      else
        let s := s.modMiss port fun m => { m with drained := true }
        let s := match m.who with
          | .row r => (match s.task r with
            | some t => if t.commit.isNone then s.setTask r (some { t with froDrain := true }) else s
            | none => s)
          | _ => s
        s.cutAll m.cx (s.missCores port m).contains

/-- The core and the row that a stalled access names: a task's or a scroll's row, an engine's core, or none (R326). -/
def whoPlace (w : Who) : Nat × Nat :=
  match w with
  | .engine _ k => (if k < 160 then k / 5 else 63, 15)
  | .row r => (r / 12, r % 12)
  | .pipe _ _ r => (r / 12, r % 12)
  | _ => (63, 15)

/-- Whether a miss is on the source of a held message (R201, R248). -/
def State.onSource (s : State) (m : Miss) : Option (Nat × Msg) :=
  match m.who with
  | .message d q =>
    (match (s.die d).msgs.find? fun g => g.cx == m.cx && g.seq == q with
    | some g => if g.srca - g.srca % 4096 ≤ m.va ∧ m.va < g.srca + g.slen then some (d, g) else none
    | none => none)
  | _ => none

/-- A miss reaches the fault limit: a context fault of class translation, or reason 8 for the source of a message (R248); a PIPE and a RECEIPT say what
it means for them (R219, R310). -/
def execFaultLimit (port : Nat) (s : State) : Host.Outcome State Fault Refusal :=
  .next <|
    match s.missAt port with
    | none => s
    | some m =>
      if s.tb < m.since + (s.part (partOf m.cx)).fault then s
      else
        let det := m.stage * 8 + m.level
        let s := s.dropMiss port
        if 2000 ≤ port then
          match m.who with
          | .record _ kind _ => (s.devLost m.cx kind m.va 6 det).writeNext m.cx kind s.pendW.length
          | _ => s
        else match s.onSource m with
          | some (d, g) => (s.modMsg d g.cx g.seq fun g => { g with verdict := some (.inr (8, 0, g.slen)) }).missOver m
          | none =>
            match m.who with
            | .row r =>
              (match s.task r with
              | some t =>
                if t.commit.isSome then (s.fault m.cx 6 det t.core (r % 12) m.va t.pc.toNat []).commitGo r
                else (s.modPort r fun q => { q with walk := none }).faultTask t 6 det m.va
              | none => s)
            | .ring cx =>
              if (s.ctx cx).any fun x => x.cur.any fun u => u.hdr.kind == 2 then
                (s.modCtx cx fun x => { x with cur := x.cur.map fun u => { u with lost := some m.va } }).missOver m
              else s.fault m.cx 6 det 63 15 m.va 0 []
            | .receipt cx => (s.modCtx cx fun x => { x with receipt := x.receipt.map fun r => { r with lost := r.lost ++ [(m.va, det)] } }).missOver m
            | w => s.fault m.cx 6 det (whoPlace w).1 (whoPlace w).2 m.va 0 []

/-! ## Commits that wait -/

/-- TLBI and PTSYNC items of a commit complete, and with the last the commit goes on (R78 step 4, R110). -/
def execTlbiComplete (row : Nat) (s : State) : Host.Outcome State Fault Refusal :=
  .next <|
    match s.task row with
    | none => s
    | some t =>
      match t.commit with
      | none => s
      | some c =>
        if c.step ≠ 4 ∨ c.syncs.isEmpty then s
        else
          let left := c.syncs.filter fun i => !s.syncDone t.cx row i
          let done := left.isEmpty && c.todo.isEmpty
          let c := { c with syncs := left, step := if done then 5 else 4, wait := if done then .none else c.wait }
          (s.setTask row (some (t.withCommit c))).commitGo row

/-- A commit that waits for a queue's room goes on with its appends (R184, R303). -/
def execQueueRoom (row : Nat) (s : State) : Host.Outcome State Fault Refusal :=
  .next <|
    match (s.task row).bind fun t => t.commit with
    | some c => if c.wait = .room then s.commitGo row else s
    | none => s

/-! ## SEGMENT_LINK (R63, R299) -/

/-- The rows whose commits wait for a segment of a queue. -/
def State.segWaiters (s : State) (cx q : Nat) : List Nat :=
  s.busyRows.filter fun r => match s.task r with
    | some t => t.cx == cx && t.commit.any fun c => c.wait == CWait.segment q
    | none => false

/-- No segment is free: queue exhausted, with the successors not enqueued (R63, R324). DESIGN CHOICE (R63): where several commits wait for a segment
of the queue, the record names the successors of the lowest waiting row (log 32). -/
def State.exhausted (s : State) (cx q : Nat) : State :=
  match s.segWaiters cx q with
  | r :: _ =>
    (match s.task r with
    | some t =>
      (match t.commit with
      | some c =>
        let s := (s.unhold cx c.held).setTask r (some (t.withCommit { c with succ := [], bad := [], wait := .none, held := none }))
        ((s.badSuccs t c.bad c.succ).fault cx 2 0 t.core (r % 12) t.block t.pc.toNat ((c.bad ++ c.succ).map fun e => e.2.toNat)).commitGo r
      | none => s)
    | none => s)
  | [] =>
    let waits := (s.ctx cx).any fun x => x.cur.any (fun u => u.full == some q) || x.receipt.any fun (r : Receipt) => r.step == 3 && lbQsel r.image == q
    if waits then s.fault cx 2 0 63 15 0 0 [] else s

/-- Whether the header of a segment of a context is still to be written (R62, R361). -/
def State.headPending (s : State) (cx : Nat) : Bool := s.pendW.any fun w => w.miss.cx == cx && w.kind == 9

/-- A range of a context reached for a write of F1's. -/
def State.segReach (s : State) (cx va n : Nat) : LR (List (Nat × Nat)) :=
  match s.reach (s.devPort cx) cx va n 2 with
  | .ok ks s => .ok ks s
  | .pageFault a st l s => .pageFault a st l s
  | .prot a s => .prot a s
  | .data a s => .data a s

/-- The locations of a segment to be linked, and of the `NEXT` of the one that it follows. -/
def State.reachLink (s : State) (cx seg : Nat) (last : Option Nat) : LR (List (Nat × Nat) × List (Nat × Nat)) :=
  (s.segReach cx seg 4096).bind fun ks s => match last with
    | some l => (s.segReach cx l 8).bind fun ls s => .ok (ks, ls) s
    | none => .ok (ks, []) s

/-- A tail segment that filled gets its `NEXT` from the free list, and what waited goes on (R63, R299): `ks` are the locations of the new segment, `ls`
those of the tail's `NEXT`. -/
def State.linkSegment (s : State) (cx q : Nat) (e : QEnt) (seg : Nat) (rest : List Nat) (ks ls : List (Nat × Nat)) : State :=
  let nk := (ks.head?.map Prod.fst).getD 0
  let s := ((s.puts ls (bytesOfNat 8 seg)).puts ks (bytesOfNat 64 (segHeader 0 1 1))).modCtx cx fun x =>
    { x with queues := putT x.queues q { e with segs := e.segs ++ [(seg, nk)], tailx := 1 }, free := rest
             cur := x.cur.map fun u => if u.full = some q then { u with full := none } else u }
  let s := s.retireHead cx q
  (s.segWaiters cx q).foldl (fun s r => s.commitGo r) s

/-- F1 links a segment to a full tail, or raises queue exhausted when a copy waits and none is free (R63). DESIGN CHOICE (R63): of the free list it
takes the segment that was added first (log 32). Both segments are reached through the context's address space before either is written, and a miss
stalls what waits for the link (R361). -/
def execSegmentLink (cx qsel : Nat) (s : State) : Host.Outcome State Fault Refusal :=
  .next <|
    match s.ctx cx with
    | none => s
    | some x =>
      match findT x.queues qsel with
      | none => s
      | some e =>
        if e.tailx ≠ 0 ∨ s.faulting cx then s
        else match x.free with
          | [] => s.exhausted cx qsel
          | seg :: rest =>
            if s.pendR.any (fun m => m.who.isRecord cx 0) || s.headPending cx then s
            else match s.reachLink cx seg ((e.segs.getLast?.map Prod.fst)) with
              | .ok (ks, ls) s => s.linkSegment cx qsel e seg rest ks ls
              | .invalid s => s
              | .pageFault a st l s => s.pendRead cx a 2 st l (.record cx 0 (s.firstDie (partOf cx)))
              | .prot a s => s.fault cx 3 2 63 15 a 0 []
              | .data a s => s.fault cx 12 0 63 15 a 0 []

end Sys2Proof.Machine
end

