-- ==== Sys2Proof/Machine/Halt.lean ====
section
/-! DEFINITION. The halt of a context (R325), its fault record (R326), resuming (R327), and machine checks (R328). -/

namespace Sys2Proof.Machine

/-! ## Steps 2 and 3 -/

/-- The rows that run tasks of a context. -/
def State.rowsOfCx (s : State) (cx : Nat) : List Nat := s.busyRows.filter fun r => (s.task r).any fun t => t.cx == cx

/-- A task ends without commit: nothing it staged is performed, no record is written, no packet credited. -/
def State.dropTask (s : State) (r : Nat) (t : Task) : State :=
  ((s.releaseHandles t).modPort r fun p => { p with got := [], walk := none, miss := none }).freeRowGo r

/-- Tasks of a context that have not reached step 1 of their commit end; how many (R325 steps 2 and 3). -/
def State.dropTasks (s : State) (cx : Nat) : State × Nat :=
  (s.rowsOfCx cx).foldl (fun (a : State × Nat) r =>
    match a.1.task r with
    | some t => if t.commit.isNone then (a.1.dropTask r t, a.2 + 1) else a
    | none => a) (s, 0)

/-! ## Step 4 -/

/-- Undispatched indices of a spanning launch (R287). -/
def Span.left (p : Span) : Nat := (p.ranges.map fun r => r.2.2 - r.2.1).sum

/-- Activations that step 4 discards: enqueued ones, and the undispatched indices of spanning launches. -/
def discarded (x : Ctx) : Nat :=
  ((x.acts.filter fun a => !a.bound).map fun a => match x.spans.find? fun p => p.act == a.id with
    | some p => p.left
    | none => 1).sum

/-- Emptied head segments of a queue go back to the free list (R299). -/
def State.retireAll (s : State) (cx q : Nat) : Nat → State
  | 0 => s
  | n + 1 => (s.retireHead cx q).retireAll cx q n

/-- The Front lets go of a context's pipelines: their rows are free, and no position is saved (R325). -/
def State.dropPipes (s : State) (cx : Nat) : State :=
  match s.ctx cx with
  | none => s
  | some x =>
    let rows := x.pipes.flatMap fun p => p.hosts.map fun h => h.row
    let s := rows.foldl State.unclaim (s.modCtx cx fun x => { x with pipes := [] })
    (x.pipes.map fun p => p.core).dedup.foldl State.frontCore s

/-- A RECEIPT whose step 1 has completed and that a context fault ends (R310, R325): step 4 still re-checks what it has chained. Where step 2 has
chained nothing, there is nothing to re-check, and the digests of its items are free values (log 32). -/
def Receipt.ending (r : Receipt) (m : BitVec 256) (tb : Nat) (d : BitVec 256) : Receipt :=
  if r.step = 2 then { r with faulted := true, lost := [], step := 5, mafter := m, tbe := tb, hcode := d, harg := d + 1 }
  else if r.step = 5 then { r with faulted := true, lost := [], mafter := m }
  else { r with faulted := true }

/-- Activations, bound blocks and barrier groups of a context are gone, and a LAUNCH whose copy waits binds nothing any more (R325 step 4); its RECEIPT
is to end as faulted. -/
def State.dropActs (s : State) (cx : Nat) : State :=
  match s.ctx cx with
  | none => s
  | some x =>
    let s := x.acts.foldl (fun s a => if a.bound then s else s.unbind cx a.chans) s
    let s := x.bounds.foldl (fun s b => s.unbind cx b.chans) s
    let s := s.unhold cx (x.cur.bind fun c => c.block)
    let s := match x.receipt with
      | some r => if r.step ≤ 3 then s.unbind cx r.chans.flatten else s
      | none => s
    let s := s.modCtx cx fun x => { x with
      acts := [], bounds := [], groups := [], spans := [], cur := x.cur.map fun c => { c with block := none }
      holds := if x.receipt.any (fun (r : Receipt) => r.step == 2 || r.step == 5) then [] else x.holds
      receipt := x.receipt.bind fun r => if r.step = 1 then none else some (r.ending x.chain s.tb s.freeDigest) }
    let s := { s with freeCtr := s.freeCtr + 4 }
    x.queues.foldl (fun s q => s.retireAll cx q.1 (q.2.segs.length + 1)) s

/-! ## Step 5 -/

/-- A `COLL` that a fault discards before it has issued ends the instance it was to join, the first that lacks its member index; where no member of
that one has issued yet, it stands without a result for those that will (R199). -/
def State.dropColl (s : State) (cx : Nat) (c : Cmd) : State :=
  match decodeCommand c.w0 c.w1 with
  | some (.coll _ o) =>
    let p := partOf cx
    let g := (s.colls.find? fun g => g.takes p o.group.toNat o.scope.toNat c.core && !g.has o.midx.toNat).getD
      (s.newColl (s.nextOrdOf p o.group.toNat) p o.scope.toNat (placeOf o.scope.toNat c.core) o.group.toNat o.nmem.toNat)
    (s.tellColl g).doom g [o.midx.toNat]
  | _ => s

/-- Messages of a context that are not decided are withdrawn (R176). -/
def State.withdraw (s : State) (cx : Nat) : State :=
  (List.range 4).foldl (fun s d => ((s.die d).msgs.filter fun m => m.cx == cx && m.verdict.isNone).foldl (fun s m => s.freePlace d m) s) s

/-- Unissued commands are discarded (R325 step 5). -/
def State.dropCmds (s : State) (cx : Nat) : State :=
  match s.ctx cx with
  | none => s
  | some x =>
    let gone := x.eqs.flatMap fun e => e.2.cmds.filter Cmd.waits
    let s := gone.foldl (fun s c => s.dropColl cx c) s
    let s := (List.range 524).foldl (fun s p =>
      if (384 ≤ p ∧ p < 452) ∨ 516 ≤ p then s.modPort p fun q => { q with miss := q.miss.filter fun m => m.cx != cx } else s) s
    (s.modCtx cx dropQueued).withdraw cx

/-- The stalls of what a halt discards are over: packets, readiness checks, scrolls and handovers of a context, and the reads of a RECEIPT but for those
of a re-check that is under way (R310, R325). -/
def State.dropStalls (s : State) (cx : Nat) : State :=
  { s with pendR := s.pendR.filter fun m => match m.who with
      | .ring c => c != cx
      | .ready c _ => c != cx
      | .pipe c _ _ => c != cx
      | .engine c _ => c != cx
      | .launch c => c != cx
      | .receipt c => c != cx || (s.ctx cx).any fun x => x.receipt.any fun r => r.step == 4
      | _ => true }

/-- Steps 1 to 5 of R325: the context halts. One that a PART.CTX has halted already goes on to step 6 (R300). -/
def State.halt (s : State) (cx : Nat) (nores : Bool) : State :=
  match s.ctx cx with
  | none => s
  | some x =>
    if x.halt.halted then s.setCtx cx { x with halt := { x.halt with stage := max x.halt.stage 2 } }
    else
      let nact := discarded x
      let s := s.setCtx cx { x with halt := { x.halt with halted := true, nores := nores, stage := 2 } }
      let (s, nrun) := (s.dropPipes cx).dropTasks cx
      let s := ((s.dropActs cx).dropCmds cx).dropStalls cx
      s.modCtx cx fun x => { x with halt := { x.halt with fault := x.halt.fault.map fun f => { f with nact := min nact (2 ^ 20 - 1), nrun := nrun } } }

/-- Every queue of a context at priority 0 (R293 `FAULTACT` 1). -/
def State.lowPriority (s : State) (cx : Nat) : State :=
  s.modCtx cx fun x => { x with queues := x.queues.map fun q => (q.1, { q.2 with prio := 0 }) }

/-! ## Steps 6 and 7 -/

/-- Whether step 5 has ended: no task, no issued command and no message of the context is left. -/
def State.quiet (s : State) (cx : Nat) : Bool :=
  (s.rowsOfCx cx).isEmpty && (match s.ctx cx with
    | some x => x.eqs.all fun e => e.2.cmds.all Cmd.waits
    | none => true)

/-- Whether a packet is a RECEIPT that its batch completes (R325 step 7). -/
def State.inBatch (s : State) (cx seq : Nat) (x : Ctx) : Bool :=
  (x.receipt.any fun r => r.seq == seq) || (s.batch.leaves ++ s.batch.closing).any fun l => l.cx == cx && l.seq == seq

/-- The packets of a ring that have started and not completed: the open ones, and the one F0 works on (R325). -/
def Ctx.openPkts (x : Ctx) : List Pkt :=
  x.pkts ++ ((x.cur.filter fun c => !x.pkts.any fun p => p.seq == c.seq).map fun c =>
    (⟨c.seq, c.hdr.kind, c.hdr.rel, c.hdr.crec || c.hdr.kind == 6, c.hdr.irq, 0, 0⟩ : Pkt)).toList

/-- Step 7: open packets complete with status 3, and the unsolicited record follows. -/
def State.haltEnd (s : State) (cx : Nat) : State :=
  match s.ctx cx with
  | none => s
  | some x =>
    match x.halt.fault with
    | none => s
    | some f =>
      let ps := x.openPkts
      let s := s.setCtx cx { x with pkts := ps, cur := none, halt := { x.halt with stage := 4 } }
      let s := ps.foldl (fun s p => if s.inBatch cx p.seq x then s else s.complete cx p.seq 3 0 0) s
      s.record cx ⟨0, 3, f.cls, 0, false⟩

/-- Whether the fault record's write still waits. -/
def State.faultPending (s : State) (cx : Nat) : Bool := s.pendW.any fun w => w.miss.cx == cx && w.kind == 3

/-- Resumes a context after step 7 (R327): with rewind, packets after `PKTSEQ` are parsed again. -/
def State.resumeNow (s : State) (cx : Nat) : State :=
  s.modCtx cx fun x =>
    match x.halt.resume with
    | some a => if x.halt.stage = 4 ∧ x.halt.nores = false then
        { x with halt := Halt.none, consumed := if a = 2 then BitVec.ofNat 64 ((x.halt.fault.map fun f => f.pktseq).getD 0) else x.consumed } else x
    | none => x

/-- FAULT_RECORD_WRITE: step 6 once step 5 has ended, and step 7 once the record stands or is lost (R325, R326). -/
def execFaultRecordWrite (cx : Nat) (s : State) : Host.Outcome State Fault Refusal :=
  .next <|
    match s.ctx cx with
    | none => s
    | some x =>
      if x.halt.stage = 2 ∧ x.halt.fault.isSome = true ∧ s.quiet cx = true then
        let s := (s.dropCmds cx).modCtx cx fun x => { x with slots := [], halt := { x.halt with stage := 3 } }
        let s := match s.ctx cx with
          | some x => (match x.halt.fault with
            | some f => if x.setup.areaOk then s.devWrite cx 3 x.setup.area (faultBytes x f) else s.devLost cx 3 0 0 0
            | none => s)
          | none => s
        if s.faultPending cx then s else (s.haltEnd cx).resumeNow cx
      else if x.halt.stage = 3 ∧ s.faultPending cx = false then (s.haltEnd cx).resumeNow cx
      else s

/-! ## The halt register (R327) -/

def State.askResume (s : State) (cx a : Nat) : State :=
  (s.modCtx cx fun x => if x.halt.fault.isSome && !x.halt.nores then { x with halt := { x.halt with resume := some a } } else x).resumeNow cx

def execContextResume (cx : Nat) (s : State) : Host.Outcome State Fault Refusal := .next (s.askResume cx 0)
def execResumeWithRewind (cx : Nat) (s : State) : Host.Outcome State Fault Refusal := .next (s.askResume cx 2)

/-- `ACT` 1: a context fault of class host halt. -/
def execHostHalt (cx : Nat) (s : State) : Host.Outcome State Fault Refusal := .next (s.fault cx 13 0 63 15 0 0 [])

/-! ## Machine check (R328) -/

/-- Whether a context has work on a die: a task, a command, a message or a pipeline. -/
def State.worksOn (s : State) (cx die : Nat) : Bool :=
  (s.rowsOfCx cx).any (fun r => r / 96 == die) || (s.die die).msgs.any (fun m => m.cx == cx) || (s.ctx cx).any fun x =>
    x.pipes.any (fun p => p.core / 8 == die) || x.eqs.any fun e => e.2.cmds.any fun c => c.core / 8 == die

/-- Every context with work on the die takes class 14, and the die dispatches nothing until it is reset. -/
def execMachineCheck (die : Nat) (s : State) : Host.Outcome State Fault Refusal :=
  .next <|
    let cs := (s.ctxs.map Prod.fst).filter fun c => s.worksOn c die
    ({ cs.foldl (fun (s : State) c => s.fault c 14 0 63 15 0 0 []) s with events := s.events ++ [64 * 3 + die] } : State).modDie die fun d => { d with stopped := true }

end Sys2Proof.Machine
end

