-- ==== Sys2Proof/Machine/Scalar.lean ====
section
/-! DEFINITION. Scalar integer, floating-point, special-register, branch and charge instructions (R83 to R99). -/

namespace Sys2Proof.Machine

/-! ## Integer register operations (R85, R86) -/

/-- An integer operation on two registers: SetS(d, f(S(a), S(b))). -/
def State.alu2 (s : State) (cost : Nat) (d a b : BitVec 5) (f : Word → Word → Word) : Host.Outcome State Fault Refusal :=
  s.runReg cost fun t => (t.setS d (f (t.S a) (t.S b))).adv

def State.alu1 (s : State) (cost : Nat) (d a : BitVec 5) (f : Word → Word) : Host.Outcome State Fault Refusal :=
  s.runReg cost fun t => (t.setS d (f (t.S a))).adv

/-- 1 where a condition holds, else 0. -/
def flag64 (c : Bool) : Word := if c then 1 else 0

def mulhS (x y : Word) : Word := BitVec.ofInt 64 (x.toInt * y.toInt / 2 ^ 64)
def mulhU (x y : Word) : Word := BitVec.ofNat 64 (x.toNat * y.toNat / 2 ^ 64)
def divS (x y : Word) : Word := if y = 0 then BitVec.allOnes 64 else x.sdiv y
def divU (x y : Word) : Word := if y = 0 then BitVec.allOnes 64 else x.udiv y
def remS (x y : Word) : Word := if y = 0 then x else x.srem y
def remU (x y : Word) : Word := if y = 0 then x else x.umod y
def clzN (b x : Nat) : Nat := b - bitLen x
def popN (b x : Nat) : Nat := ((List.range b).map fun i => x / 2 ^ i % 2).sum

/-- BEXT and BDEP from bit i of the mask on: `k` bits have been moved (R85). -/
def bextFrom (x y : Word) : Nat → Nat → Nat → Nat
  | 0, _, _ => 0
  | n + 1, i, k => if y.getLsbD i then (if x.getLsbD i then 2 ^ k else 0) + bextFrom x y n (i + 1) (k + 1) else bextFrom x y n (i + 1) k

def bdepFrom (x y : Word) : Nat → Nat → Nat → Nat
  | 0, _, _ => 0
  | n + 1, i, k => if y.getLsbD i then (if x.getLsbD k then 2 ^ i else 0) + bdepFrom x y n (i + 1) (k + 1) else bdepFrom x y n (i + 1) k

/-- The width in bits of a size field: byte, half or word. -/
def extW (w : BitVec 3) : Nat := 8 * 2 ^ w.toNat

def sextTo (w : BitVec 3) (x : Word) : Word := (x.setWidth (extW w)).signExtend 64
def zextTo (w : BitVec 3) (x : Word) : Word := (x.setWidth (extW w)).setWidth 64

def execAdd (d a b : BitVec 5) (s : State) := s.alu2 4 d a b fun x y => x + y
def execSub (d a b : BitVec 5) (s : State) := s.alu2 4 d a b fun x y => x - y
def execMul (d a b : BitVec 5) (s : State) := s.alu2 8 d a b fun x y => x * y
def execMulh (d a b : BitVec 5) (s : State) := s.alu2 8 d a b mulhS
def execMulhn (d a b : BitVec 5) (s : State) := s.alu2 8 d a b mulhU
def execDiv (d a b : BitVec 5) (s : State) := s.alu2 24 d a b divS
def execDivn (d a b : BitVec 5) (s : State) := s.alu2 24 d a b divU
def execRem (d a b : BitVec 5) (s : State) := s.alu2 24 d a b remS
def execRemn (d a b : BitVec 5) (s : State) := s.alu2 24 d a b remU
def execAnd (d a b : BitVec 5) (s : State) := s.alu2 4 d a b fun x y => x &&& y
def execOr (d a b : BitVec 5) (s : State) := s.alu2 4 d a b fun x y => x ||| y
def execXor (d a b : BitVec 5) (s : State) := s.alu2 4 d a b fun x y => x ^^^ y
def execAndn (d a b : BitVec 5) (s : State) := s.alu2 4 d a b fun x y => x &&& ~~~y
def execShl (d a b : BitVec 5) (s : State) := s.alu2 4 d a b fun x y => x <<< (y.toNat % 64)
def execShr (d a b : BitVec 5) (s : State) := s.alu2 4 d a b fun x y => x >>> (y.toNat % 64)
def execSar (d a b : BitVec 5) (s : State) := s.alu2 4 d a b fun x y => x.sshiftRight (y.toNat % 64)
def execMin (d a b : BitVec 5) (s : State) := s.alu2 4 d a b fun x y => if x.slt y then x else y
def execMax (d a b : BitVec 5) (s : State) := s.alu2 4 d a b fun x y => if x.slt y then y else x
def execMinn (d a b : BitVec 5) (s : State) := s.alu2 4 d a b fun x y => if x.ult y then x else y
def execMaxn (d a b : BitVec 5) (s : State) := s.alu2 4 d a b fun x y => if x.ult y then y else x
def execSlt (d a b : BitVec 5) (s : State) := s.alu2 4 d a b fun x y => flag64 (x.slt y)
def execSltn (d a b : BitVec 5) (s : State) := s.alu2 4 d a b fun x y => flag64 (x.ult y)
def execSeq (d a b : BitVec 5) (s : State) := s.alu2 4 d a b fun x y => flag64 (x == y)
def execClz (d a : BitVec 5) (s : State) := s.alu1 4 d a fun x => BitVec.ofNat 64 (clzN 64 x.toNat)
def execPopc (d a : BitVec 5) (s : State) := s.alu1 4 d a fun x => BitVec.ofNat 64 (popN 64 x.toNat)
def execBext (d a b : BitVec 5) (s : State) := s.alu2 4 d a b fun x y => BitVec.ofNat 64 (bextFrom x y 64 0 0)
def execBdep (d a b : BitVec 5) (s : State) := s.alu2 4 d a b fun x y => BitVec.ofNat 64 (bdepFrom x y 64 0 0)
def execSext (d a : BitVec 5) (w : BitVec 3) (s : State) := s.alu1 4 d a (sextTo w)
def execZext (d a : BitVec 5) (w : BitVec 3) (s : State) := s.alu1 4 d a (zextTo w)

/-! ## Immediate forms (R87) -/

def execAddi (d a : BitVec 5) (i : BitVec 16) (s : State) := s.alu1 4 d a fun x => x + sext64 i
def execAndi (d a : BitVec 5) (i : BitVec 16) (s : State) := s.alu1 4 d a fun x => x &&& zext64 i
def execOri (d a : BitVec 5) (i : BitVec 16) (s : State) := s.alu1 4 d a fun x => x ||| zext64 i
def execXori (d a : BitVec 5) (i : BitVec 16) (s : State) := s.alu1 4 d a fun x => x ^^^ zext64 i
def execShli (d a : BitVec 5) (n : BitVec 6) (s : State) := s.alu1 4 d a fun x => x <<< n.toNat
def execShri (d a : BitVec 5) (n : BitVec 6) (s : State) := s.alu1 4 d a fun x => x >>> n.toNat
def execSari (d a : BitVec 5) (n : BitVec 6) (s : State) := s.alu1 4 d a fun x => x.sshiftRight n.toNat
def execLui (d : BitVec 5) (i : BitVec 16) (s : State) := s.runReg 4 fun t => (t.setS d ((i ++ (0 : BitVec 16)).signExtend 64)).adv
def execSlti (d a : BitVec 5) (i : BitVec 16) (s : State) := s.alu1 4 d a fun x => flag64 (x.slt (sext64 i))

/-! ## Scalar floating point (R83, R88 to R92) -/

/-- The operand of a type: its low bits (R83). -/
def Task.F (t : Task) (n : BitVec 5) (f : Fm) : Nat := (t.S n).toNat % 2 ^ f.width

/-- A floating-point result, zero-extended, with its flags (R83, R84). -/
def Task.setF (t : Task) (d : BitVec 5) (r : Nat × Fl) : Task := ((t.raise r.2).setS d (BitVec.ofNat 64 r.1)).adv

def State.fop2 (s : State) (cost : Nat) (d a b : BitVec 5) (w : BitVec 3) (f : Fm → Nat → Nat → Nat × Fl) : Host.Outcome State Fault Refusal :=
  s.runReg cost fun t => let m := fmOf w.toNat; t.setF d (f m (t.F a m) (t.F b m))

def State.fop1 (s : State) (cost : Nat) (d a : BitVec 5) (w : BitVec 3) (f : Fm → Nat → Nat × Fl) : Host.Outcome State Fault Refusal :=
  s.runReg cost fun t => let m := fmOf w.toNat; t.setF d (f m (t.F a m))

/-- A comparison's 1 or 0 with its flags. -/
def cmpBit (r : Bool × Fl) : Nat × Fl := (if r.1 then 1 else 0, r.2)

def execFadd (d a b : BitVec 5) (m w : BitVec 3) (s : State) := s.fop2 8 d a b w fun f => fAdd f (.mode m.toNat)
def execFsub (d a b : BitVec 5) (m w : BitVec 3) (s : State) := s.fop2 8 d a b w fun f => fSub f (.mode m.toNat)
def execFmul (d a b : BitVec 5) (m w : BitVec 3) (s : State) := s.fop2 8 d a b w fun f => fMul f (.mode m.toNat)
def execFdiv (d a b : BitVec 5) (m w : BitVec 3) (s : State) := s.fop2 24 d a b w fun f => fDiv f (.mode m.toNat)
def execFsqrt (d a : BitVec 5) (m w : BitVec 3) (s : State) := s.fop1 24 d a w fun f => fSqrt f (.mode m.toNat)
def execFrsq (d a : BitVec 5) (m w : BitVec 3) (s : State) := s.fop1 24 d a w fun f => fRsq f (.mode m.toNat)
def execFmin (d a b : BitVec 5) (w : BitVec 3) (s : State) := s.fop2 8 d a b w fun f => fMinMax f false
def execFmax (d a b : BitVec 5) (w : BitVec 3) (s : State) := s.fop2 8 d a b w fun f => fMinMax f true
def execFcmpEq (d a b : BitVec 5) (w : BitVec 3) (s : State) := s.fop2 8 d a b w fun f x y => cmpBit (fCmp f 0 x y)
def execFcmpLt (d a b : BitVec 5) (w : BitVec 3) (s : State) := s.fop2 8 d a b w fun f x y => cmpBit (fCmp f 1 x y)
def execFcmpLe (d a b : BitVec 5) (w : BitVec 3) (s : State) := s.fop2 8 d a b w fun f x y => cmpBit (fCmp f 2 x y)
def execFcmpUn (d a b : BitVec 5) (w : BitVec 3) (s : State) := s.fop2 8 d a b w fun f x y => cmpBit (fCmp f 3 x y)
def execFclass (d a : BitVec 5) (w : BitVec 3) (s : State) := s.fop1 8 d a w fun f x => (2 ^ fClass f x, 0)

/-- An integer as a 64-bit pattern. -/
def bitsOfInt (n : Nat) (v : Int) : Nat := (v % 2 ^ n).toNat

/-- FCVT by its conversion code (R91). -/
def fcvt (c w : Nat) (rm : Rm) (x : Word) : Nat × Fl :=
  let f := fmOf w
  if c ≤ 2 then fConv (fmOf c) f rm (x.toNat % 2 ^ (fmOf c).width)
  else if c = 3 then intToF f rm x.toInt
  else if c = 4 then intToF f rm x.toNat
  else
    let lo : Int := if c = 5 then -2 ^ 63 else 0
    let hi : Int := if c = 5 then 2 ^ 63 - 1 else 2 ^ 64 - 1
    let r := fToInt f rm lo hi (x.toNat % 2 ^ f.width)
    (bitsOfInt 64 r.1, r.2)

def execFcvt (d a c : BitVec 5) (m w : BitVec 3) (s : State) : Host.Outcome State Fault Refusal :=
  s.runReg 8 fun t => t.setF d (fcvt c.toNat w.toNat (.mode m.toNat) (t.S a))

def execFma (d a b : BitVec 5) (m w : BitVec 3) (s : State) : Host.Outcome State Fault Refusal :=
  s.runReg 10 fun t => let f := fmOf w.toNat; t.setF d (fFma f (.mode m.toNat) (t.F a f) (t.F b f) (t.F d f))

/-! ## Special registers (R18, R93) -/

/-- The special registers in the order of R18. -/
def special (s : State) (t : Task) (n : Nat) : Word :=
  match n with
  | 0 => t.tid
  | 1 => t.gid
  | 2 => BitVec.ofNat 64 t.core
  | 3 => BitVec.ofNat 64 (t.core / 8)
  | 4 => t.seed
  | 5 => t.srctr
  | 6 => BitVec.ofNat 64 t.meter
  | 7 => BitVec.ofNat 64 t.budget
  | 8 => t.fmt
  | 9 => t.flags
  | _ => BitVec.ofNat 64 s.tb

/-- A write of a special register: its defined fields (R84, R93, R115). -/
def Task.setSpecial (t : Task) (n : Nat) (x : Word) : Task :=
  match n with
  | 4 => { t with seed := x }
  | 5 => { t with srctr := x }
  | 8 => { t with fmt := x &&& 0x77 }
  | 9 => { t with flags := x &&& 0x1F }
  | _ => t

def execMfs (d n : BitVec 5) (s : State) : Host.Outcome State Fault Refusal :=
  s.runTask (fun _ => 4) fun s t => .done s (t.setS d (special s t n.toNat)).adv

def execMts (a n : BitVec 5) (s : State) : Host.Outcome State Fault Refusal :=
  s.runReg 4 fun t => (t.setSpecial n.toNat (t.S a)).adv

/-! ## Branches and jumps (R96, R97) -/

def State.branch (s : State) (d : BitVec 16) (c : Task → Bool) : Host.Outcome State Fault Refusal :=
  s.runReg 4 fun t => if c t then t.jump d else t.adv

def execBeq (a b : BitVec 5) (d : BitVec 16) (s : State) := s.branch d fun t => t.S a == t.S b
def execBne (a b : BitVec 5) (d : BitVec 16) (s : State) := s.branch d fun t => t.S a != t.S b
def execBlt (a b : BitVec 5) (d : BitVec 16) (s : State) := s.branch d fun t => (t.S a).slt (t.S b)
def execBge (a b : BitVec 5) (d : BitVec 16) (s : State) := s.branch d fun t => !(t.S a).slt (t.S b)
def execBltn (a b : BitVec 5) (d : BitVec 16) (s : State) := s.branch d fun t => (t.S a).ult (t.S b)
def execBgen (a b : BitVec 5) (d : BitVec 16) (s : State) := s.branch d fun t => !(t.S a).ult (t.S b)

def execBdnz (a : BitVec 5) (d : BitVec 16) (s : State) : Host.Outcome State Fault Refusal :=
  s.runReg 4 fun t => let t' := t.setS a (t.S a - 1); if t'.S a = 0 then t'.adv else t'.jump d

def execJal (d : BitVec 26) (s : State) : Host.Outcome State Fault Refusal :=
  s.runReg 4 fun t => (t.setS 31 (t.pc + 4)).jump d

def execJalr (d a : BitVec 5) (i : BitVec 16) (s : State) : Host.Outcome State Fault Refusal :=
  s.runTask (fun _ => 4) fun s t =>
    let target := t.S a + sext64 i
    if target.toNat % 4 ≠ 0 then .stop .misaligned else .done s { t.setS d (t.pc + 4) with pc := target }

/-! ## Charge requests (R68, R98, R99) -/

def execCharge (d a : BitVec 5) (n : BitVec 12) (s : State) : Host.Outcome State Fault Refusal :=
  s.runTask (fun _ => 8) fun s t =>
    let req := (t.S a + zext64 n).toNat
    let cap := 4096 - t.budget / 64
    match t.dark with
    | some _ => .done s (t.setS d (BitVec.ofNat 64 (min req cap))).adv
    | none =>
      let p := partOf t.cx
      let grant := min (min req (s.part p).plevel) cap
      let s := (s.modPart p fun x => { x with plevel := x.plevel - grant }).tally t.cx t.receipt grant 0
      .done s ({ t with budget := t.budget + 64 * grant }.setS d (BitVec.ofNat 64 grant)).adv

/-- What MCS reads (R36, R99): the remaining charge modulo 2^64, since a dark run's meter passes its budget; the estimate of measured mode is a free
value (log 3). -/
def mcsValue (s : State) (t : Task) (k : Nat) : Nat :=
  if k = 0 then (s.part (partOf t.cx)).plevel
  else if k = 1 then t.budget / 64
  else if t.measured then Config.freeNat s.freeCtr
  else (t.budget + 2 ^ 64 - t.meter) % 2 ^ 64

def execMcs (d : BitVec 5) (k : BitVec 12) (s : State) : Host.Outcome State Fault Refusal :=
  s.runTask (fun _ => 4) fun s t =>
    .done (if k = 2 ∧ t.measured = true then { s with freeCtr := s.freeCtr + 1 } else s) (t.setS d (BitVec.ofNat 64 (mcsValue s t k.toNat))).adv

end Sys2Proof.Machine
end

