-- ==== Sys2Proof/Machine/Forecast.lean ====
section
/-! DEFINITION. Readiness (R51, R54), spanning launches (R286 to R288), Forecast decisions (R272 to R275, R290 to R297) and operations (R270, R289). -/

namespace Sys2Proof.Machine

/-! ## Readiness (R51, R53, R54) -/

/-- The cores on which an activation's readiness is checked (R58, R59). -/
def State.checkCores (s : State) (cx : Nat) (w : Nat) : List Nat :=
  (placeCores w).filter fun n => (s.core n).part == some (partOf cx)

/-- ACTIVATION_READY: an activation whose wait, inputs and outputs hold is stamped (R51, R290). An invalid header is a format fault (R49), also
where the check is one of those that go on after the stamp (R59). The headers are looked at only once the wait condition has held (log 32). -/
def execActivationReady (cx act : Nat) (s : State) : Host.Outcome State Fault Refusal :=
  .next <|
    match s.ctx cx with
    | none => s
    | some x =>
      match x.acts.find? fun a => a.id == act with
      | none => s
      | some a =>
        let w := actImage s.mem x a
        if x.halt.halted then s
        else if let some g := s.entryPoison a then s.fault cx 12 0 63 15 g 0 []
        else if !a.wok then s.findWait cx a w
        else
          let rs := (s.checkCores cx w).map fun n => readyOn s.mem a n
          if let some (cls, det, off) := s.chanBad cx a (s.checkCores cx w) then s.fault cx cls det 63 15 off 0 []
          else if rs.contains none then s.fault cx 4 0 63 15 0 0 []
          else if a.ready.isNone && (s.checkCores cx w).any (fun n => readyOn s.mem a n == some true && !s.unreleased a n) then
            (s.modCtx cx fun x => { x with acts := x.acts.map fun b => if b.id = act then { b with ready := some s.tb } else b }).undefer (partOf cx) none
          else s

/-- Whether every input of an activation, as resolved for a core, has an isobar at its head and every output a free slot; none where a header is
invalid (R54, R59). -/
def isobarWaits (m : List Host.Cell) (a : Act) (core : Nat) : Option Bool :=
  a.chans.foldl (fun acc c =>
    acc.bind fun b => (chanHdr m c.quad (c.key core)).map fun h =>
      b && (if c.out then decide (h.free ≠ 0) else decide (h.filled ≠ 0) && tagAt m (c.key core) h.logn h.rcnt == 3))
    (some (a.chans.any fun c => !c.out))

/-- The cores for which a round is looked for: any stands for a block whose entries are all bound, else each admissible one (R59, log 32). -/
def State.isobarCores (s : State) (cx : Nat) (x : Ctx) (a : Act) : List Nat :=
  if a.chans.all (fun c => c.hkey.isSome) then [0] else (s.checkCores cx (actImage s.mem x a)).filter fun n => s.unboundOn a n

/-- An isobar slot written to an output (R54): its tag; the bytes of the slot stay as they are (log 32). -/
def State.passIsobar (s : State) (quad : Bool) (k : Nat) : State :=
  match chanHdr s.mem quad k with
  | some h => (s.setTag k h.logn h.wcnt 3).advance k true 1
  | none => s

/-- ISOBAR_ROUND: the input counts, then each output's slot and count (R54, R231, R258, R328). DESIGN CHOICE (R54): of a gang each member's inputs and
outputs are a round of their own (log 32). -/
def execIsobarRound (cx act : Nat) (s : State) : Host.Outcome State Fault Refusal :=
  .next <|
    match s.ctx cx with
    | none => s
    | some x =>
      match x.acts.find? fun a => a.id == act with
      | none => s
      | some a =>
        let cs := s.isobarCores cx x a
        if let some (cls, det, off) := s.chanBad cx a cs then s.fault cx cls det 63 15 off 0 []
        else if cs.any fun n => (isobarWaits s.mem a n).isNone then s.fault cx 4 0 63 15 0 0 []
        else match cs.find? fun n => isobarWaits s.mem a n == some true with
          | none => s
          | some n =>
            let s := (a.chans.filter fun c => !c.out).foldl (fun s c => s.advance (c.key n) false 1) s
            (a.chans.filter fun c => c.out).foldl (fun s c => s.passIsobar c.quad (c.key n)) s

/-! ## Spanning launches (R287, R288) -/

def Ctx.span (x : Ctx) (a : Act) : Option Span := x.spans.find? fun p => p.act == a.id

/-- The undispatched indices of a die: the first and the end. -/
def Span.range (p : Span) (die : Nat) : Nat × Nat := ((p.ranges.find? fun r => r.1 == die).map Prod.snd).getD (0, 0)

def Span.setRange (p : Span) (die a b : Nat) : Span :=
  if p.ranges.any fun r => r.1 == die then { p with ranges := p.ranges.map fun r => if r.1 = die then (die, a, b) else r }
  else { p with ranges := p.ranges ++ [(die, a, b)] }

/-- The victim of a steal: the die with the most undispatched indices, at least two, ties to the lowest. -/
def Span.victim (p : Span) : Option (Nat × Nat × Nat) :=
  ((List.range 4).map fun d => (d, p.range d)).foldl (fun (b : Option (Nat × Nat × Nat)) r =>
    if r.2.2 - r.2.1 < 2 then b
    else match b with
      | some v => if v.2.2 - v.2.1 < r.2.2 - r.2.1 then some r else b
      | none => some r) none

/-- The index that a dispatch on a die takes, whether it is a steal, and the launch after it. -/
def Span.offer (p : Span) (die : Nat) : Option (Nat × Bool × Span) :=
  let (a, b) := p.range die
  if a < b then some (a, false, p.setRange die (a + 1) b)
  else match p.victim with
    | none => none
    | some (v, a, b) =>
      let n := (b - a) / 2
      some (b - n, true, (p.setRange v a (b - n)).setRange die (b - n + 1) b)

/-- The index an activation runs with on a die: 0 for one that does not span; none where the die has nothing to run. -/
def Ctx.offer (x : Ctx) (a : Act) (die : Nat) : Option (Nat × Bool) :=
  match x.span a with
  | none => some (0, false)
  | some p => (p.offer die).map fun o => (o.1, o.2.1)

/-! ## Candidates (R272, R290, R293) -/

/-- The activation of a queue that was stamped ready first, among those of which something holds; ties go to enqueue order (R290). -/
def Ctx.oldest (x : Ctx) (qsel : Nat) (ok : Act → Bool) : Option Act :=
  (x.acts.foldl (fun (b : Option (Act × Nat)) a =>
    match a.ready with
    | some r => if a.qsel = qsel ∧ ok a = true then (match b with
        | some (_, u) => if r < u then some (a, r) else b
        | none => some (a, r)) else b
    | none => b) none).map Prod.fst

/-- Whether the pool can fund an activation (R51). -/
def State.funds (s : State) (cx : Nat) (a : Act) : Bool := decide (a.npkt ≤ (s.part (partOf cx)).plevel)

/-- Whether an activation may be dispatched on a core by its die (R58, R288). -/
def State.placeable (s : State) (cx : Nat) (x : Ctx) (core : Nat) (a : Act) : Bool := s.admissible cx x a core && (x.offer a (core / 8)).isSome

/-- The queues of a partition in ascending order of number, with their contexts (R271). -/
def State.queuesOf (s : State) (p : Nat) : List (Nat × Ctx × Nat × QEnt) :=
  (List.range 32).flatMap fun c =>
    match s.ctx (32 * p + c) with
    | none => []
    | some x => (List.range 8).filterMap fun q => (findT x.queues q).map fun e => (32 * p + c, x, q, e)

/-- The queue fields of R290. -/
def State.queueFields (s : State) (cx : Nat) (x : Ctx) (qsel : Nat) (e : QEnt) (core : Nat) (a : Act) : List Nat :=
  let w := actImage s.mem x a
  let count := ((x.acts.filter fun b => b.qsel == qsel && b.ready.isSome).map fun b => match x.span b with
    | some p => p.left
    | none => 1).sum
  [8 * (cx % 32) + qsel, cx % 32, e.prio, if e.urgent then 1 else 0, sat32 ((s.tb - a.ready.getD 0) / 2 ^ 10), a.npkt, sat32 count,
    ((rowsOf core).filter fun r => (s.task r).any fun t => t.cx == cx).length, if (x.offer a (core / 8)).any (fun o => o.2) then 1 else 0,
    x.setup.vf, lbGsz w, lbLvl w]

/-- The snapshot of the candidate queues (R272, R293): in kind 0 by the activations placeable on the core and funded, else every queue that holds
a ready activation. -/
def State.snapshot (s : State) (p kind core : Nat) : List QSnap :=
  (s.queuesOf p).filterMap fun (cx, x, q, e) =>
    if kind = 0 ∧ s.dispatches cx = false then none
    else match x.oldest q (fun a => kind != 0 || s.placeable cx x core a) with
      | none => none
      | some a => if kind = 0 ∧ s.funds cx a = false then none
        else some ⟨8 * (cx % 32) + q, s.queueFields cx x q e core a, a.ready.getD 0⟩

/-- The urgent activations that are ready and funded, in the order of their stamps (R272). -/
def State.urgents (s : State) (p : Nat) : List (Nat × Ctx × Act) :=
  let us := (s.queuesOf p).flatMap fun (cx, x, q, e) =>
    if e.urgent && s.dispatches cx then (x.acts.filter fun a => a.qsel == q && a.ready.isSome && s.funds cx a).map fun a => (cx, x, a) else []
  us.mergeSort fun a b => decide (a.2.2.ready.getD 0 ≤ b.2.2.ready.getD 0)

/-- Free standby rows of a core (R274). -/
def State.freeStandby (s : State) (core : Nat) : List Nat := [core * 12 + 10, core * 12 + 11].filter fun r => (s.task r).isNone

/-- The core of a kind-1 decision for an urgent activation, if one is to be raised (R272). -/
def State.urgentCore (s : State) (p cx : Nat) (x : Ctx) (a : Act) : Option Nat :=
  let cs := (s.coresOf p).filter fun n => s.placeable cx x n a
  if cs.any fun n => !(s.freeGeneral n).isEmpty then none else cs.find? fun n => !(s.freeStandby n).isEmpty

/-! ## Raising a decision (R272, R294, R296) -/

/-- A pending decision: kind, core, row, and the context it concerns. -/
abbrev Raise := Nat × Nat × Nat × Nat × Nat

/-- Whether a decision was deferred and has not been raised again (R294). -/
def Fcast.holds (f : Fcast) (kind core row : Nat) : Bool := f.deferred.any fun d => d.1 == kind && d.2.1 == core && d.2.2.1 == row

/-- The decision to take next on a die: kind 2, then kind 1, then kind 0 by core and row (R296). DESIGN CHOICE (R272): where the fault of a kind-2
decision names no core, the decision core is the lowest of the partition's on the die, or the die's first where it holds none (log 32). -/
def State.nextRaise (s : State) (die p : Nat) : Option Raise :=
  let f := s.fcast (16 * die + p)
  match f.faults with
  | cx :: _ =>
    let n := (((s.ctx cx).bind fun x => x.halt.fault).map fun r => r.core).getD 63
    let core := if n < 32 then n else (((s.coresOf p).find? fun n => n / 8 == die).getD (8 * die))
    some (2, core, 0, cx, 0)
  | [] =>
    let k1 := (s.urgents p).findSome? fun (cx, x, a) =>
      match s.urgentCore p cx x a with
      | some n =>
        let row := ((s.freeStandby n).headD 0) % 12
        if n / 8 = die ∧ f.holds 1 n row = false then some ((1, n, row, cx, a.qsel) : Raise) else none
      | none => none
    match k1 with
    | some r => some r
    | none => ((s.coresOf p).filter fun n => n / 8 == die).findSome? fun n =>
        match (s.freeGeneral n).find? fun r => !f.holds 0 n (r % 12) with
        | some r => if (s.snapshot p 0 n).isEmpty then none else some (0, n, r % 12, 0, 0)
        | none => none

/-- The partition fields of R291. -/
def State.partFields (s : State) (die p core seq : Nat) : List Nat :=
  let x := s.part p
  let cs := (s.coresOf p).filter fun n => n / 8 == die
  [sat32 x.plevel, x.pcap, x.prate, sat32 (s.fcast (16 * die + p)).overruns, (s.freeGeneral core).length, (cs.map fun n => (s.freeGeneral n).length).sum,
    seq % 2 ^ 32, p, (s.ctxsOf p).length]

/-- The urgent activation of a decision core (R293): the oldest ready, funded one of the partition's urgent queues that is admissible there. -/
def State.urgentOn (s : State) (p core : Nat) : Option (Nat × Ctx × Act) := (s.urgents p).find? fun (cx, x, a) => s.placeable cx x core a

/-- The decision fields of R292. -/
def State.decFields (s : State) (die p : Nat) (r : Raise) : List Nat :=
  let f := s.fcast (16 * die + p)
  let (kind, core, row, cx, _) := r
  let urgent := if kind = 1 then s.urgentOn p core else none
  [kind, core, row, s.tb % 2 ^ 32, (match f.prev with | some t => sat32 ((s.tb - t) / 2 ^ 20) | none => 0), (urgent.map fun u => u.1 % 32).getD 0,
    (urgent.map fun u => 8 * (u.1 % 32) + u.2.2.qsel).getD 0, if kind = 2 then (((s.ctx cx).bind fun x => x.halt.fault).map fun f => f.cls).getD 0 else 0,
    if kind = 2 then cx % 32 else 0, f.defers]

/-- The decision as it starts (R272). -/
def State.begin_ (s : State) (die p : Nat) (r : Raise) (img : Image) : Decision :=
  let (kind, core, row, _, _) := r
  ⟨kind, core, row, ((Vector.replicate 8 0).set 0 (BitVec.ofNat 32 kind)).set 1 (BitVec.ofNat 32 core), none, 0, 0, none, [], s.snapshot p kind core,
    s.partFields die p core ((s.fcast (16 * die + p)).dseq + 1), s.decFields die p r, img, s.tb, (s.fcast (16 * die + p)).scratch, false⟩

/-! ## Carrying an answer out (R274, R293, R296) -/

/-- The policy of a dispatch as a receipt records it (R313). -/
def State.policyUsed (s : State) (cx : Nat) (tag : Bool) (pol : Option (BitVec 256)) : State :=
  if tag then s.modCtx cx fun x => { x with receipt := x.receipt.map fun r => match r.hpol with
      | none => { r with hpol := some pol }
      | some q => { r with polmix := r.polmix || q != pol } } else s

/-- An activation dispatched on a free row; where it stands there, its policy is recorded (R313). -/
def State.send (s : State) (cx : Nat) (a : Act) (row : Nat) (idx : Option Nat) (take : Bool) (pol : Option (BitVec 256)) : State :=
  let t := s.dispatch cx a row idx take
  if (t.task row).isSome then t.policyUsed cx a.receipt pol else t

/-- An activation goes to a row, with its index where its launch spans (R66, R287, R288). -/
def State.sendTo (s : State) (cx : Nat) (x : Ctx) (a : Act) (row : Nat) (pol : Option (BitVec 256)) : State :=
  match x.span a with
  | none => s.send cx a row none true pol
  | some p =>
    match p.offer (row / 96) with
    | none => s
    | some (i, _, p) =>
      let done := p.left == 0
      let s := s.modCtx cx fun x => { x with spans := if done then x.spans.filter fun o => o.act != a.id else x.spans.map fun o => if o.act = a.id then p else o }
      s.send cx a row (some i) done pol

/-- `DISP` of a queue on the decision's row (R296). -/
def State.doDisp (s : State) (p : Nat) (d : Decision) (q : Nat) (pol : Option (BitVec 256)) : State :=
  let cx := 32 * p + q / 8
  let row := d.core * 12 + d.row
  match s.ctx cx with
  | none => s
  | some x =>
    if !(s.freeGeneral d.core).contains row || !s.dispatches cx then s
    else match x.oldest (q % 8) (s.placeable cx x d.core) with
      | none => s
      | some a => if s.funds cx a then s.sendTo cx x a row pol else s

/-- Freezes the general rows of a core that run tasks of a context (R274, R322). -/
def State.freezeRows (s : State) (core cx : Nat) : State :=
  ((List.range 10).map fun i => core * 12 + i).foldl (fun s r => match s.task r with
    | some t => if t.cx = cx ∧ t.commit.isNone = true then s.setTask r (some { t with froPre := true }) else s
    | none => s) s

/-- `PREEMPT` (R274, R293, R296). -/
def State.doPreempt (s : State) (p : Nat) (d : Decision) (victim : Nat) (pol : Option (BitVec 256)) : State :=
  match s.freeStandby d.core, s.urgentOn p d.core with
  | row :: _, some (cx, x, a) =>
    let s := if victim < 32 ∧ 32 * p + victim ≠ cx then s.freezeRows d.core (32 * p + victim) else s
    s.sendTo cx x a row pol
  | _, _ => s

/-- `FAULTACT` (R293). -/
def State.doFault (s : State) (p : Nat) (d : Decision) (act : Nat) : State :=
  let cx := 32 * p + d.efields.getD 8 0
  let s := if act = 1 then s.lowPriority cx else s
  s.halt cx (act == 2)

def State.carryOut (s : State) (p : Nat) (d : Decision) (ans : Answer) (pol : Option (BitVec 256)) : State :=
  match ans with
  | .disp (some q) => s.doDisp p d q pol
  | .preempt v => s.doPreempt p d v pol
  | .faultact a => s.doFault p d a
  | _ => s

/-! ## Policy swaps (R275, R284, R305) -/

/-- Whether a decision of a partition that began before its swap still runs on any die. -/
def State.deciding (s : State) (p : Nat) : Bool := s.fcasts.any fun e => e.1 % 16 == p && e.2.run.any fun d => d.before

/-- An error in a Forecast image, the running one or the staged one, is reported to F5 and to context 0 of the partition (R305). -/
def State.partFault (s : State) (p code : Nat) : State :=
  { s with events := s.events ++ [64 * 5 + p] }.record (32 * p) ⟨0, 7, code, 0, false⟩

/-- A swap waits for the decisions of its partition that run now, on whichever die (R275). -/
def State.swapNow (s : State) (p cx seq : Nat) : State :=
  let s := s.modPart p fun x => { x with swap := some (cx, seq) }
  { s with fcasts := s.fcasts.map fun e => if e.1 % 16 = p then (e.1, { e.2 with run := e.2.run.map fun d => { d with before := true } }) else e }

/-- The swap takes effect once none of those runs: the staged image becomes the running one on every die, a decision that has begun in the meantime
finishes under its own image, and every later one runs the new (R275, log 25). An error found in the staged image leaves the running one (R305). -/
def State.trySwap (s : State) (p : Nat) : State :=
  let x := s.part p
  match x.swap with
  | none => s
  | some (cx, seq) =>
    if s.deciding p then s
    else if x.badStaged then ((s.setPart p { x with swap := none, staged := none, badStaged := false }).complete cx seq 7 1 0).partFault p 1
    else (s.setPart p { x with swap := none, image := x.staged, staged := none, badImage := false }).complete cx seq 0 0 0

/-! ## Ending a decision (R273, R294, R295) -/

/-- The fallback's answer (R295). -/
def State.fallback (s : State) (p : Nat) (d : Decision) : Answer :=
  if d.kind = 0 then
    .disp ((d.snap.foldl (fun (b : Option QSnap) q => match b with
      | some r => if r.fields.getD 2 0 < q.fields.getD 2 0 ∨ (r.fields.getD 2 0 = q.fields.getD 2 0 ∧ q.stamp < r.stamp) then some q else b
      | none => some q) none).map fun q => q.q)
  else if d.kind = 1 then
    let own := d.efields.getD 5 0
    let runs := fun c => (((List.range 10).map fun i => d.core * 12 + i).filter fun r => (s.task r).any fun t => t.cx == 32 * p + c).length
    .preempt (((List.range 32).foldl (fun (b : Option Nat) c =>
      if c = own ∨ runs c = 0 then b
      else match b with
        | some v => if runs v < runs c then some c else b
        | none => some c) none).getD own)
  else .faultact 0

/-- A decision is over: its record, its effect on the counts, its answer carried out, and a swap that waited (R273, R275, R294). -/
def State.decided (s : State) (die p : Nat) (d : Decision) (ans : Answer) (byFallback overran : Bool) : State :=
  let k := 16 * die + p
  let ran := d.image.words.length != 0
  let s := s.modFcast k fun f =>
    { f with
      run := none
      record := some ⟨f.dseq, d.kind, ans, byFallback, if ran then d.image.hash else 0⟩
      overruns := f.overruns + (if overran then 1 else 0)
      scratch := if byFallback then f.scratch else
        (List.finRange 16).foldl (fun v (i : Fin 16) => match findT d.sto i.val with | some x => v.set i.val x | none => v) f.scratch
      defers := if 2 ≤ d.kind then f.defers else if ans = .defer then f.defers + 1 else 0
      deferred := if ans = .defer ∧ d.kind < 2 then f.deferred ++ [(d.kind, d.core, d.row, s.tb)] else f.deferred }
  let who := match ans with
    | .disp (some q) => 32 * p + q / 8
    | .preempt _ => 32 * p + d.efields.getD 5 0
    | _ => 32 * p + d.efields.getD 8 0
  let s := if byFallback then s.countDie die 5 1 (s.vfOf who) else s
  (s.carryOut p d ans (if byFallback then none else some d.image.hash)).trySwap p

/-- The fallback takes the running decision (R273). -/
def State.overrun (s : State) (die p : Nat) (d : Decision) : State := s.decided die p d (s.fallback p d) true true

/-- Whether an answer belongs to a kind (R273, R293). -/
def belongs (kind : Nat) (a : Answer) : Bool :=
  match a with
  | .disp (some _) => kind == 0
  | .disp none => false
  | .preempt _ => kind == 1
  | .faultact n => kind == 2 && decide (n ≤ 2)
  | .defer => decide (kind < 2)

/-- DECISION: the die's unit raises the next decision of a partition and starts it, or lets the fallback take it (R284, R294, R305). -/
def execDecision (die part : Nat) (s : State) : Host.Outcome State Fault Refusal :=
  .next <|
    let k := 16 * die + part
    let f := s.fcast k
    if f.run.isSome then s
    else match s.nextRaise die part with
      | none => s
      | some r =>
        let x := s.part part
        let forced := decide (r.1 < 2) && f.defers == 64
        let img := match x.image with
          | some i => if x.badImage || forced then (⟨[], 0⟩ : Image) else i
          | none => ⟨[], 0⟩
        let d := s.begin_ die part r img
        let s := s.modFcast k fun f => { f with dseq := f.dseq + 1, prev := some s.tb, faults := if r.1 = 2 then f.faults.drop 1 else f.faults,
                                                run := some d }
        if img.words.isEmpty then s.decided die part d (s.fallback part d) true false else s

/-- Whether the running decision has to end as an overrun: a 129th operation, or a word that is none (R269, R273). -/
def Decision.overDue (d : Decision) : Bool :=
  decide (128 ≤ d.ops) || (match d.image.words[d.pc]? with
    | some w => (decodeForecast w.toNat).isNone
    | none => true)

/-- OVERRUN: the fallback takes the decision. -/
def execOverrun (die part : Nat) (s : State) : Host.Outcome State Fault Refusal :=
  .next <|
    match (s.fcast (16 * die + part)).run with
    | some d => if d.overDue then s.overrun die part d else s
    | none => s

/-- DEFER_INTERVAL: deferred decisions are raised again once `DINT` has passed (R294). -/
def execDeferInterval (die part : Nat) (s : State) : Host.Outcome State Fault Refusal :=
  .next (s.modFcast (16 * die + part) fun f => { f with deferred := f.deferred.filter fun d => decide (s.tb < d.2.2.2 + (s.part part).dint) })

/-- Whether a slice of another VF runs, or none does while there are slices (R304, R329). -/
def State.awaySlice (s : State) (cx : Nat) : Bool :=
  let p := s.part (partOf cx)
  p.slen != 0 && p.slice.all fun e => e.1 != s.vfOf cx

/-- Whether tasks of a context may run on a core again: not in a debug stop (R356), while a drain has descheduled it from there (R247), or outside its
VF's slices (R329). -/
def State.mayWake (s : State) (cx core : Nat) : Bool :=
  ((s.ctx cx).all fun x => x.dbg.state == 0) && !s.offCore cx core && !s.awaySlice cx

/-- LULL_RESUME: rows frozen by `PREEMPT` resume once no standby row of the core runs a task (R274) and their contexts may run there. -/
def execLullResume (core : Nat) (s : State) : Host.Outcome State Fault Refusal :=
  .next <|
    if (s.freeStandby core).length < 2 then s
    else (rowsOf core).foldl (fun u r => match u.task r with
      | some t => if s.mayWake t.cx core then u.setTask r (some { t with froPre := false }) else u
      | none => u) s

/-! ## Operations (R270, R289) -/

/-- One operation of the decision whose turn it is; the 129th is an overrun (R273). -/
def State.runFc (s : State) (f : State → Fcast → Decision → Decision) : Host.Outcome State Fault Refusal :=
  match s.turn with
  | .forecast die p =>
    (match (s.fcast (16 * die + p)).run with
    | none => .refused .noAgent
    | some d =>
      if 128 ≤ d.ops then .next (s.overrun die p d)
      else .next (s.modFcast (16 * die + p) fun fc => { fc with run := some (f s fc { d with ops := d.ops + 1, pc := d.pc + 1 }) }))
  | _ => .refused .noAgent

def Decision.R (d : Decision) (n : BitVec 3) : BitVec 32 := d.f[n.toNat]'(n.isLt)
def Decision.setR (d : Decision) (n : BitVec 3) (v : BitVec 32) : Decision := { d with f := d.f.set n.toNat v n.isLt }

/-- A field of a candidate queue as a number. -/
def QSnap.field (q : QSnap) (n : Nat) : Nat := q.fields.getD n 0

/-- The candidate the cursor stands on. -/
def Decision.cand (d : Decision) : Option QSnap := d.cursor.bind fun q => d.snap.find? fun c => c.q == q

def fcReg (s : State) (d : BitVec 3) (v : Decision → BitVec 32) : Host.Outcome State Fault Refusal := s.runFc fun _ _ x => x.setR d (v x)

def execFcLdi (d : BitVec 3) (n : BitVec 8) (s : State) : Host.Outcome State Fault Refusal := fcReg s d fun _ => n.setWidth 32
def execFcLdq (d : BitVec 3) (n : BitVec 8) (s : State) : Host.Outcome State Fault Refusal :=
  fcReg s d fun x => BitVec.ofNat 32 ((x.cand.map fun c => c.field n.toNat).getD 0)
def execFcLdp (d : BitVec 3) (n : BitVec 8) (s : State) : Host.Outcome State Fault Refusal :=
  fcReg s d fun x => BitVec.ofNat 32 (x.pfields.getD n.toNat 0)
def execFcLde (d : BitVec 3) (n : BitVec 8) (s : State) : Host.Outcome State Fault Refusal :=
  fcReg s d fun x => BitVec.ofNat 32 (x.efields.getD n.toNat 0)
/-- A scratch word as it stood when the decision began (R270). -/
def execFcLds (d : BitVec 3) (n : BitVec 4) (s : State) : Host.Outcome State Fault Refusal := fcReg s d fun x => x.scr[n.toNat]'(n.isLt)
def execFcSto (d : BitVec 3) (n : BitVec 4) (s : State) : Host.Outcome State Fault Refusal :=
  s.runFc fun _ _ x => { x with sto := putT x.sto n.toNat (x.R d) }
def execFcAdd (d b : BitVec 3) (s : State) : Host.Outcome State Fault Refusal := fcReg s d fun x => x.R d + x.R b
def execFcSub (d b : BitVec 3) (s : State) : Host.Outcome State Fault Refusal := fcReg s d fun x => x.R d - x.R b
def execFcShl (d : BitVec 3) (n : BitVec 5) (s : State) : Host.Outcome State Fault Refusal := fcReg s d fun x => x.R d <<< n.toNat
def execFcShr (d : BitVec 3) (n : BitVec 5) (s : State) : Host.Outcome State Fault Refusal := fcReg s d fun x => x.R d >>> n.toNat
def execFcAnd (d b : BitVec 3) (s : State) : Host.Outcome State Fault Refusal := fcReg s d fun x => x.R d &&& x.R b
def execFcOr (d b : BitVec 3) (s : State) : Host.Outcome State Fault Refusal := fcReg s d fun x => x.R d ||| x.R b
def execFcMin (d b : BitVec 3) (s : State) : Host.Outcome State Fault Refusal :=
  fcReg s d fun x => if (x.R b).toNat < (x.R d).toNat then x.R b else x.R d
def execFcMax (d b : BitVec 3) (s : State) : Host.Outcome State Fault Refusal :=
  fcReg s d fun x => if (x.R d).toNat < (x.R b).toNat then x.R b else x.R d
def execFcSel (d c b : BitVec 3) (s : State) : Host.Outcome State Fault Refusal := fcReg s d fun x => if x.R c = 0 then x.R d else x.R b

/-- The word a jump goes to, from the word after it; one that leaves the image is beyond every word (R269, R270). -/
def jumpTo (pc : Nat) (n : BitVec 8) : Nat := if (pc : Int) + n.toInt < 0 then 65536 else ((pc : Int) + n.toInt).toNat

def fcJump (s : State) (n : BitVec 8) (cond : Decision → Bool) : Host.Outcome State Fault Refusal :=
  s.runFc fun _ _ x => if cond x then { x with pc := jumpTo x.pc n } else x

def execFcJmp (n : BitVec 8) (s : State) : Host.Outcome State Fault Refusal := fcJump s n fun _ => true
def execFcJz (d : BitVec 3) (n : BitVec 8) (s : State) : Host.Outcome State Fault Refusal := fcJump s n fun x => x.R d == 0
def execFcJnz (d : BitVec 3) (n : BitVec 8) (s : State) : Host.Outcome State Fault Refusal := fcJump s n fun x => x.R d != 0
def execFcJlt (d : BitVec 3) (n : BitVec 8) (s : State) : Host.Outcome State Fault Refusal := fcJump s n fun x => (x.R d).msb

/-- The cursor moved to a candidate, with what the register gets; none leaves 0 (R270). -/
def Decision.moveTo (x : Decision) (d : BitVec 3) (c : Option QSnap) (v : QSnap → Nat) : Decision :=
  { x with cursor := c.map fun (q : QSnap) => q.q }.setR d (BitVec.ofNat 32 ((c.map v).getD 0))

def execFcNextq (d : BitVec 3) (r : BitVec 1) (s : State) : Host.Outcome State Fault Refusal :=
  s.runFc fun _ _ x =>
    let cur := if r = 1 then none else x.cursor
    x.moveTo d (x.snap.find? fun c => match cur with | some q => decide (q < c.q) | none => true) fun _ => 1

/-- The candidate with the best field; candidates stand in ascending order of number, and a tie keeps the earlier (R289). -/
def pickBy (better : Nat → Nat → Bool) (n : Nat) (cs : List QSnap) : Option QSnap :=
  cs.foldl (fun b c => match b with
    | some e => if better (c.field n) (e.field n) then some c else b
    | none => some c) none

def execFcPickmin (d : BitVec 3) (n : BitVec 8) (s : State) : Host.Outcome State Fault Refusal :=
  s.runFc fun _ _ x => x.moveTo d (pickBy (fun a b => decide (a < b)) n.toNat x.snap) fun c => c.field n.toNat
def execFcPickmax (d : BitVec 3) (n : BitVec 8) (s : State) : Host.Outcome State Fault Refusal :=
  s.runFc fun _ _ x => x.moveTo d (pickBy (fun a b => decide (b < a)) n.toNat x.snap) fun c => c.field n.toNat

def fcAnswer (s : State) (a : Decision → Answer) : Host.Outcome State Fault Refusal := s.runFc fun _ _ x => { x with ans := some (a x) }

def execFcDisp (s : State) : Host.Outcome State Fault Refusal := fcAnswer s fun x => .disp x.cursor
def execFcPreempt (d : BitVec 3) (s : State) : Host.Outcome State Fault Refusal := fcAnswer s fun x => .preempt (x.R d).toNat
def execFcFaultact (d : BitVec 3) (s : State) : Host.Outcome State Fault Refusal := fcAnswer s fun x => .faultact (x.R d).toNat
def execFcDefer (s : State) : Host.Outcome State Fault Refusal := fcAnswer s fun _ => .defer

/-- END: the last answer is judged, and carried out or replaced by the fallback's (R273). -/
def execFcEnd (s : State) : Host.Outcome State Fault Refusal :=
  match s.turn with
  | .forecast die p =>
    (match (s.fcast (16 * die + p)).run with
    | none => .refused .noAgent
    | some d =>
      let ans := d.ans.getD .defer
      if 128 ≤ d.ops ∨ belongs d.kind ans = false then .next (s.overrun die p d)
      else .next (s.decided die p { d with ops := d.ops + 1 } ans false false))
  | _ => .refused .noAgent

/-! ## ROW_GATE (R323) -/

/-- The image of a frozen row. What its staging area holds is not architectural, and the bytes are free values (log 3). -/
def rowImage (s : State) (t : Task) : List Byte :=
  ((List.range 32).flatMap fun i => bytesOfNat 8 (t.S (BitVec.ofNat 5 i)).toNat)
  ++ ((List.range 8).flatMap fun i => bytesOfNat 2 (t.K (BitVec.ofNat 3 i)).toNat)
  ++ bytesOfNat 8 t.pc.toNat ++ ((List.range 11).flatMap fun i => bytesOfNat 8 (special s t i).toNat) ++ List.replicate 16 0
  ++ ((List.range 16).flatMap fun i => match t.handles[i]? with
      | some h => bytesOfNat 8 h.cnt0 ++ bytesOfNat 4 h.g ++ bytesOfNat 4 h.adv
      | none => List.replicate 16 0)
  ++ List.replicate 384 0
  ++ ((List.range 32).flatMap fun i => (List.range 16).flatMap fun l => bytesOfNat 4 ((t.V (BitVec.ofNat 5 i)).toList.getD l 0).toNat)
  ++ (t.cfg.toList.flatMap fun w => bytesOfNat 8 w.toNat)
  ++ ((List.range 27648).map fun i => (Config.freeResult 0x323 (s.freeCtr * 2 ^ 16 + i)).setWidth 8)
  ++ ((List.range 16).flatMap fun l => getBs s.mem (laneKey t.row l 0) 4096)

/-- Whether staging fits the image's area (log 3). -/
def stagingFits (t : Task) : Bool := decide (t.nbytes + 16 * t.staged.length ≤ 27648)

/-- A frozen row's image is written to the pad, and the row is powered down. -/
def State.gateRow (s : State) (row : Nat) : State :=
  match s.task row with
  | none => s
  | some t =>
    let core := row / 12
    let ranged := (s.core core).part.any fun p => (s.ctxsOf p).any fun c => (s.ctx c).any fun x => x.setup.overImages
    if !s.stands row t || (s.row row).gated || ranged || !stagingFits t then s
    else ({ s.write (padKey core (0x6E0000 + 0x18000 * (row % 12))) (rowImage s t) with freeCtr := s.freeCtr + 1 }).modRow row fun w =>
      { w with gated := true }

def execRowGate (row : Nat) (s : State) : Host.Outcome State Fault Refusal := .next (s.gateRow row)

end Sys2Proof.Machine
end

