-- ==== Sys2Proof/Machine/Scroll.lean ====
section
/-! DEFINITION. The Front at work: saves, restores, dispatch and isobar rounds (R209 to R211, R214 to R216, R222, R224 to R226), and the refill of the
pools, which pays what waits on them (R70). -/

namespace Sys2Proof.Machine

/-- The pipeline and the position that hold a row. -/
def State.hostOf (s : State) (row : Nat) : Option (Nat × Pipe × Hosted) :=
  match (s.row row).claim with
  | none => none
  | some (cx, q) =>
    match s.pipe cx q with
    | none => none
    | some p => (p.hosts.find? fun h => h.row == row).map fun h => (cx, p, h)

/-- Whether the scroll of a row waits for the page service: it alone stalls (R218, R361). -/
def State.pipeStalled (s : State) (cx q row : Nat) : Bool := s.pendR.any fun m => m.who == .pipe cx q row

/-- A position's state reached in its `SAREA` (R218, R361): the locations, or the state after a stall or fault. -/
def State.areaKeys (s : State) (cx : Nat) (p : Pipe) (h : Hosted) (acc : Nat) : State × Option (List (Nat × Nat)) :=
  let w := p.st (p.stage h.pos)
  match s.reach (ctxPort (p.core / 8)) cx (stArea w) (stSsize w) acc with
  | .ok ks s => (s, some ks)
  | .pageFault a st l s => (s.pendRead cx a acc st l (.pipe cx p.q h.row), none)
  | .prot a s => (s.fault cx 3 acc p.core (h.row % 12) a 0 [], none)
  | .data a s => (s.fault cx 12 0 p.core (h.row % 12) a 0 [], none)

/-- What follows a save (R211, R215, R225): the next restore, a wait for it, or a free row, where the rows that wait already take what positions are
left; the scroll of a row that is freed, or that is to be freed because its pipeline is being parked, ends here (R221). An isobar left in the input
goes on, and leaves the ring empty for its next link (R217, R224), past positions that have left before it (R212). A row that takes back a parked
position does so by a scroll of its own (R226). -/
def State.saved (s : State) (cx : Nat) (p : Pipe) (h : Hosted) : State :=
  if h.parking then
    let hs := p.hosts.filter fun o => o.slot != h.slot
    let parked := inPosition (p.parked ++ [{ h with st := .held, parking := false }])
    (((s.unclaim h.row).capture p.core).setPipe cx { p with hosts := hs, parked := parked, park := if hs.isEmpty then 2 else p.park }).frontGo cx p.q
  else
    let on := isoIn s.mem p.lf (p.linkKey h.pos) || p.iso == some h.pos
    let s := s.ringDrop p.lf (p.linkKey h.pos)
    let p := { p with done := p.done ++ [h.pos], rings := delT p.rings h.pos, iso := if on then p.nextLink h.pos else p.iso }
    match p.park, p.parked with
    | 0, g :: r =>
      let back := { g with row := h.row, st := .restoreWait, parking := true }
      ((s.capture p.core).setPipe cx { p with hosts := p.hosts.map fun o => if o.slot = h.slot then back else o, parked := r }).frontGo cx p.q
    | _, _ =>
      if p.total ≤ p.next + p.spare.length then
        ((((s.unclaim h.row).capture p.core).setPipe cx { p with hosts := p.hosts.filter fun o => o.slot != h.slot }).frontGo cx p.q).pipeDone cx p.q
      else if p.park ≠ 0 then ((s.capture p.core).setPipe cx (p.setHost { h with st := .restoreWait, eop := false })).frontGo cx p.q
      else
        let g := { h with st := .restoreWait }
        let p := p.setHost g
        let s := s.setPipe cx p
        if p.mayRestore g then (s.beginRestore cx p g).frontGo cx p.q else s.frontGo cx p.q

/-- A scroll reads a poisoned granule, a data error (R328), or a ring that is not as the Front left it (R218): it stays where it is. -/
def State.scrollBad (s : State) (cx : Nat) (p : Pipe) (h : Hosted) (cls a : Nat) : State :=
  if s.faulting cx then s else s.fault cx cls 0 p.core (h.row % 12) a 0 []

/-- What a save reads of the rings: the input that the position leaves, but where it only parks. -/
def State.leftBad (s : State) (p : Pipe) (h : Hosted) : Option (Nat × Nat) := if h.parking then none else s.ringsBad p [p.linkKey h.pos]

/-- SCROLL_SAVE_COMPLETE: the slot's state stands in its `SAREA`. -/
def execScrollSaveComplete (row : Nat) (s : State) : Host.Outcome State Fault Refusal :=
  .next <|
    match s.hostOf row with
    | none => s
    | some (cx, p, h) =>
      let n := stSsize (p.st (p.stage h.pos))
      if h.st ≠ .saving ∨ s.pipeStalled cx p.q row = true then s
      else if let some g := s.poisoned (p.slotKey h.slot) n then s.scrollBad cx p h 12 (g * 256 - padKey p.core 0)
      else if let some (cls, a) := s.leftBad p h then s.scrollBad cx p h cls a
      else match s.areaKeys cx p h 2 with
        | (s, none) => s
        | (s, some ks) => (((s.puts ks (getBs s.mem (p.slotKey h.slot) n)).saved cx p h).parkGo cx p.q).cutGo cx p.q

/-- SCROLL_RESTORE_COMPLETE: the position is hosted with its state in the slot. -/
def execScrollRestoreComplete (row : Nat) (s : State) : Host.Outcome State Fault Refusal :=
  .next <|
    match s.hostOf row with
    | none => s
    | some (cx, p, h) =>
      if h.st ≠ .restoring ∨ s.pipeStalled cx p.q row = true then s
      else match s.areaKeys cx p h 1 with
        | (s, none) => s
        | (s, some ks) =>
          if let some g := s.poisonIn (stArea (p.st (p.stage h.pos))) ks then s.scrollBad cx p h 12 (g - g % 256)
          else
          let s := (s.write (p.slotKey h.slot) (s.gets ks)).capture p.core
          let p := (p.setHost { h with st := .hosted, parking := false }).retire
          (((s.setPipe cx p).frontGo cx p.q).parkGo cx p.q).cutGo cx p.q

/-- Whether a context's stages run: it dispatches, or a debug stop of it has not been reached yet, so that what stands ahead of the cut runs on
(R224, R356). -/
def State.stagesRun (s : State) (cx : Nat) : Bool :=
  s.dispatches cx || (s.ctx cx).any fun x => !x.halt.halted && x.dbg.state == 1 && x.mig != 1 && x.mig != 4 && !s.descheduled cx

/-- Whether the Front may dispatch a position now (R214, R222, R224, R225): not one that has emitted end-of-pass. Under the cut of a drain what stands
ahead of the isobar still runs, until the context is descheduled from the core (R247). A position runs `NSEC` sections of its pass, whatever their
tags say (R207, R218). -/
def State.mayStage (s : State) (cx : Nat) (p : Pipe) (h : Hosted) : Bool :=
  h.st == .hosted && !h.busy && !h.eop && p.park == 0 && p.cut != 3 && !p.behindIso s.mem h && s.stagesRun cx && (p.cut != 0 || !s.drainedOn cx p.core)
    && !s.offCore cx p.core && decide (h.sec < p.nsec) && (s.core p.core).target.isNone
    && !(s.die (p.core / 8)).stopped && decide (p.lvl ≤ s.levelOf p.core) && p.prefs.all fun e => e.1 != h.pos

/-- FRONT_DISPATCH: the ready activation of a hosted position starts on its row once the pool pays (R209, R214). A record or a ring that is not as the
Front left it is a pipeline fault (R218). -/
def State.frontDispatch (s : State) (row : Nat) : State :=
  match s.hostOf row with
  | none => s
  | some (cx, p, h) =>
    if !s.mayStage cx p h || s.faulting cx then s
    else if let some g := s.poisoned p.recKey 56 then s.fault cx 12 0 p.core (row % 12) (g * 256 - padKey p.core 0) 0 []
    else if !s.recordOk p then s.fault cx 8 0 p.core (row % 12) 0 0 []
    else if let some a := s.ringPoison p h.pos then s.fault cx 12 0 p.core (row % 12) a 0 []
    else match p.posReady s.mem h.pos with
      | none => s.fault cx 8 0 p.core (row % 12) 0 0 []
      | some false => s
      | some true =>
        match s.debit (partOf cx) (stPps (p.st (p.stage h.pos))) with
        | none => s
        | some s => (s.place row (stageTask s.mem cx (s.vfOf cx) p h)).setPipe cx (p.setHost { h with busy := true })

def execFrontDispatch (row : Nat) (s : State) : Host.Outcome State Fault Refusal := .next (s.frontDispatch row)

/-- The ring that takes an isobar which leaves a position (R224): its forward output, or where the position behind that has left already (R212), the
input of the next one; none where no position of the pass is left. -/
def Pipe.isoKey (p : Pipe) (pos : Nat) : Option Nat := if p.stage pos + 1 = p.nstg then some p.outKey else (p.nextLink pos).map p.linkKey

/-- What keeps the Front from a position's round, while an isobar is on its way or at the position's head: a poisoned header or tag (R328), or a header
that is not as it left it (R218); the class and the pad offset. -/
def State.roundBad (s : State) (p : Pipe) (pos : Nat) : Option (Nat × Nat) :=
  if p.cut = 2 ∨ isoHead s.mem p.lf (p.linkKey pos) = true then s.ringsBad p (p.linkKey pos :: (p.isoKey pos).toList) else none

/-- FRONT_ISOBAR_ROUND: the isobar at a position's head passes to its forward output, or is dropped by the last stage (R224). DESIGN CHOICE (R224): a
position whose restore ends with an isobar at its head while the cut holds performs its round then, and not only after the release (log 32). -/
def execFrontIsobarRound (row : Nat) (s : State) : Host.Outcome State Fault Refusal :=
  .next <|
    match s.hostOf row with
    | none => s
    | some (cx, p, h) =>
      if h.inPlace = false ∨ h.busy = true ∨ s.faulting cx = true then s
      else if let some (cls, a) := s.roundBad p h.pos then s.fault cx cls 0 p.core (row % 12) a 0 []
      else if isoHead s.mem p.lf (p.linkKey h.pos) = false ∨ ((p.isoKey h.pos).all fun k => roomReady s.mem p.lf k 1 == some true) = false then s
      else
        let s := s.advance (p.linkKey h.pos) false 1
        let s := match p.nextLink h.pos with
          | some n => s.ringPut p.lf (p.linkKey n) 0 3
          | none => s
        (s.cutGo cx p.q).frontGo cx p.q

/-! ## POOL_REFILL (R70) -/

/-- The rows of a partition whose position is ready while the pool cannot pay for it, in ascending order. -/
def State.unfunded (s : State) (p : Nat) : List Nat :=
  (List.range 384).filter fun row => (s.hostOf row).any fun e =>
    partOf e.1 == p && s.mayStage e.1 e.2.1 e.2.2 && e.2.1.posReady s.mem e.2.2.pos == some true
      && decide ((s.part p).plevel < stPps (e.2.1.st (e.2.1.stage e.2.2.pos)))

/-- A whole packet of refill joins the pool; above the cap it is discarded. The commands that wait on the pool are paid at that tick, and the stage
activations that wait on it dispatched, as far as it covers them (R70, log 31). DESIGN CHOICE (R70): the fraction carried while the pool stands at its
cap is kept; whole packets alone are discarded (log 32). -/
def execPoolRefill (part : Nat) (s : State) : Host.Outcome State Fault Refusal :=
  .next <|
    if (s.part part).carry < 10 ^ 6 ∨ s.hasPart part = false then s
    else (s.unfunded part).foldl State.frontDispatch ((s.modPart part fun p => { p with carry := p.carry - 10 ^ 6 }).credit part 1)

end Sys2Proof.Machine
end

