-- ==== Sys2Proof/Machine/Sha.lean ====
section
/-! DEFINITION. SHA-256 as FIPS 180-4 defines it, which the chain, receipts, batches and policy hashes use (R273, R309, R315). A digest is a
number whose top byte is the first byte that the algorithm outputs. -/

namespace Sys2Proof.Machine

/-- The round constants, the first in the top word: 32 bits of the fraction of the cube root of each of the first 64 primes. -/
def shaCubes : Nat :=
  0x428a2f9871374491b5c0fbcfe9b5dba53956c25b59f111f1923f82a4ab1c5ed5d807aa9812835b01243185be550c7dc372be5d7480deb1fe9bdc06a7c19bf174e49b69c1efbe47860fc19dc6240ca1cc2de92c6f4a7484aa5cb0a9dc76f988da983e5152a831c66db00327c8bf597fc7c6e00bf3d5a7914706ca63511429296727b70a852e1b21384d2c6dfc53380d13650a7354766a0abb81c2c92e92722c85a2bfe8a1a81a664bc24b8b70c76c51a3d192e819d6990624f40e3585106aa07019a4c1161e376c082748774c34b0bcb5391c0cb34ed8aa4a5b9cca4f682e6ff3748f82ee78a5636f84c878148cc7020890befffaa4506cebbef9a3f7c67178f2

def shaK : List Nat := (List.range 64).map fun i => shaCubes / 2 ^ (32 * (63 - i)) % 2 ^ 32

/-- A 32-bit word turned right by n. -/
def rotr32 (x n : Nat) : Nat := x / 2 ^ n + x % 2 ^ n * 2 ^ (32 - n)

/-- The working words of the compression. -/
structure ShaW where
  a : Nat
  b : Nat
  c : Nat
  d : Nat
  e : Nat
  f : Nat
  g : Nat
  h : Nat
  deriving DecidableEq, Repr

def ShaW.start : ShaW :=
  ⟨0x6a09e667, 0xbb67ae85, 0x3c6ef372, 0xa54ff53a, 0x510e527f, 0x9b05688c, 0x1f83d9ab, 0x5be0cd19⟩

/-- One round with its constant and message word. -/
def ShaW.round (x : ShaW) (kw : Nat) : ShaW :=
  let s1 := rotr32 x.e 6 ^^^ rotr32 x.e 11 ^^^ rotr32 x.e 25
  let ch := (x.e &&& x.f) ^^^ ((0xFFFFFFFF ^^^ x.e) &&& x.g)
  let t1 := x.h + s1 + ch + kw
  let s0 := rotr32 x.a 2 ^^^ rotr32 x.a 13 ^^^ rotr32 x.a 22
  let maj := (x.a &&& x.b) ^^^ (x.a &&& x.c) ^^^ (x.b &&& x.c)
  ⟨(t1 + s0 + maj) % 2 ^ 32, x.a, x.b, x.c, (x.d + t1) % 2 ^ 32, x.e, x.f, x.g⟩

def ShaW.add (x y : ShaW) : ShaW :=
  ⟨(x.a + y.a) % 2 ^ 32, (x.b + y.b) % 2 ^ 32, (x.c + y.c) % 2 ^ 32, (x.d + y.d) % 2 ^ 32,
   (x.e + y.e) % 2 ^ 32, (x.f + y.f) % 2 ^ 32, (x.g + y.g) % 2 ^ 32, (x.h + y.h) % 2 ^ 32⟩

/-- The rounds over the constants left, with the last sixteen message words, oldest first. -/
def shaRounds : List Nat → List Nat → ShaW → ShaW
  | k :: ks, w :: ws, x =>
    let w15 := ws.getD 0 0
    let w2 := ws.getD 13 0
    let s0 := rotr32 w15 7 ^^^ rotr32 w15 18 ^^^ w15 / 2 ^ 3
    let s1 := rotr32 w2 17 ^^^ rotr32 w2 19 ^^^ w2 / 2 ^ 10
    shaRounds ks (ws ++ [(w + s0 + ws.getD 8 0 + s1) % 2 ^ 32]) (x.round (k + w))
  | _, _, x => x

/-- Big-endian 32-bit words of bytes. -/
def beWords : List Byte → List Nat
  | a :: b :: c :: d :: r => (a.toNat * 2 ^ 24 + b.toNat * 2 ^ 16 + c.toNat * 2 ^ 8 + d.toNat) :: beWords r
  | _ => []

/-- The words of the padded message. -/
def shaPad (bs : List Byte) : List Nat :=
  let n := bs.length
  let z := (119 - n % 64) % 64
  beWords (bs ++ [0x80] ++ List.replicate z 0 ++ ((List.range 8).map fun i => BitVec.ofNat 8 (8 * n / 256 ^ (7 - i))))

def shaBlocks : Nat → List Nat → ShaW → ShaW
  | 0, _, x => x
  | n + 1, ws, x => shaBlocks n (ws.drop 16) (x.add (shaRounds shaK (ws.take 16) x))

/-- SHA-256. -/
def sha256 (bs : List Byte) : BitVec 256 :=
  let ws := shaPad bs
  let x := shaBlocks (ws.length / 16) ws ShaW.start
  BitVec.ofNat 256 (((((((x.a * 2 ^ 32 + x.b) * 2 ^ 32 + x.c) * 2 ^ 32 + x.d) * 2 ^ 32 + x.e) * 2 ^ 32 + x.f) * 2 ^ 32 + x.g) * 2 ^ 32 + x.h)

/-- The bytes of a digest in the order of its output (R313). -/
def digestBytes (d : BitVec 256) : List Byte := (bytesOfNat 32 d.toNat).reverse

/-- The chain value of a new context (R309): context number and partition number. -/
def chainStart (c p : Nat) : BitVec 256 :=
  sha256 ([0x56, 0x5A, 0x34, 0x2D, 0x43, 0x48, 0x41, 0x49, 0x4E, BitVec.ofNat 8 c, BitVec.ofNat 8 p])

/-- The chain advanced by an item: its kind, its length, its digest (R309). -/
def chainStep (m : BitVec 256) (kind len : Nat) (item : BitVec 256) : BitVec 256 :=
  sha256 (digestBytes m ++ [BitVec.ofNat 8 kind] ++ bytesOfNat 8 len ++ digestBytes item)

/-! ## HMAC and HKDF (R319) -/

/-- HMAC-SHA-256 with a key of at most 64 bytes. -/
def hmac (key msg : List Byte) : List Byte :=
  let k := key ++ List.replicate (64 - key.length) 0
  digestBytes (sha256 (k.map (· ^^^ 0x5C) ++ digestBytes (sha256 (k.map (· ^^^ 0x36) ++ msg))))

/-- HKDF-SHA-256 (RFC 5869) with an empty info string, up to two blocks of output. -/
def hkdf (salt ikm : List Byte) (n : Nat) : List Byte :=
  let prk := hmac salt ikm
  let t1 := hmac prk [1]
  (t1 ++ hmac prk (t1 ++ [2])).take n

end Sys2Proof.Machine
end

