-- ==== Sys2Proof/Machine/Slh.lean ====
section
/-! DEFINITION. SLH-DSA as FIPS 205 defines it, for the parameter sets SHA2-128s and SHA2-128f (R317 to R319), and the device's identity and receipt
keys. n is 16 and the Winternitz base 16 in both sets. PRESUMED: FIPS 205 itself is outside the spec (log 13). -/

namespace Sys2Proof.Machine

/-! ## Parameters, keys and hashes -/

/-- What distinguishes the parameter sets: the height of the hypertree and its layers, the height of a FORS tree and the number of trees. -/
structure SlhSet where
  h : Nat
  d : Nat
  a : Nat
  k : Nat
  deriving DecidableEq, Repr

def slh128s : SlhSet := ⟨63, 7, 12, 14⟩
def slh128f : SlhSet := ⟨66, 22, 6, 33⟩

/-- The height of one layer. -/
def SlhSet.hp (p : SlhSet) : Nat := p.h / p.d

/-- A private key's seeds: SK.seed, SK.prf and PK.seed. -/
structure SlhKey where
  skSeed : List Byte
  skPrf : List Byte
  pkSeed : List Byte
  deriving DecidableEq, Repr

/-- The key that 48 bytes give, in the order of key generation. -/
def SlhKey.ofBytes (bs : List Byte) : SlhKey := ⟨bs.take 16, (bs.drop 16).take 16, (bs.drop 32).take 16⟩

/-- A number in `n` bytes, the highest first, and back. -/
def toBytesBE (n v : Nat) : List Byte := (bytesOfNat n v).reverse
def ofBytesBE (bs : List Byte) : Nat := natOfBytes bs.reverse

/-- `n` digits of `b` bits each, from the top of a byte string. -/
def digitsOf (b n : Nat) (bs : List Byte) : List Nat := (List.range n).map fun i => ofBytesBE bs / 2 ^ (8 * bs.length - b * (i + 1)) % 2 ^ b

/-- A place in the structure: layer, tree, and a key pair of it. -/
structure SlhAt where
  layer : Nat
  tree : Nat
  pair : Nat
  deriving DecidableEq, Repr

/-- The functions F, H, T and PRF: SHA-256 of PK.seed in a block of its own, the compressed address and the message, cut to 16 bytes. The address names
the layer, the tree, a type and three words. -/
def SlhKey.hash (x : SlhKey) (p : SlhAt) (type a b c : Nat) (msg : List Byte) : List Byte :=
  (digestBytes (sha256 (x.pkSeed ++ List.replicate 48 0 ++ toBytesBE 1 p.layer ++ toBytesBE 8 p.tree ++ toBytesBE 1 type
    ++ toBytesBE 4 a ++ toBytesBE 4 b ++ toBytesBE 4 c ++ msg))).take 16

/-- The hash of a message: MGF1-SHA-256 to at most 64 bytes. -/
def SlhKey.digest (x : SlhKey) (r root msg : List Byte) (n : Nat) : List Byte :=
  let seed := r ++ x.pkSeed ++ digestBytes (sha256 (r ++ x.pkSeed ++ root ++ msg))
  (digestBytes (sha256 (seed ++ toBytesBE 4 0)) ++ digestBytes (sha256 (seed ++ toBytesBE 4 1))).take n

/-! ## Trees -/

/-- The next level of a tree: each pair of nodes, numbered from `i`, gives one. -/
def slhPairs (node : Nat → List Byte → List Byte) : Nat → List (List Byte) → List (List Byte)
  | i, l :: r :: ns => node i (l ++ r) :: slhPairs node (i + 1) ns
  | _, _ => []

/-- The levels of a tree above its leaves: `n` are left, at height `z`, whose first node has number `i`. -/
def slhLevels (node : Nat → Nat → List Byte → List Byte) : Nat → Nat → Nat → List (List Byte) → List (List (List Byte))
  | 0, _, _, ns => [ns]
  | n + 1, z, i, ns => ns :: slhLevels node n (z + 1) (i / 2) (slhPairs (node (z + 1)) (i / 2) ns)

/-- The root of a tree of given levels, and the siblings on the way from a leaf to it. -/
def slhRoot (ls : List (List (List Byte))) : List Byte := (ls.getLast?.bind List.head?).getD []
def slhPath (ls : List (List (List Byte))) (leaf : Nat) : List Byte :=
  (ls.dropLast.zipIdx.map fun e => e.1.getD ((leaf / 2 ^ e.2) ^^^ 1) []).flatten

/-! ## WOTS+ (types 0, 1 and 5) -/

/-- `n` steps of a chain from step `j`. -/
def SlhKey.chain (x : SlhKey) (p : SlhAt) (i : Nat) : Nat → Nat → List Byte → List Byte
  | 0, _, v => v
  | n + 1, j, v => x.chain p i n (j + 1) (x.hash p 0 p.pair i j v)

/-- The start of chain `i`. -/
def SlhKey.wotsSk (x : SlhKey) (p : SlhAt) (i : Nat) : List Byte := x.hash p 5 p.pair i 0 x.skSeed

/-- The public key: the ends of the 35 chains, hashed. -/
def SlhKey.wotsPk (x : SlhKey) (p : SlhAt) : List Byte :=
  x.hash p 1 p.pair 0 0 ((List.range 35).map fun i => x.chain p i 15 0 (x.wotsSk p i)).flatten

/-- The 32 digits of a 16-byte message and the three of its checksum. -/
def wotsDigits (msg : List Byte) : List Nat :=
  let ds := digitsOf 4 32 msg
  let c := (ds.map fun v => 15 - v).sum
  ds ++ [c / 256, c / 16 % 16, c % 16]

def SlhKey.wotsSign (x : SlhKey) (p : SlhAt) (msg : List Byte) : List Byte :=
  ((wotsDigits msg).zipIdx.map fun e => x.chain p e.2 e.1 0 (x.wotsSk p e.2)).flatten

/-! ## The hypertree (type 2) -/

/-- The levels of one tree of the hypertree. -/
def SlhKey.xmss (x : SlhKey) (hp layer tree : Nat) : List (List (List Byte)) :=
  slhLevels (fun z i => x.hash ⟨layer, tree, 0⟩ 2 0 z i) hp 0 0 ((List.range (2 ^ hp)).map fun i => x.wotsPk ⟨layer, tree, i⟩)

/-- The signature of a message through the `n` layers left, from a leaf of a tree up. -/
def SlhKey.htSign (x : SlhKey) (hp : Nat) : Nat → Nat → Nat → Nat → List Byte → List Byte
  | 0, _, _, _, _ => []
  | n + 1, layer, tree, leaf, msg =>
    let ls := x.xmss hp layer tree
    x.wotsSign ⟨layer, tree, leaf⟩ msg ++ slhPath ls leaf ++ x.htSign hp n (layer + 1) (tree / 2 ^ hp) (tree % 2 ^ hp) (slhRoot ls)

/-! ## FORS (types 3, 4 and 6) -/

/-- The levels of FORS tree `t`, and the secret of a leaf. -/
def SlhKey.forsSk (x : SlhKey) (p : SlhAt) (i : Nat) : List Byte := x.hash p 6 p.pair 0 i x.skSeed
def SlhKey.forsTree (x : SlhKey) (a : Nat) (p : SlhAt) (t : Nat) : List (List (List Byte)) :=
  slhLevels (fun z i => x.hash p 3 p.pair z i) a 0 (t * 2 ^ a)
    ((List.range (2 ^ a)).map fun i => x.hash p 3 p.pair 0 (t * 2 ^ a + i) (x.forsSk p (t * 2 ^ a + i)))

/-! ## Key generation and signing -/

/-- The root of the public key. -/
def SlhKey.root (x : SlhKey) (p : SlhSet) : List Byte := slhRoot (x.xmss p.hp (p.d - 1) 0)

/-- The public key: PK.seed and PK.root. -/
def SlhKey.public (x : SlhKey) (p : SlhSet) : List Byte := x.pkSeed ++ x.root p

/-- A signature of the pure scheme with an empty context string (R317): the randomiser, the FORS signature, that of the hypertree. -/
def SlhKey.sign (x : SlhKey) (p : SlhSet) (rand m : List Byte) : List Byte :=
  let msg : List Byte := 0 :: 0 :: m
  let r := (hmac x.skPrf (rand ++ msg)).take 16
  let nm := cdiv (p.k * p.a) 8
  let nt := cdiv (p.h - p.hp) 8
  let nl := cdiv p.hp 8
  let dg := x.digest r (x.root p) msg (nm + nt + nl)
  let tree := ofBytesBE ((dg.drop nm).take nt) % 2 ^ (p.h - p.hp)
  let leaf := ofBytesBE ((dg.drop (nm + nt)).take nl) % 2 ^ p.hp
  let at_ : SlhAt := ⟨0, tree, leaf⟩
  let fors := ((digitsOf p.a p.k (dg.take nm)).zipIdx).map fun e => (e.1, e.2, x.forsTree p.a at_ e.2)
  let sig := (fors.map fun e => x.forsSk at_ (e.2.1 * 2 ^ p.a + e.1) ++ slhPath e.2.2 e.1).flatten
  let pk := x.hash at_ 4 leaf 0 0 ((fors.map fun e => slhRoot e.2.2).flatten)
  r ++ sig ++ x.htSign p.hp p.d 0 tree leaf pk

/-! ## The keys of the device (R318, R319) -/

/-- SK.seed, SK.prf and PK.seed of the identity key, from the corrected PUF response with the salt "VZ4-IDENT" (R319). -/
def identityKey : SlhKey :=
  .ofBytes (hkdf [0x56, 0x5A, 0x34, 0x2D, 0x49, 0x44, 0x45, 0x4E, 0x54] (digestBytes Config.pufSeed) 48)

/-- The identity public key that FIPS 205 generates from them. -/
def identityPublic : List Byte := identityKey.public slh128s

/-- A signature by the identity key, in a start-up; the randomiser is a free value (log 13). -/
def signIdentity (n : Nat) (m : List Byte) : List Byte := identityKey.sign slh128s (toBytesBE 16 (Config.slhRandom n m).toNat) m

/-- The receipt key of a start-up: its seeds come from the DRBG and are free values (R318, log 13). -/
def receiptKey (n : Nat) : SlhKey := .ofBytes (toBytesBE 48 (Config.receiptSeeds n).toNat)
def receiptPublic (n : Nat) : List Byte := (receiptKey n).public slh128f

/-- A signature by the receipt key of a start-up. -/
def signReceipt (n : Nat) (m : List Byte) : List Byte := (receiptKey n).sign slh128f (toBytesBE 16 (Config.slhRandom n m).toNat) m

end Sys2Proof.Machine
end

