-- ==== Sys2Proof/Machine/Ring.lean ====
section
/-! DEFINITION. Command rings (R276 to R279) and their packets: LAUNCH, PIPE, CMD, SIGNAL, WAIT (R281 to R283), POLICY (R284) and the PART kinds
(R298 to R301). -/

namespace Sys2Proof.Machine

/-! ## The packet at the head -/

/-- A packet of the ring whose turn it is. -/
def State.onRing (s : State) (f : Nat → Ctx → Cur → State) : Host.Outcome State Fault Refusal :=
  match s.turn with
  | .ring cx =>
    (match s.ctx cx with
    | some x => (match x.cur with
      | some c => .next (f cx x c)
      | none => .refused .noAgent)
    | none => .refused .noAgent)
  | _ => .refused .noAgent

/-- The packet starts: it is open until it completes (R279). -/
def State.startPkt (s : State) (cx : Nat) (c : Cur) (live body : Nat) : State :=
  s.modCtx cx fun x => { x with pkts := x.pkts ++ [⟨c.seq, c.hdr.kind, c.hdr.rel, c.hdr.crec, c.hdr.irq, live, body⟩], cur := none }

/-- The packet starts and completes. -/
def State.endPkt (s : State) (cx : Nat) (c : Cur) (status code stage : Nat) : State := (s.startPkt cx c 0 0).complete cx c.seq status code stage

/-- A privileged packet: in a context without privilege it completes with status 4 (R278). -/
def State.onPriv (s : State) (f : Nat → Ctx → Cur → State) : Host.Outcome State Fault Refusal :=
  s.onRing fun cx x c => if x.setup.priv then f cx x c else s.endPkt cx c 4 0 0

/-- A stall of F0 on behalf of a context (R276, R361). -/
def State.ringStall (s : State) (cx of va acc st l : Nat) : State := s.pendRead of va acc st l (.ring cx)

/-- How F0 goes on after a read: an invalid subject completes the packet with status 1, a stall holds the ring, a violation is a context fault. -/
def State.ringRead {α : Type} (s : State) (cx : Nat) (c : Cur) (r : LR α) (go : α → State → State) : State :=
  match r with
  | .ok a s => go a s
  | .invalid _ => s.endPkt cx c 1 0 0
  | .pageFault va st l s => s.ringStall cx cx va 1 st l
  | .prot va s => s.fault cx 3 1 63 15 va 0 []
  | .data va s => s.fault cx 12 0 63 15 va 0 []

/-! ## Fetch and parse (R276 to R279) -/

/-- The kinds that only a privileged context may use (R278). -/
def privKind (k : Nat) : Bool := k == 7 || k == 8 || (decide (16 ≤ k) && decide (k ≤ 23))

/-- F0 reads the next packet and checks it: an invalid one completes with status 1, one without privilege with status 4. -/
def State.parse (s : State) (cx : Nat) (w : Nat) : State :=
  match s.ctx cx with
  | none => s
  | some x =>
    let seq := (x.consumed + 1).toNat
    let crec := bits w 14 1 == 1
    let raw : PktHdr := ⟨bits w 0 8, bits w 8 3, bits w 11 3, crec || bits w 0 8 == 6, bits w 15 1 == 1 && crec⟩
    let c : Cur := ⟨seq, raw, w, false, none, 0, false, false, none, none, none, none⟩
    let s := s.setCtx cx { x with consumed := x.consumed + 1 }
    match decodePktHdr (w % 2 ^ 64) with
    | none => s.endPkt cx c 1 0 0
    | some h =>
      if (decodePacket h.kind w).isNone then s.endPkt cx c 1 0 0
      else if x.halt.nores then s.endPkt cx c 1 0 0
      else if privKind h.kind && !x.setup.priv then s.endPkt cx c 4 0 0
      else if h.kind = 6 ∧ (h.acq ≠ 6 ∨ h.rel ≠ 6 ∨ h.crec = false) then s.endPkt cx c 1 0 0
      else s.modCtx cx fun x => { x with cur := some { c with hdr := h } }

/-- Whether what a ring has started goes on: its context is neither halted, faulted nor stopped; one answered with `FAULTACT` 2 has its packets
refused. -/
def Ctx.works (x : Ctx) : Bool :=
  x.setup.clog != 0 && x.dbg.state == 0 && (x.halt.fault.isNone && !x.halt.halted || (x.halt.nores && x.halt.stage == 4))

/-- Whether F0 works on a ring: not for a halted, faulted, stopped or moving context; a context answered with `FAULTACT` 2 has its packets refused. -/
def Ctx.parses (x : Ctx) : Bool :=
  x.works && x.mig != 1 && x.mig != 4

/-- F0's next action on a ring where no packet is at its head: the next packet is read (R276). -/
def State.fetchPkt (s : State) (cx : Nat) (x : Ctx) : State :=
  if x.doorbell.toNat ≤ x.consumed.toNat then s
  else
    match s.devRead cx ((x.setup.cring + 64 * (x.consumed.toNat % 2 ^ x.setup.clog)) % 2 ^ 64) 64 with
    | .ok w s => s.parse cx w
    | .invalid s => s
    | .pageFault va st l s => s.ringStall cx cx va 1 st l
    | .prot va s => s.fault cx 3 1 63 15 va 0 []
    | .data va s => s.fault cx 12 0 63 15 va 0 []

/-- The packet that may work now: `ACQ` waits for every earlier packet (R279). -/
def Ctx.current (x : Ctx) : Option Instr :=
  match x.cur with
  | none => none
  | some c => if !c.started && c.hdr.acq != 0 && !x.pkts.isEmpty then none else decodePacket c.hdr.kind c.body

/-! ## LAUNCH (R281, R286, R287) -/

/-- The ranges of a spanning launch over the dies that hold an admissible core (R287). -/
def State.spanRanges (s : State) (cx w count : Nat) : List (Nat × Nat × Nat) :=
  let dies := (List.range 4).filter fun d => (s.checkCores cx w).any fun n => n / 8 == d
  dies.zipIdx.map fun e => (e.1, count * e.2 / dies.length, count * (e.2 + 1) / dies.length)

/-- What follows a block's copy into its queue: the packet is open, or waits for a segment, the quota or a page. -/
def State.ringEnq (s : State) (cx : Nat) (who : Who) (r : Enq) : State :=
  match r with
  | .ok s => s
  | .full _ => s
  | .quota _ => s
  | .pageFault va st l s' =>
    -- nothing has been enqueued; only what the translation did to the port stands
    { s with ports := s'.ports }.pendRead cx va 2 st l who
  | .prot va s' => { s with ports := s'.ports }.fault cx 3 2 63 15 va 0 []
  | .data va s' => { s with ports := s'.ports }.fault cx 12 0 63 15 va 0 []

/-- Where a LAUNCH's activations come from: the base of their `tid` (R44), and its packet. -/
def Cur.origin (c : Cur) : Origin := ⟨BitVec.ofNat 64 (c.seq * 2 ^ 20), some c.seq, false⟩

/-- Step 4 of R285 for a LAUNCH whose block has been read and bound: the copy, or a wait for the quota, a segment or a page, in which F0 keeps what it
has read. -/
def State.launchCopy (s : State) (cx : Nat) (c : Cur) (o : LaunchOps) (b : LBlock) : State :=
  let span := if o.count = 1 then none else some (⟨0, c.seq, o.count.toNat, s.spanRanges cx b.image o.count.toNat⟩ : Span)
  let keep := fun (full : Option Nat) => s.modCtx cx fun x => { x with cur := some { c with block := some b, full := full } }
  match (s.startPkt cx c 0 0).enqueue cx o.block.toNat b c.origin span with
  | .ok s => s
  | .full _ => keep (some (lbQsel b.image))
  | r => (keep none).ringEnq cx (.ring cx) r

def execLaunch (o : LaunchOps) (s : State) : Host.Outcome State Fault Refusal :=
  s.onRing fun cx _ c =>
    match c.block with
    | some b => s.launchCopy cx c o b
    | none => s.ringRead cx c (s.readBlock (s.firstDie (partOf cx)) cx o.block.toNat id (o.count == 1)) fun b s' =>
      if o.count ≠ 1 ∧ (lbGsz b.image ≠ 1 ∨ lbNch b.image ≠ 0) then s.endPkt cx c 1 0 0
      else if lbRearm b.image then (s'.arm cx o.block.toNat b { c.origin with pkt := none }).endPkt cx c 0 0 0
      else (s'.bindAll b.chans.flatten).launchCopy cx c o b

/-! ## PIPE (R219, R282) -/

/-- Refused with a code and a stage (R219). -/
def State.refuse (s : State) (cx : Nat) (c : Cur) (code stage : Nat) : State := s.endPkt cx c 2 code stage

/-- A read of the loader (R219): a violation, or its own miss once that has reached the fault limit, refuses the PIPE. -/
def State.loaderRead (s : State) (cx : Nat) (c : Cur) (va n code stage : Nat) (go : Nat → State → State) : State :=
  if c.lost.any fun a => decide (va ≤ a ∧ a < va + n) then s.refuse cx c code stage
  else match s.devRead cx va n with
  | .ok w s => go w s
  | .pageFault a st l s => s.ringStall cx cx a 1 st l
  | .data a s => s.fault cx 12 0 63 15 a 0 []
  | _ => s.refuse cx c code stage

/-- The stage descriptors, read and checked in order (R208, R219); the pipeline then waits for its rows, and for its VF's slice (R304). -/
def State.readStages (s : State) (cx : Nat) (c : Cur) (p : Pipe) : Nat → List Nat → State
  | 0, ws =>
    let p := { p with stages := ws }
    match (s.ctx cx).bind fun x => s.refusal cx x p with
    | some (code, i) => s.refuse cx c code i
    | none =>
      let p := { p with pkt := c.seq, q := c.seq }
      if (s.freeGeneral p.core).length < p.r || !s.bandRuns cx p then s else (s.startPkt cx c 1 0).loadPipe cx p
  | n + 1, ws =>
    let i := ws.length
    s.loaderRead cx c ((p.stab + 64 * i) % 2 ^ 64) 64 2 i fun w s =>
      if stageOk w then s.readStages cx c p n (ws ++ [w]) else s.refuse cx c 2 i

def execPipe (o : PipeOps) (s : State) : Host.Outcome State Fault Refusal :=
  s.onRing fun cx _ c =>
    if o.block.toNat % 64 ≠ 0 ∨ isCanon o.block.toNat = false then s.refuse cx c 1 0
    else s.loaderRead cx c o.block.toNat 64 1 0 fun w s =>
      match pipeBlock c.seq w with
      | none => s.refuse cx c 1 0
      | some p => s.readStages cx c p p.nstg []

/-! ## CMD, SIGNAL, WAIT (R282, R283) -/

def execCmd (o : CmdOps) (s : State) : Host.Outcome State Fault Refusal :=
  s.onRing fun cx _ c =>
    let core := o.core.toNat
    let code := o.queue.toNat
    let w0 := o.lo.toNat
    let w1 := o.hi.toNat
    if (s.core core).part ≠ some (partOf cx) ∨ cmdValid code w0 w1 = false ∨ (bits w0 98 1 = 0 ∧ w1 ≠ 0) then s.endPkt cx c 1 0 0
    else if s.roomFor cx core code w0 then (s.startPkt cx c 0 0).append cx core code w0 w1 (some c.seq) false none
    else s

/-- The operation of a SIGNAL (R283). -/
def signalOp (op : BitVec 2) : Nat := if op = 0 then 8 else if op = 1 then 0 else 4

def execSignal (o : SignalOps) (s : State) : Host.Outcome State Fault Refusal :=
  s.onRing fun cx _ c =>
    let acc := if o.op = 0 then 2 else 3
    match s.xlate (s.devPort cx) cx o.addr.toNat acc with
    | (.pageFault st l, s) => s.ringStall cx cx o.addr.toNat acc st l
    | (.prot, s) => s.fault cx 3 acc 63 15 o.addr.toNat 0 []
    | (.data a, s) => s.fault cx 12 0 63 15 a 0 []
    | (.ok e, s) =>
      let k := entKey e o.addr.toNat
      if o.op ≠ 0 ∧ (s.poisoned k 8).isSome = true then s.fault cx 12 0 63 15 (o.addr.toNat - o.addr.toNat % 256) 0 []
      else ((s.atomic k 8 (signalOp o.op) o.value.toNat).2).endPkt cx c 0 0 0

/-- The WAIT at the head as it begins: its limit runs from its start (R283). -/
def Cur.waiting (c : Cur) (o : WaitOps) (tb : Nat) : Cur :=
  if c.started then c
  else { c with started := true, wval := o.value, wge := o.op == 1, until_ := if o.tmo = 0 then none else some (tb + o.tmo.toNat * 1024) }

def execWait (o : WaitOps) (s : State) : Host.Outcome State Fault Refusal :=
  s.onRing fun cx _ c =>
    let c := c.waiting o s.tb
    match c.wkey with
    | some _ => if c.wok then s.endPkt cx c 0 0 0 else s
    | none =>
      let keep := fun (s : State) (c : Cur) => s.modCtx cx fun x => { x with cur := some c }
      match s.xlate (s.devPort cx) cx o.addr.toNat 1 with
      | (.pageFault st l, s) => (keep s c).ringStall cx cx o.addr.toNat 1 st l
      | (.prot, s) => s.fault cx 3 1 63 15 o.addr.toNat 0 []
      | (.data a, s) => s.fault cx 12 0 63 15 a 0 []
      | (.ok e, s) =>
        let k := entKey e o.addr.toNat
        if (s.poisoned k 8).isSome then s.fault cx 12 0 63 15 (o.addr.toNat - o.addr.toNat % 256) 0 []
        else if waitHolds (if o.op = 1 then 2 else 1) (getN s.mem k 8) o.value.toNat then s.endPkt cx c 0 0 0
        else keep s { c with wkey := some k }

/-- WAIT_TIMEOUT: a WAIT whose comparison has not held by its limit completes with status 6 (R283). -/
def execWaitTimeout (cx : Nat) (s : State) : Host.Outcome State Fault Refusal :=
  .next <|
    match s.ctx cx with
    | none => s
    | some x =>
      match x.cur with
      | none => s
      | some c =>
        match c.until_ with
        | none => s
        | some t =>
          if c.wok ∨ s.tb < t ∨ s.faulting cx = true then s
          else ({ s with pendR := s.pendR.filter fun m => m.who != Who.ring cx }).endPkt cx c 6 0 0

/-! ## The doorbell (R276) -/

/-- A doorbell write through the function that the context's VF tag names. -/
def execDoorbellWrite (vf cx n : Nat) (s : State) : Host.Outcome State Fault Refusal :=
  .next (s.modCtx cx fun x => if x.setup.vf = vf then { x with doorbell := BitVec.ofNat 64 n } else x)

/-! ## Forecast images (R275, R284) -/

def execPolicyLoad (o : PolicyLoadOps) (s : State) : Host.Outcome State Fault Refusal :=
  s.onPriv fun cx _ c =>
    let n := 2 * (o.lenm1.toNat + 1)
    s.ringRead cx c (s.devRead cx o.img.toNat n) fun w s =>
      let img : Image := ⟨(List.range (n / 2)).map fun i => BitVec.ofNat 16 (w / 2 ^ (16 * i)), sha256 (bytesOfNat n w)⟩
      (s.modPart (partOf cx) fun p => { p with staged := some img, badStaged := false }).endPkt cx c 0 0 0

def execPolicySwap (s : State) : Host.Outcome State Fault Refusal :=
  s.onPriv fun cx _ c =>
    let p := s.part (partOf cx)
    if p.swap.isSome then s
    else if p.staged.isNone then s.endPkt cx c 1 0 0
    else if p.badStaged then
      ((s.modPart (partOf cx) fun p => { p with staged := none, badStaged := false }).endPkt cx c 7 1 0).partFault (partOf cx) 1
    else ((s.startPkt cx c 0 0).swapNow (partOf cx) cx c.seq).trySwap (partOf cx)

/-! ## Partitions (R298) -/

/-- A partition brought into existence where it is not. -/
def State.needPart (s : State) (p : Nat) : State := if s.hasPart p then s else s.setPart p Part.fresh

/-- A packet that needs its partition to exist. -/
def State.onPart (s : State) (p : Nat) (f : Nat → Ctx → Cur → State) : Host.Outcome State Fault Refusal :=
  s.onPriv fun cx x c => if s.hasPart p then f cx x c else s.endPkt cx c 1 0 0

def execPartPool (o : PartPoolOps) (s : State) : Host.Outcome State Fault Refusal :=
  s.onPart o.p.toNat fun cx _ c =>
    ((s.modPart o.p.toNat fun p => { p with plevel := min o.plevel.toNat o.pcap.toNat, pcap := o.pcap.toNat, prate := o.prate.toNat }).poolRose o.p.toNat
      (s.part o.p.toNat).plevel).endPkt cx c 0 0 0

def execPartCache (o : PartCacheOps) (s : State) : Host.Outcome State Fault Refusal :=
  s.onPart o.p.toNat fun cx _ c =>
    let sh : Share := ⟨o.sbase.toNat, o.scount.toNat, o.tquota.toNat, o.lquota.toNat, o.bw.toNat⟩
    ((List.range 4).foldl (fun s d => if o.dies.getLsbD d then
        (((s.modPart o.p.toNat fun p => { p with shares := putT p.shares d sh }).modDie d fun x => x.setShare sh o.p.toNat).trimSlices o.p.toNat d) else s)
      s).endPkt cx c 0 0 0

/-- A VF's turn begins: the records that wait for it are written in completion order, its frozen tasks whose waits are over run on, and its pipelines
resume (R226, R304, R329). -/
def State.wake (s : State) (cx : Nat) : State :=
  match (s.replayRecords cx s.pendW.length).ctx cx with
  | none => s
  | some x =>
    ((x.withheld.foldl (fun s r => s.record cx r) ((s.replayRecords cx s.pendW.length).setCtx cx { x with withheld := [] })).thawCtx cx).resumePipes cx

/-- The slice length of a partition is set: without slices every VF is served, and when slices begin none is until its turn (R298, R304). -/
def State.setSlices (s : State) (p n : Nat) : State :=
  let old := (s.part p).slen
  let s := s.modPart p fun x => { x with slen := n, slice := if n = 0 then none else x.slice }
  if n = 0 then (s.ctxsOf p).foldl (fun s c => s.wake c) s
  else if old = 0 then (s.ctxsOf p).foldl (fun s c => s.parkAll c fun _ => true) s
  else s

def execPartLimits (o : PartLimitsOps) (s : State) : Host.Outcome State Fault Refusal :=
  s.onPart o.p.toNat fun cx _ c =>
    ((s.modPart o.p.toNat fun p => { p with drain := o.drain.toNat, fault := o.fault.toNat, dint := o.dint.toNat }).setSlices o.p.toNat
      o.slice.toNat).endPkt cx c 0 0 0

def execPartVf (o : PartVfOps) (s : State) : Host.Outcome State Fault Refusal :=
  s.onPriv fun cx _ c => (s.setVf o.vf.toNat { s.vf o.vf.toNat with qslots := o.qslots.toNat, dcnt := o.dcnt.toNat }).endPkt cx c 0 0 0

/-- A new queue with its first segment, whose header F1 writes (R299). -/
def State.newQueue (s : State) (cx : Nat) (c : Cur) (tgt q : Nat) (x : Ctx) (prio : Nat) (urgent : Bool) (seg : Nat) : State :=
  match s.reach (s.devPort tgt) tgt seg 4096 2 with
  | .pageFault va st l s => s.ringStall cx tgt va 2 st l
  | .prot va s => (s.fault tgt 3 2 63 15 va 0 []).endPkt cx c 3 0 0
  | .data va s => (s.fault tgt 12 0 63 15 va 0 []).endPkt cx c 3 0 0
  | .ok ks s =>
    let k := (ks.head?.map Prod.fst).getD 0
    (((s.setCtx tgt { x with queues := putT x.queues q ⟨prio, urgent, [(seg, k)], 1, 1⟩ }).writeN k 64 (segHeader 0 1 1))).endPkt cx c 0 0 0

def execPartQueue (o : PartQueueOps) (s : State) : Host.Outcome State Fault Refusal :=
  s.onPart o.p.toNat fun cx _ c =>
    let tgt := 32 * o.p.toNat + o.c.toNat
    let seg := o.segment.toNat
    match s.ctx tgt with
    | none => s.endPkt cx c 1 0 0
    | some x =>
      match findT x.queues o.qsel.toNat with
      | none => if seg = 0 then s.endPkt cx c 1 0 0 else s.newQueue cx c tgt o.qsel.toNat x o.prio.toNat (o.urgent == 1) seg
      | some e =>
        (s.setCtx tgt { x with queues := putT x.queues o.qsel.toNat { e with prio := o.prio.toNat, urgent := o.urgent == 1 },
                               free := if seg = 0 then x.free else x.free ++ [seg] }).endPkt cx c 0 0 0

/-! ## Moves of cores (R301) -/

/-- A range cleared to zero, poison and all (R232). -/
def State.clear (s : State) (k n : Nat) : State :=
  { s with mem := clearRange s.mem k n, poison := s.poison.filter fun g => !(decide (k ≤ g * 256) && decide (g * 256 + 256 ≤ k + n)) }

/-- The array of a core goes to its owner's image (R170, R329). -/
def State.saveArray (s : State) (core : Nat) : State :=
  match (s.core core).owner with
  | none => s
  | some o =>
    let s := s.modCore core fun c => { c with owner := none }
    match s.ctx o with
    | none => s
    | some y =>
      if y.setup.areaOk then
        (s.devWriteAt (core / 8) o 5 (imageAt y core) (coreImage s y core)).modCtx o fun y => { y with images := core :: y.images.filter fun n => n != core }
      else s

/-- Whether a core has reached its boundary: no task, no pipeline, no matrix work of its old partition (R301 steps 2 and 3). -/
def State.atBoundary (s : State) (n : Nat) : Bool :=
  (rowsOf n).all (fun r => (s.task r).isNone && (s.row r).claim.isNone) &&
    s.ctxs.all fun e => some (partOf e.1) != (s.core n).part || !e.2.matrixWork n

/-- The units of a die pad that a partition last held are cleared, the ranges of its contexts among them, with its last core there (R301 step 4). -/
def State.clearDie (s : State) (old die : Nat) : State :=
  let s := (s.ctxsOf old).foldl (fun s c => match s.ctx c with
    | some x => s.clear (dieKey die (x.setup.dielo * 2 ^ 20)) (x.setup.dien * 2 ^ 20)
    | none => s) s
  (List.range 64).foldl (fun s u => if getT s.dieUse (64 * die + u) 0 = old then s.clear (dieKey die (u * 2 ^ 20)) (2 ^ 20) else s) s

/-- The partitions whose contexts reach a unit of a die pad: they have a core of the die (R231, R300). -/
def State.holders (s : State) (die u : Nat) : List Nat :=
  (s.ctxs.filter fun e => decide (e.2.setup.dielo ≤ u ∧ u < e.2.setup.dielo + e.2.setup.dien) && (dieCores die).any fun n =>
    (s.core n).part == some (partOf e.1)).map fun e => partOf e.1

/-- A unit of a die pad that passes to another partition is cleared (R232). -/
def State.passUnit (s : State) (die u : Nat) : State :=
  match s.holders die u with
  | [] => s
  | h :: r =>
    if (h :: r).contains (getT s.dieUse (64 * die + u) 0) then s
    else { s.clear (dieKey die (u * 2 ^ 20)) (2 ^ 20) with dieUse := putT s.dieUse (64 * die + u) h }

def State.passUnits (s : State) : State :=
  (List.range 4).foldl (fun s d => (List.range 64).foldl (fun s u => s.passUnit d u) s) s

/-- A core whose move has reached its boundary joins its new partition (R301 steps 4 and 5). -/
def State.moveCore (s : State) (n : Nat) : State :=
  match (s.core n).target with
  | none => s
  | some p =>
    if !s.atBoundary n then s
    else
      let s := ((s.saveArray n).clear (padKey n 0) (2 ^ 23)).clear (deckKey n 0) (2 ^ 24)
      let s := match (s.core n).part with
        | some old => if (dieCores (n / 8)).any fun m => m != n && (s.core m).part == some old then s else s.clearDie old (n / 8)
        | none => s
      let first := !(s.part p).cored
      let s := (s.modPart p fun x => { x with cored := true }).modCore n fun c => { c with part := some p, target := none }
      let s := if first then (List.range 4).foldl (fun s d => s.modFcast (16 * d + p) fun f => { f with scratch := Vector.replicate 16 0 }) s else s
      (s.ctxsOf p).foldl (fun s c => s.resumePipes c) s.passUnits

/-- Cores named by a mask. -/
def maskCores (m : Nat) : List Nat := (List.range 32).filter fun n => m / 2 ^ n % 2 == 1

/-- Cores that are moving already finish that move first; a core out of service joins no partition (R335), and the packet does not wait for it
(log 32). -/
def execPartCores (o : PartCoresOps) (s : State) : Host.Outcome State Fault Refusal :=
  s.onPriv fun cx _ c =>
    let p := o.p.toNat
    if (maskCores o.mask.toNat).any fun n => (s.core n).target.isSome then s
    else
    let s := s.needPart p
    let ns := (maskCores o.mask.toNat).filter fun n => (s.core n).part != some p && !(s.core n).oos
    let s := ns.foldl (fun s n => s.modCore n fun k => { k with target := some p }) s
    let s := (s.ctxs.map Prod.fst).foldl (fun s q => s.parkAll q ns.contains) s
    s.startPkt cx c 0 c.body

/-! ## Contexts (R300) -/

/-- What a PART.CTX asks for. -/
def setupOf (o : PartCtxOps) : Setup :=
  ⟨o.priv == 1, o.vf.toNat, o.nest == 1, o.padlo.toNat, o.padn.toNat, o.dielo.toNat, o.dien.toNat, true, o.root1.toNat, o.root2.toNat,
   o.cring.toNat / 4096 * 4096, o.cring.toNat % 16, o.dring.toNat / 4096 * 4096, o.dring.toNat % 16, o.sring.toNat / 4096 * 4096, o.sring.toNat % 16,
   true, o.farea.toNat⟩

/-- Nothing of a context is left in the device: its translations, its windows, its arrays and slices (log 8). -/
def State.forget (s : State) (cx : Nat) : State :=
  { s with
    ports := s.ports.map fun e => (e.1, { e.2 with entries := e.2.entries.filter fun t => t.cx != cx, got := e.2.got.filter fun t => t.cx != cx })
    dies := s.dies.map fun e => (e.1, { e.2 with wins := e.2.wins.filter fun w => w.2.cx != cx || w.2.kind == 2 })
    cores := s.cores.map fun e => (e.1, if e.2.owner = some cx then { e.2 with owner := none } else e.2)
    rows := s.rows.map fun e => (e.1, if e.2.sliceCx = some cx then { e.2 with sliceCx := none } else e.2)
    fcasts := s.fcasts.map fun e => (e.1, { e.2 with faults := e.2.faults.filter fun c => c != cx }) }

/-- Whether a kind-2 decision about a context runs (R272). -/
def State.judged (s : State) (cx : Nat) : Bool :=
  s.fcasts.any fun e => e.1 % 16 == partOf cx && e.2.run.any fun d => d.kind == 2 && 32 * partOf cx + d.efields.getD 8 0 == cx

/-- Whether a context that is to be re-created or destroyed has drained; no decision that runs is to halt it (R293). -/
def State.drained (s : State) (cx : Nat) : Bool :=
  !s.judged cx && s.quiet cx && (s.ctx cx).all (fun x => x.receipt.isNone && (x.halt.fault.isNone || x.halt.stage == 4))
    && (s.batch.leaves ++ s.batch.closing).all (fun l => l.cx != cx) && s.pendW.all (fun w => w.miss.cx != cx)

/-- Rows whose images a context's new pad range would reach are restored from them, on every core of its partition (R323). -/
def State.ungate (s : State) (part : Nat) (su : Setup) : State :=
  if su.overImages then { s with rows := s.rows.map fun e => if (s.core (e.1 / 12)).part = some part then (e.1, { e.2 with gated := false }) else e } else s

/-- A context created: the header of its stop ring is written to zero (R81), and no row's image lies in its pad range (R323). -/
def State.create (s : State) (tgt : Nat) (o : PartCtxOps) : State :=
  let su := setupOf o
  let s := (s.setCtx tgt (Ctx.create su (chainStart o.c.toNat o.p.toNat))).passUnits.ungate o.p.toNat su
  if su.slog = 0 then s else s.devWrite tgt 7 su.sring (List.replicate 64 0)

/-- The packet of a PART.CTX whose context stands completes once the header is written. -/
def State.created (s : State) (cx seq tgt : Nat) : State :=
  if s.pendW.any fun w => w.miss.cx == tgt && w.kind == 7 then s else s.complete cx seq 0 0 0

/-- How far the packet of a PART.CTX has come is kept with it. -/
def State.ctxMark (s : State) (cx : Nat) (p : Pkt) (n : Nat) : State :=
  s.modCtx cx fun y => { y with pkts := { p with live := n } :: y.pkts.filter fun q => q.seq != p.seq }

/-- The open packets of a context that is to be replaced or destroyed complete as discarded, but for the PART.CTX itself. -/
def State.ctxDiscard (s : State) (cx : Nat) (p : Pkt) (tgt : Nat) : State :=
  let open_ := (((s.ctx tgt).map fun y => y.openPkts).getD []).filter fun q => !(cx == tgt && q.seq == p.seq)
  let s := s.modCtx tgt fun y => { y with pkts := y.openPkts, cur := none }
  (open_.foldl (fun s q => s.complete tgt q.seq 3 0 0) s).ctxMark cx p 2

/-- A drained context is gone, or made anew. A context that destroys itself has no ring left to record it in. DESIGN CHOICE (R300): the record of a
packet that re-creates its own context goes to the new context's `DRING`, whose count starts at 0 (log 32). -/
def State.ctxReplace (s : State) (cx : Nat) (p : Pkt) (o : PartCtxOps) (tgt : Nat) : State :=
  let s := s.forget tgt
  if o.en = 0 then ({ s with ctxs := delT s.ctxs tgt } : State).passUnits.complete cx p.seq 0 0 0
  else ((s.create tgt o).ctxMark cx p 1).created cx p.seq tgt

/-- A PART.CTX goes on: the context halts and drains, its records written under the setup it has, those among them that wait for its VF's slice
(R304), and it is then replaced or gone. `live`: 2 its packets are discarded, 1 it has been made. -/
def State.ctxWork (s : State) (cx : Nat) (p : Pkt) (o : PartCtxOps) : State :=
  let tgt := 32 * o.p.toNat + o.c.toNat
  if p.live = 1 then s.created cx p.seq tgt
  else
    let s := match s.ctx tgt with
      | some x => if x.halt.halted then s else s.halt tgt false
      | none => s
    if !s.drained tgt then s
    else
      let s := if p.live = 2 then s else s.ctxDiscard cx p tgt
      if s.drained tgt && (s.ctx tgt).all fun y => y.withheld.isEmpty then s.ctxReplace cx p o tgt else s

def execPartCtx (o : PartCtxOps) (s : State) : Host.Outcome State Fault Refusal :=
  s.onPriv fun cx _ c =>
    let tgt := 32 * o.p.toNat + o.c.toNat
    if o.en = 0 ∧ (s.ctx tgt).isNone = true then s.endPkt cx c 1 0 0
    else
      let s := (s.needPart o.p.toNat).startPkt cx c 0 c.body
      (match (s.ctx cx).bind fun x => x.pkts.find? fun p => p.seq == c.seq with
      | some p => s.ctxWork cx p o
      | none => s)

/-! ## PART.DROP -/

/-- A partition that holds no core and no context is destroyed (R298). -/
def State.dropWork (s : State) (cx seq p : Nat) : State :=
  if (s.coresOf p).isEmpty && (s.ctxsOf p).isEmpty && (List.range 32).all fun n => (s.core n).target != some p then
    ({ s with parts := delT s.parts p, fcasts := s.fcasts.filter fun e => e.1 % 16 != p }).complete cx seq 0 0 0
  else s

def execPartDrop (o : PartDropOps) (s : State) : Host.Outcome State Fault Refusal :=
  s.onPart o.p.toNat fun cx _ c => (s.startPkt cx c 0 c.body).dropWork cx c.seq o.p.toNat

end Sys2Proof.Machine
end

