-- ==== Sys2Proof/Machine/Receipt.lean ====
section
/-! DEFINITION. Measured launches (R306 to R314), receipts (R313), batches and their Merkle trees (R315 to R317), and the receipt-key
certificate (R319). -/

namespace Sys2Proof.Machine

/-! ## Validity (R306, R307) -/

/-- A region that does not pass the end of its half of the canonical addresses. -/
def regionOk (a n : Nat) : Bool := isCanon a && (n == 0 || (decide (a + n ≤ 2 ^ 64) && isCanon (a + n - 1)))

/-- The alignments and zero rules of R306. -/
def receiptOk (o : ReceiptOps) : Bool :=
  let ca := o.codea.toNat
  decide (ca % 16 = 0 ∧ o.rdst.toNat % 64 = 0 ∧ o.bdst.toNat % 4096 = 0 ∧ (o.argl = 0 → o.arga = 0) ∧ (o.resl = 0 → o.resa = 0))
    && regionOk ca 16 && regionOk o.arga.toNat o.argl.toNat && regionOk o.resa.toNat o.resl.toNat && regionOk o.rdst.toNat 512
    && regionOk o.bdst.toNat 25680

/-- The `LEN` of a code header; none where it is invalid (R32, R307). -/
def codeLen (h : Nat) : Option Nat := if bits h 0 16 = 0x7A34 ∧ bits h 28 4 = 0 ∧ bits h 64 64 = 0 then some (bits h 32 32) else none

/-- The header and the entry point name a code region (R307). -/
def codeOk (codea len entry : Nat) : Bool := regionOk codea (16 + len) && decide (codea + 16 ≤ entry ∧ entry < codea + 16 + len)

/-! ## Steps 1 to 3 (R310) -/

/-- A RECEIPT found invalid at step 1 or 2: nothing of it is left, and it completes with status 1. -/
def State.receiptBad (s : State) (cx : Nat) (r : Receipt) : State :=
  ((s.unbind cx r.chans.flatten).modCtx cx fun x => { x with receipt := none, holds := [] }).complete cx r.seq 1 0 0

/-- Whether a miss of a read of a range has reached the fault limit: its address and detail. -/
def lostIn (lost : List (Nat × Nat)) (va n : Nat) : Option (Nat × Nat) := lost.find? fun e => decide (va ≤ e.1 ∧ e.1 < va + n)

/-- A range of a measured item reached for reading: a violation, or its own miss once that has reached the fault limit, makes the RECEIPT invalid;
a miss stalls it, and it alone (R361). -/
def State.itemReach (s : State) (cx : Nat) (r : Receipt) (va n : Nat) (go : List (Nat × Nat) → State → State) : State :=
  if (lostIn r.lost va n).isSome then s.receiptBad cx r
  else match s.reach (s.devPort cx) cx va n 1 with
  | .ok ks s => (match s.poisonIn va ks with
    | some g => s.fault cx 12 0 63 15 (g - g % 256) 0 []
    | none => go ks s)
  | .pageFault a st l s => s.pendRead cx a 1 st l (.receipt cx)
  | .prot _ s => s.receiptBad cx r
  | .data g s => s.fault cx 12 0 63 15 g 0 []

/-- Step 3: the block is enqueued with the receipt's tag. -/
def State.receiptEnqueue (s : State) (cx : Nat) (r : Receipt) : State :=
  match s.enqueue cx r.block ⟨r.image, r.npkt, r.chans, r.wkey⟩ ⟨BitVec.ofNat 64 (r.seq * 2 ^ 20), some r.seq, true⟩ none with
  | .ok s => s.modCtx cx fun x => { x with receipt := x.receipt.map fun r => { r with step := 4, lost := [] } }
  | .full _ => s
  | e => s.ringEnq cx (.launch cx) e

/-- Step 2: both items read whole and chained, or neither. -/
def State.receiptItems (s : State) (cx : Nat) (r : Receipt) : State :=
  s.itemReach cx r r.codea (16 + r.clen) fun ks s =>
    s.itemReach cx r r.arga r.argl fun ms s =>
      let hc := sha256 (s.gets ks)
      let ha := sha256 (bytesOfNat 64 r.image ++ s.gets ms)
      let r := { r with step := 3, hcode := hc, harg := ha }
      (s.modCtx cx fun x => { x with
        receipt := some r
        chain := chainStep (chainStep x.chain 1 (16 + r.clen) hc) 2 (64 + r.argl) ha }).receiptEnqueue cx r

/-- The code and argument holds: the code region, the launch block and the argument region (R308, R311). -/
def Receipt.itemHold (r : Receipt) : Hold := ⟨[(r.codea, 16 + r.clen), (r.block, 64), (r.arga, r.argl)], false⟩

/-- The result hold of step 5 (R311). -/
def Receipt.resultHold (r : Receipt) : Hold := ⟨[(r.resa, r.resl)], true⟩

/-- A RECEIPT as its packet starts: what it names, and nothing measured yet. -/
def openReceipt (seq : Nat) (o : ReceiptOps) (m : BitVec 256) (tb : Nat) : Receipt :=
  ⟨seq, 1, o.block.toNat, o.codea.toNat, 0, o.arga.toNat, o.argl.toNat, o.resa.toNat, o.resl.toNat, o.rdst.toNat, o.bdst.toNat, 0, 0, [], none, m, m,
   0, 0, 0, none, false, false, false, false, [], 0, 0, tb, tb⟩

/-- What step 1 records once its checks hold. -/
def Receipt.checked (r : Receipt) (len : Nat) (b : LBlock) (m : BitVec 256) (tb : Nat) : Receipt :=
  { r with step := 2, clen := len, image := b.image, npkt := b.npkt, chans := b.chans, wkey := b.wkey, mbefore := m, mafter := m, lost := [], tbs := tb, tbe := tb }

/-- Step 1 once the header and the block have been read: the entry point and the VF quota are checked, the `BIND` bits set, the holds placed. -/
def State.receiptStart (s : State) (cx : Nat) (r : Receipt) (len : Nat) (b : LBlock) : State :=
  match s.ctx cx with
  | none => s
  | some x =>
    let quota := (s.vf x.setup.vf).qslots
    if codeOk r.codea len (lbEntry b.image) = false ∨ (quota ≠ 0 ∧ quota ≤ s.entriesOf x.setup.vf) then s.receiptBad cx r
    else
      let r := r.checked len b x.chain s.tb
      ((s.bindAll b.chans.flatten).modCtx cx fun x => { x with receipt := some r, holds := [r.itemHold] }).receiptItems cx r

/-- The block of a RECEIPT (R310 step 1): a stall holds the RECEIPT, a violation is a context fault (R361). -/
def blockRead (cx : Nat) (r : Receipt) (b : LR LBlock) (go : LBlock → State → State) : State :=
  match b with
  | .ok b s => go b s
  | .invalid s => s.receiptBad cx r
  | .pageFault va st l s => s.pendRead cx va 1 st l (.launch cx)
  | .prot va s => s.fault cx 3 1 63 15 va 0 []
  | .data va s => s.fault cx 12 0 63 15 va 0 []

/-- Step 1: the header and the block are read and checked. -/
def State.receiptCheck (s : State) (cx : Nat) (r : Receipt) : State :=
  s.itemReach cx r r.codea 16 fun ks s =>
    match codeLen (natOfBytes (s.gets ks)) with
    | none => s.receiptBad cx r
    | some len => blockRead cx r (s.readBlock (s.firstDie (partOf cx)) cx r.block id false) fun b s => s.receiptStart cx r len b

/-- F4 goes on with a RECEIPT that is not enqueued yet and that no fault has ended, also while its context is being exported, as long as none of its
reads is stalled (R310, R330). -/
def State.receiptWork (s : State) (cx : Nat) : State :=
  match s.ctx cx with
  | none => s
  | some x =>
    match x.receipt with
    | none => s
    | some r =>
      if r.faulted || !x.works || x.mig == 4 || s.pendR.any (fun (m : Miss) => m.who == Who.launch cx || m.who == Who.receipt cx) then s
      else if r.step = 1 then s.receiptCheck cx r
      else if r.step = 2 then s.receiptItems cx r
      else if r.step = 3 then s.receiptEnqueue cx r
      else s

/-- A RECEIPT starts in ring order, and F4 takes it over: what holds it holds no other packet (R279, R310, R361). -/
def execReceipt (o : ReceiptOps) (s : State) : Host.Outcome State Fault Refusal :=
  s.onRing fun cx x c =>
    if receiptOk o = false then s.endPkt cx c 1 0 0
    else ((s.startPkt cx c 0 c.body).modCtx cx fun y => { y with receipt := some (openReceipt c.seq o x.chain s.tb) }).receiptWork cx

/-! ## Packets that take effect later -/

/-- Moves go on, and the PART packets of a context that can complete do (R298, R300, R301), and F4 goes on with its RECEIPT (R310). -/
def State.partWork (s : State) (cx : Nat) : State :=
  let s := (List.range 32).foldl (fun s n => s.moveCore n) s
  let ps := ((s.ctx cx).map fun x => x.pkts).getD []
  ps.foldl (fun s p =>
    match decodePacket p.kind p.body with
    | some (.partCores o) =>
      if (maskCores o.mask.toNat).any fun n => (s.core n).target == some o.p.toNat then s else s.complete cx p.seq 0 0 0
    | some (.partDrop o) => s.dropWork cx p.seq o.p.toNat
    | some (.partCtx o) => s.ctxWork cx p o
    | some (.receipt _) => s.receiptWork cx
    | _ => s) s

/-- The ring's turn: what F0 does by itself, and the packet it then works on (R276 to R279). -/
def State.ringTurn (s : State) (cx : Nat) : State × Option Instr :=
  let s := s.partWork cx
  match s.ctx cx with
  | none => (s, none)
  | some x =>
    if !x.parses || s.pendR.any (fun (m : Miss) => m.who == Who.ring cx) then (s, none)
    else match x.cur with
      | none => (s.fetchPkt cx x, none)
      | some _ => (s, x.current)

/-! ## Steps 4 to 6 -/

/-- An item read at step 4 or 5: its bytes, the context fault of R361, or a stall. -/
inductive Item where
  | ok (bs : List Byte) (s : State)
  | bad (cls detail addr : Nat) (s : State)
  | stall (s : State)

def State.item (s : State) (cx va n : Nat) (lost : List (Nat × Nat)) : Item :=
  if let some (a, det) := lostIn lost va n then .bad 6 det a s
  else match s.devRead cx va n with
  | .ok w s => .ok (bytesOfNat n w) s
  | .pageFault a st l s => .stall (s.pendRead cx a 1 st l (.receipt cx))
  | .prot a s => .bad 3 1 a s
  | .data a s => .bad 12 0 a s
  | .invalid s => .stall s

/-- What is made of parts read one after another: their bytes, none where one of them cannot be read, and the faults of those; or the stall of one. -/
inductive Parts where
  | read (bs : Option (List Byte)) (faults : List (Nat × Nat × Nat)) (s : State)
  | stall (s : State)

/-- The parts of an item, each an address and a length. -/
def State.items (s : State) (cx : Nat) (lost : List (Nat × Nat)) : List (Nat × Nat) → Parts
  | [] => .read (some []) [] s
  | (va, n) :: r =>
    match s.item cx va n lost with
    | .stall s => .stall s
    | .ok bs s => (match s.items cx lost r with
      | .read t fs s => .read (t.map fun t => bs ++ t) fs s
      | .stall s => .stall s)
    | .bad c d a s => (match s.items cx lost r with
      | .read _ fs s => .read none ((c, d, a) :: fs) s
      | .stall s => .stall s)

/-- The context faults of F4's reads. -/
def State.itemFaults (s : State) (cx : Nat) (fs : List (Nat × Nat × Nat)) : State := fs.foldl (fun s f => s.fault cx f.1 f.2.1 63 15 f.2.2 0 []) s

/-- Step 4: the code and argument items are hashed again, as they stand in memory, the launch block among them (R308, R311); one that cannot be read has
changed. Their holds end. Step 5 places the result hold, where it is to read a result. -/
def State.recheck (s : State) (cx : Nat) (r : Receipt) : State :=
  match s.items cx r.lost [(r.codea, 16 + r.clen)] with
  | .stall s => s
  | .read code f s =>
    match s.items cx r.lost [(r.block, 64), (r.arga, r.argl)] with
    | .stall s => s
    | .read arg g s =>
      let s := s.modCtx cx fun x => { x with
        holds := if r.faulted then [] else [r.resultHold]
        receipt := x.receipt.map fun r => { r with
          altered := code.map sha256 != some r.hcode || arg.map sha256 != some r.harg, step := 5, lost := [], mafter := x.chain, tbe := s.tb } }
      s.itemFaults cx (f ++ g)

/-- The 256 bytes of a receipt's body (R313). -/
def receiptBody (cx vf : Nat) (r : Receipt) (batch leaf : Nat) : List Byte :=
  let f := fun (b : Bool) n => if b then 2 ^ n else 0
  let pol := match r.hpol with
    | some (some h) => h
    | _ => 0
  bytesOfNat 8 (0x7A52 + 2 ^ 16 + f r.altered 24 + f r.stopped 25 + f r.faulted 26 + f r.polmix 27 + cx % 32 * 2 ^ 32 + partOf cx * 2 ^ 40 + vf * 2 ^ 48)
    ++ bytesOfNat 8 r.seq ++ digestBytes r.mbefore ++ digestBytes r.mafter ++ digestBytes r.hcode ++ digestBytes r.harg ++ digestBytes r.hres
    ++ digestBytes pol ++ bytesOfNat 8 r.pktd ++ bytesOfNat 8 r.pktc ++ bytesOfNat 8 r.tbs ++ bytesOfNat 8 r.tbe ++ bytesOfNat 8 batch ++ bytesOfNat 8 leaf

/-! ## Batches (R315 to R317) -/

def nodeHash (l r : BitVec 256) : BitVec 256 := sha256 (1 :: (digestBytes l ++ digestBytes r))

/-- The level above a level of nodes. -/
def nextLevel : List (BitVec 256) → List (BitVec 256)
  | l :: r :: t => nodeHash l r :: nextLevel t
  | _ => []

/-- Levels 0 to n of a subtree. -/
def levelsOf : Nat → List (BitVec 256) → List (List (BitVec 256))
  | 0, ns => [ns]
  | n + 1, ns => ns :: levelsOf n (nextLevel ns)

/-- The levels of subtree t: 256 leaf positions, and 32 zero bytes where no receipt stands. -/
def subtree (leaves : List (BitVec 256)) (t : Nat) : List (List (BitVec 256)) :=
  let ls := (leaves.drop (256 * t)).take 256
  levelsOf 8 (ls ++ List.replicate (256 - ls.length) 0)

/-- The siblings of a leaf position at levels 0 to 7. -/
def pathOf (levels : List (List (BitVec 256))) (leaf : Nat) : List (BitVec 256) :=
  (List.range 8).map fun l => (levels.getD l []).getD ((leaf % 256 / 2 ^ l) ^^^ 1) 0

/-- The receipt-key certificate (R319). -/
def certificate (s : State) : List Byte :=
  let head := bytesOfNat 8 (0x7A43 + 2 ^ 16) ++ receiptPublic s.startups ++ identityPublic
    ++ digestBytes (sha256 ((List.range 8).flatMap fun f => digestBytes (Config.firmwareDigest f)))
    ++ bytesOfNat 16 (Config.certNonce s.startups).toNat ++ bytesOfNat 8 s.certTb
  head ++ signIdentity s.startups head

/-- Bytes 0 to 575 of a batch record (R316). -/
def batchHead (s : State) (b : Batch) (roots : List (BitVec 256)) : List Byte :=
  bytesOfNat 8 (0x7A42 + 2 ^ 16 + b.leaves.length * 2 ^ 24 + roots.length * 2 ^ 37) ++ bytesOfNat 8 b.number ++ bytesOfNat 8 b.tbo ++ bytesOfNat 8 s.tb
    ++ digestBytes (sha256 (receiptPublic s.startups)) ++ (List.range 16).flatMap fun t => digestBytes (roots.getD t 0)

/-- The batch record (R316). -/
def batchRecord (s : State) (b : Batch) (roots : List (BitVec 256)) : List Byte :=
  let head := batchHead s b roots
  let root := digestBytes (sha256 (3 :: head))
  head ++ root ++ signReceipt s.startups root ++ certificate s

/-- Receipts of closed batches whose writes are done complete their packets (R317 step 4). -/
def State.closeLeaves (s : State) : State :=
  let waits := fun (l : Leaf) => s.pendW.any fun w => w.miss.cx == l.cx && w.kind == 4
  (s.batch.closing.filter fun l => !waits l).foldl (fun s l => s.complete l.cx l.seq (if l.faulted then 3 else 0) 0 0)
    { s with batch := { s.batch with closing := s.batch.closing.filter waits } }

/-- The open batch closes (R317). -/
def State.closeBatch (s : State) : State :=
  let b := s.batch
  let hs := b.leaves.map fun l => sha256 (0 :: bytesOfNat 256 l.body)
  let trees := (List.range (cdiv hs.length 256)).map (subtree hs)
  let roots := trees.map fun t => (t.getD 8 []).getD 0 0
  let rec_ := batchRecord s b roots
  let s := { s with batch := ⟨b.number + 1, 0, [], b.closing ++ b.leaves⟩ }
  let s := b.leaves.zipIdx.foldl (fun s e =>
    s.devWrite e.1.cx 4 e.1.rdst (bytesOfNat 256 e.1.body ++ (pathOf (trees.getD (e.2 / 256) []) e.2).flatMap digestBytes)) s
  let s := ((b.leaves.map fun l => (l.cx, l.bdst)).dedup).foldl (fun s d => s.devWrite d.1 4 d.2 rec_) s
  s.closeLeaves

/-- Whether the open batch has to close (R317). -/
def State.batchDue (s : State) : Bool := s.batch.leaves != [] && (decide (4096 ≤ s.batch.leaves.length) || decide (s.batch.tbo + 10 ^ 6 ≤ s.tb))

/-- BATCH_CLOSE: the batch closes at 4096 receipts, or 10^6 ticks after its first joined (R317). -/
def execBatchClose (s : State) : Host.Outcome State Fault Refusal :=
  .next <|
    let s := s.closeLeaves
    if s.batchDue then s.closeBatch else s

/-- Step 6: the receipt joins the open batch; one that is due closes first. -/
def State.joinBatch (s : State) (cx : Nat) (r : Receipt) : State :=
  let s := if s.batchDue then s.closeBatch else s
  let b := s.batch
  let body := receiptBody cx (s.vfOf cx) r b.number b.leaves.length
  ({ s with batch := { b with
      tbo := if b.leaves.isEmpty then s.tb else b.tbo
      leaves := b.leaves ++ [(⟨cx, r.seq, r.rdst, r.bdst, r.faulted, natOfBytes body⟩ : Leaf)] } } : State).modCtx cx fun x =>
    { x with receipt := none, holds := [] }

/-- Step 5: the result is read and chained. -/
def State.chainResult (s : State) (cx : Nat) (r : Receipt) : State :=
  match s.item cx r.resa r.resl r.lost with
  | .stall s => s
  | .bad c d a s => s.fault cx c d 63 15 a 0 []
  | .ok bs s =>
    match s.ctx cx with
    | none => s
    | some x =>
      let h := sha256 bs
      let m := chainStep x.chain 3 r.resl h
      (s.setCtx cx { x with chain := m }).joinBatch cx { r with hres := h, mafter := m, tbe := s.tb }

/-- Whether the receipt's own work is over (R279, R310). -/
def State.workOver (s : State) (cx : Nat) (x : Ctx) (r : Receipt) : Bool :=
  !cmdsOf x r.seq && (if r.faulted then (s.rowsOfCx cx).all fun n => (s.task n).all fun t => t.pkt != some r.seq
    else (x.pkts.filter fun p => p.seq == r.seq).all fun p => p.live == 0)

/-- RECEIPT_FINISH: steps 4, 5 and 6 once the launch has completed or a context fault has ended it (R310). -/
def execReceiptFinish (cx : Nat) (s : State) : Host.Outcome State Fault Refusal :=
  .next <|
    match s.ctx cx with
    | none => s
    | some x =>
      match x.receipt with
      | none => s
      | some r =>
        if r.step < (if r.faulted then 3 else 4) || !s.workOver cx x r || s.pendR.any (fun (m : Miss) => m.who == Who.receipt cx) then s
        else
          let s := if r.step ≤ 4 then s.recheck cx r else s
          match (s.ctx cx).bind fun x => x.receipt with
          | some r =>
            if r.step ≠ 5 then s
            else if r.faulted then s.joinBatch cx r
            else if s.faulting cx then s
            else s.chainResult cx r
          | none => s

end Sys2Proof.Machine
end

