-- ==== Sys2Proof/Machine/Slices.lean ====
section
/-! DEFINITION. Time slices (R304, R329), and the migration of a context with its watches and stubs (R330, R331). -/

namespace Sys2Proof.Machine

/-! ## Slices (R304) -/

/-- SLICE_END: once the slice's time is over, the outgoing VF dispatches no more, and its pipelines park. -/
def execSliceEnd (part : Nat) (s : State) : Host.Outcome State Fault Refusal :=
  .next <|
    match (s.part part).slice with
    | some (vf, till, false) =>
      if s.tb < till then s
      else
        let s := s.modPart part fun p => { p with slice := some (vf, till, true) }
        ((s.ctxsOf part).filter fun c => s.vfOf c == vf).foldl (fun s c => s.parkAll c fun _ => true) s
    | _ => s

/-- Whether the cores of a partition have been given up: no task is left but those that a drain or a breakpoint froze, or that a drain keeps in Lull, and
every pipeline is parked (R304, R329). -/
def State.vacated (s : State) (part : Nat) : Bool :=
  s.busyRows.all (fun r => (s.task r).all fun t => partOf t.cx != part || t.froDrain || t.froBrk || (t.froPre && s.offCore t.cx (r / 12)))
    && (s.ctxsOf part).all fun c => (s.ctx c).all fun x => x.pipes.all fun p => p.park == 2

/-- Whether a row holds a frozen task whose wait is over, so that its VF's next slice runs it on (R329). -/
def State.thaws (s : State) (r : Nat) : Bool :=
  (s.task r).any fun t => t.frozen && !s.offCore t.cx (r / 12) && (!t.froDrain || !s.translating r) && (!t.froBrk || t.freed)

/-- Whether a context has work for a slice: a ready activation, a pipeline, a PIPE at the head of its ring, a record that waits, or a frozen task whose
wait is over (R304, R329). -/
def State.hasWork (s : State) (cx : Nat) (x : Ctx) : Bool :=
  x.acts.any (fun a => a.ready.isSome) || !x.pipes.isEmpty || x.cur.any (fun c => c.hdr.kind == 2) || !x.withheld.isEmpty
    || s.pendW.any (fun w => w.miss.cx == cx && recClass w.kind == 2) || (s.rowsOfCx cx).any s.thaws

/-- The VF whose turn is next, in ascending tag order after the one before. -/
def State.nextVf (s : State) (part : Nat) (last : Option Nat) : Option Nat :=
  let has := fun v => (s.ctxsOf part).any fun c => s.vfOf c == v && (s.ctx c).any (s.hasWork c)
  let start := match last with
    | some v => v + 1
    | none => 0
  ((List.range 65).map fun i => (start + i) % 65).find? has

/-- A slice boundary permits each core of the partition one handover of its array, while its owner has no new work (R170, log 16). -/
def State.handovers (s : State) (part : Nat) : State := (s.coresOf part).foldl (fun s n => s.modCore n fun c => { c with handover := true }) s

/-- SLICE_START: the next VF starts once the last task of the outgoing one has retired. -/
def execSliceStart (part : Nat) (s : State) : Host.Outcome State Fault Refusal :=
  .next <|
    let p := s.part part
    let done := match p.slice with
      | some (_, _, e) => e
      | none => true
    if p.slen = 0 ∨ done = false ∨ s.vacated part = false then s
    else match s.nextVf part (p.slice.map fun e => e.1) with
      | none => s.modPart part fun p => { p with slice := none }
      | some v =>
        let s := (s.modPart part fun p => { p with slice := some (v, s.tb + p.slen, false) }).handovers part
        ((s.ctxsOf part).filter fun c => s.vfOf c == v).foldl (fun s c => s.wake c) s

/-! ## Export (R330) -/

/-- Whether a word has still to satisfy an activation (R330). -/
def Act.waits (a : Act) : Bool := !a.wok

/-- A channel as its table entry (R47). -/
def Chan.entry (c : Chan) : Nat := (if c.out then 1 else 0) + c.need * 2 ^ 8 + (if c.quad then 2 ^ 16 else 0) + c.hdr * 2 ^ 32

/-- What an entry says of its activation besides: whether it spans, whether its word's value is there, whether the word has satisfied it already, and
how far its barrier group has come (R56, log 19). -/
def entryFlags (x : Ctx) (a : Act) : Nat :=
  let f := fun (b : Bool) n => if b then 2 ^ n else 0
  let g := (x.groups.find? fun g => a.grp == some g.id).getD ⟨0, 0, [], 0, false, none, none⟩
  f (x.spans.any fun p => p.act == a.id) 0 + f a.wkey.isSome 1 + f a.wok 2 + (g.arrived.map fun i => 2 ^ (16 + i % 16)).sum + g.ended % 2 ^ 8 * 2 ^ 32
    + f g.cancelled 40 + f g.succ.isSome 41 + f g.placed.isSome 42 + g.placed.getD 0 % 2 ^ 5 * 2 ^ 43
    + (g.succ.map fun e => e.2.1 % 2 ^ 16 * 2 ^ 48 + e.1.toNat * 2 ^ 64 + e.2.2.toNat * 2 ^ 128).getD 0

/-- An activation that has not been dispatched in the export image, 320 bytes in a layout of the model's own (log 19). -/
def waitEntry (s : State) (x : Ctx) (a : Act) : List Byte :=
  let span := x.spans.find? fun p => p.act == a.id
  bytesOfNat 64 (actImage s.mem x a)
    ++ bytesOfNat 8 (a.npkt % 2 ^ 16 + a.gid * 2 ^ 16 + a.chans.length * 2 ^ 24 + (if a.bound then 2 ^ 32 else 0) + a.qsel * 2 ^ 40
      + (if a.receipt then 2 ^ 48 else 0))
    ++ bytesOfNat 8 a.blk ++ bytesOfNat 8 a.tid.toNat ++ bytesOfNat 8 (a.pkt.getD 0) ++ bytesOfNat 8 (getN s.mem (a.wkey.getD 0) 8)
    ++ bytesOfNat 8 a.id ++ bytesOfNat 8 (a.grp.getD 0) ++ bytesOfNat 8 ((span.map fun p => p.q).getD 0)
    ++ ((List.range 4).flatMap fun d => let r := (span.map fun p => p.range d).getD (0, 0); bytesOfNat 4 r.1 ++ bytesOfNat 4 r.2)
    ++ ((List.range 16).flatMap fun i => bytesOfNat 8 ((a.chans[i]?.map Chan.entry).getD 0)) ++ bytesOfNat 32 (entryFlags x a)

/-- Whether an open packet travels with its work: a LAUNCH, a PIPE or a RECEIPT (R279, log 19). -/
def Pkt.travels (p : Pkt) : Bool := p.kind == 1 || p.kind == 2 || p.kind == 6

/-- An open packet in the export image, 96 bytes in a layout of the model's own (log 19). -/
def pktEntry (p : Pkt) : List Byte :=
  bytesOfNat 8 p.seq ++ bytesOfNat 8 (p.kind % 2 ^ 8 + p.rel % 2 ^ 8 * 2 ^ 8 + (if p.crec then 2 ^ 16 else 0) + if p.irq then 2 ^ 17 else 0)
    ++ bytesOfNat 8 p.live ++ bytesOfNat 8 0 ++ bytesOfNat 64 p.body

/-- A RECEIPT in the export image, 2688 bytes in a layout of the model's own (log 19). -/
def receiptEntry (r : Receipt) : List Byte :=
  let f := fun (b : Bool) n => if b then 2 ^ n else 0
  let chans := fun m => r.chans.getD m []
  ([r.seq, r.step, r.block, r.codea, r.clen, r.arga, r.argl, r.resa, r.resl, r.rdst, r.bdst, r.npkt, r.pktd, r.pktc, r.tbs, r.tbe].flatMap (bytesOfNat 8))
    ++ bytesOfNat 32 (f r.altered 0 + f r.stopped 1 + f r.faulted 2 + f r.polmix 3 + f r.hpol.isSome 4 + f (r.hpol.any Option.isSome) 5 + r.chans.length * 2 ^ 8)
    ++ [r.mbefore, r.mafter, r.hcode, r.harg, r.hres, (r.hpol.bind id).getD 0].flatMap digestBytes
    ++ bytesOfNat 32 0 ++ bytesOfNat 64 r.image ++ bytesOfNat 64 0
    ++ ((List.range 16).flatMap fun m => (List.range 16).flatMap fun i => bytesOfNat 8 (((chans m)[i]?.map Chan.entry).getD 0))
    ++ (List.range 16).flatMap fun m => bytesOfNat 8 (chans m).length

/-- The WAIT packet at the head of the ring that has begun, if there is one. -/
def Ctx.waitPkt (x : Ctx) : Option Cur := x.cur.filter fun c => c.started

/-- The ring position that travels: a packet that F0 has read and not begun is read again at the destination. -/
def Ctx.position (x : Ctx) : Nat :=
  match x.cur with
  | some c => if c.started then x.consumed.toNat else c.seq - 1
  | none => x.consumed.toNat

/-- The value of its word that a WAIT travels with: one that satisfies it where its comparison has held, none where its word is not translated yet. -/
def Cur.word (c : Cur) (m : List Host.Cell) : Option Nat := if c.wok then some c.wval.toNat else c.wkey.map fun k => getN m k 8

/-- The cores of a partition whose array or slots a context has used (R329). -/
def State.usedCores (s : State) (cx : Nat) (x : Ctx) : List Nat :=
  (List.range 32).filter fun n => (s.core n).owner == some cx || x.images.contains n || x.slots.any fun e => e.1 / 16 == n

/-- The image of a core as it stands: its array as it runs, or as its image in the context area holds it, and the context's present slots. -/
def State.coreShown (s : State) (cx : Nat) (x : Ctx) (n : Nat) : LR (List Byte) :=
  let tail := (coreImage s x n).drop 0x60800
  if (s.core n).owner = some cx then .ok (coreImage s x n) s
  else if x.images.contains n then (s.devReadAt (n / 8) cx (imageAt x n) 0x60800).bind fun w s => .ok (bytesOfNat 0x60800 w ++ tail) s
  else .ok (List.replicate 0x60800 0 ++ tail) s

def State.coresShown (s : State) (cx : Nat) (x : Ctx) : List Nat → LR (List (Nat × List Byte))
  | [] => .ok [] s
  | n :: r => (s.coreShown cx x n).bind fun b s => (s.coresShown cx x r).bind fun bs s => .ok ((n, b) :: bs) s

/-- The export image (R330): the chain value, the ring positions, the context it comes from, the slots, the array images of the cores it has used,
and every pending wait; with those the activations that their words have satisfied and that have not been dispatched, the open packets of their
launches and the RECEIPT, since nothing is discarded. -/
def exportImage (s : State) (cx : Nat) (x : Ctx) (arrays : List (Nat × List Byte)) : List Byte :=
  let c := x.waitPkt
  let ps := x.pkts.filter Pkt.travels
  digestBytes x.chain ++ bytesOfNat 8 x.doorbell.toNat ++ bytesOfNat 8 x.position ++ bytesOfNat 8 x.recs.toNat
    ++ bytesOfNat 8 ((arrays.map fun e => 2 ^ e.1).sum) ++ bytesOfNat 8 x.acts.length
    ++ bytesOfNat 8 x.nextId ++ bytesOfNat 8 ((c.map fun c => c.seq).getD 0)
    ++ bytesOfNat 8 ((c.bind fun c => c.until_).getD 0) ++ bytesOfNat 8 ((c.bind fun c => c.word s.mem).getD 0) ++ bytesOfNat 8 (originOf cx)
    ++ bytesOfNat 16 (if (c.bind fun c => c.word s.mem).isSome then 1 else 0)
    ++ bytesOfNat 64 ((c.map fun c => c.body).getD 0) ++ bytesOfNat 8 ps.length ++ bytesOfNat 56 (if x.receipt.isSome then 1 else 0)
    ++ ((List.range 512).flatMap fun k => let q := getT x.slots k ⟨false, 0⟩; bytesOfNat 8 (q.pend % 2 ^ 32 + if q.set then 2 ^ 32 else 0))
    ++ (arrays.flatMap Prod.snd) ++ x.acts.flatMap (waitEntry s x) ++ ps.flatMap pktEntry ++ (x.receipt.map receiptEntry).getD []

/-- Whether a stalled read is F0's, of its ring or of a wait word: what it was to read travels, and is read again at the destination. -/
def Who.ofRing (w : Who) (cx : Nat) : Bool :=
  match w with
  | .ring c => c == cx
  | .ready c _ => c == cx
  | _ => false

/-- Whether a RECEIPT can travel: it is to be enqueued, or activations of its launch have not been dispatched, and no fault has ended it (R310, R330). -/
def Ctx.receiptMoves (x : Ctx) (r : Receipt) : Bool := !r.faulted && (r.step == 3 || (r.step == 4 && x.acts.any fun a => a.receipt))

/-- Whether everything an export waits for is over: tasks retired, pipelines parked, commands complete, records written, those of closed batches among
them. -/
def State.still (s : State) (cx : Nat) (x : Ctx) : Bool :=
  (s.rowsOfCx cx).isEmpty && x.eqs.all (fun e => e.2.cmds.isEmpty) && x.pipes.all (fun p => p.park == 2) && x.receipt.all x.receiptMoves
    && x.withheld.isEmpty && (s.batch.leaves ++ s.batch.closing).all (fun l => l.cx != cx)
    && s.pendR.all (fun m => m.cx != cx || m.who.ofRing cx) && s.pendW.all fun w => w.miss.cx != cx

def State.setMig (s : State) (cx n : Nat) : State := s.modCtx cx fun x => { x with mig := n }

/-- How F2 goes on after a read: a stall waits for the page service, and what cannot be read is the context fault of R361, after which `fail` says
how things stand. -/
def LR.go {α : Type} (r : LR α) (cx : Nat) (fail : State → State) (f : α → State → State) : State :=
  match r with
  | .ok a s => f a s
  | .invalid s => s
  | .pageFault a st l s => s.pendRead cx a 1 st l (.record cx 6 (s.firstDie (partOf cx)))
  | .prot a s => fail (s.fault cx 3 1 63 15 a 0 [])
  | .data a s => fail (s.fault cx 12 0 63 15 a 0 [])

/-- The same after a write. -/
def Dev.go (r : Dev) (cx : Nat) (fail : State → State) (f : State → State) : State :=
  match r with
  | .ok s => f s
  | .pageFault a st l s => s.pendRead cx a 2 st l (.record cx 6 (s.firstDie (partOf cx)))
  | .prot a s => fail (s.fault cx 3 2 63 15 a 0 [])
  | .data a s => fail (s.fault cx 12 0 63 15 a 0 [])

/-- One of each word. -/
def distinctWords (l : List (Nat × Nat)) : List (Nat × Nat) := l.foldl (fun ws w => if ws.any fun v => v.1 == w.1 then ws else ws ++ [w]) []

/-- The words of the pending waits, with their addresses: each word once, however many wait on it (R331). -/
def Ctx.waitWords (s : State) (x : Ctx) : List (Nat × Nat) :=
  distinctWords <| ((x.acts.filter Act.waits).filterMap fun a => a.wkey.map fun k => (k, lbWaddr (actImage s.mem x a)))
    ++ (((x.waitPkt.filter fun c => !c.wok).bind fun c => match decodePacket (bits c.body 0 8) c.body, c.wkey with
      | some (.wait o), some k => some (k, o.addr.toNat)
      | _, _ => none)).toList

/-- The addresses of the words of pending waits that have not been found yet. -/
def Ctx.unfound (s : State) (x : Ctx) : List Nat :=
  ((x.acts.filter fun a => a.waits && a.wkey.isNone).map fun a => lbWaddr (actImage s.mem x a))
    ++ (((x.waitPkt.filter fun c => !c.wok && c.wkey.isNone).bind fun c => match decodePacket (bits c.body 0 8) c.body with
      | some (.wait o) => some o.addr.toNat
      | _ => none)).toList

/-- Words read by the export. -/
def State.readWords (s : State) (cx : Nat) : List Nat → LR Unit
  | [] => .ok () s
  | va :: r => (s.devRead cx va 8).bind fun _ s => s.readWords cx r

/-- The location of a word in a context's address space. -/
def State.watchKey (s : State) (cx va : Nat) : Option Nat :=
  match s.xlate (s.devPort cx) cx va 1 with
  | (.ok e, _) => some (entKey e va)
  | _ => none

/-- A WAIT that has begun, its word found and compared. -/
def State.foundCur (s : State) (cx : Nat) (c : Cur) : Cur :=
  match decodePacket (bits c.body 0 8) c.body with
  | some (.wait o) =>
    let wk := s.watchKey cx o.addr.toNat
    { c with wkey := wk, wok := wk.any fun k => waitHolds (if o.op = 1 then 2 else 1) (getN s.mem k 8) o.value.toNat }
  | _ => c

/-- Every word of a pending wait that can be read has its location, and has been compared there. -/
def State.findWords (s : State) (cx : Nat) (x : Ctx) : State :=
  let s := (x.acts.filter Act.waits).foldl (fun s a => s.findWait cx a (actImage s.mem x a)) s
  s.modCtx cx fun y => { y with cur := y.cur.map fun c => if c.started && !c.wok && c.wkey.isNone then s.foundCur cx c else c }

/-- The export image is written, and stubs stay on the words of the pending waits (R331). The export reads a word that has not been found yet, and waits
where that stalls; a LAUNCH whose copy waits lets its channels go, and its block is read again at the destination. -/
def State.exportNow (s : State) (cx : Nat) : State :=
  match s.ctx cx with
  | none => s
  | some x =>
    if s.pendR.any fun m => m.who.isRecord cx 6 then s
    else (s.readWords cx (x.unfound s)).go cx (fun s => s.setMig cx 3) fun _ s =>
      let s := ({ s with pendR := s.pendR.filter fun (m : Miss) => !m.who.ofRing cx }.findWords cx x).unhold cx (x.cur.bind fun c => c.block)
      let s := s.modCtx cx fun y => { y with cur := y.cur.map fun c => { c with block := none } }
      match s.ctx cx with
      | none => s
      | some x =>
       if let some g := x.acts.findSome? s.entryPoison then (s.fault cx 12 0 63 15 g 0 []).setMig cx 3 else
       (s.coresShown cx x (s.usedCores cx x)).go cx (fun s => s.setMig cx 3) fun arrays s =>
       (s.devTry (s.firstDie (partOf cx)) cx 6 (x.setup.area + 0xC21000) (exportImage s cx x arrays)).go cx (fun s => s.setMig cx 3) fun s =>
        s.modCtx cx fun y => { y with mig := 4, stubs := x.waitWords s }

/-- Whether a drain has frozen a task of a context (R247 step 3). -/
def State.drainFrozen (s : State) (cx : Nat) : Bool := (s.rowsOfCx cx).any fun r => (s.task r).any fun t => t.froDrain && s.stands r t

/-- EXPORT: the context comes to rest without losing anything, and its image is written; an export that finds a drain-frozen task fails. -/
def execExportCtx (cx : Nat) (s : State) : Host.Outcome State Fault Refusal :=
  .next <|
    match s.ctx cx with
    | none => s
    | some x =>
      if x.mig = 4 then s
      else if s.drainFrozen cx || !x.setup.areaOk then
        (let s := s.setMig cx 3; if x.mig = 1 then s.resumePipes cx else s)
      else
        let s := if x.mig = 1 then s else (s.setMig cx 1).parkAll cx fun _ => true
        match s.ctx cx with
        | some x => if s.still cx x then s.exportNow cx else s
        | none => s

/-! ## Import -/

/-- A channel of an entry as a task on the block's core meets it (R47, R59). -/
def chanOf (w e : Nat) : Chan :=
  let quad := bits e 16 2 == 1
  ⟨e % 2 == 1, quad, bits e 8 8, bits e 32 32,
    if quad then (if lbPlace w = 0 then some (rebase (lbTgt w) (bits e 32 32)) else none) else some (padKey (lbTgt w) (bits e 32 32))⟩

/-- The word of an imported wait: a poisoned one is a data error (R328). -/
def State.watchPoison (s : State) (cx va : Nat) : State :=
  match (s.watchKey cx va).bind fun k => s.poisoned k 8 with
  | some _ => s.fault cx 12 0 63 15 (va - va % 256) 0 []
  | none => s

/-- The barrier group of an imported activation, as far as it had come (R56). -/
def importGroup (g size f : Nat) : Grp :=
  ⟨g, size, (List.range 16).filter fun i => bits f (16 + i) 1 == 1, bits f 32 8, bits f 40 1 == 1, if bits f 42 1 = 1 then some (bits f 43 5) else none,
    if bits f 41 1 = 1 then some (BitVec.ofNat 64 (bits f 64 64), bits f 48 16, BitVec.ofNat 64 (bits f 128 64)) else none⟩

/-- An activation installed, from the bytes of its entry at an address: its copy stands in the image, and its word is compared at once, with the image's
value and the destination's (R328, R331). -/
def State.importWait (s : State) (cx va entry : Nat) : State :=
  let key := (s.watchKey cx va).getD 0
  let w := entry % 2 ^ 512
  let h := entry / 2 ^ 512
  let f := bits h 1792 256
  let wk := if lbWkind w = 0 then none else s.watchKey cx (lbWaddr w)
  let ok := bits f 2 1 == 1 || lbWkind w == 0 || (bits f 1 1 == 1 && waitHolds (lbWkind w) (bits h 256 64) (lbWval w))
    || wk.any fun k => waitHolds (lbWkind w) (getN s.mem k 8) (lbWval w)
  let cs := (List.range (bits h 24 8)).map fun i => chanOf w (bits h (768 + 64 * i) 64)
  let opt := fun n => if n = 0 then none else some n
  let id := bits h 320 64
  let bound := bits h 32 1 == 1
  let a : Act := ⟨id, bits h 40 3, va, 0, key, bits h 64 64, bits h 0 16, BitVec.ofNat 64 (bits h 128 64), bits h 16 8, opt (bits h 192 64),
    opt (bits h 384 64), bits h 48 1 == 1, wk, ok, none, bound, cs⟩
  let sp : List Span := if bits f 0 1 = 0 then [] else
    let rs := (List.range 4).map fun d => (d, bits h (512 + 64 * d) 32, bits h (544 + 64 * d) 32)
    [⟨id, bits h 448 64, (rs.map fun r => r.2.2).foldl max 0, rs⟩]
  (if lbWkind w = 0 then s else s.watchPoison cx (lbWaddr w)).modCtx cx fun x => { x with
    acts := x.acts ++ [a], spans := x.spans ++ sp
    bounds := if bound then x.bounds ++ [⟨id, a.blk, w, a.npkt, BitVec.ofNat 64 (bits h 128 64 / 16), 0, a.qsel, cs⟩] else x.bounds
    groups := match a.grp with
      | some g => if x.groups.any fun o => o.id == g then x.groups else x.groups ++ [importGroup g (lbGsz w) f]
      | none => x.groups }

/-- The WAIT packet that had begun stands at the head of the ring again. -/
def importCur (s : State) (cx seq till : Nat) (word : Option Nat) (body : Nat) : Option Cur :=
  if seq = 0 then none
  else match decodePktHdr (body % 2 ^ 64), decodePacket (bits body 0 8) body with
    | some h, some (.wait o) =>
      let wk := s.watchKey cx o.addr.toNat
      let kind := if o.op = 1 then 2 else 1
      some ⟨seq, h, body, true, wk, o.value, o.op == 1,
        word.any (fun v => waitHolds kind v o.value.toNat) || wk.any (fun k => waitHolds kind (getN s.mem k 8) o.value.toNat),
        if till = 0 then none else some till, none, none, none⟩
    | _, _ => none

/-- A digest from its bytes in a record (R313). -/
def digestOf (w lo : Nat) : BitVec 256 := BitVec.ofNat 256 (natOfBytes (bytesOfNat 32 (bits w lo 256)).reverse)

/-- The image's first part installed: chain, ring positions, origin, slots. -/
def State.importHead (s : State) (cx h : Nat) (body : Nat) (slots : Nat) : State :=
  let word := if bits h 896 1 = 1 then some (bits h 768 64) else none
  let cur := importCur s cx (bits h 640 64) (bits h 704 64) word body
  let chain := digestOf h 0
  let table := (List.range 512).filterMap fun k => let d := bits slots (64 * k) 64; if d = 0 then none else some (k, (⟨bits d 32 1 == 1, bits d 0 32⟩ : Slot))
  (match cur with
    | some c => (match decodePacket (bits c.body 0 8) c.body with
      | some (.wait o) => s.watchPoison cx o.addr.toNat
      | _ => s)
    | none => s).modCtx cx fun x => { x with
    chain := chain, doorbell := BitVec.ofNat 64 (bits h 256 64), consumed := BitVec.ofNat 64 (bits h 320 64), recs := BitVec.ofNat 64 (bits h 384 64)
    origin := some (bits h 832 64), slots := table, cur := cur, nextId := bits h 576 64 }

/-- The array images of the image, each written to its place in the area (R329). -/
def State.importArrays (s : State) (cx : Nat) (x : Ctx) (bs : List Byte) : List Nat → State
  | [] => s
  | n :: r => ((s.devWriteAt (n / 8) cx 5 (imageAt x n) (bs.take 0x61000)).modCtx cx fun y => { y with images := n :: y.images.filter fun m => m != n }).importArrays
      cx x (bs.drop 0x61000) r

/-- The first `n` pending waits of an image installed, whose entries stand from an address on. -/
def State.importWaits (s : State) (cx : Nat) (bs : List Byte) (at_ : Nat) : Nat → State
  | 0 => s
  | n + 1 => (s.importWaits cx bs at_ n).importWait cx ((at_ + 320 * n) % 2 ^ 64) (natOfBytes ((bs.drop (320 * n)).take 320))

/-- An open packet from its entry. -/
def pktOf (e : Nat) : Pkt := ⟨bits e 0 64, bits e 64 8, bits e 72 8, bits e 80 1 == 1, bits e 81 1 == 1, bits e 128 64, bits e 256 512⟩

/-- A RECEIPT from its entry, with the location that its wait word has here. -/
def State.receiptOf (s : State) (cx e : Nat) : Receipt :=
  let n := fun i => bits e (64 * i) 64
  let f := fun i => bits e (1024 + i) 1 == 1
  let d := fun i => digestOf e (1280 + 256 * i)
  let image := bits e 3072 512
  let chans := (List.range (bits e 1032 8)).map fun m => (List.range (bits e (20480 + 64 * m) 64)).map fun i => chanOf image (bits e (4096 + 1024 * m + 64 * i) 64)
  ⟨n 0, n 1, n 2, n 3, n 4, n 5, n 6, n 7, n 8, n 9, n 10, image, n 11, chans, if lbWkind image = 0 then none else s.watchKey cx (lbWaddr image),
   d 0, d 1, d 2, d 3, d 4, if f 4 then some (if f 5 then some (d 5) else none) else none, f 0, f 1, f 2, f 3, [], n 12, n 13, n 14, n 15⟩

/-- The open packets of an image and its RECEIPT installed, the RECEIPT with the holds on its items (R311). -/
def State.importOpen (s : State) (cx np rc : Nat) (bs : List Byte) : State :=
  let r := if rc = 0 then none else some (s.receiptOf cx (natOfBytes ((bs.drop (96 * np)).take 2688)))
  s.modCtx cx fun x => { x with
    pkts := (List.range np).map fun i => pktOf (natOfBytes ((bs.drop (96 * i)).take 96))
    receipt := r, holds := (r.map Receipt.itemHold).toList }

/-- Forwarded writes that came before their context was here are performed on its copies (R331). -/
def State.takeEarly (s : State) (cx : Nat) : State :=
  let origin := (s.ctx cx).bind fun x => x.origin
  (s.early.filter fun e => some e.1 == origin).foldl (fun s e => s.devWrite cx 6 e.2.1 e.2.2)
    { s with early := s.early.filter fun e => some e.1 != origin }

/-- IMPORT: the export image in the context area is installed (R330). -/
def execImportCtx (cx : Nat) (s : State) : Host.Outcome State Fault Refusal :=
  .next <|
    match s.ctx cx with
    | none => s
    | some x =>
      let at_ := x.setup.area + 0xC21000
      let die := s.firstDie (partOf cx)
      if !x.setup.areaOk then s.setMig cx 3
      else if s.pendR.any (fun (m : Miss) => m.who.isRecord cx 6) then s
      else ((s.setMig cx 1).devReadAt die cx at_ 4352).go cx (fun s => s.setMig cx 3) fun w s =>
        let n := bits w 512 64
        let cores := (List.range 32).filter fun n => bits w (448 + n) 1 == 1
        let np := bits w 1536 64
        let rc := bits w 1600 1
        let m := 0x61000 * cores.length
        let len := m + 320 * n + 96 * np + 2688 * rc
        (s.devReadAt die cx (at_ + 4352) len).go cx (fun s => s.setMig cx 3) fun v s =>
          let bs := bytesOfNat len v
          let s := (s.importHead cx (w % 2 ^ 1024) (bits w 1024 512) (w / 2 ^ 2048)).importArrays cx x bs cores
          (((s.importWaits cx (bs.drop m) (at_ + 4352 + m) n).importOpen cx np rc (bs.drop (m + 320 * n))).setMig cx 2).takeEarly cx

/-- RELEASE_STUBS: the stubs that the source kept end (R331). -/
def execReleaseStubs (cx : Nat) (s : State) : Host.Outcome State Fault Refusal := .next (s.modCtx cx fun x => { x with stubs := [] })

end Sys2Proof.Machine
end

