-- ==== Sys2Proof/Machine/Debug.lean ====
section
/-! DEFINITION. Stops, releases and live dumps of a context (R355 to R357). -/

namespace Sys2Proof.Machine

/-- Whether a stop is done: every row's task stands frozen (R322), issued commands have completed, and every pipeline is cut (R356). -/
def State.stopDone (s : State) (cx : Nat) (x : Ctx) : Bool :=
  (s.rowsOfCx cx).all (fun r => (s.task r).all (s.stands r)) && x.eqs.all (fun e => e.2.cmds.all Cmd.waits)
    && x.pipes.all fun p => (p.cut == 3 || p.park == 2) && p.hosts.all fun h => !h.busy && h.st != .saving && h.st != .restoring

/-- A stop begins or goes on (R356): dispatch and issue cease, pipelines are cut, and `STATE` 2 follows once all is done. -/
def State.stopGo (s : State) (cx : Nat) (dump : Bool) : State :=
  match s.ctx cx with
  | none => s
  | some x =>
    let s := s.setCtx cx { x with dbg := { x.dbg with state := if x.dbg.state = 0 then 1 else x.dbg.state
                                                      dumping := if x.dbg.state = 0 then dump else x.dbg.dumping } }
    if 2 ≤ x.dbg.state then s
    else
      let s := s.cutAll cx fun _ => true
      match s.ctx cx with
      | some x => if s.stopDone cx x then s.setCtx cx { x with dbg := { x.dbg with state := if x.dbg.dumping then 3 else 2 } } else s
      | none => s

/-- DEBUG_STOP: a stop is asked for, or the one under way is complete. -/
def execDebugStop (cx : Nat) (s : State) : Host.Outcome State Fault Refusal := .next (s.stopGo cx false)

/-- Release: dispatch, issue and the cuts resume, but for those on cores that a drain concerns (R247), and so do tasks that `BRK` froze, those of a
descheduled VF in its next slice (R109, R329, R356). -/
def State.debugFree (s : State) (cx : Nat) : State :=
  let s := s.modCtx cx fun x => { x with dbg := { x.dbg with state := 0, dumping := false } }
  (((s.rowsOfCx cx).foldl (fun s r => match s.task r with
    | some t => s.setTask r (some { t with freed := t.froBrk })
    | none => s) s).thawCtx cx).uncutAll cx

/-- DEBUG_RELEASE: in every `STATE`; a dump that still stalls is given up. -/
def execDebugRelease (cx : Nat) (s : State) : Host.Outcome State Fault Refusal :=
  .next ({ s with pendR := s.pendR.filter fun (m : Miss) => !m.who.isRecord cx 6 }.debugFree cx)

/-! ## Live dumps (R357) -/

/-- The pad range of each core of the partition, then the die-pad range of each of their dies. -/
def State.dumpPads (s : State) (cx : Nat) (x : Ctx) : List Byte :=
  let cs := s.coresOf (partOf cx)
  (cs.flatMap fun n => getBs s.mem (padKey n (x.setup.padlo * 65536)) (x.setup.padn * 65536))
    ++ ((List.range 4).filter fun d => cs.any fun n => n / 8 == d).flatMap fun d => getBs s.mem (dieKey d (x.setup.dielo * 2 ^ 20)) (x.setup.dien * 2 ^ 20)

/-- A frozen row as a debugger reads it (R323): its live state while it is drowsy, its image while it is gated. Neither changes the row. -/
def State.rowShown (s : State) (r : Nat) : List Byte :=
  match s.task r with
  | none => []
  | some t => if (s.row r).gated then getBs s.mem (padKey (r / 12) (0x6E0000 + 0x18000 * (r % 12))) 0x18000 else rowImage s t

/-- The frozen rows of a context, in ascending order, after its pads; their images stand in no pad range of the context (log 32). -/
def State.dumpRows (s : State) (cx : Nat) : List Byte := ((s.rowsOfCx cx).filter fun r => (s.task r).any Task.frozen).flatMap s.rowShown

/-- The writes of a dump in order; a miss stalls it, and a violation is the context fault of R361. -/
def State.dumpWrite (s : State) (cx : Nat) : List (Nat × List Byte) → State
  | [] => s.debugFree cx
  | (a, b) :: r => (s.devTry (s.firstDie (partOf cx)) cx 6 a b).go cx id fun s => s.dumpWrite cx r

/-- The stopped context is copied to `DUMPA`: the record, the core images with the context's present slots, the pads, the frozen rows. -/
def State.dumpNow (s : State) (cx : Nat) : State :=
  match s.ctx cx with
  | none => s
  | some x =>
    let f : FaultRec := ⟨0, 0, 63, 15, 0, 0, s.tb, pktSeq x, 0, 0, 0, []⟩
    let at_ := x.dbg.dumpa.toNat
    (s.coresShown cx x (s.usedCores cx x)).go cx id fun cs s =>
      s.dumpWrite cx (((at_, faultBytes x f) :: cs.map fun e => (at_ + 0x1000 + 0x61000 * e.1, e.2)) ++ [(at_ + 0xC21000, s.dumpPads cx x ++ s.dumpRows cx)])

/-- LIVE_DUMP: a stop, the copy, and a release. -/
def execLiveDump (cx : Nat) (s : State) : Host.Outcome State Fault Refusal :=
  .next <|
    if s.pendR.any (fun (m : Miss) => m.who.isRecord cx 6) then s
    else
      let s := s.stopGo cx true
      if (s.ctx cx).any fun x => x.dbg.state == 3 then s.dumpNow cx else s

end Sys2Proof.Machine
end

