-- ==== Sys2Proof/Machine/Regs.lean ====
section
/-! DEFINITION. The register space of the functions (R276, R280, R298, R327, R330, R336, R339, R340, R345, R350, R351, R355): claims and reads
of counter banks (R353, R354), the voltage report (R340), and register reads and writes (R6). -/

namespace Sys2Proof.Machine

/-! ## Counter banks (R351 to R353) -/

/-- The bank as a host claim leaves it when a guest holds it: what the host then finds in its counters the spec does not say (log 3). -/
def Bank.takeOver (b : Bank) (n : Nat) : Bank :=
  let f := fun i => Config.freeWord (n + i)
  { own := 1, ovf := 0, snap := (f 24).getLsbD 0, sel := Vector.ofFn fun k => (f k.val).setWidth 8, cnt := Vector.ofFn fun k => f (8 + k.val)
    icnt := Vector.ofFn fun k => f (16 + k.val), iseq := f 25, aside := some ⟨b.ovf, b.snap, b.sel, b.cnt, b.icnt, b.iseq⟩ }

/-- There are 36 banks (R351), and the functions have the tags 0 and 1 to 64 (R344). -/
def isBank (vf bank : Nat) : Bool := decide (vf ≤ 64 ∧ bank < 36)

/-- CLAIM: the host takes a bank that it does not hold, a guest a free one. -/
def execClaim (vf bank : Nat) (s : State) : Host.Outcome State Fault Refusal :=
  .next <|
    let b := s.bank bank
    if !isBank vf bank then s
    else if vf = 0 then
      (if b.own = 0 then s.setBank bank { b with own := 1, ovf := 0 }
       else if b.own = 2 then { s with freeCtr := s.freeCtr + 26 }.setBank bank (b.takeOver s.freeCtr)
       else s)
    else if b.own = 0 then s.setBank bank { b with own := 2, ovf := vf }
    else s

/-- Whether a function holds a bank. -/
def Bank.heldBy (b : Bank) (vf : Nat) : Bool := if vf = 0 then b.own == 1 else b.own == 2 && b.ovf == vf

/-- RELEASE: the bank is free, or a guest's hold that was set aside returns. -/
def execRelease (vf bank : Nat) (s : State) : Host.Outcome State Fault Refusal :=
  .next <|
    let b := s.bank bank
    if b.heldBy vf then
      match b.aside with
      | some g => s.setBank bank ⟨2, g.vf, g.snap, g.sel, g.cnt, g.icnt, g.iseq, none⟩
      | none => s.setBank bank { b with own := 0, ovf := 0 }
    else s

/-- Whether a function reads and writes a bank's registers: it holds it, or nobody does (R351, R353). -/
def Bank.opens (b : Bank) (vf : Nat) : Bool := b.heldBy vf || b.own == 0

/-- CLEAR_COUNTERS: `CNT`, `ICNT` and `ISEQ` become zero; with a die's bank its request counters are cleared too (R230). -/
def execClearCounters (vf bank : Nat) (s : State) : Host.Outcome State Fault Refusal :=
  .next <|
    let b := s.bank bank
    if isBank vf bank && b.opens vf then
      let s := s.setBank bank { b with cnt := Vector.replicate 8 0, icnt := Vector.replicate 8 0, iseq := 0 }
      if bank < 32 then s else s.modDie (bank - 32) fun d => { d with localRq := 0, remoteRq := 0 }
    else s

/-- A counter of a bank: `CNT`k, `ICNT`k as 8 + k, and `ISEQ` as 16. -/
def Bank.counter (b : Bank) (k : Nat) : Word := if k < 8 then b.cnt.toList.getD k 0 else if k < 16 then b.icnt.toList.getD (k - 8) 0 else b.iseq

/-- What a function reads of a counter: its value where the function holds the bank or nobody does; 0 for a guest set aside; for any other function
the spec does not say (log 3). -/
def State.counterOf (s : State) (vf bank k : Nat) : Word :=
  let b := s.bank bank
  if b.opens vf then b.counter k
  else if b.aside.any (fun (g : BankSave) => g.vf == vf) then 0
  else Config.freeWord s.freeCtr

/-- COUNTER_LOW_READ: the low half is read, and the high half goes to the function's shadow (R354). -/
def execCounterLowRead (vf bank k : Nat) (s : State) : Host.Outcome State Fault Refusal :=
  .next <|
    let v := s.counterOf vf bank k
    if !isBank vf bank then s
    else { s with freeCtr := s.freeCtr + 1, lastRead := bytesOfNat 4 v.toNat }.setVf vf { s.vf vf with shadow := (v >>> 32).setWidth 32 }

/-! ## The voltage report (R340) -/

/-- The first doubleword of a report. -/
def Die.report (d : Die) : Word := BitVec.ofNat 64 (d.mv.toNat + d.sensor.toNat * 2 ^ 12 + d.island.toNat * 2 ^ 24)

def Die.latch (d : Die) : Die := { d with latched := d.stamp }

def execVoltageReportRead (die : Nat) (s : State) : Host.Outcome State Fault Refusal :=
  .next ({ s with lastRead := bytesOfNat 8 (s.die die).report.toNat }.modDie die Die.latch)

/-- VOLTAGE_REPORT_CLEAR: the pair is latched, then cleared. -/
def execVoltageReportClear (die : Nat) (s : State) : Host.Outcome State Fault Refusal :=
  .next (s.modDie die fun d => { d.latch with mv := 0xFFF, sensor := 0, island := 0, stamp := 0 })

/-- VOLTAGE_MINIMUM: a reading below the lowest seen replaces the report. -/
def execVoltageMinimum (die mv sensor island : Nat) (s : State) : Host.Outcome State Fault Refusal :=
  .next (s.modDie die fun d => if mv < d.mv.toNat then
    { d with mv := BitVec.ofNat 12 mv, sensor := BitVec.ofNat 12 sensor, island := BitVec.ofNat 8 island, stamp := BitVec.ofNat 64 s.tb } else d)

/-! ## Register writes -/

/-- The settings of context 0 (R298). What a ring log outside 4 to 12 does the spec does not say: it is stored and read back as written (log 32). -/
def Setup.pfWrite (su : Setup) (off v : Nat) : Setup :=
  let base := v / 4096 * 4096
  if off = 0x0 then { su with cring := base, clog := v % 16 }
  else if off = 0x8 then { su with dring := base, dlog := v % 16 }
  else if off = 0x10 then { su with rootOk := v % 2 == 1, root1 := bits v 12 40 * 4096 }
  else if off = 0x18 then { su with sring := base, slog := v % 16 }
  else { su with areaOk := v % 2 == 1, area := base }

/-- Whether a bank takes a selector (R6, R352): a die bank's names an event from 1 to 5, enabled or not. -/
def selOk (bank sel : Nat) : Bool := decide (bank < 32) || (decide (1 ≤ sel % 128) && decide (sel % 128 ≤ 5))

/-- Selectors after a write: a field with a reserved code keeps its value. -/
def Bank.selWrite (b : Bank) (bank v : Nat) : Vector (BitVec 8) 8 :=
  Vector.ofFn fun k => if selOk bank (bits v (8 * k.val) 8) then BitVec.ofNat 8 (bits v (8 * k.val) 8) else b.sel[k]

/-- One vector field replaced. -/
def setAt {α : Type} (v : Vector α 8) (k : Nat) (x : α) : Vector α 8 := Vector.ofFn fun i => if i.val = k then x else v[i]

/-- A write to a bank's registers by a function (R351 to R353): while another holds it, only `ACT` counts. -/
def State.bankWrite (s : State) (vf bank r v : Nat) : State :=
  let run := fun (o : Host.Outcome State Fault Refusal) => match o with
    | .next s => s
    | _ => s
  let s := if r ≠ 0 then s
    else if bits v 9 2 = 1 then run (execClaim vf bank s)
    else if bits v 9 2 = 2 then run (execRelease vf bank s)
    else if bits v 9 2 = 3 then run (execClearCounters vf bank s)
    else s
  let b := s.bank bank
  if !b.opens vf then s
  else if r = 0 then s.setBank bank { b with snap := bits v 11 1 == 1 }
  else if r = 0x08 then s.setBank bank { b with sel := b.selWrite bank v }
  else if 0x10 ≤ r ∧ r < 0x50 then s.setBank bank { b with cnt := setAt b.cnt ((r - 0x10) / 8) (BitVec.ofNat 64 v) }
  else if 0x50 ≤ r ∧ r < 0x90 then s.setBank bank { b with icnt := setAt b.icnt ((r - 0x50) / 8) (BitVec.ofNat 64 v) }
  else if r = 0x90 then s.setBank bank { b with iseq := BitVec.ofNat 64 v }
  else s

/-- A write to a context's debug register (R355): a misaligned offset or area is ignored. -/
def State.debugWrite (s : State) (cx w v : Nat) : State :=
  let run := fun (o : Host.Outcome State Fault Refusal) => match o with
    | .next s => s
    | _ => s
  let s := s.modCtx cx fun x =>
    let d := x.dbg
    { x with dbg :=
        if w = 0 then { d with brken := v % 2 == 1, tokbp := bits v 5 1 == 1, tcore := bits v 6 5, tspc := bits v 11 1 == 1 }
        else if w = 1 then (if v % 64 = 0 then { d with thdr := bits v 0 23 } else d)
        else if w = 2 then { d with tord := BitVec.ofNat 64 v }
        else if v % 4096 = 0 ∧ isCanon v = true then { d with dumpa := BitVec.ofNat 64 v } else d }
  if w ≠ 0 then s
  else if bits v 1 2 = 1 then (if (s.ctx cx).any (fun (x : Ctx) => x.dbg.state == 0) then run (execDebugStop cx s) else s)
  else if bits v 1 2 = 2 then run (execDebugRelease cx s)
  else if bits v 1 2 = 3 then (if (s.ctx cx).any (fun (x : Ctx) => x.dbg.state == 0) then run (execLiveDump cx s) else s)
  else s

/-- The actions of the halt register and of the migration register (R327, R330). -/
def State.haltWrite (s : State) (cx act : Nat) : State :=
  if act = 0 then s.askResume cx 0 else if act = 1 then s.fault cx 13 0 63 15 0 0 [] else if act = 2 then s.askResume cx 2 else s

def State.migWrite (s : State) (cx cmd : Nat) : State :=
  let o := if cmd = 1 then execExportCtx cx s else if cmd = 2 then execImportCtx cx s else if cmd = 3 then execReleaseStubs cx s else .next s
  match o with
  | .next s => s
  | _ => s

/-- No port serves a context from its entries any more: while context 0 has no valid root every translation of it is a page fault (R298). -/
def State.dropEntries (s : State) (cx : Nat) : State :=
  let keep := fun (e : PEnt) => e.cx != cx
  { s with ports := s.ports.map fun e => (e.1, { e.2 with entries := e.2.entries.filter keep, got := e.2.got.filter keep }) }

/-- REGISTER_WRITE: a doubleword written through a function (R6, R345). What has no place here, or only reads, ignores it. -/
def execRegisterWrite (vf off : Nat) (v : BitVec 64) (s : State) : Host.Outcome State Fault Refusal :=
  .next <|
    let n := v.toNat
    if s.phase ≠ .complete ∨ off % 8 ≠ 0 ∨ 64 < vf then s
    else if 0x10000 ≤ off ∧ off < 0x11000 then
      s.modCtx ((off - 0x10000) / 8) fun x => if x.setup.vf = vf then { x with doorbell := v } else x
    else if 0xC0000 ≤ off ∧ off < 0xC2400 then s.bankWrite vf ((off - 0xC0000) / 256) (off % 256) n
    else if vf ≠ 0 then s
    else if off ≤ 0x20 then (if off = 0x10 ∧ n % 2 = 0 then s.dropEntries 0 else s).modCtx 0 fun x => { x with setup := x.setup.pfWrite off n }
    else if 0x90000 ≤ off ∧ off < 0x91000 then s.haltWrite ((off - 0x90000) / 8) (bits n 2 2)
    else if 0xA0000 ≤ off ∧ off < 0xA1000 then s.migWrite ((off - 0xA0000) / 8) (n % 4)
    else if 0xB0000 ≤ off ∧ off < 0xB0040 then
      (if off % 16 = 0 then s.modDie ((off - 0xB0000) / 16) fun d => { d.latch with mv := 0xFFF, sensor := 0, island := 0, stamp := 0 } else s)
    else if 0xB2000 ≤ off ∧ off < 0xB2040 then { s with hdm := putT s.hdm ((off - 0xB2000) / 8) (n % 8) }
    else if 0xC6000 ≤ off ∧ off < 0xCA000 then s.debugWrite ((off - 0xC6000) / 32) (off % 32 / 8) n
    else s

/-! ## Register reads -/

/-- The repair summary of a core (R336). -/
def Core.summary (c : Core) : Nat := c.shifted % 2 ^ 12 + c.retired % 8 * 2 ^ 12 + c.spused % 8 * 2 ^ 15 + if c.oos then 2 ^ 18 else 0

/-- The island register (R339): its levels, and the present voltage of its rail. -/
def State.islandWord (s : State) (i : Nat) : Nat :=
  let x := s.island i
  x.lvlmax % 4 + x.lvlcap % 4 * 4 + (Config.railMillivolts i x.lvlmax s.tb).toNat * 16

/-- The first doubleword of a bank as a function reads it (R351, R353); what one that another function holds shows in `SNAP` the spec does not say. -/
def Bank.control (b : Bank) (vf : Nat) (free : Word) : Nat :=
  b.own % 4 + b.ovf % 128 * 4 + if (if b.opens vf then b.snap else free.getLsbD 11) then 2 ^ 11 else 0

/-- The first doubleword of a debug register (R355). -/
def Dbg.word (d : Dbg) : Nat :=
  (if d.brken then 1 else 0) + d.state % 4 * 8 + (if d.tokbp then 32 else 0) + d.tcore % 32 * 64 + if d.tspc then 2 ^ 11 else 0

/-- The doubleword that a function reads at an offset (R345): zero for what is not its own or has no place here. The high half of a counter is the
function's shadow (R354). -/
def State.readReg (s : State) (vf off : Nat) : Nat :=
  let own := fun cx (f : Ctx → Nat) => ((s.ctx cx).map fun x => if x.setup.vf = vf then f x else 0).getD 0
  let pf := fun cx (f : Ctx → Nat) => ((s.ctx cx).map f).getD 0
  if 0xC0000 ≤ off ∧ off < 0xC2400 ∧ 0x10 ≤ off % 256 ∧ off % 256 < 0x98 ∧ off % 8 = 4 then (s.vf vf).shadow.toNat
  else if off % 8 ≠ 0 then 0
  else if 0x10000 ≤ off ∧ off < 0x11000 then own ((off - 0x10000) / 8) fun x => x.consumed.toNat
  else if 0x80000 ≤ off ∧ off < 0x81000 then own ((off - 0x80000) / 8) fun x => x.recs.toNat
  else if 0xC0000 ≤ off ∧ off < 0xC2400 then
    let bank := (off - 0xC0000) / 256
    let r := off % 256
    (if r = 0 then (s.bank bank).control vf (Config.freeWord s.freeCtr)
     else if r = 8 then (if (s.bank bank).opens vf then ((List.range 8).map fun k => ((s.bank bank).sel.toList.getD k 0).toNat * 2 ^ (8 * k)).sum else (Config.freeWord s.freeCtr).toNat)
     else if r < 0x98 then (s.counterOf vf bank ((r - 0x10) / 8)).toNat else 0)
  else if vf ≠ 0 then 0
  else if off = 0 then pf 0 fun x => x.setup.cring + x.setup.clog
  else if off = 0x8 then pf 0 fun x => x.setup.dring + x.setup.dlog
  else if off = 0x10 then pf 0 fun x => x.setup.root1 + if x.setup.rootOk then 1 else 0
  else if off = 0x18 then pf 0 fun x => x.setup.sring + x.setup.slog
  else if off = 0x20 then pf 0 fun x => x.setup.area + if x.setup.areaOk then 1 else 0
  else if 0x90000 ≤ off ∧ off < 0x91000 then pf ((off - 0x90000) / 8) fun x => (if x.halt.halted then 1 else 0) + if x.halt.nores then 2 else 0
  else if 0xA0000 ≤ off ∧ off < 0xA1000 then pf ((off - 0xA0000) / 8) fun x => (if x.mig = 4 then 2 else x.mig % 4) * 4
  else if 0xB0000 ≤ off ∧ off < 0xB0040 then
    (let d := s.die ((off - 0xB0000) / 16); if off % 16 = 0 then d.report.toNat else d.latched.toNat)
  else if 0xB1000 ≤ off ∧ off < 0xB1800 then s.islandWord ((off - 0xB1000) / 8)
  else if 0xB2000 ≤ off ∧ off < 0xB2040 then getT s.hdm ((off - 0xB2000) / 8) 0
  else if 0xB3000 ≤ off ∧ off < 0xB3100 then (s.core ((off - 0xB3000) / 8)).summary
  else if 0xC4000 ≤ off ∧ off < 0xC4C00 then (let r := s.row ((off - 0xC4000) / 8); r.cls % 8 + r.port % 64 * 8)
  else if 0xC6000 ≤ off ∧ off < 0xCA000 then pf ((off - 0xC6000) / 32) fun x =>
    let w := off % 32 / 8
    if w = 0 then x.dbg.word else if w = 1 then x.dbg.thdr else if w = 2 then x.dbg.tord.toNat else x.dbg.dumpa.toNat
  else 0

end Sys2Proof.Machine
end

