-- ==== Sys2Proof/Machine/Repair.lean ====
section
/-! DEFINITION. The repair of the vertical buses of a core (R334 to R336). -/

namespace Sys2Proof.Machine

/-- The faulty data lines of a group, by the lines that fail the walking-ones test of a bus. -/
def badData (f : Nat → Bool) (g : Nat) : List Nat := ((List.range 64).map fun i => 64 * g + i).filter f

/-- The working spare lines of a group. -/
def goodSpares (f : Nat → Bool) (g : Nat) : List Nat := [1024 + 2 * g, 1025 + 2 * g].filter fun l => !f l

/-- A group is repaired by shifting where its faulty data lines number no more than its working spares (R334). -/
def groupOk (f : Nat → Bool) (g : Nat) : Bool := decide ((badData f g).length ≤ (goodSpares f g).length)

def busOk (f : Nat → Bool) : Bool := (List.range 16).all (groupOk f)

/-- The line that carries data line 64g + i of a repaired group: each at or beyond a faulty one moves onto its neighbour, the last onto spares. -/
def steer (f : Nat → Bool) (g i : Nat) : Nat :=
  ((((List.range 64).map fun i => 64 * g + i).filter fun l => !f l) ++ goodSpares f g).getD i 0

/-- The shift-repair registers of a bus that steer past faulty lines. -/
def shiftsOf (f : Nat → Bool) (bus : Nat) : Tbl (List Nat) :=
  (List.range 16).filterMap fun g => match badData f g with
    | [] => none
    | l => some (16 * bus + g, l)

/-- A core after the repair of its buses (R334, R335): a bus with a group beyond repair is retired onto the next usable spare, and more retired buses
than usable spares hold the core out of service, in no partition and on its way to none. `SHIFTED` counts the lines of the buses then in use (log 32).
-/
def Core.repair (c : Core) (f : Nat → Nat → Bool) : Core :=
  let retired := (List.range 128).filter fun b => !busOk (f b)
  let spares := [128, 129, 130, 131].filter fun b => busOk (f b)
  let moved := retired.zip spares
  let shifts := (((List.range 128).filter fun b => busOk (f b)) ++ moved.map Prod.snd).flatMap fun b => shiftsOf (f b) b
  let oos := decide (spares.length < retired.length)
  { c with shifted := (shifts.map fun e => e.2.length).sum, retired := min retired.length 7, spused := moved.length, oos := oos
           moved := moved, shifts := shifts, part := if oos then none else c.part, target := if oos then none else c.target }

end Sys2Proof.Machine
end

