-- ==== Sys2Proof/Machine/System.lean ====
section
/-! DEFINITION. Start-up (R332, R333), power (R337, R338), the timebase (R341), management (R342, R343), the host's memory accesses
(R345), pod links (R346 to R348), and errors of scheduler memories (R305). -/

namespace Sys2Proof.Machine

/-! ## Start-up (R332) -/

/-- What outlasts a start-up: the model's own inputs (log 1, 3, 4). -/
def State.fresh (s : State) : State :=
  { State.reset with turn := s.turn, agenda := s.agenda, freeCtr := s.freeCtr, startups := s.startups, fwBad := s.fwBad, pufOk := s.pufOk }

/-- The device that serves only management (R332, R333): no port and no module has been trained. -/
def State.stoppedAt (s : State) (step : Nat) (report : List Nat) : State :=
  { s.fresh with phase := .stopped step, feeds := s.feeds, tb := s.tb, ctxs := [], parts := [], certRep := [], portsUp := [], ucie := [], events := report }

/-- The first firmware image that does not verify, in F-number order (R332 step 2). -/
def State.firstBad (s : State) : Option Nat := (List.range 8).find? s.fwBad.contains

/-- Steps 2 to 8. The ticks they take are free values (log 2). A core out of service, a port or a module that fails to train and a machine check of
step 4 are reported. -/
def State.startUp (s : State) : State :=
  match s.firstBad with
  | some f => s.stoppedAt 2 [64 * 8 + f]
  | none =>
  if !s.pufOk then s.stoppedAt 3 []
  else
    let n := s.startups + 1
    let cores := (List.range 32).map fun c => (c, Core.start.repair (Config.lineFaulty n c))
    let bad := (List.range 4).filter fun d => !Config.stacksTrain n d
    let t := s.tb + Config.freeNat s.freeCtr
    { s.fresh with
      freeCtr := s.freeCtr + 2, startups := n, feeds := s.feeds, tb := t, certTb := s.tb + Config.freeNat (s.freeCtr + 1) % (t + 1 - s.tb)
      cores := cores
      dies := bad.map fun d => (d, { Die.start with stopped := true })
      portsUp := (List.range 16).filter fun p => Config.portTrains n p
      ucie := (List.range 8).filter fun m => Config.moduleTrains n m
      certRep := cores.map fun c => c.2.summary
      events := ((cores.filter fun c => c.2.oos).map fun c => 64 * 4 + c.1) ++ (bad.map fun d => 64 * 3 + d)
        ++ (((List.range 16).filter fun p => !Config.portTrains n p).map fun p => 64 * 6 + p)
        ++ ((List.range 8).filter fun m => !Config.moduleTrains n m).map fun m => 64 * 7 + m }

/-- POWER_ON: the always-on island powers from what feeds there are, starts the timebase at 0, and start-up runs. Which of the two feeds have power, one
of them or both, is a free value (R332, log 5). -/
def execPowerOn (s : State) : Host.Outcome State Fault Refusal :=
  .next (if s.phase = .off then
    { s with tb := 0, feeds := if s.feeds = 0 then 1 + Config.freeNat s.freeCtr % 3 else s.feeds, freeCtr := s.freeCtr + 1 }.startUp else s)

/-- START_UP_REQUEST: a start-up that stopped runs again from step 2 (R333). -/
def execStartUpRequest (s : State) : Host.Outcome State Fault Refusal :=
  .next (match s.phase with
    | .stopped _ => s.startUp
    | _ => s)

/-! ## Die reset (R341) -/

/-- Whether a location lies in a stack of a die. -/
def onStack (die k : Nat) : Bool := isMemKey k && homeDie (k / 2 ^ 52) (k % 2 ^ 52) == die && hasStorage (k / 2 ^ 52) (k % 2 ^ 52)

/-- Whether a location lies in a deck, tile register or accumulator of a die. -/
def onDeck (die k : Nat) : Bool := (List.range 8).any fun i =>
  let n := die * 8 + i
  (decide (deckKey n 0 ≤ k) && decide (k < deckKey n 0 + 2 ^ 24)) || (decide (arrKey n 0 ≤ k) && decide (k < arrKey n 0 + 2 ^ 20))

/-- Nothing of any context works on a die's cores any longer; a collective instance with a member there comes to nothing (R199, R341). -/
def State.idleDie (s : State) (die : Nat) : State :=
  let s : State := { s with ctxs := s.ctxs.map fun e => (e.1, { e.2 with pipes := e.2.pipes.filter fun p => p.core / 8 != die }) }
  let s := (s.colls.filter fun g => g.members.any fun m => m.core / 8 == die).foldl State.endColl s
  let s := s.ctxs.foldl (fun s e => ((e.2.eqs.flatMap fun q => q.2.cmds).filter fun c => c.waits && c.core / 8 == die).foldl (fun s c => s.dropColl e.1 c) s) s
  let s := (List.range 96).foldl (fun s i => match s.task (96 * die + i) with
    | some t => s.dropTask (96 * die + i) t
    | none => s) s
  { s with
    ctxs := s.ctxs.map fun e => (e.1, { e.2 with
      eqs := e.2.eqs.map fun q => if (if q.1 < 160 then q.1 / 40 == die else q.1 == 160 + die) then
        (q.1, { q.2 with cmds := [], lost := if q.2.lost = 0 then ((q.2.cmds.head?.map fun c => c.seq).getD 0) else q.2.lost }) else q })
    rows := s.rows.map fun e => if e.1 / 96 = die then (e.1, { e.2 with claim := none, sliceCx := none }) else e
    cores := s.cores.map fun e => if e.1 / 8 = die then (e.1, { e.2 with owner := none }) else e
    ports := s.ports.filter fun e => portDie e.1 != die }

/-- DIE_RESET: after a machine check, steps 4 and 5 again for a die and its two stacks. A stack that fails again is a machine check again, reported,
and the die stays stopped (R328, R332). -/
def execDieReset (die : Nat) (s : State) : Host.Outcome State Fault Refusal :=
  .next <|
    if !(s.die die).stopped then s
    else
    let s := s.idleDie die
    let gone := fun k => onStack die k || onDeck die k
    let s := { s with mem := s.mem.filter fun c => !gone c.1, poison := s.poison.filter fun g => !gone (g * 256), freeCtr := s.freeCtr + 1
                      llc := s.llc.filter fun e => e.1 / 2 != die }
    let key := s.startups + 2 ^ 32 * s.freeCtr
    let s := (dieCores die).foldl (fun s n => s.modCore n fun c => c.repair (Config.lineFaulty key n)) s
    { s with events := s.events ++ (((dieCores die).filter fun n => (s.core n).oos).map fun n => 64 * 4 + n)
        ++ if Config.stacksTrain key die then [] else [64 * 3 + die] }.modDie die fun d =>
      { d with stopped := !Config.stacksTrain key die, wins := [], msgs := [] }

/-! ## Power (R337, R338) -/

/-- Every state of the device is lost. -/
def State.dark (s : State) : State := { s.fresh with phase := .off, feeds := 0, ctxs := [], parts := [], events := [] }

def execPowerLoss (s : State) : Host.Outcome State Fault Refusal := .next s.dark

/-- FEED_LOSS: reported, and nothing else while the other feed holds. -/
def execFeedLoss (feed : Nat) (s : State) : Host.Outcome State Fault Refusal :=
  .next <|
    if s.feeds / 2 ^ feed % 2 = 0 ∨ 2 ≤ feed then s
    else if s.feeds = 2 ^ feed then s.dark
    else { s with feeds := s.feeds - 2 ^ feed, events := s.events ++ [64 * 1 + feed] }

def execFeedReturn (feed : Nat) (s : State) : Host.Outcome State Fault Refusal :=
  .next (if s.feeds / 2 ^ feed % 2 = 1 ∨ 2 ≤ feed then s else { s with feeds := s.feeds + 2 ^ feed, events := s.events ++ [64 * 2 + feed] })

def State.modIsland (s : State) (i : Nat) (f : Island → Island) : State := { s with islands := putT s.islands i (f (s.island i)) }

/-- The island of a list that draws most in a window, the lowest of several. -/
def drawsMost (n : Nat) (is : List Nat) : Option Nat :=
  is.foldl (fun b i => match b with
    | some j => if Config.islandPower n j < Config.islandPower n i then some i else b
    | none => some i) none

/-- POWER_WINDOW: when a window of 10^5 ticks ends, with its mean power as measured in milliwatts, a mean over ten windows above the cap takes a level
from the island that draws most among those above L0; a mean below 95 % of it gives a level to one island below its ceiling, of which `island` says which
(log 5). -/
def execPowerWindow (mean island : Nat) (s : State) : Host.Outcome State Fault Refusal :=
  .next <|
    if s.tb < (s.window + 1) * 10 ^ 5 then s
    else
      let ws := mean :: s.powers.take 9
      let low := (List.range 256).filter fun i => (s.island i).lvlmax < (s.island i).lvlcap
      let pick := low[island % low.length]?
      let all := (List.range 256).filter fun i => 0 < (s.island i).lvlmax
      let t := { s with window := s.window + 1, powers := ws.take 9 }
      let cap := s.powerCap * 1000 * ws.length
      if cap < ws.sum then
        (match drawsMost s.window all with
        | some i => t.modIsland i fun i => { i with lvlmax := i.lvlmax - 1 }
        | none => t)
      else if ws.sum * 100 < cap * 95 then
        (match pick with
        | some i => t.modIsland i fun i => { i with lvlmax := min (i.lvlmax + 1) i.lvlcap }
        | none => t)
      else t

def execPowerCapSet (watts : Nat) (s : State) : Host.Outcome State Fault Refusal :=
  .next (if 600 ≤ watts ∧ watts ≤ 1750 then { s with powerCap := watts } else s)

def execLvlcapSet (island level : Nat) (s : State) : Host.Outcome State Fault Refusal :=
  .next (if 4 ≤ level then s else s.modIsland island fun i => { i with lvlcap := level, lvlmax := min i.lvlmax level })

/-! ## Management (R342, R343) -/

/-- An answer on the management port: a first byte 0 before what was asked for, 1 for Busy, 2 for an error (log 7). -/
def State.reply (s : State) (bs : List Byte) : State := { s with mailbox := bs }
def State.busy (s : State) : State := s.reply [1]
def State.refused (s : State) : State := s.reply [2]

def execSensorRead (sensor : Sensor) (s : State) : Host.Outcome State Fault Refusal :=
  .next <|
    let v := match sensor with
      | .feedPower f => Config.sensorReading f s.freeCtr
      | .dieTemperature d => Config.sensorReading (16 + d) s.freeCtr
      | .minimumVoltage d => (s.die d).mv.toNat
      | .repairSummary c => (s.core c).summary
    { s with freeCtr := s.freeCtr + 1 }.reply (0 :: bytesOfNat 8 v)

/-- What step an answer needs: the identity key stands after step 3, the certificate after step 6. -/
def Phase.past (p : Phase) (step : Nat) : Bool :=
  match p with
  | .off => false
  | .stopped k => decide (step < k)
  | .complete => true

/-- Bytes whose layout an outside standard gives (log 13). -/
def outside (code n : Nat) : List Byte := (List.range n).map (Config.outsideReply code)

/-- GET_VERSION: SPDM 1.3. -/
def execGetVersion (s : State) : Host.Outcome State Fault Refusal := .next ({ s with spdm := 1 }.reply [0, 0x13])

def execGetCapabilities (s : State) : Host.Outcome State Fault Refusal :=
  .next (if s.spdm = 0 then s.refused else { s with spdm := 2 }.reply (0 :: outside 1 20))

/-- NEGOTIATE_ALGORITHMS: SHA-256, and SLH-DSA-SHA2-128s as algorithm 0x0001 of Tuvoli's registry entry. -/
def execNegotiateAlgorithms (sha256 slhDsa : Bool) (s : State) : Host.Outcome State Fault Refusal :=
  .next (if s.spdm < 2 ∨ sha256 = false ∨ slhDsa = false then s.refused else { s with spdm := 3 }.reply [0, 1, 0])

/-- The chain of slot 0: its leaf carries the identity public key. -/
def chainBytes : List Byte := outside 2 1024 ++ identityPublic

def execGetDigests (s : State) : Host.Outcome State Fault Refusal :=
  .next (if s.phase.past 3 = false then s.busy else if s.spdm < 3 then s.refused else s.reply (0 :: digestBytes (sha256 chainBytes)))

def execGetCertificate (slot off len : Nat) (s : State) : Host.Outcome State Fault Refusal :=
  .next (if s.phase.past 3 = false then s.busy else if s.spdm < 3 ∨ slot ≠ 0 then s.refused else s.reply (0 :: (chainBytes.drop off).take len))

/-- CHALLENGE: a signature of the identity key over what the exchange has carried, the nonce with it. -/
def execChallenge (slot : Nat) (nonce : BitVec 256) (s : State) : Host.Outcome State Fault Refusal :=
  .next (if s.phase.past 3 = false then s.busy else if s.spdm < 3 ∨ slot ≠ 0 then s.refused
    else s.reply (0 :: signIdentity s.startups (outside 3 64 ++ digestBytes nonce)))

/-- A measurement of R343. -/
def measurement (s : State) (index : Nat) : BitVec 256 :=
  if index ≤ 8 then Config.firmwareDigest (index - 1)
  else if index = 9 then sha256 (certificate s)
  else sha256 (s.certRep.flatMap (bytesOfNat 8))

def execGetMeasurements (index : Nat) (s : State) : Host.Outcome State Fault Refusal :=
  .next (if index = 0 ∨ 10 < index then s.refused
    else if s.phase.past (if index ≤ 8 then 2 else 6) = false then s.busy
    else s.reply (0 :: digestBytes (measurement s index)))

/-! ## The host (R333, R345) -/

/-- CONFIGURATION_REQUEST: retry status until start-up has completed; then what CXL gives the register (log 13). -/
def execConfigurationRequest (off : Nat) (s : State) : Host.Outcome State Fault Refusal :=
  .next (if s.phase = .complete then s.reply (0 :: (List.range 4).map fun i => Config.outsideReply 4 (off + i)) else s.busy)

/-- The placement of a decoder's range; none where the decoder is disabled. -/
def State.decoder (s : State) (dec : Nat) : Option Nat := if 8 ≤ dec ∨ 5 ≤ getT s.hdm dec 0 then none else some (getT s.hdm dec 0)

/-- The units of a host access (R265): aligned pieces of up to 8 bytes. -/
def cxlUnits : Nat → Nat → Nat → List (Nat × Nat)
  | 0, _, _ => []
  | f + 1, a, n => if n = 0 then [] else let k := min n (8 - a % 8); (a, k) :: cxlUnits f (a + k) (n - k)

def unitsOf (a n : Nat) : List (Nat × Nat) := cxlUnits (n / 8 + 2) a n

/-- One unit that the host reads: poison where no storage stands behind it, or a granule of it is poisoned (R233, R328, R345). -/
def State.cxlRead (s : State) (plc : Nat) (u : Nat × Nat) : List Byte :=
  if !hasStorage plc u.1 || (s.poisoned (memKey plc u.1) u.2).isSome then bytesOfNat u.2 (Config.poisonValue s.freeCtr).toNat
  else getBs s.mem (memKey plc u.1) u.2

def execCxlMemRead (dec addr size : Nat) (s : State) : Host.Outcome State Fault Refusal :=
  .next <|
    match s.decoder dec with
    | none => s
    | some plc =>
      if s.phase ≠ .complete ∨ 2 ^ 40 < addr + size then s
      else { s with lastRead := (unitsOf addr size).flatMap fun u => s.cxlRead plc u, freeCtr := s.freeCtr + 1 }

/-- The bytes of a host write, unit by unit; a unit without storage is dropped (R345). -/
def State.cxlPut (s : State) (plc : Nat) (bs : List Byte) : List (Nat × Nat) → State
  | [] => s
  | (a, n) :: r => (if hasStorage plc a then s.write (memKey plc a) (bs.take n) else s).cxlPut plc (bs.drop n) r

def execCxlMemWrite (dec addr size v : Nat) (s : State) : Host.Outcome State Fault Refusal :=
  .next <|
    match s.decoder dec with
    | none => s
    | some plc => if s.phase ≠ .complete ∨ 2 ^ 40 < addr + size then s else s.cxlPut plc (bytesOfNat size v) (unitsOf addr size)

/-! ## Pod links (R341, R346 to R348) -/

/-- TIME_FLIT: behind the master the timebase steps forward; how far it is ahead decides whether it runs at half rate (R341). -/
def State.follow (s : State) (master : Nat) : State := { s with tb := max s.tb master, lead := s.tb - master }

def execTimeFlit (master : BitVec 64) (s : State) : Host.Outcome State Fault Refusal := .next (s.follow master.toNat)

/-- An instance of a group at `.POD` that is open, by its number. -/
def State.podColl (s : State) (part group inst : Nat) : Option Coll :=
  s.colls.find? fun g => g.part == part && g.group == group && g.scope == 5 && g.ord == inst

/-- Whether an instance has ended (R347). -/
def State.collOver (s : State) (part group inst : Nat) : Bool := decide (inst ≤ getT s.collDone (2 ^ 16 * part + group) 0)

/-- A piece of a contribution of another package joins its instance (R199). One sent again over a second route has no further effect, nor has one to
an instance that has ended or come to nothing (R347); one that does not match ends the instance. -/
def State.remoteColl (s : State) (part inst group kind dt nmem len midx off : Nat) (data : List Byte) : State :=
  if s.collOver part group inst then s
  else match s.podColl part group inst with
  | some g =>
    if g.broken || g.remote.contains (midx, off, data) then s
    else if g.kind ≠ kind ∨ g.dt ≠ dt ∨ g.nmem ≠ nmem ∨ g.len ≠ len ∨ (g.members.any fun m => m.midx == midx) = true
        ∨ (g.remote.any fun r => r.1 == midx && r.2.1 == off) = true then s.endColl g
    else { s with colls := s.colls.map fun h => if h.id = g.id then { h with remote := h.remote ++ [(midx, off, data)] } else h }
  | none => { s with colls := s.colls ++ [{ s.newColl inst part 5 0 group nmem with kind := kind, dt := dt, len := len, remote := [(midx, off, data)] }] }

/-- Word that an instance has come to nothing in another package: it stands without a result here, for members still to issue too (R199). -/
def State.lostColl (s : State) (part inst group nmem : Nat) : State :=
  if s.collOver part group inst then s else s.badColl ((s.podColl part group inst).getD (s.newColl inst part 5 0 group nmem))

/-- What a flit carries in the virtual channel of a partition takes effect (R346). -/
def State.takeFlit (s : State) (vc : Nat) (p : PodPayload) : State :=
  match p with
  | .barrierArrival g m => if s.podBar.contains (vc, g, m) then s else { s with podBar := s.podBar ++ [(vc, g, m)] }
  | .barrierRelease g => { s with podBar := s.podBar.filter fun e => !(e.1 == vc && e.2.1 == g) }
  | .collective inst group kind dt nmem len midx off data => s.remoteColl vc inst group kind dt nmem len midx off data
  | .collectiveFault inst group nmem => s.lostColl vc inst group nmem
  | .time m => s.follow m.toNat
  | .stubWrite origin va bs => (match s.ctxs.find? fun e => e.2.origin == some origin with
    | some e => s.devWrite e.1 6 va bs
    | none => { s with early := s.early ++ [(origin, va, bs)] })

/-- Whether what a flit carries fits its 240 bytes, 16 of which name it (R347, log 6). -/
def podFits (p : PodPayload) : Bool :=
  match p with
  | .collective _ _ _ _ _ _ _ _ data => decide (data.length ≤ podPiece)
  | _ => true

/-- FLIT_RECEIVE: a good flit with the number expected is delivered; any other leaves its channel waiting for the number, and the eighth failed
attempt takes the port down (R347). -/
def execFlitReceive (flit : Flit) (s : State) : Host.Outcome State Fault Refusal :=
  .next <|
    let k := 16 * flit.port + flit.vc
    let l := getT s.links k Link.start
    if !s.portsUp.contains flit.port ∨ 16 ≤ flit.vc ∨ podFits flit.payload = false then s
    else if !flit.crcGood then
      (if 7 ≤ l.tries then s.loseLink flit.port else { s with links := putT s.links k { l with tries := l.tries + 1 } })
    else if flit.seq ≠ l.expect then s
    else { s with links := putT s.links k { l with expect := l.expect + 1, tries := 0 } }.takeFlit flit.vc flit.payload

/-- PORT_DOWN: the other end has counted eight failed attempts at a flit of this package, and what was not acknowledged goes by the other route
(R347). -/
def execPortDown (port : Nat) (s : State) : Host.Outcome State Fault Refusal := .next (if s.portsUp.contains port then s.loseLink port else s)

/-- ROUTE_RETURN: a port of a destination works again, and what waited for it is sent (R348). -/
def execRouteReturn (dest port : Nat) (s : State) : Host.Outcome State Fault Refusal :=
  .next (if (getT s.routes dest []).contains port && !s.portsUp.contains port && decide (port < 16) then s.relink s.routes (s.portsUp ++ [port]) else s)

/-- ROUTE_TABLE_LOAD: up to two ports for each of 64 packages (R346). -/
def execRouteTableLoad (table : List (Nat × List Nat)) (s : State) : Host.Outcome State Fault Refusal :=
  .next (s.relink ((table.filter fun e => decide (e.1 < 64)).map fun e => (e.1, (e.2.filter fun p => decide (p < 16)).take 2)) s.portsUp)

/-- The members of an instance that have stalled, since a package was lost, beyond their partition's fault limit (R348). -/
def State.late (s : State) (g : Coll) : List Member :=
  match s.unreached g.dests with
  | none => []
  | some u => g.members.filter fun m => decide (max m.since u + (s.part (partOf m.cx)).fault ≤ s.tb)

/-- COLLECTIVE_FAULT_LIMIT: a member of a collective, or of a barrier at `.POD`, that a package which no working route reaches has stalled beyond the
fault limit ends: its context takes a fault of class collective, and a `COLL` completes without a result (R348). A number of 2^16 or more that
names no instance names a row (log 32). -/
def execCollectiveFaultLimit (inst : Nat) (s : State) : Host.Outcome State Fault Refusal :=
  .next <|
    match s.colls.find? fun g => g.id == inst with
    | some g =>
      let late := s.late g
      let rest := g.members.filter fun m => !late.contains m
      if late.isEmpty then s
      else
        (late.foldl State.memberDone (s.collFault late)).keepColl
          { g with members := rest, remote := [], broken := true, dead := g.dead ++ late.map fun m => m.midx }
    | none =>
      let row := inst - 2 ^ 16
      match if inst < 2 ^ 16 then none else s.task row with
      | none => s
      | some t => (match t.commit.map fun (c : Commit) => c.wait with
        | some (.pod since) =>
          if (s.unreached s.podPackages).any fun u => decide (max since u + (s.part (partOf t.cx)).fault ≤ s.tb) then
            (s.fault t.cx 9 0 t.core (row % 12) 0 t.pc.toNat []).commitGo row
          else s
        | _ => s)

/-! ## Errors of scheduler memories, and errors corrected in the others (R305, R328) -/

/-- The fallback takes the decision that runs on a die, if one does (R305). -/
def State.endByFallback (s : State) (p die : Nat) : State :=
  match (s.fcast (16 * die + p)).run with
  | some r => s.decided die p { r with image := ⟨[], 0⟩ } (s.fallback p r) true false
  | none => s

/-- The running image of a partition cannot be read: the fallback takes the decisions that run, on every die, as it will take those that follow
(R305). -/
def State.loseImage (s : State) (p : Nat) : State :=
  (List.range 4).foldl (fun s d => s.endByFallback p d) (s.modPart p fun x => { x with badImage := true })

/-- SCHEDULER_ECC_ERROR, by the place of the error; `corrected` names the context whose access found one in a memory of R328, whose events these
are (R352). -/
def execSchedulerEccError (site : EccSite) (s : State) : Host.Outcome State Fault Refusal :=
  .next <|
    match site with
    | .correctable d => s.countDie d 3 1 0
    | .corrected d cx => s.countDie d 3 1 (s.vfOf cx)
    | .runningImage p => if (s.part p).image.isNone then s else (s.loseImage p).partFault p 1
    | .stagedImage p => s.modPart p fun x => { x with badStaged := x.staged.isSome }
    | .queueEntry cx q => if (s.ctx cx).any fun x => (findT x.queues q).isSome then s.fault cx 11 0 63 15 0 0 [] else s

end Sys2Proof.Machine
end

