-- ==== Sys2Proof/Machine/TaskOps.lean ====
section
/-! DEFINITION. Scalar memory instructions (R94), channels (R100 to R102), EMIT (R103), exits (R104 to R106), staged atomics (R107), fences,
traps and translation maintenance (R108 to R110). -/

namespace Sys2Proof.Machine

/-! ## Scalar memory (R94) -/

def execLd (x b : BitVec 5) (sp w : BitVec 3) (o : BitVec 10) (s : State) : Host.Outcome State Fault Refusal :=
  s.runTask (fun _ => 12) fun s t =>
    let size := 2 ^ w.toNat
    s.load t sp.toNat (t.ea b o size) size 0 fun s v _ => .done s (t.setS x (BitVec.ofNat 64 v)).adv

def execSt (x b : BitVec 5) (sp w : BitVec 3) (o : BitVec 10) (s : State) : Host.Outcome State Fault Refusal :=
  s.runTask (fun _ => 12) fun s t =>
    let size := 2 ^ w.toNat
    s.stage t sp.toNat (t.ea b o size) size 0 (t.S x).toNat

/-! ## Channels (R100 to R102) -/

/-- The handle, the slot and the word that a channel operand names (R101); none where the check fails. -/
def chanAt (t : Task) (h : BitVec 4) (out : Bool) (e : Word) : Option (Handle × Nat × Nat) :=
  match t.handles[h.toNat]? with
  | none => none
  | some hd =>
    let w := slotWords hd.slotSz
    if hd.out ≠ out then none
    else if hd.g ≤ e.toNat / w then none
    else some (hd, e.toNat / w, e.toNat % w)

/-- S(a) + off of R101. -/
def chanOff (t : Task) (a : BitVec 5) (o : BitVec 9) : Word := t.S a + zext64 o

/-- An access of a task to bytes of a channel: outside the ranges of its context it is a protection fault (R231). -/
def State.inChan (s : State) (t : Task) (hd : Handle) (k n acc : Nat) (go : Body) : Body :=
  if s.chanHolds t.cx hd.quad k n then go else .fault 3 acc (chanOffset hd.quad k)

def execCrd (d a : BitVec 5) (h : BitVec 4) (o : BitVec 9) (s : State) : Host.Outcome State Fault Refusal :=
  s.runTask (fun _ => 8) fun s t =>
    match chanAt t h false (chanOff t a o) with
    | none => .stop .unresolved
    | some (hd, slot, word) =>
      let n := wordBytes hd.slotSz
      let k := slotKey hd.hkey hd.logn hd.slotSz (hd.cnt0 + slot) + word * n
      s.inChan t hd k n 1 <| s.readable k n (BitVec.ofNat 64 (chanOffset hd.quad k)) (.done (s.saw t.row k n) (t.setS d (BitVec.ofNat 64 (getN s.mem k n))).adv)

def execCrdt (d a : BitVec 5) (h : BitVec 4) (o : BitVec 9) (s : State) : Host.Outcome State Fault Refusal :=
  s.runTask (fun _ => 8) fun s t =>
    match chanAt t h false (chanOff t a o) with
    | none => .stop .unresolved
    | some (hd, slot, _) =>
      let k := tagKey hd.hkey hd.logn (hd.cnt0 + slot)
      s.inChan t hd k 1 1 <| s.readable k 1 (BitVec.ofNat 64 (chanOffset hd.quad k))
        (.done (s.saw t.row k 1) (t.setS d (BitVec.ofNat 64 (tagAt s.mem hd.hkey hd.logn (hd.cnt0 + slot)))).adv)

def execCwr (d a : BitVec 5) (h : BitVec 4) (o : BitVec 9) (s : State) : Host.Outcome State Fault Refusal :=
  s.runTask (fun _ => 8) fun s t =>
    match chanAt t h true (chanOff t a o) with
    | none => .stop .unresolved
    | some (hd, slot, word) =>
      let n := wordBytes hd.slotSz
      s.inChan t hd (slotKey hd.hkey hd.logn hd.slotSz (hd.cnt0 + slot) + word * n) n 2 <| staged s (stageChan t (.chan h.toNat (chanOff t a o).toNat (t.S d)))

def execCwrt (tag a : BitVec 5) (h : BitVec 4) (o : BitVec 9) (s : State) : Host.Outcome State Fault Refusal :=
  s.runTask (fun _ => 8) fun s t =>
    match chanAt t h true (chanOff t a o) with
    | none => .stop .unresolved
    | some (hd, slot, _) => s.inChan t hd (tagKey hd.hkey hd.logn (hd.cnt0 + slot)) 1 2 <| staged s (stageChan t (.tag h.toNat (chanOff t a o).toNat tag.toNat))

/-- The location of the count that an advance moves: `WCNT` of a writer's handle, `RCNT` of a reader's (R48, R50). -/
def Handle.cntKey (h : Handle) : Nat := h.hkey + if h.out then 0 else 8

/-- An advance staged on a handle the task has (R102, R209): at most its guaranteed count in all. -/
def stageAdv (t : Task) (h : BitVec 4) (out : Bool) (n : Word) : Body → (Task → Body) → Body := fun bad go =>
  match t.handles[h.toNat]? with
  | none => bad
  | some hd =>
    if hd.out ≠ out ∨ hd.slotSz = 0 ∨ hd.g < hd.adv + n.toNat then bad
    else go { t with handles := t.handles.set h.toNat { hd with adv := hd.adv + n.toNat } }

/-- `ADV.R` and `ADV.W` (R102). DESIGN CHOICE (R102, R231): a count outside the context's ranges is a protection fault as the instruction issues, with
detail 3, of a read and a write (log 32). -/
def State.runAdv (s : State) (a : BitVec 5) (h : BitVec 4) (o : BitVec 9) (out : Bool) : Host.Outcome State Fault Refusal :=
  s.runTask (fun _ => 4) fun s t => stageAdv t h out (chanOff t a o) (.stop .unresolved) fun u =>
    match u.handles[h.toNat]? with
    | some hd => s.inChan t hd hd.cntKey 8 3 (.done s u.adv)
    | none => .stop .unresolved

def execAdvR (a : BitVec 5) (h : BitVec 4) (o : BitVec 9) (s : State) : Host.Outcome State Fault Refusal := s.runAdv a h o false
def execAdvW (a : BitVec 5) (h : BitVec 4) (o : BitVec 9) (s : State) : Host.Outcome State Fault Refusal := s.runAdv a h o true

/-! ## EMIT (R103) -/

def execEmit (a : BitVec 5) (q : BitVec 3) (s : State) : Host.Outcome State Fault Refusal :=
  s.runTask (fun _ => 24) fun s t =>
    let ea := (t.S a).toNat
    if ea % 16 ≠ 0 then .stop .misaligned
    else if 4096 < ea + 16 then .stop .unresolved
    else
      let k := laneKey t.row 0 ea
      let w0 := loadN s.mem t k 16
      let n := if bits w0 98 1 = 1 then 32 else 16
      if 4096 < ea + n then .stop .unresolved
      else
        let w1 := if n = 32 then loadN s.mem t (k + 16) 16 else 0
        if covered t.staged k n ∨ s.poisoned k n = none then
          (if cmdValid q.toNat w0 w1 then staged s (stageCmd t (.cmd q.toNat w0 w1)) else .stop .illegal)
        else .fault 12 0 (ea - ea % 256)

/-! ## Exits (R73, R104 to R106) -/

/-- The cost of an exit from the staging as it stands (R72, R73). -/
def exitCost (t : Task) : Nat := 32 + 2 * t.nstore + 4 * t.nchw + 8 * t.ncmd

/-- A commit begins. -/
def Task.leave (t : Task) (act : ExitAct) : Task := t.withCommit ⟨act, 1, [], [], [], [], 0, none, .none, [], 0⟩

/-- An exit that has issued: a dark run ends there, else the commit goes on as far as it can (R78, R82). -/
def exitDone (s : State) (t : Task) : State :=
  if t.dark.isSome then s.finishStop t 1 1 else (s.setTask t.row (some t)).commitGo t.row

/-- An exit. A stage may leave only through `EXIT` with no successor (R209). -/
def State.runExit (s : State) (body : State → Task → Body) : Host.Outcome State Fault Refusal :=
  s.onRow fun t => s.issue t (exitCost t) body exitDone

def execExit (n : BitVec 3) (f : BitVec 5) (s : State) : Host.Outcome State Fault Refusal :=
  s.runExit fun s t =>
    let ws := (List.range n.toNat).map fun i => t.S (f + BitVec.ofNat 5 i)
    if t.stage.isSome ∧ ws.any (fun w => w != 0) then .stop .illegal else .done s (t.leave (.plain ws))

/-- `XWAIT` (R105). DESIGN CHOICE (R29, R105, R209): in a stage's task the exit stops as an illegal encoding before its address is looked at (log 32). -/
def execXwait (b a v : BitVec 5) (c : BitVec 1) (s : State) : Host.Outcome State Fault Refusal :=
  s.runExit fun s t =>
    if t.stage.isSome then .stop .illegal
    else s.withAddr t 0 (t.S a) 8 1 0 fun s _ _ => .done s (t.leave (.wait (t.S b) (c.toNat + 1) (t.S a) (t.S v)))

/-- The scope of a gang's span (R56). -/
def spanScope (t : Task) : Nat := if t.gspan then 2 else 1

def execXbar (c : BitVec 3) (b : BitVec 5) (n : BitVec 4) (s : State) : Host.Outcome State Fault Refusal :=
  s.runExit fun s t =>
    if t.stage.isSome ∨ c.toNat < spanScope t then .stop .illegal else .done s (t.leave (.bar (t.S b) n.toNat (c == 5)))

/-- `XAMO` (R105). DESIGN CHOICE (R29, R105, R209): as for `XWAIT`, in a stage's task (log 32). -/
def execXamo (b a v : BitVec 5) (o : BitVec 4) (w : BitVec 1) (s : State) : Host.Outcome State Fault Refusal :=
  s.runExit fun s t =>
    let size := if w = 0 then 4 else 8
    if t.stage.isSome then .stop .illegal
    else s.withAddr t 0 (t.S a) size 3 0 fun s k _ => .done s (t.leave (.amo (t.S b) o.toNat size k (t.S v) (t.S a)))

def execXstop (s : State) : Host.Outcome State Fault Refusal :=
  s.runExit fun s t => if t.stage.isSome then .stop .illegal else .done s (t.leave .stop)

/-! ## Staged atomics (R107) -/

/-- A staged atomic: translated for writing now, performed at commit. -/
def State.runAtomic (s : State) (sp : BitVec 3) (a b : BitVec 5) (w op : Nat) : Host.Outcome State Fault Refusal :=
  s.runTask (fun _ => 16) fun s t =>
    s.withAddr t sp.toNat (t.S a) (2 ^ w) 3 0 fun s k es => staged s (stageAtomic t k (2 ^ w) op (t.S b) es)

def execSadd (sp : BitVec 3) (a b : BitVec 5) (w : BitVec 3) (s : State) : Host.Outcome State Fault Refusal := s.runAtomic sp a b w.toNat 0
def execSmin (sp : BitVec 3) (a b : BitVec 5) (w : BitVec 3) (s : State) : Host.Outcome State Fault Refusal := s.runAtomic sp a b w.toNat 1
def execSmax (sp : BitVec 3) (a b : BitVec 5) (w : BitVec 3) (s : State) : Host.Outcome State Fault Refusal := s.runAtomic sp a b w.toNat 2
def execSor (sp : BitVec 3) (a b : BitVec 5) (w : BitVec 3) (s : State) : Host.Outcome State Fault Refusal := s.runAtomic sp a b w.toNat 5
def execSand (sp : BitVec 3) (a b : BitVec 5) (w : BitVec 3) (s : State) : Host.Outcome State Fault Refusal := s.runAtomic sp a b w.toNat 6
def execSfadd (sp : BitVec 3) (a b : BitVec 5) (s : State) : Host.Outcome State Fault Refusal := s.runAtomic sp a b 2 9

/-! ## Fences, traps, breakpoints (R108, R109) -/

/-- Whether a fence of a scope orders a commit that a load of the task has seen and that has not released its effects (R108). -/
def State.fenced (s : State) (t : Task) (scope : Nat) : Bool :=
  s.seen.any fun e => e.1 == t.row && (s.task e.2).any fun u => u.commit.any Commit.unreleased
    && scopeHolds scope u.core t.core && scopeHolds u.cscope u.core t.core

/-- FENCE.ACQ: every load already returns the latest write (log 10), so a fence has only to wait for the commits it orders to release the writes they
still hold (R78, R108, log 32). -/
def execFenceAcq (c : BitVec 3) (s : State) : Host.Outcome State Fault Refusal :=
  s.onRow fun t => if s.fenced t c.toNat then s else s.issue t 4 (fun s t => .done s t.adv) retire

def execTrap (_c : BitVec 22) (s : State) : Host.Outcome State Fault Refusal := s.runTask (fun _ => 4) fun _ _ => .stop .trap

/-- Whether breakpoints freeze in a context (R355). -/
def State.brken (s : State) (cx : Nat) : Bool := (s.ctx cx).any fun x => x.dbg.brken

/-- `BRK` (R109). DESIGN CHOICE (R109): the signal to F7 is the row's freeze itself; the spec gives it no register and no record (log 32). -/
def execBrk (s : State) : Host.Outcome State Fault Refusal :=
  s.runTask (fun _ => 4) fun s t => if s.brken t.cx then .done s { t.adv with froBrk := true } else .stop .trap

/-! ## Translation maintenance (R60, R110) -/

/-- A privileged instruction; without privilege it is an illegal encoding, and the meter is not charged (R28, R29). -/
def State.runPriv (s : State) (body : State → Task → Body) : Host.Outcome State Fault Refusal :=
  s.onRow fun t => if (s.ctx t.cx).any (fun x => x.setup.priv) then s.issue t 4 body retire else s.stopTask t .illegal

def State.runTlbi (s : State) (kind : Nat) (s2 : BitVec 1) (va : Task → Word) : Host.Outcome State Fault Refusal :=
  s.runPriv fun s t => staged s (stageCmd t (.tlbi kind (s2 == 1) (va t)))

def execTlbiPage (a : BitVec 5) (s2 : BitVec 1) (s : State) : Host.Outcome State Fault Refusal := s.runTlbi 0 s2 fun t => t.S a
def execTlbiCtx (s2 : BitVec 1) (s : State) : Host.Outcome State Fault Refusal := s.runTlbi 1 s2 fun _ => 0
def execTlbiPart (s2 : BitVec 1) (s : State) : Host.Outcome State Fault Refusal := s.runTlbi 2 s2 fun _ => 0
def execPtsync (s : State) : Host.Outcome State Fault Refusal := s.runPriv fun s t => staged s (stageCmd t .ptsync)

end Sys2Proof.Machine
end

