-- ==== Sys2Proof/Machine/Special.lean ====
section
/-! DEFINITION. The special functions of R139 and R140: the exact real value rounded toward zero to p + 2 significant bits, then to the
format. The three transcendental ones are computed in fixed point of 320 fraction bits (log 17). -/

namespace Sys2Proof.Machine

/-- m × 2^e cut to `n` significant bits; `rest`: the value exceeds m × 2^e. -/
def truncTo (n m : Nat) (e : Int) (rest : Bool) : Nat × Int × Bool :=
  let k := bitLen m - n
  (m / 2 ^ k, e + k, rest || decide (m % 2 ^ k ≠ 0))

/-- The reference result (R140): the truncated value rounded to nearest-even, with NX where the result differs from the exact value. -/
def faithful (f : Fm) (neg : Bool) (t : Nat × Int × Bool) : Nat × Fl :=
  let r := f.round (.mode 0) neg t.1 t.2.1 false
  (r.1, r.2 ||| flIf t.2.2 flNX)

/-- One in fixed point. -/
def fxOne : Nat := 2 ^ 320

/-- z + z³/3 + z⁵/5 + …, from the term z^k on. -/
def atanhFrom (z2 : Nat) : Nat → Nat → Nat → Nat
  | 0, _, _ => 0
  | n + 1, zk, k => zk / k + atanhFrom z2 n (zk * z2 / fxOne) (k + 2)

def fxAtanh (z : Nat) : Nat := atanhFrom (z * z / fxOne) 110 z 1

/-- The natural logarithm of 2, which is 2 atanh(1/3). -/
def fxLn2 : Nat := 2 * fxAtanh (fxOne / 3)

/-- log2 of x in [1, 2), which is 2 atanh((x − 1)/(x + 1)) / ln 2. -/
def fxLog2 (x : Nat) : Nat := 2 * fxAtanh ((x - fxOne) * fxOne / (x + fxOne)) * fxOne / fxLn2

/-- 1 + z + z²/2! + …, from the term of degree k on. -/
def expFrom (z : Nat) : Nat → Nat → Nat → Nat
  | 0, _, _ => 0
  | n + 1, term, k => term + expFrom z n (term * z / fxOne / k) (k + 1)

/-- 2^x of x in [0, 1]. -/
def fxExp2 (x : Nat) : Nat := expFrom (x * fxLn2 / fxOne) 90 fxOne 1

/-- m × 2^e in fixed point, cut. -/
def fxOf (m : Nat) (e : Int) : Nat := if -320 ≤ e then m * 2 ^ (e + 320).toNat else m / 2 ^ (-320 - e).toNat

/-- 1 / (m × 2^e). -/
def rcpRef (p m : Nat) (e : Int) : Nat × Int × Bool :=
  let l := bitLen m + 40
  truncTo (p + 2) (2 ^ l / m) (-e - l) (decide (2 ^ l % m ≠ 0))

/-- 2^(±m × 2^e): the integer part is the exponent; beyond ±4096 the result overflows or underflows whatever the fraction. -/
def exp2Ref (p : Nat) (neg : Bool) (m : Nat) (e : Int) : Nat × Int × Bool :=
  if 12 ≤ e + bitLen m then (1, if neg then -4096 else 4096, false)
  else
    let x : Int := if neg then -(fxOf m e : Int) else fxOf m e
    let n := x / fxOne
    let fr := (x % fxOne).toNat
    if fr = 0 then (1, n, false) else truncTo (p + 2) (fxExp2 fr) (n - 320) true

/-- log2 of m × 2^e: sign and value. -/
def log2Ref (p m : Nat) (e : Int) : Bool × Nat × Int × Bool :=
  let k := bitLen m - 1
  let y : Int := (e + k) * fxOne + (if m = 2 ^ k then 0 else fxLog2 (fxOf m (-k)))
  (decide (y < 0), truncTo (p + 2) y.natAbs (-320) (decide (m ≠ 2 ^ k)))

/-- tanh of m × 2^e above 0. Below 2^−30 it lies within one unit of m × 2^(e − 30) under the operand; from 64 on its first p + 2 bits are ones. -/
def tanhRef (p m : Nat) (e : Int) : Nat × Int × Bool :=
  if e + bitLen m ≤ -30 then truncTo (p + 2) (m * 2 ^ 30 - 1) (e - 30) true
  else if 7 ≤ e + bitLen m then (2 ^ (p + 2) - 1, -(p + 2 : Nat), true)
  else
    let u := 2 * fxOf m e * fxOne / fxLn2
    let w := fxExp2 (fxOne - u % fxOne) / 2 ^ (u / fxOne + 1)
    truncTo (p + 2) ((fxOne - w) * fxOne / (fxOne + w)) (-320) true

def fRcp (f : Fm) (a : Nat) : Nat × Fl :=
  match f.value a with
  | .nan s => (f.qnan, flIf s flNV)
  | .inf n => f.round (.mode 0) n 0 0 false
  | .fin n m e => if m = 0 then (f.infBits n, flDZ) else faithful f n (rcpRef f.p m e)

def fExp2 (f : Fm) (a : Nat) : Nat × Fl :=
  match f.value a with
  | .nan s => (f.qnan, flIf s flNV)
  | .inf n => if n then (0, 0) else (f.infBits false, 0)
  | .fin n m e => if m = 0 then f.round (.mode 0) false 1 0 false else faithful f false (exp2Ref f.p n m e)

def fLog2 (f : Fm) (a : Nat) : Nat × Fl :=
  match f.value a with
  | .nan s => (f.qnan, flIf s flNV)
  | .inf n => if n then (f.qnan, flNV) else (f.infBits false, 0)
  | .fin n m e =>
    if m = 0 then (f.infBits true, flDZ)
    else if n then (f.qnan, flNV)
    else let r := log2Ref f.p m e; faithful f r.1 r.2

def fTanh (f : Fm) (a : Nat) : Nat × Fl :=
  match f.value a with
  | .nan s => (f.qnan, flIf s flNV)
  | .inf n => f.round (.mode 0) n 1 0 false
  | .fin n m e => if m = 0 then (a, 0) else faithful f n (tanhRef f.p m e)

end Sys2Proof.Machine
end

