-- ==== Sys2Proof/Machine/Vector.lean ====
section
/-! DEFINITION. Vector register instructions: integer and logic (R133, R134), floating point (R135, R136), conversions (R137, R138, R120),
special functions (R139, R140), reductions (R141 to R143), permutes (R144), compares, masks, moves and immediates (R145 to R148). -/

namespace Sys2Proof.Machine

/-! ## Lanes and sub-elements (R129) -/

/-- Sub-element j of a lane, of `b` bits. -/
def subOf (b : Nat) (x : Lane) (j : Nat) : Nat := x.toNat / 2 ^ (b * j) % 2 ^ b

/-- A lane built from its sub-elements. -/
def laneOf (b : Nat) (f : Nat → Nat) : Lane :=
  BitVec.ofNat 32 ((List.range (32 / b)).foldl (fun a j => a + f j % 2 ^ b * 2 ^ (b * j)) 0)

/-- A lane with one sub-element replaced. -/
def setSub (b : Nat) (x : Lane) (j v : Nat) : Lane := laneOf b fun k => if k = j then v else subOf b x k

/-- The width in bits and the signedness of an integer lane type (R23). -/
def intBits (ty : BitVec 3) : Nat := if ty.toNat < 2 then 32 else if ty.toNat < 4 then 16 else 8
def isSigned (ty : BitVec 3) : Bool := ty.toNat % 2 == 0

/-- The format of a floating-point lane type (R23, R115). -/
def vFm (fmt : Word) (ty : Nat) : Fm :=
  if ty = 0 then fp32 else if ty = 1 then bf16 else if ty = 2 then fp16
  else .b8 ty (fmt.getLsbD 0) (fmt.getLsbD 1) (fmt.getLsbD 2)

/-- A number of `b` bits read by its signedness. -/
def intOf (sg : Bool) (b x : Nat) : Int := if sg && decide (2 ^ (b - 1) ≤ x) then (x : Int) - 2 ^ b else x

/-- A number as `b` bits. -/
def natOf (b : Nat) (v : Int) : Nat := (v % 2 ^ b).toNat

/-- The range of a type, and a value clamped to it. -/
def clampTo (sg : Bool) (b : Nat) (v : Int) : Nat :=
  let lo : Int := if sg then -2 ^ (b - 1) else 0
  let hi : Int := if sg then 2 ^ (b - 1) - 1 else 2 ^ b - 1
  natOf b (max lo (min hi v))

/-- The flags of sixteen lanes: the OR over the active ones (R119). -/
def orFlags (km : BitVec 16) (r : Vector (Lane × Fl) 16) : Fl :=
  (List.finRange 16).foldl (fun a (i : Fin 16) => if active km i then a ||| r[i].2 else a) 0

/-- Writes the active lanes and raises their flags once (R119, R130). -/
def Task.setVec (t : Task) (d : BitVec 5) (k : BitVec 3) (r : Vector (Lane × Fl) 16) : Task :=
  ((t.setV d (Vector.ofFn fun i => if active (t.K k) i then r[i].1 else (t.V d)[i])).raise (orFlags (t.K k) r)).adv

/-- One result per sub-element of `b` bits, with its flags. -/
def perSub (b : Nat) (f : Nat → Nat × Fl) : Lane × Fl :=
  (laneOf b fun j => (f j).1, (List.range (32 / b)).foldl (fun a j => a ||| (f j).2) 0)

/-- An operation lane by lane under a mask. -/
def State.vecOp (s : State) (cost : Nat) (d : BitVec 5) (k : BitVec 3) (f : Task → Fin 16 → Lane × Fl) : Host.Outcome State Fault Refusal :=
  s.runReg cost fun t => t.setVec d k (Vector.ofFn (f t))

/-! ## Integer and logic (R133) -/

/-- An integer operation on sub-elements of `b` bits: signedness, width, x and y. -/
def State.vint (s : State) (d a b : BitVec 5) (k ty : BitVec 3) (f : Bool → Nat → Nat → Nat → Nat) : Host.Outcome State Fault Refusal :=
  s.vecOp 48 d k fun t i =>
    let w := intBits ty
    perSub w fun j => (f (isSigned ty) w (subOf w (t.V a)[i] j) (subOf w (t.V b)[i] j), 0)

/-- The high half of a product. -/
def mulHigh (sg : Bool) (b x y : Nat) : Nat := natOf b (intOf sg b x * intOf sg b y / 2 ^ b)

def execVadd (d a b : BitVec 5) (k ty : BitVec 3) (s : State) := s.vint d a b k ty fun _ _ x y => x + y
def execVsub (d a b : BitVec 5) (k ty : BitVec 3) (s : State) := s.vint d a b k ty fun _ w x y => x + 2 ^ w - y
def execVmul (d a b : BitVec 5) (k ty : BitVec 3) (s : State) := s.vint d a b k ty fun _ _ x y => x * y
def execVmulh (d a b : BitVec 5) (k ty : BitVec 3) (s : State) := s.vint d a b k ty mulHigh
def execVadds (d a b : BitVec 5) (k ty : BitVec 3) (s : State) := s.vint d a b k ty fun g w x y => clampTo g w (intOf g w x + intOf g w y)
def execVsubs (d a b : BitVec 5) (k ty : BitVec 3) (s : State) := s.vint d a b k ty fun g w x y => clampTo g w (intOf g w x - intOf g w y)
def execVmin (d a b : BitVec 5) (k ty : BitVec 3) (s : State) := s.vint d a b k ty fun g w x y => if intOf g w x ≤ intOf g w y then x else y
def execVmax (d a b : BitVec 5) (k ty : BitVec 3) (s : State) := s.vint d a b k ty fun g w x y => if intOf g w x ≤ intOf g w y then y else x
def execVand (d a b : BitVec 5) (k ty : BitVec 3) (s : State) := s.vint d a b k ty fun _ _ x y => x &&& y
def execVor (d a b : BitVec 5) (k ty : BitVec 3) (s : State) := s.vint d a b k ty fun _ _ x y => x ||| y
def execVxor (d a b : BitVec 5) (k ty : BitVec 3) (s : State) := s.vint d a b k ty fun _ _ x y => x ^^^ y
def execVandn (d a b : BitVec 5) (k ty : BitVec 3) (s : State) := s.vint d a b k ty fun _ w x y => x &&& (2 ^ w - 1 - y)
def execVshl (d a b : BitVec 5) (k ty : BitVec 3) (s : State) := s.vint d a b k ty fun _ w x y => x * 2 ^ (y % w)
def execVshr (d a b : BitVec 5) (k ty : BitVec 3) (s : State) := s.vint d a b k ty fun _ w x y => x / 2 ^ (y % w)
def execVsar (d a b : BitVec 5) (k ty : BitVec 3) (s : State) := s.vint d a b k ty fun _ w x y => natOf w (intOf true w x / 2 ^ (y % w))
def execVabsd (d a b : BitVec 5) (k ty : BitVec 3) (s : State) := s.vint d a b k ty fun g w x y => (intOf g w x - intOf g w y).natAbs
def execVclz (d a : BitVec 5) (k ty : BitVec 3) (s : State) := s.vint d a 0 k ty fun _ w x _ => w - bitLen x
def execVpopc (d a : BitVec 5) (k ty : BitVec 3) (s : State) := s.vint d a 0 k ty fun _ w x _ => ((List.range w).map fun i => x / 2 ^ i % 2).sum

/-- The narrowing pack (R134): the first half from `va`, the second from `vb`. -/
def packLane (sg : Bool) (b : Nat) (x y : Lane) : Lane :=
  let h := 32 / b / 2
  laneOf b fun j => clampTo sg b (intOf true (2 * b) (if j < h then subOf (2 * b) x j else subOf (2 * b) y (j - h)))

/-- The widening unpack of part p (R134). -/
def unpackLane (sg : Bool) (b p : Nat) (x : Lane) : Lane := laneOf (2 * b) fun j => natOf (2 * b) (intOf sg b (subOf b x (p * (32 / b / 2) + j)))

def execVpack (d a b : BitVec 5) (k ty : BitVec 3) (s : State) : Host.Outcome State Fault Refusal :=
  s.vecOp 64 d k fun t i => (packLane (isSigned ty) (intBits ty) (t.V a)[i] (t.V b)[i], 0)
def execVunpack (d a p : BitVec 5) (k ty : BitVec 3) (s : State) : Host.Outcome State Fault Refusal :=
  s.vecOp 64 d k fun t i => (unpackLane (isSigned ty) (intBits ty) p.toNat (t.V a)[i], 0)

/-! ## Floating point (R131, R135, R136) -/

/-- An operation on the sub-elements of three registers. -/
def State.vfp (s : State) (cost : Nat) (d a b c : BitVec 5) (k ty : BitVec 3) (f : Fm → Nat → Nat → Nat → Nat × Fl) : Host.Outcome State Fault Refusal :=
  s.vecOp cost d k fun t i =>
    let m := vFm t.fmt ty.toNat
    perSub m.width fun j => f m (subOf m.width (t.V a)[i] j) (subOf m.width (t.V b)[i] j) (subOf m.width (t.V c)[i] j)

def execVfadd (d a b : BitVec 5) (k ty : BitVec 3) (s : State) := s.vfp 64 d a b d k ty fun f x y _ => fAdd f (.mode 0) x y
def execVfsub (d a b : BitVec 5) (k ty : BitVec 3) (s : State) := s.vfp 64 d a b d k ty fun f x y _ => fSub f (.mode 0) x y
def execVfmul (d a b : BitVec 5) (k ty : BitVec 3) (s : State) := s.vfp 64 d a b d k ty fun f x y _ => fMul f (.mode 0) x y
def execVfmin (d a b : BitVec 5) (k ty : BitVec 3) (s : State) := s.vfp 64 d a b d k ty fun f x y _ => fMinMax f false x y
def execVfmax (d a b : BitVec 5) (k ty : BitVec 3) (s : State) := s.vfp 64 d a b d k ty fun f x y _ => fMinMax f true x y
def execVfms (d a b : BitVec 5) (k ty : BitVec 3) (s : State) :=
  s.vfp 80 d a b d k ty fun f x y z => fFmaVal f (.mode 0) (f.value x) (f.value y) (f.value z).flip
def execVfnma (d a b : BitVec 5) (k ty : BitVec 3) (s : State) :=
  s.vfp 80 d a b d k ty fun f x y z => fFmaVal f (.mode 0) (f.value x).flip (f.value y) (f.value z)
def execVscale (d a b : BitVec 5) (k ty : BitVec 3) (s : State) := s.vfp 64 d a b d k ty fun f x y _ => fScale f x (intOf true f.width y)
def execVfma (d a b c : BitVec 5) (k ty : BitVec 3) (s : State) := s.vfp 80 d a b c k ty fun f x y z => fFma f (.mode 0) x y z

/-! ## Special functions (R139, R140) -/

def State.vspecial (s : State) (d a : BitVec 5) (k ty : BitVec 3) (f : Fm → Nat → Nat × Fl) : Host.Outcome State Fault Refusal :=
  s.vfp 160 d a a a k ty fun m x _ _ => f m x

def execVrcp (d a : BitVec 5) (k ty : BitVec 3) (s : State) := s.vspecial d a k ty fRcp
def execVrsq (d a : BitVec 5) (k ty : BitVec 3) (s : State) := s.vspecial d a k ty fun f => fRsq f (.mode 0)
def execVexp2 (d a : BitVec 5) (k ty : BitVec 3) (s : State) := s.vspecial d a k ty fExp2
def execVlog2 (d a : BitVec 5) (k ty : BitVec 3) (s : State) := s.vspecial d a k ty fLog2
def execVtanh (d a : BitVec 5) (k ty : BitVec 3) (s : State) := s.vspecial d a k ty fTanh

/-! ## Conversions (R41, R120, R137, R138) -/

/-- Squall(lane) (R41). -/
def squall (t : Task) (lane : Nat) : Word :=
  let z := t.seed ^^^ (t.tid <<< 20) ^^^ (t.srctr <<< 4) ^^^ BitVec.ofNat 64 lane
  let z := (z ^^^ (z >>> 30)) * 0xBF58476D1CE4E5B9
  let z := (z ^^^ (z >>> 27)) * 0x94D049BB133111EB
  z ^^^ (z >>> 31)

/-- `CVP` (R115). -/
def cvp (fmt : Word) : Nat := fmt.toNat / 16 % 8

/-- The format of a conversion type other than 7, and its elements per lane (R137). -/
def cvFm (fmt : Word) (c : Nat) : Fm :=
  if c = 6 then .b8 (cvp fmt) (fmt.getLsbD 0) (fmt.getLsbD 1) (fmt.getLsbD 2) else vFm fmt c
def cvElems (c : Nat) : Nat := if c = 0 ∨ c = 7 then 1 else if c < 3 then 2 else 4

/-- Conv(x, j) (R138) under a rounding. -/
def convert (fmt : Word) (src dst : Nat) (unsigned : Bool) (rm : Rm) (x : Nat) : Nat × Fl :=
  if dst = 7 then
    let r := fToInt (cvFm fmt src) rm (if unsigned then 0 else -2 ^ 31) (if unsigned then 2 ^ 32 - 1 else 2 ^ 31 - 1) x
    (natOf 32 r.1, r.2)
  else if src = 7 then intToF (cvFm fmt dst) rm (intOf (!unsigned) 32 x)
  else fConv (cvFm fmt src) (cvFm fmt dst) rm x

/-- One lane of a conversion: into a part of the packed result, or from a part of the packed source (R138). -/
def cvLane (fmt : Word) (src dst part : Nat) (unsigned : Bool) (rm : Nat → Rm) (x old : Lane) : Lane × Fl :=
  let es := cvElems src
  let ed := cvElems dst
  let ws := 32 / es
  let wd := 32 / ed
  let pairs := if es ≤ ed then (List.range es).map fun n => (n, part * es + n) else (List.range ed).map fun n => (part * ed + n, n)
  pairs.foldl (fun a e =>
    let r := convert fmt src dst unsigned (rm e.2) (subOf ws x e.1)
    (setSub wd a.1 e.2 r.1, a.2 ||| r.2)) (old, 0)

/-- VCVT in every form: stopped after its charge where `CVP` is used and holds 0 (R116). -/
def State.runCvt (s : State) (cost : Nat) (d a : BitVec 5) (src : BitVec 3) (isg : BitVec 1) (k : BitVec 3) (part : BitVec 2) (dst : BitVec 3)
    (rm : Task → Nat → Nat → Rm) (fin : Task → Task) : Host.Outcome State Fault Refusal :=
  s.runTask (fun _ => cost) fun s t =>
    if (src = 6 ∨ dst = 6) ∧ cvp t.fmt = 0 then .stop .illegal
    else .done s (fin (t.setVec d k (Vector.ofFn fun i =>
      cvLane t.fmt src.toNat dst.toNat part.toNat (isg == 1) (rm t i) (t.V a)[i] (t.V d)[i])))

def execVcvt (d a : BitVec 5) (src : BitVec 3) (isg : BitVec 1) (k : BitVec 3) (part : BitVec 2) (r dst : BitVec 3) (s : State) :
    Host.Outcome State Fault Refusal :=
  s.runCvt 64 d a src isg k part dst (fun _ _ _ => .mode r.toNat) id

def execVcvtSr (d a : BitVec 5) (src : BitVec 3) (isg : BitVec 1) (k : BitVec 3) (part : BitVec 2) (dst : BitVec 3) (s : State) :
    Host.Outcome State Fault Refusal :=
  s.runCvt 96 d a src isg k part dst (fun t i j => .stoch ((squall t i).toNat / 2 ^ (16 * j) % 2 ^ 16)) fun t => { t with srctr := t.srctr + 1 }

/-! ## Reductions and scans (R141 to R143) -/

/-- A node of the tree: an input alone passes unchanged (R142). -/
def node (f : Nat → Nat → Nat × Fl) (a b : Option Nat × Fl) : Option Nat × Fl :=
  match a.1, b.1 with
  | some x, some y => let r := f x y; (some r.1, a.2 ||| b.2 ||| r.2)
  | some x, none => (some x, a.2 ||| b.2)
  | none, y => (y, a.2 ||| b.2)

/-- One level of the tree: neighbours combine. -/
def level (f : Nat → Nat → Nat × Fl) : List (Option Nat × Fl) → List (Option Nat × Fl)
  | a :: b :: r => node f a b :: level f r
  | l => l

/-- The root over sixteen lanes, and zero where no lane contributes. -/
def tree (f : Nat → Nat → Nat × Fl) (xs : List (Option Nat)) : Nat × Fl :=
  match level f (level f (level f (level f (xs.map fun x => (x, 0))))) with
  | r :: _ => (r.1.getD 0, r.2)
  | [] => (0, 0)

/-- Sub-element j of the active lanes. -/
def lanesOf (t : Task) (a : BitVec 5) (k : BitVec 3) (b j : Nat) : List (Option Nat) :=
  (List.finRange 16).map fun (i : Fin 16) => if active (t.K k) i then some (subOf b (t.V a)[i] j) else none

/-- A reduction: the root of each sub-element to every lane, whatever the mask. -/
def State.reduce (s : State) (d a : BitVec 5) (k : BitVec 3) (b : Task → Nat) (f : Task → List (Option Nat) → Nat × Fl) : Host.Outcome State Fault Refusal :=
  s.runReg 96 fun t =>
    let r := perSub (b t) fun j => f t (lanesOf t a k (b t) j)
    ((t.setV d (Vector.replicate 16 r.1)).raise r.2).adv

/-- An FP sum; a NaN that reaches the root without an addition becomes the canonical one (R142). -/
def fsumRoot (f : Fm) (xs : List (Option Nat)) : Nat × Fl :=
  match xs.filterMap id with
  | [x] => if (f.value x).isNaN then (f.qnan, flIf (f.value x).isSig flNV) else (x, 0)
  | _ => tree (fAdd f (.mode 0)) xs

def execVrsum (d a : BitVec 5) (k ty : BitVec 3) (s : State) := s.reduce d a k (fun _ => intBits ty) fun _ => tree fun x y => ((x + y) % 2 ^ intBits ty, 0)
def execVrmin (d a : BitVec 5) (k ty : BitVec 3) (s : State) :=
  s.reduce d a k (fun _ => intBits ty) fun _ => tree fun x y => (if intOf (isSigned ty) (intBits ty) x ≤ intOf (isSigned ty) (intBits ty) y then x else y, 0)
def execVrmax (d a : BitVec 5) (k ty : BitVec 3) (s : State) :=
  s.reduce d a k (fun _ => intBits ty) fun _ => tree fun x y => (if intOf (isSigned ty) (intBits ty) x ≤ intOf (isSigned ty) (intBits ty) y then y else x, 0)
def execVrfsum (d a : BitVec 5) (k ty : BitVec 3) (s : State) :=
  s.reduce d a k (fun t => (vFm t.fmt ty.toNat).width) fun t => fsumRoot (vFm t.fmt ty.toNat)

/-- The inclusive prefix sum over active lanes; every lane is written (R143). -/
def execVscan (d a : BitVec 5) (k ty : BitVec 3) (s : State) : Host.Outcome State Fault Refusal :=
  s.runReg 96 fun t =>
    let w := intBits ty
    (t.setV d (Vector.ofFn fun i => laneOf w fun j => (((lanesOf t a k w j).take (i + 1)).map fun x => x.getD 0).sum)).adv

/-! ## Permutes (R144) -/

def State.permute (s : State) (d : BitVec 5) (k : BitVec 3) (f : Task → Nat → Lane) : Host.Outcome State Fault Refusal :=
  s.vecOp 48 d k fun t i => (f t i, 0)

/-- A lane by its number modulo 16. -/
def laneAt (v : Vector Lane 16) (n : Nat) : Lane := v[n % 16]'(Nat.mod_lt _ (by decide))

def execVperm (d a b : BitVec 5) (k : BitVec 3) (s : State) := s.permute d k fun t i => laneAt (t.V a) (laneAt (t.V b) i).toNat
def execVshuf (d a b : BitVec 5) (k : BitVec 3) (s : State) :=
  s.permute d k fun t i => let x := (laneAt (t.V b) i).toNat % 32; if x < 16 then laneAt (t.V a) x else laneAt (t.V d) (x - 16)
def execVrot (d a n : BitVec 5) (k : BitVec 3) (s : State) := s.permute d k fun t i => laneAt (t.V a) (i + n.toNat)
def execVnbr (d a n : BitVec 5) (k : BitVec 3) (s : State) := s.permute d k fun t i => laneAt (t.V a) (i ^^^ 2 ^ n.toNat)

/-! ## Compares and masks (R145, R146) -/

/-- A compare: bit i is 1 where lane i is active and the condition holds of every sub-element. -/
def State.compare (s : State) (cost : Nat) (d : BitVec 5) (a b : BitVec 5) (k : BitVec 3) (w : Task → Nat) (f : Task → Nat → Nat → Bool × Fl) :
    Host.Outcome State Fault Refusal :=
  s.runReg cost fun t =>
    let r : Vector (Lane × Fl) 16 := Vector.ofFn fun i =>
      (List.range (32 / w t)).foldl (fun acc j =>
        let c := f t (subOf (w t) (t.V a)[i] j) (subOf (w t) (t.V b)[i] j)
        (if c.1 then acc.1 else 0, acc.2 ||| c.2)) (1, 0)
    let m := (List.finRange 16).foldl (fun acc (i : Fin 16) => if active (t.K k) i && r[i].1 == 1 then acc + 2 ^ i.val else acc) 0
    ((t.setK (d.setWidth 3) (BitVec.ofNat 16 m)).raise (orFlags (t.K k) r)).adv

def State.icmp (s : State) (d a b : BitVec 5) (k ty : BitVec 3) (f : Int → Int → Bool) : Host.Outcome State Fault Refusal :=
  s.compare 48 d a b k (fun _ => intBits ty) fun _ x y => (f (intOf (isSigned ty) (intBits ty) x) (intOf (isSigned ty) (intBits ty) y), 0)

def State.fcmp (s : State) (d a b : BitVec 5) (k ty : BitVec 3) (op : Nat) : Host.Outcome State Fault Refusal :=
  s.compare 64 d a b k (fun t => (vFm t.fmt ty.toNat).width) fun t => fCmp (vFm t.fmt ty.toNat) op

def execVcmpEq (d a b : BitVec 5) (k ty : BitVec 3) (s : State) := s.icmp d a b k ty fun x y => decide (x = y)
def execVcmpNe (d a b : BitVec 5) (k ty : BitVec 3) (s : State) := s.icmp d a b k ty fun x y => decide (x ≠ y)
def execVcmpLt (d a b : BitVec 5) (k ty : BitVec 3) (s : State) := s.icmp d a b k ty fun x y => decide (x < y)
def execVcmpLe (d a b : BitVec 5) (k ty : BitVec 3) (s : State) := s.icmp d a b k ty fun x y => decide (x ≤ y)
def execVfcmpEq (d a b : BitVec 5) (k ty : BitVec 3) (s : State) := s.fcmp d a b k ty 0
def execVfcmpLt (d a b : BitVec 5) (k ty : BitVec 3) (s : State) := s.fcmp d a b k ty 1
def execVfcmpLe (d a b : BitVec 5) (k ty : BitVec 3) (s : State) := s.fcmp d a b k ty 2
def execVfcmpUn (d a b : BitVec 5) (k ty : BitVec 3) (s : State) := s.fcmp d a b k ty 3

/-- VSEL: the mask selects, and all sixteen lanes are written. -/
def execVsel (d a b : BitVec 5) (k : BitVec 3) (s : State) : Host.Outcome State Fault Refusal :=
  s.runReg 48 fun t => (t.setV d (Vector.ofFn fun i => if active (t.K k) i then (t.V a)[i] else (t.V b)[i])).adv

/-- The mask register a five-bit field names (R132). -/
def kreg (n : BitVec 5) : BitVec 3 := n.setWidth 3

def execKand (d a b : BitVec 5) (s : State) := s.runReg 4 fun t => (t.setK (kreg d) (t.K (kreg a) &&& t.K (kreg b))).adv
def execKor (d a b : BitVec 5) (s : State) := s.runReg 4 fun t => (t.setK (kreg d) (t.K (kreg a) ||| t.K (kreg b))).adv
def execKnot (d a : BitVec 5) (s : State) := s.runReg 4 fun t => (t.setK (kreg d) (~~~(t.K (kreg a)))).adv
def execKmov (d a : BitVec 5) (s : State) := s.runReg 4 fun t => (t.setK (kreg d) (t.K (kreg a))).adv
def execKmovFromScalar (d a : BitVec 5) (s : State) := s.runReg 4 fun t => (t.setK (kreg d) ((t.S a).setWidth 16)).adv
def execKmovToScalar (d a : BitVec 5) (s : State) := s.runReg 4 fun t => (t.setS d ((t.K (kreg a)).setWidth 64)).adv

/-! ## Moves and immediates (R147, R148) -/

/-- The lane VBCST writes. -/
def bcst (ty : BitVec 3) (x : Word) : Lane := laneOf (intBits ty) fun _ => x.toNat

def execVbcst (d a : BitVec 5) (k ty : BitVec 3) (s : State) := s.permute d k fun t _ => bcst ty (t.S a)
def execVins (d a n : BitVec 5) (_ty : BitVec 3) (s : State) : Host.Outcome State Fault Refusal :=
  s.runReg 48 fun t => (t.setV d (Vector.ofFn fun i => if i.val = n.toNat then (t.S a).setWidth 32 else (t.V d)[i])).adv
def execVext (d a n : BitVec 5) (ty : BitVec 3) (s : State) : Host.Outcome State Fault Refusal :=
  s.runReg 48 fun t => (t.setS d (if ty = 0 then (laneAt (t.V a) n.toNat).signExtend 64 else (laneAt (t.V a) n.toNat).setWidth 64)).adv
def execVmov (d a : BitVec 5) (k : BitVec 3) (s : State) := s.permute d k fun t i => laneAt (t.V a) i

/-- An immediate form: every lane from its old value. -/
def State.vimm (s : State) (d : BitVec 5) (f : Lane → Lane) : Host.Outcome State Fault Refusal :=
  s.runReg 48 fun t => (t.setV d ((t.V d).map f)).adv

def execVli (d : BitVec 5) (i : BitVec 16) (s : State) := s.vimm d fun _ => i.signExtend 32
def execVlih (d : BitVec 5) (i : BitVec 16) (s : State) := s.vimm d fun _ => i ++ i
def execVlui (d : BitVec 5) (i : BitVec 16) (s : State) := s.vimm d fun _ => i ++ (0 : BitVec 16)
def execVorli (d : BitVec 5) (i : BitVec 16) (s : State) := s.vimm d fun x => x ||| i.setWidth 32
def execVaddi (d : BitVec 5) (i : BitVec 16) (s : State) := s.vimm d fun x => x + i.signExtend 32

end Sys2Proof.Machine
end

