-- ==== Sys2Proof/Machine/VecMem.lean ====
section
/-! DEFINITION. Vector memory instructions (R149 to R153) with the page formats of R121 to R123, and the LUT island (R155, R156). -/

namespace Sys2Proof.Machine

/-! ## Addresses (R151) -/

/-- One lane's element: its address, where it stands and the entry that gave it. -/
structure Elem where
  va : Nat
  key : Nat
  use : Option PEnt
  deriving DecidableEq, Repr

/-- The elements of an access and the bytes of each, or how the access ends. -/
inductive Elems where
  | ok (s : State) (es : List Elem) (g : Nat) (fmt : Nat)
  | bad (b : Body)

/-- Translates addresses of the access to `as` at the row's port in lane order (R151, R244). -/
def State.xlLanes (s : State) (t : Task) (acc : Nat) (as : List Nat) : List Nat → (State × List Elem) ⊕ Body
  | [] => .inl (s, [])
  | a :: r =>
    match s.lookupOf t.row t.cx as a acc with
    | some (.ok e) =>
      match (s.usePort t.row e).xlLanes t acc as r with
      | .inl x => .inl (x.1, ⟨a, entKey e a, some e⟩ :: x.2)
      | .inr b => .inr b
    | some .prot => .inr (.fault 3 acc a)
    | _ => .inr (.miss a acc)

/-- The bytes a lane moves under a page format (R121). -/
def elemBytes (fmt : Nat) : Nat := if fmt = 1 ∨ fmt = 2 then 2 else 4

/-- The sixteen elements of a `mem` access, once its page of `ea` is known (R151): that page is read like one that a lane touches, so it needs the
permission and the storage although no lane may lie in it (log 32). Every lookup of the access is of the same addresses, its lanes four bytes apart
where the format is still open, so that all take one of two translations that differ (R244). -/
def State.memElems (s : State) (t : Task) (ea : Word) (acc : Nat) (addr : Nat → Nat → Word) : Elems :=
  let span := (List.range 16).map fun i => (addr 4 i).toNat
  match s.lookupOf t.row t.cx span ea.toNat acc with
  | some (.ok e) =>
    let g := elemBytes e.fmt
    let as := (List.range 16).map fun i => (addr g i).toNat
    if as.any (fun a => !isCanon a || !isCanon (a + g - 1)) then .bad (.stop .unresolved)
    else match (s.usePort t.row e).xlLanes t acc span as with
      | .inr b => .bad b
      | .inl x => if x.2.any (fun l => l.use.any fun u => u.fmt != e.fmt) then .bad (.stop .unresolved) else .ok x.1 x.2 g e.fmt
  | some .prot => .bad (.fault 3 acc ea.toNat)
  | _ => .bad (.miss ea.toNat acc)

/-- The sixteen elements of an access: alignment first, then `ea`, then every lane (R151). DESIGN CHOICE (R151, R326): where several lanes violate a
permission or the context's range, the fault names the first of them in lane order (log 32). -/
def State.elems (s : State) (t : Task) (sp : Nat) (ea : Word) (acc : Nat) (addr : Nat → Nat → Word) : Elems :=
  if ea.toNat % 4 ≠ 0 ∨ (List.range 16).any (fun i => (addr 4 i).toNat % 4 != 0) then .bad (.stop .misaligned)
  else if sp = 0 then (if isCanon ea.toNat then s.memElems t ea acc addr else .bad (.stop .unresolved))
  else if extent sp ≤ ea.toNat ∨ (List.range 16).any (fun i => decide (extent sp < (addr 4 i).toNat + 4)) then .bad (.stop .unresolved)
  else match (List.range 16).find? fun i => !s.reachable t.cx t.core sp (addr 4 i).toNat 4 with
    | some i => .bad (.fault 3 acc (addr 4 i).toNat)
    | none => .ok s ((List.range 16).map fun i => ⟨(addr 4 i).toNat, spaceKey sp t.core (addr 4 i).toNat, none⟩) 4 0

/-- Runs of adjacent elements: an address and the locations from it. -/
def elemRuns (g : Nat) (es : List Elem) : List (Nat × Nat × Nat) :=
  es.foldr (fun e acc =>
    match acc with
    | (va, k, n) :: r => if e.va + g = va ∧ e.key + g = k then (e.va, e.key, n + g) :: r else (e.va, e.key, g) :: acc
    | [] => [(e.va, e.key, g)]) []

/-! ## Loads and stores (R151 to R153) -/

/-- A lane as loaded: raw, or two bytes that become halves (R122). -/
def loadLane (fmt v : Nat) : Lane :=
  if fmt = 1 ∨ fmt = 2 then laneOf 16 fun j => ocpLoad fmt (v / 2 ^ (8 * j) % 256) else BitVec.ofNat 32 v

/-- The loads of a vector register from its elements, their requests counted first (R230). A data error names the granule of the lowest lane that meets
one (R153 has the lanes performed in any order, log 32). DESIGN CHOICE (R230): each run of adjacent lanes is a read of its own, so lanes that share a
granule without being adjacent may send its request more than once (log 32). -/
def State.loadElems (s : State) (t : Task) (x : BitVec 5) (es : List Elem) (g fmt : Nat) : Body :=
  let s' := (elemRuns g (es.filter fun e => !covered t.staged e.key g)).foldl (fun s r =>
    (if isMemKey r.2.1 then s.readVia (t.core / 8) t.cx r.1 [(r.2.1, r.2.2)] else s).saw t.row r.2.1 r.2.2) s
  match es.find? fun e => !covered t.staged e.key g && (s.poisoned e.key g).isSome with
  | some e => .faultAt s' 12 0 (e.va - e.va % 256)
  | none =>
    let ls := es.map fun e => loadLane fmt (loadN s.mem t e.key g)
    .done s' (t.setV x (Vector.ofFn fun i => (ls[i.val]?).getD 0)).adv

def vea (t : Task) (b : BitVec 5) (o : BitVec 10) : Word := t.ea b o 64

def execVld (x b : BitVec 5) (sp : BitVec 3) (o : BitVec 10) (s : State) : Host.Outcome State Fault Refusal :=
  s.runTask (fun _ => 96) fun s t =>
    match s.elems t sp.toNat (vea t b o) 1 fun g i => vea t b o + BitVec.ofNat 64 (g * i) with
    | .bad r => r
    | .ok s es g fmt => s.loadElems t x es g fmt

def execVgld (x b : BitVec 5) (sp : BitVec 3) (o : BitVec 10) (s : State) : Host.Outcome State Fault Refusal :=
  s.runTask (fun _ => 96) fun s t =>
    match s.elems t sp.toNat (vea t b o) 1 fun _ i => vea t b o + (laneAt (t.V x) i).signExtend 64 with
    | .bad r => r
    | .ok s es g fmt => s.loadElems t x es g fmt

/-- A lane as stored: raw bytes, or its halves rounded to bytes (R123), with the flags. -/
def storeLane (fmt : Nat) (sat : Bool) (x : Lane) : Nat × Fl :=
  if fmt = 1 ∨ fmt = 2 then
    let a := ocpStore fmt sat (subOf 16 x 0)
    let b := ocpStore fmt sat (subOf 16 x 1)
    (a.1 + 256 * b.1, a.2 ||| b.2)
  else (x.toNat, 0)

def execVst (x b : BitVec 5) (sp : BitVec 3) (o : BitVec 10) (s : State) : Host.Outcome State Fault Refusal :=
  s.runTask (fun _ => 96) fun s t =>
    match s.elems t sp.toNat (vea t b o) 2 fun g i => vea t b o + BitVec.ofNat 64 (g * i) with
    | .bad r => r
    | .ok s es g fmt =>
      let ls := es.zipIdx.map fun e => (e.1, storeLane fmt (t.fmt.getLsbD 2) (laneAt (t.V x) e.2))
      let cells := ls.flatMap fun l => cellsAt l.1.key (bytesOfNat g l.2.1)
      staged s ((stageStore t cells (16 * g) (vea t b o).toNat (es.filterMap fun e => e.use)).map fun t => t.raise (ls.foldl (fun a l => a ||| l.2.2) 0))

/-! ## Lane slices (R152) -/

/-- The offset in each lane's slice; alignment first, then range. -/
def sliceCheck (a : Nat → Word) : Option Stop :=
  if (List.range 16).any fun i => (a i).toNat % 4 != 0 then some .misaligned
  else if (List.range 16).any fun i => decide (4092 < (a i).toNat) then some .unresolved
  else none

def sliceElems (t : Task) (a : Nat → Word) : List Elem := (List.range 16).map fun i => ⟨(a i).toNat, laneKey t.row i (a i).toNat, none⟩

/-- The loads of a vector register from the slices. -/
def State.loadSlices (s : State) (t : Task) (x : BitVec 5) (a : Nat → Word) : Body :=
  match sliceCheck a with
  | some r => .stop r
  | none => s.loadElems t x (sliceElems t a) 4 0

def execVlds (x b : BitVec 5) (o : BitVec 10) (s : State) : Host.Outcome State Fault Refusal :=
  s.runTask (fun _ => 32) fun s t => s.loadSlices t x fun _ => t.ea b o 4

def execVldsIx (x b : BitVec 5) (o : BitVec 10) (s : State) : Host.Outcome State Fault Refusal :=
  s.runTask (fun _ => 32) fun s t => s.loadSlices t x fun i => t.ea b o 4 + (laneAt (t.V x) i).signExtend 64

def execVsts (x b : BitVec 5) (o : BitVec 10) (s : State) : Host.Outcome State Fault Refusal :=
  s.runTask (fun _ => 32) fun s t =>
    match sliceCheck fun _ => t.ea b o 4 with
    | some r => .stop r
    | none =>
      let cells := (List.range 16).flatMap fun i => cellsAt (laneKey t.row i (t.ea b o 4).toNat) (bytesOfNat 4 (laneAt (t.V x) i).toNat)
      staged s (stageStore t cells 64 (t.ea b o 4).toNat [])

/-! ## The LUT island (R155, R156) -/

/-- One table's output for 64 input bits. -/
def lutOut (c : Word) (x : Nat) : Nat :=
  let sel := fun j => x / 2 ^ (bits c.toNat (16 + 6 * j) 6) % 2
  bits c.toNat (sel 3 * 8 + sel 2 * 4 + sel 1 * 2 + sel 0) 1

def lutLane (cfg : Vector Word 256) (i : Nat) (a b : Lane) : Lane :=
  BitVec.ofNat 32 ((List.range 16).foldl (fun acc j =>
    acc + lutOut (cfg[(16 * i + j) % 256]'(Nat.mod_lt _ (by decide))) (b.toNat * 2 ^ 32 + a.toNat) * 2 ^ j) 0)

def execLutx (d a b : BitVec 5) (k : BitVec 3) (s : State) : Host.Outcome State Fault Refusal :=
  s.vecOp 32 d k fun t i => (lutLane t.cfg i (t.V a)[i] (t.V b)[i], 0)

/-- LUTLD: its bytes come through `Load`, so a poisoned granule of which every byte it reads is staged is no data error (R39, R328). Where only part of
the 2048 bytes is outside the context's range, the fault names S(a), the address of the access, and of several poisoned granules a data error names the
lowest (log 32). -/
def execLutld (a : BitVec 5) (s : State) : Host.Outcome State Fault Refusal :=
  s.runTask (fun _ => 3072) fun s t =>
    let ea := (t.S a).toNat
    if ea % 64 ≠ 0 then .stop .misaligned
    else if 2 ^ 23 < ea + 2048 then .stop .unresolved
    else if !s.reachable t.cx t.core 2 ea 2048 then .fault 3 1 ea
    else
      let k := padKey t.core ea
      let reads := fun (g : Nat) => (List.range 2048).any fun i => (k + i) / 256 == g && !covered t.staged (k + i) 1
      match ((List.range 9).map fun j => k / 256 + j).find? fun g => s.poison.contains g && reads g with
      | some g => .fault 12 0 (g * 256 + ea - k)
      | none => .done (s.saw t.row k 2048) { t.adv with cfg := Vector.ofFn fun i => BitVec.ofNat 64 (loadN s.mem t (k + 8 * i.val) 8 % 2 ^ 40) }

end Sys2Proof.Machine
end

