-- ==== Sys2Proof/Machine/Dispatch.lean ====
section
/-! DEFINITION. The dispatch: one arm for each constructor of Instr, each a direct call of its meaning. -/

namespace Sys2Proof.Machine

def exec (i : Instr) (s : State) : Host.Outcome State Fault Refusal :=
  match i with
  | .add d a b => Sys2Proof.Machine.execAdd d a b s
  | .sub d a b => Sys2Proof.Machine.execSub d a b s
  | .mul d a b => Sys2Proof.Machine.execMul d a b s
  | .mulh d a b => Sys2Proof.Machine.execMulh d a b s
  | .mulhn d a b => Sys2Proof.Machine.execMulhn d a b s
  | .div d a b => Sys2Proof.Machine.execDiv d a b s
  | .divn d a b => Sys2Proof.Machine.execDivn d a b s
  | .rem d a b => Sys2Proof.Machine.execRem d a b s
  | .remn d a b => Sys2Proof.Machine.execRemn d a b s
  | .and d a b => Sys2Proof.Machine.execAnd d a b s
  | .or d a b => Sys2Proof.Machine.execOr d a b s
  | .xor d a b => Sys2Proof.Machine.execXor d a b s
  | .andn d a b => Sys2Proof.Machine.execAndn d a b s
  | .shl d a b => Sys2Proof.Machine.execShl d a b s
  | .shr d a b => Sys2Proof.Machine.execShr d a b s
  | .sar d a b => Sys2Proof.Machine.execSar d a b s
  | .min d a b => Sys2Proof.Machine.execMin d a b s
  | .max d a b => Sys2Proof.Machine.execMax d a b s
  | .minn d a b => Sys2Proof.Machine.execMinn d a b s
  | .maxn d a b => Sys2Proof.Machine.execMaxn d a b s
  | .slt d a b => Sys2Proof.Machine.execSlt d a b s
  | .sltn d a b => Sys2Proof.Machine.execSltn d a b s
  | .seq d a b => Sys2Proof.Machine.execSeq d a b s
  | .clz d a => Sys2Proof.Machine.execClz d a s
  | .popc d a => Sys2Proof.Machine.execPopc d a s
  | .bext d a b => Sys2Proof.Machine.execBext d a b s
  | .bdep d a b => Sys2Proof.Machine.execBdep d a b s
  | .sext d a w => Sys2Proof.Machine.execSext d a w s
  | .zext d a w => Sys2Proof.Machine.execZext d a w s
  | .addi d a imm => Sys2Proof.Machine.execAddi d a imm s
  | .andi d a imm => Sys2Proof.Machine.execAndi d a imm s
  | .ori d a imm => Sys2Proof.Machine.execOri d a imm s
  | .xori d a imm => Sys2Proof.Machine.execXori d a imm s
  | .shli d a n => Sys2Proof.Machine.execShli d a n s
  | .shri d a n => Sys2Proof.Machine.execShri d a n s
  | .sari d a n => Sys2Proof.Machine.execSari d a n s
  | .lui d imm => Sys2Proof.Machine.execLui d imm s
  | .slti d a imm => Sys2Proof.Machine.execSlti d a imm s
  | .fadd d a b m w => Sys2Proof.Machine.execFadd d a b m w s
  | .fsub d a b m w => Sys2Proof.Machine.execFsub d a b m w s
  | .fmul d a b m w => Sys2Proof.Machine.execFmul d a b m w s
  | .fdiv d a b m w => Sys2Proof.Machine.execFdiv d a b m w s
  | .fsqrt d a m w => Sys2Proof.Machine.execFsqrt d a m w s
  | .frsq d a m w => Sys2Proof.Machine.execFrsq d a m w s
  | .fmin d a b w => Sys2Proof.Machine.execFmin d a b w s
  | .fmax d a b w => Sys2Proof.Machine.execFmax d a b w s
  | .fcvt d a c m w => Sys2Proof.Machine.execFcvt d a c m w s
  | .fcmpEq d a b w => Sys2Proof.Machine.execFcmpEq d a b w s
  | .fcmpLt d a b w => Sys2Proof.Machine.execFcmpLt d a b w s
  | .fcmpLe d a b w => Sys2Proof.Machine.execFcmpLe d a b w s
  | .fcmpUn d a b w => Sys2Proof.Machine.execFcmpUn d a b w s
  | .fclass d a w => Sys2Proof.Machine.execFclass d a w s
  | .fma d a b m w => Sys2Proof.Machine.execFma d a b m w s
  | .mfs d n => Sys2Proof.Machine.execMfs d n s
  | .mts a n => Sys2Proof.Machine.execMts a n s
  | .ld x b sp w o => Sys2Proof.Machine.execLd x b sp w o s
  | .st x b sp w o => Sys2Proof.Machine.execSt x b sp w o s
  | .vld x b sp o => Sys2Proof.Machine.execVld x b sp o s
  | .vgld x b sp o => Sys2Proof.Machine.execVgld x b sp o s
  | .vst x b sp o => Sys2Proof.Machine.execVst x b sp o s
  | .vlds x b o => Sys2Proof.Machine.execVlds x b o s
  | .vldsIx x b o => Sys2Proof.Machine.execVldsIx x b o s
  | .vsts x b o => Sys2Proof.Machine.execVsts x b o s
  | .lutx d a b k => Sys2Proof.Machine.execLutx d a b k s
  | .lutld a => Sys2Proof.Machine.execLutld a s
  | .beq a b d => Sys2Proof.Machine.execBeq a b d s
  | .bne a b d => Sys2Proof.Machine.execBne a b d s
  | .blt a b d => Sys2Proof.Machine.execBlt a b d s
  | .bge a b d => Sys2Proof.Machine.execBge a b d s
  | .bltn a b d => Sys2Proof.Machine.execBltn a b d s
  | .bgen a b d => Sys2Proof.Machine.execBgen a b d s
  | .bdnz a d => Sys2Proof.Machine.execBdnz a d s
  | .jal d => Sys2Proof.Machine.execJal d s
  | .jalr d a imm => Sys2Proof.Machine.execJalr d a imm s
  | .charge d a n => Sys2Proof.Machine.execCharge d a n s
  | .mcs d sp => Sys2Proof.Machine.execMcs d sp s
  | .crd d a h o => Sys2Proof.Machine.execCrd d a h o s
  | .crdt d a h o => Sys2Proof.Machine.execCrdt d a h o s
  | .cwr d a h o => Sys2Proof.Machine.execCwr d a h o s
  | .cwrt t a h o => Sys2Proof.Machine.execCwrt t a h o s
  | .advR a h o => Sys2Proof.Machine.execAdvR a h o s
  | .advW a h o => Sys2Proof.Machine.execAdvW a h o s
  | .emit a q => Sys2Proof.Machine.execEmit a q s
  | .exit n f => Sys2Proof.Machine.execExit n f s
  | .xwait sp a v c => Sys2Proof.Machine.execXwait sp a v c s
  | .xbar c sp n => Sys2Proof.Machine.execXbar c sp n s
  | .xamo sp a v o w => Sys2Proof.Machine.execXamo sp a v o w s
  | .xstop => Sys2Proof.Machine.execXstop s
  | .sadd sp a b w => Sys2Proof.Machine.execSadd sp a b w s
  | .smin sp a b w => Sys2Proof.Machine.execSmin sp a b w s
  | .smax sp a b w => Sys2Proof.Machine.execSmax sp a b w s
  | .sor sp a b w => Sys2Proof.Machine.execSor sp a b w s
  | .sand sp a b w => Sys2Proof.Machine.execSand sp a b w s
  | .sfadd sp a b => Sys2Proof.Machine.execSfadd sp a b s
  | .fenceAcq sp => Sys2Proof.Machine.execFenceAcq sp s
  | .tlbiPage a sp => Sys2Proof.Machine.execTlbiPage a sp s
  | .tlbiCtx sp => Sys2Proof.Machine.execTlbiCtx sp s
  | .tlbiPart sp => Sys2Proof.Machine.execTlbiPart sp s
  | .ptsync => Sys2Proof.Machine.execPtsync s
  | .trap c => Sys2Proof.Machine.execTrap c s
  | .brk => Sys2Proof.Machine.execBrk s
  | .vadd d a b k t => Sys2Proof.Machine.execVadd d a b k t s
  | .vsub d a b k t => Sys2Proof.Machine.execVsub d a b k t s
  | .vmul d a b k t => Sys2Proof.Machine.execVmul d a b k t s
  | .vmulh d a b k t => Sys2Proof.Machine.execVmulh d a b k t s
  | .vadds d a b k t => Sys2Proof.Machine.execVadds d a b k t s
  | .vsubs d a b k t => Sys2Proof.Machine.execVsubs d a b k t s
  | .vmin d a b k t => Sys2Proof.Machine.execVmin d a b k t s
  | .vmax d a b k t => Sys2Proof.Machine.execVmax d a b k t s
  | .vand d a b k t => Sys2Proof.Machine.execVand d a b k t s
  | .vor d a b k t => Sys2Proof.Machine.execVor d a b k t s
  | .vxor d a b k t => Sys2Proof.Machine.execVxor d a b k t s
  | .vandn d a b k t => Sys2Proof.Machine.execVandn d a b k t s
  | .vshl d a b k t => Sys2Proof.Machine.execVshl d a b k t s
  | .vshr d a b k t => Sys2Proof.Machine.execVshr d a b k t s
  | .vsar d a b k t => Sys2Proof.Machine.execVsar d a b k t s
  | .vabsd d a b k t => Sys2Proof.Machine.execVabsd d a b k t s
  | .vclz d a k t => Sys2Proof.Machine.execVclz d a k t s
  | .vpopc d a k t => Sys2Proof.Machine.execVpopc d a k t s
  | .vpack d a b k t => Sys2Proof.Machine.execVpack d a b k t s
  | .vunpack d a p k t => Sys2Proof.Machine.execVunpack d a p k t s
  | .vfadd d a b k t => Sys2Proof.Machine.execVfadd d a b k t s
  | .vfsub d a b k t => Sys2Proof.Machine.execVfsub d a b k t s
  | .vfmul d a b k t => Sys2Proof.Machine.execVfmul d a b k t s
  | .vfmin d a b k t => Sys2Proof.Machine.execVfmin d a b k t s
  | .vfmax d a b k t => Sys2Proof.Machine.execVfmax d a b k t s
  | .vfms d a b k t => Sys2Proof.Machine.execVfms d a b k t s
  | .vfnma d a b k t => Sys2Proof.Machine.execVfnma d a b k t s
  | .vscale d a b k t => Sys2Proof.Machine.execVscale d a b k t s
  | .vfma d a b c k t => Sys2Proof.Machine.execVfma d a b c k t s
  | .vcvt d a sp imm k p r t => Sys2Proof.Machine.execVcvt d a sp imm k p r t s
  | .vcvtSr d a sp imm k p t => Sys2Proof.Machine.execVcvtSr d a sp imm k p t s
  | .vrsum d a k t => Sys2Proof.Machine.execVrsum d a k t s
  | .vrmin d a k t => Sys2Proof.Machine.execVrmin d a k t s
  | .vrmax d a k t => Sys2Proof.Machine.execVrmax d a k t s
  | .vrfsum d a k t => Sys2Proof.Machine.execVrfsum d a k t s
  | .vscan d a k t => Sys2Proof.Machine.execVscan d a k t s
  | .vperm d a b k => Sys2Proof.Machine.execVperm d a b k s
  | .vshuf d a b k => Sys2Proof.Machine.execVshuf d a b k s
  | .vrot d a n k => Sys2Proof.Machine.execVrot d a n k s
  | .vnbr d a n k => Sys2Proof.Machine.execVnbr d a n k s
  | .vcmpEq d a b k t => Sys2Proof.Machine.execVcmpEq d a b k t s
  | .vcmpNe d a b k t => Sys2Proof.Machine.execVcmpNe d a b k t s
  | .vcmpLt d a b k t => Sys2Proof.Machine.execVcmpLt d a b k t s
  | .vcmpLe d a b k t => Sys2Proof.Machine.execVcmpLe d a b k t s
  | .vfcmpEq d a b k t => Sys2Proof.Machine.execVfcmpEq d a b k t s
  | .vfcmpLt d a b k t => Sys2Proof.Machine.execVfcmpLt d a b k t s
  | .vfcmpLe d a b k t => Sys2Proof.Machine.execVfcmpLe d a b k t s
  | .vfcmpUn d a b k t => Sys2Proof.Machine.execVfcmpUn d a b k t s
  | .vbcst d a k t => Sys2Proof.Machine.execVbcst d a k t s
  | .vins d a n t => Sys2Proof.Machine.execVins d a n t s
  | .vext d a n t => Sys2Proof.Machine.execVext d a n t s
  | .vmov d a k => Sys2Proof.Machine.execVmov d a k s
  | .vli d imm => Sys2Proof.Machine.execVli d imm s
  | .vlih d imm => Sys2Proof.Machine.execVlih d imm s
  | .vlui d imm => Sys2Proof.Machine.execVlui d imm s
  | .vorli d imm => Sys2Proof.Machine.execVorli d imm s
  | .vaddi d imm => Sys2Proof.Machine.execVaddi d imm s
  | .vsel d a b k => Sys2Proof.Machine.execVsel d a b k s
  | .kand d a b => Sys2Proof.Machine.execKand d a b s
  | .kor d a b => Sys2Proof.Machine.execKor d a b s
  | .knot d a => Sys2Proof.Machine.execKnot d a s
  | .kmov d a => Sys2Proof.Machine.execKmov d a s
  | .kmovFromScalar d a => Sys2Proof.Machine.execKmovFromScalar d a s
  | .kmovToScalar d a => Sys2Proof.Machine.execKmovToScalar d a s
  | .vrcp d a k t => Sys2Proof.Machine.execVrcp d a k t s
  | .vrsq d a k t => Sys2Proof.Machine.execVrsq d a k t s
  | .vexp2 d a k t => Sys2Proof.Machine.execVexp2 d a k t s
  | .vlog2 d a k t => Sys2Proof.Machine.execVlog2 d a k t s
  | .vtanh d a k t => Sys2Proof.Machine.execVtanh d a k t s
  | .fcLdi d n => Sys2Proof.Machine.execFcLdi d n s
  | .fcLdq d n => Sys2Proof.Machine.execFcLdq d n s
  | .fcLdp d n => Sys2Proof.Machine.execFcLdp d n s
  | .fcLde d n => Sys2Proof.Machine.execFcLde d n s
  | .fcLds d n => Sys2Proof.Machine.execFcLds d n s
  | .fcSto d n => Sys2Proof.Machine.execFcSto d n s
  | .fcAdd d sp => Sys2Proof.Machine.execFcAdd d sp s
  | .fcSub d sp => Sys2Proof.Machine.execFcSub d sp s
  | .fcShl d n => Sys2Proof.Machine.execFcShl d n s
  | .fcShr d n => Sys2Proof.Machine.execFcShr d n s
  | .fcAnd d sp => Sys2Proof.Machine.execFcAnd d sp s
  | .fcOr d sp => Sys2Proof.Machine.execFcOr d sp s
  | .fcMin d sp => Sys2Proof.Machine.execFcMin d sp s
  | .fcMax d sp => Sys2Proof.Machine.execFcMax d sp s
  | .fcSel d c sp => Sys2Proof.Machine.execFcSel d c sp s
  | .fcJmp n => Sys2Proof.Machine.execFcJmp n s
  | .fcJz d n => Sys2Proof.Machine.execFcJz d n s
  | .fcJnz d n => Sys2Proof.Machine.execFcJnz d n s
  | .fcJlt d n => Sys2Proof.Machine.execFcJlt d n s
  | .fcNextq d r => Sys2Proof.Machine.execFcNextq d r s
  | .fcPickmin d n => Sys2Proof.Machine.execFcPickmin d n s
  | .fcPickmax d n => Sys2Proof.Machine.execFcPickmax d n s
  | .fcDisp => Sys2Proof.Machine.execFcDisp s
  | .fcPreempt d => Sys2Proof.Machine.execFcPreempt d s
  | .fcFaultact d => Sys2Proof.Machine.execFcFaultact d s
  | .fcDefer => Sys2Proof.Machine.execFcDefer s
  | .fcEnd => Sys2Proof.Machine.execFcEnd s
  | .copy h o => Sys2Proof.Machine.execCopy h o s
  | .copy2d h o => Sys2Proof.Machine.execCopy2d h o s
  | .copyc h o => Sys2Proof.Machine.execCopyc h o s
  | .gather h o => Sys2Proof.Machine.execGather h o s
  | .scatter h o => Sys2Proof.Machine.execScatter h o s
  | .deck h o => Sys2Proof.Machine.execDeck h o s
  | .bload h o => Sys2Proof.Machine.execBload h o s
  | .mxt h o => Sys2Proof.Machine.execMxt h o s
  | .mxdrain h o => Sys2Proof.Machine.execMxdrain h o s
  | .coll h o => Sys2Proof.Machine.execColl h o s
  | .intake h o => Sys2Proof.Machine.execIntake h o s
  | .window h o => Sys2Proof.Machine.execWindow h o s
  | .note h o => Sys2Proof.Machine.execNote h o s
  | .qfence h o => Sys2Proof.Machine.execQfence h o s
  | .launch o => Sys2Proof.Machine.execLaunch o s
  | .pipe o => Sys2Proof.Machine.execPipe o s
  | .cmd o => Sys2Proof.Machine.execCmd o s
  | .signal o => Sys2Proof.Machine.execSignal o s
  | .wait o => Sys2Proof.Machine.execWait o s
  | .receipt o => Sys2Proof.Machine.execReceipt o s
  | .policyLoad o => Sys2Proof.Machine.execPolicyLoad o s
  | .policySwap => Sys2Proof.Machine.execPolicySwap s
  | .partCores o => Sys2Proof.Machine.execPartCores o s
  | .partPool o => Sys2Proof.Machine.execPartPool o s
  | .partCache o => Sys2Proof.Machine.execPartCache o s
  | .partQueue o => Sys2Proof.Machine.execPartQueue o s
  | .partLimits o => Sys2Proof.Machine.execPartLimits o s
  | .partVf o => Sys2Proof.Machine.execPartVf o s
  | .partDrop o => Sys2Proof.Machine.execPartDrop o s
  | .partCtx o => Sys2Proof.Machine.execPartCtx o s
  | .poolRefill part => Sys2Proof.Machine.execPoolRefill part s
  | .overrun die part => Sys2Proof.Machine.execOverrun die part s
  | .segmentLink cx qsel => Sys2Proof.Machine.execSegmentLink cx qsel s
  | .queueRoom row => Sys2Proof.Machine.execQueueRoom row s
  | .tlbiComplete row => Sys2Proof.Machine.execTlbiComplete row s
  | .activationReady cx act => Sys2Proof.Machine.execActivationReady cx act s
  | .isobarRound cx act => Sys2Proof.Machine.execIsobarRound cx act s
  | .decision die part => Sys2Proof.Machine.execDecision die part s
  | .deferInterval die part => Sys2Proof.Machine.execDeferInterval die part s
  | .lullResume core => Sys2Proof.Machine.execLullResume core s
  | .rowGate row => Sys2Proof.Machine.execRowGate row s
  | .walk port => Sys2Proof.Machine.execWalk port s
  | .drainLimit port => Sys2Proof.Machine.execDrainLimit port s
  | .faultLimit port => Sys2Proof.Machine.execFaultLimit port s
  | .replay port => Sys2Proof.Machine.execReplay port s
  | .windowFill die tile slot => Sys2Proof.Machine.execWindowFill die tile slot s
  | .faultRecordWrite cx => Sys2Proof.Machine.execFaultRecordWrite cx s
  | .machineCheck die => Sys2Proof.Machine.execMachineCheck die s
  | .schedulerEccError site => Sys2Proof.Machine.execSchedulerEccError site s
  | .sliceEnd part => Sys2Proof.Machine.execSliceEnd part s
  | .sliceStart part => Sys2Proof.Machine.execSliceStart part s
  | .scrollSaveComplete row => Sys2Proof.Machine.execScrollSaveComplete row s
  | .scrollRestoreComplete row => Sys2Proof.Machine.execScrollRestoreComplete row s
  | .frontDispatch row => Sys2Proof.Machine.execFrontDispatch row s
  | .frontIsobarRound row => Sys2Proof.Machine.execFrontIsobarRound row s
  | .commandComplete cx queue seq => Sys2Proof.Machine.execCommandComplete cx queue seq s
  | .collectiveResult inst => Sys2Proof.Machine.execCollectiveResult inst s
  | .messageDecided die place => Sys2Proof.Machine.execMessageDecided die place s
  | .messageDelivery die => Sys2Proof.Machine.execMessageDelivery die s
  | .doorbellWrite vf cx n => Sys2Proof.Machine.execDoorbellWrite vf cx n s
  | .waitTimeout cx => Sys2Proof.Machine.execWaitTimeout cx s
  | .receiptFinish cx => Sys2Proof.Machine.execReceiptFinish cx s
  | .batchClose => Sys2Proof.Machine.execBatchClose s
  | .contextResume cx => Sys2Proof.Machine.execContextResume cx s
  | .hostHalt cx => Sys2Proof.Machine.execHostHalt cx s
  | .resumeWithRewind cx => Sys2Proof.Machine.execResumeWithRewind cx s
  | .exportCtx cx => Sys2Proof.Machine.execExportCtx cx s
  | .importCtx cx => Sys2Proof.Machine.execImportCtx cx s
  | .releaseStubs cx => Sys2Proof.Machine.execReleaseStubs cx s
  | .claim vf bank => Sys2Proof.Machine.execClaim vf bank s
  | .release vf bank => Sys2Proof.Machine.execRelease vf bank s
  | .clearCounters vf bank => Sys2Proof.Machine.execClearCounters vf bank s
  | .counterLowRead vf bank k => Sys2Proof.Machine.execCounterLowRead vf bank k s
  | .voltageReportRead die => Sys2Proof.Machine.execVoltageReportRead die s
  | .voltageReportClear die => Sys2Proof.Machine.execVoltageReportClear die s
  | .debugStop cx => Sys2Proof.Machine.execDebugStop cx s
  | .debugRelease cx => Sys2Proof.Machine.execDebugRelease cx s
  | .liveDump cx => Sys2Proof.Machine.execLiveDump cx s
  | .registerWrite vf off v => Sys2Proof.Machine.execRegisterWrite vf off v s
  | .powerOn => Sys2Proof.Machine.execPowerOn s
  | .startUpRequest => Sys2Proof.Machine.execStartUpRequest s
  | .dieReset die => Sys2Proof.Machine.execDieReset die s
  | .feedLoss feed => Sys2Proof.Machine.execFeedLoss feed s
  | .feedReturn feed => Sys2Proof.Machine.execFeedReturn feed s
  | .powerLoss => Sys2Proof.Machine.execPowerLoss s
  | .powerWindow mean island => Sys2Proof.Machine.execPowerWindow mean island s
  | .powerCapSet watts => Sys2Proof.Machine.execPowerCapSet watts s
  | .lvlcapSet island level => Sys2Proof.Machine.execLvlcapSet island level s
  | .sensorRead sensor => Sys2Proof.Machine.execSensorRead sensor s
  | .getVersion => Sys2Proof.Machine.execGetVersion s
  | .getCapabilities => Sys2Proof.Machine.execGetCapabilities s
  | .negotiateAlgorithms sha256 slhDsa => Sys2Proof.Machine.execNegotiateAlgorithms sha256 slhDsa s
  | .getDigests => Sys2Proof.Machine.execGetDigests s
  | .getCertificate slot off len => Sys2Proof.Machine.execGetCertificate slot off len s
  | .challenge slot nonce => Sys2Proof.Machine.execChallenge slot nonce s
  | .getMeasurements index => Sys2Proof.Machine.execGetMeasurements index s
  | .configurationRequest off => Sys2Proof.Machine.execConfigurationRequest off s
  | .cxlMemRead dec addr size => Sys2Proof.Machine.execCxlMemRead dec addr size s
  | .cxlMemWrite dec addr size v => Sys2Proof.Machine.execCxlMemWrite dec addr size v s
  | .flitReceive flit => Sys2Proof.Machine.execFlitReceive flit s
  | .timeFlit master => Sys2Proof.Machine.execTimeFlit master s
  | .portDown port => Sys2Proof.Machine.execPortDown port s
  | .routeReturn dest port => Sys2Proof.Machine.execRouteReturn dest port s
  | .voltageMinimum die mv sensor island => Sys2Proof.Machine.execVoltageMinimum die mv sensor island s
  | .routeTableLoad table => Sys2Proof.Machine.execRouteTableLoad table s
  | .collectiveFaultLimit inst => Sys2Proof.Machine.execCollectiveFaultLimit inst s

end Sys2Proof.Machine
end

