-- ==== Sys2Proof/Machine/Fetch.lean ====
section
/-! DEFINITION. What the agents do around an instruction: the fetch (R29, R312), the word an engine, a ring or a decision works on, the beat
classes (R349, R350), the refill of the pools as ticks pass (R70), and the places from which `withFetchWord` runs a word. -/

namespace Sys2Proof.Machine

/-! ## Fetch (R29) -/

/-- The fetch step: a word, a stop of an address that no translation covers, a miss, or a context fault. -/
inductive Fetch where
  | word (w : Nat) (s : State)
  | stop
  | miss
  | fault (cls detail addr : Nat)

/-- Whether a fetch of a receipt's activation leaves the measured code (R312). -/
def State.unmeasured (s : State) (t : Task) : Bool :=
  t.receipt && ((s.ctx t.cx).bind fun x => x.receipt).any fun r => !(decide (r.codea + 16 ≤ t.pc.toNat) && decide (t.pc.toNat < r.codea + 16 + r.clen))

/-- Step 1, and its word kept with the task. An instruction that waits at its step 4 is not fetched again. -/
def State.fetch (s : State) (t : Task) : Fetch :=
  if t.charged then .word t.ir s
  else if s.unmeasured t then .fault 10 0 t.pc.toNat
  else if isCanon t.pc.toNat = false then .stop
  else
    match s.lookup t.row t.cx t.pc.toNat 0 with
    | some (.ok e) =>
      let k := entKey e t.pc.toNat
      (match s.poisoned k 4 with
      | some _ => .fault 12 0 (t.pc.toNat - t.pc.toNat % 256)
      | none => .word (getN s.mem k 4) ((s.usePort t.row e).setTask t.row (some { t with ir := getN s.mem k 4 })))
    | some .prot => .fault 3 0 t.pc.toNat
    | _ => .miss

/-! ## Beats (R349, R350) -/

/-- Whether a position's restore waits for its prefetch, which `Q.CP0` has no room for (R222). -/
def Pipe.waitsPref (p : Pipe) (h : Hosted) : Bool := h.st == .restoreWait && p.prefs.contains (if h.parking then h.pos else p.next, none)

/-- Whether the link or the header of a segment waits for the page service (R63, R361). -/
def State.linkStalled (s : State) (cx : Nat) : Bool := s.pendR.any (fun (m : Miss) => m.who.isRecord cx 0) || s.headPending cx

/-- The class of a row's latest beat, and its port code. -/
def State.rowClass (s : State) (r : Nat) : Nat × Nat :=
  let w := s.row r
  match w.task with
  | none =>
    (match s.hostOf r with
    | some (cx, p, h) =>
      if h.st != .hosted then (if s.pipeStalled cx p.q r then (6, 37) else if p.waitsPref h then (7, 34) else (2, 0))
      else if p.posReady s.mem h.pos == some true && decide ((s.part (partOf cx)).plevel < stPps (p.st (p.stage h.pos))) then (4, 0)
      else (3, 0)
    | none => (3, 0))
  | some t =>
    if s.stands r t then (5, 0)
    else if t.faulted then (3, 0)
    else if (s.port r).walk.isSome || (s.port r).miss.isSome then (6, portCode r)
    else if s.pendR.any (fun (m : Miss) => m.who == Who.row r) then (6, 37)
    else match t.commit.map (fun (c : Commit) => c.wait) with
      | some .hold => (7, 35)
      | some .room => (7, 34)
      | some (.segment _) => if s.linkStalled t.cx then (6, 37) else (7, 33)
      | some .quota => (7, 33)
      | some (.pod _) => (7, 32)
      | _ => (0, 0)

/-- The VF a row's beats belong to; none, and so no guest's, where nothing occupies it (R352). -/
def State.rowVf (s : State) (r : Nat) : Nat :=
  match (s.row r).task with
  | some t => t.vf
  | none => match (s.row r).claim with
    | some (cx, _) => s.vfOf cx
    | none => 2 ^ 32

/-- The class of a turn of a row, its port code, and whose beats they are: a turn in which the task `old` has ended was work of that task (R349). -/
def State.turnClass (s : State) (r : Nat) (old : Option Task) : (Nat × Nat) × Nat :=
  match old with
  | some t => if (s.task r).isNone then ((0, 0), t.vf) else (s.rowClass r, s.rowVf r)
  | none => (s.rowClass r, s.rowVf r)

/-- The beats of a row in a turn that its task `old` began, as many as a free value says (R8, log 11). -/
def State.beat (s : State) (r : Nat) (old : Option Task) : State :=
  let c := s.turnClass r old
  ({ s with freeCtr := s.freeCtr + 1 }.beats (r / 12) (r % 12) c.1.1 (Config.freeNat s.freeCtr) c.2).modRow r fun w => { w with cls := c.1.1, port := c.1.2 }

/-- After an instruction, the translations its accesses obtained are no longer held for it (R243). -/
def State.endAccess (s : State) (r : Nat) : State :=
  if (s.port r).walk.isSome || (s.port r).miss.isSome then s else s.modPort r fun p => { p with got := [] }

/-- Whether a row makes no progress in a turn: frozen, faulted, or behind its port or the device (R243, R246, R322, R361). -/
def State.held (s : State) (r : Nat) (t : Task) : Bool :=
  t.faulted || s.translating r || s.stands r t

/-! ## Engines -/

/-- The port of a queue's engine for a command. -/
def enginePort (cx k : Nat) (c : Cmd) : Nat := (⟨cx, k, c⟩ : Iss).port

/-- The unit a queue's engine is in a counter bank (R352); none for the engines of a base die. -/
def engineUnit (code : Nat) : Option Nat := if code = 0 then some 12 else if code ≤ 2 then some 13 else if code = 4 then some 14 else none

/-- The operands of a command that is a tile-task. -/
def Cmd.mxt (c : Cmd) : Option MxtOps :=
  match decodeCommand c.w0 c.w1 with
  | some (.mxt _ o) => some o
  | _ => none

/-- Whether a command loads the tile that a tile-task behind it swaps in first (R165). -/
def State.loadsAhead (s : State) (cx k : Nat) (c : Cmd) : Bool :=
  codeOf k == 0 && opcOf c.w0 == 0x07 && ((s.ctx cx).bind fun x => (getEq x k).cmds.find? fun d => decide (c.seq < d.seq)).any fun d => d.mxt.any fun o => o.swap0 == 1

/-- Whether the miss at a port is one of a queue's own engine (R183): the array, a copy engine and the collective engine of a core share `CP0`. -/
def Who.ofEngine (w : Who) (k : Nat) : Bool :=
  match w with
  | .engine _ n => codeOf n == codeOf k
  | .message .. => codeOf k == 5
  | _ => false

/-- Whether the engine of a queue is stalled by a miss of its own (R183). -/
def State.engineStalled (s : State) (cx k : Nat) (c : Cmd) : Bool := (s.port (enginePort cx k c)).miss.any fun m => m.who.ofEngine k

/-- Whether a command at its head waits on a translation: its engine's, a port that another engine's miss holds, or the read or the write of its
context's array image (R183, R349, R361). -/
def State.engineTranslating (s : State) (cx k : Nat) (c : Cmd) : Bool :=
  s.engineStalled cx k c || (c.held && (s.port (enginePort cx k c)).miss.isSome)
    || (ownsArray k c && (s.pendR.any (fun (m : Miss) => m.who == Who.engine cx (5 * c.core)) || s.imagePending cx c.core))

/-- The class of an engine's latest beat (R165, R349), a command as its turn found it and as it stands now. -/
def State.engineClass (s : State) (cx k : Nat) (old c : Cmd) : Nat :=
  if s.engineTranslating cx k c then 6
  else match c.st with
    | .done => if s.loadsAhead cx k c then 1 else 0
    | .issued =>
      if opcOf c.w0 = 0x0E then 0
      else if opcOf c.w0 = 0x08 ∧ old.st = .issued ∧ old.rows = c.rows ∧ old.chunk = c.chunk ∨ codeOf k = 4 then 7 else 0
    | _ => if !(s.ctx cx).any fun x => s.mayIssue x c then 3 else if c.held then 7 else if c.due.isSome then 4 else 3

/-- Whether beats of a tile-task wait for its chained loads: with nine rows or more a load hides behind the chunk before it (R165). -/
def Cmd.waitsLoads (c : Cmd) : Bool := c.mxt.any fun o => decide (1 < mxtK o) && decide (mxtM o < 9)

/-- An engine's beats in a turn, as many as free values say; an engine with no command counts a beat as well (R165, R349, log 11). -/
def State.engineBeat (s : State) (cx k : Nat) (c : Option Cmd) : State :=
  match engineUnit (codeOf k) with
  | none => s
  | some u =>
    let n := Config.freeNat s.freeCtr
    let t := { s with freeCtr := s.freeCtr + 2 }
    match c with
    | none => if s.ctxs.any fun e => !(getEq e.2 k).cmds.isEmpty then s else t.beats (k / 5) u 3 n (2 ^ 32)
    | some c =>
      let cls := s.engineClass cx k c (((s.ctx cx).bind fun x => findCmd x k c.seq).getD c)
      let t := t.beats c.core u cls n (s.vfOf cx)
      if cls = 0 ∧ c.waitsLoads = true then t.beats c.core u 1 (Config.freeNat (s.freeCtr + 1)) (s.vfOf cx) else t

/-- The command an engine works on, unless a miss stalls the engine. -/
def State.engineWord (s : State) (cx k : Nat) : Option (Cmd × Option Instr) :=
  match (s.ctx cx).bind fun x => headCmd x k with
  | none => none
  | some c => some (c, if s.engineStalled cx k c then none else decodeCommand c.w0 c.w1)

/-- What a decision performs next (R269, R273). -/
def State.forecastWord (s : State) (die part : Nat) : Option Instr :=
  match (s.fcast (16 * die + part)).run with
  | none => none
  | some d => if d.overDue then some (.overrun die part) else (d.image.words[d.pc]?).bind fun w => decodeForecast w.toNat

/-! ## Ticks (R5, R70, R341) -/

/-- For how many ticks of the master the timebase still runs at half rate: until it is at most 16 ahead. -/
def State.slowFor (s : State) : Nat := if s.lead ≤ 16 then 0 else 2 * (s.lead - 16) - 1 + (if s.tbHalf then 1 else 0)

/-- By how much the timebase advances while the master's advances by dt. -/
def State.advanceOf (s : State) (dt : Nat) : Nat := (min dt s.slowFor + (if s.tbHalf then 1 else 0)) / 2 + (dt - s.slowFor)

/-- Ticks pass: the timebase advances, at half rate while it is too far ahead of the pod's master, and with it the refill of every pool is carried;
the pod's flits are acknowledged and leave. -/
def State.pass (s : State) (dt : Nat) : State :=
  let n := s.advanceOf dt
  ({ s with
      tb := s.tb + n
      lead := s.lead - (dt - n)
      tbHalf := decide (dt < s.slowFor) && (decide (dt % 2 = 1) != s.tbHalf)
      parts := s.parts.map fun e => (e.1, { e.2 with carry := e.2.carry + e.2.prate * n }) } : State).acked.podGo.sendTime

/-- A partition whose carried refill has reached a whole packet. -/
def State.refill (s : State) : Option Nat := (s.parts.find? fun e => decide (10 ^ 6 ≤ e.2.carry)).map Prod.fst

/-! ## A place to run a word from -/

/-- A task of context 0 on row 0 of core 0, at the first word of a page of its own (log 20). -/
def placeTask : Task := newTask 0 0 0 (0x4000 + 2 ^ 80 + 2 ^ 90) 4095 0 0 0 0 0 []

/-- The task that runs the word: row 0's own where its next turn fetches, else `placeTask`. -/
def State.placed (s : State) : Task :=
  match s.task 0 with
  | none => placeTask
  | some t => if t.faulted || t.frozen || t.commit.isSome || !isCanon t.pc.toNat || t.pc.toNat % 4 != 0 || s.unmeasured t then placeTask else { t with charged := false }

/-- The entry through which a task fetches: a page that holds its pc, every permission. -/
def State.placeEntry (s : State) (t : Task) : PEnt :=
  let va := va57 t.pc.toNat
  ⟨va / 4096 * 4096, 4096, 0x4000, 0x4000, true, true, true, true, false, 0, 0, 0, 0, t.cx, s.rootOf t.cx, 12, 12⟩

/-- Nothing that a turn would do before the word is left: no wait of the agenda, no carried packet, and the device serves (log 20). -/
def State.ready (s : State) : State :=
  { s with phase := .complete, agenda := [], parts := s.parts.map fun e => (e.1, { e.2 with carry := e.2.carry % 10 ^ 6 }) }

/-- A decision of partition 0 on die 0 whose image is one word. -/
def placeDecision (w : Nat) : Decision :=
  ⟨0, 0, 0, Vector.replicate 8 0, none, 0, 0, none, [], [], [], [], ⟨[BitVec.ofNat 16 w], 0⟩, 0, Vector.replicate 16 0, false⟩

end Sys2Proof.Machine
end

