-- ==== Sys2Proof/Machine/Step.lean ====
section
/-! DEFINITION. One step of the machine: ticks pass, or the agent whose turn it is moves (log 1). -/

namespace Sys2Proof.Machine

/-- The row after an instruction of its task `t`. -/
def afterRow (r : Nat) (t : Task) (o : Host.Outcome State Fault Refusal) : Host.Outcome State Fault Refusal :=
  match o with
  | .next s => .next ((s.endAccess r).beat r (some t))
  | o => o

/-- A row's turn: its commit goes on, or its task's next instruction is fetched, decoded and performed (R29). -/
def State.rowTurn (s : State) (r : Nat) : Host.Outcome State Fault Refusal :=
  match s.task r with
  | none => .next (s.beat r none)
  | some t =>
    if s.held r t then .next (s.beat r (some t))
    else if t.commit.isSome then .next ((s.commitGo r).beat r (some t))
    else
      let s := if (s.row r).gated then s.modRow r fun w => { w with gated := false } else s
      match s.fetch t with
      | .stop => afterRow r t (.next (s.stopTask t .unresolved))
      | .miss => .next ((s.missRow t t.pc.toNat 0).beat r (some t))
      | .fault c d a => .next ((s.faultTask t c d a).beat r (some t))
      | .word w s =>
        match decodeTask w with
        | none => afterRow r t (.next (s.stopTask t .illegal))
        | some i => afterRow r t (exec i s)

/-- An engine's turn: the command at its head is examined, issued or worked on (R172). -/
def State.engineStep (s : State) (cx k : Nat) : Host.Outcome State Fault Refusal :=
  match s.engineWord cx k with
  | none => .next (s.engineBeat cx k none)
  | some (c, none) => .next (s.engineBeat cx k (some c))
  | some (c, some i) =>
    match exec i s with
    | .next s => .next (s.engineBeat cx k (some c))
    | o => o

/-- A ring's turn (R276). -/
def State.ringStep (s : State) (cx : Nat) : Host.Outcome State Fault Refusal :=
  match s.ringTurn cx with
  | (s, none) => .next s
  | (s, some i) => exec i s

/-- A decision's turn (R270). -/
def State.forecastStep (s : State) (die part : Nat) : Host.Outcome State Fault Refusal :=
  match s.forecastWord die part with
  | none => .next s
  | some i => exec i s

/-- The agent whose turn it is moves. An event happens once, and nobody's turn follows it. -/
def State.move (s : State) : Host.Outcome State Fault Refusal :=
  match s.turn with
  | .event .powerOn => exec .powerOn { s with turn := .idle }
  | t =>
    if s.phase = .off then .fault .noPower
    else match t with
      | .idle => .next s
      | .row r => s.rowTurn r
      | .engine cx k => s.engineStep cx k
      | .ring cx => s.ringStep cx
      | .forecast d p => s.forecastStep d p
      | .event i => exec i { s with turn := .idle }

/-- One step: a whole packet of refill joins its pool (R70), ticks pass, or an agent moves. -/
def step (s : State) : Host.Outcome State Fault Refusal :=
  match s.refill with
  | some p => exec (.poolRefill p) s
  | none =>
    match s.agenda with
    | [] => s.move
    | a :: r => if a.dt = 0 then { s with agenda := r, turn := a.who }.move else .next { s.pass a.dt with agenda := { a with dt := 0 } :: r }

/-- The word stands where the next step fetches: a 32-bit word where row 0's task is, a 16-bit word in the image of a decision of partition 0
on die 0 (log 20). -/
def State.withFetchWord (s : State) (nbits w : Nat) : State :=
  if nbits ≤ 16 then
    { s.ready with turn := .forecast 0 0 }.modFcast 0 fun f => { f with run := some (placeDecision w) }
  else
    let t := s.placed
    ({ s.ready with turn := .row 0, pendR := s.pendR.filter fun (m : Miss) => m.who != Who.row 0 } : State).setTask 0 (some t)
      |>.setPort 0 ⟨[s.placeEntry t], [], none, none⟩ |>.writeN (0x4000 + t.pc.toNat % 4096) 4 w

end Sys2Proof.Machine
end

