-- ==== Sys2Proof/Safety.lean ====
section
/-! DEFINITION. The terms that statements about the machine use: a safe run, and the situations in which an agent performs an
instruction. -/

namespace Sys2Proof.Safety

open Sys2Proof.Machine

/-- The outcome is a next state. -/
def Answers (o : Host.Outcome State Fault Refusal) : Prop := ∃ s, o = .next s

/-- The next `n` steps all answer a next state: no fault and no refusal of the model ends the run. -/
def Runs : Nat → State → Prop
  | 0, _ => True
  | n + 1, s => ∃ t, step s = .next t ∧ Runs n t

/-- The row whose turn it is runs the task `t`, and its charge of `n` is paid (R29, R37): `s1` and `t1` are the state and the task then. -/
def Paying (s : State) (r : Nat) (t : Task) (n : Nat) (s1 : State) (t1 : Task) : Prop :=
  s.turn = .row r ∧ s.task r = some t ∧ s.pay t n = .ok s1 t1

/-- A scalar access of `size` bytes passes the checks of R38 and its location `k` is known. `s2` is the state once a port has served it, and
`es` are the entries used: one for `mem`, none for the other spaces. -/
def Located (s : State) (t : Task) (sp : Nat) (ea : Word) (size acc : Nat) (s2 : State) (k : Nat) (es : List PEnt) : Prop :=
  ea.toNat % size = 0 ∧
  if sp = 0 then
    isCanon ea.toNat = true ∧ ∃ e, s.lookup t.row t.cx ea.toNat acc = some (.ok e) ∧ s2 = s.usePort t.row e ∧ k = entKey e ea.toNat ∧ es = [e]
  else ea.toNat < extent sp ∧ s2 = s ∧ es = [] ∧
    if sp = 1 then k = laneKey t.row 0 ea.toNat else s.reachable t.cx t.core sp ea.toNat size = true ∧ k = spaceKey sp t.core ea.toNat

/-- The Forecast unit whose turn it is runs the decision `d`, with operations left (R270, R273). -/
def Deciding (s : State) (die p : Nat) (d : Decision) : Prop :=
  s.turn = .forecast die p ∧ (s.fcast (16 * die + p)).run = some d ∧ d.ops < 128

/-- The ring whose turn it is has the packet `c` at its head (R276). -/
def AtHead (s : State) (cx : Nat) (x : Ctx) (c : Cur) : Prop := s.turn = .ring cx ∧ s.ctx cx = some x ∧ x.cur = some c

/-- The engine whose turn it is has the command `c`, not yet issued, at the head of its queue `k`, and the conditions of R172 hold: its wait is
satisfied, the pool pays `cost` in whole packets or has paid them (R71), and the array and deck, where the command works on them, are the
context's. `s1` is the state then. -/
def Issues (s : State) (cx k : Nat) (x : Ctx) (c : Cmd) (cost : Nat) (s1 : State) : Prop :=
  s.turn = .engine cx k ∧ s.ctx cx = some x ∧ headCmd x k = some c ∧ (c.st = .queued ∨ c.st = .paid) ∧ s.mayIssue x c = true ∧
  ∃ s0, (if ownsArray k c = true then s.takeArray cx c.core = (true, s0) else s0 = s) ∧ s0.payCmd cx c (cdiv cost 64) = some s1

/-- A command's writes are all performed (R172), and the command that is then at the head is examined (R187). -/
def performed (s : State) (cx k : Nat) (c : Cmd) : State := (s.modCmd cx k c.seq fun d => { d with st := .done, due := none, held := false }).modCtx cx Ctx.latch

/-- A command has issued, and its engine works on it (R172, R187). -/
def underway (s : State) (cx k : Nat) (c : Cmd) : State := (s.modCmd cx k c.seq fun d => { d with st := .issued, due := none, held := false }).modCtx cx Ctx.latch

/-- The reads of a PIPE's stage descriptors, `n` of them after those in `ws`: `s1` is the state after the last, `out` all descriptors (R219). -/
def StagesRead (s : State) (cx stab : Nat) : Nat → List Nat → State → List Nat → Prop
  | 0, ws, s1, out => s1 = s ∧ out = ws
  | n + 1, ws, s1, out => ∃ w s2, s.devRead cx ((stab + 64 * ws.length) % 2 ^ 64) 64 = .ok w s2 ∧ stageOk w = true ∧
      StagesRead s2 cx stab n (ws ++ [w]) s1 out

end Sys2Proof.Safety
end

