-- ==== Sys2Proof/Certificates/Slice0/Obligations.lean ====
section
/-! DEFINITION. The statements about the machine. `Paying s r t n s1 t1` says that the row r runs the task t and pays n; an
instruction's result is then `retire s1 t'`: the state s1 with the task t' on its row. -/

open Sys2Proof Sys2Proof.Machine Sys2Proof.Safety

/-! ## Task instructions: results and completion -/

/-- R85: every integer register operation but BEXT, BDEP and the divisions (DIV, DIVN, REM and REMN: DivisionResults) completes and writes its result
to `d`. -/
def Obligations.IntegerResults : Prop :=
  ∀ (s s1 : State) (r : Nat) (t t1 : Task) (d a b : BitVec 5),
    let x := t1.S a
    let y := t1.S b
    let gives (i : Instr) (v : Word) : Prop := exec i s = .next (retire s1 (t1.setS d v).adv)
    (Paying s r t 4 s1 t1 →
      gives (.add d a b) (x + y) ∧ gives (.sub d a b) (x - y) ∧
      gives (.and d a b) (x &&& y) ∧ gives (.or d a b) (x ||| y) ∧ gives (.xor d a b) (x ^^^ y) ∧ gives (.andn d a b) (x &&& ~~~y) ∧
      gives (.shl d a b) (x <<< (y.toNat % 64)) ∧ gives (.shr d a b) (x >>> (y.toNat % 64)) ∧
      gives (.sar d a b) (x.sshiftRight (y.toNat % 64)) ∧
      gives (.min d a b) (if x.toInt < y.toInt then x else y) ∧ gives (.max d a b) (if x.toInt < y.toInt then y else x) ∧
      gives (.minn d a b) (if x.toNat < y.toNat then x else y) ∧ gives (.maxn d a b) (if x.toNat < y.toNat then y else x) ∧
      gives (.slt d a b) (if x.toInt < y.toInt then 1 else 0) ∧ gives (.sltn d a b) (if x.toNat < y.toNat then 1 else 0) ∧
      gives (.seq d a b) (if x = y then 1 else 0) ∧
      gives (.clz d a) (BitVec.ofNat 64 (if x = 0 then 64 else 63 - x.toNat.log2)) ∧
      gives (.popc d a) (BitVec.ofNat 64 ((List.range 64).countP fun i => x.getLsbD i)) ∧
      gives (.sext d a 0) ((x.setWidth 8).signExtend 64) ∧ gives (.sext d a 1) ((x.setWidth 16).signExtend 64) ∧
      gives (.sext d a 2) ((x.setWidth 32).signExtend 64) ∧ gives (.zext d a 0) ((x.setWidth 8).setWidth 64) ∧
      gives (.zext d a 1) ((x.setWidth 16).setWidth 64) ∧ gives (.zext d a 2) ((x.setWidth 32).setWidth 64)) ∧
    (Paying s r t 8 s1 t1 →
      gives (.mul d a b) (x * y) ∧
      gives (.mulh d a b) (BitVec.ofInt 64 (x.toInt * y.toInt / 2 ^ 64)) ∧
      gives (.mulhn d a b) (BitVec.ofNat 64 (x.toNat * y.toNat / 2 ^ 64)))

/-- R86: division never stops a task and raises no flag: it writes its result, all ones or the dividend where the divisor is zero. With the
words and results of the rule's examples. -/
def Obligations.DivisionResults : Prop :=
  (∀ (s s1 : State) (r : Nat) (t t1 : Task) (d a b : BitVec 5),
    let x := t1.S a
    let y := t1.S b
    let gives (i : Instr) (v : Word) : Prop := exec i s = .next (retire s1 (t1.setS d v).adv)
    (Paying s r t 24 s1 t1 →
      (y = 0 → gives (.div d a b) (BitVec.allOnes 64) ∧ gives (.divn d a b) (BitVec.allOnes 64) ∧ gives (.rem d a b) x ∧ gives (.remn d a b) x) ∧
      (y ≠ 0 → gives (.div d a b) (BitVec.ofInt 64 (x.toInt.tdiv y.toInt)) ∧ gives (.divn d a b) (BitVec.ofNat 64 (x.toNat / y.toNat)) ∧
        gives (.rem d a b) (BitVec.ofInt 64 (x.toInt.tmod y.toInt)) ∧ gives (.remn d a b) (BitVec.ofNat 64 (x.toNat % y.toNat))) ∧
      (x = BitVec.intMin 64 ∧ y = BitVec.allOnes 64 → gives (.div d a b) (BitVec.intMin 64) ∧ gives (.rem d a b) 0) ∧
      (x = -7 ∧ y = 2 → gives (.div d a b) (-3) ∧ gives (.rem d a b) (-1)) ∧
      (∀ v, (t1.setS d v).adv.flags = t.flags)) ∧
    (Paying s r t 8 s1 t1 → x = BitVec.allOnes 64 ∧ y = BitVec.allOnes 64 → gives (.mulhn d a b) 0xFFFFFFFFFFFFFFFE) ∧
    (Paying s r t 4 s1 t1 → (x = 0xB6 ∧ y = 0xF0 → gives (.bext d a b) 0xB) ∧ (x = 0xB ∧ y = 0xF0 → gives (.bdep d a b) 0xB0) ∧
      (x = 0x80000000 → gives (.sext d a 2) 0xFFFFFFFF80000000))) ∧
  decodeTask 0x04642800 = some (.add 3 4 5) ∧ decodeTask 0x04C74030 = some (.divn 6 7 8) ∧ decodeTask 0x04C74028 = some (.div 6 7 8) ∧
  decodeTask 0x04642820 = some (.mulhn 3 4 5) ∧ decodeTask 0x052A58C8 = some (.bext 9 10 11) ∧ decodeTask 0x044200DA = some (.sext 2 2 2)

/-- R85: BEXT packs the bits of x at the positions where y is 1 into the low bits; BDEP places the low bits of x at those positions. -/
def Obligations.BitMoves : Prop :=
  ∀ (s s1 : State) (r : Nat) (t t1 : Task) (d a b : BitVec 5), Paying s r t 4 s1 t1 →
    let x := t1.S a
    let y := t1.S b
    let below (i : Nat) : Nat := (List.range i).countP fun j => y.getLsbD j
    exec (.bext d a b) s = .next (retire s1 (t1.setS d (BitVec.ofNat 64
      ((List.range 64).map fun i => if y.getLsbD i && x.getLsbD i then 2 ^ below i else 0).sum)).adv) ∧
    exec (.bdep d a b) s = .next (retire s1 (t1.setS d (BitVec.ofNat 64
      ((List.range 64).map fun i => if y.getLsbD i && x.getLsbD (below i) then 2 ^ i else 0).sum)).adv)

/-- R87: every immediate form costs 4 RU, completes, and writes its result to `d`; and the words of the nine forms, with any fields. A shift of
kind 3 or with a high bit of its immediate set, and an LUI whose `a` is not 0, are no instruction. -/
def Obligations.ImmediateResults : Prop :=
  ∀ (s s1 : State) (r : Nat) (t t1 : Task) (d a : BitVec 5) (i : BitVec 16) (n : BitVec 6), Paying s r t 4 s1 t1 →
    let x := t1.S a
    let gives (j : Instr) (v : Word) : Prop := exec j s = .next (retire s1 (t1.setS d v).adv)
    gives (.addi d a i) (x + i.signExtend 64) ∧ gives (.andi d a i) (x &&& i.setWidth 64) ∧ gives (.ori d a i) (x ||| i.setWidth 64) ∧
    gives (.xori d a i) (x ^^^ i.setWidth 64) ∧ gives (.shli d a n) (x <<< n.toNat) ∧ gives (.shri d a n) (x >>> n.toNat) ∧
    gives (.sari d a n) (x.sshiftRight n.toNat) ∧ gives (.lui d i) (((i.setWidth 32) <<< 16 : BitVec 32).signExtend 64) ∧
    gives (.slti d a i) (if x.toInt < (i.signExtend 64).toInt then 1 else 0) ∧ (i = 0xFFFE → gives (.lui d i) 0xFFFFFFFFFFFE0000) ∧
    (t.charged = false → t1.meter = t.meter + 4) ∧
    (let word (op : Nat) : Nat := op * 2 ^ 26 + d.toNat * 2 ^ 21 + a.toNat * 2 ^ 16 + i.toNat
     let amount := i.setWidth 6
     decodeTask (word 2) = some (.addi d a i) ∧ decodeTask (word 3) = some (.andi d a i) ∧ decodeTask (word 4) = some (.ori d a i) ∧
     decodeTask (word 5) = some (.xori d a i) ∧
     decodeTask (word 6) = (match i.toNat / 64 with
       | 0 => some (.shli d a amount)
       | 1 => some (.shri d a amount)
       | 2 => some (.sari d a amount)
       | _ => none) ∧
     decodeTask (word 7) = (if a = 0 then some (.lui d i) else none) ∧ decodeTask (word 8) = some (.slti d a i)) ∧
    decodeTask 0x18C60010 = some (.shli 6 6 16) ∧ decodeTask 0x184300BF = some (.sari 2 3 63) ∧ decodeTask 0x1C80FFFE = some (.lui 4 0xFFFE) ∧
    decodeTask 0x2064FFFB = some (.slti 3 4 (-5))

/-! ## Scalar floating point -/

/-- R83, R84, R88, R90 to R92: every scalar floating-point operation completes, writes its result zero-extended, and raises its flags. The
results are those of the operations on bits whose special cases `FloatSpecialCases` states. -/
def Obligations.FloatResults : Prop :=
  ∀ (s s1 : State) (r : Nat) (t t1 : Task) (d a b : BitVec 5) (m w : BitVec 3),
    let F := fmOf w.toNat
    let x := (t1.S a).toNat % 2 ^ F.width
    let y := (t1.S b).toNat % 2 ^ F.width
    let rm := Rm.mode m.toNat
    let gives (i : Instr) (v : Nat × Fl) : Prop := exec i s = .next (retire s1 ((t1.raise v.2).setS d (BitVec.ofNat 64 v.1)).adv)
    let holds (i : Instr) (v : Bool × Fl) : Prop := gives i (if v.1 then 1 else 0, v.2)
    (Paying s r t 8 s1 t1 →
      gives (.fadd d a b m w) (fAdd F rm x y) ∧ gives (.fsub d a b m w) (fSub F rm x y) ∧ gives (.fmul d a b m w) (fMul F rm x y) ∧
      gives (.fmin d a b w) (fMinMax F false x y) ∧ gives (.fmax d a b w) (fMinMax F true x y) ∧
      holds (.fcmpEq d a b w) (fCmp F 0 x y) ∧ holds (.fcmpLt d a b w) (fCmp F 1 x y) ∧
      holds (.fcmpLe d a b w) (fCmp F 2 x y) ∧ holds (.fcmpUn d a b w) (fCmp F 3 x y) ∧
      gives (.fclass d a w) (2 ^ fClass F x, 0) ∧
      gives (.fcvt d a 0 m w) (fConv fp32 F rm ((t1.S a).toNat % 2 ^ 32)) ∧ gives (.fcvt d a 1 m w) (fConv fp16 F rm ((t1.S a).toNat % 2 ^ 16)) ∧
      gives (.fcvt d a 2 m w) (fConv bf16 F rm ((t1.S a).toNat % 2 ^ 16)) ∧
      gives (.fcvt d a 3 m w) (intToF F rm (t1.S a).toInt) ∧ gives (.fcvt d a 4 m w) (intToF F rm (t1.S a).toNat) ∧
      (let v := fToInt F rm (-2 ^ 63) (2 ^ 63 - 1) x; gives (.fcvt d a 5 m w) ((v.1 % 2 ^ 64).toNat, v.2)) ∧
      (let v := fToInt F rm 0 (2 ^ 64 - 1) x; gives (.fcvt d a 6 m w) ((v.1 % 2 ^ 64).toNat, v.2))) ∧
    (Paying s r t 24 s1 t1 →
      gives (.fdiv d a b m w) (fDiv F rm x y) ∧ gives (.fsqrt d a m w) (fSqrt F rm x) ∧ gives (.frsq d a m w) (fRsq F rm x)) ∧
    (Paying s r t 10 s1 t1 → gives (.fma d a b m w) (fFma F rm x y ((t1.S d).toNat % 2 ^ F.width)))

/-- R88 to R92: NaN operands, the invalid cases and the special results of the scalar floating-point operations; the class of each bit pattern;
conversions of NaNs, infinities and numbers outside the range, and of numbers within it; and FMA's invalid cases and infinite results. -/
def Obligations.FloatSpecialCases : Prop :=
  ∀ (w u : BitVec 3) (rm : Rm) (x y z : Nat),
    let F := fmOf w.toNat
    let G := fmOf u.toNat
    let X := F.value x
    let Y := F.value y
    let Z := F.value z
    let zero (n : Bool) : Nat := if n then 2 ^ (F.width - 1) else 0
    let sig := flIf (X.isSig || Y.isSig) flNV
    -- a NaN operand gives the canonical NaN, and a signalling one raises NV
    (X.isNaN || Y.isNaN → fAdd F rm x y = (F.qnan, sig) ∧ fSub F rm x y = (F.qnan, sig) ∧ fMul F rm x y = (F.qnan, sig) ∧ fDiv F rm x y = (F.qnan, sig)) ∧
    (∀ g, X = .nan g → fSqrt F rm x = (F.qnan, flIf g flNV) ∧ fRsq F rm x = (F.qnan, flIf g flNV)) ∧
    -- the invalid cases
    (∀ n, X = .inf n ∧ Y = .inf (!n) → fAdd F rm x y = (F.qnan, flNV)) ∧ (∀ n, X = .inf n ∧ Y = .inf n → fSub F rm x y = (F.qnan, flNV)) ∧
    (∀ n k e, X = .fin n 0 e ∧ Y = .inf k → fMul F rm x y = (F.qnan, flNV) ∧ fMul F rm y x = (F.qnan, flNV)) ∧
    (∀ n e k g, X = .fin n 0 e ∧ Y = .fin k 0 g → fDiv F rm x y = (F.qnan, flNV)) ∧
    (∀ n k, X = .inf n ∧ Y = .inf k → fDiv F rm x y = (F.qnan, flNV)) ∧
    (X = .inf true ∨ (∃ m e, X = .fin true m e ∧ m ≠ 0) → fSqrt F rm x = (F.qnan, flNV) ∧ fRsq F rm x = (F.qnan, flNV)) ∧
    -- a finite number divided by zero, the roots of zeros and infinity, and exact zero sums
    (∀ n m e k g, X = .fin n m e ∧ m ≠ 0 ∧ Y = .fin k 0 g → fDiv F rm x y = (F.infBits (n != k), flDZ)) ∧
    (∀ n e, X = .fin n 0 e → fSqrt F rm x = (zero n, 0) ∧ fRsq F rm x = (F.infBits n, flDZ)) ∧
    (X = .inf false → fSqrt F rm x = (F.infBits false, 0) ∧ fRsq F rm x = (0, 0)) ∧
    (∀ n m e, X = .fin n m e ∧ m ≠ 0 ∧ Y = .fin (!n) m e → fAdd F rm x y = (zero (rm == .mode 3), 0)) ∧
    (∀ n e k g, X = .fin n 0 e ∧ Y = .fin k 0 g → fAdd F rm x y = (zero (if n = k then n else rm == .mode 3), 0)) ∧
    -- minimum, maximum and the comparisons
    (X.isNaN ∧ !Y.isNaN → fMinMax F false x y = (y, sig) ∧ fMinMax F true x y = (y, sig) ∧ fMinMax F false y x = (y, sig) ∧ fMinMax F true y x = (y, sig)) ∧
    (X.isNaN ∧ Y.isNaN → fMinMax F false x y = (F.qnan, sig) ∧ fMinMax F true x y = (F.qnan, sig)) ∧
    (∀ e g, X = .fin true 0 e ∧ Y = .fin false 0 g → fMinMax F false x y = (x, 0) ∧ fMinMax F true x y = (y, 0) ∧ (fCmp F 0 x y).1 = true) ∧
    (fCmp F 0 x y).2 = sig ∧ fCmp F 3 x y = (X.isNaN || Y.isNaN, sig) ∧
    (X.isNaN || Y.isNaN → fCmp F 0 x y = (false, sig) ∧ fCmp F 1 x y = (false, flNV) ∧ fCmp F 2 x y = (false, flNV)) ∧
    -- the class of a bit pattern, by its sign, exponent and fraction fields
    (let s := x.testBit (F.width - 1)
     let e := x / 2 ^ (F.p - 1) % 2 ^ (F.width - F.p)
     let f := x % 2 ^ (F.p - 1)
     fClass F x =
       if e = 2 ^ (F.width - F.p) - 1 then (if f = 0 then (if s then 0 else 7) else if f < 2 ^ (F.p - 2) then 8 else 9)
       else if e = 0 then (if f = 0 then (if s then 3 else 4) else if s then 2 else 5)
       else if s then 1 else 6) ∧
    -- conversions between formats
    (∀ g, X = .nan g → fConv F G rm x = (G.qnan, flIf g flNV)) ∧ (∀ n, X = .inf n → fConv F G rm x = (G.infBits n, 0)) ∧
    (∀ n m e, X = .fin n m e → fConv F G rm x = G.round rm n m e false) ∧
    -- conversions to an integer of [lo, hi]: h is the magnitude after rounding, v the rounded value
    (∀ lo hi : Int, (∀ g, X = .nan g → fToInt F rm lo hi x = (0, flNV)) ∧
      (∀ n, X = .inf n → fToInt F rm lo hi x = (if n then lo else hi, flNV)) ∧
      (∀ n m e, X = .fin n m e → ∃ (h : Nat) (exact : Bool), let v : Int := if n then -h else h
        fToInt F rm lo hi x = (if hi < v then (hi, flNV) else if v < lo then (lo, flNV) else (v, if exact then 0 else flNX)) ∧
        (0 ≤ e → h = m * 2 ^ e.toNat ∧ exact = true) ∧
        (e < 0 → let k := (-e).toNat
          (exact = true ↔ m % 2 ^ k = 0) ∧ (exact = true → h * 2 ^ k = m) ∧ (h = m / 2 ^ k ∨ h = m / 2 ^ k + 1) ∧ (rm = .mode 1 → h = m / 2 ^ k) ∧
          (rm = .mode 0 ∨ rm = .mode 4 → 2 * (h * 2 ^ k) ≤ 2 * m + 2 ^ k ∧ 2 * m ≤ 2 * (h * 2 ^ k) + 2 ^ k) ∧
          (rm = .mode 2 → (h = m / 2 ^ k ↔ exact = true ∨ n = true)) ∧ (rm = .mode 3 → (h = m / 2 ^ k ↔ exact = true ∨ n = false)) ∧
          (rm = .mode 0 → 2 * (m % 2 ^ k) = 2 ^ k → h % 2 = 0) ∧ (rm = .mode 4 → 2 * (m % 2 ^ k) = 2 ^ k → h = m / 2 ^ k + 1)))) ∧
    -- FMA: 0 × infinity even beside a NaN, any other NaN, infinities of opposite sign, and an infinite product or addend that is the result
    (let sig3 := flIf (X.isSig || Y.isSig || Z.isSig) flNV
     ((X.isZero ∧ Y.isInf) ∨ (X.isInf ∧ Y.isZero) → fFma F rm x y z = (F.qnan, flNV)) ∧
     (¬((X.isZero ∧ Y.isInf) ∨ (X.isInf ∧ Y.isZero)) → X.isNaN || Y.isNaN || Z.isNaN → fFma F rm x y z = (F.qnan, sig3)) ∧
     (∀ n k, X = .inf n ∧ Y = .inf k ∧ Z = .inf (n == k) → fFma F rm x y z = (F.qnan, flNV)) ∧
     (∀ n k m e, X = .inf n ∧ Y = .fin k m e ∧ m ≠ 0 ∧ Z = .inf (n == k) →
       fFma F rm x y z = (F.qnan, flNV) ∧ fFma F rm y x z = (F.qnan, flNV)) ∧
     (∀ n k m e, X = .inf n ∧ Y = .fin k m e ∧ m ≠ 0 ∧ Z.isNaN = false ∧ Z ≠ .inf (n == k) →
       fFma F rm x y z = (F.infBits (n != k), 0) ∧ fFma F rm y x z = (F.infBits (n != k), 0)) ∧
     (∀ n k, X = .inf n ∧ Y = .inf k ∧ Z.isNaN = false ∧ Z ≠ .inf (n == k) → fFma F rm x y z = (F.infBits (n != k), 0)) ∧
     (∀ n m e k l g i, X = .fin n m e ∧ Y = .fin k l g ∧ Z = .inf i → fFma F rm x y z = (F.infBits i, 0)))

/-- R40: a value that the format holds is rounded to itself, in every mode and with no flag. -/
def Obligations.RoundKeepsRepresentable : Prop :=
  ∀ (w : BitVec 3) (rm : Rm) (x : Nat) (n : Bool) (m : Nat) (e : Int), x < 2 ^ (fmOf w.toNat).width → (fmOf w.toNat).value x = .fin n m e →
    (fmOf w.toNat).round rm n m e false = (x, 0)

/-! ## Registers, branches and charge requests -/

/-- R36: scalar register 0 reads zero and discards writes, mask register 0 reads all ones and discards writes, and every other register holds
what was written to it. -/
def Obligations.RegisterFiles : Prop :=
  ∀ (t : Task) (n m : BitVec 5) (i j : BitVec 3) (x : Word) (v : Vector Lane 16) (y : BitVec 16),
    (t.S 0 = 0 ∧ t.setS 0 x = t ∧ t.K 0 = 0xFFFF ∧ t.setK 0 y = t) ∧
    (n ≠ 0 → (t.setS n x).S n = x) ∧ (m ≠ n → (t.setS n x).S m = t.S m) ∧
    (t.setV n v).V n = v ∧ (m ≠ n → (t.setV n v).V m = t.V m) ∧
    (i ≠ 0 → (t.setK i y).K i = y) ∧ (j ≠ i → (t.setK i y).K j = t.K j)

/-- R93, R84, R115: MFS reads each special register of R18, `meter` with the cost of the MFS included; MTS writes the defined fields of the
four registers that software may write. -/
def Obligations.SpecialRegisterMoves : Prop :=
  ∀ (s s1 : State) (r : Nat) (t t1 : Task) (d a : BitVec 5), Paying s r t 4 s1 t1 →
    let reads (n : BitVec 5) (v : Word) : Prop := exec (.mfs d n) s = .next (retire s1 (t1.setS d v).adv)
    let writes (n : BitVec 5) (u : Task) : Prop := exec (.mts a n) s = .next (retire s1 u.adv)
    reads 0 t.tid ∧ reads 1 t.gid ∧ reads 2 (BitVec.ofNat 64 t.core) ∧ reads 3 (BitVec.ofNat 64 (t.core / 8)) ∧
    reads 4 t.seed ∧ reads 5 t.srctr ∧ (t.charged = false → reads 6 (BitVec.ofNat 64 (t.meter + 4))) ∧ reads 7 (BitVec.ofNat 64 t.budget) ∧
    reads 8 t.fmt ∧ reads 9 t.flags ∧ reads 10 (BitVec.ofNat 64 s.tb) ∧
    writes 4 { t1 with seed := t1.S a } ∧ writes 5 { t1 with srctr := t1.S a } ∧
    writes 8 { t1 with fmt := t1.S a &&& 0x77 } ∧ writes 9 { t1 with flags := t1.S a &&& 0x1F }

/-- R96, R26: a branch whose condition holds goes to pc + 4 × sext(disp16), any other to the next instruction; BDNZ counts down first, and its word
with `a` 0 or `b` not 0 is no instruction. -/
def Obligations.Branches : Prop :=
  ∀ (s s1 : State) (r : Nat) (t t1 : Task) (a b : BitVec 5) (d : BitVec 16), Paying s r t 4 s1 t1 →
    let x := t1.S a
    let y := t1.S b
    let goes (i : Instr) (c : Prop) : Prop :=
      (c → exec i s = .next (retire s1 { t1 with pc := t1.pc + 4 * d.signExtend 64 })) ∧ (¬c → exec i s = .next (retire s1 { t1 with pc := t1.pc + 4 }))
    goes (.beq a b d) (x = y) ∧ goes (.bne a b d) (x ≠ y) ∧ goes (.blt a b d) (x.toInt < y.toInt) ∧ goes (.bge a b d) (y.toInt ≤ x.toInt) ∧
    goes (.bltn a b d) (x.toNat < y.toNat) ∧ goes (.bgen a b d) (y.toNat ≤ x.toNat) ∧
    (a ≠ 0 → exec (.bdnz a d) s = .next (retire s1 { t1.setS a (x - 1) with pc := t1.pc + (if x = 1 then 4 else 4 * d.signExtend 64) })) ∧
    (x = 0 ∧ a ≠ 0 → exec (.bdnz a d) s = .next (retire s1 { t1.setS a (BitVec.allOnes 64) with pc := t1.pc + 4 * d.signExtend 64 })) ∧
    (t.charged = false → t1.meter = t.meter + 4) ∧ (∀ e ∈ [(0x18, Instr.beq a b d), (0x19, .bne a b d), (0x1A, .blt a b d), (0x1B, .bge a b d), (0x1C, .bltn a b d),
      (0x1D, .bgen a b d)], decodeTask (e.1 * 2 ^ 26 + a.toNat * 2 ^ 21 + b.toNat * 2 ^ 16 + d.toNat) = some e.2) ∧
    (let w := 0x1E * 2 ^ 26 + a.toNat * 2 ^ 21 + b.toNat * 2 ^ 16 + d.toNat
     decodeTask w = if a ≠ 0 ∧ b = 0 then some (.bdnz a d) else none) ∧
    decodeTask 0x7464FFFE = some (.bgen 3 4 (-2)) ∧ decodeTask 0x64400005 = some (.bne 2 0 5)

/-- R97: JAL and JALR write pc + 4 and jump; a JALR whose target is not a multiple of 4 stops the task and writes no link. -/
def Obligations.Jumps : Prop :=
  ∀ (s s1 : State) (r : Nat) (t t1 : Task) (d a : BitVec 5) (e : BitVec 16) (l : BitVec 26), Paying s r t 4 s1 t1 →
    let target := t1.S a + e.signExtend 64
    exec (.jal l) s = .next (retire s1 { t1.setS 31 (t1.pc + 4) with pc := t1.pc + 4 * l.signExtend 64 }) ∧
    (target.toNat % 4 = 0 → exec (.jalr d a e) s = .next (retire s1 { t1.setS d (t1.pc + 4) with pc := target })) ∧
    (target.toNat % 4 ≠ 0 → exec (.jalr d a e) s = .next (s1.stopTask t1 .misaligned)) ∧
    (t.charged = false → t1.meter = t.meter + 4) ∧ decodeTask (0x20 * 2 ^ 26 + l.toNat) = some (.jal l) ∧
    decodeTask (0x21 * 2 ^ 26 + d.toNat * 2 ^ 21 + a.toNat * 2 ^ 16 + e.toNat) = some (.jalr d a e) ∧ decodeTask 0x87E60008 = some (.jalr 31 6 8)

/-- R98, R99, R68: CHARGE grants what the request, the pool and the cap of 4096 packets allow and reports the grant; in a dark run it reports
the grant alone. MCS reads the pool, the packets held, and the charge left, modulo 2^64; the last is a free value in measured mode (log 3). That the
request S(a) + imm is a sum modulo 2^64 is the model's reading (log 22, DEDUCED). -/
def Obligations.ChargeRequests : Prop :=
  ∀ (s s1 : State) (r : Nat) (t t1 : Task) (d a : BitVec 5) (n : BitVec 12),
    let p := partOf t1.cx
    let req := (t1.S a + n.setWidth 64).toNat
    let cap := 4096 - t1.budget / 64
    let grant := min (min req (s1.part p).plevel) cap
    (Paying s r t 8 s1 t1 → t1.dark = none →
      exec (.charge d a n) s = .next (retire ((s1.modPart p fun x => { x with plevel := x.plevel - grant }).tally t1.cx t1.receipt grant 0)
        ({ t1 with budget := t1.budget + 64 * grant }.setS d (BitVec.ofNat 64 grant)).adv)) ∧
    (Paying s r t 8 s1 t1 → t1.dark ≠ none → exec (.charge d a n) s = .next (retire s1 (t1.setS d (BitVec.ofNat 64 (min req cap))).adv)) ∧
    (Paying s r t 4 s1 t1 →
      exec (.mcs d 0) s = .next (retire s1 (t1.setS d (BitVec.ofNat 64 (s1.part p).plevel)).adv) ∧
      exec (.mcs d 1) s = .next (retire s1 (t1.setS d (BitVec.ofNat 64 (t1.budget / 64))).adv) ∧
      (t1.measured = false → exec (.mcs d 2) s = .next (retire s1 (t1.setS d (BitVec.ofNat 64 t1.budget - BitVec.ofNat 64 t1.meter)).adv)) ∧
      (t1.measured = true → exec (.mcs d 2) s =
        .next (retire { s1 with freeCtr := s1.freeCtr + 1 } (t1.setS d (BitVec.ofNat 64 (Config.freeNat s1.freeCtr))).adv)))

/-- R9, R10, R29, R37, R82: in rated mode an instruction whose cost would pass the budget stops the task or, under `SMF`, begins a dark run, before
any of its effect; the state shown is for every instruction that charges `n` on its row. In a dark run each instruction draws the packets its meter
has reached from the pool, a task whose meter would pass 262,144 RU stops, and so does one whose packets the pool does not hold. An instruction that
waited at its step 4 (`charged`) is not charged again (log 18, DEDUCED, the model's reading). R80, R81: the fields of a stop record, what `SHORT` is,
and how the record is written at its place in the stop ring and counted there, or counted lost where the ring is full. -/
def Obligations.ChargeStep : Prop :=
  (∀ (s : State) (r : Nat) (t : Task) (n : Nat) (body : State → Task → Body), s.turn = .row r → s.task r = some t →
    let runs := s.runTask (fun _ => n) body
    (t.charged = true → s.pay t n = .ok s { t with charged := false }) ∧
    (t.charged = false ∧ t.dark = none ∧ t.measured = false → (t.meter + n ≤ t.budget → s.pay t n = .ok s { t with meter := t.meter + n }) ∧
      (t.budget < t.meter + n → t.smf = false → runs = .next (s.finishStop t 1 0)) ∧
      (t.budget < t.meter + n → t.smf = true →
        runs = .next (s.setTask t.row (some { t with dark := some ⟨t.budget, 0, t.pc, t.meter, t.nstore, t.nchw, t.ncmd⟩ })))) ∧
    (∀ d, t.charged = false → t.dark = some d → let need := cdiv (t.meter + n - d.base) 64
      (262144 < t.meter + n → runs = .next (s.finishStop t 1 3)) ∧
      (t.meter + n ≤ 262144 ∧ (s.part (partOf t.cx)).plevel < need - d.drawn → runs = .next (s.finishStop t 1 4)) ∧
      (t.meter + n ≤ 262144 ∧ need - d.drawn ≤ (s.part (partOf t.cx)).plevel →
        ∃ s1, s.pay t n = .ok s1 { t with meter := t.meter + n, dark := some { d with drawn := max need d.drawn } } ∧
          (s1.part (partOf t.cx)).plevel = (s.part (partOf t.cx)).plevel - (need - d.drawn)))) ∧
  (∀ (t : Task) (reason darkend short : Nat) (gang : Bool), let d := t.dark.getD ⟨0, 0, t.pc, t.meter, t.nstore, t.nchw, t.ncmd⟩
    d.meter < 2 ^ 32 → t.budget < 2 ^ 32 → reason < 2 ^ 8 → darkend < 2 ^ 3 → t.lvl < 4 → d.nstore < 2 ^ 15 → d.nchw < 2 ^ 9 → d.ncmd < 2 ^ 5 →
    let w := natOfBytes (stopBytes t reason darkend short gang)
    let flag (b : Bool) : Nat := if b then 1 else 0
    (stopBytes t reason darkend short gang).length = 32 ∧ bits w 0 64 = d.pc.toNat ∧ bits w 64 32 = d.meter ∧ bits w 96 32 = t.budget ∧
    bits w 128 32 = short % 2 ^ 32 ∧ bits w 160 8 = reason ∧ bits w 168 3 = darkend ∧ bits w 171 1 = flag t.measured ∧ bits w 172 1 = flag t.smf ∧
    bits w 173 2 = t.lvl ∧ bits w 175 4 = t.gid.toNat % 16 ∧ bits w 179 1 = flag gang ∧ bits w 180 1 = flag t.bound.isSome ∧ bits w 181 3 = 0 ∧
    bits w 184 15 = d.nstore ∧ bits w 199 9 = d.nchw ∧ bits w 208 5 = d.ncmd ∧ bits w 213 11 = 0 ∧ bits w 224 32 = t.tid.toNat % 2 ^ 32) ∧
  (∀ (s s1 s2 s3 : State) (t : Task) (x : Ctx) (reason darkend short : Nat) (ks rs : List (Nat × Nat)),
    (t.dark = none → s.shortOf t darkend = (0, s)) ∧
    (∀ d, t.dark = some d → darkend ≠ 0 → d.base ≤ t.meter → s.shortOf t darkend = (t.meter - d.base, s)) ∧
    (s.shortOf t darkend = (short, s1) → s1.pendW = [] → s1.ctx t.cx = some x → x.setup.slog ≠ 0 → t.grp = none → t.handles = [] → t.bound = none →
      t.stage = none → t.pkt = none → t.receipt = false → s.pipesOn (t.row / 12) = [] →
      let base := x.setup.sring
      let n := 2 ^ x.setup.slog
      s1.reach (ctxPort (t.core / 8)) t.cx base 24 3 = .ok ks s2 → s2.poisonIn base ks = none →
      let h := natOfBytes (s2.gets ks)
      let written := bits h 0 64
      let read := bits h 64 64
      let lost := bits h 128 32
      let u := s.finishStop t reason darkend
      let head (written lost : Nat) : List Byte := bytesOfNat 24 (written + read * 2 ^ 64 + lost * 2 ^ 128 + bits h 160 32 * 2 ^ 160)
      u.task t.row = none ∧
      ((written + 2 ^ 64 - read) % 2 ^ 64 = n → u.mem = (s2.puts ks (head written (min (lost + 1) (2 ^ 32 - 1)))).mem) ∧
      ((written + 2 ^ 64 - read) % 2 ^ 64 ≠ n → s2.reach (ctxPort (t.core / 8)) t.cx (base + 64 + 32 * (written % n)) 32 3 = .ok rs s3 →
        u.mem = ((s3.puts rs (stopBytes t reason darkend short false)).puts ks (head ((written + 1) % 2 ^ 64) lost)).mem)))

/-! ## Scalar memory, channels and exits -/

/-- R94, R38, R39: LD of every space completes with the zero-extended bytes that the task sees, unless a byte it takes from memory is poisoned (R328).
A translated access is counted by the die's windows where it goes to memory, a data error's too (R230); commits whose writes a load sees before their
release are noted for the task's fences (R108). -/
def Obligations.ScalarLoads : Prop :=
  ∀ (s s1 s2 : State) (r : Nat) (t t1 : Task) (x b : BitVec 5) (sp w : BitVec 3) (o : BitVec 10) (k : Nat) (es : List PEnt), Paying s r t 12 s1 t1 →
    let size := 2 ^ w.toNat
    let ea := t1.S b + o.signExtend 64 * BitVec.ofNat 64 size
    Located s1 t1 sp.toNat ea size 1 s2 k es →
    let v := (t1.setS x (BitVec.ofNat 64 (loadN s2.mem t1 k size))).adv
    (covered t1.staged k size = true → exec (.ld x b sp w o) s = .next (retire s2 v)) ∧
    (covered t1.staged k size = false → s2.poisoned k size = none → exec (.ld x b sp w o) s =
      .next (retire ((if sp = 0 then s2.readVia (t1.core / 8) t1.cx ea.toNat [(k, size)] else s2).saw t1.row k size) v)) ∧
    (covered t1.staged k size = false → s2.poisoned k size ≠ none → exec (.ld x b sp w o) s = .next
      ((if sp = 0 then s2.readVia (t1.core / 8) t1.cx ea.toNat [(k, size)] else s2).faultTask t1 12 0 (ea.toNat - ea.toNat % 256)))

/-- R94, R39, R76: ST stages the low bytes of its register at the location its address has when it issues; a store that would take the staged
bytes past 16,384 stops the task. -/
def Obligations.ScalarStores : Prop :=
  ∀ (s s1 s2 : State) (r : Nat) (t t1 : Task) (x b : BitVec 5) (sp w : BitVec 3) (o : BitVec 10) (k : Nat) (es : List PEnt), Paying s r t 12 s1 t1 →
    let size := 2 ^ w.toNat
    let ea := t1.S b + o.signExtend 64 * BitVec.ofNat 64 size
    Located s1 t1 sp.toNat ea size 2 s2 k es →
    (t1.nbytes + size ≤ 16384 → exec (.st x b sp w o) s = .next (retire s2 { t1 with
      staged := t1.staged ++ [.store (cellsAt k (bytesOfNat size (t1.S x).toNat)) ea.toNat es], nstore := t1.nstore + 1, nbytes := t1.nbytes + size,
      pc := t1.pc + 4 })) ∧
    (16384 < t1.nbytes + size → exec (.st x b sp w o) s = .next (s1.stopTask t1 .overflow))

/-- R29, R38, R77, R231, R243: how a scalar load or store ends that cannot be located: alignment comes before range, both before translation, a
protection violation is a context fault, and a miss takes the port's walk slot: the charge stands, and the task waits at the instruction's step 4
(log 18, DEDUCED). -/
def Obligations.ScalarAccessEnds : Prop :=
  ∀ (s s1 : State) (r : Nat) (t t1 : Task) (x b : BitVec 5) (sp w : BitVec 3) (o : BitVec 10), Paying s r t 12 s1 t1 →
    let size := 2 ^ w.toNat
    let ea := t1.S b + o.signExtend 64 * BitVec.ofNat 64 size
    let ends (i : Instr) (acc : Nat) : Prop :=
      (ea.toNat % size ≠ 0 → exec i s = .next (s1.stopTask t1 .misaligned)) ∧
      (ea.toNat % size = 0 → (if sp = 0 then isCanon ea.toNat = false else extent sp.toNat ≤ ea.toNat) → exec i s = .next (s1.stopTask t1 .unresolved)) ∧
      (ea.toNat % size = 0 → sp = 0 → isCanon ea.toNat = true →
        (s1.lookup t1.row t1.cx ea.toNat acc = some .prot → exec i s = .next (s1.faultTask t1 3 acc ea.toNat)) ∧
        (s1.lookup t1.row t1.cx ea.toNat acc = none → exec i s = .next ((s1.setTask t.row (some { t1 with charged := true })).missRow t ea.toNat acc))) ∧
      (ea.toNat % size = 0 → 2 ≤ sp.toNat → ea.toNat < extent sp.toNat → s1.reachable t1.cx t1.core sp.toNat ea.toNat size = false →
        exec i s = .next (s1.faultTask t1 3 acc ea.toNat))
    ends (.ld x b sp w o) 1 ∧ ends (.st x b sp w o) 2

/-- R39, R78, R95: a load sees, byte by byte, the latest staged store that covers the byte, else memory; nothing else that is staged changes
what it sees. Step 1 of a commit leaves in memory exactly what the task's loads saw. -/
def Obligations.LoadsSeeStagedStores : Prop :=
  (∀ (m : List Host.Cell) (l : List Staged) (k a va : Nat) (bs : List Byte) (us : List PEnt),
    loadByte m [] k = getB m k ∧
    loadByte m (l ++ [.store (cellsAt a bs) va us]) k = (if a ≤ k ∧ k < a + bs.length then bs.getD (k - a) 0 else loadByte m l k)) ∧
  (∀ (m : List Host.Cell) (l : List Staged) (i : Staged) (k : Nat), (∀ cs va us, i ≠ .store cs va us) → loadByte m (l ++ [i]) k = loadByte m l k) ∧
  (∀ (s : State) (t : Task) (k : Nat), Memory.wf s.mem = true → getB (s.doStores t).mem k = loadByte s.mem t.staged k)

/-- R101, R231, R328: the four word forms of a channel. A handle that is absent or of the other direction, or a slot past the guaranteed count, stops
the task; bytes outside the context's ranges are a protection fault, and poisoned bytes a data error; CRD reads the channel's memory and CRDT the
slot's tag, noting commits whose writes it sees before their release (R108); CWR and CWRT stage a word or a tag, at most 256 in all (R76). That
S(a) + off is a sum modulo 2^64 is the model's reading (log 22, DEDUCED). -/
def Obligations.ChannelWords : Prop :=
  ∀ (s s1 : State) (r : Nat) (t t1 : Task) (d a : BitVec 5) (h : BitVec 4) (o : BitVec 9), Paying s r t 8 s1 t1 →
    let e := (t1.S a + o.setWidth 64).toNat
    let stops (i : Instr) : Prop := exec i s = .next (s1.stopTask t1 .unresolved)
    let stages (i : Instr) (g : Staged) : Prop :=
      (t1.nchw < 256 → exec i s = .next (retire s1 { t1 with staged := t1.staged ++ [g], nchw := t1.nchw + 1, pc := t1.pc + 4 })) ∧
      (256 ≤ t1.nchw → exec i s = .next (s1.stopTask t1 .overflow))
    (t1.handles[h.toNat]? = none → stops (.crd d a h o) ∧ stops (.crdt d a h o) ∧ stops (.cwr d a h o) ∧ stops (.cwrt d a h o)) ∧
    ∀ hd, t1.handles[h.toNat]? = some hd →
      let w := slotWords hd.slotSz
      let n := wordBytes hd.slotSz
      let k := slotKey hd.hkey hd.logn hd.slotSz (hd.cnt0 + e / w) + e % w * n
      let g := tagKey hd.hkey hd.logn (hd.cnt0 + e / w)
      let holds (k n : Nat) : Prop := s1.chanHolds t1.cx hd.quad k n = true
      let faults (i : Instr) (cls det a : Nat) : Prop := exec i s = .next (s1.faultTask t1 cls det a)
      let granule (k : Nat) : Nat := chanOffset hd.quad k - chanOffset hd.quad k % 256
      (hd.out = true ∨ hd.g ≤ e / w → stops (.crd d a h o) ∧ stops (.crdt d a h o)) ∧
      (hd.out = false ∨ hd.g ≤ e / w → stops (.cwr d a h o) ∧ stops (.cwrt d a h o)) ∧
      (hd.out = false ∧ e / w < hd.g →
        (¬holds k n → faults (.crd d a h o) 3 1 (chanOffset hd.quad k)) ∧ (¬holds g 1 → faults (.crdt d a h o) 3 1 (chanOffset hd.quad g)) ∧
        (holds k n → s1.poisoned k n ≠ none → k < 2 ^ 64 → faults (.crd d a h o) 12 0 (granule k)) ∧
        (holds g 1 → s1.poisoned g 1 ≠ none → g < 2 ^ 64 → faults (.crdt d a h o) 12 0 (granule g)) ∧
        (holds k n → s1.poisoned k n = none → exec (.crd d a h o) s = .next (retire (s1.saw t1.row k n) (t1.setS d (BitVec.ofNat 64 (getN s1.mem k n))).adv)) ∧
        (holds g 1 → s1.poisoned g 1 = none →
          exec (.crdt d a h o) s = .next (retire (s1.saw t1.row g 1) (t1.setS d (BitVec.ofNat 64 (tagAt s1.mem hd.hkey hd.logn (hd.cnt0 + e / w)))).adv))) ∧
      (hd.out = true ∧ e / w < hd.g →
        (¬holds k n → faults (.cwr d a h o) 3 2 (chanOffset hd.quad k)) ∧ (¬holds g 1 → faults (.cwrt d a h o) 3 2 (chanOffset hd.quad g)) ∧
        (holds k n → stages (.cwr d a h o) (.chan h.toNat e (t1.S d))) ∧ (holds g 1 → stages (.cwrt d a h o) (.tag h.toNat e d.toNat)))

/-- R102, R103, R231: an advance is staged on a handle of its direction while the handle's advances total at most its guaranteed count; any other, and one
on a stage's output that names no target, stops the task after its charge. Not the spec's but the model's: that an advance whose count lies outside the
context's ranges, one of 0 among them, is a protection fault as it issues, of access kind 3 (log 32, DESIGN CHOICE: the rules give neither moment nor
kind), and that the advance S(a) + off is a sum modulo 2^64 (log 22, DEDUCED). EMIT captures the command at S(a) in lane 0's
slice, 32 bytes where bit 98 of the first 16 is 1, staged stores included, and stages it; a command that is not valid or not of the queue, and any
address out of place, stops the task. -/
def Obligations.AdvancesAndEmit : Prop :=
  (∀ (s s1 : State) (r : Nat) (t t1 : Task) (a : BitVec 5) (h : BitVec 4) (o : BitVec 9), Paying s r t 4 s1 t1 →
    let n := (t1.S a + o.setWidth 64).toNat
    let rule (i : Instr) (out : Bool) : Prop :=
      (∀ hd, t1.handles[h.toNat]? = some hd → hd.out = out → hd.slotSz ≠ 0 → hd.adv + n ≤ hd.g →
        let cnt := hd.hkey + (if out then 0 else 8)
        (s1.chanHolds t1.cx hd.quad cnt 8 = true →
          exec i s = .next (retire s1 { t1 with handles := t1.handles.set h.toNat { hd with adv := hd.adv + n }, pc := t1.pc + 4 })) ∧
        (s1.chanHolds t1.cx hd.quad cnt 8 = false → exec i s = .next (s1.faultTask t1 3 3 (chanOffset hd.quad cnt)))) ∧
      ((∀ hd, t1.handles[h.toNat]? = some hd → hd.out ≠ out ∨ hd.slotSz = 0 ∨ hd.g < hd.adv + n) → exec i s = .next (s1.stopTask t1 .unresolved))
    rule (.advR a h o) false ∧ rule (.advW a h o) true) ∧
  (∀ (s s1 : State) (r : Nat) (t t1 : Task) (a : BitVec 5) (q : BitVec 3), Paying s r t 24 s1 t1 →
    let ea := (t1.S a).toNat
    let k := laneKey t1.row 0 ea
    let w0 := loadN s1.mem t1 k 16
    let long := bits w0 98 1 = 1
    let w1 := if long then loadN s1.mem t1 (k + 16) 16 else 0
    let n := if long then 32 else 16
    let stops (c : Stop) : Prop := exec (.emit a q) s = .next (s1.stopTask t1 c)
    (ea % 16 ≠ 0 → stops .misaligned) ∧
    (ea % 16 = 0 ∧ 4096 < ea + n → stops .unresolved) ∧
    (ea % 16 = 0 ∧ ea + n ≤ 4096 ∧ (covered t1.staged k n = true ∨ s1.poisoned k n = none) →
      (cmdValid q.toNat w0 w1 = false → stops .illegal) ∧
      (cmdValid q.toNat w0 w1 = true ∧ 16 ≤ t1.ncmd → stops .overflow) ∧
      (cmdValid q.toNat w0 w1 = true ∧ t1.ncmd < 16 → exec (.emit a q) s =
        .next (retire s1 { t1 with staged := t1.staged ++ [.cmd q.toNat w0 w1], ncmd := t1.ncmd + 1, pc := t1.pc + 4 }))))

/-- R13, R50, R61, R72, R78, R104 to R106, R209: an exit issues at the cost of its staging, reads the registers it names, and begins its commit with the
action of its kind (`exitDone` of the task `leave`s: the commit of R78, or the end of a dark run). A stage leaves only through EXIT without successors;
a barrier narrower than the gang's span stops its member. Of the commit: step 3 advances the count of a handle's direction by what the handle has
advanced and leaves the other count; step 5 performs the atomic of XAMO; step 6 credits the pool with the whole packets that are left; step 7 enqueues
or arms the successors that the exit names; step 8 frees the row. (Step 1 is LoadsSeeStagedStores, step 2 StagedAtomics and AtomicResults.) -/
def Obligations.Exits : Prop :=
  (∀ (s s1 s2 : State) (r : Nat) (t t1 : Task) (a b f v : BitVec 5) (n c : BitVec 3) (g op : BitVec 4) (u : BitVec 1) (k : Nat) (es : List PEnt),
    Paying s r t (32 + 2 * t.nstore + 4 * t.nchw + 8 * t.ncmd) s1 t1 →
    let ws := (List.range n.toNat).map fun i => t1.S (f + BitVec.ofNat 5 i)
    let leaves (i : Instr) (s2 : State) (act : ExitAct) : Prop := exec i s = .next (exitDone s2 (t1.leave act))
    let stops (i : Instr) : Prop := exec i s = .next (s1.stopTask t1 .illegal)
    (t1.stage = none ∨ (∀ w ∈ ws, w = 0) → leaves (.exit n f) s1 (.plain ws)) ∧
    (t1.stage ≠ none ∧ (∃ w ∈ ws, w ≠ 0) → stops (.exit n f)) ∧
    (t1.stage ≠ none → stops (.xwait b a v u) ∧ stops (.xbar c b g) ∧ stops (.xamo b a v op u) ∧ stops .xstop) ∧
    (t1.stage = none → leaves .xstop s1 .stop ∧
      (spanScope t1 ≤ c.toNat → leaves (.xbar c b g) s1 (.bar (t1.S b) g.toNat (c == 5))) ∧ (c.toNat < spanScope t1 → stops (.xbar c b g)) ∧
      (Located s1 t1 0 (t1.S a) 8 1 s2 k es → leaves (.xwait b a v u) s2 (.wait (t1.S b) (u.toNat + 1) (t1.S a) (t1.S v))) ∧
      (let size := if u = 0 then 4 else 8
       Located s1 t1 0 (t1.S a) size 3 s2 k es → leaves (.xamo b a v op u) s2 (.amo (t1.S b) op.toNat size k (t1.S v) (t1.S a))))) ∧
  (∀ (s : State) (t : Task) (i : Nat) (h : Handle), Memory.wf s.mem = true →
    let other := h.hkey + if h.out then 8 else 0
    let u := s.doHandle t i h
    getN u.mem h.cntKey 8 = (getN s.mem h.cntKey 8 + h.adv) % 2 ^ 64 ∧ getN u.mem other 8 = getN s.mem other 8 ∧
    (t.handles = [h] → handleUsed t 0 h = true → s.chanIn t.cx h.quad h.hkey = true → s.chanPoison h.quad h.hkey = none →
      (chanHdr s.mem h.quad h.hkey).isSome = true → s.doChannels t = s.doHandle t 0 h)) ∧
  (∀ (s : State) (t : Task) (c : Commit), t.grp = none → s.faulting t.cx = false → s.dues (partOf t.cx) = [] →
    let p := partOf t.cx
    let acts (m : List Host.Cell) (old : Nat) (succ : List (Nat × Word)) : Prop := ∃ u, s.commitAct t c = u ∧ u.mem = m ∧
      (u.part p).plevel = min ((s.part p).plevel + (t.budget - t.meter) / 64) (s.part p).pcap ∧
      u.task t.row = some { t with commit := some { c with step := 7, succ := succ, old := BitVec.ofNat 64 old, wait := .none } }
    let one (k : Nat) (w : Word) : List (Nat × Word) := if w = 0 then [] else [(k, w)]
    (∀ ws, c.act = .plain ws → acts s.mem 0 ((ws.zipIdx.map fun e => (e.2, e.1)).filter fun e => e.2 != 0)) ∧
    (∀ w kind a v, c.act = .wait w kind a v → acts s.mem 0 (one 0 w)) ∧
    (∀ w op n k v va, c.act = .amo w op n k v va →
      (s.holdHit t.cx t.receipt [(k, n)] = none → s.poisoned k n = none → acts (s.atomic k n op v.toNat).2.mem (getN s.mem k n) (one 0 w)) ∧
      (s.holdHit t.cx t.receipt [(k, n)] = some false → s.commitAct t c = s.setTask t.row (some { t with commit := some { c with wait := .hold } }))) ∧
    (∀ w n, c.act = .bar w n false → acts s.mem 0 (one (16 + n) w)) ∧ (c.act = .stop → acts s.mem 0 [])) ∧
  (∀ (s s1 s2 : State) (t : Task) (c : Commit) (k : Nat) (w : Word) (b : LBlock), s.faulting t.cx = false → c.bad = [] →
    let goes (u : State) (d : Commit) : Prop := s.commitSuccs t c = u.setTask t.row (some { t with commit := some d })
    let ends (u : State) : Prop := goes u { c with step := 8, succ := [], bad := [], wait := .none, held := none }
    let plain := decide (k < 16) && (match c.act with | .plain _ => true | _ => false)
    -- the copy of a successor that has been read and bound: it ends the step, or waits for a segment or the quota and keeps the block
    let copies (u : State) : Prop := let r := u.enqueue t.cx w.toNat b ⟨succBase u t k, none, false⟩ none
      (r = .ok s2 → ends s2) ∧ (r = .full s2 → goes s2 { c with wait := .segment (lbQsel b.image), held := some b }) ∧
      (r = .quota s2 → goes s2 { c with wait := .quota, held := some b })
    (c.succ = [] → ends s) ∧
    (c.succ = [(k, w)] → c.held = some b → copies s) ∧
    (c.succ = [(k, w)] → c.held = none → s.readBlock (t.core / 8) t.cx w.toNat (editCopy c k) plain = .ok b s1 →
      (lbRearm b.image = true → ends (s1.arm t.cx w.toNat b ⟨succBase s1 t k, none, false⟩)) ∧
      (lbRearm b.image = false → copies (s1.bindAll b.chans.flatten))) ∧
    (t.stage = none → t.handles = [] → t.grp = none → t.bound = none → t.pkt = none → s.pipesOn (t.row / 12) = [] →
      (s.commitEnd t c).task t.row = none ∧ (s.commitEnd t c).mem = s.mem))

/-- R107, R77: a staged atomic is translated for writing when it issues and joins the staging in program order, within the limit of staged bytes. -/
def Obligations.StagedAtomics : Prop :=
  ∀ (s s1 s2 : State) (r : Nat) (t t1 : Task) (a b : BitVec 5) (sp w : BitVec 3) (k : Nat) (es : List PEnt), Paying s r t 16 s1 t1 →
    let rule (i : Instr) (w op : Nat) : Prop := Located s1 t1 sp.toNat (t1.S a) (2 ^ w) 3 s2 k es →
      (t1.nbytes + 2 ^ w ≤ 16384 → exec i s = .next (retire s2 { t1 with
        staged := t1.staged ++ [.atomic k (2 ^ w) op (t1.S b) es], nstore := t1.nstore + 1, nbytes := t1.nbytes + 2 ^ w, pc := t1.pc + 4 })) ∧
      (16384 < t1.nbytes + 2 ^ w → exec i s = .next (s1.stopTask t1 .overflow))
    rule (.sadd sp a b w) w.toNat 0 ∧ rule (.smin sp a b w) w.toNat 1 ∧ rule (.smax sp a b w) w.toNat 2 ∧ rule (.sor sp a b w) w.toNat 5 ∧
    rule (.sand sp a b w) w.toNat 6 ∧ rule (.sfadd sp a b) 2 9

/-- R105, R107, R264: one atomic of 4 or 8 bytes answers the old value, replaces it by the operation's result, and touches no other byte. -/
def Obligations.AtomicResults : Prop :=
  ∀ (s : State) (key size op v j : Nat), Memory.wf s.mem = true → size = 4 ∨ size = 8 →
    let old := BitVec.ofNat (8 * size) (getN s.mem key size)
    let x := BitVec.ofNat (8 * size) v
    let becomes (y : BitVec (8 * size)) : Prop := getN (s.atomic key size op v).2.mem key size = y.toNat
    (s.atomic key size op v).1 = getN s.mem key size ∧
    (op = 0 → becomes (old + x)) ∧ (op = 1 → becomes (if old.toInt ≤ x.toInt then old else x)) ∧
    (op = 2 → becomes (if x.toInt ≤ old.toInt then old else x)) ∧ (op = 3 → becomes (if old.toNat ≤ x.toNat then old else x)) ∧
    (op = 4 → becomes (if x.toNat ≤ old.toNat then old else x)) ∧ (op = 5 → becomes (old ||| x)) ∧ (op = 6 → becomes (old &&& x)) ∧
    (op = 7 → becomes (old ^^^ x)) ∧ (op = 8 → becomes x) ∧
    (op = 9 → size = 4 → becomes (BitVec.ofNat (8 * size) (fAdd fp32 (.mode 0) old.toNat x.toNat).1)) ∧
    (j < key ∨ key + size ≤ j → getB (s.atomic key size op v).2.mem j = getB s.mem j)

/-- R108, R109, R60, R110: FENCE.ACQ passes on (in the model's single order of memory, log 10, nothing else is left to order) once the commits that
the task has read from and that its scope orders have released their writes (log 32), TRAP stops the
task, BRK freezes it where the context's breakpoints are enabled and else stops it, and TLBI and PTSYNC are staged in a privileged context and
are illegal encodings, uncharged, in any other. -/
def Obligations.SystemInstructions : Prop :=
  ∀ (s s1 : State) (r : Nat) (t t1 : Task) (a : BitVec 5) (c : BitVec 3) (code : BitVec 22) (s2 : BitVec 1),
    let brk := (s1.ctx t1.cx).any fun x => x.dbg.brken
    let priv := (s.ctx t.cx).any fun x => x.setup.priv
    let rule (i : Instr) (g : Staged) : Prop :=
      (s.turn = .row r → s.task r = some t → priv = false → exec i s = .next (s.stopTask t .illegal)) ∧
      (Paying s r t 4 s1 t1 → priv = true →
        (t1.ncmd < 16 → exec i s = .next (retire s1 { t1 with staged := t1.staged ++ [g], ncmd := t1.ncmd + 1, pc := t1.pc + 4 })) ∧
        (16 ≤ t1.ncmd → exec i s = .next (s1.stopTask t1 .overflow)))
    (Paying s r t 4 s1 t1 →
      (s.fenced t c.toNat = false → exec (.fenceAcq c) s = .next (retire s1 t1.adv)) ∧ (s.fenced t c.toNat = true → exec (.fenceAcq c) s = .next s) ∧
      exec (.trap code) s = .next (s1.stopTask t1 .trap) ∧
      (brk = true → exec .brk s = .next (retire s1 { t1 with pc := t1.pc + 4, froBrk := true })) ∧
      (brk = false → exec .brk s = .next (s1.stopTask t1 .trap))) ∧
    rule (.tlbiPage a s2) (.tlbi 0 (s2 == 1) (t1.S a)) ∧ rule (.tlbiCtx s2) (.tlbi 1 (s2 == 1) 0) ∧ rule (.tlbiPart s2) (.tlbi 2 (s2 == 1) 0) ∧
    rule .ptsync .ptsync

/-! ## Vector instructions -/

/-- R36, R119, R130: a masked vector result writes its active lanes, keeps the others, raises the flags of the active lanes, and touches nothing
else but the program counter. -/
def Obligations.VectorMasking : Prop :=
  ∀ (t : Task) (d n : BitVec 5) (k : BitVec 3) (r : Vector (Lane × Fl) 16),
    let u := t.setVec d k r
    (∀ i : Fin 16, (u.V d)[i] = if (t.K k).getLsbD i then r[i].1 else (t.V d)[i]) ∧ (n ≠ d → u.V n = t.V n) ∧
    (∀ b : Nat, u.flags.getLsbD b = true ↔ t.flags.getLsbD b = true ∨ ∃ i : Fin 16, (t.K k).getLsbD i = true ∧ r[i].2.getLsbD b = true) ∧
    u = { t with v := u.v, flags := u.flags, pc := t.pc + 4 }

/-- R133: every integer operation writes, in each active lane, its result on each sub-element of the type's width, and raises no flag. -/
def Obligations.VectorIntegerResults : Prop :=
  ∀ (s s1 : State) (r : Nat) (t t1 : Task) (d a b : BitVec 5) (k ty : BitVec 3), Paying s r t 48 s1 t1 →
    let n := intBits ty
    let int (x : BitVec n) : Int := if isSigned ty then x.toInt else x.toNat
    let lo : Int := if isSigned ty then -2 ^ (n - 1) else 0
    let hi : Int := if isSigned ty then 2 ^ (n - 1) - 1 else 2 ^ n - 1
    let clamp (v : Int) : BitVec n := BitVec.ofInt n (max lo (min hi v))
    let rule (i : Instr) (f : BitVec n → BitVec n → BitVec n) : Prop := exec i s = .next (retire s1 (t1.setV d (Vector.ofFn fun l =>
      if (t1.K k).getLsbD l then
        laneOf n fun j => (f (BitVec.ofNat n (subOf n (t1.V a)[l] j)) (BitVec.ofNat n (subOf n (t1.V b)[l] j))).toNat
      else (t1.V d)[l])).adv)
    rule (.vadd d a b k ty) (fun x y => x + y) ∧ rule (.vsub d a b k ty) (fun x y => x - y) ∧ rule (.vmul d a b k ty) (fun x y => x * y) ∧
    rule (.vmulh d a b k ty) (fun x y => BitVec.ofInt n (int x * int y / 2 ^ n)) ∧
    rule (.vadds d a b k ty) (fun x y => clamp (int x + int y)) ∧ rule (.vsubs d a b k ty) (fun x y => clamp (int x - int y)) ∧
    rule (.vmin d a b k ty) (fun x y => if int x ≤ int y then x else y) ∧ rule (.vmax d a b k ty) (fun x y => if int x ≤ int y then y else x) ∧
    rule (.vand d a b k ty) (fun x y => x &&& y) ∧ rule (.vor d a b k ty) (fun x y => x ||| y) ∧ rule (.vxor d a b k ty) (fun x y => x ^^^ y) ∧
    rule (.vandn d a b k ty) (fun x y => x &&& ~~~y) ∧ rule (.vshl d a b k ty) (fun x y => x <<< (y.toNat % n)) ∧
    rule (.vshr d a b k ty) (fun x y => x >>> (y.toNat % n)) ∧ rule (.vsar d a b k ty) (fun x y => x.sshiftRight (y.toNat % n)) ∧
    rule (.vabsd d a b k ty) (fun x y => BitVec.ofNat n (int x - int y).natAbs) ∧
    rule (.vclz d a k ty) (fun x _ => BitVec.ofNat n (if x = 0 then n else n - 1 - x.toNat.log2)) ∧
    rule (.vpopc d a k ty) (fun x _ => BitVec.ofNat n ((List.range n).countP fun i => x.getLsbD i))

/-- R134 to R140: pack, unpack, floating-point and special-function results, lane by lane under the mask as `VectorMasking` says. -/
def Obligations.VectorFloatResults : Prop :=
  ∀ (s s1 : State) (r : Nat) (t t1 : Task) (d a b c : BitVec 5) (k ty : BitVec 3),
    let F := vFm t1.fmt ty.toNat
    let lanes (i : Instr) (f : Fin 16 → Lane × Fl) : Prop := exec i s = .next (retire s1 (t1.setVec d k (Vector.ofFn f)))
    let x (l : Fin 16) (j : Nat) : Nat := subOf F.width (t1.V a)[l] j
    let y (l : Fin 16) (j : Nat) : Nat := subOf F.width (t1.V b)[l] j
    let z (l : Fin 16) (j : Nat) : Nat := subOf F.width (t1.V d)[l] j
    let rn := Rm.mode 0
    let subs (i : Instr) (f : Fin 16 → Nat → Nat × Fl) : Prop := lanes i fun l => perSub F.width (f l)
    (Paying s r t 64 s1 t1 →
      lanes (.vpack d a b k ty) (fun l => (packLane (isSigned ty) (intBits ty) (t1.V a)[l] (t1.V b)[l], 0)) ∧
      lanes (.vunpack d a c k ty) (fun l => (unpackLane (isSigned ty) (intBits ty) c.toNat (t1.V a)[l], 0)) ∧
      subs (.vfadd d a b k ty) (fun l j => fAdd F rn (x l j) (y l j)) ∧ subs (.vfsub d a b k ty) (fun l j => fSub F rn (x l j) (y l j)) ∧
      subs (.vfmul d a b k ty) (fun l j => fMul F rn (x l j) (y l j)) ∧ subs (.vfmin d a b k ty) (fun l j => fMinMax F false (x l j) (y l j)) ∧
      subs (.vfmax d a b k ty) (fun l j => fMinMax F true (x l j) (y l j)) ∧
      subs (.vscale d a b k ty) (fun l j => fScale F (x l j) (intOf true F.width (y l j)))) ∧
    (Paying s r t 80 s1 t1 →
      subs (.vfma d a b c k ty) (fun l j => fFma F rn (x l j) (y l j) (subOf F.width (t1.V c)[l] j)) ∧
      subs (.vfms d a b k ty) (fun l j => fFmaVal F rn (F.value (x l j)) (F.value (y l j)) (F.value (z l j)).flip) ∧
      subs (.vfnma d a b k ty) (fun l j => fFmaVal F rn (F.value (x l j)).flip (F.value (y l j)) (F.value (z l j)))) ∧
    (Paying s r t 160 s1 t1 →
      subs (.vrcp d a k ty) (fun l j => fRcp F (x l j)) ∧ subs (.vrsq d a k ty) (fun l j => fRsq F rn (x l j)) ∧
      subs (.vexp2 d a k ty) (fun l j => fExp2 F (x l j)) ∧ subs (.vlog2 d a k ty) (fun l j => fLog2 F (x l j)) ∧
      subs (.vtanh d a k ty) (fun l j => fTanh F (x l j)))

/-- R116, R120, R137, R138, R41: VCVT converts under a rounding mode, VCVT.SR under the Squall draw of its lane, advancing `srctr` once; a
conversion that uses `CVP` while it holds 0 stops the task. -/
def Obligations.VectorConversions : Prop :=
  ∀ (s s1 : State) (r : Nat) (t t1 : Task) (d a : BitVec 5) (src k m dst : BitVec 3) (g : BitVec 1) (p : BitVec 2),
    let bad := (src = 6 ∨ dst = 6) ∧ t1.fmt.toNat / 16 % 8 = 0
    let res (rm : Fin 16 → Nat → Rm) : Task := t1.setVec d k (Vector.ofFn fun l =>
      cvLane t1.fmt src.toNat dst.toNat p.toNat (g == 1) (rm l) (t1.V a)[l] (t1.V d)[l])
    (Paying s r t 64 s1 t1 →
      (bad → exec (.vcvt d a src g k p m dst) s = .next (s1.stopTask t1 .illegal)) ∧
      (¬bad → exec (.vcvt d a src g k p m dst) s = .next (retire s1 (res fun _ _ => .mode m.toNat)))) ∧
    (Paying s r t 96 s1 t1 →
      (bad → exec (.vcvtSr d a src g k p dst) s = .next (s1.stopTask t1 .illegal)) ∧
      (¬bad → exec (.vcvtSr d a src g k p dst) s =
        .next (retire s1 { (res fun l j => .stoch ((squall t1 l).toNat / 2 ^ (16 * j) % 2 ^ 16)) with srctr := t1.srctr + 1 })))

/-- R141 to R143: a reduction writes its root, over the active lanes, to all sixteen lanes, zero where none is active; a scan writes the
inclusive prefix sums of the active lanes. -/
def Obligations.VectorReductions : Prop :=
  ∀ (s s1 : State) (r : Nat) (t t1 : Task) (d a : BitVec 5) (k ty : BitVec 3), Paying s r t 96 s1 t1 →
    let n := intBits ty
    let xs (j : Nat) : List Nat := (List.finRange 16).filterMap fun (l : Fin 16) => if (t1.K k).getLsbD l then some (subOf n (t1.V a)[l] j) else none
    let int (x : Nat) : Int := if isSigned ty then (BitVec.ofNat n x).toInt else x
    let fold (p : Nat → Nat → Bool) : List Nat → Nat
      | [] => 0
      | x :: l => l.foldl (fun m y => if p y m then y else m) x
    let rule (i : Instr) (f : Nat → Nat) : Prop := exec i s = .next (retire s1 (t1.setV d (Vector.replicate 16 (laneOf n f))).adv)
    rule (.vrsum d a k ty) (fun j => (xs j).sum) ∧ rule (.vrmin d a k ty) (fun j => fold (fun x y => int x < int y) (xs j)) ∧
    rule (.vrmax d a k ty) (fun j => fold (fun x y => int y < int x) (xs j)) ∧
    exec (.vscan d a k ty) s = .next (retire s1 (t1.setV d (Vector.ofFn fun i => laneOf n fun j =>
      ((List.finRange 16).map fun (l : Fin 16) => if l ≤ i ∧ (t1.K k).getLsbD l then subOf n (t1.V a)[l] j else 0).sum)).adv) ∧
    (let F := vFm t1.fmt ty.toNat
     let root := perSub F.width fun j => fsumRoot F (lanesOf t1 a k F.width j)
     exec (.vrfsum d a k ty) s = .next (retire s1 ((t1.setV d (Vector.replicate 16 root.1)).raise root.2).adv))

/-- R144, R147, R148: permutes, moves and immediates. -/
def Obligations.VectorMoves : Prop :=
  ∀ (s s1 : State) (r : Nat) (t t1 : Task) (d a b n : BitVec 5) (k ty : BitVec 3) (i : BitVec 16), Paying s r t 48 s1 t1 →
    let lane (v : Vector Lane 16) (j : Nat) : Lane := v[j % 16]'(Nat.mod_lt _ (by decide))
    let all (j : Instr) (f : Fin 16 → Lane) : Prop := exec j s = .next (retire s1 (t1.setV d (Vector.ofFn f)).adv)
    let masked (j : Instr) (f : Fin 16 → Lane) : Prop := all j fun l => if (t1.K k).getLsbD l then f l else (t1.V d)[l]
    masked (.vperm d a b k) (fun l => lane (t1.V a) ((t1.V b)[l]).toNat) ∧
    masked (.vshuf d a b k) (fun l => let x := ((t1.V b)[l]).toNat % 32; if x < 16 then lane (t1.V a) x else lane (t1.V d) x) ∧
    masked (.vrot d a n k) (fun l => lane (t1.V a) (l + n.toNat)) ∧ masked (.vnbr d a n k) (fun l => lane (t1.V a) (l.val ^^^ 2 ^ n.toNat)) ∧
    masked (.vmov d a k) (fun l => (t1.V a)[l]) ∧
    masked (.vbcst d a k ty) (fun _ => laneOf (intBits ty) fun _ => (t1.S a).toNat) ∧
    all (.vins d a n ty) (fun l => if l.val = n.toNat then (t1.S a).setWidth 32 else (t1.V d)[l]) ∧
    exec (.vext d a n ty) s = .next (retire s1 (t1.setS d (let x := lane (t1.V a) n.toNat; if ty = 0 then x.signExtend 64 else x.setWidth 64)).adv) ∧
    all (.vsel d a b k) (fun l => if (t1.K k).getLsbD l then (t1.V a)[l] else (t1.V b)[l]) ∧
    all (.vli d i) (fun _ => i.signExtend 32) ∧ all (.vlih d i) (fun _ => BitVec.ofNat 32 (i.toNat * 65537)) ∧
    all (.vlui d i) (fun _ => BitVec.ofNat 32 (i.toNat * 65536)) ∧ all (.vorli d i) (fun l => (t1.V d)[l] ||| i.setWidth 32) ∧
    all (.vaddi d i) (fun l => (t1.V d)[l] + i.signExtend 32)

/-- R145, R146: a compare writes bit l where lane l is active and the condition holds of each of its sub-elements; mask operations work on all
sixteen bits. Mask register 0 is never written. -/
def Obligations.VectorCompares : Prop :=
  ∀ (s s1 : State) (r : Nat) (t t1 : Task) (d a b : BitVec 5) (k ty : BitVec 3),
    let mask (w : Nat) (c : Fin 16 → Nat → Bool) : BitVec 16 := BitVec.ofNat 16
      ((List.finRange 16).map fun (l : Fin 16) => if (t1.K k).getLsbD l && (List.range (32 / w)).all (c l) then 2 ^ l.val else 0).sum
    (Paying s r t 48 s1 t1 →
      let n := intBits ty
      let int (x : Nat) : Int := if isSigned ty then (BitVec.ofNat n x).toInt else x
      let rule (i : Instr) (p : Int → Int → Bool) : Prop := exec i s = .next (retire s1 (t1.setK (d.setWidth 3)
        (mask n fun l j => p (int (subOf n (t1.V a)[l] j)) (int (subOf n (t1.V b)[l] j)))).adv)
      rule (.vcmpEq d a b k ty) (fun x y => x = y) ∧ rule (.vcmpNe d a b k ty) (fun x y => x ≠ y) ∧
      rule (.vcmpLt d a b k ty) (fun x y => x < y) ∧ rule (.vcmpLe d a b k ty) (fun x y => x ≤ y)) ∧
    (Paying s r t 64 s1 t1 →
      let F := vFm t1.fmt ty.toNat
      let rule (i : Instr) (op : Nat) : Prop :=
        let c (l : Fin 16) (j : Nat) := fCmp F op (subOf F.width (t1.V a)[l] j) (subOf F.width (t1.V b)[l] j)
        let fl := (List.finRange 16).flatMap fun (l : Fin 16) => if (t1.K k).getLsbD l then (List.range (32 / F.width)).map fun j => (c l j).2 else []
        exec i s = .next (retire s1 ((t1.setK (d.setWidth 3) (mask F.width fun l j => (c l j).1)).raise (fl.foldl (fun x y => x ||| y) 0)).adv)
      rule (.vfcmpEq d a b k ty) 0 ∧ rule (.vfcmpLt d a b k ty) 1 ∧ rule (.vfcmpLe d a b k ty) 2 ∧ rule (.vfcmpUn d a b k ty) 3) ∧
    (Paying s r t 4 s1 t1 →
      let kr (n : BitVec 5) : BitVec 16 := t1.K (n.setWidth 3)
      let sets (i : Instr) (v : BitVec 16) : Prop := exec i s = .next (retire s1 (t1.setK (d.setWidth 3) v).adv)
      sets (.kand d a b) (kr a &&& kr b) ∧ sets (.kor d a b) (kr a ||| kr b) ∧ sets (.knot d a) (~~~kr a) ∧ sets (.kmov d a) (kr a) ∧
      sets (.kmovFromScalar d a) ((t1.S a).setWidth 16) ∧ exec (.kmovToScalar d a) s = .next (retire s1 (t1.setS d ((kr a).setWidth 64)).adv))

/-- R151: the addresses of a vector access to the pad, quad or die memory and where it stops; and the elements of any access that is located:
sixteen, each at the address of its lane, of the width its page format gives. -/
def Obligations.VectorAddresses : Prop :=
  ∀ (s : State) (t : Task) (sp : Nat) (ea : Word) (acc : Nat) (addr : Nat → Nat → Word),
    let aligned := ea.toNat % 4 = 0 ∧ ∀ i < 16, (addr 4 i).toNat % 4 = 0
    let fits := ea.toNat < extent sp ∧ ∀ i < 16, (addr 4 i).toNat + 4 ≤ extent sp
    (¬aligned → s.elems t sp ea acc addr = .bad (.stop .misaligned)) ∧
    (aligned ∧ sp = 0 ∧ isCanon ea.toNat = false → s.elems t sp ea acc addr = .bad (.stop .unresolved)) ∧
    (aligned ∧ sp ≠ 0 ∧ ¬fits → s.elems t sp ea acc addr = .bad (.stop .unresolved)) ∧
    (aligned ∧ sp ≠ 0 ∧ fits ∧ (∀ i < 16, s.reachable t.cx t.core sp (addr 4 i).toNat 4 = true) →
      s.elems t sp ea acc addr = .ok s ((List.range 16).map fun i => ⟨(addr 4 i).toNat, spaceKey sp t.core (addr 4 i).toNat, none⟩) 4 0) ∧
    (∀ s2 es g fmt, s.elems t sp ea acc addr = .ok s2 es g fmt → s2.mem = s.mem ∧ es.length = 16 ∧ g = (if fmt = 1 ∨ fmt = 2 then 2 else 4) ∧
      (∀ i e, es[i]? = some e → e.va = (addr g i).toNat ∧ ∀ u, e.use = some u → u.fmt = fmt ∧ e.key = entKey u e.va))

/-- R151 to R153: vector loads and stores of memory and of lane slices, once every element is located and no byte they take from memory is
poisoned. A load changes one register; a store stages one item of its whole extent and, on a converting page, raises the flags of its
conversions. -/
def Obligations.VectorMemory : Prop :=
  ∀ (s s1 s2 : State) (r : Nat) (t t1 : Task) (x b : BitVec 5) (sp : BitVec 3) (o : BitVec 10) (es : List Elem) (g fmt : Nat),
    let ea := t1.S b + o.signExtend 64 * 64
    let lane (i : Nat) : Lane := (t1.V x)[i % 16]'(Nat.mod_lt _ (by decide))
    let clean (s : State) (es : List Elem) (g : Nat) : Prop := ∀ e ∈ es, covered t1.staged e.key g = true ∨ s.poisoned e.key g = none
    let loads (i : Instr) (s2 : State) (es : List Elem) (g fmt : Nat) : Prop := ∃ s3, s3.mem = s2.mem ∧ exec i s = .next (retire s3
      (t1.setV x (Vector.ofFn fun i => ((es.map fun e => loadLane fmt (loadN s2.mem t1 e.key g))[i.val]?).getD 0)).adv)
    let stores (i : Instr) (s2 : State) (cells : List Host.Cell) (n va : Nat) (us : List PEnt) (fl : Fl) : Prop :=
      (t1.nbytes + n ≤ 16384 → exec i s = .next (retire s2 (Task.raise { t1 with
        staged := t1.staged ++ [.store cells va us], nstore := t1.nstore + 1, nbytes := t1.nbytes + n, pc := t1.pc + 4 } fl))) ∧
      (16384 < t1.nbytes + n → exec i s = .next (s1.stopTask t1 .overflow))
    (Paying s r t 96 s1 t1 →
      (s1.elems t1 sp.toNat ea 1 (fun g i => ea + BitVec.ofNat 64 (g * i)) = .ok s2 es g fmt → clean s2 es g → loads (.vld x b sp o) s2 es g fmt) ∧
      (s1.elems t1 sp.toNat ea 1 (fun _ i => ea + (lane i).signExtend 64) = .ok s2 es g fmt → clean s2 es g → loads (.vgld x b sp o) s2 es g fmt) ∧
      (s1.elems t1 sp.toNat ea 2 (fun g i => ea + BitVec.ofNat 64 (g * i)) = .ok s2 es g fmt →
        let vs := es.zipIdx.map fun e => (e.1, storeLane fmt (t1.fmt.getLsbD 2) (lane e.2))
        stores (.vst x b sp o) s2 (vs.flatMap fun v => cellsAt v.1.key (bytesOfNat g v.2.1)) (16 * g) ea.toNat (es.filterMap fun e => e.use)
          (vs.foldl (fun f v => f ||| v.2.2) 0))) ∧
    (Paying s r t 32 s1 t1 →
      let base := t1.S b + o.signExtend 64 * 4
      let slices (f : Nat → Word) : List Elem := (List.range 16).map fun i => ⟨(f i).toNat, laneKey t1.row i (f i).toNat, none⟩
      let okAt (f : Nat → Word) : Prop := ∀ i < 16, (f i).toNat % 4 = 0 ∧ (f i).toNat ≤ 4092
      (okAt (fun _ => base) → clean s1 (slices fun _ => base) 4 → loads (.vlds x b o) s1 (slices fun _ => base) 4 0) ∧
      (okAt (fun i => base + (lane i).signExtend 64) → clean s1 (slices fun i => base + (lane i).signExtend 64) 4 →
        loads (.vldsIx x b o) s1 (slices fun i => base + (lane i).signExtend 64) 4 0) ∧
      (okAt (fun _ => base) → stores (.vsts x b o) s1
        ((List.range 16).flatMap fun i => cellsAt (laneKey t1.row i base.toNat) (bytesOfNat 4 (lane i).toNat)) 64 base.toNat [] 0) ∧
      (base.toNat % 4 ≠ 0 → exec (.vlds x b o) s = .next (s1.stopTask t1 .misaligned) ∧ exec (.vsts x b o) s = .next (s1.stopTask t1 .misaligned)) ∧
      (base.toNat % 4 = 0 ∧ 4092 < base.toNat →
        exec (.vlds x b o) s = .next (s1.stopTask t1 .unresolved) ∧ exec (.vsts x b o) s = .next (s1.stopTask t1 .unresolved)))

/-- R155, R156: LUTX looks up each output bit of a lane in its table; LUTLD loads the 256 tables, 40 bits each, from 2 KiB of the core's pad,
unless a byte that it takes from memory is poisoned. -/
def Obligations.LutIsland : Prop :=
  ∀ (s s1 : State) (r : Nat) (t t1 : Task) (d a b : BitVec 5) (k : BitVec 3),
    (Paying s r t 32 s1 t1 → exec (.lutx d a b k) s = .next (retire s1 (t1.setV d (Vector.ofFn fun l =>
      if (t1.K k).getLsbD l then lutLane t1.cfg l (t1.V a)[l] (t1.V b)[l] else (t1.V d)[l])).adv)) ∧
    (∀ (cfg : Vector Word 256) (l : Fin 16) (x y : Lane) (j : Fin 16),
      let c := (cfg[16 * l.val + j.val]'(by omega)).toNat
      let input : BitVec 64 := y ++ x
      let sel (n : Nat) : Nat := if input.getLsbD (c / 2 ^ (16 + 6 * n) % 64) then 2 ^ n else 0
      (lutLane cfg l x y).getLsbD j = c.testBit (sel 3 + sel 2 + sel 1 + sel 0) ∧ (lutLane cfg l x y).getLsbD (16 + j) = false) ∧
    (Paying s r t 3072 s1 t1 →
      let ea := (t1.S a).toNat
      let key := padKey t1.core ea
      (ea % 64 ≠ 0 → exec (.lutld a) s = .next (s1.stopTask t1 .misaligned)) ∧
      (ea % 64 = 0 ∧ 2 ^ 23 < ea + 2048 → exec (.lutld a) s = .next (s1.stopTask t1 .unresolved)) ∧
      (ea % 64 = 0 ∧ ea + 2048 ≤ 2 ^ 23 ∧ s1.reachable t1.cx t1.core 2 ea 2048 = false → exec (.lutld a) s = .next (s1.faultTask t1 3 1 ea)) ∧
      (ea % 64 = 0 ∧ ea + 2048 ≤ 2 ^ 23 ∧ s1.reachable t1.cx t1.core 2 ea 2048 = true ∧
          (∀ i < 2048, covered t1.staged (key + i) 1 = true ∨ (key + i) / 256 ∉ s1.poison) →
        exec (.lutld a) s = .next (retire (s1.saw t1.row key 2048) { t1 with
          cfg := Vector.ofFn fun i => BitVec.ofNat 64 (loadN s1.mem t1 (key + 8 * i.val) 8 % 2 ^ 40), pc := t1.pc + 4 })))

/-! ## Forecast -/

/-- R270, R289: each register operation writes its result to its register and goes on to the next word; LDS takes a scratch word as it stood when
the decision began, which `scr` holds, and STO stages one. -/
def Obligations.ForecastRegisterResults : Prop :=
  ∀ (s : State) (die p : Nat) (d : Decision) (x y c : BitVec 3) (n : BitVec 8) (h : BitVec 5) (w : BitVec 4), Deciding s die p d →
    let k := 16 * die + p
    let f (i : BitVec 3) : BitVec 32 := d.f[i.toNat]'(i.isLt)
    let runs (i : Instr) (e : Decision) : Prop := exec i s = .next (s.setFcast k { s.fcast k with run := some e })
    let sets (i : Instr) (v : BitVec 32) : Prop := runs i { d with ops := d.ops + 1, pc := d.pc + 1, f := d.f.set x.toNat v x.isLt }
    let queue := d.cursor.bind fun q => d.snap.find? fun e => e.q == q
    sets (.fcLdi x n) (n.setWidth 32) ∧ (queue = none → sets (.fcLdq x n) 0) ∧
    (∀ q, queue = some q → sets (.fcLdq x n) (BitVec.ofNat 32 (q.fields.getD n.toNat 0))) ∧
    sets (.fcLdp x n) (BitVec.ofNat 32 (d.pfields.getD n.toNat 0)) ∧ sets (.fcLde x n) (BitVec.ofNat 32 (d.efields.getD n.toNat 0)) ∧
    sets (.fcLds x w) (d.scr[w.toNat]'(w.isLt)) ∧
    runs (.fcSto x w) { d with ops := d.ops + 1, pc := d.pc + 1, sto := putT d.sto w.toNat (f x) } ∧
    sets (.fcAdd x y) (f x + f y) ∧ sets (.fcSub x y) (f x - f y) ∧ sets (.fcShl x h) (f x <<< h.toNat) ∧ sets (.fcShr x h) (f x >>> h.toNat) ∧
    sets (.fcAnd x y) (f x &&& f y) ∧ sets (.fcOr x y) (f x ||| f y) ∧
    sets (.fcMin x y) (if (f x).toNat ≤ (f y).toNat then f x else f y) ∧ sets (.fcMax x y) (if (f x).toNat ≤ (f y).toNat then f y else f x) ∧
    sets (.fcSel x c y) (if f c = 0 then f x else f y)

/-- R270, R289: jumps go to i + 1 + sext(n, 8) where they are taken (a target below word 0 leaves the image); NEXTQ, PICKMIN and PICKMAX move the
cursor over the candidates of the snapshot, which stand in ascending order of number; answers are noted and the last one counts. -/
def Obligations.ForecastControlResults : Prop :=
  ∀ (s : State) (die p : Nat) (d : Decision) (x : BitVec 3) (n : BitVec 8) (r : BitVec 1), Deciding s die p d → (d.snap.Pairwise fun a b => a.q < b.q) →
    let k := 16 * die + p
    let f := d.f[x.toNat]'(x.isLt)
    let d1 := { d with ops := d.ops + 1, pc := d.pc + 1 }
    let runs (i : Instr) (e : Decision) : Prop := exec i s = .next (s.setFcast k { s.fcast k with run := some e })
    let jumps (i : Instr) (c : Prop) : Prop := (¬c → runs i d1) ∧
      (c → (0 ≤ (d.pc : Int) + 1 + n.toInt → runs i { d1 with pc := ((d.pc : Int) + 1 + n.toInt).toNat }) ∧
        ((d.pc : Int) + 1 + n.toInt < 0 → runs i { d1 with pc := 65536 }))
    let moves (i : Instr) (q : Option Nat) (v : Nat) : Prop := runs i { d1 with cursor := q, f := d.f.set x.toNat (BitVec.ofNat 32 v) x.isLt }
    let above (q : Nat) : Prop := r = 1 ∨ d.cursor = none ∨ ∃ c, d.cursor = some c ∧ c < q
    let field (q : QSnap) : Nat := q.fields.getD n.toNat 0
    jumps (.fcJmp n) True ∧ jumps (.fcJz x n) (f = 0) ∧ jumps (.fcJnz x n) (f ≠ 0) ∧ jumps (.fcJlt x n) (f.getLsbD 31 = true) ∧
    (∀ q ∈ d.snap, above q.q → (∀ e ∈ d.snap, above e.q → q.q ≤ e.q) → moves (.fcNextq x r) (some q.q) 1) ∧
    ((∀ q ∈ d.snap, ¬above q.q) → moves (.fcNextq x r) none 0) ∧
    (∀ q ∈ d.snap, (∀ e ∈ d.snap, field q < field e ∨ (field q = field e ∧ q.q ≤ e.q)) → moves (.fcPickmin x n) (some q.q) (field q)) ∧
    (∀ q ∈ d.snap, (∀ e ∈ d.snap, field e < field q ∨ (field q = field e ∧ q.q ≤ e.q)) → moves (.fcPickmax x n) (some q.q) (field q)) ∧
    (d.snap = [] → moves (.fcPickmin x n) none 0 ∧ moves (.fcPickmax x n) none 0) ∧
    runs .fcDisp { d1 with ans := some (.disp d.cursor) } ∧ runs (.fcPreempt x) { d1 with ans := some (.preempt f.toNat) } ∧
    runs (.fcFaultact x) { d1 with ans := some (.faultact f.toNat) } ∧ runs .fcDefer { d1 with ans := some .defer }

/-- R271, R272: the candidates of a snapshot stand in strictly ascending order of queue number (the order is log 25's reading, DEDUCED). -/
def Obligations.CandidatesAscend : Prop :=
  ∀ (s : State) (p kind core : Nat), (s.snapshot p kind core).Pairwise fun a b => a.q < b.q

/-- R273, R293 to R295: END carries the last answer out, DEFER where there is none; an answer that does not belong to the kind, and any operation
after the 128th, is an overrun that the fallback takes. A deferral performs the staged scratch writes, counts and records itself, and changes
nothing else; an overrun leaves the scratch words. The hash 0 of a record that no image gave is log 25's reading, DEDUCED. -/
def Obligations.ForecastEnds : Prop :=
  ∀ (s : State) (die p : Nat) (d : Decision), s.turn = .forecast die p → (s.fcast (16 * die + p)).run = some d →
    let fc := s.fcast (16 * die + p)
    let ans := d.ans.getD .defer
    let fits := (∃ q, ans = .disp (some q) ∧ d.kind = 0) ∨ (∃ v, ans = .preempt v ∧ d.kind = 1) ∨ (∃ a, ans = .faultact a ∧ a ≤ 2 ∧ d.kind = 2) ∨
      (ans = .defer ∧ d.kind < 2)
    (d.ops < 128 → fits → exec .fcEnd s = .next (s.decided die p { d with ops := d.ops + 1 } ans false false)) ∧
    (d.ops < 128 → ¬fits → exec .fcEnd s = .next (s.overrun die p d)) ∧
    (d.ops < 128 → ans = .defer → d.kind < 2 → (s.part p).swap = none →
      ∃ v : Vector (BitVec 32) 16, (∀ i : Fin 16, v[i] = (findT d.sto i.val).getD fc.scratch[i]) ∧
        exec .fcEnd s = .next (s.setFcast (16 * die + p) { fc with
          run := none, record := some ⟨fc.dseq, d.kind, .defer, false, if d.image.words.length ≠ 0 then d.image.hash else 0⟩,
          scratch := v, defers := fc.defers + 1, deferred := fc.deferred ++ [(d.kind, d.core, d.row, s.tb)] })) ∧
    (128 ≤ d.ops → ∀ (x y c : BitVec 3) (n : BitVec 8) (h : BitVec 5) (w : BitVec 4) (r : BitVec 1),
      ∀ i ∈ [Instr.fcLdi x n, .fcLdq x n, .fcLdp x n, .fcLde x n, .fcLds x w, .fcSto x w, .fcAdd x y, .fcSub x y, .fcShl x h, .fcShr x h, .fcAnd x y,
        .fcOr x y, .fcMin x y, .fcMax x y, .fcSel x c y, .fcJmp n, .fcJz x n, .fcJnz x n, .fcJlt x n, .fcNextq x r, .fcPickmin x n, .fcPickmax x n,
        .fcDisp, .fcPreempt x, .fcFaultact x, .fcDefer, .fcEnd], exec i s = .next (s.overrun die p d))

/-! ## Stream commands. `performed` and `underway` say that a command's writes are all performed, or that it has issued and goes on (R172). -/

/-- R183, R231, R328: an engine reaches a `pad`, `quad` or `die` operand where its context's ranges hold it, and reads or writes its bytes there;
outside them it is a protection fault, and a poisoned byte is a data error that names the granule of such a byte. -/
def Obligations.EnginesReach : Prop :=
  ∀ (s : State) (i : Iss) (sp addr n acc : Nat) (bs : List Byte), sp = 2 ∨ sp = 3 ∨ sp = 4 → 0 < n →
    let k := spaceKey sp i.c.core addr
    (s.reachable i.cx i.c.core sp addr n = true → s.engKeys i sp addr n acc = .ok [(k, n)] s ∧
      (s.poisoned k n = none → s.engRead i sp addr n = .ok (getBs s.mem k n) s) ∧
      ((∀ b < n, (k + b) / 256 ∉ s.poison) → s.poisoned k n = none) ∧
      ((∃ b < n, (k + b) / 256 ∈ s.poison) →
        ∃ b < n, (k + b) / 256 ∈ s.poison ∧ s.engRead i sp addr n = .faultAt s 12 0 (addr + b - (addr + b) % 256)) ∧
      (bs.length = n → s.engPut i sp addr [(k, n)] bs = s.write k bs)) ∧
    (s.reachable i.cx i.c.core sp addr n = false → s.engKeys i sp addr n acc = .fault 3 acc addr ∧ s.engRead i sp addr n = .fault 3 1 addr)

/-- R170, R172, R187, R188, R74: a queued command does not issue, and nothing changes, while its wait has not been satisfied, its context is faulted or
stopped, or the array it works on is another's, which has work on it or has not come to a slice boundary since it last had; while the pool does not
hold its cost in whole packets, the cost stands as due, with whether a hold would keep it waiting too (R349), and nothing else changes but what taking
the array over has done. The costs are those of R188.
That a slice boundary permits one handover, which new work of the owner takes back, is log 16's reading (DEDUCED). -/
def Obligations.CommandsWait : Prop :=
  ∀ (s s1 : State) (cx k : Nat) (x : Ctx) (c : Cmd) (h : CmdHdr) (o1 : CopyOps) (o2 : Copy2dOps) (o3 : CopycOps) (o4 : GatherOps) (o5 : DeckOps)
    (o6 : BloadOps) (o7 : MxtOps) (o8 : MxdrainOps) (o9 : CollOps) (o10 : WindowOps) (o11 : NoteOps) (o12 : QfenceOps) (o13 : IntakeOps),
    s.turn = .engine cx k → s.ctx cx = some x → headCmd x k = some c → c.st = .queued →
    let size := 4 * 2 ^ o4.esz.toNat
    let gathers := 128 + 32 * o4.count.toNat + 16 * cdiv (o4.count.toNat * size) 256
    let costs (s : State) : List (Instr × Nat) := [(.copy h o1, 64 + 16 * o1.len.toNat), (.copy2d h o2, 64 + 16 * cdiv (o2.rows.toNat * o2.rlen.toNat) 256 + 8 * o2.rows.toNat),
      (.copyc h o3, 80 + 16 * o3.len.toNat), (.gather h o4, gathers), (.scatter h o4, gathers), (.deck h o5, 64 + 16 * o5.len.toNat),
      (.bload h o6, if o6.sc = 1 then 8320 else 8256), (.mxt h o7, 12288 * ((o7.mm1.toNat + 1) * (o7.km1.toNat + 1)) + 4096),
      (.mxdrain h o8, 64 + 16 * cdiv ((if o8.ofmt = 0 then 2048 else if o8.ofmt.toNat ≤ 2 then 1024 else 516) * (o8.mm1.toNat + 1)) 256),
      (.coll h o9, 128 + 32 * o9.len.toNat), (.window h o10, 64), (.note h o11, 16), (.qfence h o12, 16),
      (.intake h o13, 512 + 2 * o13.slen.toNat + 4 * bits (profileOf s c.core o13) 96 32)]
    (∀ e ∈ costs s, (s.mayIssue x c = false → exec e.1 s = .next s) ∧
    (ownsArray k c = true → s.mayIssue x c = true → s.takeArray cx c.core = (false, s) → exec e.1 s = .next s) ∧
    (ownsArray k c = false → s.mayIssue x c = true → (s.part (partOf cx)).plevel < cdiv e.2 64 →
      ∃ held : Bool, exec e.1 s = .next (s.modCmd cx k c.seq fun d => { d with due := some (cdiv e.2 64), held := held }))) ∧
    (∀ (o : Nat) (y : Ctx), (s.core c.core).owner = some o → o ≠ cx → s.ctx o = some y →
      y.matrixWork c.core = true ∨ (s.core c.core).handover = false → s.takeArray cx c.core = (false, s)) ∧
    (∀ e ∈ costs s1, ownsArray k c = true → s.mayIssue x c = true → s.takeArray cx c.core = (true, s1) → (s1.part (partOf cx)).plevel < cdiv e.2 64 →
      ∃ held : Bool, exec e.1 s = .next (s1.modCmd cx k c.seq fun d => { d with due := some (cdiv e.2 64), held := held }))

/-- R189 to R193, R195, R203, R231: copies, deck and tile loads, drains and NOTE. A copy that reaches beyond its context's ranges is a protection fault
before anything is read (which of several operands it names is log 32's choice). Once issued, the operands reached, and no write meeting a receipt's
hold (R311), the bytes read are written whole and the command's writes are performed; COPYC writes its word after its payload. -/
def Obligations.CopyCommands : Prop :=
  ∀ (s s1 s2 s3 s4 : State) (cx k : Nat) (x : Ctx) (c : Cmd) (h : CmdHdr) (bs : List Byte) (ks ks2 : List (Nat × Nat)),
    let it : Iss := ⟨cx, k, c⟩
    let free (s : State) (ks : List (Nat × Nat)) : Prop := s.holdHit cx c.receipt (ks.filter fun e => isMemKey e.1) = none
    let copies (ssp src dsp dst n : Nat) : Prop := s1.outside it [(ssp, src, n, 1), (dsp, dst, n, 2)] = none ∧
      s1.engRead it ssp src n = .ok bs s2 ∧ s2.engKeys it dsp dst n 2 = .ok ks s3
    let breach (i : Instr) (l : List OpSpan) : Prop := ∀ acc a, s1.outside it l = some (acc, a) → exec i s = .next (s1.fault cx 3 acc it.faultCore 15 a 0 [])
    let near (b : BitVec 3) (off len : Nat) : List OpSpan := [(nearSpace b, 256 * off, 256 * len, if b.toNat < 5 then 1 else 2)]
    (∀ o : CopyOps, Issues s cx k x c (64 + 16 * o.len.toNat) s1 → breach (.copy h o) (near o.near o.noff.toNat o.len.toNat)) ∧
    (∀ o : CopycOps, Issues s cx k x c (80 + 16 * o.len.toNat) s1 → breach (.copyc h o) (near o.near o.noff.toNat o.len.toNat)) ∧
    (∀ o : Copy2dOps, Issues s cx k x c (64 + 16 * cdiv (o.rows.toNat * o.rlen.toNat) 256 + 8 * o.rows.toNat) s1 → breach (.copy2d h o) (copy2dSpans o)) ∧
    (∀ o : CopyOps, Issues s cx k x c (64 + 16 * o.len.toNat) s1 → free s3 ks →
      (o.near.toNat < 5 → copies (nearSpace o.near) (256 * o.noff.toNat) 0 o.far.toNat (256 * o.len.toNat) →
        exec (.copy h o) s = .next (performed (s3.engPut it 0 o.far.toNat ks bs) cx k c)) ∧
      (5 ≤ o.near.toNat → copies 0 o.far.toNat (nearSpace o.near) (256 * o.noff.toNat) (256 * o.len.toNat) →
        exec (.copy h o) s = .next (performed (s3.engPut it (nearSpace o.near) (256 * o.noff.toNat) ks bs) cx k c))) ∧
    (∀ o : CopycOps, Issues s cx k x c (80 + 16 * o.len.toNat) s1 → s3.engKeys it 0 o.cwa.toNat 8 2 = .ok ks2 s4 → free s4 ks → free s4 ks2 →
      let word (s : State) : State := performed (s.engPut it 0 o.cwa.toNat ks2 (bytesOfNat 8 o.cwv.toNat)) cx k c
      (o.near.toNat < 5 → copies (nearSpace o.near) (256 * o.noff.toNat) 0 o.far.toNat (256 * o.len.toNat) →
        exec (.copyc h o) s = .next (word (s4.engPut it 0 o.far.toNat ks bs))) ∧
      (5 ≤ o.near.toNat → copies 0 o.far.toNat (nearSpace o.near) (256 * o.noff.toNat) (256 * o.len.toNat) →
        exec (.copyc h o) s = .next (word (s4.engPut it (nearSpace o.near) (256 * o.noff.toNat) ks bs)))) ∧
    (∀ (o : Copy2dOps) (rows : List (List Byte)) (kss : List (List (Nat × Nat))),
      let n := o.rlen.toNat
      Issues s cx k x c (64 + 16 * cdiv (o.rows.toNat * n) 256 + 8 * o.rows.toNat) s1 → s1.outside it (copy2dSpans o) = none →
      forRows (fun s r => s.engRead it o.ssp.toNat (rowAddr o.ssp.toNat o.src.toNat o.sstride.toNat r) n) s1 (List.range o.rows.toNat) = .ok rows s2 →
      forRows (fun s r => s.engKeys it o.dsp.toNat (rowAddr o.dsp.toNat o.dst.toNat o.dstride.toNat r) n 2) s2 (List.range o.rows.toNat) = .ok kss s3 →
      free s3 kss.flatten → exec (.copy2d h o) s = .next (performed ((kss.zip rows).zipIdx.foldl (fun s e =>
        s.engPut it o.dsp.toNat (rowAddr o.dsp.toNat o.dst.toNat o.dstride.toNat e.2) e.1.1 e.1.2) s3) cx k c)) ∧
    (∀ o : DeckOps, Issues s cx k x c (64 + 16 * o.len.toNat) s1 → s1.engRead it o.ssp.toNat o.src.toNat (256 * o.len.toNat) = .ok bs s2 →
      exec (.deck h o) s = .next (performed (s2.write (deckKey c.core (256 * o.doff.toNat)) bs) cx k c)) ∧
    (∀ o : BloadOps, Issues s cx k x c (if o.sc = 1 then 8320 else 8256) s1 →
      s1.poisoned (deckKey c.core (256 * o.doff.toNat)) (256 * (if o.sc = 1 then 516 else 512)) = none →
      exec (.bload h o) s = .next (performed { s1 with mem := fillTile s1.mem c.core o.doff.toNat (o.sc == 1) } cx k c)) ∧
    (∀ o : MxdrainOps, let rows := o.mm1.toNat + 1
      let len := drainLen o.ofmt.toNat rows
      Issues s cx k x c (64 + 16 * cdiv len 256) s1 → s1.engKeys it 2 (256 * o.dst.toNat) len 2 = .ok ks s2 →
      exec (.mxdrain h o) s = .next (performed (s2.puts ks (drainBytes rows o.ofmt.toNat o.prec.toNat (o.usgn == 1) (o.fin == 1)
        fun m j => getN s2.mem (accKey c.core m j) 4)) cx k c)) ∧
    (∀ o : NoteOps, Issues s cx k x c 16 s1 → s1.engKeys it o.nsp.toNat o.naddr.toNat 8 2 = .ok ks s2 → free s2 ks →
      exec (.note h o) s = .next (performed (s2.engPut it o.nsp.toNat o.naddr.toNat ks
        (bytesOfNat 8 (if o.long = 1 then o.nval64.toNat else o.nval.toNat))) cx k c))

/-- R161 to R166, R194, R196 to R202, R204: tile-tasks, indirect streams, a collective's members, INTAKE's place, windows and QFENCE. A COLL that no open
instance takes opens one; another joins its instance, at `.POD` telling the packages that hold other members in pieces (R346, R347, log 6); one that does
not match ends the instance for every member. Not the spec's words but the model's: that a second command of one `MIDX` does not match the open instance
and ends it (log 25, DEDUCED; log 32, DESIGN CHOICE: R199's matching could send it to the next), and that one whose instance has come to nothing completes
without a result and faults (log 32: R199 speaks of members that have issued only). A gather, scatter, COLL or tile-task that reaches beyond its
context's ranges is a protection fault before anything is read (R231; which of several operands it names is log 32's choice). -/
def Obligations.EngineCommands : Prop :=
  ∀ (s s1 s2 s3 s4 : State) (cx k : Nat) (x : Ctx) (c : Cmd) (h : CmdHdr) (bs idx : List Byte) (ks : List (Nat × Nat))
    (els : List (Nat × List (Nat × Nat))),
    let it : Iss := ⟨cx, k, c⟩
    let free (s : State) (ks : List (Nat × Nat)) : Prop := s.holdHit cx c.receipt (ks.filter fun e => isMemKey e.1) = none
    let die := c.core / 8
    let breach (i : Instr) (l : List OpSpan) : Prop := ∀ acc a, s1.outside it l = some (acc, a) → exec i s = .next (s1.fault cx 3 acc it.faultCore 15 a 0 [])
    (∀ o : MxtOps, Issues s cx k x c (12288 * ((o.mm1.toNat + 1) * (o.km1.toNat + 1)) + 4096) s1 → breach (.mxt h o) (mxtSpans o)) ∧
    (∀ o : GatherOps, Issues s cx k x c (128 + 32 * o.count.toNat + 16 * cdiv (o.count.toNat * (4 * 2 ^ o.esz.toNat)) 256) s1 →
      breach (.gather h o) (gatherSpans o 2) ∧ breach (.scatter h o) (gatherSpans o 1)) ∧
    (∀ o : CollOps, Issues s cx k x c (128 + 32 * o.len.toNat) s1 → breach (.coll h o) (collSpans o)) ∧
    (∀ o : MxtOps, Issues s cx k x c (12288 * ((o.mm1.toNat + 1) * (o.km1.toNat + 1)) + 4096) s1 → s1.mxtCheck it o = .ok () s2 →
      let s3 := s2.modCore c.core fun d => { d with bankB := !d.bankB }
      (o.ach = 0 → exec (.mxt h o) s = .next (performed { s3 with
        mem := mxtRun o c.core (fun g => getBs s3.mem (padKey c.core (256 * (o.abase.toNat + g))) 256) s3.mem } cx k c)) ∧
      (o.ach = 1 → let s4 := s3.setBind (mxtHdr o c.core) false true
        exec (.mxt h o) s = .next (underway { s4 with mem := mxtSwap o c.core 0 (o.swap0 == 1) s4.mem } cx k c))) ∧
    (∀ o : GatherOps, let e := 4 * 2 ^ o.esz.toNat
      let w := if o.iw = 1 then 8 else 4
      Issues s cx k x c (128 + 32 * o.count.toNat + 16 * cdiv (o.count.toNat * e) 256) s1 →
      (s1.outside it (gatherSpans o 2) = none → s1.engKeys it o.dsp.toNat o.data.toNat (e * o.count.toNat) 2 = .ok ks s2 → free s2 ks →
        s2.engRead it o.isp.toNat o.idx.toNat (w * o.count.toNat) = .ok idx s3 → s3.elemKeys it e 1 (elemAddrs o idx) = .ok (els, none) s4 →
        exec (.gather h o) s = .next (performed (s4.gatherGo it o ks 0 els) cx k c)) ∧
      (s1.outside it (gatherSpans o 1) = none → s1.engRead it o.dsp.toNat o.data.toNat (e * o.count.toNat) = .ok bs s2 →
        s2.engRead it o.isp.toNat o.idx.toNat (w * o.count.toNat) = .ok idx s3 → s3.elemKeys it e 2 (elemAddrs o idx) = .ok (els, none) s4 →
        free s4 (els.flatMap Prod.snd) →
        exec (.scatter h o) s = .next (performed (els.zipIdx.foldl (fun s v => s.puts v.1.2 ((bs.drop (e * v.2)).take e)) s4) cx k c))) ∧
    (∀ o : CollOps, Issues s cx k x c (128 + 32 * o.len.toNat) s1 → s1.outside it (collSpans o) = none →
      s1.engRead it 2 (256 * o.src.toNat) (256 * o.len.toNat) = .ok bs s2 →
      s2.engKeys it 2 (256 * o.dst.toNat) (256 * o.len.toNat) 2 = .ok ks s3 →
      let p := partOf cx
      let m : Member := ⟨cx, c.core, c.seq, o.midx.toNat, padKey c.core (256 * o.src.toNat), padKey c.core (256 * o.dst.toNat), s3.tb⟩
      let tells (g : Coll) : List (Nat × Nat × PodPayload) := (collPieces (getBs s3.mem m.src (256 * o.len.toNat))).flatMap fun e => g.dests.map fun d =>
        (d, p, .collective g.ord g.group o.kind.toNat o.dt.toNat o.nmem.toNat o.len.toNat m.midx e.1 e.2)
      let open_ := s3.colls.find? fun g => g.takes p o.group.toNat o.scope.toNat c.core && !(g.broken && g.has m.midx)
      (open_ = none → ∃ id, (∀ g ∈ s3.colls, g.id < id) ∧
        let g : Coll := ⟨id, s3.nextOrdOf p o.group.toNat, p, o.kind.toNat, o.dt.toNat, o.scope.toNat, placeOf o.scope.toNat c.core, o.group.toNat,
          o.nmem.toNat, o.len.toNat, [m], [], false, []⟩
        exec (.coll h o) s = .next (underway { s3 with colls := s3.colls ++ [g], podTx := s3.podTx ++ tells g } cx k c)) ∧
      (∀ g, open_ = some g →
        let fits := g.kind = o.kind.toNat ∧ g.dt = o.dt.toNat ∧ g.scope = o.scope.toNat ∧ g.nmem = o.nmem.toNat ∧ g.len = o.len.toNat ∧
          g.has m.midx = false
        let g' := { g with members := g.members ++ [m] }
        (g.broken = false → fits → exec (.coll h o) s = .next (underway { s3 with
          colls := s3.colls.map fun h => if h.id = g.id then g' else h, podTx := s3.podTx ++ tells g } cx k c)) ∧
        (g.broken = false → ¬fits → exec (.coll h o) s = .next (performed (s3.endColl g') cx k c)) ∧
        (g.broken = true → exec (.coll h o) s = .next (performed (s3.joinBroken g m) cx k c)))) ∧
    (∀ (o : IntakeOps) (hd : ChanHdr) (l : Nat), let w := getN s.mem (dieKey die (64 * o.prof.toNat)) 64
      let core := die * 8 + bits w 288 3
      let hdr := bits w 292 23
      let q := bits w 320 26
      codeOf k = 5 → Issues s cx k x c (512 + 2 * o.slen.toNat + 4 * bits w 96 32) s1 →
      s1.reachable cx c.core 4 (64 * o.prof.toNat) 64 = true → s1.poisoned (dieKey die (64 * o.prof.toNat)) 64 = none → profileOk w = true →
      (s1.core core).part = some (partOf cx) →
      s1.reachable cx core 2 hdr 64 = true → s1.chanPoison false (padKey core hdr) = none →
      chanHdr s1.mem false (padKey core hdr) = some hd → hd.slotSz = 4 →
      s1.reachable cx core 2 hdr (64 + tagBytes hd.logn + 2 ^ hd.logn * 4) = true → s1.reachable cx c.core 4 q 64 = true →
      s1.poisoned (dieKey die q) 64 = none → qringLog s1.mem (dieKey die q) = some l → s1.reachable cx c.core 4 q (64 + 32 * 2 ^ l) = true →
      (s1.die die).msgs.length < 64 →
      s1.isBound (padKey core hdr) true = false ∨ (∃ m ∈ (s1.die die).msgs, m.ochan = padKey core hdr) →
      ∃ m : Msg, m.cx = cx ∧ m.seq = c.seq ∧ m.slen = o.slen.toNat ∧ m.tokcap = bits w 96 32 ∧ m.ochan = padKey core hdr ∧ m.qring = dieKey die q ∧
        m.verdict = none ∧ m.sent = 0 ∧ exec (.intake h o) s =
          .next (underway ((s1.setBind (padKey core hdr) true true).modDie die fun d => { d with msgs := d.msgs ++ [m] }) cx k c)) ∧
    (∀ o : WindowOps, let sh := s1.share (partOf cx) die
      let key := o.tile.toNat * 1024 + o.slot.toNat
      let d := s1.die die
      let others := ((d.tile o.tile.toNat).filter fun e => e.2.part == partOf cx && e.2.kind != 2 && e.1 != key).map fun e => e.2.granules
      Issues s cx k x c 64 s1 → sh.sbase ≤ o.slot.toNat ∧ o.slot.toNat < sh.sbase + sh.scount → others.sum + (o.gm1.toNat + 1) ≤ sh.tquota →
      ∃ w : Win, w.kind = (if o.dims = 0 then 1 else 0) ∧ w.part = partOf cx ∧ w.cx = cx ∧ w.base = canon57 o.wbase.toNat ∧ w.len = o.gm1.toNat + 1 ∧
        w.write = (o.dir == 1) ∧ w.dims = windowDims o ∧ w.tail = 0 ∧ w.head = 0 ∧ w.held = [] ∧ w.dirty = [] ∧
        exec (.window h o) s = .next (performed ((s1.modPort (genPort die o.tile.toNat) fun p => { p with entries := [], got := [] }).setDie die
          (({ d with wins := putT d.wins key w } : Die).fitTile o.tile.toNat (partOf cx) sh.tquota 1024)) cx k c)) ∧
    (∀ o : QfenceOps, Issues s cx k x c 16 s1 → exec (.qfence h o) s = .next (underway s1 cx k c))

/-! ## Ring packets. `endPkt` starts and completes the packet at the head with a status, code and stage (R280); `startPkt` leaves it open. -/

/-- R281 to R283, R276, R285, R219: LAUNCH, PIPE, CMD, SIGNAL and WAIT complete or go on once what they name has been read and accepted. A LAUNCH
sets the `BIND` bits of its block before it waits for the quota or a segment, and then keeps what it has read. A PIPE whose own miss has reached the
fault limit is refused with the code of the check that met it. -/
def Obligations.WorkPackets : Prop :=
  ∀ (s s2 s3 : State) (cx : Nat) (x : Ctx) (c : Cur), AtHead s cx x c →
    (∀ (o : LaunchOps) (b : LBlock), let base : Word := BitVec.ofNat 64 (c.seq * 2 ^ 20)
      -- step 4 of R285, in the state in which the block is bound
      let copies (u : State) : Prop :=
        let waits (full : Option Nat) : Prop := exec (.launch o) s = .next (u.modCtx cx fun x => { x with cur := some { c with block := some b, full := full } })
        let span := if o.count = 1 then none else some ⟨0, c.seq, o.count.toNat, u.spanRanges cx b.image o.count.toNat⟩
        let r := (u.startPkt cx c 0 0).enqueue cx o.block.toNat b ⟨base, some c.seq, false⟩ span
        (r = .ok s3 → exec (.launch o) s = .next s3) ∧ (r = .full s3 → waits (some (lbQsel b.image))) ∧ (r = .quota s3 → waits none)
      (c.block = some b → copies s) ∧
      (c.block = none → s.readBlock (s.firstDie (partOf cx)) cx o.block.toNat id (o.count == 1) = .ok b s2 →
        (o.count = 1 → lbRearm b.image = true → exec (.launch o) s = .next ((s2.arm cx o.block.toNat b ⟨base, none, false⟩).endPkt cx c 0 0 0)) ∧
        (o.count ≠ 1 → lbGsz b.image ≠ 1 ∨ lbNch b.image ≠ 0 → exec (.launch o) s = .next (s.endPkt cx c 1 0 0)) ∧
        (o.count = 1 ∨ (lbGsz b.image = 1 ∧ lbNch b.image = 0) → lbRearm b.image = false → copies (s2.bindAll b.chans.flatten)))) ∧
    (∀ (o : PipeOps) (w : Nat) (p : Pipe) (out : List Nat) (i : Nat), let q := { p with stages := out, pkt := c.seq, q := c.seq }
      let lost (va : Nat) : Prop := ∃ a, c.lost = some a ∧ va ≤ a ∧ a < va + 64
      let stage (i : Nat) : Nat := (p.stab + 64 * i) % 2 ^ 64
      o.block.toNat % 64 = 0 → isCanon o.block.toNat = true →
      (lost o.block.toNat → exec (.pipe o) s = .next (s.endPkt cx c 2 1 0)) ∧
      (¬lost o.block.toNat → s.devRead cx o.block.toNat 64 = .ok w s2 → pipeBlock c.seq w = some p →
        (i < p.nstg → (∀ j < i, ¬lost (stage j)) → StagesRead s2 cx p.stab i [] s3 out → lost (stage i) →
          exec (.pipe o) s = .next (s3.endPkt cx c 2 2 i)) ∧
        ((∀ j < p.nstg, ¬lost (stage j)) → StagesRead s2 cx p.stab p.nstg [] s3 out →
          ((s3.ctx cx).bind fun x => s3.refusal cx x { p with stages := out }) = none →
          p.r ≤ (s3.freeGeneral p.core).length → s3.bandRuns cx q = true → exec (.pipe o) s = .next ((s3.startPkt cx c 1 0).loadPipe cx q)))) ∧
    (∀ o : PipeOps, o.block.toNat % 64 ≠ 0 ∨ isCanon o.block.toNat = false → exec (.pipe o) s = .next (s.endPkt cx c 2 1 0)) ∧
    (∀ o : CmdOps, let core := o.core.toNat
      let good := (s.core core).part = some (partOf cx) ∧ cmdValid o.queue.toNat o.lo.toNat o.hi.toNat = true ∧ (bits o.lo.toNat 98 1 = 0 → o.hi.toNat = 0)
      (¬good → exec (.cmd o) s = .next (s.endPkt cx c 1 0 0)) ∧
      (good → s.roomFor cx core o.queue.toNat o.lo.toNat = true →
        exec (.cmd o) s = .next ((s.startPkt cx c 0 0).append cx core o.queue.toNat o.lo.toNat o.hi.toNat (some c.seq) false none)) ∧
      (good → s.roomFor cx core o.queue.toNat o.lo.toNat = false → exec (.cmd o) s = .next s)) ∧
    (∀ (o : SignalOps) (e : PEnt), let key := entKey e o.addr.toNat
      s.xlate (s.devPort cx) cx o.addr.toNat (if o.op = 0 then 2 else 3) = (.ok e, s2) → o.op = 0 ∨ s2.poisoned key 8 = none →
      exec (.signal o) s = .next ((s2.atomic key 8 (if o.op = 0 then 8 else if o.op = 1 then 0 else 4) o.value.toNat).2.endPkt cx c 0 0 0)) ∧
    (∀ o : WaitOps,
      (∀ key, c.wkey = some key → (c.wok = true → c.started = true → exec (.wait o) s = .next (s.endPkt cx c 0 0 0)) ∧
        (c.wok = false → exec (.wait o) s = .next s)) ∧
      (∀ e : PEnt, c.wkey = none → s.xlate (s.devPort cx) cx o.addr.toNat 1 = (.ok e, s2) →
        let key := entKey e o.addr.toNat
        let now := getN s2.mem key 8
        let c1 := if c.started = true then c else
          { c with started := true, wval := o.value, wge := o.op == 1, until_ := if o.tmo = 0 then none else some (s.tb + o.tmo.toNat * 1024) }
        let holds := if o.op = 1 then o.value.toNat ≤ now else now = o.value.toNat
        s2.poisoned key 8 = none → (holds → exec (.wait o) s = .next (s2.endPkt cx c1 0 0 0)) ∧
          (¬holds → exec (.wait o) s = .next (s2.modCtx cx fun x => { x with cur := some { c1 with wkey := some key } }))))

/-- R306, R307, R310, R361: a RECEIPT that breaks the rules of R306 completes with status 1; any other starts, and F4 does its first three steps.
What it names is checked and recorded and its code, block and argument held, while a failing check, the VF quota reached among them, or a read whose miss
has reached the fault limit, makes it invalid (of the header at `CODEA` in step 1 that is the model's reading: log 26, DEDUCED); both items are read
whole and chained; and its block is enqueued. One that a context fault has ended goes no further with these steps. -/
def Obligations.ReceiptPackets : Prop :=
  ∀ (s s1 s2 s3 : State) (cx : Nat) (x y : Ctx) (c : Cur) (o : ReceiptOps) (r : Receipt) (b : LBlock) (len : Nat) (ks ms : List (Nat × Nat)),
    let reads (s : State) (va n : Nat) (ks : List (Nat × Nat)) (t : State) : Prop := lostIn r.lost va n = none ∧
      s.reach (s.devPort cx) cx va n 1 = .ok ks t ∧ t.poisonIn va ks = none
    (AtHead s cx x c →
      (receiptOk o = false → exec (.receipt o) s = .next (s.endPkt cx c 1 0 0)) ∧
      (receiptOk o = true → exec (.receipt o) s = .next
        (((s.startPkt cx c 0 c.body).modCtx cx fun x' => { x' with receipt := some (openReceipt c.seq o x.chain s.tb) }).receiptWork cx))) ∧
    s.receiptBad cx r = ((s.unbind cx r.chans.flatten).modCtx cx fun x => { x with receipt := none, holds := [] }).complete cx r.seq 1 0 0 ∧
    (s.ctx cx = some x → x.receipt = some r → r.faulted = true → s.receiptWork cx = s) ∧
    (s.ctx cx = some x → x.receipt = some r → r.faulted = false → x.works = true → x.mig ≠ 4 → s.pendR = [] →
      (r.step = 1 → lostIn r.lost r.codea 16 ≠ none → s.receiptWork cx = s.receiptBad cx r) ∧
      (r.step = 1 → reads s r.codea 16 ks s1 →
        (codeLen (natOfBytes (s1.gets ks)) = none → s.receiptWork cx = s1.receiptBad cx r) ∧
        (codeLen (natOfBytes (s1.gets ks)) = some len → s1.readBlock (s1.firstDie (partOf cx)) cx r.block id false = .ok b s2 → s2.ctx cx = some y →
          let quota := (s2.vf y.setup.vf).qslots
          (codeOk r.codea len (lbEntry b.image) = false ∨ (quota ≠ 0 ∧ quota ≤ s2.entriesOf y.setup.vf) → s.receiptWork cx = s2.receiptBad cx r) ∧
          (codeOk r.codea len (lbEntry b.image) = true → quota = 0 ∨ s2.entriesOf y.setup.vf < quota →
            let r1 := r.checked len b y.chain s2.tb
            s.receiptWork cx = ((s2.bindAll b.chans.flatten).modCtx cx fun x => { x with receipt := some r1, holds := [r1.itemHold] }).receiptItems cx r1))) ∧
      (r.step = 2 → reads s r.codea (16 + r.clen) ks s1 → reads s1 r.arga r.argl ms s2 →
        let hc := sha256 (s2.gets ks)
        let ha := sha256 (bytesOfNat 64 r.image ++ s2.gets ms)
        let r' := { r with step := 3, hcode := hc, harg := ha }
        s.receiptWork cx = (s2.modCtx cx fun x => { x with
          receipt := some r'
          chain := chainStep (chainStep x.chain 1 (16 + r.clen) hc) 2 (64 + r.argl) ha }).receiptEnqueue cx r') ∧
      (r.step = 3 → s.enqueue cx r.block ⟨r.image, r.npkt, r.chans, r.wkey⟩ ⟨BitVec.ofNat 64 (r.seq * 2 ^ 20), some r.seq, true⟩ none = .ok s3 →
        s.receiptWork cx = s3.modCtx cx fun x => { x with receipt := x.receipt.map fun r => { r with step := 4, lost := [] } }))

/-- R275, R278, R284, R298 to R301: POLICY and PART packets take effect in a privileged context, and complete with status 4 in any other; one that names
a partition that does not exist completes with status 1. A swap takes effect at once where no decision of the partition runs. Not the spec's but the
model's choice: that PART.CORES passes over a core that is out of service, that a PART.CORES which names a core still moving waits, and that a second
POLICY.SWAP waits while one is pending (log 32, DESIGN CHOICE). -/
def Obligations.PrivilegedPackets : Prop :=
  ∀ (s s2 : State) (cx : Nat) (x : Ctx) (c : Cur) (o1 : PolicyLoadOps) (o2 : PartCoresOps) (o3 : PartPoolOps) (o4 : PartCacheOps) (o5 : PartQueueOps)
    (o6 : PartLimitsOps) (o7 : PartVfOps) (o8 : PartDropOps) (o9 : PartCtxOps), AtHead s cx x c →
    (x.setup.priv = false → ∀ i ∈ [Instr.policyLoad o1, .policySwap, .partCores o2, .partPool o3, .partCache o4, .partQueue o5, .partLimits o6,
      .partVf o7, .partDrop o8, .partCtx o9], exec i s = .next (s.endPkt cx c 4 0 0)) ∧
    (x.setup.priv = true →
      let p := s.part (partOf cx)
      (∀ w, s.devRead cx o1.img.toNat (2 * (o1.lenm1.toNat + 1)) = .ok w s2 → exec (.policyLoad o1) s =
        .next ((s2.modPart (partOf cx) fun p => { p with
          staged := some ⟨(List.range (2 * (o1.lenm1.toNat + 1) / 2)).map fun i => BitVec.ofNat 16 (w / 2 ^ (16 * i)),
            sha256 (bytesOfNat (2 * (o1.lenm1.toNat + 1)) w)⟩
          badStaged := false }).endPkt cx c 0 0 0)) ∧
      (p.swap.isSome = true → exec .policySwap s = .next s) ∧ (p.swap = none → p.staged = none → exec .policySwap s = .next (s.endPkt cx c 1 0 0)) ∧
      (p.swap = none → p.staged.isSome = true → exec .policySwap s =
        .next (if p.badStaged then
          ((s.modPart (partOf cx) fun p => { p with staged := none, badStaged := false }).endPkt cx c 7 1 0).partFault (partOf cx) 1
        else ((s.startPkt cx c 0 0).swapNow (partOf cx) cx c.seq).trySwap (partOf cx))) ∧
      (p.swap = none → p.staged.isSome = true → p.badStaged = false → ∃ u, exec .policySwap s = .next u ∧
        ((∀ e ∈ s.fcasts, e.1 % 16 = partOf cx → e.2.run = none) →
          (u.part (partOf cx)).image = p.staged ∧ (u.part (partOf cx)).staged = none ∧ (u.part (partOf cx)).swap = none) ∧
        ((∃ e ∈ s.fcasts, e.1 % 16 = partOf cx ∧ e.2.run.isSome = true) →
          (u.part (partOf cx)).image = p.image ∧ (u.part (partOf cx)).staged = p.staged ∧ (u.part (partOf cx)).swap = some (cx, c.seq))) ∧
      ((∃ n ∈ maskCores o2.mask.toNat, (s.core n).target ≠ none) → exec (.partCores o2) s = .next s) ∧
      ((∀ n ∈ maskCores o2.mask.toNat, (s.core n).target = none) →
       let s1 := s.needPart o2.p.toNat
       let ns := (maskCores o2.mask.toNat).filter fun n => (s1.core n).part != some o2.p.toNat && !(s1.core n).oos
       let s2 := ns.foldl (fun s n => s.modCore n fun k => { k with target := some o2.p.toNat }) s1
       exec (.partCores o2) s = .next (((s2.ctxs.map Prod.fst).foldl (fun s q => s.parkAll q ns.contains) s2).startPkt cx c 0 c.body)) ∧
      (s.hasPart o3.p.toNat = true → exec (.partPool o3) s = .next (((s.modPart o3.p.toNat fun p => { p with
        plevel := min o3.plevel.toNat o3.pcap.toNat, pcap := o3.pcap.toNat, prate := o3.prate.toNat }).poolRose o3.p.toNat
          (s.part o3.p.toNat).plevel).endPkt cx c 0 0 0)) ∧
      (s.hasPart o4.p.toNat = true → let sh : Share := ⟨o4.sbase.toNat, o4.scount.toNat, o4.tquota.toNat, o4.lquota.toNat, o4.bw.toNat⟩
        exec (.partCache o4) s = .next (((List.range 4).foldl (fun s d => if o4.dies.getLsbD d then
          ((s.modPart o4.p.toNat fun p => { p with shares := putT p.shares d sh }).modDie d fun x => x.setShare sh o4.p.toNat).trimSlices o4.p.toNat d
          else s) s).endPkt cx c 0 0 0)) ∧
      (s.hasPart o5.p.toNat = true → let tgt := 32 * o5.p.toNat + o5.c.toNat
        (s.ctx tgt = none → exec (.partQueue o5) s = .next (s.endPkt cx c 1 0 0)) ∧
        (∀ y, s.ctx tgt = some y →
          (findT y.queues o5.qsel.toNat = none → o5.segment = 0 → exec (.partQueue o5) s = .next (s.endPkt cx c 1 0 0)) ∧
          (findT y.queues o5.qsel.toNat = none → o5.segment ≠ 0 → exec (.partQueue o5) s =
            .next (s.newQueue cx c tgt o5.qsel.toNat y o5.prio.toNat (o5.urgent == 1) o5.segment.toNat)) ∧
          (∀ e, findT y.queues o5.qsel.toNat = some e → exec (.partQueue o5) s = .next ((s.setCtx tgt { y with
            queues := putT y.queues o5.qsel.toNat { e with prio := o5.prio.toNat, urgent := o5.urgent == 1 },
            free := if o5.segment = 0 then y.free else y.free ++ [o5.segment.toNat] }).endPkt cx c 0 0 0)))) ∧
      (s.hasPart o6.p.toNat = true → exec (.partLimits o6) s = .next (((s.modPart o6.p.toNat fun p => { p with
        drain := o6.drain.toNat, fault := o6.fault.toNat, dint := o6.dint.toNat }).setSlices o6.p.toNat o6.slice.toNat).endPkt cx c 0 0 0)) ∧
      exec (.partVf o7) s = .next ((s.setVf o7.vf.toNat { s.vf o7.vf.toNat with qslots := o7.qslots.toNat, dcnt := o7.dcnt.toNat }).endPkt cx c 0 0 0) ∧
      (s.hasPart o8.p.toNat = true → exec (.partDrop o8) s = .next ((s.startPkt cx c 0 c.body).dropWork cx c.seq o8.p.toNat)) ∧
      (let tgt := 32 * o9.p.toNat + o9.c.toNat
       (o9.en = 0 → s.ctx tgt = none → exec (.partCtx o9) s = .next (s.endPkt cx c 1 0 0)) ∧
       (o9.en ≠ 0 ∨ s.ctx tgt ≠ none → (∀ q ∈ x.pkts, q.seq ≠ c.seq) → exec (.partCtx o9) s =
        .next (((s.needPart o9.p.toNat).startPkt cx c 0 c.body).ctxWork cx ⟨c.seq, c.hdr.kind, c.hdr.rel, c.hdr.crec, c.hdr.irq, 0, c.body⟩ o9))) ∧
      (s.hasPart o3.p.toNat = false → exec (.partPool o3) s = .next (s.endPkt cx c 1 0 0)) ∧
      (s.hasPart o4.p.toNat = false → exec (.partCache o4) s = .next (s.endPkt cx c 1 0 0)) ∧
      (s.hasPart o5.p.toNat = false → exec (.partQueue o5) s = .next (s.endPkt cx c 1 0 0)) ∧
      (s.hasPart o6.p.toNat = false → exec (.partLimits o6) s = .next (s.endPkt cx c 1 0 0)) ∧
      (s.hasPart o8.p.toNat = false → exec (.partDrop o8) s = .next (s.endPkt cx c 1 0 0)))

/-- R300, R309, R81: a context that a PART.CTX creates starts with the setup the packet gives, its chain at its first value, and nothing else in it;
the header of its stop ring is written to zero, and the packet then completes. (The register of the packet that created it completes without a record
where `CREC` is 0.) -/
def Obligations.ContextCreation : Prop :=
  ∀ (s v : State) (cx : Nat) (y : Ctx) (p : Pkt) (o : PartCtxOps) (ks : List (Nat × Nat)), let tgt := 32 * o.p.toNat + o.c.toNat
    let s1 := (((s.ctxMark cx p 2).forget tgt).setCtx tgt (Ctx.create (setupOf o) (chainStart o.c.toNat o.p.toNat))).passUnits.ungate o.p.toNat (setupOf o)
    Memory.wf s.mem = true → s.ctx cx = some y → cx ≠ tgt → s.ctx tgt = none → s.drained tgt = true → s.pendW = [] → p.live = 0 → p.crec = false → o.en ≠ 0 →
    4 ≤ o.sring.toNat % 16 → o.sring.toNat % 16 ≤ 12 → s1.reach (ctxPort (s1.firstDie (partOf tgt))) tgt (setupOf o).sring 64 3 = .ok ks v →
    let t := s.ctxWork cx p o
    ∃ z w, t.ctx tgt = some z ∧ z.setup = setupOf o ∧ z.chain = chainStart o.c.toNat o.p.toNat ∧ z.doorbell = 0 ∧ z.consumed = 0 ∧
      z.recs = 0 ∧ z.cur = none ∧ z.pkts = [] ∧ z.queues = [] ∧ z.acts = [] ∧ z.bounds = [] ∧ z.groups = [] ∧ z.eqs = [] ∧ z.slots = [] ∧
      z.halt.halted = false ∧ z.halt.fault = none ∧ z.dbg.brken = false ∧ z.dbg.state = 0 ∧ z.mig = 0 ∧ z.pipes = [] ∧ z.holds = [] ∧
      z.receipt = none ∧ z.images = [] ∧ (∀ e ∈ ks, ∀ b < e.2, getB t.mem (e.1 + b) = 0) ∧ t.ctx cx = some w ∧ ∀ q ∈ w.pkts, q.seq ≠ p.seq

/-! ## Events. Each is a step of the device that its rule describes; a condition under which it does nothing is stated where the rule gives it. -/

/-- R70, R71, R273, R272, R294, R274, R323, R356, R51, R54, R63, R184, R110, R328: the scheduler's events. A refill pays the command that waits for it
(the order of several is log 31's choice), and the stage activations that the pool could not pay for are dispatched, as FRONT_DISPATCH does, as far as
it now can; a block with unbound entries performs its round on the lowest core where it can (log 32's choice). -/
def Obligations.SchedulerEvents : Prop :=
  ∀ (s : State) (p die core row cx q n : Nat) (x : Ctx) (t : Task) (c : Commit) (d : Decision) (a : Act),
    let k := 16 * die + p
    let f := s.fcast k
    (s.hasPart p = true → 10 ^ 6 ≤ (s.part p).carry → ∃ u, exec (.poolRefill p) s = .next ((s.unfunded p).foldl State.frontDispatch u) ∧ u.mem = s.mem ∧
      (u.part p).carry = (s.part p).carry - 10 ^ 6 ∧ let level := min ((s.part p).plevel + 1) (s.part p).pcap
      (s.dues p = [] → u.ctxs = s.ctxs ∧ (u.part p).plevel = level) ∧
      (∀ m, s.dues p = [(cx, q, n, m, false)] → s.ctx cx = some x →
        (level < m → u.ctxs = s.ctxs ∧ (u.part p).plevel = level) ∧
        (m ≤ level → u.ctx cx = some (x.paid q n) ∧ (u.part p).plevel = level - m))) ∧
    (f.run = some d → d.overDue = true → exec (.overrun die p) s = .next (s.decided die p d (s.fallback p d) true true)) ∧
    (∀ (r : Raise) (i : Image), f.run = none → s.nextRaise die p = some r → (s.part p).image = some i →
      let g := { f with dseq := f.dseq + 1, prev := some s.tb, faults := if r.1 = 2 then f.faults.drop 1 else f.faults, run := some (s.begin_ die p r i) }
      let e := { s.begin_ die p r i with image := ⟨[], 0⟩ }
      (i.words ≠ [] → (s.part p).badImage = false → r.1 = 2 ∨ f.defers ≠ 64 → exec (.decision die p) s = .next (s.setFcast k g)) ∧
      ((s.part p).badImage = true ∨ (r.1 < 2 ∧ f.defers = 64) → exec (.decision die p) s =
        .next ((s.setFcast k { g with run := some e }).decided die p e ((s.setFcast k { g with run := some e }).fallback p e) true false))) ∧
    exec (.deferInterval die p) s = .next (s.setFcast k { f with deferred := f.deferred.filter fun e => decide (s.tb < e.2.2.2 + (s.part p).dint) }) ∧
    (s.task (core * 12 + 10) = none → s.task (core * 12 + 11) = none → ∃ u, exec (.lullResume core) s = .next u ∧ u.mem = s.mem ∧ u.ctxs = s.ctxs ∧
      ∀ r, u.task r = (s.task r).map fun t =>
        if r / 12 = core ∧ ((s.ctx t.cx).all fun x => x.dbg.state == 0) = true ∧ s.offCore t.cx core = false ∧ s.awaySlice t.cx = false
        then { t with froPre := false } else t) ∧
    (s.task row = some t → s.stands row t = false → exec (.rowGate row) s = .next s) ∧
    (s.task row = some t → t.commit = none → (t.froDrain = true ∧ (s.translating row = true → s.drainRest t.cx (row / 12) = true)) ∨
        ((t.froPre = true ∨ t.froBrk = true) ∧ t.charged = false ∧ s.translating row = false) →
      (s.row row).gated = false → t.nbytes + 16 * t.staged.length ≤ 27648 →
      (∀ o c y, (s.core (row / 12)).part = some o → c ∈ s.ctxsOf o → s.ctx c = some y → y.setup.padn = 0 ∨ 128 ≤ y.setup.padlo ∨ y.setup.padlo + y.setup.padn ≤ 110) →
      exec (.rowGate row) s = .next (({ s.write (padKey (row / 12) (0x6E0000 + 0x18000 * (row % 12))) (rowImage s t) with
        freeCtr := s.freeCtr + 1 } : State).modRow row fun w => { w with gated := true })) ∧
    (s.ctx cx = some x → (x.acts.find? fun b => b.id == n) = some a → x.halt.halted = false → a.ready = none → a.wok = true →
      s.entryPoison a = none → let w := actImage s.mem x a
      (∀ m ∈ s.checkCores cx w, readyOn s.mem a m ≠ none ∧ s.chanProt cx a m = none) → s.checkPoison a (s.checkCores cx w) = none →
      (∃ m ∈ s.checkCores cx w, readyOn s.mem a m = some true ∧ s.unreleased a m = false) →
      ∃ u, exec (.activationReady cx n) s = .next u ∧ u.mem = s.mem ∧
        u.ctx cx = some { x with acts := x.acts.map fun b => if b.id = n then { b with ready := some s.tb } else b }) ∧
    (∀ m, s.ctx cx = some x → (x.acts.find? fun b => b.id == n) = some a → s.entryPoison a = none →
      (∀ k ∈ s.isobarCores cx x a, s.chanProt cx a k = none) → s.checkPoison a (s.isobarCores cx x a) = none →
      (∀ k ∈ s.isobarCores cx x a, isobarWaits s.mem a k ≠ none) →
      ((s.isobarCores cx x a).find? fun k => isobarWaits s.mem a k == some true) = some m →
      exec (.isobarRound cx n) s = .next ((a.chans.filter fun c => c.out).foldl (fun s c => s.passIsobar c.quad (c.key m))
        ((a.chans.filter fun c => !c.out).foldl (fun s c => s.advance (c.key m) false 1) s))) ∧
    (∀ (e : QEnt) (seg : Nat) (rest : List Nat) (ks ls : List (Nat × Nat)) (s2 : State), s.ctx cx = some x → findT x.queues q = some e → e.tailx = 0 →
      s.faulting cx = false →
      (x.free = [] → exec (.segmentLink cx q) s = .next (s.exhausted cx q)) ∧
      (x.free = seg :: rest → s.headPending cx = true → exec (.segmentLink cx q) s = .next s) ∧
      (x.free = seg :: rest → s.pendR = [] → s.headPending cx = false → s.reachLink cx seg (e.segs.getLast?.map Prod.fst) = .ok (ks, ls) s2 →
        exec (.segmentLink cx q) s = .next (s2.linkSegment cx q e seg rest ks ls))) ∧
    (s.task row = some t → t.commit = some c → c.wait = .room → exec (.queueRoom row) s = .next (s.commitGo row)) ∧
    (s.task row = some t → t.commit = some c → c.step = 4 → c.syncs ≠ [] → c.todo = [] → (∀ i ∈ c.syncs, s.syncDone t.cx row i = true) →
      exec (.tlbiComplete row) s = .next ((s.setTask row (some (t.withCommit { c with syncs := [], step := 5, wait := .none }))).commitGo row))

/-- R243, R246 to R250, R252: walks, limits and replays at a row's port, and a stream window's next granule. -/
def Obligations.PortEvents : Prop :=
  ∀ (s : State) (n die tile slot st l : Nat) (w : Walk) (m : Miss) (t : Task) (e : PEnt), n < 384 →
    ((s.port n).walk = some w →
      let p := s.part (partOf w.cx)
      (w.gen1 ≠ p.gen1 ∨ w.gen2 ≠ p.gen2 → exec (.walk n) s =
        .next (s.setPort n { s.port n with walk := some { w with gen1 := p.gen1, gen2 := p.gen2 } })) ∧
      (w.gen1 = p.gen1 → w.gen2 = p.gen2 → (s.port n).miss = none →
        (s.walk w.cx w.va w.acc = .ok e → exec (.walk n) s = .next (s.setPort n ⟨install (s.port n).entries e, (s.port n).got ++ [e], none, none⟩)) ∧
        (s.walk w.cx w.va w.acc = .pageFault st l → exec (.walk n) s =
          .next (s.setPort n { s.port n with walk := none, miss := some ⟨w.cx, w.va, w.acc, st, l, s.tb, false, .row n⟩ })))) ∧
    ((s.port n).miss = some m → m.who = .row n → s.task n = some t → t.commit = none →
      let p := s.part (partOf m.cx)
      (m.drained = false → m.since + p.drain ≤ s.tb → exec (.drainLimit n) s =
        .next (((s.setPort n { s.port n with miss := some { m with drained := true } }).setTask n (some { t with froDrain := true })).cutAll m.cx
          fun c => c == n / 12)) ∧
      (s.tb < m.since + p.drain → exec (.drainLimit n) s = .next s) ∧
      (m.since + p.fault ≤ s.tb → exec (.faultLimit n) s =
        .next ((s.setPort n { s.port n with miss := none, walk := none }).faultTask t 6 (m.stage * 8 + m.level) m.va)) ∧
      (s.tb < m.since + p.fault → exec (.faultLimit n) s = .next s) ∧
      exec (.replay n) s = .next (s.setPort n { s.port n with walk := some ⟨m.cx, m.va, m.acc, p.gen1, p.gen2⟩ })) ∧
    (∀ (v : Win) (s2 : State), let key := tile * 1024 + slot
      findT (s.die die).wins key = some v → v.kind = 0 → v.write = false → v.head - v.tail < v.len → v.head < v.size →
      (s.die die).heldIn tile < tileSize → (s.port (genPort die tile)).miss = none → isCanon (v.addr v.head) = true →
      s.xlate (genPort die tile) v.cx (v.addr v.head) 1 = (.ok e, s2) →
      let k := entKey e (v.addr v.head)
      exec (.windowFill die tile slot) s = .next ((s2.fetchGranule die v.cx (v.addr v.head) k).modDie die fun d =>
        { d with wins := putT d.wins key { v.use e with head := v.head + 1, held := v.held ++ [k / 256] } }))

/-- R324 to R328, R305, R352: context faults, the halt's record, resuming, machine checks and errors of the scheduler's memories. The first fault of a
context is the one recorded, and it keeps its class through further ones. Not the spec's words but the model's: that a decision which runs as its image
is marked bad goes to the fallback at once, as one without an image (log 25, DEDUCED: R305 gives the fallback and not the moment), the numbers in
`events` (log 7), and how a corrected error comes (log 28). -/
def Obligations.HaltEvents : Prop :=
  ∀ (s : State) (cx die p q : Nat) (x : Ctx) (f : FaultRec), s.ctx cx = some x →
    let faulted (u : State) (cls : Nat) : Prop := ∃ z g, u.ctx cx = some z ∧ z.halt.fault = some g ∧ g.cls = cls
    (x.halt.fault = none → ∃ u z g, exec (.hostHalt cx) s = .next u ∧ u.ctx cx = some z ∧ z.halt.fault = some g ∧ z.halt.stage = 1 ∧ z.dbg.state = 0 ∧
      g.cls = 13 ∧ g.core = 63 ∧ g.row = 15 ∧ g.tb = s.tb ∧ g.pktseq = pktSeq x ∧ g.nlate = 0) ∧
    (x.halt.fault = some f → ∃ u, exec (.hostHalt cx) s = .next u ∧
      u.ctx cx = some { x with halt := { x.halt with fault := some { f with nlate := min (f.nlate + 1) (2 ^ 32 - 1) } } }) ∧
    (x.halt.fault = some f → x.halt.nores = false → x.halt.stage = 4 →
      (∃ u, exec (.contextResume cx) s = .next u ∧ u.ctx cx = some { x with halt := Halt.none }) ∧
      (∃ u, exec (.resumeWithRewind cx) s = .next u ∧ u.ctx cx = some { x with halt := Halt.none, consumed := BitVec.ofNat 64 f.pktseq })) ∧
    (x.halt.fault = none ∨ x.halt.nores = true → x.halt.resume = none → exec (.contextResume cx) s = .next (s.setCtx cx x) ∧
      exec (.resumeWithRewind cx) s = .next (s.setCtx cx x)) ∧
    (x.halt.stage = 3 → s.pendW = [] → exec (.faultRecordWrite cx) s = .next ((s.haltEnd cx).resumeNow cx)) ∧
    (∀ (y : Ctx) (g : FaultRec), x.halt.stage = 2 → x.halt.fault.isSome = true → s.quiet cx = true →
      let s1 := (s.dropCmds cx).modCtx cx fun x => { x with slots := [], halt := { x.halt with stage := 3 } }
      s1.ctx cx = some y → y.halt.fault = some g → y.setup.areaOk = true →
      let s2 := s1.devWrite cx 3 y.setup.area (faultBytes y g)
      exec (.faultRecordWrite cx) s = .next (if s2.faultPending cx then s2 else (s2.haltEnd cx).resumeNow cx)) ∧
    (∃ u, exec (.machineCheck die) s = .next u ∧ (u.die die).stopped = true ∧ u.events = s.events ++ [64 * 3 + die] ∧ u.mem = s.mem ∧
      (s.worksOn cx die = true → x.halt.fault = none → faulted u 14) ∧ (s.worksOn cx die = false → u.ctx cx = some x)) ∧
    exec (.schedulerEccError (.correctable die)) s = .next (s.countDie die 3 1 0) ∧
    exec (.schedulerEccError (.corrected die cx)) s = .next (s.countDie die 3 1 x.setup.vf) ∧
    ((s.part p).image.isSome = true → exec (.schedulerEccError (.runningImage p)) s =
      .next (([0, 1, 2, 3].foldl (fun u d => u.endByFallback p d) (s.modPart p fun x => { x with badImage := true })).partFault p 1)) ∧
    (∀ d, (s.fcast (16 * die + p)).run = some d → s.endByFallback p die =
      s.decided die p { d with image := ⟨[], 0⟩ } (s.fallback p d) true false) ∧
    ((s.part p).image.isSome = true → (∀ i < 4, (s.fcast (16 * i + p)).run = none) → exec (.schedulerEccError (.runningImage p)) s =
      .next (({ s.modPart p fun x => { x with badImage := true } with events := s.events ++ [64 * 5 + p] } : State).record (32 * p) ⟨0, 7, 1, 0, false⟩)) ∧
    exec (.schedulerEccError (.stagedImage p)) s = .next (s.modPart p fun x => { x with badStaged := x.staged.isSome }) ∧
    ((findT x.queues q).isSome = true → x.halt.fault = none → ∃ u, exec (.schedulerEccError (.queueEntry cx q)) s = .next u ∧ faulted u 11) ∧
    ((findT x.queues q).isSome = false → exec (.schedulerEccError (.queueEntry cx q)) s = .next s)

/-- R304, R170, R209, R211, R214, R215, R218, R224, R172, R186, R199, R348: slices, the Front's events, and the ends of commands and collectives. Not
the spec's words but the model's reading or choice: that the Front looks at its record at each dispatch, so that one found otherwise there is the
class 8 fault (log 24, DEDUCED: R218 gives the fault and not the moment), that a slice boundary permits each core one handover of its array (log 16,
DEDUCED), that 2^16 and more names the row of a barrier, and that an instance which loses a member comes to nothing (log 32, DESIGN CHOICE), and that a
`.POD` barrier waits for every package of the route table (log 6: the spec lists no members of a barrier). -/
def Obligations.FrontEvents : Prop :=
  ∀ (s s2 : State) (p row cx k n v till : Nat) (e : Bool) (x : Ctx) (pl : Pipe) (h : Hosted) (ks : List (Nat × Nat)) (c : Cmd) (g : Coll),
    ((s.part p).slice = some (v, till, false) → (s.tb < till → exec (.sliceEnd p) s = .next s) ∧
      (till ≤ s.tb → let s1 := s.modPart p fun x => { x with slice := some (v, till, true) }
        exec (.sliceEnd p) s = .next (((s1.ctxsOf p).filter fun c => s1.vfOf c == v).foldl (fun s c => s.parkAll c fun _ => true) s1))) ∧
    ((s.part p).slice = some (v, till, e) → (s.part p).slen ≠ 0 → (e = false → exec (.sliceStart p) s = .next s) ∧
      (e = true → s.vacated p = true → ∀ w, s.nextVf p (some v) = some w →
        let s1 := s.modPart p fun x => { x with slice := some (w, s.tb + (s.part p).slen, false) }
        exec (.sliceStart p) s = .next (((s1.ctxsOf p).filter fun c => s1.vfOf c == w).foldl (fun s c => s.wake c) (s1.handovers p)))) ∧
    (∀ n ∈ s.coresOf p, n < 32 → ((s.handovers p).core n).handover = true) ∧
    (s.hostOf row = some (cx, pl, h) →
      (h.st = .saving → s.pipeStalled cx pl.q row = false → let n := stSsize (pl.st (pl.stage h.pos))
        (∀ cls a, s.poisoned (pl.slotKey h.slot) n = none → s.leftBad pl h = some (cls, a) → s.faulting cx = false → exec (.scrollSaveComplete row) s =
          .next (s.fault cx cls 0 pl.core (row % 12) a 0 [])) ∧
        (s.poisoned (pl.slotKey h.slot) n = none → s.leftBad pl h = none → s.areaKeys cx pl h 2 = (s2, some ks) → exec (.scrollSaveComplete row) s =
          .next ((((s2.puts ks (getBs s2.mem (pl.slotKey h.slot) n)).saved cx pl h).parkGo cx pl.q).cutGo cx pl.q)) ∧
        (∀ g, s.poisoned (pl.slotKey h.slot) n = some g → s.faulting cx = false → exec (.scrollSaveComplete row) s =
          .next (s.fault cx 12 0 pl.core (row % 12) (g * 256 - padKey pl.core 0) 0 []))) ∧
      (h.st = .restoring → s.pipeStalled cx pl.q row = false → s.areaKeys cx pl h 1 = (s2, some ks) →
        s2.poisonIn (stArea (pl.st (pl.stage h.pos))) ks = none →
        let pl2 := (pl.setHost { h with st := .hosted, parking := false }).retire
        exec (.scrollRestoreComplete row) s =
          .next ((((((s2.write (pl.slotKey h.slot) (s2.gets ks)).capture pl.core).setPipe cx pl2).frontGo cx pl2.q).parkGo cx pl2.q).cutGo cx pl2.q)) ∧
      (∀ g, s.mayStage cx pl h = true → s.faulting cx = false → s.poisoned pl.recKey 56 = some g → exec (.frontDispatch row) s =
        .next (s.fault cx 12 0 pl.core (row % 12) (g * 256 - padKey pl.core 0) 0 [])) ∧
      (s.mayStage cx pl h = true → s.faulting cx = false → s.poisoned pl.recKey 56 = none → s.recordOk pl = false → exec (.frontDispatch row) s =
        .next (s.fault cx 8 0 pl.core (row % 12) 0 0 [])) ∧
      (s.mayStage cx pl h = true → s.faulting cx = false → s.poisoned pl.recKey 56 = none → s.recordOk pl = true → s.ringPoison pl h.pos = none → pl.posReady s.mem h.pos = some true →
        (s.debit (partOf cx) (stPps (pl.st (pl.stage h.pos))) = none → exec (.frontDispatch row) s = .next s) ∧
        (s.debit (partOf cx) (stPps (pl.st (pl.stage h.pos))) = some s2 → exec (.frontDispatch row) s =
          .next ((s2.place row (stageTask s2.mem cx (s2.vfOf cx) pl h)).setPipe cx (pl.setHost { h with busy := true })))) ∧
      (h.inPlace = true → h.busy = false → s.faulting cx = false → isoHead s.mem pl.lf (pl.linkKey h.pos) = true →
        (∀ cls a, s.ringsBad pl (pl.linkKey h.pos :: (pl.isoKey h.pos).toList) = some (cls, a) →
          exec (.frontIsobarRound row) s = .next (s.fault cx cls 0 pl.core (row % 12) a 0 [])) ∧
        (s.ringsBad pl (pl.linkKey h.pos :: (pl.isoKey h.pos).toList) = none → (∀ k, pl.isoKey h.pos = some k → roomReady s.mem pl.lf k 1 = some true) →
        let s1 := s.advance (pl.linkKey h.pos) false 1
        let passed := match pl.nextLink h.pos with
          | some n => s1.ringPut pl.lf (pl.linkKey n) 0 3
          | none => s1
        exec (.frontIsobarRound row) s = .next ((passed.cutGo cx pl.q).frontGo cx pl.q))) ∧
      (∀ n, pl.nextLink h.pos = some n → h.pos < n ∧ pl.stage n ≠ 0 ∧ pl.done.contains n = false ∧
        ∀ m, h.pos < m → m < n → pl.stage m ≠ 0 ∧ pl.done.contains m = true)) ∧
    (s.ctx cx = some x → findCmd x k n = some c → cmdFinished c = true → c.pkt = none → c.pipe = none →
      let y := { x with eqs := putT x.eqs k { getEq x k with cmds := (getEq x k).cmds.filter fun d => d.seq != n } }
      let s1 := s.setCtx cx (unjoin { y with slots := slotDone y c.core c.w0 } k n).latch
      let s2 := match decodeCommand c.w0 c.w1 with
        | some (.mxt _ o) => if o.ach = 1 then s1.setBind (mxtHdr o c.core) false false else s1
        | _ => s1
      exec (.commandComplete cx k n) s = .next (if codeOf k = 1 then s2.frontCore c.core else s2)) ∧
    ((s.colls.find? fun g => g.id == n) = some g →
      (s.unreached g.dests = none → g.broken = false → g.full = true →
        let r := if g.kind = 2 then s.contribution g 0
          else treeRoot (combine g.dt (64 * g.len)) 11 ((List.range g.nmem).map fun i => s.contribution g i)
        let s1 := g.members.foldl (fun s m => if g.kind = 0 ∧ m.midx ≠ 0 then s else s.write m.dst r) s
        exec (.collectiveResult n) s = .next (g.members.foldl State.memberDone (s1.forgetColl g))) ∧
      (s.unreached g.dests = none → g.broken = true → exec (.collectiveResult n) s = .next (if g.members = [] then s else s.endColl g)) ∧
      (s.unreached g.dests ≠ none ∨ (g.broken = false ∧ g.full = false) → exec (.collectiveResult n) s = .next s) ∧
      (s.unreached g.dests = none → exec (.collectiveFaultLimit n) s = .next s) ∧
      (∀ u, s.unreached g.dests = some u →
        let late := g.members.filter fun m => decide (max m.since u + (s.part (partOf m.cx)).fault ≤ s.tb)
        let rest := g.members.filter fun m => !late.contains m
        let s1 := late.foldl State.memberDone (s.collFault late)
        let g1 := { g with members := rest, remote := [], broken := true, dead := g.dead ++ late.map fun m => m.midx }
        (late = [] → exec (.collectiveFaultLimit n) s = .next s) ∧
        (late ≠ [] → exec (.collectiveFaultLimit n) s = .next (s1.keepColl g1)) ∧
        (rest = [] → (∀ i ∈ g1.own, i ∈ g1.dead) → s1.keepColl g1 = s1.forgetColl g1) ∧
        (rest ≠ [] ∨ (∃ i ∈ g1.own, i ∉ g1.dead) → (∃ h ∈ s1.colls, h.id = g.id) →
          s1.keepColl g1 = { s1 with colls := s1.colls.map fun h => if h.id = g.id then g1 else h }))) ∧
    (∀ (t : Task) (m : Commit) (u : Nat), (∀ o ∈ s.colls, o.id ≠ 2 ^ 16 + row) → s.task row = some t → t.commit = some m → m.wait = .pod u →
      (∀ v, s.unreached s.podPackages = some v →
        (max u v + (s.part (partOf t.cx)).fault ≤ s.tb →
          exec (.collectiveFaultLimit (2 ^ 16 + row)) s = .next ((s.fault t.cx 9 0 t.core (row % 12) 0 t.pc.toNat []).commitGo row)) ∧
        (s.tb < max u v + (s.part (partOf t.cx)).fault → exec (.collectiveFaultLimit (2 ^ 16 + row)) s = .next s)) ∧
      (s.unreached s.podPackages = none → exec (.collectiveFaultLimit (2 ^ 16 + row)) s = .next s))

/-- R177 to R180, R276, R283, R310, R317: intake messages, doorbells, a WAIT's limit, receipts and batches. Not the spec's
but the model's: that an expired WAIT gives up its stalled access (log 25, DEDUCED), that the first deliverable message in the order of its places goes,
whatever other contexts have decided, and that the whole source, dictionary and merge table of a message are read (log 32, DESIGN CHOICE). -/
def Obligations.MessageEvents : Prop :=
  ∀ (s s1 s2 s3 : State) (die place cx n vf : Nat) (m : Msg) (ms : List Msg) (src dict tab : List Byte) (x : Ctx) (c : Cur) (r r1 : Receipt),
    ((s.die die).msgs[place]? = some m → m.verdict = none → (s.port (inPort die)).miss = none → s.faulting m.cx = false →
      s.msgRead die m m.srca m.slen = .ok src s1 → s1.msgRead die m m.dict m.dlen = .ok dict s2 → s2.msgRead die m m.merge (8 * m.nmerge) = .ok tab s3 →
      let table := tableOf m.nmerge tab
      ((∀ w ∈ table, w < 2 ^ 40) → exec (.messageDecided die place) s =
        .next (s3.modMsg die m.cx m.seq fun m' => { m' with verdict := some (verdict m src dict table) })) ∧
      (∀ w, table[n]? = some w → 2 ^ 40 ≤ w → (∀ i < n, ∀ v, table[i]? = some v → v < 2 ^ 40) →
        exec (.messageDecided die place) s = .next (s3.fault m.cx 4 0 63 15 (m.merge + 8 * n) 0 []))) ∧
    ((s.die die).msgs = m :: ms → (∀ o ∈ ms, o.cx = m.cx → m.seq ≤ o.seq) →
      (∀ toks h, m.verdict = some (.inl toks) → s.chanPoison false m.ochan = none → chanHdr s.mem false m.ochan = some h → h.free ≠ 0 →
        exec (.messageDelivery die) s = .next (s.deliver die m toks h)) ∧
      (∀ reason stage off l, m.verdict = some (.inr (reason, stage, off)) → s.poisoned m.qring 64 = none → qringLog s.mem m.qring = some l →
        (getN s.mem m.qring 8 + 2 ^ 64 - getN s.mem (m.qring + 8) 8) % 2 ^ 64 < 2 ^ l →
        exec (.messageDelivery die) s = .next (s.quarantined die m l reason stage off)) ∧
      (m.verdict = none → ms = [] → exec (.messageDelivery die) s = .next s)) ∧
    (s.ctx cx = some x → x.setup.vf = vf → exec (.doorbellWrite vf cx n) s = .next (s.setCtx cx { x with doorbell := BitVec.ofNat 64 n })) ∧
    (s.ctx cx = some x → x.setup.vf ≠ vf → exec (.doorbellWrite vf cx n) s = .next (s.setCtx cx x)) ∧
    (s.ctx cx = some x → x.cur = some c → ∀ t, c.until_ = some t →
      (t ≤ s.tb → c.wok = false → s.faulting cx = false → exec (.waitTimeout cx) s =
        .next (({ s with pendR := s.pendR.filter fun m => m.who != Who.ring cx } : State).endPkt cx c 6 0 0)) ∧
      (s.tb < t ∨ c.wok = true → exec (.waitTimeout cx) s = .next s)) ∧
    (s.ctx cx = some x → x.receipt = some r → r.faulted = false → s.workOver cx x r = true → s.pendR = [] →
      (r.step = 5 → s.faulting cx = false → exec (.receiptFinish cx) s = .next (s.chainResult cx r)) ∧
      (r.step = 4 → s.recheck cx r = s1 → ((s1.ctx cx).bind fun x => x.receipt) = some r1 → r1.step = 5 → r1.faulted = false → s1.faulting cx = false →
        exec (.receiptFinish cx) s = .next (s1.chainResult cx r1))) ∧
    (s.batch.closing = [] → s.batch.leaves ≠ [] →
      (4096 ≤ s.batch.leaves.length ∨ s.batch.tbo + 10 ^ 6 ≤ s.tb → exec .batchClose s = .next s.closeBatch) ∧
      (s.batch.leaves.length < 4096 → s.tb < s.batch.tbo + 10 ^ 6 → exec .batchClose s = .next s))

/-- R351 to R357, R340, R345, R330, R331: what the host does: banks and counters, the voltage report, memory, register writes, stops, dumps and
migration. A host claim sets a guest's hold aside, and a release brings it back as it was; what the host's own counters hold then is a free value
(log 3). How `lastRead` holds what was read is log 7's framing, and the layout of the export image log 19's: both are the model's choice. -/
def Obligations.HostEvents : Prop :=
  ∀ (s s1 s2 s3 : State) (vf b k die cx dec a n : Nat) (v : Word) (x y : Ctx),
    let bank := s.bank b
    let pair (d : Die) : Word := BitVec.ofNat 64 (d.mv.toNat + d.sensor.toNat * 2 ^ 12 + d.island.toNat * 2 ^ 24)
    (b < 36 → vf ≤ 64 → (bank.own = 0 → exec (.claim 0 b) s = .next (s.setBank b { bank with own := 1, ovf := 0 }) ∧
      (vf ≠ 0 → exec (.claim vf b) s = .next (s.setBank b { bank with own := 2, ovf := vf }))) ∧
    (bank.own ≠ 0 → vf ≠ 0 → exec (.claim vf b) s = .next s) ∧
    (bank.own = 2 → ∃ u, exec (.claim 0 b) s = .next u ∧ (u.bank b).own = 1 ∧
      ∃ w, exec (.release 0 b) u = .next w ∧ w.bank b = { bank with aside := none }) ∧
    (bank.heldBy vf = true →
      (bank.aside = none → exec (.release vf b) s = .next (s.setBank b { bank with own := 0, ovf := 0 })) ∧
      (let t := s.setBank b { bank with cnt := Vector.replicate 8 0, icnt := Vector.replicate 8 0, iseq := 0 }
       exec (.clearCounters vf b) s =
        .next (if b < 32 then t else t.modDie (b - 32) fun d => { d with localRq := 0, remoteRq := 0 })) ∧
      (∀ i : Fin 8, ∃ u, exec (.counterLowRead vf b i.val) s = .next u ∧ u.lastRead = bytesOfNat 4 bank.cnt[i].toNat ∧
        (u.vf vf).shadow = (bank.cnt[i] >>> 32).setWidth 32)) ∧
    (bank.heldBy vf = false → exec (.release vf b) s = .next s ∧ (bank.own ≠ 0 → exec (.clearCounters vf b) s = .next s))) ∧
    (let d := s.die die
     exec (.voltageReportRead die) s = .next ({ s with lastRead := bytesOfNat 8 (pair d).toNat }.setDie die { d with latched := d.stamp }) ∧
     exec (.voltageReportClear die) s = .next (s.setDie die { d with latched := d.stamp, mv := 0xFFF, sensor := 0, island := 0, stamp := 0 }) ∧
     (n < d.mv.toNat → exec (.voltageMinimum die n a k) s = .next (s.setDie die { d with
       mv := BitVec.ofNat 12 n, sensor := BitVec.ofNat 12 a, island := BitVec.ofNat 8 k, stamp := BitVec.ofNat 64 s.tb }))) ∧
    (s.phase = .complete → dec < 8 → getT s.hdm dec 0 < 5 → a % 8 = 0 → a + n ≤ 2 ^ 40 → n ≤ 8 → 0 < n →
      let key := memKey (getT s.hdm dec 0) a
      (hasStorage (getT s.hdm dec 0) a = true → s.poisoned key n = none →
        exec (.cxlMemRead dec a n) s = .next { s with lastRead := getBs s.mem key n, freeCtr := s.freeCtr + 1 }) ∧
      (hasStorage (getT s.hdm dec 0) a = true → exec (.cxlMemWrite dec a n k) s = .next (s.write key (bytesOfNat n k))) ∧
      (hasStorage (getT s.hdm dec 0) a = false → exec (.cxlMemWrite dec a n k) s = .next s)) ∧
    (s.phase = .complete → dec < 8 → getT s.hdm dec 0 < 5 → a + n ≤ 2 ^ 40 → let p := getT s.hdm dec 0
      exec (.cxlMemWrite dec a n k) s = .next (s.cxlPut p (bytesOfNat n k) (unitsOf a n)) ∧
      exec (.cxlMemRead dec a n) s = .next { s with lastRead := (unitsOf a n).flatMap fun u => s.cxlRead p u, freeCtr := s.freeCtr + 1 } ∧
      ((unitsOf a n).map Prod.snd).sum = n ∧ ∀ u ∈ unitsOf a n, u.2 ≤ 8 ∧ u.1 / 8 = (u.1 + u.2 - 1) / 8) ∧
    (2 ^ 40 < a + n → exec (.cxlMemRead dec a n) s = .next s ∧ exec (.cxlMemWrite dec a n k) s = .next s) ∧
    (s.phase = .complete → s.ctx cx = some x → cx < 512 → vf ≤ 64 →
      (x.setup.vf = vf → exec (.registerWrite vf (0x10000 + 8 * cx) v) s = .next (s.setCtx cx { x with doorbell := v })) ∧
      (x.setup.vf ≠ vf → exec (.registerWrite vf (0x10000 + 8 * cx) v) s = .next (s.setCtx cx x)) ∧
      (dec < 8 → exec (.registerWrite 0 (0xB2000 + 8 * dec) v) s = .next { s with hdm := putT s.hdm dec (v.toNat % 8) })) ∧
    (s.ctx cx = some x →
      (x.dbg.state = 0 → x.pipes = [] → let y := { x with dbg := { x.dbg with state := 1, dumping := false } }
        ∃ u, exec (.debugStop cx) s = .next u ∧ u.mem = s.mem ∧
          ((s.setCtx cx y).stopDone cx y = true → u.ctx cx = some { y with dbg := { y.dbg with state := 2 } }) ∧
          ((s.setCtx cx y).stopDone cx y = false → u.ctx cx = some y)) ∧
      exec (.debugRelease cx) s = .next ({ s with pendR := s.pendR.filter fun (m : Miss) => !m.who.isRecord cx 6 }.debugFree cx) ∧
      (s.pendR = [] → s.stopGo cx true = s1 → s1.ctx cx = some y → y.dbg.state = 3 → exec (.liveDump cx) s = .next (s1.dumpNow cx))) ∧
    (s.ctx cx = some x → x.setup.areaOk = true →
      (x.mig = 1 → s.drainFrozen cx = false → s.still cx x = true → exec (.exportCtx cx) s = .next (s.exportNow cx)) ∧
      (s.pendR = [] → let area := x.setup.area + 0xC21000
        let die := s.firstDie (partOf cx)
        ∀ w, (s.setMig cx 1).devReadAt die cx area 4352 = .ok w s2 →
        let cores := (List.range 32).filter fun n => bits w (448 + n) 1 == 1
        let arrays := 0x61000 * cores.length
        let waits := arrays + 320 * bits w 512 64
        let len := waits + 96 * bits w 1536 64 + 2688 * bits w 1600 1
        ∀ v, s2.devReadAt die cx (area + 4352) len = .ok v s3 → let bs := bytesOfNat len v
        let t := (s3.importHead cx (w % 2 ^ 1024) (bits w 1024 512) (w / 2 ^ 2048)).importArrays cx x bs cores
        exec (.importCtx cx) s = .next ((((t.importWaits cx (bs.drop arrays) (area + 4352 + arrays) (bits w 512 64)).importOpen cx (bits w 1536 64)
          (bits w 1600 1) (bs.drop waits)).setMig cx 2).takeEarly cx))) ∧
    (s.ctx cx = some x → exec (.releaseStubs cx) s = .next (s.setCtx cx { x with stubs := [] }))

/-- R332, R333, R338, R341 to R343: power-on and start-up requests, die resets, the power window, management answers, and configuration requests. A
start-up whose firmware or PUF check fails serves only management, and the first firmware image that fails is reported; what a completed one finds is
free (log 4), what an island draws too, and which island is given a level an input (log 5). How `mailbox` frames an answer, and the numbers in
`events`, are log 7's, the model's choice. -/
def Obligations.DeviceEvents : Prop :=
  ∀ (s : State) (die watts island level index off len : Nat) (nonce : BitVec 256),
    let answers (i : Instr) (bs : List Byte) : Prop := exec i s = .next { s with mailbox := bs }
    (s.phase = .off → s.fwBad = [] → s.pufOk = true → ∃ u, exec .powerOn s = .next u ∧ u.phase = .complete ∧ u.mem = [] ∧ u.startups = s.startups + 1 ∧
      ∀ n < 32, ((u.core n).oos = true → (u.core n).part = none) ∧ ((u.core n).oos = false → (u.core n).part = some 0)) ∧
    (s.phase = .off → (∀ f < 8, f ∈ s.fwBad → (∀ g < f, g ∉ s.fwBad) →
        ∃ u, exec .powerOn s = .next u ∧ u.phase = .stopped 2 ∧ u.ctxs = [] ∧ u.parts = [] ∧ u.portsUp = [] ∧ u.tb = 0 ∧ u.events = [64 * 8 + f]) ∧
      (s.fwBad = [] → s.pufOk = false → ∃ u, exec .powerOn s = .next u ∧ u.phase = .stopped 3 ∧ u.ctxs = [] ∧ u.parts = [] ∧ u.tb = 0)) ∧
    (s.phase ≠ .off → exec .powerOn s = .next s) ∧
    (∀ m, s.phase = .stopped m → exec .startUpRequest s = .next s.startUp) ∧ (s.phase = .complete → exec .startUpRequest s = .next s) ∧
    ((s.die die).stopped = false → exec (.dieReset die) s = .next s) ∧
    ((s.die die).stopped = true → ∃ u, exec (.dieReset die) s = .next u ∧ u.tb = s.tb ∧ (u.die die).wins = [] ∧ (u.die die).msgs = [] ∧
      ∀ c ∈ u.mem, onStack die c.1 = false ∧ onDeck die c.1 = false) ∧
    (s.tb < (s.window + 1) * 10 ^ 5 → exec (.powerWindow watts island) s = .next s) ∧
    ((s.window + 1) * 10 ^ 5 ≤ s.tb → let w := s.window
     let ws := watts :: s.powers.take 9
     let sum := ws.sum
     let cap := s.powerCap * 1000 * ws.length
     ∃ u, exec (.powerWindow watts island) s = .next u ∧ u.window = w + 1 ∧ u.powers = ws.take 9 ∧ u.powerCap = s.powerCap ∧
      (cap < sum → ∀ i < 256, 0 < (s.island i).lvlmax →
        (∀ j < 256, 0 < (s.island j).lvlmax → Config.islandPower w j < Config.islandPower w i ∨
          (Config.islandPower w j = Config.islandPower w i ∧ i ≤ j)) →
        (u.island i).lvlmax = (s.island i).lvlmax - 1 ∧ ∀ j, j ≠ i → u.island j = s.island j) ∧
      (sum * 100 < cap * 95 → (∃ i < 256, (s.island i).lvlmax < (s.island i).lvlcap) →
        ∃ i < 256, (s.island i).lvlmax < (s.island i).lvlcap ∧ (u.island i).lvlmax = (s.island i).lvlmax + 1 ∧ ∀ j, j ≠ i → u.island j = s.island j) ∧
      (sum ≤ cap → cap * 95 ≤ sum * 100 → u.islands = s.islands)) ∧
    (let i := s.island island
     (level < 4 → ∃ u, exec (.lvlcapSet island level) s = .next u ∧ (u.island island).lvlcap = level ∧ (u.island island).lvlmax = min i.lvlmax level)) ∧
    (600 ≤ watts ∧ watts ≤ 1750 → exec (.powerCapSet watts) s = .next { s with powerCap := watts }) ∧
    (watts < 600 ∨ 1750 < watts → exec (.powerCapSet watts) s = .next s) ∧
    (∃ u, exec (.sensorRead (.minimumVoltage die)) s = .next u ∧ u.mailbox = 0 :: bytesOfNat 8 (s.die die).mv.toNat) ∧
    exec .getVersion s = .next { s with spdm := 1, mailbox := [0, 0x13] } ∧
    (s.spdm ≠ 0 → exec .getCapabilities s = .next { s with spdm := 2, mailbox := 0 :: outside 1 20 }) ∧
    (2 ≤ s.spdm → exec (.negotiateAlgorithms true true) s = .next { s with spdm := 3, mailbox := [0, 1, 0] }) ∧
    (s.phase = .complete → 3 ≤ s.spdm → answers .getDigests (0 :: digestBytes (sha256 chainBytes)) ∧
      answers (.getCertificate 0 off len) (0 :: (chainBytes.drop off).take len) ∧
      answers (.challenge 0 nonce) (0 :: signIdentity s.startups (outside 3 64 ++ digestBytes nonce))) ∧
    (s.phase = .stopped 2 → answers .getDigests [1] ∧ answers (.getCertificate 0 off len) [1] ∧ answers (.challenge 0 nonce) [1]) ∧
    (s.phase = .complete → 1 ≤ index → index ≤ 10 → answers (.getMeasurements index) (0 :: digestBytes (measurement s index))) ∧
    (s.phase = .stopped 3 → answers (.getMeasurements 9) [1] ∧ answers (.getMeasurements 10) [1]) ∧
    (s.phase = .complete → answers (.configurationRequest off) (0 :: (List.range 4).map fun i => Config.outsideReply 4 (off + i))) ∧
    (s.phase ≠ .complete → answers (.configurationRequest off) [1])

/-- R337, R346 to R348, R341: while one feed holds, the loss of the other is reported and changes nothing else; with both gone, and at a loss of
power, every state of the device is lost until power returns. Flits are delivered once and in order, the eighth failed attempt takes the port down,
and a time flit never sets time back. What is to be sent to one package waits while no route to it works or no credit is left, and else takes the next
number of its virtual channel. The numbers in `events` are log 7's, and how a link's two ends are split between the model and its surroundings, and
how many credits a channel has, log 6's: both are the model's choice. -/
def Obligations.FeedsAndLinks : Prop :=
  ∀ (s : State) (i port dest vc : Nat) (pay : PodPayload) (w : Word) (fl : Flit) (tab : List (Nat × List Nat)),
    (i < 2 → s.feeds = 3 → ∃ u, exec (.feedLoss i) s = .next { s with feeds := 3 - 2 ^ i, events := s.events ++ [64 + i] } ∧
      exec (.feedReturn i) { s with feeds := 3 - 2 ^ i } = .next u ∧ u.feeds = 3) ∧
    (i < 2 → s.feeds = 2 ^ i → ∃ u, exec (.feedLoss i) s = .next u ∧ exec .powerLoss s = .next u ∧ u.phase = .off ∧ u.mem = [] ∧ u.ctxs = [] ∧
      u.parts = [] ∧ u.rows = [] ∧ u.ports = [] ∧ (∀ j, j ≠ .powerOn → u.turn = .event j → u.move = .fault .noPower)) ∧
    (let k := 16 * fl.port + fl.vc
     let l := getT s.links k Link.start
     (s.portsUp.contains fl.port = true → fl.vc < 16 → podFits fl.payload = true → fl.crcGood = true → fl.seq = l.expect →
       exec (.flitReceive fl) s = .next ({ s with links := putT s.links k { l with expect := l.expect + 1, tries := 0 } }.takeFlit fl.vc fl.payload)) ∧
     (s.portsUp.contains fl.port = true → fl.crcGood = true → fl.seq ≠ l.expect → exec (.flitReceive fl) s = .next s) ∧
     (s.portsUp.contains fl.port = true → fl.vc < 16 → podFits fl.payload = true → fl.crcGood = false →
       (l.tries < 7 → exec (.flitReceive fl) s = .next { s with links := putT s.links k { l with tries := l.tries + 1 } }) ∧
       (7 ≤ l.tries → ∃ u, exec (.flitReceive fl) s = .next u ∧ u.portsUp = s.portsUp.filter (fun p => p != fl.port) ∧ u.routes = s.routes ∧
         ∀ d p, u.route d = some p → p ≠ fl.port)) ∧
     (s.portsUp.contains fl.port = false ∨ podFits fl.payload = false → exec (.flitReceive fl) s = .next s)) ∧
    (let l := getT s.links (16 * port + vc) Link.start
     (s.credits port vc = true ↔ l.out.length ≤ Config.linkCredits) ∧
     (s.podTx = [(dest, vc, pay)] → (s.route dest = none ∨ (s.route dest = some port ∧ s.credits port vc = false) → s.podGo = s) ∧
       (s.route dest = some port → s.credits port vc = true → s.podGo = { s with
         podTx := [], links := putT s.links (16 * port + vc) { l with next := l.next + 1, out := l.out ++ [(l.next, some dest, pay)] } }))) ∧
    (∃ u, exec (.timeFlit w) s = .next u ∧ u = { s with tb := max s.tb w.toNat, lead := s.tb - w.toNat }) ∧
    (∃ u, exec (.portDown port) s = .next u ∧ u.portsUp = s.portsUp.filter (fun p => p != port) ∧ u.routes = s.routes ∧
      ∀ d p, u.route d = some p → p ≠ port) ∧
    (port < 16 → (getT s.routes dest []).contains port = true → s.portsUp.contains port = false →
      ∃ u, exec (.routeReturn dest port) s = .next u ∧ u.portsUp = s.portsUp ++ [port] ∧ u.routes = s.routes ∧ (s.podTx = [] → u.links = s.links)) ∧
    (∃ u, exec (.routeTableLoad tab) s = .next u ∧ u.portsUp = s.portsUp ∧
      u.routes = (tab.filter fun e => decide (e.1 < 64)).map (fun e => (e.1, (e.2.filter fun p => decide (p < 16)).take 2)) ∧
      (s.podTx = [] → u.links = s.links))

/-! ## Reset, memory, steps and encodings -/

/-- R332, R298, R339, R340, R345, R351, R355, R7: what reset leaves: every byte of memory and of the on-chip storage zero, in canonical form;
partition 0 with every core and its pool empty, context 0 privileged; and the registers at the reset values the spec gives. Not the spec's but the
model's choice: no core is out of service (log 5), the requests counted by a die and the overruns counted by a Forecast unit start at 0 (log 8), and
context 0 has the chain value it would get when created (log 9, DEDUCED). -/
def Obligations.ResetState : Prop :=
  let s := State.reset
  s.phase = .complete ∧ Memory.wf s.mem = true ∧ (∀ k, getB s.mem k = 0) ∧
  (∀ n, (s.core n).part = some 0 ∧ (s.core n).oos = false) ∧ (∀ p, s.hasPart p = true ↔ p = 0) ∧
  (s.part 0).plevel = 0 ∧ (s.part 0).pcap = 2 ^ 32 - 1 ∧ (s.part 0).prate = 0 ∧ (s.part 0).image = none ∧
  (s.part 0).drain = 20000 ∧ (s.part 0).fault = 10 ^ 7 ∧ (s.part 0).dint = 100000 ∧ (s.part 0).slen = 0 ∧
  (∀ c x, s.ctx c = some x → c = 0 ∧ x.setup.priv = true ∧ x.setup.vf = 0 ∧ x.setup.nest = false ∧ x.setup.padlo = 0 ∧ x.setup.padn = 128 ∧
    x.setup.dielo = 0 ∧ x.setup.dien = 64 ∧ x.setup.rootOk = false ∧ x.setup.areaOk = false ∧ x.setup.slog = 0 ∧ x.chain = chainStart 0 0 ∧
    x.dbg = Dbg.zero ∧ x.halt = Halt.none) ∧ (s.ctx 0).isSome = true ∧
  (∀ r, s.task r = none ∧ (s.row r).cls = 3) ∧ (∀ i, (s.island i).lvlmax = 3 ∧ (s.island i).lvlcap = 3) ∧
  (∀ d, (s.die d).mv = 0xFFF ∧ (s.die d).sensor = 0 ∧ (s.die d).island = 0 ∧ (s.die d).stamp = 0 ∧ (s.die d).localRq = 0 ∧ (s.die d).remoteRq = 0) ∧
  (∀ b, (s.bank b).own = 0 ∧ (s.bank b).sel = Vector.replicate 8 0 ∧ (s.bank b).cnt = Vector.replicate 8 0 ∧ (s.bank b).icnt = Vector.replicate 8 0 ∧
    (s.bank b).iseq = 0) ∧ (∀ n, getT s.hdm n 0 = 0) ∧ (∀ k, (s.fcast k).scratch = Vector.replicate 16 0 ∧ (s.fcast k).overruns = 0)

/-- R257, R232, R332: every step keeps memory canonical: locations rise strictly, and no byte is listed that is zero. So equal memories are equal
data, and what a location reads is what was last written to it. -/
def Obligations.StepKeepsMemoryCanonical : Prop :=
  ∀ s t : State, Memory.wf s.mem = true → step s = .next t → Memory.wf t.mem = true

/-- R29, R276, R172, R183, R269, R5: a step performs the instruction that the agent whose turn it is has fetched and decoded, and adds around it only
what is stated here: the row's beats, the port it fetched through, the word it keeps, an engine's beats. An instruction that waited at its step 4, charged,
is not fetched again (log 18, DEDUCED), and a miss of its own stalls an engine (R183). An event happens once; ticks pass before a turn, and the timebase
advances by as many, or by half as many while it is more than 16 ahead of the pod's master (R341). Not the spec's but the model's choice: that `turn` and
`agenda` say who moves (log 1), and which of two ticks passes at half rate, which `tbHalf` remembers (log 2). -/
def Obligations.StepRunsDecoded : Prop :=
  ∀ (s u : State) (r cx k die p : Nat) (t : Task) (e : PEnt) (i : Instr) (c : Cmd) (d : Decision) (w : BitVec 16) (a : Slice) (rest : List Slice),
    s.refill = none → s.phase ≠ .off →
    (s.agenda = [] →
      (s.turn = .row r → s.task r = some t → s.held r t = false → t.commit = none → (s.row r).gated = false →
        t.charged = false → isCanon t.pc.toNat = true → s.unmeasured t = false → s.lookup t.row t.cx t.pc.toNat 0 = some (.ok e) →
        let key := entKey e t.pc.toNat
        let s1 := (s.usePort t.row e).setTask t.row (some { t with ir := getN s.mem key 4 })
        s.poisoned key 4 = none →
        (decodeTask (getN s.mem key 4) = some i → step s = match exec i s1 with
          | .next v => .next ((v.endAccess r).beat r (some t))
          | o => o) ∧
        (decodeTask (getN s.mem key 4) = none → step s = .next (((s1.stopTask t .illegal).endAccess r).beat r (some t)))) ∧
      (s.turn = .row r → s.task r = some t → s.held r t = false → t.commit = none → (s.row r).gated = false → t.charged = true →
        decodeTask t.ir = some i →
        step s = match exec i s with
          | .next v => .next ((v.endAccess r).beat r (some t))
          | o => o) ∧
      (s.turn = .engine cx k → ((s.ctx cx).bind fun x => headCmd x k) = some c →
        (s.engineStalled cx k c = false → decodeCommand c.w0 c.w1 = some i → exec i s = .next u → step s = .next (u.engineBeat cx k (some c))) ∧
        (s.engineStalled cx k c = true → step s = .next (s.engineBeat cx k (some c)))) ∧
      (s.turn = .ring cx → s.ringTurn cx = (u, some i) → step s = exec i u) ∧
      (s.turn = .forecast die p → (s.fcast (16 * die + p)).run = some d → d.overDue = false → d.image.words[d.pc]? = some w →
        decodeForecast w.toNat = some i → step s = exec i s) ∧
      (s.turn = .forecast die p → (s.fcast (16 * die + p)).run = some d → d.overDue = true → step s = .next (s.overrun die p d)) ∧
      (s.turn = .event i → i ≠ .powerOn → step s = exec i { s with turn := .idle }) ∧ (s.turn = .idle → step s = .next s)) ∧
    (s.agenda = a :: rest →
      (a.dt = 0 → step s = { s with agenda := rest, turn := a.who }.move) ∧
      (a.dt ≠ 0 → let n := s.advanceOf a.dt
        (∃ v : State, step s = .next { v with agenda := { a with dt := 0 } :: rest } ∧ v.tb = s.tb + n ∧ v.lead = s.lead - (a.dt - n) ∧ v.mem = s.mem ∧
          v.ctxs = s.ctxs ∧ v.rows = s.rows ∧ v.parts = s.parts.map fun e => (e.1, { e.2 with carry := e.2.carry + e.2.prate * n })) ∧
        (s.lead ≤ 16 → s.tbHalf = false → n = a.dt) ∧ (16 + a.dt ≤ s.lead → s.tbHalf = false → n = a.dt / 2)))

/-- R24 to R28, and the encoding tables of the task instructions: the decoder gives back every well-formed task instruction from the word that the
encoder writes for it, with every operand. -/
def Obligations.TaskRoundTrip : Prop :=
  ∀ (d a b c : BitVec 5) (k t m p : BitVec 3) (i : BitVec 16) (o : BitVec 10) (q : BitVec 1)
    (u : BitVec 2) (h : BitVec 4) (n : BitVec 6) (f : BitVec 9) (g : BitVec 12) (l : BitVec 26) (j : BitVec 22),
    ∀ x ∈ [Instr.add d a b, .sub d a b, .mul d a b, .mulh d a b, .mulhn d a b, .div d a b, .divn d a b, .rem d a b, .remn d a b, .and d a b, .or d a b,
      .xor d a b, .andn d a b, .shl d a b, .shr d a b, .sar d a b, .min d a b, .max d a b, .minn d a b, .maxn d a b, .slt d a b, .sltn d a b,
      .seq d a b, .clz d a, .popc d a, .bext d a b, .bdep d a b, .sext d a k, .zext d a k, .addi d a i, .andi d a i, .ori d a i, .xori d a i,
      .shli d a n, .shri d a n, .sari d a n, .lui d i, .slti d a i, .fadd d a b k t, .fsub d a b k t, .fmul d a b k t, .fdiv d a b k t,
      .fsqrt d a k t, .frsq d a k t, .fmin d a b k, .fmax d a b k, .fcvt d a b k t, .fcmpEq d a b k, .fcmpLt d a b k, .fcmpLe d a b k,
      .fcmpUn d a b k, .fclass d a k, .fma d a b k t, .mfs d a, .mts d a, .ld d a k t o, .st d a k t o, .vld d a k o, .vgld d a k o, .vst d a k o,
      .vlds d a o, .vldsIx d a o, .vsts d a o, .lutx d a b k, .lutld d, .beq d a i, .bne d a i, .blt d a i, .bge d a i, .bltn d a i, .bgen d a i,
      .bdnz d i, .jal l, .jalr d a i, .charge d a g, .mcs d g, .crd d a h f, .crdt d a h f, .cwr d a h f, .cwrt d a h f, .advR d h f, .advW d h f,
      .emit d k, .exit k d, .xwait d a b q, .xbar k d h, .xamo d a b h q, .xstop, .sadd k d a t, .smin k d a t, .smax k d a t, .sor k d a t,
      .sand k d a t, .sfadd k d a, .fenceAcq k, .tlbiPage d q, .tlbiCtx q, .tlbiPart q, .ptsync, .trap j, .brk, .vadd d a b k t, .vsub d a b k t,
      .vmul d a b k t, .vmulh d a b k t, .vadds d a b k t, .vsubs d a b k t, .vmin d a b k t, .vmax d a b k t, .vand d a b k t, .vor d a b k t,
      .vxor d a b k t, .vandn d a b k t, .vshl d a b k t, .vshr d a b k t, .vsar d a b k t, .vabsd d a b k t, .vclz d a k t, .vpopc d a k t,
      .vpack d a b k t, .vunpack d a b k t, .vfadd d a b k t, .vfsub d a b k t, .vfmul d a b k t, .vfmin d a b k t, .vfmax d a b k t,
      .vfms d a b k t, .vfnma d a b k t, .vscale d a b k t, .vfma d a b c k t, .vcvt d a k q t u m p, .vcvtSr d a k q t u m, .vrsum d a k t,
      .vrmin d a k t, .vrmax d a k t, .vrfsum d a k t, .vscan d a k t, .vperm d a b k, .vshuf d a b k, .vrot d a b k, .vnbr d a b k,
      .vcmpEq d a b k t, .vcmpNe d a b k t, .vcmpLt d a b k t, .vcmpLe d a b k t, .vfcmpEq d a b k t, .vfcmpLt d a b k t, .vfcmpLe d a b k t,
      .vfcmpUn d a b k t, .vbcst d a k t, .vins d a b k, .vext d a b k, .vmov d a k, .vli d i, .vlih d i, .vlui d i, .vorli d i, .vaddi d i,
      .vsel d a b k, .kand d a b, .kor d a b, .knot d a, .kmov d a, .kmovFromScalar d a, .kmovToScalar d a, .vrcp d a k t, .vrsq d a k t,
      .vexp2 d a k t, .vlog2 d a k t, .vtanh d a k t], x.wf = true → encode x < 2 ^ 32 ∧ decodeTask (encode x) = some x

/-- R269, R270, R289, R181 to R183, R277, R278: Forecast operations, stream commands and ring packets are decoded from what the encoder writes. -/
def Obligations.AgentRoundTrips : Prop :=
  (∀ (d : BitVec 5) (k t m : BitVec 3) (q : BitVec 1) (h : BitVec 4) (e : BitVec 8),
    ∀ x ∈ [Instr.fcLdi k e, .fcLdq k e, .fcLdp k e, .fcLde k e, .fcLds k h, .fcSto k h, .fcAdd k t, .fcSub k t, .fcShl k d, .fcShr k d, .fcAnd k t,
      .fcOr k t, .fcMin k t, .fcMax k t, .fcSel k t m, .fcJmp e, .fcJz k e, .fcJnz k e, .fcJlt k e, .fcNextq k q, .fcPickmin k e, .fcPickmax k e,
      .fcDisp, .fcPreempt k, .fcFaultact k, .fcDefer, .fcEnd], x.wf = true → encode x < 2 ^ 16 ∧ decodeForecast (encode x) = some x) ∧
  (∀ (h : CmdHdr) (o1 : CopyOps) (o2 : Copy2dOps) (o3 : CopycOps) (o4 : GatherOps) (o5 : DeckOps) (o6 : BloadOps) (o7 : MxtOps) (o8 : MxdrainOps)
    (o9 : CollOps) (o10 : WindowOps) (o11 : NoteOps) (o12 : QfenceOps) (o13 : IntakeOps),
    ∀ x ∈ [Instr.copy h o1, .copy2d h o2, .copyc h o3, .gather h o4, .scatter h o4, .deck h o5, .bload h o6, .mxt h o7, .mxdrain h o8, .coll h o9,
      .window h o10, .note h o11, .qfence h o12, .intake h o13], x.wf = true → decodeCommand (encodeCommand x).1 (encodeCommand x).2 = some x) ∧
  (∀ (o1 : LaunchOps) (o2 : PipeOps) (o3 : CmdOps) (o4 : SignalOps) (o5 : WaitOps) (o6 : ReceiptOps) (o7 : PolicyLoadOps) (o16 : PartCoresOps)
    (o17 : PartPoolOps) (o18 : PartCacheOps) (o19 : PartQueueOps) (o20 : PartLimitsOps) (o21 : PartVfOps) (o22 : PartDropOps) (o23 : PartCtxOps),
    ∀ x ∈ [(1, Instr.launch o1), (2, .pipe o2), (3, .cmd o3), (4, .signal o4), (5, .wait o5), (6, .receipt o6), (7, .policyLoad o7), (8, .policySwap),
      (16, .partCores o16), (17, .partPool o17), (18, .partCache o18), (19, .partQueue o19), (20, .partLimits o20), (21, .partVf o21),
      (22, .partDrop o22), (23, .partCtx o23)], x.2.wf = true → decodePacket x.1 (encodePacket x.2) = some x.2)

/-- R25, R27, R28, and example words of the spec's chapters: words decode to the instruction they stand for, and a word whose major opcode is
illegal or reserved to none. -/
def Obligations.WordsDecode : Prop :=
  (∀ e ∈ [(0x04642800, Instr.add 3 4 5), (0x04C74030, .divn 6 7 8), (0x052A58C8, .bext 9 10 11), (0x044200DA, .sext 2 2 2), (0x18C60010, .shli 6 6 16),
    (0x184300BF, .sari 2 3 63), (0x1C80FFFE, .lui 4 0xFFFE), (0x2064FFFB, .slti 3 4 0xFFFB), (0x2CA00006, .mfs 5 6), (0x2C078004, .mts 7 4),
    (0x7464FFFE, .bgen 3 4 0xFFFE), (0x64400005, .bne 2 0 5), (0x87E60008, .jalr 31 6 8), (0xD8221810, .vcmpLt 1 2 3 0 0),
    (0xD844255A, .vfcmpUn 2 4 4 5 2), (0x58221800, .lutx 1 2 3 0), (0x58040008, .lutld 4)], decodeTask e.1 = some e.2) ∧
  (∀ e ∈ [(0x0BC8, Instr.fcLdi 3 200), (0x1A00, .fcLdp 2 0), (0x7A3D, .fcSel 2 7 5), (0xAC04, .fcPickmin 4 4), (0x4908, .fcShl 1 8), (0xD000, .fcDefer)],
    decodeForecast e.1 = some e.2) ∧
  (∀ w, w < 2 ^ 32 → w / 2 ^ 26 ∈ [0x00, 0x0C, 0x0D, 0x0E, 0x0F, 0x17, 0x1F, 0x2A, 0x2B, 0x2C, 0x2D, 0x2E, 0x2F, 0x3B, 0x3C, 0x3D, 0x3E, 0x3F] →
    decodeTask w = none)

/-- R36, R37, R39, R83, R256: what instructions leave unchanged. An instruction of a task that writes a scalar register changes that register, the
pc, the flags it raises and the meter, and nothing else of its task; nothing but the task on its row changes in the machine; memory reads as
before at every location. One that stages changes the staging, and no byte of memory. A Forecast operation changes its decision alone. -/
def Obligations.Frames : Prop :=
  (∀ (s s1 u : State) (r : Nat) (t t1 : Task) (d a b : BitVec 5) (i : BitVec 16) (n : BitVec 6) (m w : BitVec 3),
    let scalar : List (Instr × Nat) := [(.add d a b, 4), (.sub d a b, 4), (.and d a b, 4), (.or d a b, 4), (.xor d a b, 4), (.andn d a b, 4),
      (.shl d a b, 4), (.shr d a b, 4), (.sar d a b, 4), (.min d a b, 4), (.max d a b, 4), (.minn d a b, 4), (.maxn d a b, 4), (.slt d a b, 4),
      (.sltn d a b, 4), (.seq d a b, 4), (.clz d a, 4), (.popc d a, 4), (.bext d a b, 4), (.bdep d a b, 4), (.sext d a m, 4), (.zext d a m, 4),
      (.mul d a b, 8), (.mulh d a b, 8), (.mulhn d a b, 8), (.div d a b, 24), (.divn d a b, 24), (.rem d a b, 24), (.remn d a b, 24),
      (.addi d a i, 4), (.andi d a i, 4), (.ori d a i, 4), (.xori d a i, 4), (.shli d a n, 4), (.shri d a n, 4), (.sari d a n, 4), (.lui d i, 4),
      (.slti d a i, 4), (.mfs d a, 4), (.fadd d a b m w, 8), (.fsub d a b m w, 8), (.fmul d a b m w, 8), (.fdiv d a b m w, 24), (.fsqrt d a m w, 24),
      (.frsq d a m w, 24), (.fmin d a b w, 8), (.fmax d a b w, 8), (.fcvt d a b m w, 8), (.fcmpEq d a b w, 8), (.fcmpLt d a b w, 8),
      (.fcmpLe d a b w, 8), (.fcmpUn d a b w, 8), (.fclass d a w, 8), (.fma d a b m w, 10), (.kmovToScalar d a, 4)]
    ∀ e ∈ scalar, Paying s r t e.2 s1 t1 → exec e.1 s = .next u → ∃ t2, u.task t.row = some t2 ∧ t2.pc = t.pc + 4 ∧ (t.charged = false → t2.meter = t.meter + e.2) ∧
      (∀ x, x ≠ d → t2.S x = t.S x) ∧ t2.v = t.v ∧ t2.k = t.k ∧ t2.cfg = t.cfg ∧ t2.fmt = t.fmt ∧ t2.seed = t.seed ∧ t2.srctr = t.srctr ∧
      t2.budget = t.budget ∧ t2.staged = t.staged ∧ t2.handles = t.handles ∧ t2.commit = t.commit ∧ t.flags &&& t2.flags = t.flags ∧
      u = s1.setTask t.row (some t2) ∧ ∀ x, getB u.mem x = getB s.mem x) ∧
  (∀ (s s1 s2 u : State) (r : Nat) (t t1 : Task) (x b : BitVec 5) (sp w : BitVec 3) (o : BitVec 10) (k : Nat) (es : List PEnt), Paying s r t 12 s1 t1 →
    Located s1 t1 sp.toNat (t1.S b + o.signExtend 64 * BitVec.ofNat 64 (2 ^ w.toNat)) (2 ^ w.toNat) 2 s2 k es → t1.nbytes + 2 ^ w.toNat ≤ 16384 →
    exec (.st x b sp w o) s = .next u → (∀ y, getB u.mem y = getB s.mem y) ∧ u.ctxs = s1.ctxs ∧
      ∃ t2, u.task t.row = some t2 ∧ t2.s = t.s ∧ t2.v = t.v ∧ t2.k = t.k ∧ t2.flags = t.flags ∧ t2.cfg = t.cfg ∧ t2.handles = t.handles) ∧
  (∀ (s u : State) (die p : Nat) (d : Decision) (x y z : BitVec 3) (n : BitVec 8) (h : BitVec 5) (w : BitVec 4) (q : BitVec 1), Deciding s die p d →
    ∀ i ∈ [Instr.fcLdi x n, .fcLdq x n, .fcLdp x n, .fcLde x n, .fcLds x w, .fcSto x w, .fcAdd x y, .fcSub x y, .fcShl x h, .fcShr x h, .fcAnd x y,
      .fcOr x y, .fcMin x y, .fcMax x y, .fcSel x z y, .fcJmp n, .fcJz x n, .fcJnz x n, .fcJlt x n, .fcNextq x q, .fcPickmin x n, .fcPickmax x n,
      .fcDisp, .fcPreempt x, .fcFaultact x, .fcDefer], exec i s = .next u →
    ∃ e, u = s.setFcast (16 * die + p) { s.fcast (16 * die + p) with run := some e } ∧ e.snap = d.snap ∧ e.image = d.image ∧ e.kind = d.kind)
end

