-- ==== Sys2Proof/Laws/Table.lean ====
section
/-! SUPPORT. Tables: an entry read after it is set, and every other entry as before. -/

namespace Sys2Proof.Machine

variable {α : Type}

@[simp] theorem getT_putT_same (t : Tbl α) (k : Nat) (x d : α) : getT (putT t k x) k d = x := by
  induction t with
  | nil => simp [putT, getT]
  | cons e r ih => obtain ⟨a, y⟩ := e; by_cases h : a = k <;> simp [putT, getT, h, ih]

theorem getT_putT_other (t : Tbl α) {k j : Nat} (x d : α) (h : j ≠ k) : getT (putT t k x) j d = getT t j d := by
  induction t with
  | nil => simp [putT, getT, Ne.symm h]
  | cons e r ih =>
    obtain ⟨a, y⟩ := e
    by_cases ha : a = k
    · simp [putT, getT, ha, Ne.symm h]
    · simp [putT, getT, ha, ih]

@[simp] theorem findT_putT_same (t : Tbl α) (k : Nat) (x : α) : findT (putT t k x) k = some x := by
  induction t with
  | nil => simp [putT, findT]
  | cons e r ih => obtain ⟨a, y⟩ := e; by_cases h : a = k <;> simp [putT, findT, h, ih]

theorem findT_putT_other (t : Tbl α) {k j : Nat} (x : α) (h : j ≠ k) : findT (putT t k x) j = findT t j := by
  induction t with
  | nil => simp [putT, findT, Ne.symm h]
  | cons e r ih =>
    obtain ⟨a, y⟩ := e
    by_cases ha : a = k
    · simp [putT, findT, ha, Ne.symm h]
    · simp [putT, findT, ha, ih]

/-! ## The tables of the state -/

@[simp] theorem State.ctx_setCtx (s : State) (c : Nat) (x : Ctx) : (s.setCtx c x).ctx c = some x := findT_putT_same ..
theorem State.ctx_setCtx_other (s : State) {c d : Nat} (x : Ctx) (h : d ≠ c) : (s.setCtx c x).ctx d = s.ctx d := findT_putT_other _ _ h
@[simp] theorem State.part_setPart (s : State) (p : Nat) (x : Part) : (s.setPart p x).part p = x := getT_putT_same ..
theorem State.part_setPart_other (s : State) {p q : Nat} (x : Part) (h : q ≠ p) : (s.setPart p x).part q = s.part q := getT_putT_other _ _ _ h
@[simp] theorem State.row_setRow (s : State) (r : Nat) (x : Row) : (s.setRow r x).row r = x := getT_putT_same ..
theorem State.row_setRow_other (s : State) {r q : Nat} (x : Row) (h : q ≠ r) : (s.setRow r x).row q = s.row q := getT_putT_other _ _ _ h
@[simp] theorem State.fcast_setFcast (s : State) (k : Nat) (x : Fcast) : (s.setFcast k x).fcast k = x := getT_putT_same ..
theorem State.fcast_setFcast_other (s : State) {k j : Nat} (x : Fcast) (h : j ≠ k) : (s.setFcast k x).fcast j = s.fcast j := getT_putT_other _ _ _ h

@[simp] theorem State.row_setTask (s : State) (r : Nat) (t : Option Task) : (s.setTask r t).row r = { s.row r with task := t } := getT_putT_same ..
theorem State.row_setTask_other (s : State) {r q : Nat} (t : Option Task) (h : q ≠ r) : (s.setTask r t).row q = s.row q := getT_putT_other _ _ _ h
@[simp] theorem State.task_setTask (s : State) (r : Nat) (t : Option Task) : (s.setTask r t).task r = t := by simp [State.task]
theorem State.task_setTask_other (s : State) {r q : Nat} (t : Option Task) (h : q ≠ r) : (s.setTask r t).task q = s.task q := by
  simp [State.task, State.row_setTask_other s t h]

/-- A context changed in place: it is there exactly where it was. -/
theorem State.ctx_modCtx (s : State) (c d : Nat) (f : Ctx → Ctx) : (s.modCtx c f).ctx d = if d = c then (s.ctx c).map f else s.ctx d := by
  unfold State.modCtx
  split
  · next x hx =>
    by_cases h : d = c
    · simp [h, hx]
    · simp [h, State.ctx_setCtx_other]
  · next hx => by_cases h : d = c <;> simp [h, hx]

end Sys2Proof.Machine
end

