-- ==== Sys2Proof/Laws/State.lean ====
section
/-! SUPPORT. What each update of the state and of a task leaves of each field. -/

namespace Sys2Proof.Machine

/-! ## `setCtx` -/

section
variable (s : State) (c : Nat) (x : Ctx)

@[simp] theorem State.setCtx_turn : (s.setCtx c x).turn = s.turn := rfl
@[simp] theorem State.setCtx_agenda : (s.setCtx c x).agenda = s.agenda := rfl
@[simp] theorem State.setCtx_freeCtr : (s.setCtx c x).freeCtr = s.freeCtr := rfl
@[simp] theorem State.setCtx_phase : (s.setCtx c x).phase = s.phase := rfl
@[simp] theorem State.setCtx_startups : (s.setCtx c x).startups = s.startups := rfl
@[simp] theorem State.setCtx_fwBad : (s.setCtx c x).fwBad = s.fwBad := rfl
@[simp] theorem State.setCtx_pufOk : (s.setCtx c x).pufOk = s.pufOk := rfl
@[simp] theorem State.setCtx_feeds : (s.setCtx c x).feeds = s.feeds := rfl
@[simp] theorem State.setCtx_powerCap : (s.setCtx c x).powerCap = s.powerCap := rfl
@[simp] theorem State.setCtx_window : (s.setCtx c x).window = s.window := rfl
@[simp] theorem State.setCtx_powers : (s.setCtx c x).powers = s.powers := rfl
@[simp] theorem State.setCtx_tb : (s.setCtx c x).tb = s.tb := rfl
@[simp] theorem State.setCtx_lead : (s.setCtx c x).lead = s.lead := rfl
@[simp] theorem State.setCtx_tbHalf : (s.setCtx c x).tbHalf = s.tbHalf := rfl
@[simp] theorem State.setCtx_mem : (s.setCtx c x).mem = s.mem := rfl
@[simp] theorem State.setCtx_poison : (s.setCtx c x).poison = s.poison := rfl
@[simp] theorem State.setCtx_ctxs : (s.setCtx c x).ctxs = putT s.ctxs c x := rfl
@[simp] theorem State.setCtx_parts : (s.setCtx c x).parts = s.parts := rfl
@[simp] theorem State.setCtx_cores : (s.setCtx c x).cores = s.cores := rfl
@[simp] theorem State.setCtx_rows : (s.setCtx c x).rows = s.rows := rfl
@[simp] theorem State.setCtx_ports : (s.setCtx c x).ports = s.ports := rfl
@[simp] theorem State.setCtx_dies : (s.setCtx c x).dies = s.dies := rfl
@[simp] theorem State.setCtx_fcasts : (s.setCtx c x).fcasts = s.fcasts := rfl
@[simp] theorem State.setCtx_islands : (s.setCtx c x).islands = s.islands := rfl
@[simp] theorem State.setCtx_banks : (s.setCtx c x).banks = s.banks := rfl
@[simp] theorem State.setCtx_vfs : (s.setCtx c x).vfs = s.vfs := rfl
@[simp] theorem State.setCtx_irqs : (s.setCtx c x).irqs = s.irqs := rfl
@[simp] theorem State.setCtx_seen : (s.setCtx c x).seen = s.seen := rfl
@[simp] theorem State.setCtx_llc : (s.setCtx c x).llc = s.llc := rfl
@[simp] theorem State.setCtx_hdm : (s.setCtx c x).hdm = s.hdm := rfl
@[simp] theorem State.setCtx_dieUse : (s.setCtx c x).dieUse = s.dieUse := rfl
@[simp] theorem State.setCtx_colls : (s.setCtx c x).colls = s.colls := rfl
@[simp] theorem State.setCtx_batch : (s.setCtx c x).batch = s.batch := rfl
@[simp] theorem State.setCtx_pendW : (s.setCtx c x).pendW = s.pendW := rfl
@[simp] theorem State.setCtx_pendR : (s.setCtx c x).pendR = s.pendR := rfl
@[simp] theorem State.setCtx_routes : (s.setCtx c x).routes = s.routes := rfl
@[simp] theorem State.setCtx_portsUp : (s.setCtx c x).portsUp = s.portsUp := rfl
@[simp] theorem State.setCtx_ucie : (s.setCtx c x).ucie = s.ucie := rfl
@[simp] theorem State.setCtx_downAt : (s.setCtx c x).downAt = s.downAt := rfl
@[simp] theorem State.setCtx_links : (s.setCtx c x).links = s.links := rfl
@[simp] theorem State.setCtx_podTx : (s.setCtx c x).podTx = s.podTx := rfl
@[simp] theorem State.setCtx_podBar : (s.setCtx c x).podBar = s.podBar := rfl
@[simp] theorem State.setCtx_collDone : (s.setCtx c x).collDone = s.collDone := rfl
@[simp] theorem State.setCtx_early : (s.setCtx c x).early = s.early := rfl
@[simp] theorem State.setCtx_mailbox : (s.setCtx c x).mailbox = s.mailbox := rfl
@[simp] theorem State.setCtx_lastRead : (s.setCtx c x).lastRead = s.lastRead := rfl
@[simp] theorem State.setCtx_events : (s.setCtx c x).events = s.events := rfl
@[simp] theorem State.setCtx_certTb : (s.setCtx c x).certTb = s.certTb := rfl
@[simp] theorem State.setCtx_certRep : (s.setCtx c x).certRep = s.certRep := rfl
@[simp] theorem State.setCtx_spdm : (s.setCtx c x).spdm = s.spdm := rfl

end

/-! ## `setPart` -/

section
variable (s : State) (p : Nat) (x : Part)

@[simp] theorem State.setPart_turn : (s.setPart p x).turn = s.turn := rfl
@[simp] theorem State.setPart_agenda : (s.setPart p x).agenda = s.agenda := rfl
@[simp] theorem State.setPart_freeCtr : (s.setPart p x).freeCtr = s.freeCtr := rfl
@[simp] theorem State.setPart_phase : (s.setPart p x).phase = s.phase := rfl
@[simp] theorem State.setPart_startups : (s.setPart p x).startups = s.startups := rfl
@[simp] theorem State.setPart_fwBad : (s.setPart p x).fwBad = s.fwBad := rfl
@[simp] theorem State.setPart_pufOk : (s.setPart p x).pufOk = s.pufOk := rfl
@[simp] theorem State.setPart_feeds : (s.setPart p x).feeds = s.feeds := rfl
@[simp] theorem State.setPart_powerCap : (s.setPart p x).powerCap = s.powerCap := rfl
@[simp] theorem State.setPart_window : (s.setPart p x).window = s.window := rfl
@[simp] theorem State.setPart_powers : (s.setPart p x).powers = s.powers := rfl
@[simp] theorem State.setPart_tb : (s.setPart p x).tb = s.tb := rfl
@[simp] theorem State.setPart_lead : (s.setPart p x).lead = s.lead := rfl
@[simp] theorem State.setPart_tbHalf : (s.setPart p x).tbHalf = s.tbHalf := rfl
@[simp] theorem State.setPart_mem : (s.setPart p x).mem = s.mem := rfl
@[simp] theorem State.setPart_poison : (s.setPart p x).poison = s.poison := rfl
@[simp] theorem State.setPart_ctxs : (s.setPart p x).ctxs = s.ctxs := rfl
@[simp] theorem State.setPart_parts : (s.setPart p x).parts = putT s.parts p x := rfl
@[simp] theorem State.setPart_cores : (s.setPart p x).cores = s.cores := rfl
@[simp] theorem State.setPart_rows : (s.setPart p x).rows = s.rows := rfl
@[simp] theorem State.setPart_ports : (s.setPart p x).ports = s.ports := rfl
@[simp] theorem State.setPart_dies : (s.setPart p x).dies = s.dies := rfl
@[simp] theorem State.setPart_fcasts : (s.setPart p x).fcasts = s.fcasts := rfl
@[simp] theorem State.setPart_islands : (s.setPart p x).islands = s.islands := rfl
@[simp] theorem State.setPart_banks : (s.setPart p x).banks = s.banks := rfl
@[simp] theorem State.setPart_vfs : (s.setPart p x).vfs = s.vfs := rfl
@[simp] theorem State.setPart_irqs : (s.setPart p x).irqs = s.irqs := rfl
@[simp] theorem State.setPart_seen : (s.setPart p x).seen = s.seen := rfl
@[simp] theorem State.setPart_llc : (s.setPart p x).llc = s.llc := rfl
@[simp] theorem State.setPart_hdm : (s.setPart p x).hdm = s.hdm := rfl
@[simp] theorem State.setPart_dieUse : (s.setPart p x).dieUse = s.dieUse := rfl
@[simp] theorem State.setPart_colls : (s.setPart p x).colls = s.colls := rfl
@[simp] theorem State.setPart_batch : (s.setPart p x).batch = s.batch := rfl
@[simp] theorem State.setPart_pendW : (s.setPart p x).pendW = s.pendW := rfl
@[simp] theorem State.setPart_pendR : (s.setPart p x).pendR = s.pendR := rfl
@[simp] theorem State.setPart_routes : (s.setPart p x).routes = s.routes := rfl
@[simp] theorem State.setPart_portsUp : (s.setPart p x).portsUp = s.portsUp := rfl
@[simp] theorem State.setPart_ucie : (s.setPart p x).ucie = s.ucie := rfl
@[simp] theorem State.setPart_downAt : (s.setPart p x).downAt = s.downAt := rfl
@[simp] theorem State.setPart_links : (s.setPart p x).links = s.links := rfl
@[simp] theorem State.setPart_podTx : (s.setPart p x).podTx = s.podTx := rfl
@[simp] theorem State.setPart_podBar : (s.setPart p x).podBar = s.podBar := rfl
@[simp] theorem State.setPart_collDone : (s.setPart p x).collDone = s.collDone := rfl
@[simp] theorem State.setPart_early : (s.setPart p x).early = s.early := rfl
@[simp] theorem State.setPart_mailbox : (s.setPart p x).mailbox = s.mailbox := rfl
@[simp] theorem State.setPart_lastRead : (s.setPart p x).lastRead = s.lastRead := rfl
@[simp] theorem State.setPart_events : (s.setPart p x).events = s.events := rfl
@[simp] theorem State.setPart_certTb : (s.setPart p x).certTb = s.certTb := rfl
@[simp] theorem State.setPart_certRep : (s.setPart p x).certRep = s.certRep := rfl
@[simp] theorem State.setPart_spdm : (s.setPart p x).spdm = s.spdm := rfl

end

/-! ## `setCore` -/

section
variable (s : State) (n : Nat) (x : Core)

@[simp] theorem State.setCore_turn : (s.setCore n x).turn = s.turn := rfl
@[simp] theorem State.setCore_agenda : (s.setCore n x).agenda = s.agenda := rfl
@[simp] theorem State.setCore_freeCtr : (s.setCore n x).freeCtr = s.freeCtr := rfl
@[simp] theorem State.setCore_phase : (s.setCore n x).phase = s.phase := rfl
@[simp] theorem State.setCore_startups : (s.setCore n x).startups = s.startups := rfl
@[simp] theorem State.setCore_fwBad : (s.setCore n x).fwBad = s.fwBad := rfl
@[simp] theorem State.setCore_pufOk : (s.setCore n x).pufOk = s.pufOk := rfl
@[simp] theorem State.setCore_feeds : (s.setCore n x).feeds = s.feeds := rfl
@[simp] theorem State.setCore_powerCap : (s.setCore n x).powerCap = s.powerCap := rfl
@[simp] theorem State.setCore_window : (s.setCore n x).window = s.window := rfl
@[simp] theorem State.setCore_powers : (s.setCore n x).powers = s.powers := rfl
@[simp] theorem State.setCore_tb : (s.setCore n x).tb = s.tb := rfl
@[simp] theorem State.setCore_lead : (s.setCore n x).lead = s.lead := rfl
@[simp] theorem State.setCore_tbHalf : (s.setCore n x).tbHalf = s.tbHalf := rfl
@[simp] theorem State.setCore_mem : (s.setCore n x).mem = s.mem := rfl
@[simp] theorem State.setCore_poison : (s.setCore n x).poison = s.poison := rfl
@[simp] theorem State.setCore_ctxs : (s.setCore n x).ctxs = s.ctxs := rfl
@[simp] theorem State.setCore_parts : (s.setCore n x).parts = s.parts := rfl
@[simp] theorem State.setCore_cores : (s.setCore n x).cores = putT s.cores n x := rfl
@[simp] theorem State.setCore_rows : (s.setCore n x).rows = s.rows := rfl
@[simp] theorem State.setCore_ports : (s.setCore n x).ports = s.ports := rfl
@[simp] theorem State.setCore_dies : (s.setCore n x).dies = s.dies := rfl
@[simp] theorem State.setCore_fcasts : (s.setCore n x).fcasts = s.fcasts := rfl
@[simp] theorem State.setCore_islands : (s.setCore n x).islands = s.islands := rfl
@[simp] theorem State.setCore_banks : (s.setCore n x).banks = s.banks := rfl
@[simp] theorem State.setCore_vfs : (s.setCore n x).vfs = s.vfs := rfl
@[simp] theorem State.setCore_irqs : (s.setCore n x).irqs = s.irqs := rfl
@[simp] theorem State.setCore_seen : (s.setCore n x).seen = s.seen := rfl
@[simp] theorem State.setCore_llc : (s.setCore n x).llc = s.llc := rfl
@[simp] theorem State.setCore_hdm : (s.setCore n x).hdm = s.hdm := rfl
@[simp] theorem State.setCore_dieUse : (s.setCore n x).dieUse = s.dieUse := rfl
@[simp] theorem State.setCore_colls : (s.setCore n x).colls = s.colls := rfl
@[simp] theorem State.setCore_batch : (s.setCore n x).batch = s.batch := rfl
@[simp] theorem State.setCore_pendW : (s.setCore n x).pendW = s.pendW := rfl
@[simp] theorem State.setCore_pendR : (s.setCore n x).pendR = s.pendR := rfl
@[simp] theorem State.setCore_routes : (s.setCore n x).routes = s.routes := rfl
@[simp] theorem State.setCore_portsUp : (s.setCore n x).portsUp = s.portsUp := rfl
@[simp] theorem State.setCore_ucie : (s.setCore n x).ucie = s.ucie := rfl
@[simp] theorem State.setCore_downAt : (s.setCore n x).downAt = s.downAt := rfl
@[simp] theorem State.setCore_links : (s.setCore n x).links = s.links := rfl
@[simp] theorem State.setCore_podTx : (s.setCore n x).podTx = s.podTx := rfl
@[simp] theorem State.setCore_podBar : (s.setCore n x).podBar = s.podBar := rfl
@[simp] theorem State.setCore_collDone : (s.setCore n x).collDone = s.collDone := rfl
@[simp] theorem State.setCore_early : (s.setCore n x).early = s.early := rfl
@[simp] theorem State.setCore_mailbox : (s.setCore n x).mailbox = s.mailbox := rfl
@[simp] theorem State.setCore_lastRead : (s.setCore n x).lastRead = s.lastRead := rfl
@[simp] theorem State.setCore_events : (s.setCore n x).events = s.events := rfl
@[simp] theorem State.setCore_certTb : (s.setCore n x).certTb = s.certTb := rfl
@[simp] theorem State.setCore_certRep : (s.setCore n x).certRep = s.certRep := rfl
@[simp] theorem State.setCore_spdm : (s.setCore n x).spdm = s.spdm := rfl

end

/-! ## `setRow` -/

section
variable (s : State) (r : Nat) (x : Row)

@[simp] theorem State.setRow_turn : (s.setRow r x).turn = s.turn := rfl
@[simp] theorem State.setRow_agenda : (s.setRow r x).agenda = s.agenda := rfl
@[simp] theorem State.setRow_freeCtr : (s.setRow r x).freeCtr = s.freeCtr := rfl
@[simp] theorem State.setRow_phase : (s.setRow r x).phase = s.phase := rfl
@[simp] theorem State.setRow_startups : (s.setRow r x).startups = s.startups := rfl
@[simp] theorem State.setRow_fwBad : (s.setRow r x).fwBad = s.fwBad := rfl
@[simp] theorem State.setRow_pufOk : (s.setRow r x).pufOk = s.pufOk := rfl
@[simp] theorem State.setRow_feeds : (s.setRow r x).feeds = s.feeds := rfl
@[simp] theorem State.setRow_powerCap : (s.setRow r x).powerCap = s.powerCap := rfl
@[simp] theorem State.setRow_window : (s.setRow r x).window = s.window := rfl
@[simp] theorem State.setRow_powers : (s.setRow r x).powers = s.powers := rfl
@[simp] theorem State.setRow_tb : (s.setRow r x).tb = s.tb := rfl
@[simp] theorem State.setRow_lead : (s.setRow r x).lead = s.lead := rfl
@[simp] theorem State.setRow_tbHalf : (s.setRow r x).tbHalf = s.tbHalf := rfl
@[simp] theorem State.setRow_mem : (s.setRow r x).mem = s.mem := rfl
@[simp] theorem State.setRow_poison : (s.setRow r x).poison = s.poison := rfl
@[simp] theorem State.setRow_ctxs : (s.setRow r x).ctxs = s.ctxs := rfl
@[simp] theorem State.setRow_parts : (s.setRow r x).parts = s.parts := rfl
@[simp] theorem State.setRow_cores : (s.setRow r x).cores = s.cores := rfl
@[simp] theorem State.setRow_rows : (s.setRow r x).rows = putT s.rows r x := rfl
@[simp] theorem State.setRow_ports : (s.setRow r x).ports = s.ports := rfl
@[simp] theorem State.setRow_dies : (s.setRow r x).dies = s.dies := rfl
@[simp] theorem State.setRow_fcasts : (s.setRow r x).fcasts = s.fcasts := rfl
@[simp] theorem State.setRow_islands : (s.setRow r x).islands = s.islands := rfl
@[simp] theorem State.setRow_banks : (s.setRow r x).banks = s.banks := rfl
@[simp] theorem State.setRow_vfs : (s.setRow r x).vfs = s.vfs := rfl
@[simp] theorem State.setRow_irqs : (s.setRow r x).irqs = s.irqs := rfl
@[simp] theorem State.setRow_seen : (s.setRow r x).seen = s.seen := rfl
@[simp] theorem State.setRow_llc : (s.setRow r x).llc = s.llc := rfl
@[simp] theorem State.setRow_hdm : (s.setRow r x).hdm = s.hdm := rfl
@[simp] theorem State.setRow_dieUse : (s.setRow r x).dieUse = s.dieUse := rfl
@[simp] theorem State.setRow_colls : (s.setRow r x).colls = s.colls := rfl
@[simp] theorem State.setRow_batch : (s.setRow r x).batch = s.batch := rfl
@[simp] theorem State.setRow_pendW : (s.setRow r x).pendW = s.pendW := rfl
@[simp] theorem State.setRow_pendR : (s.setRow r x).pendR = s.pendR := rfl
@[simp] theorem State.setRow_routes : (s.setRow r x).routes = s.routes := rfl
@[simp] theorem State.setRow_portsUp : (s.setRow r x).portsUp = s.portsUp := rfl
@[simp] theorem State.setRow_ucie : (s.setRow r x).ucie = s.ucie := rfl
@[simp] theorem State.setRow_downAt : (s.setRow r x).downAt = s.downAt := rfl
@[simp] theorem State.setRow_links : (s.setRow r x).links = s.links := rfl
@[simp] theorem State.setRow_podTx : (s.setRow r x).podTx = s.podTx := rfl
@[simp] theorem State.setRow_podBar : (s.setRow r x).podBar = s.podBar := rfl
@[simp] theorem State.setRow_collDone : (s.setRow r x).collDone = s.collDone := rfl
@[simp] theorem State.setRow_early : (s.setRow r x).early = s.early := rfl
@[simp] theorem State.setRow_mailbox : (s.setRow r x).mailbox = s.mailbox := rfl
@[simp] theorem State.setRow_lastRead : (s.setRow r x).lastRead = s.lastRead := rfl
@[simp] theorem State.setRow_events : (s.setRow r x).events = s.events := rfl
@[simp] theorem State.setRow_certTb : (s.setRow r x).certTb = s.certTb := rfl
@[simp] theorem State.setRow_certRep : (s.setRow r x).certRep = s.certRep := rfl
@[simp] theorem State.setRow_spdm : (s.setRow r x).spdm = s.spdm := rfl

end

/-! ## `setPort` -/

section
variable (s : State) (n : Nat) (x : Port)

@[simp] theorem State.setPort_turn : (s.setPort n x).turn = s.turn := rfl
@[simp] theorem State.setPort_agenda : (s.setPort n x).agenda = s.agenda := rfl
@[simp] theorem State.setPort_freeCtr : (s.setPort n x).freeCtr = s.freeCtr := rfl
@[simp] theorem State.setPort_phase : (s.setPort n x).phase = s.phase := rfl
@[simp] theorem State.setPort_startups : (s.setPort n x).startups = s.startups := rfl
@[simp] theorem State.setPort_fwBad : (s.setPort n x).fwBad = s.fwBad := rfl
@[simp] theorem State.setPort_pufOk : (s.setPort n x).pufOk = s.pufOk := rfl
@[simp] theorem State.setPort_feeds : (s.setPort n x).feeds = s.feeds := rfl
@[simp] theorem State.setPort_powerCap : (s.setPort n x).powerCap = s.powerCap := rfl
@[simp] theorem State.setPort_window : (s.setPort n x).window = s.window := rfl
@[simp] theorem State.setPort_powers : (s.setPort n x).powers = s.powers := rfl
@[simp] theorem State.setPort_tb : (s.setPort n x).tb = s.tb := rfl
@[simp] theorem State.setPort_lead : (s.setPort n x).lead = s.lead := rfl
@[simp] theorem State.setPort_tbHalf : (s.setPort n x).tbHalf = s.tbHalf := rfl
@[simp] theorem State.setPort_mem : (s.setPort n x).mem = s.mem := rfl
@[simp] theorem State.setPort_poison : (s.setPort n x).poison = s.poison := rfl
@[simp] theorem State.setPort_ctxs : (s.setPort n x).ctxs = s.ctxs := rfl
@[simp] theorem State.setPort_parts : (s.setPort n x).parts = s.parts := rfl
@[simp] theorem State.setPort_cores : (s.setPort n x).cores = s.cores := rfl
@[simp] theorem State.setPort_rows : (s.setPort n x).rows = s.rows := rfl
@[simp] theorem State.setPort_ports : (s.setPort n x).ports = putT s.ports n x := rfl
@[simp] theorem State.setPort_dies : (s.setPort n x).dies = s.dies := rfl
@[simp] theorem State.setPort_fcasts : (s.setPort n x).fcasts = s.fcasts := rfl
@[simp] theorem State.setPort_islands : (s.setPort n x).islands = s.islands := rfl
@[simp] theorem State.setPort_banks : (s.setPort n x).banks = s.banks := rfl
@[simp] theorem State.setPort_vfs : (s.setPort n x).vfs = s.vfs := rfl
@[simp] theorem State.setPort_irqs : (s.setPort n x).irqs = s.irqs := rfl
@[simp] theorem State.setPort_seen : (s.setPort n x).seen = s.seen := rfl
@[simp] theorem State.setPort_llc : (s.setPort n x).llc = s.llc := rfl
@[simp] theorem State.setPort_hdm : (s.setPort n x).hdm = s.hdm := rfl
@[simp] theorem State.setPort_dieUse : (s.setPort n x).dieUse = s.dieUse := rfl
@[simp] theorem State.setPort_colls : (s.setPort n x).colls = s.colls := rfl
@[simp] theorem State.setPort_batch : (s.setPort n x).batch = s.batch := rfl
@[simp] theorem State.setPort_pendW : (s.setPort n x).pendW = s.pendW := rfl
@[simp] theorem State.setPort_pendR : (s.setPort n x).pendR = s.pendR := rfl
@[simp] theorem State.setPort_routes : (s.setPort n x).routes = s.routes := rfl
@[simp] theorem State.setPort_portsUp : (s.setPort n x).portsUp = s.portsUp := rfl
@[simp] theorem State.setPort_ucie : (s.setPort n x).ucie = s.ucie := rfl
@[simp] theorem State.setPort_downAt : (s.setPort n x).downAt = s.downAt := rfl
@[simp] theorem State.setPort_links : (s.setPort n x).links = s.links := rfl
@[simp] theorem State.setPort_podTx : (s.setPort n x).podTx = s.podTx := rfl
@[simp] theorem State.setPort_podBar : (s.setPort n x).podBar = s.podBar := rfl
@[simp] theorem State.setPort_collDone : (s.setPort n x).collDone = s.collDone := rfl
@[simp] theorem State.setPort_early : (s.setPort n x).early = s.early := rfl
@[simp] theorem State.setPort_mailbox : (s.setPort n x).mailbox = s.mailbox := rfl
@[simp] theorem State.setPort_lastRead : (s.setPort n x).lastRead = s.lastRead := rfl
@[simp] theorem State.setPort_events : (s.setPort n x).events = s.events := rfl
@[simp] theorem State.setPort_certTb : (s.setPort n x).certTb = s.certTb := rfl
@[simp] theorem State.setPort_certRep : (s.setPort n x).certRep = s.certRep := rfl
@[simp] theorem State.setPort_spdm : (s.setPort n x).spdm = s.spdm := rfl

end

/-! ## `setDie` -/

section
variable (s : State) (d : Nat) (x : Die)

@[simp] theorem State.setDie_turn : (s.setDie d x).turn = s.turn := rfl
@[simp] theorem State.setDie_agenda : (s.setDie d x).agenda = s.agenda := rfl
@[simp] theorem State.setDie_freeCtr : (s.setDie d x).freeCtr = s.freeCtr := rfl
@[simp] theorem State.setDie_phase : (s.setDie d x).phase = s.phase := rfl
@[simp] theorem State.setDie_startups : (s.setDie d x).startups = s.startups := rfl
@[simp] theorem State.setDie_fwBad : (s.setDie d x).fwBad = s.fwBad := rfl
@[simp] theorem State.setDie_pufOk : (s.setDie d x).pufOk = s.pufOk := rfl
@[simp] theorem State.setDie_feeds : (s.setDie d x).feeds = s.feeds := rfl
@[simp] theorem State.setDie_powerCap : (s.setDie d x).powerCap = s.powerCap := rfl
@[simp] theorem State.setDie_window : (s.setDie d x).window = s.window := rfl
@[simp] theorem State.setDie_powers : (s.setDie d x).powers = s.powers := rfl
@[simp] theorem State.setDie_tb : (s.setDie d x).tb = s.tb := rfl
@[simp] theorem State.setDie_lead : (s.setDie d x).lead = s.lead := rfl
@[simp] theorem State.setDie_tbHalf : (s.setDie d x).tbHalf = s.tbHalf := rfl
@[simp] theorem State.setDie_mem : (s.setDie d x).mem = s.mem := rfl
@[simp] theorem State.setDie_poison : (s.setDie d x).poison = s.poison := rfl
@[simp] theorem State.setDie_ctxs : (s.setDie d x).ctxs = s.ctxs := rfl
@[simp] theorem State.setDie_parts : (s.setDie d x).parts = s.parts := rfl
@[simp] theorem State.setDie_cores : (s.setDie d x).cores = s.cores := rfl
@[simp] theorem State.setDie_rows : (s.setDie d x).rows = s.rows := rfl
@[simp] theorem State.setDie_ports : (s.setDie d x).ports = s.ports := rfl
@[simp] theorem State.setDie_dies : (s.setDie d x).dies = putT s.dies d x := rfl
@[simp] theorem State.setDie_fcasts : (s.setDie d x).fcasts = s.fcasts := rfl
@[simp] theorem State.setDie_islands : (s.setDie d x).islands = s.islands := rfl
@[simp] theorem State.setDie_banks : (s.setDie d x).banks = s.banks := rfl
@[simp] theorem State.setDie_vfs : (s.setDie d x).vfs = s.vfs := rfl
@[simp] theorem State.setDie_irqs : (s.setDie d x).irqs = s.irqs := rfl
@[simp] theorem State.setDie_seen : (s.setDie d x).seen = s.seen := rfl
@[simp] theorem State.setDie_llc : (s.setDie d x).llc = s.llc := rfl
@[simp] theorem State.setDie_hdm : (s.setDie d x).hdm = s.hdm := rfl
@[simp] theorem State.setDie_dieUse : (s.setDie d x).dieUse = s.dieUse := rfl
@[simp] theorem State.setDie_colls : (s.setDie d x).colls = s.colls := rfl
@[simp] theorem State.setDie_batch : (s.setDie d x).batch = s.batch := rfl
@[simp] theorem State.setDie_pendW : (s.setDie d x).pendW = s.pendW := rfl
@[simp] theorem State.setDie_pendR : (s.setDie d x).pendR = s.pendR := rfl
@[simp] theorem State.setDie_routes : (s.setDie d x).routes = s.routes := rfl
@[simp] theorem State.setDie_portsUp : (s.setDie d x).portsUp = s.portsUp := rfl
@[simp] theorem State.setDie_ucie : (s.setDie d x).ucie = s.ucie := rfl
@[simp] theorem State.setDie_downAt : (s.setDie d x).downAt = s.downAt := rfl
@[simp] theorem State.setDie_links : (s.setDie d x).links = s.links := rfl
@[simp] theorem State.setDie_podTx : (s.setDie d x).podTx = s.podTx := rfl
@[simp] theorem State.setDie_podBar : (s.setDie d x).podBar = s.podBar := rfl
@[simp] theorem State.setDie_collDone : (s.setDie d x).collDone = s.collDone := rfl
@[simp] theorem State.setDie_early : (s.setDie d x).early = s.early := rfl
@[simp] theorem State.setDie_mailbox : (s.setDie d x).mailbox = s.mailbox := rfl
@[simp] theorem State.setDie_lastRead : (s.setDie d x).lastRead = s.lastRead := rfl
@[simp] theorem State.setDie_events : (s.setDie d x).events = s.events := rfl
@[simp] theorem State.setDie_certTb : (s.setDie d x).certTb = s.certTb := rfl
@[simp] theorem State.setDie_certRep : (s.setDie d x).certRep = s.certRep := rfl
@[simp] theorem State.setDie_spdm : (s.setDie d x).spdm = s.spdm := rfl

end

/-! ## `setFcast` -/

section
variable (s : State) (k : Nat) (x : Fcast)

@[simp] theorem State.setFcast_turn : (s.setFcast k x).turn = s.turn := rfl
@[simp] theorem State.setFcast_agenda : (s.setFcast k x).agenda = s.agenda := rfl
@[simp] theorem State.setFcast_freeCtr : (s.setFcast k x).freeCtr = s.freeCtr := rfl
@[simp] theorem State.setFcast_phase : (s.setFcast k x).phase = s.phase := rfl
@[simp] theorem State.setFcast_startups : (s.setFcast k x).startups = s.startups := rfl
@[simp] theorem State.setFcast_fwBad : (s.setFcast k x).fwBad = s.fwBad := rfl
@[simp] theorem State.setFcast_pufOk : (s.setFcast k x).pufOk = s.pufOk := rfl
@[simp] theorem State.setFcast_feeds : (s.setFcast k x).feeds = s.feeds := rfl
@[simp] theorem State.setFcast_powerCap : (s.setFcast k x).powerCap = s.powerCap := rfl
@[simp] theorem State.setFcast_window : (s.setFcast k x).window = s.window := rfl
@[simp] theorem State.setFcast_powers : (s.setFcast k x).powers = s.powers := rfl
@[simp] theorem State.setFcast_tb : (s.setFcast k x).tb = s.tb := rfl
@[simp] theorem State.setFcast_lead : (s.setFcast k x).lead = s.lead := rfl
@[simp] theorem State.setFcast_tbHalf : (s.setFcast k x).tbHalf = s.tbHalf := rfl
@[simp] theorem State.setFcast_mem : (s.setFcast k x).mem = s.mem := rfl
@[simp] theorem State.setFcast_poison : (s.setFcast k x).poison = s.poison := rfl
@[simp] theorem State.setFcast_ctxs : (s.setFcast k x).ctxs = s.ctxs := rfl
@[simp] theorem State.setFcast_parts : (s.setFcast k x).parts = s.parts := rfl
@[simp] theorem State.setFcast_cores : (s.setFcast k x).cores = s.cores := rfl
@[simp] theorem State.setFcast_rows : (s.setFcast k x).rows = s.rows := rfl
@[simp] theorem State.setFcast_ports : (s.setFcast k x).ports = s.ports := rfl
@[simp] theorem State.setFcast_dies : (s.setFcast k x).dies = s.dies := rfl
@[simp] theorem State.setFcast_fcasts : (s.setFcast k x).fcasts = putT s.fcasts k x := rfl
@[simp] theorem State.setFcast_islands : (s.setFcast k x).islands = s.islands := rfl
@[simp] theorem State.setFcast_banks : (s.setFcast k x).banks = s.banks := rfl
@[simp] theorem State.setFcast_vfs : (s.setFcast k x).vfs = s.vfs := rfl
@[simp] theorem State.setFcast_irqs : (s.setFcast k x).irqs = s.irqs := rfl
@[simp] theorem State.setFcast_seen : (s.setFcast k x).seen = s.seen := rfl
@[simp] theorem State.setFcast_llc : (s.setFcast k x).llc = s.llc := rfl
@[simp] theorem State.setFcast_hdm : (s.setFcast k x).hdm = s.hdm := rfl
@[simp] theorem State.setFcast_dieUse : (s.setFcast k x).dieUse = s.dieUse := rfl
@[simp] theorem State.setFcast_colls : (s.setFcast k x).colls = s.colls := rfl
@[simp] theorem State.setFcast_batch : (s.setFcast k x).batch = s.batch := rfl
@[simp] theorem State.setFcast_pendW : (s.setFcast k x).pendW = s.pendW := rfl
@[simp] theorem State.setFcast_pendR : (s.setFcast k x).pendR = s.pendR := rfl
@[simp] theorem State.setFcast_routes : (s.setFcast k x).routes = s.routes := rfl
@[simp] theorem State.setFcast_portsUp : (s.setFcast k x).portsUp = s.portsUp := rfl
@[simp] theorem State.setFcast_ucie : (s.setFcast k x).ucie = s.ucie := rfl
@[simp] theorem State.setFcast_downAt : (s.setFcast k x).downAt = s.downAt := rfl
@[simp] theorem State.setFcast_links : (s.setFcast k x).links = s.links := rfl
@[simp] theorem State.setFcast_podTx : (s.setFcast k x).podTx = s.podTx := rfl
@[simp] theorem State.setFcast_podBar : (s.setFcast k x).podBar = s.podBar := rfl
@[simp] theorem State.setFcast_collDone : (s.setFcast k x).collDone = s.collDone := rfl
@[simp] theorem State.setFcast_early : (s.setFcast k x).early = s.early := rfl
@[simp] theorem State.setFcast_mailbox : (s.setFcast k x).mailbox = s.mailbox := rfl
@[simp] theorem State.setFcast_lastRead : (s.setFcast k x).lastRead = s.lastRead := rfl
@[simp] theorem State.setFcast_events : (s.setFcast k x).events = s.events := rfl
@[simp] theorem State.setFcast_certTb : (s.setFcast k x).certTb = s.certTb := rfl
@[simp] theorem State.setFcast_certRep : (s.setFcast k x).certRep = s.certRep := rfl
@[simp] theorem State.setFcast_spdm : (s.setFcast k x).spdm = s.spdm := rfl

end

/-! ## `setBank` -/

section
variable (s : State) (b : Nat) (x : Bank)

@[simp] theorem State.setBank_turn : (s.setBank b x).turn = s.turn := rfl
@[simp] theorem State.setBank_agenda : (s.setBank b x).agenda = s.agenda := rfl
@[simp] theorem State.setBank_freeCtr : (s.setBank b x).freeCtr = s.freeCtr := rfl
@[simp] theorem State.setBank_phase : (s.setBank b x).phase = s.phase := rfl
@[simp] theorem State.setBank_startups : (s.setBank b x).startups = s.startups := rfl
@[simp] theorem State.setBank_fwBad : (s.setBank b x).fwBad = s.fwBad := rfl
@[simp] theorem State.setBank_pufOk : (s.setBank b x).pufOk = s.pufOk := rfl
@[simp] theorem State.setBank_feeds : (s.setBank b x).feeds = s.feeds := rfl
@[simp] theorem State.setBank_powerCap : (s.setBank b x).powerCap = s.powerCap := rfl
@[simp] theorem State.setBank_window : (s.setBank b x).window = s.window := rfl
@[simp] theorem State.setBank_powers : (s.setBank b x).powers = s.powers := rfl
@[simp] theorem State.setBank_tb : (s.setBank b x).tb = s.tb := rfl
@[simp] theorem State.setBank_lead : (s.setBank b x).lead = s.lead := rfl
@[simp] theorem State.setBank_tbHalf : (s.setBank b x).tbHalf = s.tbHalf := rfl
@[simp] theorem State.setBank_mem : (s.setBank b x).mem = s.mem := rfl
@[simp] theorem State.setBank_poison : (s.setBank b x).poison = s.poison := rfl
@[simp] theorem State.setBank_ctxs : (s.setBank b x).ctxs = s.ctxs := rfl
@[simp] theorem State.setBank_parts : (s.setBank b x).parts = s.parts := rfl
@[simp] theorem State.setBank_cores : (s.setBank b x).cores = s.cores := rfl
@[simp] theorem State.setBank_rows : (s.setBank b x).rows = s.rows := rfl
@[simp] theorem State.setBank_ports : (s.setBank b x).ports = s.ports := rfl
@[simp] theorem State.setBank_dies : (s.setBank b x).dies = s.dies := rfl
@[simp] theorem State.setBank_fcasts : (s.setBank b x).fcasts = s.fcasts := rfl
@[simp] theorem State.setBank_islands : (s.setBank b x).islands = s.islands := rfl
@[simp] theorem State.setBank_banks : (s.setBank b x).banks = putT s.banks b x := rfl
@[simp] theorem State.setBank_vfs : (s.setBank b x).vfs = s.vfs := rfl
@[simp] theorem State.setBank_irqs : (s.setBank b x).irqs = s.irqs := rfl
@[simp] theorem State.setBank_seen : (s.setBank b x).seen = s.seen := rfl
@[simp] theorem State.setBank_llc : (s.setBank b x).llc = s.llc := rfl
@[simp] theorem State.setBank_hdm : (s.setBank b x).hdm = s.hdm := rfl
@[simp] theorem State.setBank_dieUse : (s.setBank b x).dieUse = s.dieUse := rfl
@[simp] theorem State.setBank_colls : (s.setBank b x).colls = s.colls := rfl
@[simp] theorem State.setBank_batch : (s.setBank b x).batch = s.batch := rfl
@[simp] theorem State.setBank_pendW : (s.setBank b x).pendW = s.pendW := rfl
@[simp] theorem State.setBank_pendR : (s.setBank b x).pendR = s.pendR := rfl
@[simp] theorem State.setBank_routes : (s.setBank b x).routes = s.routes := rfl
@[simp] theorem State.setBank_portsUp : (s.setBank b x).portsUp = s.portsUp := rfl
@[simp] theorem State.setBank_ucie : (s.setBank b x).ucie = s.ucie := rfl
@[simp] theorem State.setBank_downAt : (s.setBank b x).downAt = s.downAt := rfl
@[simp] theorem State.setBank_links : (s.setBank b x).links = s.links := rfl
@[simp] theorem State.setBank_podTx : (s.setBank b x).podTx = s.podTx := rfl
@[simp] theorem State.setBank_podBar : (s.setBank b x).podBar = s.podBar := rfl
@[simp] theorem State.setBank_collDone : (s.setBank b x).collDone = s.collDone := rfl
@[simp] theorem State.setBank_early : (s.setBank b x).early = s.early := rfl
@[simp] theorem State.setBank_mailbox : (s.setBank b x).mailbox = s.mailbox := rfl
@[simp] theorem State.setBank_lastRead : (s.setBank b x).lastRead = s.lastRead := rfl
@[simp] theorem State.setBank_events : (s.setBank b x).events = s.events := rfl
@[simp] theorem State.setBank_certTb : (s.setBank b x).certTb = s.certTb := rfl
@[simp] theorem State.setBank_certRep : (s.setBank b x).certRep = s.certRep := rfl
@[simp] theorem State.setBank_spdm : (s.setBank b x).spdm = s.spdm := rfl

end

/-! ## `setVf` -/

section
variable (s : State) (v : Nat) (x : Vf)

@[simp] theorem State.setVf_turn : (s.setVf v x).turn = s.turn := rfl
@[simp] theorem State.setVf_agenda : (s.setVf v x).agenda = s.agenda := rfl
@[simp] theorem State.setVf_freeCtr : (s.setVf v x).freeCtr = s.freeCtr := rfl
@[simp] theorem State.setVf_phase : (s.setVf v x).phase = s.phase := rfl
@[simp] theorem State.setVf_startups : (s.setVf v x).startups = s.startups := rfl
@[simp] theorem State.setVf_fwBad : (s.setVf v x).fwBad = s.fwBad := rfl
@[simp] theorem State.setVf_pufOk : (s.setVf v x).pufOk = s.pufOk := rfl
@[simp] theorem State.setVf_feeds : (s.setVf v x).feeds = s.feeds := rfl
@[simp] theorem State.setVf_powerCap : (s.setVf v x).powerCap = s.powerCap := rfl
@[simp] theorem State.setVf_window : (s.setVf v x).window = s.window := rfl
@[simp] theorem State.setVf_powers : (s.setVf v x).powers = s.powers := rfl
@[simp] theorem State.setVf_tb : (s.setVf v x).tb = s.tb := rfl
@[simp] theorem State.setVf_lead : (s.setVf v x).lead = s.lead := rfl
@[simp] theorem State.setVf_tbHalf : (s.setVf v x).tbHalf = s.tbHalf := rfl
@[simp] theorem State.setVf_mem : (s.setVf v x).mem = s.mem := rfl
@[simp] theorem State.setVf_poison : (s.setVf v x).poison = s.poison := rfl
@[simp] theorem State.setVf_ctxs : (s.setVf v x).ctxs = s.ctxs := rfl
@[simp] theorem State.setVf_parts : (s.setVf v x).parts = s.parts := rfl
@[simp] theorem State.setVf_cores : (s.setVf v x).cores = s.cores := rfl
@[simp] theorem State.setVf_rows : (s.setVf v x).rows = s.rows := rfl
@[simp] theorem State.setVf_ports : (s.setVf v x).ports = s.ports := rfl
@[simp] theorem State.setVf_dies : (s.setVf v x).dies = s.dies := rfl
@[simp] theorem State.setVf_fcasts : (s.setVf v x).fcasts = s.fcasts := rfl
@[simp] theorem State.setVf_islands : (s.setVf v x).islands = s.islands := rfl
@[simp] theorem State.setVf_banks : (s.setVf v x).banks = s.banks := rfl
@[simp] theorem State.setVf_vfs : (s.setVf v x).vfs = putT s.vfs v x := rfl
@[simp] theorem State.setVf_irqs : (s.setVf v x).irqs = s.irqs := rfl
@[simp] theorem State.setVf_seen : (s.setVf v x).seen = s.seen := rfl
@[simp] theorem State.setVf_llc : (s.setVf v x).llc = s.llc := rfl
@[simp] theorem State.setVf_hdm : (s.setVf v x).hdm = s.hdm := rfl
@[simp] theorem State.setVf_dieUse : (s.setVf v x).dieUse = s.dieUse := rfl
@[simp] theorem State.setVf_colls : (s.setVf v x).colls = s.colls := rfl
@[simp] theorem State.setVf_batch : (s.setVf v x).batch = s.batch := rfl
@[simp] theorem State.setVf_pendW : (s.setVf v x).pendW = s.pendW := rfl
@[simp] theorem State.setVf_pendR : (s.setVf v x).pendR = s.pendR := rfl
@[simp] theorem State.setVf_routes : (s.setVf v x).routes = s.routes := rfl
@[simp] theorem State.setVf_portsUp : (s.setVf v x).portsUp = s.portsUp := rfl
@[simp] theorem State.setVf_ucie : (s.setVf v x).ucie = s.ucie := rfl
@[simp] theorem State.setVf_downAt : (s.setVf v x).downAt = s.downAt := rfl
@[simp] theorem State.setVf_links : (s.setVf v x).links = s.links := rfl
@[simp] theorem State.setVf_podTx : (s.setVf v x).podTx = s.podTx := rfl
@[simp] theorem State.setVf_podBar : (s.setVf v x).podBar = s.podBar := rfl
@[simp] theorem State.setVf_collDone : (s.setVf v x).collDone = s.collDone := rfl
@[simp] theorem State.setVf_early : (s.setVf v x).early = s.early := rfl
@[simp] theorem State.setVf_mailbox : (s.setVf v x).mailbox = s.mailbox := rfl
@[simp] theorem State.setVf_lastRead : (s.setVf v x).lastRead = s.lastRead := rfl
@[simp] theorem State.setVf_events : (s.setVf v x).events = s.events := rfl
@[simp] theorem State.setVf_certTb : (s.setVf v x).certTb = s.certTb := rfl
@[simp] theorem State.setVf_certRep : (s.setVf v x).certRep = s.certRep := rfl
@[simp] theorem State.setVf_spdm : (s.setVf v x).spdm = s.spdm := rfl

end

/-! ## `setTask` -/

section
variable (s : State) (r : Nat) (t : Option Task)

@[simp] theorem State.setTask_turn : (s.setTask r t).turn = s.turn := rfl
@[simp] theorem State.setTask_agenda : (s.setTask r t).agenda = s.agenda := rfl
@[simp] theorem State.setTask_freeCtr : (s.setTask r t).freeCtr = s.freeCtr := rfl
@[simp] theorem State.setTask_phase : (s.setTask r t).phase = s.phase := rfl
@[simp] theorem State.setTask_startups : (s.setTask r t).startups = s.startups := rfl
@[simp] theorem State.setTask_fwBad : (s.setTask r t).fwBad = s.fwBad := rfl
@[simp] theorem State.setTask_pufOk : (s.setTask r t).pufOk = s.pufOk := rfl
@[simp] theorem State.setTask_feeds : (s.setTask r t).feeds = s.feeds := rfl
@[simp] theorem State.setTask_powerCap : (s.setTask r t).powerCap = s.powerCap := rfl
@[simp] theorem State.setTask_window : (s.setTask r t).window = s.window := rfl
@[simp] theorem State.setTask_powers : (s.setTask r t).powers = s.powers := rfl
@[simp] theorem State.setTask_tb : (s.setTask r t).tb = s.tb := rfl
@[simp] theorem State.setTask_lead : (s.setTask r t).lead = s.lead := rfl
@[simp] theorem State.setTask_tbHalf : (s.setTask r t).tbHalf = s.tbHalf := rfl
@[simp] theorem State.setTask_mem : (s.setTask r t).mem = s.mem := rfl
@[simp] theorem State.setTask_poison : (s.setTask r t).poison = s.poison := rfl
@[simp] theorem State.setTask_ctxs : (s.setTask r t).ctxs = s.ctxs := rfl
@[simp] theorem State.setTask_parts : (s.setTask r t).parts = s.parts := rfl
@[simp] theorem State.setTask_cores : (s.setTask r t).cores = s.cores := rfl
@[simp] theorem State.setTask_rows : (s.setTask r t).rows = putT s.rows r { s.row r with task := t } := rfl
@[simp] theorem State.setTask_ports : (s.setTask r t).ports = s.ports := rfl
@[simp] theorem State.setTask_dies : (s.setTask r t).dies = s.dies := rfl
@[simp] theorem State.setTask_fcasts : (s.setTask r t).fcasts = s.fcasts := rfl
@[simp] theorem State.setTask_islands : (s.setTask r t).islands = s.islands := rfl
@[simp] theorem State.setTask_banks : (s.setTask r t).banks = s.banks := rfl
@[simp] theorem State.setTask_vfs : (s.setTask r t).vfs = s.vfs := rfl
@[simp] theorem State.setTask_irqs : (s.setTask r t).irqs = s.irqs := rfl
@[simp] theorem State.setTask_seen : (s.setTask r t).seen = s.seen := rfl
@[simp] theorem State.setTask_llc : (s.setTask r t).llc = s.llc := rfl
@[simp] theorem State.setTask_hdm : (s.setTask r t).hdm = s.hdm := rfl
@[simp] theorem State.setTask_dieUse : (s.setTask r t).dieUse = s.dieUse := rfl
@[simp] theorem State.setTask_colls : (s.setTask r t).colls = s.colls := rfl
@[simp] theorem State.setTask_batch : (s.setTask r t).batch = s.batch := rfl
@[simp] theorem State.setTask_pendW : (s.setTask r t).pendW = s.pendW := rfl
@[simp] theorem State.setTask_pendR : (s.setTask r t).pendR = s.pendR := rfl
@[simp] theorem State.setTask_routes : (s.setTask r t).routes = s.routes := rfl
@[simp] theorem State.setTask_portsUp : (s.setTask r t).portsUp = s.portsUp := rfl
@[simp] theorem State.setTask_ucie : (s.setTask r t).ucie = s.ucie := rfl
@[simp] theorem State.setTask_downAt : (s.setTask r t).downAt = s.downAt := rfl
@[simp] theorem State.setTask_links : (s.setTask r t).links = s.links := rfl
@[simp] theorem State.setTask_podTx : (s.setTask r t).podTx = s.podTx := rfl
@[simp] theorem State.setTask_podBar : (s.setTask r t).podBar = s.podBar := rfl
@[simp] theorem State.setTask_collDone : (s.setTask r t).collDone = s.collDone := rfl
@[simp] theorem State.setTask_early : (s.setTask r t).early = s.early := rfl
@[simp] theorem State.setTask_mailbox : (s.setTask r t).mailbox = s.mailbox := rfl
@[simp] theorem State.setTask_lastRead : (s.setTask r t).lastRead = s.lastRead := rfl
@[simp] theorem State.setTask_events : (s.setTask r t).events = s.events := rfl
@[simp] theorem State.setTask_certTb : (s.setTask r t).certTb = s.certTb := rfl
@[simp] theorem State.setTask_certRep : (s.setTask r t).certRep = s.certRep := rfl
@[simp] theorem State.setTask_spdm : (s.setTask r t).spdm = s.spdm := rfl

end

/-! ## Changes in place -/

@[simp] theorem State.modPart_eq (s : State) (p : Nat) (f : Part → Part) : s.modPart p f = s.setPart p (f (s.part p)) := rfl
@[simp] theorem State.modRow_eq (s : State) (r : Nat) (f : Row → Row) : s.modRow r f = s.setRow r (f (s.row r)) := rfl
@[simp] theorem State.modCore_eq (s : State) (n : Nat) (f : Core → Core) : s.modCore n f = s.setCore n (f (s.core n)) := rfl
@[simp] theorem State.modDie_eq (s : State) (d : Nat) (f : Die → Die) : s.modDie d f = s.setDie d (f (s.die d)) := rfl
@[simp] theorem State.modFcast_eq (s : State) (k : Nat) (f : Fcast → Fcast) : s.modFcast k f = s.setFcast k (f (s.fcast k)) := rfl
@[simp] theorem State.modPort_eq (s : State) (n : Nat) (f : Port → Port) : s.modPort n f = s.setPort n (f (s.port n)) := rfl

section
variable (s : State) (c : Nat) (f : Ctx → Ctx)

@[simp] theorem State.modCtx_turn : (s.modCtx c f).turn = s.turn := by unfold State.modCtx; split <;> rfl
@[simp] theorem State.modCtx_agenda : (s.modCtx c f).agenda = s.agenda := by unfold State.modCtx; split <;> rfl
@[simp] theorem State.modCtx_freeCtr : (s.modCtx c f).freeCtr = s.freeCtr := by unfold State.modCtx; split <;> rfl
@[simp] theorem State.modCtx_phase : (s.modCtx c f).phase = s.phase := by unfold State.modCtx; split <;> rfl
@[simp] theorem State.modCtx_startups : (s.modCtx c f).startups = s.startups := by unfold State.modCtx; split <;> rfl
@[simp] theorem State.modCtx_fwBad : (s.modCtx c f).fwBad = s.fwBad := by unfold State.modCtx; split <;> rfl
@[simp] theorem State.modCtx_pufOk : (s.modCtx c f).pufOk = s.pufOk := by unfold State.modCtx; split <;> rfl
@[simp] theorem State.modCtx_feeds : (s.modCtx c f).feeds = s.feeds := by unfold State.modCtx; split <;> rfl
@[simp] theorem State.modCtx_powerCap : (s.modCtx c f).powerCap = s.powerCap := by unfold State.modCtx; split <;> rfl
@[simp] theorem State.modCtx_window : (s.modCtx c f).window = s.window := by unfold State.modCtx; split <;> rfl
@[simp] theorem State.modCtx_powers : (s.modCtx c f).powers = s.powers := by unfold State.modCtx; split <;> rfl
@[simp] theorem State.modCtx_tb : (s.modCtx c f).tb = s.tb := by unfold State.modCtx; split <;> rfl
@[simp] theorem State.modCtx_lead : (s.modCtx c f).lead = s.lead := by unfold State.modCtx; split <;> rfl
@[simp] theorem State.modCtx_tbHalf : (s.modCtx c f).tbHalf = s.tbHalf := by unfold State.modCtx; split <;> rfl
@[simp] theorem State.modCtx_mem : (s.modCtx c f).mem = s.mem := by unfold State.modCtx; split <;> rfl
@[simp] theorem State.modCtx_poison : (s.modCtx c f).poison = s.poison := by unfold State.modCtx; split <;> rfl
@[simp] theorem State.modCtx_parts : (s.modCtx c f).parts = s.parts := by unfold State.modCtx; split <;> rfl
@[simp] theorem State.modCtx_cores : (s.modCtx c f).cores = s.cores := by unfold State.modCtx; split <;> rfl
@[simp] theorem State.modCtx_rows : (s.modCtx c f).rows = s.rows := by unfold State.modCtx; split <;> rfl
@[simp] theorem State.modCtx_ports : (s.modCtx c f).ports = s.ports := by unfold State.modCtx; split <;> rfl
@[simp] theorem State.modCtx_dies : (s.modCtx c f).dies = s.dies := by unfold State.modCtx; split <;> rfl
@[simp] theorem State.modCtx_fcasts : (s.modCtx c f).fcasts = s.fcasts := by unfold State.modCtx; split <;> rfl
@[simp] theorem State.modCtx_islands : (s.modCtx c f).islands = s.islands := by unfold State.modCtx; split <;> rfl
@[simp] theorem State.modCtx_banks : (s.modCtx c f).banks = s.banks := by unfold State.modCtx; split <;> rfl
@[simp] theorem State.modCtx_vfs : (s.modCtx c f).vfs = s.vfs := by unfold State.modCtx; split <;> rfl
@[simp] theorem State.modCtx_irqs : (s.modCtx c f).irqs = s.irqs := by unfold State.modCtx; split <;> rfl
@[simp] theorem State.modCtx_seen : (s.modCtx c f).seen = s.seen := by unfold State.modCtx; split <;> rfl
@[simp] theorem State.modCtx_llc : (s.modCtx c f).llc = s.llc := by unfold State.modCtx; split <;> rfl
@[simp] theorem State.modCtx_hdm : (s.modCtx c f).hdm = s.hdm := by unfold State.modCtx; split <;> rfl
@[simp] theorem State.modCtx_dieUse : (s.modCtx c f).dieUse = s.dieUse := by unfold State.modCtx; split <;> rfl
@[simp] theorem State.modCtx_colls : (s.modCtx c f).colls = s.colls := by unfold State.modCtx; split <;> rfl
@[simp] theorem State.modCtx_batch : (s.modCtx c f).batch = s.batch := by unfold State.modCtx; split <;> rfl
@[simp] theorem State.modCtx_pendW : (s.modCtx c f).pendW = s.pendW := by unfold State.modCtx; split <;> rfl
@[simp] theorem State.modCtx_pendR : (s.modCtx c f).pendR = s.pendR := by unfold State.modCtx; split <;> rfl
@[simp] theorem State.modCtx_routes : (s.modCtx c f).routes = s.routes := by unfold State.modCtx; split <;> rfl
@[simp] theorem State.modCtx_portsUp : (s.modCtx c f).portsUp = s.portsUp := by unfold State.modCtx; split <;> rfl
@[simp] theorem State.modCtx_ucie : (s.modCtx c f).ucie = s.ucie := by unfold State.modCtx; split <;> rfl
@[simp] theorem State.modCtx_downAt : (s.modCtx c f).downAt = s.downAt := by unfold State.modCtx; split <;> rfl
@[simp] theorem State.modCtx_links : (s.modCtx c f).links = s.links := by unfold State.modCtx; split <;> rfl
@[simp] theorem State.modCtx_podTx : (s.modCtx c f).podTx = s.podTx := by unfold State.modCtx; split <;> rfl
@[simp] theorem State.modCtx_podBar : (s.modCtx c f).podBar = s.podBar := by unfold State.modCtx; split <;> rfl
@[simp] theorem State.modCtx_collDone : (s.modCtx c f).collDone = s.collDone := by unfold State.modCtx; split <;> rfl
@[simp] theorem State.modCtx_early : (s.modCtx c f).early = s.early := by unfold State.modCtx; split <;> rfl
@[simp] theorem State.modCtx_mailbox : (s.modCtx c f).mailbox = s.mailbox := by unfold State.modCtx; split <;> rfl
@[simp] theorem State.modCtx_lastRead : (s.modCtx c f).lastRead = s.lastRead := by unfold State.modCtx; split <;> rfl
@[simp] theorem State.modCtx_events : (s.modCtx c f).events = s.events := by unfold State.modCtx; split <;> rfl
@[simp] theorem State.modCtx_certTb : (s.modCtx c f).certTb = s.certTb := by unfold State.modCtx; split <;> rfl
@[simp] theorem State.modCtx_certRep : (s.modCtx c f).certRep = s.certRep := by unfold State.modCtx; split <;> rfl
@[simp] theorem State.modCtx_spdm : (s.modCtx c f).spdm = s.spdm := by unfold State.modCtx; split <;> rfl

end

/-! ## Tasks -/

section
variable (t : Task) (n : BitVec 5) (x : Word)

@[simp] theorem Task.setS_cx : (t.setS n x).cx = t.cx := by unfold Task.setS; split <;> rfl
@[simp] theorem Task.setS_core : (t.setS n x).core = t.core := by unfold Task.setS; split <;> rfl
@[simp] theorem Task.setS_row : (t.setS n x).row = t.row := by unfold Task.setS; split <;> rfl
@[simp] theorem Task.setS_pc : (t.setS n x).pc = t.pc := by unfold Task.setS; split <;> rfl
@[simp] theorem Task.setS_v : (t.setS n x).v = t.v := by unfold Task.setS; split <;> rfl
@[simp] theorem Task.setS_k : (t.setS n x).k = t.k := by unfold Task.setS; split <;> rfl
@[simp] theorem Task.setS_cfg : (t.setS n x).cfg = t.cfg := by unfold Task.setS; split <;> rfl
@[simp] theorem Task.setS_tid : (t.setS n x).tid = t.tid := by unfold Task.setS; split <;> rfl
@[simp] theorem Task.setS_gid : (t.setS n x).gid = t.gid := by unfold Task.setS; split <;> rfl
@[simp] theorem Task.setS_seed : (t.setS n x).seed = t.seed := by unfold Task.setS; split <;> rfl
@[simp] theorem Task.setS_srctr : (t.setS n x).srctr = t.srctr := by unfold Task.setS; split <;> rfl
@[simp] theorem Task.setS_fmt : (t.setS n x).fmt = t.fmt := by unfold Task.setS; split <;> rfl
@[simp] theorem Task.setS_flags : (t.setS n x).flags = t.flags := by unfold Task.setS; split <;> rfl
@[simp] theorem Task.setS_meter : (t.setS n x).meter = t.meter := by unfold Task.setS; split <;> rfl
@[simp] theorem Task.setS_budget : (t.setS n x).budget = t.budget := by unfold Task.setS; split <;> rfl
@[simp] theorem Task.setS_measured : (t.setS n x).measured = t.measured := by unfold Task.setS; split <;> rfl
@[simp] theorem Task.setS_smf : (t.setS n x).smf = t.smf := by unfold Task.setS; split <;> rfl
@[simp] theorem Task.setS_lvl : (t.setS n x).lvl = t.lvl := by unfold Task.setS; split <;> rfl
@[simp] theorem Task.setS_cscope : (t.setS n x).cscope = t.cscope := by unfold Task.setS; split <;> rfl
@[simp] theorem Task.setS_dark : (t.setS n x).dark = t.dark := by unfold Task.setS; split <;> rfl
@[simp] theorem Task.setS_staged : (t.setS n x).staged = t.staged := by unfold Task.setS; split <;> rfl
@[simp] theorem Task.setS_nstore : (t.setS n x).nstore = t.nstore := by unfold Task.setS; split <;> rfl
@[simp] theorem Task.setS_nbytes : (t.setS n x).nbytes = t.nbytes := by unfold Task.setS; split <;> rfl
@[simp] theorem Task.setS_nchw : (t.setS n x).nchw = t.nchw := by unfold Task.setS; split <;> rfl
@[simp] theorem Task.setS_ncmd : (t.setS n x).ncmd = t.ncmd := by unfold Task.setS; split <;> rfl
@[simp] theorem Task.setS_handles : (t.setS n x).handles = t.handles := by unfold Task.setS; split <;> rfl
@[simp] theorem Task.setS_block : (t.setS n x).block = t.block := by unfold Task.setS; split <;> rfl
@[simp] theorem Task.setS_gsz : (t.setS n x).gsz = t.gsz := by unfold Task.setS; split <;> rfl
@[simp] theorem Task.setS_gspan : (t.setS n x).gspan = t.gspan := by unfold Task.setS; split <;> rfl
@[simp] theorem Task.setS_grp : (t.setS n x).grp = t.grp := by unfold Task.setS; split <;> rfl
@[simp] theorem Task.setS_bound : (t.setS n x).bound = t.bound := by unfold Task.setS; split <;> rfl
@[simp] theorem Task.setS_stage : (t.setS n x).stage = t.stage := by unfold Task.setS; split <;> rfl
@[simp] theorem Task.setS_pkt : (t.setS n x).pkt = t.pkt := by unfold Task.setS; split <;> rfl
@[simp] theorem Task.setS_receipt : (t.setS n x).receipt = t.receipt := by unfold Task.setS; split <;> rfl
@[simp] theorem Task.setS_vf : (t.setS n x).vf = t.vf := by unfold Task.setS; split <;> rfl
@[simp] theorem Task.setS_froPre : (t.setS n x).froPre = t.froPre := by unfold Task.setS; split <;> rfl
@[simp] theorem Task.setS_froDrain : (t.setS n x).froDrain = t.froDrain := by unfold Task.setS; split <;> rfl
@[simp] theorem Task.setS_froBrk : (t.setS n x).froBrk = t.froBrk := by unfold Task.setS; split <;> rfl
@[simp] theorem Task.setS_freed : (t.setS n x).freed = t.freed := by unfold Task.setS; split <;> rfl
@[simp] theorem Task.setS_faulted : (t.setS n x).faulted = t.faulted := by unfold Task.setS; split <;> rfl
@[simp] theorem Task.setS_ir : (t.setS n x).ir = t.ir := by unfold Task.setS; split <;> rfl
@[simp] theorem Task.setS_charged : (t.setS n x).charged = t.charged := by unfold Task.setS; split <;> rfl
@[simp] theorem Task.setS_commit : (t.setS n x).commit = t.commit := by unfold Task.setS; split <;> rfl

end

section
variable (t : Task) (n : BitVec 3) (x : BitVec 16)

@[simp] theorem Task.setK_cx : (t.setK n x).cx = t.cx := by unfold Task.setK; split <;> rfl
@[simp] theorem Task.setK_core : (t.setK n x).core = t.core := by unfold Task.setK; split <;> rfl
@[simp] theorem Task.setK_row : (t.setK n x).row = t.row := by unfold Task.setK; split <;> rfl
@[simp] theorem Task.setK_pc : (t.setK n x).pc = t.pc := by unfold Task.setK; split <;> rfl
@[simp] theorem Task.setK_s : (t.setK n x).s = t.s := by unfold Task.setK; split <;> rfl
@[simp] theorem Task.setK_v : (t.setK n x).v = t.v := by unfold Task.setK; split <;> rfl
@[simp] theorem Task.setK_cfg : (t.setK n x).cfg = t.cfg := by unfold Task.setK; split <;> rfl
@[simp] theorem Task.setK_tid : (t.setK n x).tid = t.tid := by unfold Task.setK; split <;> rfl
@[simp] theorem Task.setK_gid : (t.setK n x).gid = t.gid := by unfold Task.setK; split <;> rfl
@[simp] theorem Task.setK_seed : (t.setK n x).seed = t.seed := by unfold Task.setK; split <;> rfl
@[simp] theorem Task.setK_srctr : (t.setK n x).srctr = t.srctr := by unfold Task.setK; split <;> rfl
@[simp] theorem Task.setK_fmt : (t.setK n x).fmt = t.fmt := by unfold Task.setK; split <;> rfl
@[simp] theorem Task.setK_flags : (t.setK n x).flags = t.flags := by unfold Task.setK; split <;> rfl
@[simp] theorem Task.setK_meter : (t.setK n x).meter = t.meter := by unfold Task.setK; split <;> rfl
@[simp] theorem Task.setK_budget : (t.setK n x).budget = t.budget := by unfold Task.setK; split <;> rfl
@[simp] theorem Task.setK_measured : (t.setK n x).measured = t.measured := by unfold Task.setK; split <;> rfl
@[simp] theorem Task.setK_smf : (t.setK n x).smf = t.smf := by unfold Task.setK; split <;> rfl
@[simp] theorem Task.setK_lvl : (t.setK n x).lvl = t.lvl := by unfold Task.setK; split <;> rfl
@[simp] theorem Task.setK_cscope : (t.setK n x).cscope = t.cscope := by unfold Task.setK; split <;> rfl
@[simp] theorem Task.setK_dark : (t.setK n x).dark = t.dark := by unfold Task.setK; split <;> rfl
@[simp] theorem Task.setK_staged : (t.setK n x).staged = t.staged := by unfold Task.setK; split <;> rfl
@[simp] theorem Task.setK_nstore : (t.setK n x).nstore = t.nstore := by unfold Task.setK; split <;> rfl
@[simp] theorem Task.setK_nbytes : (t.setK n x).nbytes = t.nbytes := by unfold Task.setK; split <;> rfl
@[simp] theorem Task.setK_nchw : (t.setK n x).nchw = t.nchw := by unfold Task.setK; split <;> rfl
@[simp] theorem Task.setK_ncmd : (t.setK n x).ncmd = t.ncmd := by unfold Task.setK; split <;> rfl
@[simp] theorem Task.setK_handles : (t.setK n x).handles = t.handles := by unfold Task.setK; split <;> rfl
@[simp] theorem Task.setK_block : (t.setK n x).block = t.block := by unfold Task.setK; split <;> rfl
@[simp] theorem Task.setK_gsz : (t.setK n x).gsz = t.gsz := by unfold Task.setK; split <;> rfl
@[simp] theorem Task.setK_gspan : (t.setK n x).gspan = t.gspan := by unfold Task.setK; split <;> rfl
@[simp] theorem Task.setK_grp : (t.setK n x).grp = t.grp := by unfold Task.setK; split <;> rfl
@[simp] theorem Task.setK_bound : (t.setK n x).bound = t.bound := by unfold Task.setK; split <;> rfl
@[simp] theorem Task.setK_stage : (t.setK n x).stage = t.stage := by unfold Task.setK; split <;> rfl
@[simp] theorem Task.setK_pkt : (t.setK n x).pkt = t.pkt := by unfold Task.setK; split <;> rfl
@[simp] theorem Task.setK_receipt : (t.setK n x).receipt = t.receipt := by unfold Task.setK; split <;> rfl
@[simp] theorem Task.setK_vf : (t.setK n x).vf = t.vf := by unfold Task.setK; split <;> rfl
@[simp] theorem Task.setK_froPre : (t.setK n x).froPre = t.froPre := by unfold Task.setK; split <;> rfl
@[simp] theorem Task.setK_froDrain : (t.setK n x).froDrain = t.froDrain := by unfold Task.setK; split <;> rfl
@[simp] theorem Task.setK_froBrk : (t.setK n x).froBrk = t.froBrk := by unfold Task.setK; split <;> rfl
@[simp] theorem Task.setK_freed : (t.setK n x).freed = t.freed := by unfold Task.setK; split <;> rfl
@[simp] theorem Task.setK_faulted : (t.setK n x).faulted = t.faulted := by unfold Task.setK; split <;> rfl
@[simp] theorem Task.setK_ir : (t.setK n x).ir = t.ir := by unfold Task.setK; split <;> rfl
@[simp] theorem Task.setK_charged : (t.setK n x).charged = t.charged := by unfold Task.setK; split <;> rfl
@[simp] theorem Task.setK_commit : (t.setK n x).commit = t.commit := by unfold Task.setK; split <;> rfl

end

section
variable (t : Task) (n : BitVec 5) (x : Vector Lane 16)

@[simp] theorem Task.setV_cx : (t.setV n x).cx = t.cx := rfl
@[simp] theorem Task.setV_core : (t.setV n x).core = t.core := rfl
@[simp] theorem Task.setV_row : (t.setV n x).row = t.row := rfl
@[simp] theorem Task.setV_pc : (t.setV n x).pc = t.pc := rfl
@[simp] theorem Task.setV_s : (t.setV n x).s = t.s := rfl
@[simp] theorem Task.setV_v : (t.setV n x).v = t.v.set n.toNat x n.isLt := rfl
@[simp] theorem Task.setV_k : (t.setV n x).k = t.k := rfl
@[simp] theorem Task.setV_cfg : (t.setV n x).cfg = t.cfg := rfl
@[simp] theorem Task.setV_tid : (t.setV n x).tid = t.tid := rfl
@[simp] theorem Task.setV_gid : (t.setV n x).gid = t.gid := rfl
@[simp] theorem Task.setV_seed : (t.setV n x).seed = t.seed := rfl
@[simp] theorem Task.setV_srctr : (t.setV n x).srctr = t.srctr := rfl
@[simp] theorem Task.setV_fmt : (t.setV n x).fmt = t.fmt := rfl
@[simp] theorem Task.setV_flags : (t.setV n x).flags = t.flags := rfl
@[simp] theorem Task.setV_meter : (t.setV n x).meter = t.meter := rfl
@[simp] theorem Task.setV_budget : (t.setV n x).budget = t.budget := rfl
@[simp] theorem Task.setV_measured : (t.setV n x).measured = t.measured := rfl
@[simp] theorem Task.setV_smf : (t.setV n x).smf = t.smf := rfl
@[simp] theorem Task.setV_lvl : (t.setV n x).lvl = t.lvl := rfl
@[simp] theorem Task.setV_cscope : (t.setV n x).cscope = t.cscope := rfl
@[simp] theorem Task.setV_dark : (t.setV n x).dark = t.dark := rfl
@[simp] theorem Task.setV_staged : (t.setV n x).staged = t.staged := rfl
@[simp] theorem Task.setV_nstore : (t.setV n x).nstore = t.nstore := rfl
@[simp] theorem Task.setV_nbytes : (t.setV n x).nbytes = t.nbytes := rfl
@[simp] theorem Task.setV_nchw : (t.setV n x).nchw = t.nchw := rfl
@[simp] theorem Task.setV_ncmd : (t.setV n x).ncmd = t.ncmd := rfl
@[simp] theorem Task.setV_handles : (t.setV n x).handles = t.handles := rfl
@[simp] theorem Task.setV_block : (t.setV n x).block = t.block := rfl
@[simp] theorem Task.setV_gsz : (t.setV n x).gsz = t.gsz := rfl
@[simp] theorem Task.setV_gspan : (t.setV n x).gspan = t.gspan := rfl
@[simp] theorem Task.setV_grp : (t.setV n x).grp = t.grp := rfl
@[simp] theorem Task.setV_bound : (t.setV n x).bound = t.bound := rfl
@[simp] theorem Task.setV_stage : (t.setV n x).stage = t.stage := rfl
@[simp] theorem Task.setV_pkt : (t.setV n x).pkt = t.pkt := rfl
@[simp] theorem Task.setV_receipt : (t.setV n x).receipt = t.receipt := rfl
@[simp] theorem Task.setV_vf : (t.setV n x).vf = t.vf := rfl
@[simp] theorem Task.setV_froPre : (t.setV n x).froPre = t.froPre := rfl
@[simp] theorem Task.setV_froDrain : (t.setV n x).froDrain = t.froDrain := rfl
@[simp] theorem Task.setV_froBrk : (t.setV n x).froBrk = t.froBrk := rfl
@[simp] theorem Task.setV_freed : (t.setV n x).freed = t.freed := rfl
@[simp] theorem Task.setV_faulted : (t.setV n x).faulted = t.faulted := rfl
@[simp] theorem Task.setV_ir : (t.setV n x).ir = t.ir := rfl
@[simp] theorem Task.setV_charged : (t.setV n x).charged = t.charged := rfl
@[simp] theorem Task.setV_commit : (t.setV n x).commit = t.commit := rfl

end

section
variable (t : Task) 

@[simp] theorem Task.adv_cx : (t.adv).cx = t.cx := rfl
@[simp] theorem Task.adv_core : (t.adv).core = t.core := rfl
@[simp] theorem Task.adv_row : (t.adv).row = t.row := rfl
@[simp] theorem Task.adv_pc : (t.adv).pc = t.pc + 4 := rfl
@[simp] theorem Task.adv_s : (t.adv).s = t.s := rfl
@[simp] theorem Task.adv_v : (t.adv).v = t.v := rfl
@[simp] theorem Task.adv_k : (t.adv).k = t.k := rfl
@[simp] theorem Task.adv_cfg : (t.adv).cfg = t.cfg := rfl
@[simp] theorem Task.adv_tid : (t.adv).tid = t.tid := rfl
@[simp] theorem Task.adv_gid : (t.adv).gid = t.gid := rfl
@[simp] theorem Task.adv_seed : (t.adv).seed = t.seed := rfl
@[simp] theorem Task.adv_srctr : (t.adv).srctr = t.srctr := rfl
@[simp] theorem Task.adv_fmt : (t.adv).fmt = t.fmt := rfl
@[simp] theorem Task.adv_flags : (t.adv).flags = t.flags := rfl
@[simp] theorem Task.adv_meter : (t.adv).meter = t.meter := rfl
@[simp] theorem Task.adv_budget : (t.adv).budget = t.budget := rfl
@[simp] theorem Task.adv_measured : (t.adv).measured = t.measured := rfl
@[simp] theorem Task.adv_smf : (t.adv).smf = t.smf := rfl
@[simp] theorem Task.adv_lvl : (t.adv).lvl = t.lvl := rfl
@[simp] theorem Task.adv_cscope : (t.adv).cscope = t.cscope := rfl
@[simp] theorem Task.adv_dark : (t.adv).dark = t.dark := rfl
@[simp] theorem Task.adv_staged : (t.adv).staged = t.staged := rfl
@[simp] theorem Task.adv_nstore : (t.adv).nstore = t.nstore := rfl
@[simp] theorem Task.adv_nbytes : (t.adv).nbytes = t.nbytes := rfl
@[simp] theorem Task.adv_nchw : (t.adv).nchw = t.nchw := rfl
@[simp] theorem Task.adv_ncmd : (t.adv).ncmd = t.ncmd := rfl
@[simp] theorem Task.adv_handles : (t.adv).handles = t.handles := rfl
@[simp] theorem Task.adv_block : (t.adv).block = t.block := rfl
@[simp] theorem Task.adv_gsz : (t.adv).gsz = t.gsz := rfl
@[simp] theorem Task.adv_gspan : (t.adv).gspan = t.gspan := rfl
@[simp] theorem Task.adv_grp : (t.adv).grp = t.grp := rfl
@[simp] theorem Task.adv_bound : (t.adv).bound = t.bound := rfl
@[simp] theorem Task.adv_stage : (t.adv).stage = t.stage := rfl
@[simp] theorem Task.adv_pkt : (t.adv).pkt = t.pkt := rfl
@[simp] theorem Task.adv_receipt : (t.adv).receipt = t.receipt := rfl
@[simp] theorem Task.adv_vf : (t.adv).vf = t.vf := rfl
@[simp] theorem Task.adv_froPre : (t.adv).froPre = t.froPre := rfl
@[simp] theorem Task.adv_froDrain : (t.adv).froDrain = t.froDrain := rfl
@[simp] theorem Task.adv_froBrk : (t.adv).froBrk = t.froBrk := rfl
@[simp] theorem Task.adv_freed : (t.adv).freed = t.freed := rfl
@[simp] theorem Task.adv_faulted : (t.adv).faulted = t.faulted := rfl
@[simp] theorem Task.adv_ir : (t.adv).ir = t.ir := rfl
@[simp] theorem Task.adv_charged : (t.adv).charged = t.charged := rfl
@[simp] theorem Task.adv_commit : (t.adv).commit = t.commit := rfl

end

section
variable (t : Task) (f : Fl)

@[simp] theorem Task.raise_cx : (t.raise f).cx = t.cx := rfl
@[simp] theorem Task.raise_core : (t.raise f).core = t.core := rfl
@[simp] theorem Task.raise_row : (t.raise f).row = t.row := rfl
@[simp] theorem Task.raise_pc : (t.raise f).pc = t.pc := rfl
@[simp] theorem Task.raise_s : (t.raise f).s = t.s := rfl
@[simp] theorem Task.raise_v : (t.raise f).v = t.v := rfl
@[simp] theorem Task.raise_k : (t.raise f).k = t.k := rfl
@[simp] theorem Task.raise_cfg : (t.raise f).cfg = t.cfg := rfl
@[simp] theorem Task.raise_tid : (t.raise f).tid = t.tid := rfl
@[simp] theorem Task.raise_gid : (t.raise f).gid = t.gid := rfl
@[simp] theorem Task.raise_seed : (t.raise f).seed = t.seed := rfl
@[simp] theorem Task.raise_srctr : (t.raise f).srctr = t.srctr := rfl
@[simp] theorem Task.raise_fmt : (t.raise f).fmt = t.fmt := rfl
@[simp] theorem Task.raise_flags : (t.raise f).flags = t.flags ||| f.setWidth 64 := rfl
@[simp] theorem Task.raise_meter : (t.raise f).meter = t.meter := rfl
@[simp] theorem Task.raise_budget : (t.raise f).budget = t.budget := rfl
@[simp] theorem Task.raise_measured : (t.raise f).measured = t.measured := rfl
@[simp] theorem Task.raise_smf : (t.raise f).smf = t.smf := rfl
@[simp] theorem Task.raise_lvl : (t.raise f).lvl = t.lvl := rfl
@[simp] theorem Task.raise_cscope : (t.raise f).cscope = t.cscope := rfl
@[simp] theorem Task.raise_dark : (t.raise f).dark = t.dark := rfl
@[simp] theorem Task.raise_staged : (t.raise f).staged = t.staged := rfl
@[simp] theorem Task.raise_nstore : (t.raise f).nstore = t.nstore := rfl
@[simp] theorem Task.raise_nbytes : (t.raise f).nbytes = t.nbytes := rfl
@[simp] theorem Task.raise_nchw : (t.raise f).nchw = t.nchw := rfl
@[simp] theorem Task.raise_ncmd : (t.raise f).ncmd = t.ncmd := rfl
@[simp] theorem Task.raise_handles : (t.raise f).handles = t.handles := rfl
@[simp] theorem Task.raise_block : (t.raise f).block = t.block := rfl
@[simp] theorem Task.raise_gsz : (t.raise f).gsz = t.gsz := rfl
@[simp] theorem Task.raise_gspan : (t.raise f).gspan = t.gspan := rfl
@[simp] theorem Task.raise_grp : (t.raise f).grp = t.grp := rfl
@[simp] theorem Task.raise_bound : (t.raise f).bound = t.bound := rfl
@[simp] theorem Task.raise_stage : (t.raise f).stage = t.stage := rfl
@[simp] theorem Task.raise_pkt : (t.raise f).pkt = t.pkt := rfl
@[simp] theorem Task.raise_receipt : (t.raise f).receipt = t.receipt := rfl
@[simp] theorem Task.raise_vf : (t.raise f).vf = t.vf := rfl
@[simp] theorem Task.raise_froPre : (t.raise f).froPre = t.froPre := rfl
@[simp] theorem Task.raise_froDrain : (t.raise f).froDrain = t.froDrain := rfl
@[simp] theorem Task.raise_froBrk : (t.raise f).froBrk = t.froBrk := rfl
@[simp] theorem Task.raise_freed : (t.raise f).freed = t.freed := rfl
@[simp] theorem Task.raise_faulted : (t.raise f).faulted = t.faulted := rfl
@[simp] theorem Task.raise_ir : (t.raise f).ir = t.ir := rfl
@[simp] theorem Task.raise_charged : (t.raise f).charged = t.charged := rfl
@[simp] theorem Task.raise_commit : (t.raise f).commit = t.commit := rfl

end

section
variable (t : Task) {n : Nat} (d : BitVec n)

@[simp] theorem Task.jump_cx : (t.jump d).cx = t.cx := rfl
@[simp] theorem Task.jump_core : (t.jump d).core = t.core := rfl
@[simp] theorem Task.jump_row : (t.jump d).row = t.row := rfl
@[simp] theorem Task.jump_pc : (t.jump d).pc = t.pc + sext64 d * 4 := rfl
@[simp] theorem Task.jump_s : (t.jump d).s = t.s := rfl
@[simp] theorem Task.jump_v : (t.jump d).v = t.v := rfl
@[simp] theorem Task.jump_k : (t.jump d).k = t.k := rfl
@[simp] theorem Task.jump_cfg : (t.jump d).cfg = t.cfg := rfl
@[simp] theorem Task.jump_tid : (t.jump d).tid = t.tid := rfl
@[simp] theorem Task.jump_gid : (t.jump d).gid = t.gid := rfl
@[simp] theorem Task.jump_seed : (t.jump d).seed = t.seed := rfl
@[simp] theorem Task.jump_srctr : (t.jump d).srctr = t.srctr := rfl
@[simp] theorem Task.jump_fmt : (t.jump d).fmt = t.fmt := rfl
@[simp] theorem Task.jump_flags : (t.jump d).flags = t.flags := rfl
@[simp] theorem Task.jump_meter : (t.jump d).meter = t.meter := rfl
@[simp] theorem Task.jump_budget : (t.jump d).budget = t.budget := rfl
@[simp] theorem Task.jump_measured : (t.jump d).measured = t.measured := rfl
@[simp] theorem Task.jump_smf : (t.jump d).smf = t.smf := rfl
@[simp] theorem Task.jump_lvl : (t.jump d).lvl = t.lvl := rfl
@[simp] theorem Task.jump_cscope : (t.jump d).cscope = t.cscope := rfl
@[simp] theorem Task.jump_dark : (t.jump d).dark = t.dark := rfl
@[simp] theorem Task.jump_staged : (t.jump d).staged = t.staged := rfl
@[simp] theorem Task.jump_nstore : (t.jump d).nstore = t.nstore := rfl
@[simp] theorem Task.jump_nbytes : (t.jump d).nbytes = t.nbytes := rfl
@[simp] theorem Task.jump_nchw : (t.jump d).nchw = t.nchw := rfl
@[simp] theorem Task.jump_ncmd : (t.jump d).ncmd = t.ncmd := rfl
@[simp] theorem Task.jump_handles : (t.jump d).handles = t.handles := rfl
@[simp] theorem Task.jump_block : (t.jump d).block = t.block := rfl
@[simp] theorem Task.jump_gsz : (t.jump d).gsz = t.gsz := rfl
@[simp] theorem Task.jump_gspan : (t.jump d).gspan = t.gspan := rfl
@[simp] theorem Task.jump_grp : (t.jump d).grp = t.grp := rfl
@[simp] theorem Task.jump_bound : (t.jump d).bound = t.bound := rfl
@[simp] theorem Task.jump_stage : (t.jump d).stage = t.stage := rfl
@[simp] theorem Task.jump_pkt : (t.jump d).pkt = t.pkt := rfl
@[simp] theorem Task.jump_receipt : (t.jump d).receipt = t.receipt := rfl
@[simp] theorem Task.jump_vf : (t.jump d).vf = t.vf := rfl
@[simp] theorem Task.jump_froPre : (t.jump d).froPre = t.froPre := rfl
@[simp] theorem Task.jump_froDrain : (t.jump d).froDrain = t.froDrain := rfl
@[simp] theorem Task.jump_froBrk : (t.jump d).froBrk = t.froBrk := rfl
@[simp] theorem Task.jump_freed : (t.jump d).freed = t.freed := rfl
@[simp] theorem Task.jump_faulted : (t.jump d).faulted = t.faulted := rfl
@[simp] theorem Task.jump_ir : (t.jump d).ir = t.ir := rfl
@[simp] theorem Task.jump_charged : (t.jump d).charged = t.charged := rfl
@[simp] theorem Task.jump_commit : (t.jump d).commit = t.commit := rfl

end

end Sys2Proof.Machine
end

