-- ==== Sys2Proof/Laws/Task.lean ====
section
/-! SUPPORT. Registers of a task: what is read after a write, and the registers that are fixed (R36). -/

namespace Sys2Proof.Machine

@[simp] theorem Task.S_zero (t : Task) : t.S 0#5 = 0#64 := by simp [Task.S]
@[simp] theorem Task.K_zero (t : Task) : t.K 0#3 = 65535#16 := by simp [Task.K]
@[simp] theorem Task.setS_zero (t : Task) (x : Word) : t.setS 0#5 x = t := by simp [Task.setS]
@[simp] theorem Task.setK_zero (t : Task) (x : BitVec 16) : t.setK 0#3 x = t := by simp [Task.setK]

/-- A scalar register after a write of one. -/
theorem Task.S_setS (t : Task) (n m : BitVec 5) (x : Word) : (t.setS n x).S m = if m = n ∧ n ≠ 0 then x else t.S m := by
  by_cases hn : n = 0
  · subst hn; simp
  · by_cases hm : m = 0
    · subst hm; have : ¬0#5 = n := fun e => hn e.symm; simp [this]
    · unfold Task.S Task.setS
      simp only [hn, hm, if_false, ne_eq, not_false_eq_true, and_true, Vector.getElem_set]
      by_cases h : m = n
      · simp [h]
      · have : ¬n.toNat = m.toNat := fun e => h (BitVec.eq_of_toNat_eq e.symm)
        simp [h, this]

@[simp] theorem Task.S_setS_same (t : Task) (n : BitVec 5) (x : Word) (h : n ≠ 0#5) : (t.setS n x).S n = x := by simp [Task.S_setS, h]
theorem Task.S_setS_other (t : Task) {n m : BitVec 5} (x : Word) (h : m ≠ n) : (t.setS n x).S m = t.S m := by simp [Task.S_setS, h]

/-- A vector register after a write of one. -/
theorem Task.V_setV (t : Task) (n m : BitVec 5) (x : Vector Lane 16) : (t.setV n x).V m = if m = n then x else t.V m := by
  unfold Task.V Task.setV
  simp only [Vector.getElem_set]
  by_cases h : m = n
  · simp [h]
  · have : ¬n.toNat = m.toNat := fun e => h (BitVec.eq_of_toNat_eq e.symm)
    simp [h, this]

/-- A mask register after a write of one. -/
theorem Task.K_setK (t : Task) (n m : BitVec 3) (x : BitVec 16) : (t.setK n x).K m = if m = n ∧ n ≠ 0 then x else t.K m := by
  by_cases hn : n = 0
  · subst hn; simp
  · by_cases hm : m = 0
    · subst hm; have : ¬0#3 = n := fun e => hn e.symm; simp [this]
    · unfold Task.K Task.setK
      simp only [hn, hm, if_false, ne_eq, not_false_eq_true, and_true, Vector.getElem_set]
      by_cases h : m = n
      · simp [h]
      · have : ¬n.toNat = m.toNat := fun e => h (BitVec.eq_of_toNat_eq e.symm)
        simp [h, this]

/-! ## Registers that an update does not write -/

@[simp] theorem Task.V_setS (t : Task) (n m : BitVec 5) (x : Word) : (t.setS n x).V m = t.V m := by simp [Task.V]
@[simp] theorem Task.K_setS (t : Task) (n : BitVec 5) (m : BitVec 3) (x : Word) : (t.setS n x).K m = t.K m := by simp [Task.K]
@[simp] theorem Task.S_setV (t : Task) (n m : BitVec 5) (x : Vector Lane 16) : (t.setV n x).S m = t.S m := by simp [Task.S]
@[simp] theorem Task.K_setV (t : Task) (n : BitVec 5) (m : BitVec 3) (x : Vector Lane 16) : (t.setV n x).K m = t.K m := by simp [Task.K]
@[simp] theorem Task.S_setK (t : Task) (n : BitVec 3) (m : BitVec 5) (x : BitVec 16) : (t.setK n x).S m = t.S m := by simp [Task.S]
@[simp] theorem Task.V_setK (t : Task) (n : BitVec 3) (m : BitVec 5) (x : BitVec 16) : (t.setK n x).V m = t.V m := by simp [Task.V]
@[simp] theorem Task.S_adv (t : Task) (m : BitVec 5) : t.adv.S m = t.S m := rfl
@[simp] theorem Task.V_adv (t : Task) (m : BitVec 5) : t.adv.V m = t.V m := rfl
@[simp] theorem Task.K_adv (t : Task) (m : BitVec 3) : t.adv.K m = t.K m := rfl
@[simp] theorem Task.S_raise (t : Task) (f : Fl) (m : BitVec 5) : (t.raise f).S m = t.S m := rfl
@[simp] theorem Task.V_raise (t : Task) (f : Fl) (m : BitVec 5) : (t.raise f).V m = t.V m := rfl
@[simp] theorem Task.K_raise (t : Task) (f : Fl) (m : BitVec 3) : (t.raise f).K m = t.K m := rfl

end Sys2Proof.Machine
end

