-- ==== Sys2Proof/Laws/Exec.lean ====
section
/-! SUPPORT. What each shared operation can do, said once: charging, the execute step, register operations, addresses, exits, privileged
instructions, Forecast operations, commands and packets. -/

namespace Sys2Proof.Machine

/-! ## Charging (R37) -/

/-- A charge in budget mode outside a dark run. -/
theorem State.pay_budget (s : State) (t : Task) (n : Nat) (hc : t.charged = false) (hd : t.dark = none) (hm : t.measured = false) :
    s.pay t n = if t.budget < t.meter + n then .short s else .ok s { t with meter := t.meter + n } := by
  simp [State.pay, hc, hd, hm]

/-- An instruction that waits at its step 4 has been charged. -/
theorem State.pay_charged (s : State) (t : Task) (n : Nat) (hc : t.charged = true) : s.pay t n = .ok s { t with charged := false } := by
  simp [State.pay, hc]

/-- What a charge that is paid comes to: nothing where the instruction has been charged already; in a dark run the packets that its meter has reached
are drawn; in measured mode a free value is drawn; otherwise the state stands. The meter rises by the charge. -/
theorem State.pay_ok_cases {s s1 : State} {t t1 : Task} {n : Nat} (h : s.pay t n = .ok s1 t1) :
    (t.charged = true ∧ s1 = s ∧ t1 = { t with charged := false }) ∨
    (∃ d s', t.charged = false ∧ t.dark = some d ∧ t.meter + n ≤ 262144 ∧ s.debit (partOf t.cx) (cdiv (t.meter + n - d.base) 64 - d.drawn) = some s' ∧
      s1 = s'.tally t.cx t.receipt (cdiv (t.meter + n - d.base) 64 - d.drawn) 0 ∧
      t1 = { t with meter := t.meter + n, dark := some { d with drawn := max (cdiv (t.meter + n - d.base) 64) d.drawn } }) ∨
    (t.charged = false ∧ t.dark = none ∧ t.measured = true ∧ s1 = { s with freeCtr := s.freeCtr + 1 } ∧ t1 = { t with meter := t.meter + n }) ∨
    (t.charged = false ∧ t.dark = none ∧ t.measured = false ∧ t.meter + n ≤ t.budget ∧ s1 = s ∧ t1 = { t with meter := t.meter + n }) := by
  cases hc : t.charged with
  | true => rw [s.pay_charged t n hc] at h; cases h; exact .inl ⟨rfl, rfl, rfl⟩
  | false =>
    unfold State.pay at h
    rw [if_neg (by simp [hc])] at h
    split at h
    · next d hd =>
      split at h
      · cases h
      · dsimp only at h
        split at h
        · cases h
        · next hm s' hs => cases h; exact .inr (.inl ⟨d, s', rfl, hd, by omega, hs, rfl, by simp [hc]⟩)
    · next hd =>
      split at h
      · next hm => split at h <;> cases h; exact .inr (.inr (.inl ⟨rfl, hd, hm, rfl, by simp [hc]⟩))
      · next hm =>
        split at h
        · cases h
        · cases h; exact .inr (.inr (.inr ⟨rfl, hd, by simpa using hm, by omega, rfl, by simp [hc]⟩))

/-- A charge changes the meter of the task and its dark run, and nothing else of it. -/
theorem State.pay_task {s s1 : State} {t t1 : Task} {n : Nat} (h : s.pay t n = .ok s1 t1) :
    t1 = { t with meter := t1.meter, dark := t1.dark, charged := false } := by
  rcases State.pay_ok_cases h with ⟨_, _, rfl⟩ | ⟨d, s', hc, _, _, _, _, rfl⟩ | ⟨hc, hd, _, _, rfl⟩ | ⟨hc, hd, _, _, _, rfl⟩
  · rfl
  all_goals cases t; simp_all

@[simp] theorem State.tally_mem (s : State) (cx : Nat) (b : Bool) (m n : Nat) : (s.tally cx b m n).mem = s.mem := by
  unfold State.tally; split
  · simp
  · rfl

@[simp] theorem State.tally_rows (s : State) (cx : Nat) (b : Bool) (m n : Nat) : (s.tally cx b m n).rows = s.rows := by
  unfold State.tally; split
  · simp
  · rfl

/-- A debit lowers the level of its pool. -/
theorem State.debit_some {s s' : State} {p n : Nat} (h : s.debit p n = some s') :
    n ≤ (s.part p).plevel ∧ s' = s.setPart p { s.part p with plevel := (s.part p).plevel - n } := by
  unfold State.debit at h
  split at h
  · cases h
  · cases h; exact ⟨by omega, rfl⟩

/-- A charge touches no byte of memory. -/
theorem State.pay_mem {s s1 : State} {t t1 : Task} {n : Nat} (h : s.pay t n = .ok s1 t1) : s1.mem = s.mem := by
  rcases State.pay_ok_cases h with ⟨_, rfl, _⟩ | ⟨d, s', _, _, _, hs, rfl, _⟩ | ⟨_, _, _, rfl, _⟩ | ⟨_, _, _, _, rfl, _⟩
  · rfl
  · simp [(State.debit_some hs).2]
  · rfl
  · rfl

/-- A charge touches no row. -/
theorem State.pay_rows {s s1 : State} {t t1 : Task} {n : Nat} (h : s.pay t n = .ok s1 t1) : s1.rows = s.rows := by
  rcases State.pay_ok_cases h with ⟨_, rfl, _⟩ | ⟨d, s', _, _, _, hs, rfl, _⟩ | ⟨_, _, _, rfl, _⟩ | ⟨_, _, _, _, rfl, _⟩
  · rfl
  · simp [(State.debit_some hs).2]
  · rfl
  · rfl

/-! ## The execute step (R29) -/

/-- A step of the task on the row whose turn it is. -/
theorem State.onRow_row {s : State} {r : Nat} {t : Task} (f : Task → State) (hr : s.turn = .row r) (ht : s.task r = some t) :
    s.onRow f = .next (f t) := by simp [State.onRow, hr, ht]

theorem State.onRow_none {s : State} (f : Task → State) (h : ∀ r, s.turn = .row r → s.task r = none) : s.onRow f = .refused .noAgent := by
  unfold State.onRow
  split
  · next r hr => rw [h r hr]
  · rfl

/-- What an instruction comes to: a stop for want of charge, the end of a dark run, or what its body comes to. -/
theorem State.issue_cases (s : State) (t : Task) (n : Nat) (body : State → Task → Body) (fin : State → Task → State) :
    (∃ s1, s.pay t n = .short s1 ∧ s.issue t n body fin = s1.stopTask t .shortfall) ∨
    (∃ k, s.pay t n = .darkEnd k ∧ s.issue t n body fin = s.finishStop t 1 k) ∨
    (∃ s1 t1, s.pay t n = .ok s1 t1 ∧ s.issue t n body fin = match body s1 t1 with
      | .done s2 t2 => fin s2 t2
      | .stop r => s1.stopTask t1 r
      | .fault c d a => s1.faultTask t1 c d a
      | .faultAt s2 c d a => s2.faultTask t1 c d a
      | .miss va acc => (s1.setTask t.row (some { t1 with charged := true })).missRow t va acc) := by
  unfold State.issue
  cases h : s.pay t n with
  | ok s1 t1 => exact .inr (.inr ⟨s1, t1, rfl, rfl⟩)
  | short s1 => exact .inl ⟨s1, rfl, rfl⟩
  | darkEnd k => exact .inr (.inl ⟨k, rfl, rfl⟩)

theorem State.issue_ok {s s1 : State} {t t1 : Task} {n : Nat} (body : State → Task → Body) (fin : State → Task → State)
    (h : s.pay t n = .ok s1 t1) : s.issue t n body fin = match body s1 t1 with
      | .done s2 t2 => fin s2 t2
      | .stop r => s1.stopTask t1 r
      | .fault c d a => s1.faultTask t1 c d a
      | .faultAt s2 c d a => s2.faultTask t1 c d a
      | .miss va acc => (s1.setTask t.row (some { t1 with charged := true })).missRow t va acc := by
  cases hb : body s1 t1 <;> simp [State.issue, h, hb]

/-- An instruction of the row whose turn it is, its charge paid. -/
theorem State.runTask_ok {s s1 : State} {r : Nat} {t t1 : Task} (cost : Task → Nat) (body : State → Task → Body) (hr : s.turn = .row r)
    (ht : s.task r = some t) (hp : s.pay t (cost t) = .ok s1 t1) : s.runTask cost body = .next (match body s1 t1 with
      | .done s2 t2 => s2.setTask t2.row (some t2)
      | .stop r => s1.stopTask t1 r
      | .fault c d a => s1.faultTask t1 c d a
      | .faultAt s2 c d a => s2.faultTask t1 c d a
      | .miss va acc => (s1.setTask t.row (some { t1 with charged := true })).missRow t va acc) := by
  rw [State.runTask, State.onRow_row _ hr ht, State.issue_ok _ _ hp]
  rfl

/-- A register operation of the row whose turn it is, its charge paid. -/
theorem State.runReg_ok {s s1 : State} {r : Nat} {t t1 : Task} (n : Nat) (f : Task → Task) (hr : s.turn = .row r)
    (ht : s.task r = some t) (hp : s.pay t n = .ok s1 t1) : s.runReg n f = .next (s1.setTask (f t1).row (some (f t1))) :=
  State.runTask_ok (fun _ => n) _ hr ht hp

/-- An exit of the row whose turn it is, its charge paid. -/
theorem State.runExit_ok {s s1 : State} {r : Nat} {t t1 : Task} (body : State → Task → Body) (hr : s.turn = .row r)
    (ht : s.task r = some t) (hp : s.pay t (exitCost t) = .ok s1 t1) : s.runExit body = .next (match body s1 t1 with
      | .done s2 t2 => exitDone s2 t2
      | .stop r => s1.stopTask t1 r
      | .fault c d a => s1.faultTask t1 c d a
      | .faultAt s2 c d a => s2.faultTask t1 c d a
      | .miss va acc => (s1.setTask t.row (some { t1 with charged := true })).missRow t va acc) := by
  rw [State.runExit, State.onRow_row _ hr ht, State.issue_ok _ _ hp]

/-- A privileged instruction, its charge paid. -/
theorem State.runPriv_ok {s s1 : State} {r : Nat} {t t1 : Task} (body : State → Task → Body) (hr : s.turn = .row r)
    (ht : s.task r = some t) (hv : (s.ctx t.cx).any (fun x => x.setup.priv) = true) (hp : s.pay t 4 = .ok s1 t1) :
    s.runPriv body = .next (match body s1 t1 with
      | .done s2 t2 => s2.setTask t2.row (some t2)
      | .stop r => s1.stopTask t1 r
      | .fault c d a => s1.faultTask t1 c d a
      | .faultAt s2 c d a => s2.faultTask t1 c d a
      | .miss va acc => (s1.setTask t.row (some { t1 with charged := true })).missRow t va acc) := by
  rw [State.runPriv, State.onRow_row _ hr ht, if_pos hv, State.issue_ok _ _ hp]
  rfl

theorem State.runPriv_user {s : State} {r : Nat} {t : Task} (body : State → Task → Body) (hr : s.turn = .row r)
    (ht : s.task r = some t) (hv : (s.ctx t.cx).any (fun x => x.setup.priv) = false) : s.runPriv body = .next (s.stopTask t .illegal) := by
  rw [State.runPriv, State.onRow_row _ hr ht, hv, if_neg (by simp)]

/-! ## Addresses (R38) -/

/-- An access whose check fails stops. -/
theorem State.withAddr_stop (s : State) (t : Task) (sp : Nat) (ea : Word) (n acc lane : Nat) (k : State → Nat → List PEnt → Body) {r : Stop}
    (h : addrCheck sp ea n = some r) : s.withAddr t sp ea n acc lane k = .stop r := by simp [State.withAddr, h]

/-- An access to a lane slice. -/
theorem State.withAddr_lane (s : State) (t : Task) (ea : Word) (n acc lane : Nat) (k : State → Nat → List PEnt → Body)
    (h : addrCheck 1 ea n = none) : s.withAddr t 1 ea n acc lane k = k s (laneKey t.row lane ea.toNat) [] := by simp [State.withAddr, h]

/-- An access to a core memory within the context's ranges. -/
theorem State.withAddr_space (s : State) (t : Task) (sp : Nat) (ea : Word) (n acc lane : Nat) (k : State → Nat → List PEnt → Body)
    (h0 : sp ≠ 0) (h1 : sp ≠ 1) (h : addrCheck sp ea n = none) (hr : s.reachable t.cx t.core sp ea.toNat n = true) :
    s.withAddr t sp ea n acc lane k = k s (spaceKey sp t.core ea.toNat) [] := by simp [State.withAddr, h, h0, h1, hr]

/-- A translated access. -/
theorem State.withAddr_mem (s : State) (t : Task) (ea : Word) (n acc lane : Nat) (k : State → Nat → List PEnt → Body) {e : PEnt}
    (h : addrCheck 0 ea n = none) (hl : s.lookup t.row t.cx ea.toNat acc = some (.ok e)) :
    s.withAddr t 0 ea n acc lane k = k (s.usePort t.row e) (entKey e ea.toNat) [e] := by simp [State.withAddr, h, hl]

/-! ## Forecast operations (R270) -/

/-- An operation of the decision whose turn it is. -/
theorem State.runFc_ok {s : State} {die p : Nat} {d : Decision} (f : State → Fcast → Decision → Decision) (ht : s.turn = .forecast die p)
    (hd : (s.fcast (16 * die + p)).run = some d) (ho : d.ops < 128) :
    s.runFc f = .next (s.modFcast (16 * die + p) fun fc => { fc with run := some (f s fc { d with ops := d.ops + 1, pc := d.pc + 1 }) }) := by
  unfold State.runFc
  rw [ht]
  simp only [hd]
  rw [if_neg (by omega)]

/-- The 129th operation is an overrun. -/
theorem State.runFc_over {s : State} {die p : Nat} {d : Decision} (f : State → Fcast → Decision → Decision) (ht : s.turn = .forecast die p)
    (hd : (s.fcast (16 * die + p)).run = some d) (ho : 128 ≤ d.ops) : s.runFc f = .next (s.overrun die p d) := by
  unfold State.runFc
  rw [ht]
  simp only [hd]
  rw [if_pos ho]

/-! ## Commands and packets -/

theorem State.runCmd_engine {s : State} {cx k : Nat} (cost : State → Iss → Nat) (body : State → Iss → Eng CmdSt) (more : State → Iss → State)
    (ht : s.turn = .engine cx k) : s.runCmd cost body more = .next (s.engineTurn cx k cost body more) := by simp [State.runCmd, ht]

theorem State.onRing_ring {s : State} {cx : Nat} {x : Ctx} {c : Cur} (f : Nat → Ctx → Cur → State) (ht : s.turn = .ring cx)
    (hx : s.ctx cx = some x) (hc : x.cur = some c) : s.onRing f = .next (f cx x c) := by simp [State.onRing, ht, hx, hc]

theorem State.onPriv_priv {s : State} {cx : Nat} {x : Ctx} {c : Cur} (f : Nat → Ctx → Cur → State) (ht : s.turn = .ring cx)
    (hx : s.ctx cx = some x) (hc : x.cur = some c) (hv : x.setup.priv = true) : s.onPriv f = .next (f cx x c) := by
  rw [State.onPriv, State.onRing_ring _ ht hx hc, if_pos hv]

theorem State.onPriv_user {s : State} {cx : Nat} {x : Ctx} {c : Cur} (f : Nat → Ctx → Cur → State) (ht : s.turn = .ring cx)
    (hx : s.ctx cx = some x) (hc : x.cur = some c) (hv : x.setup.priv = false) : s.onPriv f = .next (s.endPkt cx c 4 0 0) := by
  rw [State.onPriv, State.onRing_ring _ ht hx hc, hv, if_neg (by simp)]

theorem State.onPart_has {s : State} {cx p : Nat} {x : Ctx} {c : Cur} (f : Nat → Ctx → Cur → State) (ht : s.turn = .ring cx)
    (hx : s.ctx cx = some x) (hc : x.cur = some c) (hv : x.setup.priv = true) (hp : s.hasPart p = true) : s.onPart p f = .next (f cx x c) := by
  rw [State.onPart, State.onPriv_priv _ ht hx hc hv, if_pos hp]

/-! ## Context faults (R324) -/

/-- The first fault of a context is recorded, and further ones are counted. -/
theorem State.fault_later {s : State} {cx : Nat} {x : Ctx} {f : FaultRec} (cls det core row addr pc : Nat) (succ : List Nat) (hx : s.ctx cx = some x)
    (hf : x.halt.fault = some f) :
    s.fault cx cls det core row addr pc succ = s.setCtx cx { x with halt := { x.halt with fault := some { f with nlate := sat32 (f.nlate + 1) } } } := by
  simp [State.fault, hx, hf]

theorem State.fault_none {s : State} {cx : Nat} (cls det core row addr pc : Nat) (succ : List Nat) (hx : s.ctx cx = none) :
    s.fault cx cls det core row addr pc succ = s := by simp [State.fault, hx]

end Sys2Proof.Machine
end

