-- ==== Sys2Proof/Laws/Memory.lean ====
section
/-! SUPPORT. Memory: every operation keeps the canonical form, a byte reads as it was last written, and a write leaves every other location. -/

namespace Sys2Proof.Machine

open Host (Cell)

/-! ## The canonical form as a proposition -/

/-- Every location of a memory lies above `k`. -/
def above (k : Nat) (m : List Cell) : Prop := ∀ c ∈ m, k < c.1

theorem wfMem_cons (a : Nat) (b : Byte) (t : List Cell) : Memory.wf ((a, b) :: t) = true ↔ b ≠ 0 ∧ above a t ∧ Memory.wf t = true := by
  simp [Memory.wf, above, and_assoc]

theorem above_mono {j k : Nat} (h : j ≤ k) {m : List Cell} (hm : above k m) : above j m := fun c hc => by have := hm c hc; omega

/-! ## One byte -/

theorem mem_putB {m : List Cell} {k : Nat} {b : Byte} {c : Cell} (h : c ∈ putB m k b) : c ∈ m ∨ c = (k, b) := by
  induction m with
  | nil => unfold putB at h; split at h <;> simp_all
  | cons e t ih =>
    obtain ⟨a, d⟩ := e
    unfold putB at h
    split at h
    · split at h
      · exact .inl h
      · rcases List.mem_cons.1 h with h | h
        · exact .inr h
        · exact .inl h
    · split at h
      · split at h
        · exact .inl (List.mem_cons_of_mem _ h)
        · rcases List.mem_cons.1 h with h | h
          · exact .inr h
          · exact .inl (List.mem_cons_of_mem _ h)
      · rcases List.mem_cons.1 h with h | h
        · exact .inl (h ▸ List.mem_cons_self ..)
        · rcases ih h with h | h
          · exact .inl (List.mem_cons_of_mem _ h)
          · exact .inr h

theorem wfMem_putB {m : List Cell} (k : Nat) (b : Byte) (h : Memory.wf m = true) : Memory.wf (putB m k b) = true := by
  induction m with
  | nil => unfold putB; split <;> simp_all [Memory.wf]
  | cons e t ih =>
    obtain ⟨a, d⟩ := e
    have ⟨h1, h2, h3⟩ := (wfMem_cons a d t).1 h
    unfold putB
    split
    · next hk =>
      split
      · exact h
      · next hb =>
        refine (wfMem_cons ..).2 ⟨hb, fun c hc => ?_, h⟩
        rcases List.mem_cons.1 hc with rfl | hc
        · exact hk
        · have := h2 c hc; omega
    · split
      · next hk =>
        split
        · exact h3
        · next hb => exact (wfMem_cons ..).2 ⟨hb, hk ▸ h2, h3⟩
      · next hk hne =>
        refine (wfMem_cons ..).2 ⟨h1, fun c hc => ?_, ih h3⟩
        rcases mem_putB hc with hc | rfl
        · exact h2 c hc
        · show a < k; omega

/-- A location below every listed one reads zero. -/
theorem getB_above {m : List Cell} {k : Nat} (h : above k m) : getB m k = 0 := by
  induction m with
  | nil => rfl
  | cons e t ih =>
    obtain ⟨a, b⟩ := e
    have h1 : k < a := h (a, b) (List.mem_cons_self ..)
    simp only [getB, if_neg (show ¬a = k by omega)]
    exact ih fun c hc => h c (List.mem_cons_of_mem _ hc)

/-- A byte reads as it was written; every other byte reads as before. -/
theorem getB_putB {m : List Cell} (h : Memory.wf m = true) (k j : Nat) (b : Byte) : getB (putB m k b) j = if j = k then b else getB m j := by
  induction m with
  | nil =>
    unfold putB
    split
    · next hb => simp [getB, hb]
    · by_cases hj : j = k
      · simp [getB, hj]
      · simp [getB, hj, show ¬k = j from fun h => hj h.symm]
  | cons e t ih =>
    obtain ⟨a, d⟩ := e
    have ⟨h1, h2, h3⟩ := (wfMem_cons a d t).1 h
    unfold putB
    split
    · next hk =>
      split
      · next hb =>
        by_cases hj : j = k
        · subst hj; rw [if_pos rfl, hb]
          exact getB_above fun c hc => by
            rcases List.mem_cons.1 hc with rfl | hc
            · exact hk
            · have := h2 c hc; omega
        · rw [if_neg hj]
      · by_cases hj : j = k
        · simp [getB, hj]
        · simp [getB, hj, show ¬k = j from fun h => hj h.symm]
    · split
      · next hk =>
        subst hk
        split
        · next hb =>
          by_cases hj : j = k
          · subst hj; rw [if_pos rfl, hb]; exact getB_above h2
          · rw [if_neg hj]; simp [getB, show ¬k = j from fun h => hj h.symm]
        · by_cases hj : j = k
          · simp [getB, hj]
          · simp [getB, hj, show ¬k = j from fun h => hj h.symm]
      · next hk hne =>
        simp only [getB]
        by_cases ha : a = j
        · have : ¬j = k := by omega
          simp [ha, this]
        · simp only [if_neg ha]; exact ih h3

/-! ## Many bytes -/

theorem wfMem_putCells {m : List Cell} (cs : List Cell) (h : Memory.wf m = true) : Memory.wf (putCells m cs) = true := by
  unfold putCells
  induction cs generalizing m with
  | nil => exact h
  | cons c t ih => exact ih (wfMem_putB c.1 c.2 h)

theorem above_filter {k : Nat} {m : List Cell} (p : Cell → Bool) (h : above k m) : above k (m.filter p) := fun c hc => h c (List.mem_filter.1 hc).1

theorem wfMem_filter {m : List Cell} (p : Cell → Bool) (h : Memory.wf m = true) : Memory.wf (m.filter p) = true := by
  induction m with
  | nil => rfl
  | cons e t ih =>
    obtain ⟨a, b⟩ := e
    have ⟨h1, h2, h3⟩ := (wfMem_cons a b t).1 h
    rw [List.filter_cons]
    split
    · exact (wfMem_cons ..).2 ⟨h1, above_filter p h2, ih h3⟩
    · exact ih h3

theorem wfMem_clearRange {m : List Cell} (k n : Nat) (h : Memory.wf m = true) : Memory.wf (clearRange m k n) = true := wfMem_filter _ h

/-- A location the bytes from `k` do not cover reads as before. -/
theorem getB_putCells_other {m : List Cell} (h : Memory.wf m = true) (cs : List Cell) (j : Nat) (hj : ∀ c ∈ cs, c.1 ≠ j) :
    getB (putCells m cs) j = getB m j := by
  unfold putCells
  induction cs generalizing m with
  | nil => rfl
  | cons c t ih =>
    rw [List.foldl_cons, ih (wfMem_putB c.1 c.2 h) fun d hd => hj d (List.mem_cons_of_mem _ hd), getB_putB h,
      if_neg fun e => hj c (List.mem_cons_self ..) e.symm]

theorem mem_cellsAt {k : Nat} {bs : List Byte} {c : Cell} (h : c ∈ cellsAt k bs) : k ≤ c.1 ∧ c.1 < k + bs.length := by
  induction bs generalizing k with
  | nil => simp [cellsAt] at h
  | cons b r ih =>
    rcases List.mem_cons.1 h with rfl | h
    · simp
    · have := ih h; simp only [List.length_cons]; omega

/-- The bytes laid from `k` read back; every other location reads as before. -/
theorem getB_cellsAt {m : List Cell} (h : Memory.wf m = true) (k : Nat) (bs : List Byte) (j : Nat) :
    getB (putCells m (cellsAt k bs)) j = if k ≤ j ∧ j < k + bs.length then bs.getD (j - k) 0 else getB m j := by
  induction bs generalizing m k with
  | nil => rw [if_neg (by simp)]; rfl
  | cons b r ih =>
    have e : putCells m (cellsAt k (b :: r)) = putCells (putB m k b) (cellsAt (k + 1) r) := rfl
    rw [e, ih (wfMem_putB k b h), getB_putB h, List.length_cons]
    by_cases hj : j = k
    · subst hj; simp
    · by_cases hr : k + 1 ≤ j ∧ j < k + 1 + r.length
      · rw [if_pos hr, if_pos (by omega), show j - k = (j - (k + 1)) + 1 by omega, List.getD_cons_succ]
      · rw [if_neg hr, if_neg hj, if_neg (by omega)]

/-! ## A range overwritten -/

theorem wfMem_append {a b : List Cell} (ha : Memory.wf a = true) (hb : Memory.wf b = true) (h : ∀ x ∈ a, ∀ y ∈ b, x.1 < y.1) : Memory.wf (a ++ b) = true := by
  induction a with
  | nil => exact hb
  | cons e t ih =>
    obtain ⟨k, v⟩ := e
    have ⟨h1, h2, h3⟩ := (wfMem_cons k v t).1 ha
    refine (wfMem_cons ..).2 ⟨h1, fun c hc => ?_, ih h3 fun x hx => h x (List.mem_cons_of_mem _ hx)⟩
    rcases List.mem_append.1 hc with hc | hc
    · exact h2 c hc
    · exact h (k, v) (List.mem_cons_self ..) c hc

theorem wfMem_cellsAt (k : Nat) (bs : List Byte) : Memory.wf ((cellsAt k bs).filter fun c => c.2 != 0) = true := by
  induction bs generalizing k with
  | nil => rfl
  | cons b r ih =>
    rw [cellsAt, List.filter_cons]
    split
    · next hb =>
      refine (wfMem_cons ..).2 ⟨by simpa using hb, fun c hc => ?_, ih (k + 1)⟩
      have := mem_cellsAt (List.mem_filter.1 hc).1
      omega
    · exact ih (k + 1)

theorem wfMem_setRange {m : List Cell} (k : Nat) (bs : List Byte) (h : Memory.wf m = true) : Memory.wf (setRange m k bs) = true := by
  unfold setRange
  refine wfMem_append (wfMem_append (wfMem_filter _ h) (wfMem_cellsAt k bs) fun x hx y hy => ?_) (wfMem_filter _ h) fun x hx y hy => ?_
  · have h1 := (List.mem_filter.1 hx).2
    have h2 := mem_cellsAt (List.mem_filter.1 hy).1
    simp only [decide_eq_true_eq] at h1
    omega
  · have h2 := (List.mem_filter.1 hy).2
    simp only [decide_eq_true_eq] at h2
    rcases List.mem_append.1 hx with hx | hx
    · have h1 := (List.mem_filter.1 hx).2
      simp only [decide_eq_true_eq] at h1
      omega
    · have h1 := mem_cellsAt (List.mem_filter.1 hx).1
      omega

theorem wfMem_swapTiles {m : List Cell} (n : Nat) (h : Memory.wf m = true) : Memory.wf (swapTiles m n) = true :=
  wfMem_setRange _ _ (wfMem_setRange _ _ (wfMem_setRange _ _ (wfMem_setRange _ _ h)))

theorem wfMem_fillTile {m : List Cell} (n d : Nat) (sc : Bool) (h : Memory.wf m = true) : Memory.wf (fillTile m n d sc) = true :=
  wfMem_setRange _ _ (wfMem_setRange _ _ h)

theorem wfMem_finishAcc {m : List Cell} (mm : MatMode) (f : Bool) (n r : Nat) (cs) (h : Memory.wf m = true) : Memory.wf (finishAcc mm f n r cs m) = true :=
  wfMem_setRange _ _ h

/-! ## The write of the memory model -/

@[simp] theorem State.fault_mem (s : State) (cx cls d core row a pc : Nat) (l : List Nat) : (s.fault cx cls d core row a pc l).mem = s.mem := by
  unfold State.fault; split
  · rfl
  · split <;> rfl

@[simp] theorem State.waitsBad_mem (s : State) (k n : Nat) : (s.waitsBad k n).mem = s.mem := by
  have h (l : List (Nat × Ctx)) (u : State) :
      (l.foldl (fun u e => (s.badWait k n e.2).elim u fun a => u.fault e.1 12 0 63 15 a 0 []) u).mem = u.mem := by
    induction l generalizing u with
    | nil => rfl
    | cons e r ih => rw [List.foldl_cons, ih]; cases s.badWait k n e.2 <;> simp
  exact h _ _

/-- What a context fault can change: the contexts, and the faults that wait for a decision. -/
theorem State.fault_frame (s : State) (cx cls d core row a pc : Nat) (l : List Nat) :
    ∃ cs fs, s.fault cx cls d core row a pc l = { s with ctxs := cs, fcasts := fs } := by
  unfold State.fault; split
  · exact ⟨s.ctxs, s.fcasts, rfl⟩
  · split <;> exact ⟨_, _, rfl⟩

/-- What the data errors of waits can change: the same. -/
theorem State.waitsBad_frame (s : State) (k n : Nat) : ∃ cs fs, s.waitsBad k n = { s with ctxs := cs, fcasts := fs } := by
  have h (l : List (Nat × Ctx)) (u : State) (hu : ∃ cs fs, u = { s with ctxs := cs, fcasts := fs }) :
      ∃ cs fs, l.foldl (fun u e => (s.badWait k n e.2).elim u fun a => u.fault e.1 12 0 63 15 a 0 []) u = { s with ctxs := cs, fcasts := fs } := by
    induction l generalizing u with
    | nil => exact hu
    | cons e r ih =>
      apply ih
      obtain ⟨cs, fs, rfl⟩ := hu
      dsimp only
      cases s.badWait k n e.2 with
      | none => exact ⟨cs, fs, rfl⟩
      | some a =>
        obtain ⟨cs2, fs2, h2⟩ := State.fault_frame { s with ctxs := cs, fcasts := fs } e.1 12 0 63 15 a 0 []
        exact ⟨cs2, fs2, h2⟩
  exact h _ _ ⟨s.ctxs, s.fcasts, rfl⟩

/-- Where no granule is poisoned no wait meets a data error. -/
theorem State.waitsBad_clean {s : State} (h : s.poison = []) (k n : Nat) : s.waitsBad k n = s := by
  have hb (x : Ctx) : s.badWait k n x = none := by simp [State.badWait, State.poisoned, h]
  have g (l : List (Nat × Ctx)) : l.foldl (fun u e => (s.badWait k n e.2).elim u fun a => u.fault e.1 12 0 63 15 a 0 []) s = s := by
    induction l with
    | nil => rfl
    | cons e r ih => rw [List.foldl_cons, hb]; exact ih
  exact g _

@[simp] theorem State.write_mem (s : State) (k : Nat) (bs : List Byte) : (s.write k bs).mem = putCells s.mem (cellsAt k bs) := by
  unfold State.write; simp only; split
  · rw [State.waitsBad_mem]
  · rfl

/-- What a write can change beside the memory: the poison it covers, what contexts wait for, the data errors of those waits, and stubs sent. -/
theorem State.write_frame (s : State) (k : Nat) (bs : List Byte) : ∃ po cs fs tx,
    s.write k bs = { s with mem := putCells s.mem (cellsAt k bs), poison := po, ctxs := cs, fcasts := fs, podTx := tx } := by
  unfold State.write; simp only; split
  · obtain ⟨cs, fs, h⟩ := State.waitsBad_frame _ k bs.length
    exact ⟨_, cs, fs, _, h⟩
  · exact ⟨_, s.ctxs, s.fcasts, s.podTx, rfl⟩

/-- A write keeps the canonical form. -/
theorem State.write_wf {s : State} (k : Nat) (bs : List Byte) (h : Memory.wf s.mem = true) : Memory.wf (s.write k bs).mem = true := by
  rw [State.write_mem]; exact wfMem_putCells _ h

/-- What a byte reads after a write. -/
theorem State.getB_write {s : State} (h : Memory.wf s.mem = true) (k : Nat) (bs : List Byte) (j : Nat) :
    getB (s.write k bs).mem j = if k ≤ j ∧ j < k + bs.length then bs.getD (j - k) 0 else getB s.mem j := by
  rw [State.write_mem]; exact getB_cellsAt h k bs j

end Sys2Proof.Machine
end

