-- ==== Sys2Proof/Laws/PerInstr.lean ====
section
/-! SUPPORT. Per instruction: its word fits the words of a task, 32 bits (R24); a step without a word has word 0. -/

set_option Elab.async false

namespace Sys2Proof.Laws.FitsWord

/-- The word of an instruction is a number of 32 bits. -/
def Statement (i : Instr) : Prop := encode i < 2 ^ 32

theorem add d a b : Statement (.add d a b) := by simp only [Statement, encode]; omega
theorem sub d a b : Statement (.sub d a b) := by simp only [Statement, encode]; omega
theorem mul d a b : Statement (.mul d a b) := by simp only [Statement, encode]; omega
theorem mulh d a b : Statement (.mulh d a b) := by simp only [Statement, encode]; omega
theorem mulhn d a b : Statement (.mulhn d a b) := by simp only [Statement, encode]; omega
theorem div d a b : Statement (.div d a b) := by simp only [Statement, encode]; omega
theorem divn d a b : Statement (.divn d a b) := by simp only [Statement, encode]; omega
theorem rem d a b : Statement (.rem d a b) := by simp only [Statement, encode]; omega
theorem remn d a b : Statement (.remn d a b) := by simp only [Statement, encode]; omega
theorem and d a b : Statement (.and d a b) := by simp only [Statement, encode]; omega
theorem or d a b : Statement (.or d a b) := by simp only [Statement, encode]; omega
theorem xor d a b : Statement (.xor d a b) := by simp only [Statement, encode]; omega
theorem andn d a b : Statement (.andn d a b) := by simp only [Statement, encode]; omega
theorem shl d a b : Statement (.shl d a b) := by simp only [Statement, encode]; omega
theorem shr d a b : Statement (.shr d a b) := by simp only [Statement, encode]; omega
theorem sar d a b : Statement (.sar d a b) := by simp only [Statement, encode]; omega
theorem min d a b : Statement (.min d a b) := by simp only [Statement, encode]; omega
theorem max d a b : Statement (.max d a b) := by simp only [Statement, encode]; omega
theorem minn d a b : Statement (.minn d a b) := by simp only [Statement, encode]; omega
theorem maxn d a b : Statement (.maxn d a b) := by simp only [Statement, encode]; omega
theorem slt d a b : Statement (.slt d a b) := by simp only [Statement, encode]; omega
theorem sltn d a b : Statement (.sltn d a b) := by simp only [Statement, encode]; omega
theorem seq d a b : Statement (.seq d a b) := by simp only [Statement, encode]; omega
theorem clz d a : Statement (.clz d a) := by simp only [Statement, encode]; omega
theorem popc d a : Statement (.popc d a) := by simp only [Statement, encode]; omega
theorem bext d a b : Statement (.bext d a b) := by simp only [Statement, encode]; omega
theorem bdep d a b : Statement (.bdep d a b) := by simp only [Statement, encode]; omega
theorem sext d a w : Statement (.sext d a w) := by simp only [Statement, encode]; omega
theorem zext d a w : Statement (.zext d a w) := by simp only [Statement, encode]; omega
theorem addi d a i : Statement (.addi d a i) := by simp only [Statement, encode]; omega
theorem andi d a i : Statement (.andi d a i) := by simp only [Statement, encode]; omega
theorem ori d a i : Statement (.ori d a i) := by simp only [Statement, encode]; omega
theorem xori d a i : Statement (.xori d a i) := by simp only [Statement, encode]; omega
theorem shli d a n : Statement (.shli d a n) := by simp only [Statement, encode]; omega
theorem shri d a n : Statement (.shri d a n) := by simp only [Statement, encode]; omega
theorem sari d a n : Statement (.sari d a n) := by simp only [Statement, encode]; omega
theorem lui d i : Statement (.lui d i) := by simp only [Statement, encode]; omega
theorem slti d a i : Statement (.slti d a i) := by simp only [Statement, encode]; omega
theorem fadd d a b m w : Statement (.fadd d a b m w) := by simp only [Statement, encode]; omega
theorem fsub d a b m w : Statement (.fsub d a b m w) := by simp only [Statement, encode]; omega
theorem fmul d a b m w : Statement (.fmul d a b m w) := by simp only [Statement, encode]; omega
theorem fdiv d a b m w : Statement (.fdiv d a b m w) := by simp only [Statement, encode]; omega
theorem fsqrt d a m w : Statement (.fsqrt d a m w) := by simp only [Statement, encode]; omega
theorem frsq d a m w : Statement (.frsq d a m w) := by simp only [Statement, encode]; omega
theorem fmin d a b w : Statement (.fmin d a b w) := by simp only [Statement, encode]; omega
theorem fmax d a b w : Statement (.fmax d a b w) := by simp only [Statement, encode]; omega
theorem fcvt d a c m w : Statement (.fcvt d a c m w) := by simp only [Statement, encode]; omega
theorem fcmpEq d a b w : Statement (.fcmpEq d a b w) := by simp only [Statement, encode]; omega
theorem fcmpLt d a b w : Statement (.fcmpLt d a b w) := by simp only [Statement, encode]; omega
theorem fcmpLe d a b w : Statement (.fcmpLe d a b w) := by simp only [Statement, encode]; omega
theorem fcmpUn d a b w : Statement (.fcmpUn d a b w) := by simp only [Statement, encode]; omega
theorem fclass d a w : Statement (.fclass d a w) := by simp only [Statement, encode]; omega
theorem fma d a b m w : Statement (.fma d a b m w) := by simp only [Statement, encode]; omega
theorem mfs d n : Statement (.mfs d n) := by simp only [Statement, encode]; omega
theorem mts a n : Statement (.mts a n) := by simp only [Statement, encode]; omega
theorem ld x b s w o : Statement (.ld x b s w o) := by simp only [Statement, encode]; omega
theorem st x b s w o : Statement (.st x b s w o) := by simp only [Statement, encode]; omega
theorem vld x b s o : Statement (.vld x b s o) := by simp only [Statement, encode]; omega
theorem vgld x b s o : Statement (.vgld x b s o) := by simp only [Statement, encode]; omega
theorem vst x b s o : Statement (.vst x b s o) := by simp only [Statement, encode]; omega
theorem vlds x b o : Statement (.vlds x b o) := by simp only [Statement, encode]; omega
theorem vldsIx x b o : Statement (.vldsIx x b o) := by simp only [Statement, encode]; omega
theorem vsts x b o : Statement (.vsts x b o) := by simp only [Statement, encode]; omega
theorem lutx d a b k : Statement (.lutx d a b k) := by simp only [Statement, encode]; omega
theorem lutld a : Statement (.lutld a) := by simp only [Statement, encode]; omega
theorem beq a b d : Statement (.beq a b d) := by simp only [Statement, encode]; omega
theorem bne a b d : Statement (.bne a b d) := by simp only [Statement, encode]; omega
theorem blt a b d : Statement (.blt a b d) := by simp only [Statement, encode]; omega
theorem bge a b d : Statement (.bge a b d) := by simp only [Statement, encode]; omega
theorem bltn a b d : Statement (.bltn a b d) := by simp only [Statement, encode]; omega
theorem bgen a b d : Statement (.bgen a b d) := by simp only [Statement, encode]; omega
theorem bdnz a d : Statement (.bdnz a d) := by simp only [Statement, encode]; omega
theorem jal d : Statement (.jal d) := by simp only [Statement, encode]; omega
theorem jalr d a i : Statement (.jalr d a i) := by simp only [Statement, encode]; omega
theorem charge d a n : Statement (.charge d a n) := by simp only [Statement, encode]; omega
theorem mcs d s : Statement (.mcs d s) := by simp only [Statement, encode]; omega
theorem crd d a h o : Statement (.crd d a h o) := by simp only [Statement, encode]; omega
theorem crdt d a h o : Statement (.crdt d a h o) := by simp only [Statement, encode]; omega
theorem cwr d a h o : Statement (.cwr d a h o) := by simp only [Statement, encode]; omega
theorem cwrt t a h o : Statement (.cwrt t a h o) := by simp only [Statement, encode]; omega
theorem advR a h o : Statement (.advR a h o) := by simp only [Statement, encode]; omega
theorem advW a h o : Statement (.advW a h o) := by simp only [Statement, encode]; omega
theorem emit a q : Statement (.emit a q) := by simp only [Statement, encode]; omega
theorem exit n f : Statement (.exit n f) := by simp only [Statement, encode]; omega
theorem xwait s a v c : Statement (.xwait s a v c) := by simp only [Statement, encode]; omega
theorem xbar c s n : Statement (.xbar c s n) := by simp only [Statement, encode]; omega
theorem xamo s a v o w : Statement (.xamo s a v o w) := by simp only [Statement, encode]; omega
theorem xstop : Statement .xstop := by unfold Statement; decide
theorem sadd s a b w : Statement (.sadd s a b w) := by simp only [Statement, encode]; omega
theorem smin s a b w : Statement (.smin s a b w) := by simp only [Statement, encode]; omega
theorem smax s a b w : Statement (.smax s a b w) := by simp only [Statement, encode]; omega
theorem sor s a b w : Statement (.sor s a b w) := by simp only [Statement, encode]; omega
theorem sand s a b w : Statement (.sand s a b w) := by simp only [Statement, encode]; omega
theorem sfadd s a b : Statement (.sfadd s a b) := by simp only [Statement, encode]; omega
theorem fenceAcq s : Statement (.fenceAcq s) := by simp only [Statement, encode]; omega
theorem tlbiPage a s : Statement (.tlbiPage a s) := by simp only [Statement, encode]; omega
theorem tlbiCtx s : Statement (.tlbiCtx s) := by simp only [Statement, encode]; omega
theorem tlbiPart s : Statement (.tlbiPart s) := by simp only [Statement, encode]; omega
theorem ptsync : Statement .ptsync := by unfold Statement; decide
theorem trap c : Statement (.trap c) := by simp only [Statement, encode]; omega
theorem brk : Statement .brk := by unfold Statement; decide
theorem vadd d a b k t : Statement (.vadd d a b k t) := by simp only [Statement, encode]; omega
theorem vsub d a b k t : Statement (.vsub d a b k t) := by simp only [Statement, encode]; omega
theorem vmul d a b k t : Statement (.vmul d a b k t) := by simp only [Statement, encode]; omega
theorem vmulh d a b k t : Statement (.vmulh d a b k t) := by simp only [Statement, encode]; omega
theorem vadds d a b k t : Statement (.vadds d a b k t) := by simp only [Statement, encode]; omega
theorem vsubs d a b k t : Statement (.vsubs d a b k t) := by simp only [Statement, encode]; omega
theorem vmin d a b k t : Statement (.vmin d a b k t) := by simp only [Statement, encode]; omega
theorem vmax d a b k t : Statement (.vmax d a b k t) := by simp only [Statement, encode]; omega
theorem vand d a b k t : Statement (.vand d a b k t) := by simp only [Statement, encode]; omega
theorem vor d a b k t : Statement (.vor d a b k t) := by simp only [Statement, encode]; omega
theorem vxor d a b k t : Statement (.vxor d a b k t) := by simp only [Statement, encode]; omega
theorem vandn d a b k t : Statement (.vandn d a b k t) := by simp only [Statement, encode]; omega
theorem vshl d a b k t : Statement (.vshl d a b k t) := by simp only [Statement, encode]; omega
theorem vshr d a b k t : Statement (.vshr d a b k t) := by simp only [Statement, encode]; omega
theorem vsar d a b k t : Statement (.vsar d a b k t) := by simp only [Statement, encode]; omega
theorem vabsd d a b k t : Statement (.vabsd d a b k t) := by simp only [Statement, encode]; omega
theorem vclz d a k t : Statement (.vclz d a k t) := by simp only [Statement, encode]; omega
theorem vpopc d a k t : Statement (.vpopc d a k t) := by simp only [Statement, encode]; omega
theorem vpack d a b k t : Statement (.vpack d a b k t) := by simp only [Statement, encode]; omega
theorem vunpack d a p k t : Statement (.vunpack d a p k t) := by simp only [Statement, encode]; omega
theorem vfadd d a b k t : Statement (.vfadd d a b k t) := by simp only [Statement, encode]; omega
theorem vfsub d a b k t : Statement (.vfsub d a b k t) := by simp only [Statement, encode]; omega
theorem vfmul d a b k t : Statement (.vfmul d a b k t) := by simp only [Statement, encode]; omega
theorem vfmin d a b k t : Statement (.vfmin d a b k t) := by simp only [Statement, encode]; omega
theorem vfmax d a b k t : Statement (.vfmax d a b k t) := by simp only [Statement, encode]; omega
theorem vfms d a b k t : Statement (.vfms d a b k t) := by simp only [Statement, encode]; omega
theorem vfnma d a b k t : Statement (.vfnma d a b k t) := by simp only [Statement, encode]; omega
theorem vscale d a b k t : Statement (.vscale d a b k t) := by simp only [Statement, encode]; omega
theorem vfma d a b c k t : Statement (.vfma d a b c k t) := by simp only [Statement, encode]; omega
theorem vcvt d a s i k p r t : Statement (.vcvt d a s i k p r t) := by simp only [Statement, encode]; omega
theorem vcvtSr d a s i k p t : Statement (.vcvtSr d a s i k p t) := by simp only [Statement, encode]; omega
theorem vrsum d a k t : Statement (.vrsum d a k t) := by simp only [Statement, encode]; omega
theorem vrmin d a k t : Statement (.vrmin d a k t) := by simp only [Statement, encode]; omega
theorem vrmax d a k t : Statement (.vrmax d a k t) := by simp only [Statement, encode]; omega
theorem vrfsum d a k t : Statement (.vrfsum d a k t) := by simp only [Statement, encode]; omega
theorem vscan d a k t : Statement (.vscan d a k t) := by simp only [Statement, encode]; omega
theorem vperm d a b k : Statement (.vperm d a b k) := by simp only [Statement, encode]; omega
theorem vshuf d a b k : Statement (.vshuf d a b k) := by simp only [Statement, encode]; omega
theorem vrot d a n k : Statement (.vrot d a n k) := by simp only [Statement, encode]; omega
theorem vnbr d a n k : Statement (.vnbr d a n k) := by simp only [Statement, encode]; omega
theorem vcmpEq d a b k t : Statement (.vcmpEq d a b k t) := by simp only [Statement, encode]; omega
theorem vcmpNe d a b k t : Statement (.vcmpNe d a b k t) := by simp only [Statement, encode]; omega
theorem vcmpLt d a b k t : Statement (.vcmpLt d a b k t) := by simp only [Statement, encode]; omega
theorem vcmpLe d a b k t : Statement (.vcmpLe d a b k t) := by simp only [Statement, encode]; omega
theorem vfcmpEq d a b k t : Statement (.vfcmpEq d a b k t) := by simp only [Statement, encode]; omega
theorem vfcmpLt d a b k t : Statement (.vfcmpLt d a b k t) := by simp only [Statement, encode]; omega
theorem vfcmpLe d a b k t : Statement (.vfcmpLe d a b k t) := by simp only [Statement, encode]; omega
theorem vfcmpUn d a b k t : Statement (.vfcmpUn d a b k t) := by simp only [Statement, encode]; omega
theorem vbcst d a k t : Statement (.vbcst d a k t) := by simp only [Statement, encode]; omega
theorem vins d a n t : Statement (.vins d a n t) := by simp only [Statement, encode]; omega
theorem vext d a n t : Statement (.vext d a n t) := by simp only [Statement, encode]; omega
theorem vmov d a k : Statement (.vmov d a k) := by simp only [Statement, encode]; omega
theorem vli d i : Statement (.vli d i) := by simp only [Statement, encode]; omega
theorem vlih d i : Statement (.vlih d i) := by simp only [Statement, encode]; omega
theorem vlui d i : Statement (.vlui d i) := by simp only [Statement, encode]; omega
theorem vorli d i : Statement (.vorli d i) := by simp only [Statement, encode]; omega
theorem vaddi d i : Statement (.vaddi d i) := by simp only [Statement, encode]; omega
theorem vsel d a b k : Statement (.vsel d a b k) := by simp only [Statement, encode]; omega
theorem kand d a b : Statement (.kand d a b) := by simp only [Statement, encode]; omega
theorem kor d a b : Statement (.kor d a b) := by simp only [Statement, encode]; omega
theorem knot d a : Statement (.knot d a) := by simp only [Statement, encode]; omega
theorem kmov d a : Statement (.kmov d a) := by simp only [Statement, encode]; omega
theorem kmovFromScalar d a : Statement (.kmovFromScalar d a) := by simp only [Statement, encode]; omega
theorem kmovToScalar d a : Statement (.kmovToScalar d a) := by simp only [Statement, encode]; omega
theorem vrcp d a k t : Statement (.vrcp d a k t) := by simp only [Statement, encode]; omega
theorem vrsq d a k t : Statement (.vrsq d a k t) := by simp only [Statement, encode]; omega
theorem vexp2 d a k t : Statement (.vexp2 d a k t) := by simp only [Statement, encode]; omega
theorem vlog2 d a k t : Statement (.vlog2 d a k t) := by simp only [Statement, encode]; omega
theorem vtanh d a k t : Statement (.vtanh d a k t) := by simp only [Statement, encode]; omega
theorem fcLdi d n : Statement (.fcLdi d n) := by simp only [Statement, encode]; omega
theorem fcLdq d n : Statement (.fcLdq d n) := by simp only [Statement, encode]; omega
theorem fcLdp d n : Statement (.fcLdp d n) := by simp only [Statement, encode]; omega
theorem fcLde d n : Statement (.fcLde d n) := by simp only [Statement, encode]; omega
theorem fcLds d n : Statement (.fcLds d n) := by simp only [Statement, encode]; omega
theorem fcSto d n : Statement (.fcSto d n) := by simp only [Statement, encode]; omega
theorem fcAdd d s : Statement (.fcAdd d s) := by simp only [Statement, encode]; omega
theorem fcSub d s : Statement (.fcSub d s) := by simp only [Statement, encode]; omega
theorem fcShl d n : Statement (.fcShl d n) := by simp only [Statement, encode]; omega
theorem fcShr d n : Statement (.fcShr d n) := by simp only [Statement, encode]; omega
theorem fcAnd d s : Statement (.fcAnd d s) := by simp only [Statement, encode]; omega
theorem fcOr d s : Statement (.fcOr d s) := by simp only [Statement, encode]; omega
theorem fcMin d s : Statement (.fcMin d s) := by simp only [Statement, encode]; omega
theorem fcMax d s : Statement (.fcMax d s) := by simp only [Statement, encode]; omega
theorem fcSel d c s : Statement (.fcSel d c s) := by simp only [Statement, encode]; omega
theorem fcJmp n : Statement (.fcJmp n) := by simp only [Statement, encode]; omega
theorem fcJz d n : Statement (.fcJz d n) := by simp only [Statement, encode]; omega
theorem fcJnz d n : Statement (.fcJnz d n) := by simp only [Statement, encode]; omega
theorem fcJlt d n : Statement (.fcJlt d n) := by simp only [Statement, encode]; omega
theorem fcNextq d r : Statement (.fcNextq d r) := by simp only [Statement, encode]; omega
theorem fcPickmin d n : Statement (.fcPickmin d n) := by simp only [Statement, encode]; omega
theorem fcPickmax d n : Statement (.fcPickmax d n) := by simp only [Statement, encode]; omega
theorem fcDisp : Statement .fcDisp := by unfold Statement; decide
theorem fcPreempt d : Statement (.fcPreempt d) := by simp only [Statement, encode]; omega
theorem fcFaultact d : Statement (.fcFaultact d) := by simp only [Statement, encode]; omega
theorem fcDefer : Statement .fcDefer := by unfold Statement; decide
theorem fcEnd : Statement .fcEnd := by unfold Statement; decide
theorem copy h o : Statement (.copy h o) := Nat.pow_pos (by decide)
theorem copy2d h o : Statement (.copy2d h o) := Nat.pow_pos (by decide)
theorem copyc h o : Statement (.copyc h o) := Nat.pow_pos (by decide)
theorem gather h o : Statement (.gather h o) := Nat.pow_pos (by decide)
theorem scatter h o : Statement (.scatter h o) := Nat.pow_pos (by decide)
theorem deck h o : Statement (.deck h o) := Nat.pow_pos (by decide)
theorem bload h o : Statement (.bload h o) := Nat.pow_pos (by decide)
theorem mxt h o : Statement (.mxt h o) := Nat.pow_pos (by decide)
theorem mxdrain h o : Statement (.mxdrain h o) := Nat.pow_pos (by decide)
theorem coll h o : Statement (.coll h o) := Nat.pow_pos (by decide)
theorem intake h o : Statement (.intake h o) := Nat.pow_pos (by decide)
theorem window h o : Statement (.window h o) := Nat.pow_pos (by decide)
theorem note h o : Statement (.note h o) := Nat.pow_pos (by decide)
theorem qfence h o : Statement (.qfence h o) := Nat.pow_pos (by decide)
theorem launch o : Statement (.launch o) := Nat.pow_pos (by decide)
theorem pipe o : Statement (.pipe o) := Nat.pow_pos (by decide)
theorem cmd o : Statement (.cmd o) := Nat.pow_pos (by decide)
theorem signal o : Statement (.signal o) := Nat.pow_pos (by decide)
theorem wait o : Statement (.wait o) := Nat.pow_pos (by decide)
theorem receipt o : Statement (.receipt o) := Nat.pow_pos (by decide)
theorem policyLoad o : Statement (.policyLoad o) := Nat.pow_pos (by decide)
theorem policySwap : Statement (.policySwap) := Nat.pow_pos (by decide)
theorem partCores o : Statement (.partCores o) := Nat.pow_pos (by decide)
theorem partPool o : Statement (.partPool o) := Nat.pow_pos (by decide)
theorem partCache o : Statement (.partCache o) := Nat.pow_pos (by decide)
theorem partQueue o : Statement (.partQueue o) := Nat.pow_pos (by decide)
theorem partLimits o : Statement (.partLimits o) := Nat.pow_pos (by decide)
theorem partVf o : Statement (.partVf o) := Nat.pow_pos (by decide)
theorem partDrop o : Statement (.partDrop o) := Nat.pow_pos (by decide)
theorem partCtx o : Statement (.partCtx o) := Nat.pow_pos (by decide)
theorem poolRefill part : Statement (.poolRefill part) := Nat.pow_pos (by decide)
theorem overrun die part : Statement (.overrun die part) := Nat.pow_pos (by decide)
theorem segmentLink cx qsel : Statement (.segmentLink cx qsel) := Nat.pow_pos (by decide)
theorem queueRoom row : Statement (.queueRoom row) := Nat.pow_pos (by decide)
theorem tlbiComplete row : Statement (.tlbiComplete row) := Nat.pow_pos (by decide)
theorem activationReady cx act : Statement (.activationReady cx act) := Nat.pow_pos (by decide)
theorem isobarRound cx act : Statement (.isobarRound cx act) := Nat.pow_pos (by decide)
theorem decision die part : Statement (.decision die part) := Nat.pow_pos (by decide)
theorem deferInterval die part : Statement (.deferInterval die part) := Nat.pow_pos (by decide)
theorem lullResume core : Statement (.lullResume core) := Nat.pow_pos (by decide)
theorem rowGate row : Statement (.rowGate row) := Nat.pow_pos (by decide)
theorem walk port : Statement (.walk port) := Nat.pow_pos (by decide)
theorem drainLimit port : Statement (.drainLimit port) := Nat.pow_pos (by decide)
theorem faultLimit port : Statement (.faultLimit port) := Nat.pow_pos (by decide)
theorem replay port : Statement (.replay port) := Nat.pow_pos (by decide)
theorem windowFill die tile slot : Statement (.windowFill die tile slot) := Nat.pow_pos (by decide)
theorem faultRecordWrite cx : Statement (.faultRecordWrite cx) := Nat.pow_pos (by decide)
theorem machineCheck die : Statement (.machineCheck die) := Nat.pow_pos (by decide)
theorem schedulerEccError site : Statement (.schedulerEccError site) := Nat.pow_pos (by decide)
theorem sliceEnd part : Statement (.sliceEnd part) := Nat.pow_pos (by decide)
theorem sliceStart part : Statement (.sliceStart part) := Nat.pow_pos (by decide)
theorem scrollSaveComplete row : Statement (.scrollSaveComplete row) := Nat.pow_pos (by decide)
theorem scrollRestoreComplete row : Statement (.scrollRestoreComplete row) := Nat.pow_pos (by decide)
theorem frontDispatch row : Statement (.frontDispatch row) := Nat.pow_pos (by decide)
theorem frontIsobarRound row : Statement (.frontIsobarRound row) := Nat.pow_pos (by decide)
theorem commandComplete cx queue seq : Statement (.commandComplete cx queue seq) := Nat.pow_pos (by decide)
theorem collectiveResult inst : Statement (.collectiveResult inst) := Nat.pow_pos (by decide)
theorem messageDecided die place : Statement (.messageDecided die place) := Nat.pow_pos (by decide)
theorem messageDelivery die : Statement (.messageDelivery die) := Nat.pow_pos (by decide)
theorem doorbellWrite vf cx n : Statement (.doorbellWrite vf cx n) := Nat.pow_pos (by decide)
theorem waitTimeout cx : Statement (.waitTimeout cx) := Nat.pow_pos (by decide)
theorem receiptFinish cx : Statement (.receiptFinish cx) := Nat.pow_pos (by decide)
theorem batchClose : Statement (.batchClose) := Nat.pow_pos (by decide)
theorem contextResume cx : Statement (.contextResume cx) := Nat.pow_pos (by decide)
theorem hostHalt cx : Statement (.hostHalt cx) := Nat.pow_pos (by decide)
theorem resumeWithRewind cx : Statement (.resumeWithRewind cx) := Nat.pow_pos (by decide)
theorem exportCtx cx : Statement (.exportCtx cx) := Nat.pow_pos (by decide)
theorem importCtx cx : Statement (.importCtx cx) := Nat.pow_pos (by decide)
theorem releaseStubs cx : Statement (.releaseStubs cx) := Nat.pow_pos (by decide)
theorem claim vf bank : Statement (.claim vf bank) := Nat.pow_pos (by decide)
theorem release vf bank : Statement (.release vf bank) := Nat.pow_pos (by decide)
theorem clearCounters vf bank : Statement (.clearCounters vf bank) := Nat.pow_pos (by decide)
theorem counterLowRead vf bank k : Statement (.counterLowRead vf bank k) := Nat.pow_pos (by decide)
theorem voltageReportRead die : Statement (.voltageReportRead die) := Nat.pow_pos (by decide)
theorem voltageReportClear die : Statement (.voltageReportClear die) := Nat.pow_pos (by decide)
theorem debugStop cx : Statement (.debugStop cx) := Nat.pow_pos (by decide)
theorem debugRelease cx : Statement (.debugRelease cx) := Nat.pow_pos (by decide)
theorem liveDump cx : Statement (.liveDump cx) := Nat.pow_pos (by decide)
theorem registerWrite vf off v : Statement (.registerWrite vf off v) := Nat.pow_pos (by decide)
theorem powerOn : Statement (.powerOn) := Nat.pow_pos (by decide)
theorem startUpRequest : Statement (.startUpRequest) := Nat.pow_pos (by decide)
theorem dieReset die : Statement (.dieReset die) := Nat.pow_pos (by decide)
theorem feedLoss feed : Statement (.feedLoss feed) := Nat.pow_pos (by decide)
theorem feedReturn feed : Statement (.feedReturn feed) := Nat.pow_pos (by decide)
theorem powerLoss : Statement (.powerLoss) := Nat.pow_pos (by decide)
theorem powerWindow mean island : Statement (.powerWindow mean island) := Nat.pow_pos (by decide)
theorem powerCapSet watts : Statement (.powerCapSet watts) := Nat.pow_pos (by decide)
theorem lvlcapSet island level : Statement (.lvlcapSet island level) := Nat.pow_pos (by decide)
theorem sensorRead sensor : Statement (.sensorRead sensor) := Nat.pow_pos (by decide)
theorem getVersion : Statement (.getVersion) := Nat.pow_pos (by decide)
theorem getCapabilities : Statement (.getCapabilities) := Nat.pow_pos (by decide)
theorem negotiateAlgorithms sha256 slhDsa : Statement (.negotiateAlgorithms sha256 slhDsa) := Nat.pow_pos (by decide)
theorem getDigests : Statement (.getDigests) := Nat.pow_pos (by decide)
theorem getCertificate slot off len : Statement (.getCertificate slot off len) := Nat.pow_pos (by decide)
theorem challenge slot nonce : Statement (.challenge slot nonce) := Nat.pow_pos (by decide)
theorem getMeasurements index : Statement (.getMeasurements index) := Nat.pow_pos (by decide)
theorem configurationRequest off : Statement (.configurationRequest off) := Nat.pow_pos (by decide)
theorem cxlMemRead dec addr size : Statement (.cxlMemRead dec addr size) := Nat.pow_pos (by decide)
theorem cxlMemWrite dec addr size v : Statement (.cxlMemWrite dec addr size v) := Nat.pow_pos (by decide)
theorem flitReceive flit : Statement (.flitReceive flit) := Nat.pow_pos (by decide)
theorem timeFlit master : Statement (.timeFlit master) := Nat.pow_pos (by decide)
theorem portDown port : Statement (.portDown port) := Nat.pow_pos (by decide)
theorem routeReturn dest port : Statement (.routeReturn dest port) := Nat.pow_pos (by decide)
theorem voltageMinimum die mv sensor island : Statement (.voltageMinimum die mv sensor island) := Nat.pow_pos (by decide)
theorem routeTableLoad table : Statement (.routeTableLoad table) := Nat.pow_pos (by decide)
theorem collectiveFaultLimit inst : Statement (.collectiveFaultLimit inst) := Nat.pow_pos (by decide)

end Sys2Proof.Laws.FitsWord
end

