-- ==== Sys2Proof/Tests/Slice0.lean ====
section
/-! SUPPORT. Tests: what the encodings' words decode to, what WellFormed refuses, single steps of small states, and for every statement with
hypotheses a state that meets them. -/

set_option Elab.async false

namespace Sys2Proof.Tests

open Sys2Proof Sys2Proof.Machine Sys2Proof.Safety

/-- A number from its 64-bit doublewords, lowest first. -/
def dw : List Nat → Nat
  | [] => 0
  | x :: r => x + 2 ^ 64 * dw r

/-! ## Decoding: each word is written field by field from the spec's encoding of it. -/

/-- Forecast words, from the encodings of R270, R273, R274, R289, R290, R291, R292, R293, R294, R297. -/
theorem test_decode_forecast_a : ∀ e ∈ [(0b00001_110_11001000, Instr.fcLdi 6 200),
    (0b00010_110_00000101, .fcLdq 6 5),
    (0b00011_110_00000111, .fcLdp 6 7),
    (0b00100_110_00000100, .fcLde 6 4),
    (0b00101_110_0000_1011, .fcLds 6 11),
    (0b00110_110_0000_1110, .fcSto 6 14),
    (0b00111_110_00000_010, .fcAdd 6 2),
    (0b01000_110_00000_010, .fcSub 6 2),
    (0b01001_110_000_10011, .fcShl 6 19),
    (0b01010_110_000_11110, .fcShr 6 30)], decodeForecast e.1 = some e.2 := by decide

/-- Forecast words, from the encodings of R270, R273, R274, R289, R290, R291, R292, R293, R294, R297. -/
theorem test_decode_forecast_b : ∀ e ∈ [(0b01011_110_00000_010, Instr.fcAnd 6 2),
    (0b01100_110_00000_010, .fcOr 6 2),
    (0b01101_110_00000_010, .fcMin 6 2),
    (0b01110_110_00000_010, .fcMax 6 2),
    (0b01111_110_00_101_010, .fcSel 6 5 2),
    (0b10000000_11001000, .fcJmp 200),
    (0b10001_110_11001000, .fcJz 6 200),
    (0b10010_110_11001000, .fcJnz 6 200),
    (0b10011_110_11001000, .fcJlt 6 200),
    (0b10100_110_0000000_1, .fcNextq 6 1)], decodeForecast e.1 = some e.2 := by decide

/-- Forecast words, from the encodings of R270, R273, R274, R289, R290, R291, R292, R293, R294, R297. -/
theorem test_decode_forecast_c : ∀ e ∈ [(0b10101_110_00000010, Instr.fcPickmin 6 2),
    (0b10110_110_00001011, .fcPickmax 6 11),
    (0b1011100000000000, .fcDisp),
    (0b11000_110_00000000, .fcPreempt 6),
    (0b11001_110_00000000, .fcFaultact 6),
    (0b1101000000000000, .fcDefer),
    (0b1101100000000000, .fcEnd)], decodeForecast e.1 = some e.2 := by decide

/-- Words of major opcode 0x01, from the encodings of R85, R86. -/
theorem test_decode_op01_a : ∀ e ∈ [(0b000001_00011_10101_01010_00000000000, Instr.add 3 21 10),
    (0b000001_00011_10101_01010_00000001000, .sub 3 21 10),
    (0b000001_00011_10101_01010_00000010000, .mul 3 21 10),
    (0b000001_00011_10101_01010_00000011000, .mulh 3 21 10),
    (0b000001_00011_10101_01010_00000100000, .mulhn 3 21 10),
    (0b000001_00011_10101_01010_00000101000, .div 3 21 10),
    (0b000001_00011_10101_01010_00000110000, .divn 3 21 10),
    (0b000001_00011_10101_01010_00000111000, .rem 3 21 10),
    (0b000001_00011_10101_01010_00001000000, .remn 3 21 10),
    (0b000001_00011_10101_01010_00001001000, .and 3 21 10)], decodeTask e.1 = some e.2 := by decide

/-- Words of major opcode 0x01, from the encodings of R85, R86. -/
theorem test_decode_op01_b : ∀ e ∈ [(0b000001_00011_10101_01010_00001010000, Instr.or 3 21 10),
    (0b000001_00011_10101_01010_00001011000, .xor 3 21 10),
    (0b000001_00011_10101_01010_00001100000, .andn 3 21 10),
    (0b000001_00011_10101_01010_00001101000, .shl 3 21 10),
    (0b000001_00011_10101_01010_00001110000, .shr 3 21 10),
    (0b000001_00011_10101_01010_00001111000, .sar 3 21 10),
    (0b000001_00011_10101_01010_00010000000, .min 3 21 10),
    (0b000001_00011_10101_01010_00010001000, .max 3 21 10),
    (0b000001_00011_10101_01010_00010010000, .minn 3 21 10),
    (0b000001_00011_10101_01010_00010011000, .maxn 3 21 10)], decodeTask e.1 = some e.2 := by decide

/-- Words of major opcode 0x01, from the encodings of R85, R86. -/
theorem test_decode_op01_c : ∀ e ∈ [(0b000001_00011_10101_01010_00010100000, Instr.slt 3 21 10),
    (0b000001_00011_10101_01010_00010101000, .sltn 3 21 10),
    (0b000001_00011_10101_01010_00010110000, .seq 3 21 10),
    (0b000001_00011_10101_0000000010111000, .clz 3 21),
    (0b000001_00011_10101_0000000011000000, .popc 3 21),
    (0b000001_00011_10101_01010_00011001000, .bext 3 21 10),
    (0b000001_00011_10101_01010_00011010000, .bdep 3 21 10),
    (0b000001_00011_10101_0000000011011_001, .sext 3 21 1),
    (0b000001_00011_10101_0000000011100_001, .zext 3 21 1)], decodeTask e.1 = some e.2 := by decide

/-- Words of major opcode 0x02, from the encodings of R87. -/
theorem test_decode_op02 : ∀ e ∈ [(0b000010_00011_10101_1011111011101111, Instr.addi 3 21 48879)], decodeTask e.1 = some e.2 := by decide

/-- Words of major opcode 0x03, from the encodings of R87. -/
theorem test_decode_op03 : ∀ e ∈ [(0b000011_00011_10101_1011111011101111, Instr.andi 3 21 48879)], decodeTask e.1 = some e.2 := by decide

/-- Words of major opcode 0x04, from the encodings of R87. -/
theorem test_decode_op04 : ∀ e ∈ [(0b000100_00011_10101_1011111011101111, Instr.ori 3 21 48879)], decodeTask e.1 = some e.2 := by decide

/-- Words of major opcode 0x05, from the encodings of R87. -/
theorem test_decode_op05 : ∀ e ∈ [(0b000101_00011_10101_1011111011101111, Instr.xori 3 21 48879)], decodeTask e.1 = some e.2 := by decide

/-- Words of major opcode 0x06, from the encodings of R87. -/
theorem test_decode_op06 : ∀ e ∈ [(0b000110_00011_10101_0000000000_101101, Instr.shli 3 21 45),
    (0b000110_00011_10101_0000000001_101101, .shri 3 21 45),
    (0b000110_00011_10101_0000000010_101101, .sari 3 21 45)], decodeTask e.1 = some e.2 := by decide

/-- Words of major opcode 0x07, from the encodings of R87. -/
theorem test_decode_op07 : ∀ e ∈ [(0b000111_00011_00000_1011111011101111, Instr.lui 3 48879)], decodeTask e.1 = some e.2 := by decide

/-- Words of major opcode 0x08, from the encodings of R87. -/
theorem test_decode_op08 : ∀ e ∈ [(0b001000_00011_10101_1011111011101111, Instr.slti 3 21 48879)], decodeTask e.1 = some e.2 := by decide

/-- Words of major opcode 0x09, from the encodings of R88, R89, R90, R91. -/
theorem test_decode_op09_a : ∀ e ∈ [(0b001001_00011_10101_01010_00000_011_001, Instr.fadd 3 21 10 3 1),
    (0b001001_00011_10101_01010_00001_011_001, .fsub 3 21 10 3 1),
    (0b001001_00011_10101_01010_00010_011_001, .fmul 3 21 10 3 1),
    (0b001001_00011_10101_01010_00011_011_001, .fdiv 3 21 10 3 1),
    (0b001001_00011_10101_0000000100_011_001, .fsqrt 3 21 3 1),
    (0b001001_00011_10101_0000000101_011_001, .frsq 3 21 3 1),
    (0b001001_00011_10101_01010_00110000_001, .fmin 3 21 10 1),
    (0b001001_00011_10101_01010_00111000_001, .fmax 3 21 10 1),
    (0b001001_00011_10101_00101_01000_011_001, .fcvt 3 21 5 3 1),
    (0b001001_00011_10101_01010_01001000_001, .fcmpEq 3 21 10 1)], decodeTask e.1 = some e.2 := by decide

/-- Words of major opcode 0x09, from the encodings of R88, R89, R90, R91. -/
theorem test_decode_op09_b : ∀ e ∈ [(0b001001_00011_10101_01010_01010000_001, Instr.fcmpLt 3 21 10 1),
    (0b001001_00011_10101_01010_01011000_001, .fcmpLe 3 21 10 1),
    (0b001001_00011_10101_01010_01100000_001, .fcmpUn 3 21 10 1),
    (0b001001_00011_10101_0000001101000_001, .fclass 3 21 1)], decodeTask e.1 = some e.2 := by decide

/-- Words of major opcode 0x0A, from the encodings of R92. -/
theorem test_decode_op0A : ∀ e ∈ [(0b001010_00011_10101_01010_00000_011_001, Instr.fma 3 21 10 3 1)], decodeTask e.1 = some e.2 := by decide

/-- Words of major opcode 0x0B, from the encodings of R93. -/
theorem test_decode_op0B : ∀ e ∈ [(0b001011_00011_0000000000000000_00110, Instr.mfs 3 6),
    (0b00101100000_10101_10000000000_00101, .mts 21 5)], decodeTask e.1 = some e.2 := by decide

/-- Words of major opcode 0x10, from the encodings of R94. -/
theorem test_decode_op10 : ∀ e ∈ [(0b010000_01101_01010_010_001_1010100101, Instr.ld 13 10 2 1 677)], decodeTask e.1 = some e.2 := by decide

/-- Words of major opcode 0x11, from the encodings of R94. -/
theorem test_decode_op11 : ∀ e ∈ [(0b010001_01101_01010_010_001_1010100101, Instr.st 13 10 2 1 677)], decodeTask e.1 = some e.2 := by decide

/-- Words of major opcode 0x12, from the encodings of R151. -/
theorem test_decode_op12 : ∀ e ∈ [(0b010010_01101_01010_010_000_1010100101, Instr.vld 13 10 2 677),
    (0b010010_01101_01010_010_001_1010100101, .vgld 13 10 2 677)], decodeTask e.1 = some e.2 := by decide

/-- Words of major opcode 0x13, from the encodings of R151. -/
theorem test_decode_op13 : ∀ e ∈ [(0b010011_01101_01010_010_000_1010100101, Instr.vst 13 10 2 677)], decodeTask e.1 = some e.2 := by decide

/-- Words of major opcode 0x14, from the encodings of R152. -/
theorem test_decode_op14 : ∀ e ∈ [(0b010100_01101_01010_001000_1010100101, Instr.vlds 13 10 677),
    (0b010100_01101_01010_001001_1010100101, .vldsIx 13 10 677)], decodeTask e.1 = some e.2 := by decide

/-- Words of major opcode 0x15, from the encodings of R152. -/
theorem test_decode_op15 : ∀ e ∈ [(0b010101_01101_01010_001000_1010100101, Instr.vsts 13 10 677)], decodeTask e.1 = some e.2 := by decide

/-- Words of major opcode 0x16, from the encodings of R156. -/
theorem test_decode_op16 : ∀ e ∈ [(0b010110_00011_10101_01010_101_00000000, Instr.lutx 3 21 10 5),
    (0b01011000000_10101_0000000000001000, .lutld 21)], decodeTask e.1 = some e.2 := by decide

/-- Words of major opcode 0x18, from the encodings of R96. -/
theorem test_decode_op18 : ∀ e ∈ [(0b011000_10101_01010_1000000000000001, Instr.beq 21 10 32769)], decodeTask e.1 = some e.2 := by decide

/-- Words of major opcode 0x19, from the encodings of R96. -/
theorem test_decode_op19 : ∀ e ∈ [(0b011001_10101_01010_1000000000000001, Instr.bne 21 10 32769)], decodeTask e.1 = some e.2 := by decide

/-- Words of major opcode 0x1A, from the encodings of R96. -/
theorem test_decode_op1A : ∀ e ∈ [(0b011010_10101_01010_1000000000000001, Instr.blt 21 10 32769)], decodeTask e.1 = some e.2 := by decide

/-- Words of major opcode 0x1B, from the encodings of R96. -/
theorem test_decode_op1B : ∀ e ∈ [(0b011011_10101_01010_1000000000000001, Instr.bge 21 10 32769)], decodeTask e.1 = some e.2 := by decide

/-- Words of major opcode 0x1C, from the encodings of R96. -/
theorem test_decode_op1C : ∀ e ∈ [(0b011100_10101_01010_1000000000000001, Instr.bltn 21 10 32769)], decodeTask e.1 = some e.2 := by decide

/-- Words of major opcode 0x1D, from the encodings of R96. -/
theorem test_decode_op1D : ∀ e ∈ [(0b011101_10101_01010_1000000000000001, Instr.bgen 21 10 32769)], decodeTask e.1 = some e.2 := by decide

/-- Words of major opcode 0x1E, from the encodings of R96. -/
theorem test_decode_op1E : ∀ e ∈ [(0b011110_10101_00000_1000000000000001, Instr.bdnz 21 32769)], decodeTask e.1 = some e.2 := by decide

/-- Words of major opcode 0x20, from the encodings of R97. -/
theorem test_decode_op20 : ∀ e ∈ [(0b100000_10101010101010101010101011, Instr.jal 44739243)], decodeTask e.1 = some e.2 := by decide

/-- Words of major opcode 0x21, from the encodings of R97. -/
theorem test_decode_op21 : ∀ e ∈ [(0b100001_00011_10101_1011111011101111, Instr.jalr 3 21 48879)], decodeTask e.1 = some e.2 := by decide

/-- Words of major opcode 0x22, from the encodings of R98, R99. -/
theorem test_decode_op22 : ∀ e ∈ [(0b100010_00011_10101_0000_101001011100, Instr.charge 3 21 2652),
    (0b100010_00011_000000001_000000000001, .mcs 3 1)], decodeTask e.1 = some e.2 := by decide

/-- Words of major opcode 0x23, from the encodings of R101, R102. -/
theorem test_decode_op23 : ∀ e ∈ [(0b100011_00011_10101_000_1001_101010101, Instr.crd 3 21 9 341),
    (0b100011_00011_10101_001_1001_101010101, .crdt 3 21 9 341),
    (0b100011_00011_10101_010_1001_101010101, .cwr 3 21 9 341),
    (0b100011_00010_10101_011_1001_101010101, .cwrt 2 21 9 341),
    (0b10001100000_10101_100_1001_101010101, .advR 21 9 341),
    (0b10001100000_10101_101_1001_101010101, .advW 21 9 341)], decodeTask e.1 = some e.2 := by decide

/-- Words of major opcode 0x24, from the encodings of R103. -/
theorem test_decode_op24 : ∀ e ∈ [(0b10010000000_10101_0000000000000_100, Instr.emit 21 4)], decodeTask e.1 = some e.2 := by decide

/-- Words of major opcode 0x25, from the encodings of R56, R104, R105. -/
theorem test_decode_op25 : ∀ e ∈ [(0b1001010000_010_00111_00000000000000, Instr.exit 2 7),
    (0b1001010001_11011_10101_00110_1_000000, .xwait 27 21 6 1),
    (0b1001010010_011_11011_1100_0000000000, .xbar 3 27 12),
    (0b1001010011_11011_10101_00110_1000_1_00, .xamo 27 21 6 8 1),
    (0b10010101000000000000000000000000, .xstop)], decodeTask e.1 = some e.2 := by decide

/-- Words of major opcode 0x26, from the encodings of R107. -/
theorem test_decode_op26 : ∀ e ∈ [(0b10011000_010_10101_01010_00000000_011, Instr.sadd 2 21 10 3),
    (0b10011000_010_10101_01010_00000001_011, .smin 2 21 10 3),
    (0b10011000_010_10101_01010_00000010_010, .smax 2 21 10 2),
    (0b10011000_010_10101_01010_00000011_011, .sor 2 21 10 3),
    (0b10011000_010_10101_01010_00000100_010, .sand 2 21 10 2),
    (0b10011000_010_10101_01010_00000101010, .sfadd 2 21 10)], decodeTask e.1 = some e.2 := by decide

/-- Words of major opcode 0x27, from the encodings of R108. -/
theorem test_decode_op27 : ∀ e ∈ [(0b1001110000_010_0000000000000000000, Instr.fenceAcq 2)], decodeTask e.1 = some e.2 := by decide

/-- Words of major opcode 0x28, from the encodings of R110. -/
theorem test_decode_op28 : ∀ e ∈ [(0b1010000000_10101_00_1_00000000000000, Instr.tlbiPage 21 1),
    (0b10100000000000001_1_00000000000000, .tlbiCtx 1),
    (0b10100000000000010_1_00000000000000, .tlbiPart 1),
    (0b10100000010000000000000000000000, .ptsync)], decodeTask e.1 = some e.2 := by decide

/-- Words of major opcode 0x29, from the encodings of R109. -/
theorem test_decode_op29 : ∀ e ∈ [(0b1010010000_0000101010010110100101, Instr.trap 173477),
    (0b10100100010000000000000000000000, .brk)], decodeTask e.1 = some e.2 := by decide

/-- Words of major opcode 0x30, from the encodings of R133, R134. -/
theorem test_decode_op30_a : ∀ e ∈ [(0b110000_00011_10101_01010_101_00000_010, Instr.vadd 3 21 10 5 2),
    (0b110000_00011_10101_01010_101_00001_010, .vsub 3 21 10 5 2),
    (0b110000_00011_10101_01010_101_00010_010, .vmul 3 21 10 5 2),
    (0b110000_00011_10101_01010_101_00011_010, .vmulh 3 21 10 5 2),
    (0b110000_00011_10101_01010_101_00100_010, .vadds 3 21 10 5 2),
    (0b110000_00011_10101_01010_101_00101_010, .vsubs 3 21 10 5 2),
    (0b110000_00011_10101_01010_101_00110_010, .vmin 3 21 10 5 2),
    (0b110000_00011_10101_01010_101_00111_010, .vmax 3 21 10 5 2),
    (0b110000_00011_10101_01010_101_01000_010, .vand 3 21 10 5 2),
    (0b110000_00011_10101_01010_101_01001_010, .vor 3 21 10 5 2)], decodeTask e.1 = some e.2 := by decide

/-- Words of major opcode 0x30, from the encodings of R133, R134. -/
theorem test_decode_op30_b : ∀ e ∈ [(0b110000_00011_10101_01010_101_01010_010, Instr.vxor 3 21 10 5 2),
    (0b110000_00011_10101_01010_101_01011_010, .vandn 3 21 10 5 2),
    (0b110000_00011_10101_01010_101_01100_010, .vshl 3 21 10 5 2),
    (0b110000_00011_10101_01010_101_01101_010, .vshr 3 21 10 5 2),
    (0b110000_00011_10101_01010_101_01110_010, .vsar 3 21 10 5 2),
    (0b110000_00011_10101_01010_101_01111_010, .vabsd 3 21 10 5 2),
    (0b110000_00011_10101_00000_101_10000_010, .vclz 3 21 5 2),
    (0b110000_00011_10101_00000_101_10001_010, .vpopc 3 21 5 2),
    (0b110000_00011_10101_01010_101_10010_010, .vpack 3 21 10 5 2),
    (0b110000_00011_10101_00001_101_10011_011, .vunpack 3 21 1 5 3)], decodeTask e.1 = some e.2 := by decide

/-- Words of major opcode 0x31, from the encodings of R135. -/
theorem test_decode_op31 : ∀ e ∈ [(0b110001_00011_10101_01010_101_00000_010, Instr.vfadd 3 21 10 5 2),
    (0b110001_00011_10101_01010_101_00001_010, .vfsub 3 21 10 5 2),
    (0b110001_00011_10101_01010_101_00010_010, .vfmul 3 21 10 5 2),
    (0b110001_00011_10101_01010_101_00011_010, .vfmin 3 21 10 5 2),
    (0b110001_00011_10101_01010_101_00100_010, .vfmax 3 21 10 5 2),
    (0b110001_00011_10101_01010_101_00101_010, .vfms 3 21 10 5 2),
    (0b110001_00011_10101_01010_101_00110_010, .vfnma 3 21 10 5 2),
    (0b110001_00011_10101_01010_101_00111_010, .vscale 3 21 10 5 2)], decodeTask e.1 = some e.2 := by decide

/-- Words of major opcode 0x32, from the encodings of R136. -/
theorem test_decode_op32 : ∀ e ∈ [(0b110010_00011_10101_01010_10001_101_010, Instr.vfma 3 21 10 17 5 2)], decodeTask e.1 = some e.2 := by decide

/-- Words of major opcode 0x33, from the encodings of R120, R138. -/
theorem test_decode_op33 : ∀ e ∈ [(0b110011_00011_10101_000_0_0_101_01_011_010, Instr.vcvt 3 21 0 0 5 1 3 2),
    (0b110011_00011_10101_000_0_0_101_01_101_010, .vcvtSr 3 21 0 0 5 1 2)], decodeTask e.1 = some e.2 := by decide

/-- Words of major opcode 0x34, from the encodings of R142, R143. -/
theorem test_decode_op34 : ∀ e ∈ [(0b110100_00011_10101_00000_101_00000_010, Instr.vrsum 3 21 5 2),
    (0b110100_00011_10101_00000_101_00001_010, .vrmin 3 21 5 2),
    (0b110100_00011_10101_00000_101_00010_010, .vrmax 3 21 5 2),
    (0b110100_00011_10101_00000_101_00011_010, .vrfsum 3 21 5 2),
    (0b110100_00011_10101_00000_101_00100_010, .vscan 3 21 5 2)], decodeTask e.1 = some e.2 := by decide

/-- Words of major opcode 0x35, from the encodings of R144. -/
theorem test_decode_op35 : ∀ e ∈ [(0b110101_00011_10101_01010_101_00000000, Instr.vperm 3 21 10 5),
    (0b110101_00011_10101_01010_101_00001000, .vshuf 3 21 10 5),
    (0b110101_00011_10101_01001_101_00010000, .vrot 3 21 9 5),
    (0b110101_00011_10101_00010_101_00011000, .vnbr 3 21 2 5)], decodeTask e.1 = some e.2 := by decide

/-- Words of major opcode 0x36, from the encodings of R145. -/
theorem test_decode_op36 : ∀ e ∈ [(0b110110_00011_10101_01010_101_00000_010, Instr.vcmpEq 3 21 10 5 2),
    (0b110110_00011_10101_01010_101_00001_010, .vcmpNe 3 21 10 5 2),
    (0b110110_00011_10101_01010_101_00010_010, .vcmpLt 3 21 10 5 2),
    (0b110110_00011_10101_01010_101_00011_010, .vcmpLe 3 21 10 5 2),
    (0b110110_00011_10101_01010_101_01000_010, .vfcmpEq 3 21 10 5 2),
    (0b110110_00011_10101_01010_101_01001_010, .vfcmpLt 3 21 10 5 2),
    (0b110110_00011_10101_01010_101_01010_010, .vfcmpLe 3 21 10 5 2),
    (0b110110_00011_10101_01010_101_01011_010, .vfcmpUn 3 21 10 5 2)], decodeTask e.1 = some e.2 := by decide

/-- Words of major opcode 0x37, from the encodings of R147. -/
theorem test_decode_op37 : ∀ e ∈ [(0b110111_00011_10101_00000_101_00000_010, Instr.vbcst 3 21 5 2),
    (0b110111_00011_10101_01001_00000001_001, .vins 3 21 9 1),
    (0b110111_00011_10101_01001_00000010_001, .vext 3 21 9 1),
    (0b110111_00011_10101_00000_101_00011000, .vmov 3 21 5)], decodeTask e.1 = some e.2 := by decide

/-- Words of major opcode 0x38, from the encodings of R148. -/
theorem test_decode_op38 : ∀ e ∈ [(0b111000_00011_00000_1011111011101111, Instr.vli 3 48879),
    (0b111000_00011_00001_1011111011101111, .vlih 3 48879),
    (0b111000_00011_00010_1011111011101111, .vlui 3 48879),
    (0b111000_00011_00011_1011111011101111, .vorli 3 48879),
    (0b111000_00011_00100_1011111011101111, .vaddi 3 48879)], decodeTask e.1 = some e.2 := by decide

/-- Words of major opcode 0x39, from the encodings of R146. -/
theorem test_decode_op39 : ∀ e ∈ [(0b111001_00011_10101_01010_101_00000000, Instr.vsel 3 21 10 5),
    (0b111001_00011_00101_00010_00000001000, .kand 3 5 2),
    (0b111001_00011_00101_00010_00000010000, .kor 3 5 2),
    (0b111001_00011_00101_0000000000011000, .knot 3 5),
    (0b111001_00011_00101_0000000000100000, .kmov 3 5),
    (0b111001_00011_10101_0000000000101000, .kmovFromScalar 3 21),
    (0b111001_00011_00101_0000000000110000, .kmovToScalar 3 5)], decodeTask e.1 = some e.2 := by decide

/-- Words of major opcode 0x3A, from the encodings of R140. -/
theorem test_decode_op3A : ∀ e ∈ [(0b111010_00011_10101_00000_101_00000_010, Instr.vrcp 3 21 5 2),
    (0b111010_00011_10101_00000_101_00001_010, .vrsq 3 21 5 2),
    (0b111010_00011_10101_00000_101_00010_010, .vexp2 3 21 5 2),
    (0b111010_00011_10101_00000_101_00011_010, .vlog2 3 21 5 2),
    (0b111010_00011_10101_00000_101_00100_010, .vtanh 3 21 5 2)], decodeTask e.1 = some e.2 := by decide
/-! Commands and packets as doublewords, lowest first; fields are shifted to the places that R181 to R204 and R277 to R306 give. -/

/-- COPY (R189): `FAR` 0x1200, `LEN` 3, `NEAR` 5, `NOFF` 9; `SETS` 4, `WAITM` 1. DECK (R192). BLOAD (R193). -/
theorem test_decode_commands_a :
    decodeCommand (dw [0x1200 + 3 * 2 ^ 57, 0 + 5 * 2 ^ 9 + 9 * 2 ^ 12 + 4 * 2 ^ 35 + 1 * 2 ^ 40 + 0x01 * 2 ^ 56]) 0 =
      some (.copy ⟨4, 1⟩ ⟨0x1200, 3, 5, 9⟩) ∧
    decodeCommand (dw [0x3400 + 11 * 2 ^ 57, 5 * 2 ^ 9 + 2 * 2 ^ 25 + 31 * 2 ^ 35 + 0x06 * 2 ^ 56]) 0 = some (.deck ⟨31, 0⟩ ⟨0x3400, 11, 5, 2⟩) ∧
    decodeCommand (dw [0x0400 + 1 * 2 ^ 16, 31 * 2 ^ 35 + 0x07 * 2 ^ 56]) 0 = some (.bload ⟨31, 0⟩ ⟨0x400, 1⟩) := by decide +kernel

/-- COPY2D (R191), COPYC (R189, R190), GATHER and SCATTER (R196): long commands. -/
theorem test_decode_commands_b :
    decodeCommand (dw [0x1001 + 2 * 2 ^ 57 + 7 * 2 ^ 60, 0x123 * 2 ^ 12 + 1 * 2 ^ 34 + 15 * 2 ^ 35 + 0x02 * 2 ^ 56])
      (dw [0x2003 + 3 * 2 ^ 57, 0x45 + 0x678 * 2 ^ 20]) = some (.copy2d ⟨15, 0⟩ ⟨0x1001, 2, 7, 0x123, 0x2003, 3, 0x45, 0x678⟩) ∧
    decodeCommand (dw [0x1200 + 3 * 2 ^ 57, 4 * 2 ^ 9 + 9 * 2 ^ 12 + 1 * 2 ^ 34 + 31 * 2 ^ 35 + 0x8000 * 2 ^ 40 + 0x03 * 2 ^ 56]) (dw [0x5008, 0xABCDEF0123456789]) =
      some (.copyc ⟨31, 0x8000⟩ ⟨0x1200, 3, 4, 9, 0x5008, 0xABCDEF0123456789⟩) ∧
    decodeCommand (dw [0x4000 + 2 * 2 ^ 57 + 1 * 2 ^ 60 + 3 * 2 ^ 62, 5 * 2 ^ 0 + 2 * 2 ^ 14 + 1 * 2 ^ 34 + 31 * 2 ^ 35 + 0x04 * 2 ^ 56]) (dw [0x700 + 4 * 2 ^ 57, 0x800]) =
      some (.gather ⟨31, 0⟩ ⟨0x4000, 2, 1, 23, 2, 0x700, 4, 0x800⟩) ∧
    decodeCommand (dw [0x4000 + 2 * 2 ^ 57 + 0 * 2 ^ 60 + 1 * 2 ^ 62, 5 * 2 ^ 0 + 2 * 2 ^ 14 + 1 * 2 ^ 34 + 31 * 2 ^ 35 + 0x05 * 2 ^ 56]) (dw [0x704 + 4 * 2 ^ 57, 0x800]) =
      some (.scatter ⟨31, 0⟩ ⟨0x4000, 2, 0, 21, 2, 0x704, 4, 0x800⟩) := by decide +kernel

/-- MXT with A rows in the pad and with a channel (R194), MXDRAIN (R195), COLL (R198). -/
theorem test_decode_commands_c :
    decodeCommand (dw [0x123 + 7 * 2 ^ 15 + 3 * 2 ^ 21 + 0x4567 * 2 ^ 29 + 0 * 2 ^ 52 + 1 * 2 ^ 54 + 2 * 2 ^ 56 + 1 * 2 ^ 58 + 0 * 2 ^ 59 + 1 * 2 ^ 60 + 1 * 2 ^ 61 + 1 * 2 ^ 62,
        0x89 + 31 * 2 ^ 35 + 0x08 * 2 ^ 56]) 0 = some (.mxt ⟨31, 0⟩ ⟨0x123, 7, 3, 0x4567, 0, 1, 2, 1, 0, 1, 1, 0x225, 0, 0, 0⟩) ∧
    decodeCommand (dw [7 * 2 ^ 15 + 0 * 2 ^ 21 + 1 * 2 ^ 52, 1 * 2 ^ 14 + 1 * 2 ^ 34 + 31 * 2 ^ 35 + 0x08 * 2 ^ 56]) (dw [0x1040 + 1 * 2 ^ 25, 0]) =
      some (.mxt ⟨31, 0⟩ ⟨0, 7, 0, 0, 1, 0, 0, 0, 0, 0, 0, 0, 1, 0x1040, 1⟩) ∧
    decodeCommand (dw [0x55 + 9 * 2 ^ 15 + 3 * 2 ^ 21 + 2 * 2 ^ 24 + 1 * 2 ^ 26 + 1 * 2 ^ 27, 31 * 2 ^ 35 + 0x09 * 2 ^ 56]) 0 =
      some (.mxdrain ⟨31, 0⟩ ⟨0x55, 9, 3, 2, 1, 1⟩) ∧
    decodeCommand (dw [1 + 1 * 2 ^ 2 + 4 * 2 ^ 4 + 5 * 2 ^ 7 + 6 * 2 ^ 18 + 0x99 * 2 ^ 29 + 2 * 2 ^ 45 + 3 * 2 ^ 61, 0 + 0x21 * 2 ^ 12 + 31 * 2 ^ 35 + 0x0A * 2 ^ 56]) 0 =
      some (.coll ⟨31, 0⟩ ⟨1, 1, 4, 5, 6, 0x99, 2, 3, 0x21⟩) := by decide +kernel

/-- INTAKE (R200), WINDOW (R202), NOTE in both forms (R203), QFENCE (R204). -/
theorem test_decode_commands_d :
    decodeCommand (dw [0x777 + 0x65 * 2 ^ 57, 0 + 2 * 2 ^ 23 + 6 * 2 ^ 25 + 3 * 2 ^ 28 + 1 * 2 ^ 34 + 31 * 2 ^ 35 + 0x0B * 2 ^ 56]) (dw [0xCAFE + 0x12 * 2 ^ 32, 0]) =
      some (.intake ⟨31, 0⟩ ⟨0x777, 0x65, 2, 6, 3, 0xCAFE, 0x12⟩) ∧
    decodeCommand (dw [0x4500 + 6 * 2 ^ 57 + 7 * 2 ^ 61, 1 * 2 ^ 7 + 2 * 2 ^ 15 + 1 * 2 ^ 17 + 1 * 2 ^ 34 + 31 * 2 ^ 35 + 0x0C * 2 ^ 56])
      (dw [0x11 + 0xFFFFF * 2 ^ 12 + 0x22 * 2 ^ 32 + 0x3 * 2 ^ 44, 0x4321 * 2 ^ 32]) =
      some (.window ⟨31, 0⟩ ⟨0x4500, 6, 7, 1, 2, 1, 0x11, 0xFFFFF, 0x22, 3, 0, 0, 0x4321⟩) ∧
    decodeCommand (dw [0x1238 + 2 * 2 ^ 57, 0xDEADBEEF + 3 * 2 ^ 35 + 0x0D * 2 ^ 56]) 0 = some (.note ⟨3, 0⟩ ⟨0x1238, 2, 0xDEADBEEF, 0, 0⟩) ∧
    decodeCommand (dw [0x1238 + 2 * 2 ^ 57, 1 * 2 ^ 34 + 3 * 2 ^ 35 + 0x0D * 2 ^ 56]) (dw [0x0123456789ABCDEF, 0]) =
      some (.note ⟨3, 0⟩ ⟨0x1238, 2, 0, 1, 0x0123456789ABCDEF⟩) ∧
    decodeCommand (dw [0x2A, 31 * 2 ^ 35 + 0x0E * 2 ^ 56]) 0 = some (.qfence ⟨31, 0⟩ ⟨0x2A⟩) := by decide +kernel

/-- LAUNCH (R281), PIPE and CMD (R282), SIGNAL and WAIT (R283), RECEIPT (R306), POLICY (R284). -/
theorem test_decode_packets_a :
    decodePacket 1 (dw [0, 0x4440, 7]) = some (.launch ⟨0x4440, 7⟩) ∧ decodePacket 2 (dw [0, 0x4480]) = some (.pipe ⟨0x4480⟩) ∧
    decodePacket 3 (dw [0, 9 + 2 * 2 ^ 5, 3, 4, 5, 6]) = some (.cmd ⟨9, 2, 3 + 4 * 2 ^ 64, 5 + 6 * 2 ^ 64⟩) ∧
    decodePacket 4 (dw [0, 0x1238, 0x99, 2]) = some (.signal ⟨0x1238, 0x99, 2⟩) ∧
    decodePacket 5 (dw [0, 0x1238, 0x99, 1 + 12 * 2 ^ 32]) = some (.wait ⟨0x1238, 0x99, 1, 12⟩) ∧
    decodePacket 6 (dw [0, 0x40, 0x50, 0x60, 7 + 8 * 2 ^ 32, 0x90, 0xA00, 0xB000]) = some (.receipt ⟨0x40, 0x50, 0x60, 7, 8, 0x90, 0xA00, 0xB000⟩) ∧
    decodePacket 7 (dw [0, 0x1002, 0xFF]) = some (.policyLoad ⟨0x1002, 255⟩) ∧ decodePacket 8 0 = some .policySwap := by decide +kernel

/-- The PART kinds (R298). -/
theorem test_decode_packets_b :
    decodePacket 16 (dw [0, 3, 0xF0]) = some (.partCores ⟨3, 0xF0⟩) ∧
    decodePacket 17 (dw [0, 3, 100 + 200 * 2 ^ 32, 0xABCDE]) = some (.partPool ⟨3, 100, 200, 0xABCDE⟩) ∧
    decodePacket 18 (dw [0, 3 + 5 * 2 ^ 4, 16 + 1024 * 2 ^ 10 + 24576 * 2 ^ 21 + 2 ^ 20 * 2 ^ 36, 0x80]) = some (.partCache ⟨3, 5, 16, 1024, 24576, 2 ^ 20, 0x80⟩) ∧
    decodePacket 19 (dw [0, 3 + 17 * 2 ^ 8 + 5 * 2 ^ 13 + 6 * 2 ^ 16 + 1 * 2 ^ 19, 0x7000]) = some (.partQueue ⟨3, 17, 5, 6, 1, 0x7000⟩) ∧
    decodePacket 20 (dw [0, 3, 1000 + 0x12345678 * 2 ^ 32, 0x9A + 44 * 2 ^ 32, 55]) = some (.partLimits ⟨3, 1000, 0x9A12345678, 44, 55⟩) ∧
    decodePacket 21 (dw [0, 64 + 300 * 2 ^ 16 + 400 * 2 ^ 32]) = some (.partVf ⟨64, 300, 400⟩) ∧ decodePacket 22 (dw [0, 15]) = some (.partDrop ⟨15⟩) := by decide +kernel

/-- PART.CTX (R300): its control doubleword and the six after it. -/
theorem test_decode_packets_c :
    decodePacket 23 (dw [0, 2 + 31 * 2 ^ 4 + 1 * 2 ^ 9 + 33 * 2 ^ 10 + 1 * 2 ^ 17 + 1 * 2 ^ 18 + 8 * 2 ^ 32 + 120 * 2 ^ 40 + 5 * 2 ^ 48 + 59 * 2 ^ 56,
      0x1000, 0x2000, 0x3004, 0x400C, 0x5005, 0x6000]) = some (.partCtx ⟨2, 31, 1, 33, 1, 1, 8, 120, 5, 59, 0x1000, 0x2000, 0x3004, 0x400C, 0x5005, 0x6000⟩) := by
  decide +kernel

/-- The header doubleword (R277): kind 4, acquire `.PKG`, release `.SYS`, a record and an interrupt; an interrupt without a record, a reserved
scope and a bit above 15 are invalid. -/
theorem test_decode_header : decodePktHdr (4 + 4 * 2 ^ 8 + 6 * 2 ^ 11 + 1 * 2 ^ 14 + 1 * 2 ^ 15) = some ⟨4, 4, 6, true, true⟩ ∧
    decodePktHdr (4 + 1 * 2 ^ 15) = none ∧ decodePktHdr (4 + 5 * 2 ^ 8) = none ∧ decodePktHdr (4 + 2 ^ 16) = none := by decide +kernel

/-- A reserved opcode, a short command with its long bit, a long one without, a non-zero must-be-zero bit, a reserved packet kind. -/
theorem test_decode_refused : decodeCommand (dw [0, 31 * 2 ^ 35]) 0 = none ∧ decodeCommand (dw [0, 31 * 2 ^ 35 + 0x0F * 2 ^ 56]) 0 = none ∧
    decodeCommand (dw [0x2A, 1 * 2 ^ 34 + 31 * 2 ^ 35 + 0x0E * 2 ^ 56]) 0 = none ∧
    decodeCommand (dw [0x1200 + 3 * 2 ^ 57, 4 * 2 ^ 9 + 9 * 2 ^ 12 + 31 * 2 ^ 35 + 0x03 * 2 ^ 56]) (dw [0x5008, 1]) = none ∧
    decodeCommand (dw [0x2A + 2 ^ 6, 31 * 2 ^ 35 + 0x0E * 2 ^ 56]) 0 = none ∧ decodePacket 9 0 = none ∧ decodePacket 2 (dw [0, 0x40, 1]) = none := by decide +kernel

/-! ## WellFormed: one ill-formed term for each check. -/

theorem test_wf_task : ∀ i ∈ [Instr.sext 1 2 3, .zext 1 2 3, .fadd 1 2 3 5 0, .fadd 1 2 3 0 3, .fsub 1 2 3 5 0, .fmul 1 2 3 0 3, .fdiv 1 2 3 7 0,
    .fsqrt 1 2 5 0, .frsq 1 2 0 4, .fmin 1 2 3 3, .fmax 1 2 3 3, .fcvt 1 2 7 0 0, .fcvt 1 2 3 5 0, .fcvt 1 2 3 0 3, .fcvt 1 2 1 0 1, .fcmpEq 1 2 3 3,
    .fcmpLt 1 2 3 3, .fcmpLe 1 2 3 3, .fcmpUn 1 2 3 3, .fclass 1 2 3, .fma 1 2 3 5 0, .fma 1 2 3 0 3, .mfs 1 11, .mts 1 6, .mts 1 10, .ld 1 2 5 0 0,
    .ld 1 2 0 4 0, .st 1 2 5 0 0, .st 1 2 0 4 0, .vld 1 2 1 0, .vgld 1 2 5 0, .vst 1 2 1 0, .bdnz 0 4, .mcs 1 3, .cwrt 0 1 2 3, .cwrt 4 1 2 3,
    .emit 1 6, .exit 5 1, .exit 2 31, .exit 0 1, .xbar 0 1 1, .xbar 6 1 1, .xbar 1 1 0, .xbar 1 1 13, .xamo 1 2 3 9 0, .sadd 1 2 3 2, .sadd 0 2 3 1,
    .smin 1 2 3 2, .smax 0 2 3 4, .sor 5 2 3 2, .sand 0 2 3 0, .sfadd 1 2 3, .fenceAcq 0, .fenceAcq 7], i.wf = false := by decide +kernel

theorem test_wf_vector : ∀ i ∈ [Instr.vadd 1 2 3 0 6, .vsub 1 2 3 0 6, .vmul 1 2 3 0 7, .vmulh 1 2 3 0 6, .vadds 1 2 3 0 6, .vsubs 1 2 3 0 6,
    .vmin 1 2 3 0 6, .vmax 1 2 3 0 6, .vand 1 2 3 0 6, .vor 1 2 3 0 6, .vxor 1 2 3 0 6, .vandn 1 2 3 0 6, .vshl 1 2 3 0 6, .vshr 1 2 3 0 6,
    .vsar 1 2 3 0 6, .vabsd 1 2 3 0 6, .vclz 1 2 0 6, .vpopc 1 2 0 6, .vpack 1 2 3 0 1, .vpack 1 2 3 0 6, .vunpack 1 2 0 0 1, .vunpack 1 2 2 0 2,
    .vfadd 1 2 3 0 6, .vfsub 1 2 3 0 6, .vfmul 1 2 3 0 6, .vfmin 1 2 3 0 6, .vfmax 1 2 3 0 6, .vfms 1 2 3 0 6, .vfnma 1 2 3 0 6, .vscale 1 2 3 0 6,
    .vfma 1 2 3 4 0 6, .vcvt 1 2 0 0 0 0 5 1, .vcvt 1 2 1 0 0 0 0 1, .vcvt 1 2 0 0 0 2 0 1, .vcvt 1 2 0 1 0 0 0 1, .vcvtSr 1 2 0 0 0 0 7,
    .vcvtSr 1 2 1 0 0 0 1, .vrsum 1 2 0 6, .vrmin 1 2 0 6, .vrmax 1 2 0 6, .vrfsum 1 2 0 6, .vscan 1 2 0 6, .vrot 1 2 16 0, .vnbr 1 2 4 0,
    .vcmpEq 8 2 3 0 0, .vcmpEq 1 2 3 0 6, .vcmpNe 8 2 3 0 0, .vcmpLt 1 2 3 0 6, .vcmpLe 8 2 3 0 0, .vfcmpEq 8 2 3 0 0, .vfcmpLt 1 2 3 0 6,
    .vfcmpLe 8 2 3 0 0, .vfcmpUn 1 2 3 0 6, .vbcst 1 2 0 6, .vins 1 2 16 0, .vins 1 2 0 2, .vext 1 2 16 0, .vext 1 2 0 2, .kand 8 1 1, .kand 1 8 1,
    .kand 1 1 8, .kor 8 1 1, .knot 8 1, .knot 1 8, .kmov 8 1, .kmov 1 8, .kmovFromScalar 8 1, .kmovToScalar 1 8, .vrcp 1 2 0 3, .vrsq 1 2 0 3,
    .vexp2 1 2 0 3, .vlog2 1 2 0 3, .vtanh 1 2 0 3, .fcLdq 1 12, .fcLdp 1 9, .fcLde 1 10, .fcPickmin 1 12, .fcPickmax 1 12], i.wf = false := by decide +kernel

theorem test_wf_commands : ∀ i ∈ [Instr.qfence ⟨16, 0⟩ ⟨1⟩, .qfence ⟨4, 0x10⟩ ⟨1⟩, .qfence ⟨31, 0⟩ ⟨0⟩, .copy ⟨31, 0⟩ ⟨0x101, 1, 2, 0⟩, .copy ⟨31, 0⟩ ⟨0, 0, 2, 0⟩,
    .copy ⟨31, 0⟩ ⟨0, 1, 1, 0⟩, .copy ⟨31, 0⟩ ⟨0, 1, 2, 32768⟩, .copy ⟨31, 0⟩ ⟨2 ^ 56 - 256, 2, 2, 0⟩, .copyc ⟨31, 0⟩ ⟨0, 1, 2, 0, 4, 0⟩,
    .copyc ⟨31, 0⟩ ⟨0, 0, 2, 0, 0, 0⟩, .copy2d ⟨31, 0⟩ ⟨0, 1, 1, 0, 0, 0, 1, 0⟩, .copy2d ⟨31, 0⟩ ⟨0, 0, 1, 0, 0, 5, 1, 0⟩, .copy2d ⟨31, 0⟩ ⟨0, 0, 0, 0, 0, 0, 1, 0⟩,
    .copy2d ⟨31, 0⟩ ⟨0, 0, 1, 0, 0, 0, 0, 0⟩, .copy2d ⟨31, 0⟩ ⟨2 ^ 23 - 1, 2, 1, 0, 0, 0, 2, 0⟩, .gather ⟨31, 0⟩ ⟨0, 7, 0, 1, 0, 0, 0, 0⟩,
    .gather ⟨31, 0⟩ ⟨4, 1, 0, 1, 0, 0, 0, 0⟩, .gather ⟨31, 0⟩ ⟨0, 0, 0, 0, 0, 0, 0, 0⟩, .gather ⟨31, 0⟩ ⟨0, 0, 1, 1, 0, 4, 0, 0⟩, .gather ⟨31, 0⟩ ⟨0, 0, 0, 1, 1, 0, 0, 0⟩,
    .gather ⟨31, 0⟩ ⟨0, 0, 0, 1, 0, 0, 1, 0⟩, .scatter ⟨31, 0⟩ ⟨0, 1, 0, 1, 0, 0, 0, 4⟩, .deck ⟨31, 0⟩ ⟨1, 0, 1, 0⟩, .deck ⟨31, 0⟩ ⟨0, 0, 0, 0⟩,
    .deck ⟨31, 0⟩ ⟨0, 65535, 2, 0⟩, .deck ⟨31, 0⟩ ⟨0, 0, 1, 1⟩, .bload ⟨31, 0⟩ ⟨65025, 0⟩, .bload ⟨31, 0⟩ ⟨65021, 1⟩, .note ⟨31, 0⟩ ⟨4, 0, 0, 0, 0⟩,
    .note ⟨31, 0⟩ ⟨0, 1, 0, 0, 0⟩, .note ⟨31, 0⟩ ⟨0, 0, 1, 1, 0⟩, .note ⟨31, 0⟩ ⟨0, 0, 0, 0, 1⟩, .intake ⟨31, 0⟩ ⟨0, 0, 0, 0, 0, 0, 0⟩,
    .intake ⟨31, 0⟩ ⟨0, 1, 3, 0, 0, 0, 0⟩, .intake ⟨31, 0⟩ ⟨0, 1, 0, 7, 0, 0, 0⟩, .window ⟨31, 0⟩ ⟨1, 0, 0, 0, 0, 0, 0, 0, 0, 0, 0, 0, 0⟩,
    .window ⟨31, 0⟩ ⟨0, 0, 0, 0, 0, 0, 1, 0, 0, 0, 0, 0, 0⟩, .window ⟨31, 0⟩ ⟨0, 0, 0, 0, 1, 0, 0, 0, 0, 1, 0, 0, 0⟩,
    .window ⟨31, 0⟩ ⟨0, 0, 0, 0, 2, 0, 0, 0, 0, 0, 1, 0, 0⟩], i.wf = false := by decide +kernel

theorem test_wf_array : ∀ i ∈ [Instr.mxt ⟨31, 0⟩ ⟨0, 0, 0, 0, 3, 0, 0, 0, 0, 0, 0, 0, 0, 0, 0⟩, .mxt ⟨31, 0⟩ ⟨0, 63, 4, 0, 0, 0, 0, 0, 0, 0, 0, 0, 0, 0, 0⟩,
    .mxt ⟨31, 0⟩ ⟨0, 0, 0, 0, 0, 3, 0, 0, 0, 0, 0, 0, 0, 0, 0⟩, .mxt ⟨31, 0⟩ ⟨0, 0, 0, 1, 1, 0, 0, 0, 0, 0, 0, 0, 0, 0, 0⟩,
    .mxt ⟨31, 0⟩ ⟨1, 0, 0, 0, 0, 0, 0, 0, 0, 0, 0, 0, 1, 0, 0⟩, .mxt ⟨31, 0⟩ ⟨0, 0, 0, 0, 0, 0, 0, 0, 0, 0, 0, 0, 1, 32, 0⟩,
    .mxt ⟨31, 0⟩ ⟨0, 0, 0, 0, 0, 0, 0, 0, 0, 0, 0, 0, 0, 64, 0⟩, .mxt ⟨31, 0⟩ ⟨0, 0, 0, 0, 0, 0, 0, 0, 0, 0, 0, 1, 0, 0, 0⟩,
    .mxt ⟨31, 0⟩ ⟨0, 0, 1, 0, 0, 0, 0, 0, 0, 0, 0, 65500, 0, 0, 0⟩, .mxt ⟨31, 0⟩ ⟨32767, 1, 0, 0, 0, 0, 0, 0, 0, 0, 0, 0, 0, 0, 0⟩,
    .mxdrain ⟨31, 0⟩ ⟨0, 0, 4, 0, 0, 0⟩, .mxdrain ⟨31, 0⟩ ⟨0, 0, 0, 1, 0, 0⟩, .mxdrain ⟨31, 0⟩ ⟨0, 0, 3, 3, 0, 0⟩, .mxdrain ⟨31, 0⟩ ⟨32767, 0, 0, 0, 0, 0⟩,
    .coll ⟨31, 0⟩ ⟨3, 0, 3, 0, 1, 0, 1, 0, 0⟩, .coll ⟨31, 0⟩ ⟨0, 2, 3, 0, 1, 0, 1, 0, 0⟩, .coll ⟨31, 0⟩ ⟨2, 1, 3, 0, 1, 0, 1, 0, 0⟩,
    .coll ⟨31, 0⟩ ⟨0, 0, 1, 0, 1, 0, 1, 0, 0⟩, .coll ⟨31, 0⟩ ⟨0, 0, 6, 0, 1, 0, 1, 0, 0⟩, .coll ⟨31, 0⟩ ⟨0, 0, 3, 1, 1, 0, 1, 0, 0⟩,
    .coll ⟨31, 0⟩ ⟨0, 0, 3, 0, 1, 0, 0, 0, 0⟩, .coll ⟨31, 0⟩ ⟨0, 0, 3, 0, 1, 0, 2, 32767, 0⟩, .coll ⟨31, 0⟩ ⟨0, 0, 3, 0, 1, 0, 2, 0, 32767⟩],
    i.wf = false := by decide +kernel

theorem test_wf_packets : ∀ i ∈ [Instr.launch ⟨0, 0⟩, .launch ⟨0, 2 ^ 20 + 1⟩, .cmd ⟨0, 6, 0, 0⟩, .signal ⟨0, 0, 3⟩, .signal ⟨2 ^ 56, 0, 0⟩, .signal ⟨4, 0, 0⟩,
    .wait ⟨0, 0, 2, 0⟩, .wait ⟨2 ^ 63, 0, 0, 0⟩, .wait ⟨1, 0, 0, 0⟩, .policyLoad ⟨1, 0⟩, .policyLoad ⟨2 ^ 60, 0⟩, .partPool ⟨0, 0, 0, 0⟩,
    .partCache ⟨0, 0, 0, 1025, 0, 0, 0⟩, .partCache ⟨0, 0, 0, 0, 24577, 0, 0⟩, .partCache ⟨0, 0, 0, 0, 0, 2 ^ 20 + 1, 0⟩, .partQueue ⟨0, 0, 0, 0, 0, 64⟩,
    .partQueue ⟨0, 0, 0, 0, 0, 2 ^ 56⟩, .partLimits ⟨0, 999, 1000, 1, 0⟩, .partLimits ⟨0, 1001, 1000, 1, 0⟩, .partLimits ⟨0, 1000, 1000, 0, 0⟩,
    .partVf ⟨65, 0, 0⟩], i.wf = false := by decide +kernel

theorem test_wf_partCtx : ∀ o ∈ [(⟨0, 0, 0, 65, 0, 0, 0, 0, 0, 0, 0, 0, 0, 0, 0, 0⟩ : PartCtxOps), ⟨0, 0, 0, 0, 0, 0, 64, 65, 0, 0, 0, 0, 0, 0, 0, 0⟩,
    ⟨0, 0, 0, 0, 0, 0, 0, 0, 60, 5, 0, 0, 0, 0, 0, 0⟩, ⟨0, 0, 0, 0, 1, 0, 0, 0, 0, 0, 0x1001, 0, 0x1004, 0x1004, 0x1004, 0⟩,
    ⟨0, 0, 0, 0, 1, 0, 0, 0, 0, 0, 0x1000, 0x1000, 0x1004, 0x1004, 0x1004, 0⟩, ⟨0, 0, 0, 0, 1, 0, 0, 0, 0, 0, 0x1000, 0, 0x1003, 0x1004, 0x1004, 0⟩,
    ⟨0, 0, 0, 0, 1, 0, 0, 0, 0, 0, 0x1000, 0, 0x1004, 0x100D, 0x1004, 0⟩, ⟨0, 0, 0, 0, 1, 0, 0, 0, 0, 0, 0x1000, 0, 0x1004, 0x1004, 0x1044, 0⟩,
    ⟨0, 0, 0, 0, 1, 0, 0, 0, 0, 0, 0x1000, 0, 0x1004, 0x1004, 0x1004, 0x40⟩, ⟨0, 0, 0, 0, 1, 0, 0, 0, 0, 0, 0x1000, 0, 0x1004, 0x1004, 0x1004, 2 ^ 57⟩,
    ⟨0, 0, 0, 0, 0, 0, 0, 0, 0, 0, 0x1001, 0, 0, 0, 0, 0⟩, ⟨0, 0, 0, 0, 0, 0, 0, 0, 0, 0, 0, 0x1000, 0, 0, 0, 0⟩, ⟨0, 0, 0, 0, 0, 0, 0, 0, 0, 0, 0, 0, 0x1043, 0, 0, 0⟩],
    (Instr.partCtx o).wf = false := by decide +kernel


/-! ## Hypotheses of the statements: states and operands that meet them -/

/-- A task on row 0 of core 0, with charge enough for any instruction. -/
def aTask : Machine.Task := { placeTask with budget := 100000 }

/-- A task on the row whose turn it is. -/
def onRow (t : Machine.Task) : State := { State.reset.setTask 0 (some t) with turn := .row 0 }

def paid (t : Machine.Task) (n : Nat) : Machine.Task := { t with meter := t.meter + n }

/-- Registers 1 and 2 hold the operands. -/
def reg (a b : Word) : Machine.Task := (aTask.setS 1 a).setS 2 b

theorem reg_holds (a b : Word) (n : Nat) : (paid (reg a b) n).S 1 = a ∧ (paid (reg a b) n).S 2 = b := by
  have h1 : (reg a b).S 1 = a := by rw [reg, Task.S_setS_other _ _ (by decide), Task.S_setS_same _ _ _ (by decide)]
  have h2 : (reg a b).S 2 = b := by rw [reg, Task.S_setS_same _ _ _ (by decide)]
  exact ⟨h1, h2⟩

theorem paying {t : Machine.Task} {n : Nat} (hd : t.dark = none) (hm : t.measured = false) (h : t.meter + n ≤ t.budget)
    (hc : t.charged = false := by rfl) : Paying (onRow t) 0 t n (onRow t) (paid t n) :=
  ⟨rfl, rfl, by rw [State.pay_budget _ _ _ hc hd hm, if_neg (by omega)]; rfl⟩

theorem paying_reg (a b : Word) {n : Nat} (h : 48 + n ≤ 100000) : Paying (onRow (reg a b)) 0 (reg a b) n (onRow (reg a b)) (paid (reg a b) n) :=
  paying rfl rfl h

/-- `paying_reg` meets the premise of every register operation, with any operands. -/
theorem witness_IntegerResults : Paying (onRow aTask) 0 aTask 4 (onRow aTask) (paid aTask 4) ∧ Paying (onRow aTask) 0 aTask 8 (onRow aTask) (paid aTask 8) :=
  ⟨paying rfl rfl (by decide), paying rfl rfl (by decide)⟩

/-- Every pair of operands that a clause of the division rule names, the divisor 0 and the overflow among them. -/
theorem witness_DivisionResults : ∀ n ∈ [4, 8, 24], ∀ e ∈ ([(7, 0), (BitVec.intMin 64, BitVec.allOnes 64), (-7, 2), (BitVec.allOnes 64, BitVec.allOnes 64),
    (0xB6, 0xF0), (0xB, 0xF0), (0x80000000, 1)] : List (Word × Word)), Paying (onRow (reg e.1 e.2)) 0 (reg e.1 e.2) n (onRow (reg e.1 e.2)) (paid (reg e.1 e.2) n) ∧
      (paid (reg e.1 e.2) n).S 1 = e.1 ∧ (paid (reg e.1 e.2) n).S 2 = e.2 := by
  intro n hn e _
  refine ⟨paying_reg _ _ ?_, reg_holds _ _ _⟩
  simp only [List.mem_cons, List.not_mem_nil, or_false] at hn
  omega

theorem witness_BitMoves : Paying (onRow (reg 0xB6 0xF0)) 0 (reg 0xB6 0xF0) 4 (onRow (reg 0xB6 0xF0)) (paid (reg 0xB6 0xF0) 4) := paying_reg _ _ (by decide)

theorem witness_ImmediateResults : Paying (onRow (reg 7 9)) 0 (reg 7 9) 4 (onRow (reg 7 9)) (paid (reg 7 9) 4) := paying_reg _ _ (by decide)

theorem witness_FloatResults : ∀ n ∈ [8, 10, 24], Paying (onRow (reg 0x3F800000 0x40000000)) 0 (reg 0x3F800000 0x40000000) n
    (onRow (reg 0x3F800000 0x40000000)) (paid (reg 0x3F800000 0x40000000) n) := by
  intro n hn
  refine paying_reg _ _ ?_
  simp only [List.mem_cons, List.not_mem_nil, or_false] at hn
  omega

/-- FP32 words of each class that a clause names. -/
theorem witness_FloatSpecialCases : fp32.value 0x7F800001 = .nan true ∧ fp32.value 0x7FC00000 = .nan false ∧ fp32.value 0x7F800000 = .inf false ∧
    fp32.value 0xFF800000 = .inf true ∧ (∃ e, fp32.value 0 = .fin false 0 e) ∧ (∃ e, fp32.value 0x80000000 = .fin true 0 e) ∧
    (∃ m e, fp32.value 0x3F800000 = .fin false m e ∧ m ≠ 0 ∧ fp32.value 0xBF800000 = .fin true m e) ∧
    fmOf (0 : BitVec 3).toNat = fp32 :=
  ⟨by decide +kernel, by decide +kernel, by decide +kernel, by decide +kernel, ⟨_, rfl⟩, ⟨_, rfl⟩, ⟨_, _, rfl, by decide +kernel, rfl⟩, rfl⟩

/-- An addend beside infinity times infinity that agrees, and one that is finite; a finite product beside an infinity. -/
theorem witness_FloatSpecialCases_fma : (∀ z ∈ [0x7F800000, 0x3F800000], (fp32.value z).isNaN = false ∧ fp32.value z ≠ .inf (false == false)) ∧
    (∃ m e, fp32.value 0x3F800000 = .fin false m e) ∧ fp32.value 0xFF800000 = .inf true := ⟨by decide +kernel, ⟨_, _, rfl⟩, by decide +kernel⟩

/-- Numbers to convert to an integer: 2^24, which is one as it stands, and 1.5, a tie. -/
theorem witness_FloatSpecialCases_integers : fp32.value 0x4B800000 = .fin false (2 ^ 23) 1 ∧ fp32.value 0x3FC00000 = .fin false (3 * 2 ^ 22) (-23) ∧
    2 * (3 * 2 ^ 22 % 2 ^ 23) = 2 ^ 23 := by decide +kernel

/-- The smallest subnormal, one, and the largest finite FP32 number. -/
theorem witness_RoundKeepsRepresentable : ∀ x ∈ [1, 0x3F800000, 0x7F7FFFFF], x < 2 ^ (fmOf (0 : BitVec 3).toNat).width ∧
    (match (fmOf (0 : BitVec 3).toNat).value x with | .fin _ m _ => m != 0 | _ => false) = true := by decide +kernel

theorem witness_RegisterFiles : (31 : BitVec 5) ≠ 0 ∧ (1 : BitVec 5) ≠ 31 ∧ (7 : BitVec 3) ≠ 0 ∧ (1 : BitVec 3) ≠ 7 := by decide

theorem witness_SpecialRegisterMoves : Paying (onRow aTask) 0 aTask 4 (onRow aTask) (paid aTask 4) := paying rfl rfl (by decide)

/-- Operands for which each branch is taken and not taken, and counts 0, 1 and 2 for BDNZ. -/
theorem witness_Branches : ∀ e ∈ ([(0, 1), (1, 1), (2, 1), (-1, 1)] : List (Word × Word)),
    Paying (onRow (reg e.1 e.2)) 0 (reg e.1 e.2) 4 (onRow (reg e.1 e.2)) (paid (reg e.1 e.2) 4) ∧ (paid (reg e.1 e.2) 4).S 1 = e.1 ∧
      (paid (reg e.1 e.2) 4).S 2 = e.2 := fun e _ => ⟨paying_reg _ _ (by decide), reg_holds _ _ _⟩

theorem witness_Jumps : Paying (onRow (reg 0x8000 0)) 0 (reg 0x8000 0) 4 (onRow (reg 0x8000 0)) (paid (reg 0x8000 0) 4) ∧
    ((paid (reg 0x8000 0) 4).S 1 + (4 : BitVec 16).signExtend 64).toNat % 4 = 0 ∧ ((paid (reg 0x8000 0) 4).S 1 + (2 : BitVec 16).signExtend 64).toNat % 4 ≠ 0 := by
  refine ⟨paying_reg _ _ (by decide), ?_, ?_⟩ <;> rw [(reg_holds _ _ _).1] <;> decide

/-- A task in a dark run, in measured mode. -/
def darkTask : Machine.Task := { aTask with dark := some ⟨0, 2, 0, 0, 0, 0, 0⟩, measured := true, meter := 0 }

theorem paying_dark : ∀ n ∈ [4, 8], ∃ s1, Paying (onRow darkTask) 0 darkTask n s1 { paid darkTask n with dark := some ⟨0, 2, 0, 0, 0, 0, 0⟩ } := by
  intro n hn
  simp only [List.mem_cons, List.not_mem_nil, or_false] at hn
  rcases hn with rfl | rfl <;> exact ⟨_, rfl, rfl, rfl⟩

theorem witness_ChargeRequests : Paying (onRow aTask) 0 aTask 8 (onRow aTask) (paid aTask 8) ∧ (paid aTask 8).dark = none ∧
    (∃ s1 t1, Paying (onRow darkTask) 0 darkTask 8 s1 t1 ∧ t1.dark ≠ none) ∧
    Paying (onRow aTask) 0 aTask 4 (onRow aTask) (paid aTask 4) ∧ (paid aTask 4).measured = false ∧
    (∃ s1 t1, Paying (onRow darkTask) 0 darkTask 4 s1 t1 ∧ t1.measured = true) :=
  ⟨paying rfl rfl (by decide), rfl, (paying_dark 8 (by decide)).elim fun s h => ⟨s, _, h, by decide⟩, paying rfl rfl (by decide), rfl,
    (paying_dark 4 (by decide)).elim fun s h => ⟨s, _, h, rfl⟩⟩

/-- A charge that just fits, one that does not, under each `SMF`; and a dark run at 262,144, past it, and out of packets. -/
theorem witness_ChargeStep : (onRow aTask).turn = .row 0 ∧ (onRow aTask).task 0 = some aTask ∧ aTask.dark = none ∧ aTask.measured = false ∧
    aTask.meter + (aTask.budget - aTask.meter) ≤ aTask.budget ∧ aTask.budget < aTask.meter + (aTask.budget - aTask.meter + 1) ∧ aTask.smf = false ∧
    ({ aTask with smf := true } : Machine.Task).smf = true ∧
    darkTask.dark = some ⟨0, 2, 0, 0, 0, 0, 0⟩ ∧ darkTask.meter + 262144 ≤ 262144 ∧ 262144 < darkTask.meter + 262145 ∧
    ((onRow darkTask).part (partOf darkTask.cx)).plevel < cdiv (darkTask.meter + 262144 - 0) 64 - 2 ∧
    cdiv (darkTask.meter + 128 - 0) 64 - 2 ≤ ((onRow darkTask).part (partOf darkTask.cx)).plevel := by decide +kernel

/-- The entry that covers the page at 0x4000, and the state whose row 0 holds it. -/
def page : PEnt := State.reset.placeEntry aTask
def memS (t : Machine.Task) : State := (onRow t).setPort 0 ⟨[page], [], none, none⟩

theorem paying_mem {t : Machine.Task} {n : Nat} (hd : t.dark = none) (hm : t.measured = false) (h : t.meter + n ≤ t.budget)
    (hc : t.charged = false := by rfl) : Paying (memS t) 0 t n (memS t) (paid t n) :=
  ⟨rfl, rfl, by rw [State.pay_budget _ _ _ hc hd hm, if_neg (by omega)]; rfl⟩

/-- An aligned access of every kind within the page; one of a lane slice, of a pad's last doubleword. -/
theorem located_mem (t : Machine.Task) (hr : t.row = 0) (hc : t.cx = 0) (acc : Nat) (ha : acc = 1 ∨ acc = 2 ∨ acc = 3) :
    Located (memS t) t 0 0x4FF8 8 acc ((memS t).usePort 0 page) (entKey page 0x4FF8) [page] := by
  refine ⟨by decide, ?_⟩
  rw [if_pos rfl, hr, hc]
  refine ⟨by decide, page, ?_, rfl, rfl, rfl⟩
  rcases ha with rfl | rfl | rfl <;> rfl

theorem located_lane (t : Machine.Task) (acc : Nat) : Located (memS t) t 1 0xFF8 8 acc (memS t) (laneKey t.row 0 0xFF8) [] := by
  refine ⟨by decide, ?_⟩
  rw [if_neg (by decide)]
  exact ⟨by decide, rfl, rfl, rfl⟩

theorem located_pad (t : Machine.Task) (hc : t.cx = 0) (hk : t.core = 0) (acc : Nat) :
    Located (memS t) t 2 0x7FFFF8 8 acc (memS t) (spaceKey 2 t.core 0x7FFFF8) [] := by
  refine ⟨by decide, ?_⟩
  rw [if_neg (by decide)]
  refine ⟨by decide, rfl, rfl, ?_⟩
  rw [if_neg (by decide), hc, hk]
  exact ⟨rfl, rfl⟩

/-- A task whose staged store covers the doubleword at 0x4FF8. -/
def stored : Machine.Task := { reg 0 0x4FF8 with staged := [.store (cellsAt (entKey page 0x4FF8) (List.replicate 8 7)) 0x4FF8 [page]], nstore := 1, nbytes := 8 }

/-- Loads: not covered by staging and clean, covered, and poisoned; of `mem`, a slice and a pad. -/
theorem witness_ScalarLoads : (let t := reg 0 0x4FF8;
    Paying (memS t) 0 t 12 (memS t) (paid t 12) ∧ (paid t 12).S 2 + (0 : BitVec 10).signExtend 64 * BitVec.ofNat 64 8 = 0x4FF8 ∧
      Located (memS t) (paid t 12) 0 0x4FF8 8 1 ((memS t).usePort 0 page) (entKey page 0x4FF8) [page] ∧
      covered (paid t 12).staged (entKey page 0x4FF8) 8 = false ∧ ((memS t).usePort 0 page).poisoned (entKey page 0x4FF8) 8 = none) ∧
    (Paying (memS stored) 0 stored 12 (memS stored) (paid stored 12) ∧
      Located (memS stored) (paid stored 12) 0 0x4FF8 8 1 ((memS stored).usePort 0 page) (entKey page 0x4FF8) [page] ∧
      covered (paid stored 12).staged (entKey page 0x4FF8) 8 = true) ∧
    (let s := ({ memS (reg 0 0x4FF8) with poison := [entKey page 0x4FF8 / 256] } : State);
      Paying s 0 (reg 0 0x4FF8) 12 s (paid (reg 0 0x4FF8) 12) ∧ s.poisoned (entKey page 0x4FF8) 8 ≠ none) ∧
    (∀ t : Machine.Task, Located (memS t) t 1 0xFF8 8 1 (memS t) (laneKey t.row 0 0xFF8) []) :=
  ⟨⟨paying_mem rfl rfl (by decide), by rw [(reg_holds _ _ _).2]; decide, located_mem _ rfl rfl 1 (by decide), by decide +kernel, by decide +kernel⟩,
    ⟨paying_mem rfl rfl (by decide), located_mem _ rfl rfl 1 (by decide), by decide +kernel⟩,
    ⟨⟨rfl, rfl, rfl⟩, by decide +kernel⟩, fun t => located_lane t 1⟩

/-- Stores: the last that fits the 16,384 staged bytes, and the first that does not. -/
theorem witness_ScalarStores : ∀ n ∈ [16376, 16377], let t := { reg 0 0x4FF8 with nbytes := n };
    Paying (memS t) 0 t 12 (memS t) (paid t 12) ∧ Located (memS t) (paid t 12) 0 0x4FF8 8 2 ((memS t).usePort 0 page) (entKey page 0x4FF8) [page] ∧
      ((paid t 12).nbytes + 8 ≤ 16384 ↔ n = 16376) := by
  intro n _
  exact ⟨paying_mem rfl rfl (by show 48 + 12 ≤ 100000; decide), located_mem _ rfl rfl 2 (by decide), by show n + 8 ≤ 16384 ↔ _; simp at *; omega⟩

/-- A context whose pad range is the first half of the pad. -/
def halfPad : Ctx := { Ctx.create Setup.ctx0 chain00 with setup := { Setup.ctx0 with padn := 64 } }
def readOnly : PEnt := { page with w := false }

/-- Misaligned; not canonical and beyond a slice; without permission to write; without an entry; beyond the context's range. -/
theorem witness_ScalarAccessEnds : (∀ ea : Word, let t := reg 0 ea;
      Paying (memS t) 0 t 12 (memS t) (paid t 12) ∧ (paid t 12).S 2 + (0 : BitVec 10).signExtend 64 * BitVec.ofNat 64 8 = ea) ∧
    0x4001 % 8 ≠ 0 ∧ isCanon (2 ^ 56) = false ∧ 2 ^ 56 % 8 = 0 ∧ extent 1 ≤ 4096 ∧ isCanon 0x4FF8 = true ∧
    ((memS aTask).setPort 0 ⟨[readOnly], [], none, none⟩).lookup 0 0 0x4FF8 2 = some .prot ∧ (onRow aTask).lookup 0 0 0x4FF8 1 = none ∧
    0x400000 < extent 2 ∧ ((memS aTask).setCtx 0 halfPad).reachable 0 0 2 0x400000 8 = false ∧
    ((memS aTask).setCtx 0 halfPad).reachable 0 0 2 0x3FFFF8 8 = true := by
  refine ⟨fun ea => ⟨paying_mem rfl rfl (by show 48 + 12 ≤ 100000; decide), ?_⟩, by decide +kernel⟩
  rw [(reg_holds _ _ _).2]; simp

theorem witness_LoadsSeeStagedStores : (∀ cs va us, Staged.ptsync ≠ .store cs va us) ∧ Memory.wf State.reset.mem = true :=
  ⟨fun _ _ _ => by simp, by decide⟩

/-- Handle 0 an input and handle 1 an output of 4-byte slots, two of them guaranteed. -/
def handles : List Handle := [⟨false, false, padKey 0 0x100, false, 4, 2, 0, 2, 1⟩, ⟨true, false, padKey 0 0x200, false, 4, 2, 0, 2, 1⟩]
def chanTask (e : Word) (nchw : Nat) : Machine.Task := { reg e 0 with handles := handles, nchw := nchw }

/-- No handle; the wrong direction; the last guaranteed slot and the first beyond; the 256th staged word and the one after. -/
theorem witness_ChannelWords : ∀ e ∈ ([1, 2] : List Word), ∀ n ∈ [255, 256], let t := chanTask e n;
    Paying (onRow t) 0 t 8 (onRow t) (paid t 8) ∧ ((paid t 8).S 1 + (0 : BitVec 9).setWidth 64).toNat = e.toNat ∧
      (paid t 8).handles[(2 : BitVec 4).toNat]? = none ∧ (∃ h, (paid t 8).handles[(0 : BitVec 4).toNat]? = some h ∧ h.out = false ∧
        (e.toNat / slotWords h.slotSz < h.g ↔ e = 1)) ∧
      (∃ h, (paid t 8).handles[(1 : BitVec 4).toNat]? = some h ∧ h.out = true) ∧ ((paid t 8).nchw < 256 ↔ n = 255) := by
  intro e he n hn
  simp only [List.mem_cons, List.not_mem_nil, or_false] at he hn
  rcases he with rfl | rfl <;> rcases hn with rfl | rfl <;>
    exact ⟨paying rfl rfl (by decide), by decide +kernel, rfl, ⟨_, rfl, rfl, by decide +kernel⟩, ⟨_, rfl, rfl⟩, by decide +kernel⟩

/-- Bytes of a channel within the context's range and outside it, clean and poisoned. -/
theorem witness_ChannelWords_bytes : let k := slotKey (padKey 0 0x100) 2 4 0 + 4; let s := onRow (chanTask 1 0)
    s.chanHolds 0 false k 4 = true ∧ s.poisoned k 4 = none ∧ k < 2 ^ 64 ∧ ({ s with poison := [k / 256] } : State).poisoned k 4 ≠ none ∧
      (s.setCtx 0 halfPad).chanHolds 0 false (slotKey (padKey 0 0x400000) 2 4 0) 4 = false ∧
      s.chanHolds 0 false (tagKey (padKey 0 0x100) 2 0) 1 = true ∧ (s.setCtx 0 halfPad).chanHolds 0 false (tagKey (padKey 0 0x400000) 2 0) 1 = false := by
  decide +kernel

/-- An advance of the whole guaranteed count and one beyond it; EMIT of a valid QFENCE, of words that are none, misaligned, past the slice, and when
sixteen commands are staged. -/
def fenceWord : Nat := dw [1, 31 * 2 ^ 35 + 0x0E * 2 ^ 56]
def emitTask (a : Word) (n : Nat) : Machine.Task := { reg a 0 with ncmd := n }
def emitS (t : Machine.Task) (w : Nat) : State := (onRow t).writeN (laneKey 0 0 0x40) 16 w

theorem witness_AdvancesAndEmit : (let t := chanTask 1 0;
      Paying (onRow t) 0 t 4 (onRow t) (paid t 4) ∧ (∃ h, (paid t 4).handles[(0 : BitVec 4).toNat]? = some h ∧ h.out = false ∧ h.adv + 1 ≤ h.g ∧ h.g < h.adv + 2)) ∧
    (∀ n ∈ [15, 16], ∀ w ∈ [fenceWord, 0], let t := emitTask 0x40 n;
      Paying (emitS t w) 0 t 24 (emitS t w) (paid t 24) ∧ (paid t 24).S 1 = 0x40 ∧
        (emitS t w).poisoned (laneKey 0 0 0x40) 16 = none ∧ (cmdValid 0 (loadN (emitS t w).mem (paid t 24) (laneKey 0 0 0x40) 16) 0 = (w != 0)) ∧
        bits (loadN (emitS t w).mem (paid t 24) (laneKey 0 0 0x40) 16) 98 1 = 0) ∧
    0x48 % 16 ≠ 0 ∧ 4096 < 0xFF8 + 16 := by
  refine ⟨⟨paying rfl rfl (by decide), _, rfl, rfl, by decide, by decide⟩, ?_, by decide⟩
  intro n hn w hw
  simp only [List.mem_cons, List.not_mem_nil, or_false] at hn hw
  rcases hn with rfl | rfl <;> rcases hw with rfl | rfl <;>
    exact ⟨⟨rfl, rfl, rfl⟩, by decide +kernel, by decide +kernel, by decide +kernel, by decide +kernel⟩

/-- A task that is no stage, and one that is; successors all zero and not; scopes of a gang that spans. -/
theorem witness_Exits : (let t := reg 0 0x4FF8;
      Paying (memS t) 0 t (32 + 2 * t.nstore + 4 * t.nchw + 8 * t.ncmd) (memS t) (paid t 32) ∧ (paid t 32).stage = none ∧
        Located (memS t) (paid t 32) 0 0x4FF8 8 1 ((memS t).usePort 0 page) (entKey page 0x4FF8) [page] ∧
        Located (memS t) (paid t 32) 0 0x4FF8 8 3 ((memS t).usePort 0 page) (entKey page 0x4FF8) [page] ∧ (paid t 32).S 2 = 0x4FF8 ∧
        spanScope (paid t 32) ≤ 1) ∧
    (let t := ({ reg 0 5 with stage := some (0, 0) } : Machine.Task);
      Paying (onRow t) 0 t (32 + 2 * t.nstore + 4 * t.nchw + 8 * t.ncmd) (onRow t) (paid t 32) ∧ (paid t 32).stage ≠ none ∧ (paid t 32).S 2 ≠ 0 ∧
        (paid t 32).S 1 = 0) ∧
    (let t := ({ reg 0 5 with gspan := true } : Machine.Task);
      Paying (onRow t) 0 t (32 + 2 * t.nstore + 4 * t.nchw + 8 * t.ncmd) (onRow t) (paid t 32) ∧ 1 < spanScope (paid t 32)) :=
  ⟨⟨paying_mem rfl rfl (by decide), rfl, located_mem _ rfl rfl 1 (by decide), located_mem _ rfl rfl 3 (by decide), (reg_holds _ _ _).2, by decide⟩,
    ⟨paying rfl rfl (by decide), by decide, by decide +kernel, by decide +kernel⟩, ⟨paying rfl rfl (by decide), by decide⟩⟩

theorem witness_StagedAtomics : ∀ n ∈ [16376, 16377], let t := { reg 0x4FF8 1 with nbytes := n };
    Paying (memS t) 0 t 16 (memS t) (paid t 16) ∧ Located (memS t) (paid t 16) 0 0x4FF8 8 3 ((memS t).usePort 0 page) (entKey page 0x4FF8) [page] ∧
      ((paid t 16).nbytes + 8 ≤ 16384 ↔ n = 16376) := by
  intro n _
  exact ⟨paying_mem rfl rfl (by show 48 + 16 ≤ 100000; decide), located_mem _ rfl rfl 3 (by decide), by show n + 8 ≤ 16384 ↔ _; simp at *; omega⟩

theorem witness_AtomicResults : Memory.wf ((onRow aTask).writeN 0x4000 8 5).mem = true ∧ (0x3FFF < 0x4000 ∨ 0x4000 + 8 ≤ 0x3FFF) ∧
    (0x4008 < 0x4000 ∨ 0x4000 + 8 ≤ 0x4008) := by decide +kernel

/-- A context without privilege whose breakpoints freeze. -/
def userCtx : Ctx := { Ctx.create Setup.ctx0 chain00 with setup := { Setup.ctx0 with priv := false }, dbg := { Dbg.zero with brken := true } }

/-- The task of row 0 has read what the commit on row 1 has written and still holds back. -/
def seenS : State := { (onRow aTask).setTask 1 (some ({ aTask with row := 1, cscope := 2 }.withCommit ⟨.amo 0 0 8 0 0 0, 4, [], [], [], [], 0, none, .room, [(0x4000, 8)], 1⟩)) with seen := [(0, 1)] }

theorem witness_SystemInstructions : ((onRow aTask).setCtx 0 userCtx).turn = .row 0 ∧ ((onRow aTask).setCtx 0 userCtx).task 0 = some aTask ∧
    ((((onRow aTask).setCtx 0 userCtx).ctx 0).any fun x => x.setup.priv) = false ∧ ((((onRow aTask).setCtx 0 userCtx).ctx 0).any fun x => x.dbg.brken) = true ∧
    (((onRow aTask).ctx 0).any fun x => x.setup.priv) = true ∧ (((onRow aTask).ctx 0).any fun x => x.dbg.brken) = false ∧
    (∀ n ∈ [15, 16], Paying (onRow (emitTask 0 n)) 0 (emitTask 0 n) 4 (onRow (emitTask 0 n)) (paid (emitTask 0 n) 4) ∧ ((paid (emitTask 0 n) 4).ncmd < 16 ↔ n = 15)) ∧
    Paying ((onRow aTask).setCtx 0 userCtx) 0 aTask 4 ((onRow aTask).setCtx 0 userCtx) (paid aTask 4) ∧
    (onRow aTask).fenced aTask 2 = false ∧ seenS.fenced aTask 2 = true ∧ Paying seenS 0 aTask 4 seenS (paid aTask 4) := by
  refine ⟨rfl, rfl, by decide +kernel, by decide +kernel, by decide +kernel, by decide +kernel, fun n _ => ⟨paying rfl rfl (by show 48 + 4 ≤ 100000; decide), ?_⟩, ⟨rfl, rfl, rfl⟩,
    by decide +kernel, by decide +kernel, rfl, rfl, rfl⟩
  show n < 16 ↔ _
  simp at *; omega

theorem witness_VectorMasking : (1 : BitVec 5) ≠ 2 ∧ (0 : BitVec 5) ≠ 31 := by decide

theorem paying_aTask {n : Nat} (h : 48 + n ≤ 100000) : Paying (onRow aTask) 0 aTask n (onRow aTask) (paid aTask n) := paying rfl rfl h

theorem witness_VectorIntegerResults : Paying (onRow aTask) 0 aTask 48 (onRow aTask) (paid aTask 48) := paying_aTask (by decide)
theorem witness_VectorFloatResults : Paying (onRow aTask) 0 aTask 64 (onRow aTask) (paid aTask 64) ∧ Paying (onRow aTask) 0 aTask 80 (onRow aTask) (paid aTask 80) ∧
    Paying (onRow aTask) 0 aTask 160 (onRow aTask) (paid aTask 160) := ⟨paying_aTask (by decide), paying_aTask (by decide), paying_aTask (by decide)⟩

/-- With the programmable format on and off. -/
theorem witness_VectorConversions : ∀ f ∈ ([0, 0x20] : List Word), ∀ n ∈ [64, 96], let t := { aTask with fmt := f };
    Paying (onRow t) 0 t n (onRow t) (paid t n) ∧ ((paid t n).fmt.toNat / 16 % 8 = 0 ↔ f = 0) := by
  intro f hf n hn
  simp only [List.mem_cons, List.not_mem_nil, or_false] at hf hn
  rcases hf with rfl | rfl <;> rcases hn with rfl | rfl <;> exact ⟨paying rfl rfl (by decide), by decide⟩

theorem witness_VectorReductions : Paying (onRow aTask) 0 aTask 96 (onRow aTask) (paid aTask 96) := paying_aTask (by decide)
theorem witness_VectorMoves : Paying (onRow aTask) 0 aTask 48 (onRow aTask) (paid aTask 48) := paying_aTask (by decide)
theorem witness_VectorCompares : ∀ n ∈ [4, 48, 64], Paying (onRow aTask) 0 aTask n (onRow aTask) (paid aTask n) := by
  intro n hn
  simp only [List.mem_cons, List.not_mem_nil, or_false] at hn
  exact paying_aTask (by omega)

/-- Consecutive lanes from an address. -/
def lanesFrom (ea : Word) (g i : Nat) : Word := ea + BitVec.ofNat 64 (g * i)

/-- An address that is misaligned, one that is not canonical, the last that fits a pad and the first that does not, and one that fits and is reached. -/
theorem witness_VectorAddresses : ¬(2 : Word).toNat % 4 = 0 ∧ isCanon (2 ^ 56 : Nat) = false ∧ (∀ i < 16, (lanesFrom (2 ^ 56) 4 i).toNat % 4 = 0) ∧
    (∀ i < 16, (lanesFrom 0x7FFFC0 4 i).toNat % 4 = 0 ∧ (lanesFrom 0x7FFFC0 4 i).toNat + 4 ≤ extent 2 ∧
      (onRow aTask).reachable aTask.cx aTask.core 2 (lanesFrom 0x7FFFC0 4 i).toNat 4 = true) ∧
    ¬(∀ i < 16, (lanesFrom 0x7FFFC4 4 i).toNat + 4 ≤ extent 2) := by decide +kernel

theorem witness_VectorAddresses_ok : ∃ s2 es, (memS aTask).elems aTask 0 0x4FC0 1 (lanesFrom 0x4FC0) = .ok s2 es 4 0 ∧ es.length = 16 := by
  refine ⟨_, _, rfl, rfl⟩

theorem witness_VectorMemory : (let t := reg 0 0x4FC0;
    Paying (memS t) 0 t 96 (memS t) (paid t 96) ∧ (paid t 96).S 2 + (0 : BitVec 10).signExtend 64 * 64 = 0x4FC0 ∧
    (∀ acc ∈ [1, 2], ∃ s2 es, (memS t).elems (paid t 96) 0 0x4FC0 acc (lanesFrom 0x4FC0) = .ok s2 es 4 0 ∧
      (∀ e ∈ es, s2.poisoned e.key 4 = none)) ∧
    (∃ s2 es, (memS t).elems (paid t 96) 0 0x4FC0 1 (fun _ i => 0x4FC0 + (((paid t 96).V 1)[i % 16]'(Nat.mod_lt _ (by decide))).signExtend 64) = .ok s2 es 4 0 ∧
      (∀ e ∈ es, s2.poisoned e.key 4 = none))) ∧
    (∀ b ∈ ([0xFFC, 0xFFE, 0x1000] : List Word), Paying (onRow (reg 0 b)) 0 (reg 0 b) 32 (onRow (reg 0 b)) (paid (reg 0 b) 32) ∧
      (paid (reg 0 b) 32).S 2 + (0 : BitVec 10).signExtend 64 * 4 = b ∧ (b.toNat % 4 = 0 ∧ b.toNat ≤ 4092 ↔ b = 0xFFC)) := by
  refine ⟨⟨paying_mem rfl rfl (by decide), by rw [(reg_holds _ _ _).2]; decide, ?_, ?_⟩, ?_⟩
  · intro acc ha
    simp only [List.mem_cons, List.not_mem_nil, or_false] at ha
    rcases ha with rfl | rfl <;> exact ⟨_, _, rfl, by decide +kernel⟩
  · exact ⟨_, _, rfl, by decide +kernel⟩
  · intro b hb
    refine ⟨paying_reg _ _ (by decide), ?_, ?_⟩
    · rw [(reg_holds _ _ _).2]; simp
    · simp only [List.mem_cons, List.not_mem_nil, or_false] at hb
      rcases hb with rfl | rfl | rfl <;> decide

/-- Tables from the last 2 KiB of the pad, misaligned, past its end, and outside the context's range. -/
theorem witness_LutIsland : (∀ a ∈ ([0x7FF800, 0x7FF801, 0x7FF840] : List Word), Paying (onRow (reg a 0)) 0 (reg a 0) 3072 (onRow (reg a 0)) (paid (reg a 0) 3072) ∧
      (paid (reg a 0) 3072).S 1 = a ∧ (a.toNat % 64 = 0 ∧ a.toNat + 2048 ≤ 2 ^ 23 ↔ a = 0x7FF800)) ∧
    (onRow aTask).reachable 0 0 2 0x7FF800 2048 = true ∧ (onRow aTask).poisoned (padKey 0 0x7FF800) 2048 = none ∧
    ((onRow aTask).setCtx 0 halfPad).reachable 0 0 2 0x7FF800 2048 = false ∧ Paying (onRow aTask) 0 aTask 32 (onRow aTask) (paid aTask 32) := by
  refine ⟨fun a ha => ⟨paying_reg _ _ (by decide), (reg_holds _ _ _).1, ?_⟩, by decide +kernel, by decide +kernel, by decide +kernel, paying_aTask (by decide)⟩
  simp only [List.mem_cons, List.not_mem_nil, or_false] at ha
  rcases ha with rfl | rfl | rfl <;> decide

/-- A decision of partition 0 on die 0 with two candidates, its cursor on the first. -/
def aDecision : Decision := { placeDecision 0 with snap := [⟨1, [5, 9], 0⟩, ⟨4, [5, 7], 0⟩], cursor := some 1, f := Vector.ofFn fun i => if i.val = 1 then 0x80000000 else 0 }
def deciding (d : Decision) : State := { State.reset.setFcast 0 { Fcast.start with run := some d } with turn := .forecast 0 0 }

theorem witness_ForecastRegisterResults : Deciding (deciding aDecision) 0 0 aDecision ∧ (∃ q, (aDecision.cursor.bind fun q => aDecision.snap.find? fun e => e.q == q) = some q) ∧
    Deciding (deciding { aDecision with cursor := none, ops := 127 }) 0 0 { aDecision with cursor := none, ops := 127 } :=
  ⟨⟨rfl, rfl, by decide⟩, ⟨_, rfl⟩, rfl, rfl, by decide⟩

/-- A register that is zero and one that is negative; a jump within the image and one below it; a next candidate, none, and the two picks. -/
theorem witness_ForecastControlResults : Deciding (deciding aDecision) 0 0 aDecision ∧ (aDecision.snap.Pairwise fun a b => a.q < b.q) ∧
    aDecision.f[0] = 0 ∧ aDecision.f[1].getLsbD 31 = true ∧ 0 ≤ (aDecision.pc : Int) + 1 + (-1 : BitVec 8).toInt ∧ (aDecision.pc : Int) + 1 + (-2 : BitVec 8).toInt < 0 ∧
    (∃ q ∈ aDecision.snap, 1 < q.q) ∧ (∀ q ∈ aDecision.snap, ¬4 < q.q) ∧
    (∃ q ∈ aDecision.snap, ∀ e ∈ aDecision.snap, q.fields.getD 0 0 < e.fields.getD 0 0 ∨ (q.fields.getD 0 0 = e.fields.getD 0 0 ∧ q.q ≤ e.q)) ∧
    (∃ q ∈ aDecision.snap, ∀ e ∈ aDecision.snap, e.fields.getD 1 0 < q.fields.getD 1 0 ∨ (q.fields.getD 1 0 = e.fields.getD 1 0 ∧ q.q ≤ e.q)) ∧
    Deciding (deciding { aDecision with snap := [] }) 0 0 { aDecision with snap := [] } :=
  ⟨⟨rfl, rfl, by decide⟩, by decide, by decide, by decide, by decide, by decide, by decide, by decide, by decide, by decide, rfl, rfl, by decide⟩

/-- An answer of each kind that belongs, one that does not, a deferral, and a decision that has done its 128 operations. -/
theorem witness_ForecastEnds : (∀ e ∈ [(Answer.disp (some 1), 0), (.preempt 3, 1), (.faultact 2, 2), (.defer, 0), (.faultact 3, 2)],
      (deciding { aDecision with ans := some e.1, kind := e.2 }).turn = .forecast 0 0 ∧
      ((deciding { aDecision with ans := some e.1, kind := e.2 }).fcast 0).run = some { aDecision with ans := some e.1, kind := e.2 }) ∧
    ¬(3 ≤ 2) ∧ ((deciding aDecision).part 0).swap = none ∧ aDecision.ops < 128 ∧
    ((deciding { aDecision with ops := 128 }).fcast 0).run = some { aDecision with ops := 128 } ∧ 128 ≤ ({ aDecision with ops := 128 } : Decision).ops :=
  ⟨fun _ _ => ⟨rfl, rfl⟩, by decide, by decide, by decide, rfl, by decide⟩

/-! Engines: a context with one command at the head of a queue, charge enough in the pool, and 64 KiB of `mem` behind the entry `region`. -/

def region : PEnt := { page with len := 65536 }

def aCmd : Cmd := ⟨1, 0, 0x0E * 2 ^ 120 + 31 * 2 ^ 99, 0, none, false, .queued, [], [], none, 0, [], false, none, false⟩
def ctxQ (k : Nat) (c : Cmd) : Ctx := { Ctx.create Setup.ctx0 chain00 with eqs := [(k, ⟨1, 0, [c]⟩)] }

/-- Context 0 with the command at the head of queue `k`, its engine's turn, and every port of die 0's engines served by `region`. -/
def queueS (k : Nat) : State :=
  { (State.reset.setCtx 0 (ctxQ k aCmd)).setPart 0 { Part.zero with plevel := 100000 } with
    turn := .engine 0 k, ports := [(384, ⟨[region], [], none, none⟩), (385, ⟨[region], [], none, none⟩), (516, ⟨[region], [], none, none⟩)] }

/-- The state once the head command of queue `k` has issued at a cost. -/
def issued (s : State) (cost : Nat) : State := (s.modPart 0 fun x => { x with plevel := x.plevel - cdiv cost 64 }).tally 0 false (cdiv cost 64) 0

theorem pays (s : State) {cost : Nat} (hc : cdiv cost 64 ≤ 100000) (hp : (s.part 0).plevel = 100000) : s.payCmd 0 aCmd (cdiv cost 64) = some (issued s cost) := by
  have h : ¬(s.part (partOf 0)).plevel < cdiv cost 64 := by show ¬(s.part 0).plevel < _; omega
  have hd : s.debit (partOf 0) (cdiv cost 64) = some (s.modPart 0 fun x => { x with plevel := x.plevel - cdiv cost 64 }) := if_neg h
  show (s.debit (partOf 0) (cdiv cost 64)).map (fun s => s.tally 0 false (cdiv cost 64) 0) = _
  rw [hd]; rfl

theorem issues_stream (k : Nat) (hk : k = 1 ∨ k = 2 ∨ k = 3 ∨ k = 4 ∨ k = 160) (cost : Nat) (hc : cdiv cost 64 ≤ 100000) :
    Issues (queueS k) 0 k (ctxQ k aCmd) aCmd cost (issued (queueS k) cost) := by
  rcases hk with rfl | rfl | rfl | rfl | rfl <;>
    exact ⟨rfl, rfl, rfl, .inl rfl, by decide +kernel, queueS _, by rw [if_neg (by decide)], pays _ hc rfl⟩

theorem issues_array (cost : Nat) (hc : cdiv cost 64 ≤ 100000) : ∃ s0, (queueS 0).takeArray 0 0 = (true, s0) ∧
    Issues (queueS 0) 0 0 (ctxQ 0 aCmd) aCmd cost (issued s0 cost) :=
  ⟨_, rfl, rfl, rfl, rfl, .inl rfl, by decide +kernel, _, by rw [if_pos (by decide)]; rfl, pays _ hc rfl⟩

/-- A part of an issue that succeeds, and what follows it. -/
def okThen {α : Type} (r : Eng α) (p : α → State → Bool) : Bool :=
  match r with
  | .ok a s => p a s
  | _ => false

theorem okThen_ok {α : Type} {r : Eng α} {p : α → State → Bool} (h : okThen r p = true) : ∃ a s, r = .ok a s ∧ p a s = true := by
  cases r with
  | ok a s => exact ⟨a, s, rfl, h⟩
  | fault => cases h
  | faultAt => cases h
  | stall => cases h
  | wait => cases h

/-- A range that ends with the context's pad range and one that passes it; a poisoned byte and none; the other two spaces. -/
theorem witness_EnginesReach : (queueS 1).reachable 0 0 2 0x7FFF00 256 = true ∧ ((queueS 1).setCtx 0 halfPad).reachable 0 0 2 0x3FFF01 256 = false ∧
    (∀ sp ∈ [3, 4], (queueS 1).reachable 0 0 sp 0 256 = true) ∧ (queueS 1).poisoned (spaceKey 2 0 0x7FFF00) 256 = none ∧
    spaceKey 2 0 0x7FFF00 / 256 ∈ ({ queueS 1 with poison := [spaceKey 2 0 0x7FFF00 / 256] } : State).poison ∧ ({ queueS 1 with poison := [spaceKey 2 0 0x7FFF00 / 256] } : State).poisoned (spaceKey 2 0 0x7FFF00) 256 ≠ none := by
  decide +kernel

/-- A command that waits on a slot that is not set; an array that another context still works on; and a pool that is one packet short. -/
def waitCmd : Cmd := { aCmd with w0 := aCmd.w0 + 2 ^ 104 }
theorem witness_CommandsWait : (let s := { State.reset.setCtx 0 (ctxQ 1 waitCmd) with turn := .engine 0 1 };
      s.turn = .engine 0 1 ∧ s.ctx 0 = some (ctxQ 1 waitCmd) ∧ headCmd (ctxQ 1 waitCmd) 1 = some waitCmd ∧ waitCmd.st = .queued ∧
        s.mayIssue (ctxQ 1 waitCmd) waitCmd = false) ∧
    (let s := (queueS 1).setPart 0 { Part.zero with plevel := 0 }; s.turn = .engine 0 1 ∧ s.ctx 0 = some (ctxQ 1 aCmd) ∧
      headCmd (ctxQ 1 aCmd) 1 = some aCmd ∧ ownsArray 1 aCmd = false ∧ s.mayIssue (ctxQ 1 aCmd) aCmd = true ∧ (s.part (partOf 0)).plevel < cdiv 16 64) ∧
    (let s := ((queueS 0).setCtx 1 (ctxQ 0 aCmd)).setCore 0 { Core.start with owner := some 1 }; s.turn = .engine 0 0 ∧ s.ctx 0 = some (ctxQ 0 aCmd) ∧
      headCmd (ctxQ 0 aCmd) 0 = some aCmd ∧ ownsArray 0 aCmd = true ∧ s.mayIssue (ctxQ 0 aCmd) aCmd = true ∧ s.takeArray 0 aCmd.core = (false, s)) :=
  ⟨⟨rfl, rfl, rfl, rfl, by decide +kernel⟩, ⟨rfl, rfl, rfl, by decide, by decide +kernel, by decide +kernel⟩, rfl, rfl, rfl, by decide, by decide +kernel, rfl⟩

def it (k : Nat) : Iss := ⟨0, k, aCmd⟩
def holdFree (s : State) (ks : List (Nat × Nat)) : Bool := s.holdHit 0 aCmd.receipt (ks.filter fun e => isMemKey e.1) == none

/-- A chunk out of a pad and one into the last of it; a completion word; a row; a drain of 2 rows of FP8; a note. `issues_stream` and `issues_array`
give the issue of each. -/
theorem witness_CopyCommands :
    (okThen ((issued (queueS 1) 80).engRead (it 1) 2 (256 * 0) 256) fun _ s2 => okThen (s2.engKeys (it 1) 0 0x4000 256 2) fun ks s3 => holdFree s3 ks) = true ∧
    (okThen ((issued (queueS 1) 80).engRead (it 1) 0 0x4000 256) fun _ s2 => okThen (s2.engKeys (it 1) 2 (256 * 32767) 256 2) fun ks s3 => holdFree s3 ks) = true ∧
    (okThen ((issued (queueS 1) 96).engRead (it 1) 2 0 256) fun _ s2 => okThen (s2.engKeys (it 1) 0 0x4000 256 2) fun ks s3 =>
      okThen (s3.engKeys (it 1) 0 0x5000 8 2) fun ks2 s4 => holdFree s4 ks && holdFree s4 ks2) = true ∧
    (okThen (forRows (fun s r => s.engRead (it 1) 0 (rowAddr 0 0x4000 0x100 r) 16) (issued (queueS 1) 96) (List.range 2)) fun _ s2 =>
      okThen (forRows (fun s r => s.engKeys (it 1) 2 (rowAddr 2 0 0x20 r) 16 2) s2 (List.range 2)) fun kss s3 => holdFree s3 kss.flatten) = true ∧
    (issued (queueS 0) 8256).poisoned (deckKey 0 0) (256 * 512) = none ∧
    (okThen ((issued (queueS 0) 64).engKeys (it 0) 2 0 (drainLen 3 2) 2) fun _ _ => true) = true ∧
    (okThen ((issued (queueS 1) 16).engKeys (it 1) 0 0x4008 8 2) fun ks s2 => holdFree s2 ks) = true := by decide +kernel

def aMxt : MxtOps := ⟨0, 0, 0, 0, 2, 0, 0, 0, 0, 1, 0, 0, 0, 0, 0⟩
def chMxt : MxtOps := { aMxt with ach := 1, ahdr := 0x1000 }
def aGather : GatherOps := ⟨0x4000, 0, 0, 2, 2, 0x100, 2, 0x200⟩

/-- A tile-task whose rows stand in the pad, and one fed by a channel of 64-byte slots. -/
theorem witness_EngineCommands_array : (okThen ((queueS 0).mxtCheck (it 0) aMxt) fun _ _ => true) = true ∧
    (okThen (((queueS 0).writeN (padKey 0 0x1000) 64 (4 * 2 ^ 128 + 2 * 2 ^ 132)).mxtCheck (it 0) chMxt) fun _ _ => true) = true := by decide +kernel

/-- Two elements of four bytes, their indices and dense array in the pad; a member's ranges; a window of the partition's whole share and slot. -/
theorem witness_EngineCommands_stream :
    (okThen ((issued (queueS 3) 208).engKeys (it 3) 2 0x200 8 2) fun ks s2 => holdFree s2 ks && okThen (s2.engRead (it 3) 2 0x100 8) fun idx s3 =>
      okThen (s3.elemKeys (it 3) 4 1 (elemAddrs aGather idx)) fun els _ => els.2 == none && decide (els.1.length = 2)) = true ∧
    (okThen ((issued (queueS 3) 208).engRead (it 3) 2 0x200 8) fun _ s2 => okThen (s2.engRead (it 3) 2 0x100 8) fun idx s3 =>
      okThen (s3.elemKeys (it 3) 4 2 (elemAddrs aGather idx)) fun els s4 => els.2 == none && holdFree s4 (els.1.flatMap Prod.snd)) = true ∧
    (okThen ((issued (queueS 4) 160).engRead (it 4) 2 0 256) fun _ s2 => okThen (s2.engKeys (it 4) 2 0x100 256 2) fun _ s3 => s3.colls.isEmpty) = true ∧
    ((issued (queueS 1) 64).share 0 0).sbase ≤ 1023 ∧ 1023 < ((issued (queueS 1) 64).share 0 0).sbase + ((issued (queueS 1) 64).share 0 0).scount ∧
    ([] : List Nat).sum + 24576 ≤ ((issued (queueS 1) 64).share 0 0).tquota := by decide +kernel

/-- A profile in the die pad, an output channel of 4-byte slots in core 0's pad, and a quarantine ring of four records. -/
def intakeS : State := (((queueS 160).writeN (dieKey 0 0) 64 (1 * 2 ^ 96 + 0x1000 * 2 ^ 292 + 0x100 * 2 ^ 320)).writeN (padKey 0 0x1000) 64 (2 * 2 ^ 132)).writeN
  (dieKey 0 0x100) 64 (2 * 2 ^ 128)

theorem witness_EngineCommands_intake : let s1 := issued intakeS 520;
    let w := getN intakeS.mem (dieKey 0 0) 64;
    codeOf 160 = 5 ∧ s1.reachable 0 0 4 0 64 = true ∧ s1.poisoned (dieKey 0 0) 64 = none ∧ profileOk w = true ∧
      (s1.core (0 * 8 + bits w 288 3)).part = some 0 ∧ bits w 292 23 = 0x1000 ∧ bits w 320 26 = 0x100 ∧ s1.reachable 0 0 2 0x1000 64 = true ∧
      ((chanHdr s1.mem false (padKey 0 0x1000)).any fun h => h.slotSz == 4 && s1.reachable 0 0 2 0x1000 (64 + tagBytes h.logn + 2 ^ h.logn * 4)) = true ∧
      ((qringLog s1.mem (dieKey 0 0x100)).any fun l => s1.reachable 0 0 4 0x100 (64 + 32 * 2 ^ l)) = true ∧ (s1.die 0).msgs.length < 64 ∧
      s1.isBound (padKey 0 0x1000) true = false ∧ s1.turn = .engine 0 160 := by decide +kernel

/-! Rings: context 0 with a packet at the head of its ring, one queue with a segment, and the device's port served by `region`. -/

def aCur : Cur := ⟨1, ⟨1, 0, 0, false, false⟩, 0, false, none, 0, false, false, none, none, none, none⟩
def ringCtx (c : Cur) (tailx : Nat) : Ctx := { Ctx.create Setup.ctx0 chain00 with cur := some c, queues := [(0, ⟨0, false, [(0x6000, memKey 0 0x6000)], 1, tailx⟩)] }
def ringS (c : Cur) (tailx : Nat) : State :=
  { State.reset.setCtx 0 (ringCtx c tailx) with turn := .ring 0, ports := [(State.reset.devPort 0, ⟨[region], [], none, none⟩)] }

/-- A block of one member at 0x5000 that enters at 0x4100 with four packets in queue 0; with channels it reads a table at 0x5100. -/
def blockWord (nch rearm : Nat) : Nat := 0x4100 + 4 * 2 ^ 64 + 1 * 2 ^ 80 + 1 * 2 ^ 90 + rearm * 2 ^ 95 + nch * 2 ^ 96 + 0x5100 * 2 ^ 384
/-- With the table and an input channel of two slots, one needed. -/
def blockS (tailx nch rearm : Nat) : State :=
  (((ringS aCur tailx).writeN (memKey 0 0x5000) 64 (blockWord nch rearm)).writeN (memKey 0 0x5100) 8 (1 * 2 ^ 8 + 0x1000 * 2 ^ 32)).writeN (padKey 0 0x1000) 64 (2 * 2 ^ 132)

def lrThen {α : Type} (r : LR α) (p : α → State → Bool) : Bool :=
  match r with
  | .ok a s => p a s
  | _ => false

theorem lrThen_ok {α : Type} {r : LR α} {p : α → State → Bool} (h : lrThen r p = true) : ∃ a s, r = .ok a s ∧ p a s = true := by
  cases r with
  | ok a s => exact ⟨a, s, rfl, h⟩
  | invalid => cases h
  | pageFault => cases h
  | prot => cases h
  | data => cases h

theorem atHead (c : Cur) (tailx : Nat) : AtHead (ringS c tailx) 0 (ringCtx c tailx) c := ⟨rfl, rfl, rfl⟩

def enqOk (r : Enq) : Bool :=
  match r with
  | .ok _ => true
  | _ => false

def enqFull (r : Enq) : Bool :=
  match r with
  | .full _ => true
  | _ => false

def enqQuota (r : Enq) : Bool :=
  match r with
  | .quota _ => true
  | _ => false

/-- The copy of a block at 0x5000, and a LAUNCH that has read and bound it. -/
def copied (s : State) (b : LBlock) (span : Option Span) : Enq := (s.startPkt 0 aCur 0 0).enqueue 0 0x5000 b ⟨2 ^ 20, some 1, false⟩ span
def heldBlock : LBlock := ⟨blockWord 0 0, 4, [[]], none⟩
def heldCur : Cur := { aCur with block := some heldBlock }
/-- The VF's quota of one entry, with one held. -/
def quotaS : State := (blockS 1 0 0).setVf 0 { (blockS 1 0 0).vf 0 with qslots := 1 }
def anAct (ready : Option Nat) (chans : List Chan) : Act := ⟨1, 0, 0x6000, 0, memKey 0 0x6010, 0x5000, 1, 0, 0, none, none, false, none, true, ready, false, chans⟩

/-- LAUNCH of a bound block, of a block that is enqueued, of one whose queue is full or whose VF's quota is reached, of several, and of several of a
block with channels; and one that has read its block already. -/
theorem witness_WorkPackets_launch : AtHead (blockS 1 0 0) 0 (ringCtx aCur 1) aCur ∧ aCur.block = none ∧
    AtHead (ringS heldCur 1) 0 (ringCtx heldCur 1) heldCur ∧ heldCur.block = some heldBlock ∧
    enqOk ((((ringS heldCur 1).startPkt 0 heldCur 0 0)).enqueue 0 0x5000 heldBlock ⟨2 ^ 20, some 1, false⟩ none) = true ∧
    enqQuota (copied (quotaS.modCtx 0 fun x => { x with acts := [anAct none []] }) heldBlock none) = true ∧
    (lrThen ((blockS 1 1 1).readBlock 0 0 0x5000 id true) fun b _ => lbRearm b.image) = true ∧
    (lrThen ((blockS 1 0 0).readBlock 0 0 0x5000 id true) fun b s2 => !lbRearm b.image && enqOk (copied (s2.bindAll b.chans.flatten) b none)) = true ∧
    (lrThen ((blockS 0 0 0).readBlock 0 0 0x5000 id true) fun b s2 => enqFull (copied (s2.bindAll b.chans.flatten) b none)) = true ∧
    (lrThen ((blockS 1 0 0).readBlock 0 0 0x5000 id false) fun b s2 => lbGsz b.image == 1 && lbNch b.image == 0 && !lbRearm b.image &&
      enqOk (copied (s2.bindAll b.chans.flatten) b (some ⟨0, 1, 9, (s2.bindAll b.chans.flatten).spanRanges 0 b.image 9⟩))) = true ∧
    (lrThen ((blockS 1 1 0).readBlock 0 0 0x5000 id false) fun b _ => lbNch b.image != 0) = true :=
  ⟨⟨rfl, rfl, rfl⟩, rfl, ⟨rfl, rfl, rfl⟩, by decide +kernel⟩

/-- A pipeline of one stage on core 0: its block at 0x5000, its descriptor at 0x5100. -/
def pipeWord : Nat := 0x5100 + 1 * 2 ^ 64 + 1 * 2 ^ 76 + 1 * 2 ^ 80 + 1 * 2 ^ 96 + 0x100000 * 2 ^ 136 + 0x110000 * 2 ^ 160 + 0x120000 * 2 ^ 192
def stageWord : Nat := 0x4100 + 0x8000 * 2 ^ 64 + 16 * 2 ^ 128 + 1 * 2 ^ 152 + 1 * 2 ^ 160 + 1 * 2 ^ 168
def pipeS : State := ((ringS aCur 1).writeN (memKey 0 0x5000) 64 pipeWord).writeN (memKey 0 0x5100) 64 stageWord

theorem witness_WorkPackets_pipe : 0x5000 % 64 = 0 ∧ isCanon 0x5000 = true ∧ 0x5001 % 64 ≠ 0 ∧
    (lrThen (pipeS.devRead 0 0x5000 64) fun w s2 => (pipeBlock 1 w).any fun p => p.nstg == 1 && p.stab == 0x5100 &&
      lrThen (s2.devRead 0 0x5100 64) fun w s3 => stageOk w && ((s3.ctx 0).bind fun x => s3.refusal 0 x { p with stages := [w] }) == none &&
        decide (p.r ≤ (s3.freeGeneral p.core).length) && s3.bandRuns 0 { p with stages := [w], pkt := 1, q := 1 }) = true := by decide +kernel

/-- A lost miss in the last byte of the block, in the first of the descriptor, and in neither. -/
theorem witness_WorkPackets_lost : ∀ a ∈ [0x503F, 0x5040, 0x5100], ({ aCur with lost := some a } : Cur).lost = some a ∧
    (0x5000 ≤ a ∧ a < 0x5000 + 64 ↔ a = 0x503F) ∧ ((0x5100 + 64 * 0) % 2 ^ 64 ≤ a ∧ a < (0x5100 + 64 * 0) % 2 ^ 64 + 64 ↔ a = 0x5100) := by decide

/-- A valid QFENCE for a core of the partition, a core that is not of it, a full queue; a doubleword that can be signalled; the start of a WAIT
that holds and of one that does not, and each way it stands afterwards. -/
theorem witness_WorkPackets_rest : ((ringS aCur 1).core 31).part = some (partOf 0) ∧ cmdValid 5 fenceWord 0 = true ∧ (ringS aCur 1).roomFor 0 31 5 fenceWord = true ∧
    cmdValid 5 0 0 = false ∧ ((ringS aCur 1).setCtx 0 { ringCtx aCur 1 with eqs := [(163, ⟨1024, 0, List.replicate 1024 aCmd⟩)] }).roomFor 0 31 5 fenceWord = false ∧
    (∀ acc ∈ [1, 2, 3], (match (ringS aCur 1).xlate ((ringS aCur 1).devPort 0) 0 0x5008 acc with
      | (.ok e, s2) => s2.poisoned (entKey e 0x5008) 8 == none && getN s2.mem (entKey e 0x5008) 8 == 0
      | _ => false) = true) ∧
    aCur.wkey = none ∧ aCur.started = false ∧ ({ aCur with wkey := some 0, wok := true, started := true } : Cur).wok = true ∧
    ({ aCur with wkey := some 0, started := true } : Cur).wok = false := by decide +kernel

/-- Code at 0x4000 of 256 bytes, and a RECEIPT that measures it. -/
def codeS : State := (blockS 1 0 0).writeN (memKey 0 0x4000) 16 (0x7A34 + 4 * 2 ^ 16 + 0x200 * 2 ^ 32)
def aReceipt : ReceiptOps := ⟨0x5000, 0x4000, 0x7000, 16, 0, 0, 0x8000, 0x9000⟩
def recAt (step : Nat) : Receipt := ⟨1, step, 0x5000, 0x4000, 0x200, 0x7000, 16, 0, 0, 0x8000, 0x9000, blockWord 0 0, 4, [[]], none, 0, 0, 0, 0, 0, none,
  false, false, false, false, [], 0, 0, 0, 0⟩

def reaches (s : State) (va n : Nat) (p : List (Nat × Nat) → State → Bool) : Bool :=
  match s.reach (s.devPort 0) 0 va n 1 with
  | .ok ks s => s.poisonIn va ks == none && p ks s
  | _ => false

/-- A packet that breaks R306; code that holds the entry, and a header too short for it; both items read; the block enqueued. -/
theorem witness_ReceiptPackets : (ringCtx aCur 1).receipt = none ∧ receiptOk aReceipt = true ∧ receiptOk { aReceipt with codea := 0x4001 } = false ∧
    (reaches codeS 0x4000 16 fun ks s1 => codeLen (natOfBytes (s1.gets ks)) == some 0x200 && lrThen (s1.readBlock 0 0 0x5000 id false) fun b s2 =>
      codeOk 0x4000 0x200 (lbEntry b.image) && decide ((s2.vf 0).qslots = 0)) = true ∧ codeOk 0x4000 0x80 (lbEntry (blockWord 0 0)) = false ∧
    (reaches codeS 0x4000 (16 + 0x200) fun _ s1 => reaches s1 0x7000 16 fun _ _ => true) = true ∧
    (recAt 2).step = 2 ∧ (recAt 3).step = 3 ∧ (recAt 1).faulted = false ∧ ({ recAt 3 with faulted := true } : Receipt).faulted = true ∧ ({ ringCtx aCur 1 with setup := { Setup.ctx0 with clog := 4 } } : Ctx).works = true ∧
    (ringCtx aCur 1).mig ≠ 4 ∧ enqOk ((codeS.startPkt 0 aCur 0 0).enqueue 0 0x5000 ⟨blockWord 0 0, 4, [[]], none⟩ ⟨2 ^ 20, some 1, true⟩ none) = true := by
  decide +kernel

/-- A context without privilege and one with it; cores that stay and one that moves; an image that can be read; a swap that waits, one with nothing staged, one with an image; a
partition that exists and one that does not; a queue that exists and one that does not. -/
theorem witness_PrivilegedPackets : AtHead (ringS aCur 1) 0 (ringCtx aCur 1) aCur ∧ (ringCtx aCur 1).setup.priv = true ∧
    (∀ n ∈ maskCores 0xFF, ((ringS aCur 1).core n).target = none) ∧
    (∃ n ∈ maskCores 0xFF, (((ringS aCur 1).setCore 7 { Core.start with target := some 3 }).core n).target ≠ none) ∧
    AtHead ((ringS aCur 1).setCtx 0 { userCtx with cur := some aCur }) 0 { userCtx with cur := some aCur } aCur ∧ userCtx.setup.priv = false ∧
    (lrThen ((ringS aCur 1).devRead 0 0x5000 2) fun _ _ => true) = true ∧ ((ringS aCur 1).part 0).swap = none ∧ ((ringS aCur 1).part 0).staged = none ∧
    (((ringS aCur 1).setPart 0 { Part.zero with staged := some ⟨[0xD800], 0⟩ }).part 0).staged.isSome = true ∧
    (((ringS aCur 1).setPart 0 { Part.zero with swap := some (0, 1) }).part 0).swap.isSome = true ∧
    (ringS aCur 1).hasPart 0 = true ∧ (ringS aCur 1).hasPart 15 = false ∧ (ringS aCur 1).ctx 31 = none ∧
    (findT (ringCtx aCur 1).queues 0).isSome = true ∧ findT (ringCtx aCur 1).queues 7 = none ∧ (∀ q ∈ (ringCtx aCur 1).pkts, q.seq ≠ aCur.seq) :=
  ⟨⟨rfl, rfl, rfl⟩, rfl, by decide +kernel, by decide +kernel, ⟨rfl, rfl, rfl⟩, rfl, by decide +kernel, rfl, rfl, rfl, rfl, rfl, rfl, rfl, rfl, rfl, by decide⟩

/-- One leaf of 512 GiB with every permission, in tables whose root is at 0. -/
def tabled (s : State) : State := (s.writeN (memKey 0 0) 8 0x1001).writeN (memKey 0 0x1000) 8 0xDF
def newCtx : PartCtxOps := ⟨0, 31, 0, 0, 1, 0, 0, 128, 0, 64, 0, 0, 0x2004, 0x3004, 0x4004, 0x100000⟩

theorem witness_ContextCreation : let s := tabled (ringS aCur 1);
    (Instr.partCtx newCtx).wf = true ∧ Memory.wf s.mem = true ∧ s.ctx 0 = some (ringCtx aCur 1) ∧ 32 * newCtx.p.toNat + newCtx.c.toNat = 31 ∧ s.ctx 31 = none ∧ s.drained 31 = true ∧
    s.pendW = [] ∧ newCtx.en ≠ 0 ∧ 4 ≤ newCtx.sring.toNat % 16 ∧ newCtx.sring.toNat % 16 ≤ 12 ∧
    (let s1 := (((s.ctxMark 0 ⟨1, 23, 0, false, false, 0, 0⟩ 2).forget 31).setCtx 31 (Ctx.create (setupOf newCtx) (chainStart 31 0))).passUnits.ungate newCtx.p.toNat (setupOf newCtx);
      (match s1.reach (ctxPort (s1.firstDie 0)) 31 (setupOf newCtx).sring 64 3 with | .ok _ _ => true | _ => false) = true) := by decide +kernel

/-! Events. -/

def actCtx (a : Act) : Ctx := { ringCtx aCur 2 with acts := [a] }
def actS (a : Act) : State := (State.reset.setCtx 0 (actCtx a)).writeN (memKey 0 0x6010) 64 (blockWord 0 0)
def withImage (s : State) : State := { s.setPart 0 { Part.zero with image := some ⟨[0xD800], 0⟩, plevel := 10 } with tb := 100 }
def raisesKind (s : State) (k : Nat) : Bool := (s.nextRaise 0 0).any fun r => r.1 == k

/-- The channels of an isobar round: an input whose head is an isobar, an output with a free slot. -/
def isoChans : List Chan := [⟨false, false, 1, 0x1000, some (padKey 0 0x1000)⟩, ⟨true, false, 1, 0x2000, some (padKey 0 0x2000)⟩]
def isoS : State := (((State.reset.setCtx 0 (actCtx (anAct none isoChans))).writeN (padKey 0 0x1000) 64 (1 + 2 * 2 ^ 132)).writeN (padKey 0 0x1040) 1 3).writeN
  (padKey 0 0x2000) 64 (2 * 2 ^ 132)

def brokenTask : Machine.Task := { aTask with froBrk := true }
def committing (c : Commit) : Machine.Task := aTask.withCommit c
def aCommit : Commit := ⟨.stop, 4, [], [(2, false, 0)], [], [], 0, none, .sync, [], 0⟩

/-- A block whose one entry is bound at placement, on core 31 of quad 7: an isobar stands at the head of that quad's channel. -/
def quadChans : List Chan := [⟨false, true, 1, 0x1000, none⟩]
def quadS : State := (((actS (anAct none quadChans)).writeN (memKey 0 0x6010) 64 (blockWord 1 0)).writeN (padKey 0 0x1000) 64 (1 + 2 * 2 ^ 132)).writeN (padKey 0 0x1040) 1 3
/-- A command that waits for two packets of the pool. -/
def dueS (level : Nat) : State := (State.reset.setCtx 0 (ctxQ 1 { aCmd with due := some 2 })).setPart 0 { Part.zero with plevel := level, carry := 10 ^ 6 }

theorem witness_SchedulerEvents :
    State.reset.hasPart 0 = true ∧ 10 ^ 6 ≤ ((State.reset.setPart 0 { Part.zero with carry := 10 ^ 6 }).part 0).carry ∧
    ({ aDecision with ops := 128 } : Decision).overDue = true ∧
    (withImage (actS (anAct (some 0) []))).nextRaise 0 0 = some (0, 0, 0, 0, 0) ∧ ((withImage (actS (anAct (some 0) []))).fcast 0).run = none ∧
    ((withImage (actS (anAct (some 0) []))).part 0).image = some ⟨[0xD800], 0⟩ ∧ ((withImage (actS (anAct (some 0) []))).fcast 0).defers ≠ 64 ∧
    raisesKind ((withImage State.reset).setFcast 0 { Fcast.start with faults := [0], defers := 64 }) 2 = true ∧
    raisesKind ((withImage (actS (anAct (some 0) []))).setFcast 0 { Fcast.start with defers := 64 }) 0 = true ∧
    State.reset.task (0 * 12 + 10) = none ∧ State.reset.task (0 * 12 + 11) = none ∧
    (onRow aTask).stands 0 aTask = false ∧ brokenTask.commit = none ∧ (brokenTask.froBrk = true ∧ brokenTask.charged = false ∧ (onRow brokenTask).translating 0 = false) ∧
    ((onRow brokenTask).row 0).gated = false ∧ brokenTask.nbytes + 16 * brokenTask.staged.length ≤ 27648 ∧
    (∀ c ∈ ((onRow brokenTask).setCtx 0 halfPad).ctxsOf 0, c = 0) ∧ halfPad.setup.padlo + halfPad.setup.padn ≤ 110 ∧
    ((actCtx (anAct none [])).acts.find? fun b => b.id == 1) = some (anAct none []) ∧ (actCtx (anAct none [])).halt.halted = false ∧
    (let w := actImage (actS (anAct none [])).mem (actCtx (anAct none [])) (anAct none []);
      (∀ m ∈ (actS (anAct none [])).checkCores 0 w, readyOn (actS (anAct none [])).mem (anAct none []) m = some true) ∧ (actS (anAct none [])).checkCores 0 w ≠ []) ∧
    (∀ m ∈ (actS (anAct none [])).checkCores 0 (blockWord 0 0), (actS (anAct none [])).chanProt 0 (anAct none []) m = none ∧
      (actS (anAct none [])).unreleased (anAct none []) m = false) ∧
    (committing { aCommit with wait := .room }).commit = some { aCommit with wait := .room } ∧
    (∀ i ∈ aCommit.syncs, (onRow (committing aCommit)).syncDone 0 0 i = true) ∧ aCommit.syncs ≠ [] := by decide +kernel

/-- A task that a drain has stalled, alone on its core, and beside another of its context; one whose access goes on; a row in Lull that may wake. -/
def drainTask : Machine.Task := { aTask with froDrain := true }
def drainS : State := { onRow drainTask with ports := [(0, ⟨[], [], none, some ⟨0, 0x4000, 1, 0, 4, 0, true, .row 0⟩⟩)] }
theorem witness_SchedulerEvents_frozen : drainS.task 0 = some drainTask ∧ drainTask.commit = none ∧ drainS.translating 0 = true ∧ drainS.drainRest 0 0 = true ∧
    (drainS.setTask 1 (some aTask)).stands 0 drainTask = false ∧ drainS.stands 0 drainTask = true ∧ drainS.offCore 0 0 = true ∧ (onRow drainTask).translating 0 = false ∧
    (onRow { aTask with froPre := true }).offCore 0 0 = false ∧ (onRow { aTask with froPre := true }).awaySlice 0 = false ∧
    (actS (anAct none [])).entryPoison (anAct none []) = none ∧ isoS.entryPoison (anAct none isoChans) = none := by decide +kernel

/-- The header of a segment whose write waits, or not. -/
def headWaits (b : Bool) : State := { ringS aCur 0 with pendW := if b then [⟨⟨0, 0x6008, 2, 0, 4, 0, false, .record 0 9 0⟩, 0x6008, [], 9, none, false⟩] else [] }

/-- Pool packets with nothing waiting, and with a command that can and one that cannot yet be paid; rounds of isobars; a block's read. -/
theorem witness_SchedulerEvents_rest :
    State.reset.dues 0 = [] ∧ (∀ l ∈ [0, 1], (dueS l).dues 0 = [(0, 1, 1, 2, false)] ∧ (2 ≤ min (((dueS l).part 0).plevel + 1) ((dueS l).part 0).pcap ↔ l = 1)) ∧
    (∀ k ∈ isoS.isobarCores 0 (actCtx (anAct none isoChans)) (anAct none isoChans), isobarWaits isoS.mem (anAct none isoChans) k = some true) ∧
    isoS.isobarCores 0 (actCtx (anAct none isoChans)) (anAct none isoChans) ≠ [] ∧
    quadS.isobarCores 0 (actCtx (anAct none quadChans)) (anAct none quadChans) ≠ [] ∧
    (∀ k ∈ quadS.isobarCores 0 (actCtx (anAct none quadChans)) (anAct none quadChans), isobarWaits quadS.mem (anAct none quadChans) k ≠ none) ∧
    ((quadS.isobarCores 0 (actCtx (anAct none quadChans)) (anAct none quadChans)).find? fun k => isobarWaits quadS.mem (anAct none quadChans) k == some true).isSome = true ∧
    (findT (ringCtx aCur 0).queues 0 = some ⟨0, false, [(0x6000, memKey 0 0x6000)], 1, 0⟩) ∧ (ringS aCur 0).faulting 0 = false ∧ (ringCtx aCur 0).free = [] := by decide +kernel
theorem witness_SchedulerEvents_link : (ringS aCur 0).pendR = [] ∧ (ringS aCur 0).headPending 0 = false ∧ (headWaits true).headPending 0 = true ∧
    lrThen ((ringS aCur 0).reachLink 0 0x7000 (some 0x6000)) (fun _ _ => true) = true := by decide +kernel

/-- A context whose tables are at 0. -/
def rootCtx : Ctx := { Ctx.create Setup.ctx0 chain00 with setup := { Setup.ctx0 with rootOk := true } }
def tableS : State := tabled (State.reset.setCtx 0 rootCtx)
def rowMiss (since : Nat) : Miss := ⟨0, 0x4000, 1, 0, 4, since, false, .row 0⟩
def missS (since tb : Nat) : State := { (onRow aTask).setPort 0 ⟨[], [], none, some (rowMiss since)⟩ with tb := tb }
def aWin : Win := ⟨0, 0, 0, 0x4000, 8, false, [(16, 1)], 0, 0, [], [], 0, 0, [], []⟩
def winS : State := { State.reset.modDie 0 fun d => { d with wins := [(3, aWin)] } with ports := [(genPort 0 0, ⟨[region], [], none, none⟩)] }

/-- A walk whose counts are those of its partition and one whose are not; one that finds a leaf and one that does not; a miss at the drain limit, one
tick before it, at the fault limit, and one tick before that; a stream window with room, and one of its last granule. -/
theorem witness_PortEvents : (0 : Nat) < 384 ∧ (tableS.part (partOf 0)).gen1 = 0 ∧ (tableS.part (partOf 0)).gen2 = 0 ∧ (1 : Nat) ≠ (tableS.part (partOf 0)).gen1 ∧
    (match tableS.walk 0 0x4000 1 with | .ok _ => true | _ => false) = true ∧ State.reset.walk 0 0x4000 1 = .pageFault 0 4 ∧
    ((missS 0 20000).port 0).miss = some (rowMiss 0) ∧ (missS 0 20000).task 0 = some aTask ∧ aTask.commit = none ∧ (missS 0 20000).part 0 = Part.zero ∧
    0 + Part.zero.drain ≤ (missS 0 20000).tb ∧ (missS 0 19999).tb < 0 + Part.zero.drain ∧ 0 + Part.zero.fault ≤ (missS 0 (10 ^ 7)).tb ∧
    (missS 0 (10 ^ 7 - 1)).tb < 0 + Part.zero.fault ∧ findT (winS.die 0).wins (0 * 1024 + 3) = some aWin ∧ aWin.head - aWin.tail < aWin.len ∧
    aWin.kind = 0 ∧ aWin.write = false ∧ aWin.head < aWin.size ∧ (winS.die 0).heldIn 0 < tileSize ∧ (winS.port (genPort 0 0)).miss = none ∧
    isCanon (aWin.addr 0) = true ∧ (∀ n ∈ [0, 15], (match winS.xlate (genPort 0 0) 0 (aWin.addr n) 1 with | (.ok _, _) => true | _ => false) = true) := by
  decide +kernel

/-- A context with a fault recorded, its halt at a stage. -/
def aFault : FaultRec := ⟨6, 4, 0, 0, 0x4000, 0x4000, 9, 1, 0, 0, 0, []⟩
def haltCtx (stage : Nat) (area : Bool) : Ctx :=
  { ringCtx aCur 1 with halt := ⟨decide (2 ≤ stage), false, some aFault, stage, none⟩, setup := { Setup.ctx0 with areaOk := area, area := 0x8000 } }
def haltS (stage : Nat) (area : Bool) : State :=
  { State.reset.setCtx 0 (haltCtx stage area) with ports := [(State.reset.devPort 0, ⟨[region], [], none, none⟩)] }

theorem witness_HaltEvents : (∀ st ∈ [1, 2, 3, 4], (haltS st true).ctx 0 = some (haltCtx st true) ∧ (haltCtx st true).halt.fault = some aFault) ∧
    (ringCtx aCur 1).halt.fault = none ∧ (ringCtx aCur 1).halt.resume = none ∧ (haltCtx 4 true).halt.nores = false ∧ (haltS 3 true).pendW = [] ∧
    (haltS 2 true).quiet 0 = true ∧
    (let s1 := ((haltS 2 true).dropCmds 0).modCtx 0 fun x => { x with slots := [], halt := { x.halt with stage := 3 } };
      ((s1.ctx 0).any fun y => y.halt.fault == some aFault && y.setup.areaOk) = true) ∧
    (haltS 4 true).pendW = [] ∧ (onRow aTask).worksOn 0 0 = true ∧ State.reset.worksOn 0 0 = false ∧
    ((State.reset.setPart 0 { Part.zero with image := some ⟨[], 0⟩ }).part 0).image.isSome = true ∧ (∀ i < 4, (State.reset.fcast (16 * i + 0)).run = none) ∧
    (((State.reset.setFcast 16 { Fcast.start with run := some aDecision }).fcast (16 * 1 + 0)).run = some aDecision) ∧
    (findT (ringCtx aCur 1).queues 0).isSome = true ∧ (findT (ringCtx aCur 1).queues 9).isSome = false := by decide +kernel

/-- A pipeline of one stage on core 0, hosted on row 0: its link holds `toks` committed tokens. -/
def aPipe (h : Hosted) : Pipe :=
  let p : Pipe := ⟨0, 1, 0x5100, 1, 1, 1, 1, 0, 0, 0x100000, 0x110000, 0x120000, [stageWord], [h], [], 1, 0, [], 0, 0, [], [], none, 0⟩
  { p with written := frontRecord p }
def hosted (st : Scroll) : Hosted := ⟨0, 0, 0, st, false, 0, false, false⟩
def pipeCtx (st : Scroll) : Ctx := { ringCtx aCur 1 with pipes := [aPipe (hosted st)] }
/-- The rings of the pipeline: the input of position 0 with `n` filled slots that have the tags of byte `tag`; the last output empty. -/
def pipeState (st : Scroll) (n : Nat) (tag : Nat) : State :=
  let s := ((State.reset.setCtx 0 (pipeCtx st)).modRow 0 fun w => { w with claim := some (0, 0) }).modPart 0 fun p => { p with plevel := 1 }
  let p := aPipe (hosted st)
  ((((s.writeN (p.linkKey 0) 64 (n + 2 * 2 ^ 132)).writeN (p.linkKey 0 + 64) 1 tag).writeN p.outKey 64 (2 * 2 ^ 132)).writeN p.recKey 56 p.written).setPort
    (State.reset.devPort 0) ⟨[region], [], none, none⟩
/-- Three stages, of which some positions have left. -/
def longPipe (done : List Nat) : Pipe := { aPipe (hosted .hosted) with nstg := 3, done := done }
/-- An instance of a die with one member here, of one or two; one of the pod that waits for a second. -/
def aMember (seq since : Nat) : Member := ⟨0, 0, seq, 0, padKey 0 0x4000, padKey 0 0x5000, since⟩
def aColl (full broken : Bool) : Coll := ⟨1, 1, 0, 1, 0, 3, 0, 0, if full then 1 else 2, 1, [aMember 1 0], [], broken, []⟩
def podColl (ms : List Member) : Coll := ⟨1, 1, 0, 1, 0, 5, 0, 0, 2, 1, ms, [], false, []⟩
def cutOff (ms : List Member) (tb : Nat) : State := { State.reset with colls := [podColl ms], portsUp := [], tb := tb }
def sliced (e : Bool) : State := State.reset.setPart 0 { Part.zero with slice := some (0, 5, e), slen := 3 }
def doneCmd : Cmd := { aCmd with st := .done }

theorem witness_FrontEvents : ((sliced false).part 0).slice = some (0, 5, false) ∧ (sliced false).tb < 5 ∧ 5 ≤ ({ sliced false with tb := 5 } : State).tb ∧
    ((sliced true).part 0).slen ≠ 0 ∧ (sliced true).vacated 0 = true ∧ (((sliced true).setCtx 0 (actCtx (anAct (some 0) []))).nextVf 0 (some 0)).isSome = true ∧
    ((sliced true).setCtx 0 (actCtx (anAct (some 0) []))).vacated 0 = true ∧
    (∀ st ∈ [Scroll.saving, .restoring, .hosted], (pipeState st 2 4).hostOf 0 = some (0, aPipe (hosted st), hosted st)) ∧
    (pipeState .saving 2 4).pipeStalled 0 0 0 = false ∧
    (∀ acc ∈ [1, 2], ((pipeState .saving 2 4).areaKeys 0 (aPipe (hosted .saving)) (hosted .saving) acc).2.isSome = true) ∧
    (pipeState .hosted 2 4).mayStage 0 (aPipe (hosted .hosted)) (hosted .hosted) = true ∧ (pipeState .hosted 2 4).faulting 0 = false ∧
    (aPipe (hosted .hosted)).posReady (pipeState .hosted 2 4).mem 0 = some true ∧
    ((pipeState .hosted 2 4).debit 0 (stPps stageWord)).isSome = true ∧ (State.reset.debit 0 (stPps stageWord)) = none ∧
    isoHead (pipeState .hosted 1 3).mem (aPipe (hosted .hosted)).lf ((aPipe (hosted .hosted)).linkKey 0) = true ∧
    (aPipe (hosted .hosted)).isoKey 0 = some (aPipe (hosted .hosted)).outKey ∧
    roomReady (pipeState .hosted 1 3).mem (aPipe (hosted .hosted)).lf (aPipe (hosted .hosted)).outKey 1 = some true ∧ (longPipe [1]).nextLink 0 = some 2 ∧
    (let k := (aPipe (hosted .saving)).slotKey 0; (pipeState .saving 2 4).poisoned k 16 = none ∧
      ({ pipeState .saving 2 4 with poison := [k / 256] } : State).poisoned k 16 = some (k / 256)) ∧ stSsize stageWord = 16 ∧
    (match (pipeState .restoring 2 4).areaKeys 0 (aPipe (hosted .restoring)) (hosted .restoring) 1 with
      | (s2, some ks) => s2.poisonIn (stArea stageWord) ks == none
      | _ => false) = true ∧
    (State.reset.setCtx 0 (ctxQ 1 doneCmd)).ctx 0 = some (ctxQ 1 doneCmd) ∧ findCmd (ctxQ 1 doneCmd) 1 1 = some doneCmd ∧ cmdFinished doneCmd = true ∧
    (pipeState .hosted 2 4).recordOk (aPipe (hosted .hosted)) = true ∧ (pipeState .hosted 2 4).recordOk { aPipe (hosted .hosted) with written := 0 } = false ∧
    (hosted .hosted).inPlace = true ∧ (aColl true false).full = true ∧ (aColl false false).full = false ∧ (aColl true true).broken = true ∧
    State.reset.unreached (aColl true false).dests = none ∧
    (let t := committing { aCommit with wait := .pod 0 }; ∀ tb ∈ [10 ^ 7 - 1, 10 ^ 7], let s := { onRow t with tb := tb };
      (∀ o ∈ s.colls, o.id ≠ 2 ^ 16 + 0) ∧ s.task 0 = some t ∧ t.commit = some { aCommit with wait := .pod 0 } ∧
        (0 + (s.part (partOf t.cx)).fault ≤ s.tb ↔ tb = 10 ^ 7)) := by decide +kernel

/-- Rings that can be read, and one whose header is poisoned; a record that can be read, and one that cannot. -/
theorem witness_FrontEvents_rings : let p := aPipe (hosted .hosted); let s := pipeState .hosted 1 3; let ks := p.linkKey 0 :: (p.isoKey 0).toList;
    s.ringsBad p ks = none ∧ (({ s with poison := [p.linkKey 0 / 256] } : State).ringsBad p ks).isSome = true ∧ s.poisoned p.recKey 56 = none ∧
    ({ s with poison := [p.recKey / 256] } : State).poisoned p.recKey 56 = some (p.recKey / 256) ∧
    ({ pipeState .hosted 2 4 with poison := [p.recKey / 256] } : State).mayStage 0 p (hosted .hosted) = true := by decide +kernel

theorem unreached_none (s : State) (l : List Nat) (hd : s.downAt = []) (hr : ∀ d, s.route d = none) (hl : l ≠ []) : s.unreached l = some 0 := by
  have h1 : (l.filter fun d => (s.route d).isNone) = l := by simp [hr]
  have h0 : ∀ d, getT s.downAt d 0 = 0 := by simp [hd, getT]
  simp only [State.unreached, h0]
  rw [h1]
  cases l with
  | nil => exact absurd rfl hl
  | cons d m =>
    clear h1 hl
    rw [List.foldl_cons]
    induction m with
    | nil => rfl
    | cons e m ih => rw [List.foldl_cons]; exact ih

/-- In a pod in which another package holds member 1, and no route is left: no member late, all of them, and one of two. -/
theorem witness_FrontEvents_pod (h : Config.packageOf 0 0 1 ≠ Config.ownPackage) :
    (∀ ms tb, (cutOff ms tb).unreached (podColl ms).dests = some 0) ∧
    (let late (ms : List Member) (tb : Nat) := ms.filter fun m => decide (max m.since 0 + ((cutOff ms tb).part (partOf m.cx)).fault ≤ tb);
      late [aMember 1 0] (10 ^ 7 - 1) = [] ∧ late [aMember 1 0] (10 ^ 7) = [aMember 1 0] ∧ late [aMember 1 0, aMember 2 5] (10 ^ 7) = [aMember 1 0]) := by
  refine ⟨fun ms tb => unreached_none _ _ rfl (fun d => ?_) (List.ne_nil_of_mem (a := Config.packageOf 0 0 1) ?_), by decide +kernel⟩
  · simp [State.route, cutOff]
  · simp [podColl, Coll.dests, podMembers, h]
    exact ⟨1, by decide, rfl⟩

/-- A message at 0x4000 of two bytes whose tokens go to the channel at pad offset 0x1000 of core 0 and whose faults to the ring at base offset 0x100. -/
def aMsg (v : Option (List Nat ⊕ (Nat × Nat × Nat))) : Msg := ⟨0, 0, 1, 0x4000, 2, 0, 0, 0, 0, 0x4100, 1, 8, 0, 0x4200, 4, 1, padKey 0 0x1000, dieKey 0 0x100, v, 0⟩
def msgS (v : Option (List Nat ⊕ (Nat × Nat × Nat))) : State :=
  { intakeS.setPort (inPort 0) ⟨[region], [], none, none⟩ with dies := [(0, { Die.start with msgs := [aMsg v] })] }
def waitCur (wok : Bool) : Cur := { aCur with wkey := some 0, started := true, wok := wok, until_ := some 7 }
def recS (step : Nat) : State :=
  { State.reset.setCtx 0 { ringCtx aCur 1 with receipt := some (recAt step) } with ports := [(State.reset.devPort 0, ⟨[region], [], none, none⟩)] }
def leafS (n tb : Nat) : State := { State.reset with batch := ⟨1, 0, List.replicate n ⟨0, 1, 0x8000, 0x9000, false, 0⟩, []⟩, tb := tb }

theorem witness_MessageEvents : ((msgS none).die 0).msgs[0]? = some (aMsg none) ∧ ((msgS none).port (inPort 0)).miss = none ∧ (msgS none).faulting 0 = false ∧
    (∀ w ∈ [2 ^ 40 - 1, 2 ^ 40], (okThen (((msgS none).writeN (memKey 0 0x4100) 8 w).msgRead 0 (aMsg none) 0x4000 2) fun _ s1 =>
      okThen (s1.msgRead 0 (aMsg none) 0x4200 4) fun _ s2 => okThen (s2.msgRead 0 (aMsg none) 0x4100 8) fun tab _ => tableOf 1 tab == [w]) = true) ∧
    ((msgS (some (.inl [1]))).die 0).msgs = [aMsg (some (.inl [1]))] ∧
    ((chanHdr (msgS (some (.inl [1]))).mem false (padKey 0 0x1000)).any fun h => h.free != 0) = true ∧
    (let s := msgS (some (.inr (1, 2, 0))); ((qringLog s.mem (dieKey 0 0x100)).any fun l =>
      decide ((getN s.mem (dieKey 0 0x100) 8 + 2 ^ 64 - getN s.mem (dieKey 0 0x108) 8) % 2 ^ 64 < 2 ^ l)) = true) ∧
    State.reset.ctx 0 = some (Ctx.create Setup.ctx0 chain00) ∧ (Ctx.create Setup.ctx0 chain00).setup.vf = 0 ∧ (0 : Nat) ≠ 5 ∧
    (∀ b ∈ [true, false], (ringCtx (waitCur b) 1).cur = some (waitCur b) ∧ (waitCur b).until_ = some 7 ∧ (waitCur b).wok = b ∧ (ringS (waitCur b) 1).faulting 0 = false) ∧
    7 ≤ ({ ringS (waitCur false) 1 with tb := 7 } : State).tb ∧ (ringS (waitCur false) 1).tb < 7 ∧
    (∀ st ∈ [4, 5], ((recS st).ctx 0).bind (fun x => x.receipt) = some (recAt st) ∧ (recAt st).step = st ∧ (recAt st).faulted = false ∧ (recS st).pendR = [] ∧
      ((recS st).ctx 0).any (fun x => (recS st).workOver 0 x (recAt st)) = true ∧ (recS st).faulting 0 = false) ∧
    (let s1 := (recS 4).recheck 0 (recAt 4); (((s1.ctx 0).bind fun x => x.receipt).any fun r => r.step == 5 && !r.faulted) = true ∧ s1.faulting 0 = false) ∧
    (leafS 1 0).batch.closing = [] ∧ (leafS 1 0).batch.leaves ≠ [] ∧ 4096 ≤ (leafS 4096 0).batch.leaves.length ∧ (leafS 1 0).batch.tbo + 10 ^ 6 ≤ (leafS 1 (10 ^ 6)).tb ∧
    (leafS 4095 0).batch.leaves.length < 4096 ∧ (leafS 1 (10 ^ 6 - 1)).tb < (leafS 1 0).batch.tbo + 10 ^ 6 := by decide +kernel

def hostCtx : Ctx := { Ctx.create Setup.ctx0 chain00 with setup := { Setup.ctx0 with areaOk := true }, mig := 1 }
def dumpS : State := State.reset.stopGo 0 true
def areaS : State := { State.reset.setCtx 0 hostCtx with ports := [(State.reset.devPort 0, ⟨[{ region with len := 2 ^ 30 }], [], none, none⟩)] }

theorem witness_HostEvents : (0 : Nat) < 36 ∧ (3 : Nat) ≤ 64 ∧ (State.reset.bank 0).own = 0 ∧ ((State.reset.setBank 0 { Bank.start with own := 2, ovf := 3 }).bank 0).own = 2 ∧
    ({ Bank.start with own := 2, ovf := 3 } : Bank).heldBy 3 = true ∧ ({ Bank.start with own := 2, ovf := 3 } : Bank).aside = none ∧
    Bank.start.heldBy 3 = false ∧ (750 : Nat) < (State.reset.die 0).mv.toNat ∧ State.reset.phase = .complete ∧ getT State.reset.hdm 7 0 < 5 ∧
    ((0x1005 : Nat) + 13 ≤ 2 ^ 40 ∧ unitsOf 0x1005 13 = [(0x1005, 3), (0x1008, 8), (0x1010, 2)]) ∧ (∀ a ∈ [2 ^ 40 - 13, 2 ^ 40 - 12], (2 ^ 40 < a + 13 ↔ a = 2 ^ 40 - 12)) ∧
    (∀ a ∈ [0, 96 * 2 ^ 30 - 8], hasStorage 0 a = true) ∧ hasStorage 0 (96 * 2 ^ 30) = false ∧ State.reset.poisoned (memKey 0 0) 8 = none ∧
    State.reset.ctx 0 = some (Ctx.create Setup.ctx0 chain00) ∧ (Ctx.create Setup.ctx0 chain00).setup.vf = 0 ∧ (Ctx.create Setup.ctx0 chain00).halt.fault = none ∧
    (Ctx.create Setup.ctx0 chain00).dbg.state = 0 ∧ (Ctx.create Setup.ctx0 chain00).pipes = [] ∧
    (let y := { Ctx.create Setup.ctx0 chain00 with dbg := { Dbg.zero with state := 1 } }; (State.reset.setCtx 0 y).stopDone 0 y = true ∧
      ((onRow aTask).setCtx 0 y).stopDone 0 y = false) ∧ State.reset.pendR = [] ∧ ((dumpS.ctx 0).any fun y => y.dbg.state == 3) = true ∧
    areaS.ctx 0 = some hostCtx ∧ hostCtx.setup.areaOk = true ∧ hostCtx.mig = 1 ∧ areaS.drainFrozen 0 = false ∧ areaS.still 0 hostCtx = true ∧ areaS.pendR = [] ∧
    (lrThen ((areaS.setMig 0 1).devReadAt 0 0 0xC21000 4352) fun w s2 => bits w 512 64 == 0 && bits w 448 32 == 0 && bits w 1536 64 == 0 && bits w 1600 1 == 0 &&
      lrThen (s2.devReadAt 0 0 (0xC21000 + 4352) 0) fun _ _ => true) = true := by decide +kernel

def offS (fw : List Nat) (puf : Bool) : State := { State.reset with phase := .off, fwBad := fw, pufOk := puf }
/-- The end of the first power window, and one tick before it. -/
def winEnd (tb : Nat) : State := { State.reset with tb := tb }

theorem witness_DeviceEvents : (∀ b ∈ [true, false], (offS [] b).phase = .off ∧ (offS [] b).fwBad = [] ∧ (offS [] b).pufOk = b) ∧
    (2 ∈ (offS [5, 2] true).fwBad ∧ ∀ g < 2, g ∉ (offS [5, 2] true).fwBad) ∧ (State.reset.die 0).stopped = false ∧
    ((State.reset.modDie 0 fun d => { d with stopped := true }).die 0).stopped = true ∧ (winEnd (10 ^ 5 - 1)).tb < ((winEnd 0).window + 1) * 10 ^ 5 ∧
    ((winEnd 0).window + 1) * 10 ^ 5 ≤ (winEnd (10 ^ 5)).tb ∧
    State.reset.phase = .complete ∧ State.reset.phase ≠ .off ∧ ({ State.reset with phase := .stopped 2 } : State).phase = .stopped 2 ∧
    ({ State.reset with phase := .stopped 3 } : State).phase = .stopped 3 ∧ (600 ≤ (600 : Nat) ∧ 600 ≤ (1750 : Nat)) ∧ (599 : Nat) < 600 ∧
    (1750 : Nat) < 1751 ∧ (∀ n ∈ [1, 2, 3], ({ State.reset with spdm := n } : State).spdm ≠ 0) ∧ 3 ≤ ({ State.reset with spdm := 3 } : State).spdm := by decide +kernel

def aFlit (seq : BitVec 12) (good : Bool) : Flit := ⟨0, 0, seq, good, .barrierArrival 3 0⟩

theorem witness_FeedsAndLinks : State.reset.feeds = 3 ∧ (∀ i ∈ [0, 1], ({ State.reset with feeds := 2 ^ i } : State).feeds = 2 ^ i) ∧
    State.reset.portsUp.contains (aFlit 0 true).port = true ∧ (aFlit 0 true).seq = (getT State.reset.links 0 Link.start).expect ∧
    (aFlit 1 true).seq ≠ (getT State.reset.links 0 Link.start).expect ∧ (aFlit 0 false).crcGood = false ∧
    (∀ n ∈ [6, 7], (getT ({ State.reset with links := [(0, { Link.start with tries := n })] } : State).links 0 Link.start).tries = n) ∧
    ({ State.reset with portsUp := [] } : State).portsUp.contains 0 = false ∧ (getT [(3, [7])] 3 []).contains 7 = true ∧ State.reset.podTx = [] := by decide +kernel

/-- Reset meets the premise, and steps. -/
theorem witness_StepKeepsMemoryCanonical : Memory.wf State.reset.mem = true ∧ step State.reset = .next State.reset := ⟨rfl, rfl⟩

/-- `ADD S3, S4, S5` placed for row 0; a word that decodes to nothing; a `QFENCE` at an engine; a Forecast operation and a decision past its
limit; a ring's turn; ticks of the agenda and a turn of it. -/
theorem witness_StepRunsDecoded :
    (∀ e ∈ [(0x04642800, true), (0, false)], let s := State.reset.withFetchWord 32 e.1
      s.refill = none ∧ s.phase ≠ .off ∧ s.agenda = [] ∧ s.turn = .row 0 ∧ (match s.task 0 with
        | some t => !s.held 0 t && t.commit.isNone && !(s.row 0).gated && isCanon t.pc.toNat && !s.unmeasured t && (match s.lookup t.row t.cx t.pc.toNat 0 with
          | some (.ok p) => s.poisoned (entKey p t.pc.toNat) 4 == none && (decodeTask (getN s.mem (entKey p t.pc.toNat) 4)).isSome == e.2
          | _ => false)
        | none => false) = true) := by decide +kernel
theorem witness_StepRunsDecoded_engine :
    (let c := { aCmd with w0 := fenceWord }; let s := { queueS 1 with ctxs := [(0, ctxQ 1 c)] };
      s.refill = none ∧ s.agenda = [] ∧ s.turn = .engine 0 1 ∧ ((s.ctx 0).bind fun x => headCmd x 1) = some c ∧
      (s.port (enginePort 0 1 c)).miss = none ∧ (decodeCommand c.w0 c.w1).any (fun i => match exec i s with | .next _ => true | _ => false) = true) := by decide +kernel
theorem witness_StepRunsDecoded_rest :
    (let x := { ringCtx { aCur with body := 0x5000 * 2 ^ 64 + 2 ^ 128 } 1 with setup := { Setup.ctx0 with clog := 4 } };
      let s := { State.reset.setCtx 0 x with turn := .ring 0 }; s.refill = none ∧ s.agenda = [] ∧ (s.ringTurn 0).2 = some (.launch ⟨0x5000, 1⟩)) ∧
    (let d := { aDecision with image := ⟨[0x0BC8], 0⟩ }; ((deciding d).fcast 0).run = some d ∧ d.overDue = false ∧ d.image.words[d.pc]? = some 0x0BC8 ∧
      decodeForecast 0x0BC8 = some (.fcLdi 3 200)) ∧ ({ aDecision with ops := 128 } : Decision).overDue = true ∧
    (let s := { State.reset with turn := .event (.deferInterval 0 0), agenda := [⟨0, .row 0⟩, ⟨3, .idle⟩] }; s.refill = none ∧ s.phase ≠ .off ∧ s.agenda ≠ []) ∧
    (∀ l ∈ [0, 16], ({ State.reset with lead := l } : State).lead ≤ 16 ∧ State.reset.tbHalf = false) ∧
    16 + 3 ≤ ({ State.reset with lead := 19 } : State).lead := by
  decide +kernel

theorem witness_RoundTrips : (Instr.add 3 4 5).wf = true ∧ (Instr.sext 1 2 2).wf = true ∧ (Instr.fcLdi 3 200).wf = true ∧
    (Instr.qfence ⟨31, 0⟩ ⟨1⟩).wf = true := by decide +kernel

/-- A register operation, a store and a Forecast operation that complete. -/
theorem witness_Frames : Paying (onRow aTask) 0 aTask 4 (onRow aTask) (paid aTask 4) ∧
    (match exec (.add 3 4 5) (onRow aTask) with | .next _ => true | _ => false) = true ∧
    (match exec (.st 1 2 0 3 0) (memS (reg 7 0x4FF8)) with | .next _ => true | _ => false) = true ∧
    Deciding (deciding aDecision) 0 0 aDecision ∧ (match exec (.fcLdi 3 200) (deciding aDecision) with | .next _ => true | _ => false) = true :=
  ⟨paying rfl rfl (by decide), by decide +kernel, by decide +kernel, ⟨rfl, rfl, by decide +kernel⟩, by decide +kernel⟩

/-! Single steps. The words, the operands and the results are the spec's own (the tables after R86, R90, R134, R135, R138, R140, R142). -/

/-- The task of row 0 after the instruction of a word. -/
def ran (w : Nat) (t : Machine.Task) : Option Machine.Task :=
  (decodeTask w).bind fun i => match exec i (onRow t) with
    | .next u => u.task 0
    | _ => none

/-- The value of a scalar register, and the flags, after the instruction of a word. -/
def scalarOf (w : Nat) (r : BitVec 5) (t : Machine.Task) : Option (Word × Word) := (ran w t).map fun u => (u.S r, u.flags)

def withS (rs : List (BitVec 5 × Word)) : Machine.Task := rs.foldl (fun t e => t.setS e.1 e.2) aTask

/-- Vector registers with the given value in every lane. -/
def withV (rs : List (Nat × Lane)) : Machine.Task := { aTask with v := Vector.ofFn fun i => Vector.replicate 16 ((rs.find? fun e => e.1 == i.val).elim 0 Prod.snd) }

def lanesOf (w : Nat) (r : Fin 32) (t : Machine.Task) : Option (List Lane × Word) := (ran w t).map fun u => ((u.v[r]).toList, u.flags)

theorem test_division : scalarOf 0x04C74030 6 (withS [(7, 5), (8, 0)]) = some (0xFFFFFFFFFFFFFFFF, 0) ∧ scalarOf 0x04C74028 6 (withS [(7, -7), (8, 2)]) = some (-3, 0) := by
  decide +kernel
theorem test_mulhn_bext : scalarOf 0x04642820 3 (withS [(4, -1), (5, -1)]) = some (0xFFFFFFFFFFFFFFFE, 0) ∧
    scalarOf 0x052A58C8 9 (withS [(10, 0xB6), (11, 0xF0)]) = some (0xB, 0) ∧ scalarOf 0x044200DA 2 (withS [(2, 0x80000000)]) = some (0xFFFFFFFF80000000, 0) := by decide +kernel
theorem test_lui : scalarOf 0x1C80FFFE 4 aTask = some (0xFFFFFFFFFFFE0000, 0) := by decide +kernel
theorem test_fadd_opposite_infinities : scalarOf 0x24E74001 7 (withS [(7, 0x7C00), (8, 0xFC00)]) = some (0x7E00, 16) := by decide +kernel
theorem test_fdiv_by_zero : scalarOf 0x246428C8 3 (withS [(4, 0x3F800000), (5, 0)]) = some (0x7F800000, 8) := by decide +kernel
theorem test_frsq : scalarOf 0x24430140 2 (withS [(3, 0x40800000)]) = some (0x3F000000, 0) := by decide +kernel
theorem test_fcmp_nan : scalarOf 0x24432282 2 (withS [(3, 0x7FC0), (4, 0x3F80)]) = some (0, 16) := by decide +kernel
theorem test_fcvt_tie_overflows : scalarOf 0x24A60201 5 (withS [(6, 0x477FF000)]) = some (0x7C00, 4 + 1) := by decide +kernel
theorem test_fcvt_toward_zero : scalarOf 0x24A60209 5 (withS [(6, 0x477FF000)]) = some (0x7BFF, 1) := by decide +kernel
theorem test_fcvt_integer_range : scalarOf 0x24E82A08 7 (withS [(8, 0x5F000000)]) = some (0x7FFFFFFFFFFFFFFF, 16) := by decide +kernel
theorem test_fmin_zeros : scalarOf 0x24642980 3 (withS [(4, 0), (5, 0x80000000)]) = some (0x80000000, 0) := by decide +kernel

theorem test_vclz : (lanesOf 0xC12A0081 9 (withV [(10, 0x00008000)])).map Prod.fst = some (List.replicate 16 16) := by decide +kernel
theorem test_vpack : (lanesOf 0xC0432092 2 (withV [(3, 0x00012345), (4, 0xFFFF8000)])).map Prod.fst = some (List.replicate 16 0x80007FFF) := by decide +kernel
theorem test_vunpack : (lanesOf 0xC043089C 2 (withV [(3, 0x807F02FE)])).map Prod.fst = some (List.replicate 16 0xFF80007F) := by decide +kernel
theorem test_vfmul_p4 : lanesOf 0xC4A63814 5 (withV [(6, 0x40408048), (7, 0x4040407E)]) = some (List.replicate 16 0x4040807F, 4 + 1) := by decide +kernel
theorem test_vscale : lanesOf 0xC421103A 1 (withV [(1, 0x42003C00), (2, 0x0003FFE7)]) = some (List.replicate 16 0x4E000000, 2 + 1) := by decide +kernel
theorem test_vcvt_p4 : lanesOf 0xCC220084 1 (withV [(1, 0x11111111), (2, 0x3FA80000)]) = some (List.replicate 16 0x11421111, 1) := by decide +kernel
theorem test_vcvt_integer : lanesOf 0xCCA6000F 5 (withV [(6, 0xC0F00000)]) = some (List.replicate 16 0xFFFFFFF9, 1) := by decide +kernel
theorem test_vrsq : lanesOf 0xE8220008 1 (withV [(2, 0x40800000)]) = some (List.replicate 16 0x3F000000, 0) := by decide +kernel
theorem test_vexp2 : (lanesOf 0xE8640011 3 (withV [(4, 0x41104110)])) = some (List.replicate 16 0x44004400, 0) := by decide +kernel

/-- The tree of R142 over 2⁻²⁴, 2⁻²⁴, 1 and zeros. -/
theorem test_vrfsum_tree : lanesOf 0xD0410018 2 { aTask with v := aTask.v.set 1 (Vector.ofFn fun i => [0x33800000, 0x33800000, 0x3F800000].getD i.val 0) } =
    some (List.replicate 16 0x3F800001, 0) := by decide +kernel
theorem test_vlui_vaddi : (lanesOf 0xE0823F80 4 aTask).map Prod.fst = some (List.replicate 16 0x3F800000) ∧
    (lanesOf 0xE0E40010 7 (withV [(7, 0xFFFFFFF8)])).map Prod.fst = some (List.replicate 16 8) := by decide +kernel
/-- `BGEN` two instructions back, not taken and taken; `BNE` five ahead. -/
theorem test_bgen_bne : (ran 0x7464FFFE (withS [(3, 1), (4, 2)])).map (fun t => t.pc) = some (aTask.pc + 4) ∧
    (ran 0x7464FFFE (withS [(3, 2), (4, 2)])).map (fun t => t.pc) = some (aTask.pc - 8) ∧ (ran 0x64400005 (withS [(2, 1)])).map (fun t => t.pc) = some (aTask.pc + 20) := by
  decide +kernel
theorem test_jalr : (ran 0x87E60008 (withS [(6, 0x8000)])).map (fun t => (t.pc, t.S 31)) = some (0x8008, aTask.pc + 4) := by decide +kernel

/-! The cases of further clauses. -/

/-- A handle on an input channel of two slots whose header is at pad offset 0x100. -/
def aHandle : Handle := ⟨false, false, padKey 0 0x100, false, 4, 2, 0, 2, 1⟩
def chanState : State := (onRow aTask).writeN (padKey 0 0x100) 64 (2 * 2 ^ 132)

/-- Context 1 holds 0x4000, in an address space whose tables are at 0. -/
def heldMem : State :=
  let x := { Ctx.create Setup.ctx0 chain00 with setup := { Setup.ctx0 with rootOk := true }, holds := [⟨[(0x4000, 8)], false⟩] }
  tabled ((onRow aTask).setCtx 1 x)

/-- A commit: a handle to advance, an act of each kind, successors that are read and armed or enqueued, and a row to free. -/
theorem witness_Exits_commit : Memory.wf chanState.mem = true ∧ handleUsed { aTask with handles := [aHandle] } 0 aHandle = true ∧
    chanState.chanIn 0 false aHandle.hkey = true ∧ chanState.chanPoison false aHandle.hkey = none ∧ (chanHdr chanState.mem false aHandle.hkey).isSome = true ∧
    aTask.grp = none ∧ (onRow aTask).faulting 0 = false ∧ (onRow aTask).dues (partOf 0) = [] ∧ (onRow aTask).poisoned (memKey 0 0x4000) 8 = none ∧
    (∀ e ∈ [(0, false), (1, true)], lrThen ((blockS 1 e.1 e.1).readBlock 0 0 0x5000 (editCopy aCommit 0) true) (fun b s1 => lbRearm b.image == e.2 &&
      (e.2 || enqOk ((s1.bindAll b.chans.flatten).enqueue 0 0x5000 b ⟨succBase s1 aTask 0, none, false⟩ none))) = true) ∧ (blockS 1 0 0).faulting 0 = false ∧
    aCommit.held = none ∧ ({ aCommit with held := some heldBlock } : Commit).held = some heldBlock ∧
    (∀ n ∈ [0, 1], let r := (blockS n 0 0).enqueue 0 0x5000 heldBlock ⟨0, none, false⟩ none; (if n = 1 then enqOk r else enqFull r) = true) ∧
    enqQuota ((quotaS.modCtx 0 fun x => { x with acts := [anAct none []] }).enqueue 0 0x5000 heldBlock ⟨0, none, false⟩ none) = true ∧
    (onRow aTask).holdHit 0 false [(memKey 0 0x4000, 8)] = none ∧ heldMem.holdHit 0 false [(memKey 0 0x4000, 8)] = some false ∧
    aTask.stage = none ∧ aTask.handles = [] ∧ aTask.bound = none ∧ aTask.pkt = none ∧ (onRow aTask).pipesOn 0 = [] := by decide +kernel

/-- A stop ring of 16 records at 0x4100 behind the die's context port, empty and full. -/
def stopRing (written : Nat) : State :=
  let x := { Ctx.create Setup.ctx0 chain00 with setup := { Setup.ctx0 with slog := 4, sring := 0x4100 } }
  ({ (onRow aTask).setCtx 0 x with ports := [(ctxPort 0, ⟨[region], [], none, none⟩)] }).writeN (memKey 0 0x4100) 8 written
def reachOk (r : Reach) (p : List (Nat × Nat) → State → Bool) : Bool :=
  match r with
  | .ok ks s => p ks s
  | _ => false
/-- A task with no dark run, whose numbers fit their fields; one in a dark run past its base; a charged one; and a stop ring with room and one that is full. -/
theorem witness_ChargeStep_record : ({ aTask with charged := true } : Machine.Task).charged = true ∧ aTask.charged = false ∧ darkTask.charged = false ∧
    (let d := aTask.dark.getD ⟨0, 0, aTask.pc, aTask.meter, aTask.nstore, aTask.nchw, aTask.ncmd⟩;
      d.meter < 2 ^ 32 ∧ aTask.budget < 2 ^ 32 ∧ aTask.lvl < 4 ∧ d.nstore < 2 ^ 15 ∧ d.nchw < 2 ^ 9 ∧ d.ncmd < 2 ^ 5) ∧
    aTask.dark = none ∧ darkTask.dark = some ⟨0, 2, 0, 0, 0, 0, 0⟩ ∧ 0 ≤ darkTask.meter ∧
    (∀ w ∈ [3, 16], let s := stopRing w; s.shortOf aTask 0 = (0, s) ∧ s.pendW = [] ∧ ((s.ctx aTask.cx).any fun x => x.setup.slog == 4 && x.setup.sring == 0x4100) = true ∧
      aTask.grp = none ∧ aTask.handles = [] ∧ aTask.bound = none ∧ aTask.stage = none ∧ aTask.pkt = none ∧ aTask.receipt = false ∧ s.pipesOn 0 = [] ∧
      reachOk (s.reach (ctxPort 0) 0 0x4100 24 3) (fun ks s2 => s2.poisonIn 0x4100 ks == none && getN s2.mem (memKey 0 0x4100) 24 == w &&
        ((w + 2 ^ 64 - 0) % 2 ^ 64 == 16 || reachOk (s2.reach (ctxPort 0) 0 (0x4100 + 64 + 32 * (w % 16)) 32 3) fun _ _ => true)) = true) := by decide +kernel

/-- An array without an owner is taken over and the pool does not hold the cost; one whose owner has not come to a slice boundary. -/
theorem witness_CommandsWait_array : (let s := (queueS 0).setPart 0 { Part.zero with plevel := 0 };
      s.takeArray 0 aCmd.core = (true, (s.takeArray 0 aCmd.core).2) ∧ ((s.takeArray 0 aCmd.core).2.part (partOf 0)).plevel < cdiv 16 64 ∧
      ownsArray 0 aCmd = true ∧ s.mayIssue (ctxQ 0 aCmd) aCmd = true ∧ headCmd (ctxQ 0 aCmd) 0 = some aCmd) ∧
    (let s := (((queueS 0).setCtx 1 (ctxQ 1 aCmd)).setCore aCmd.core { Core.start with owner := some 1 }).setPart 0 { Part.zero with slen := 3 };
      (s.core aCmd.core).owner = some 1 ∧ (s.ctx 1).isSome = true ∧ (s.core aCmd.core).handover = false) ∧
    (ctxQ 0 { aCmd with st := .issued }).matrixWork aCmd.core = true := by decide +kernel

/-- Collectives: a member that opens an instance, one that joins an open one, one that does not match it, and one whose instance has come to nothing. -/
def openColl (kind : Nat) (broken : Bool) : Coll := ⟨1, 1, 0, kind, 0, 3, 0, 0, 2, 1, [aMember 1 0], [], broken, []⟩
def aCollOps : CollOps := { kind := 1, dt := 0, scope := 3, group := 0, nmem := 2, midx := 1, len := 1, src := 0, dst := 1 }
theorem witness_EngineCommands_coll : (let o := aCollOps; ∀ g ∈ [openColl 1 false, openColl 2 false, openColl 1 true],
      g.takes 0 o.group.toNat o.scope.toNat 0 = true ∧ (g.broken && g.has o.midx.toNat) = false ∧
      (g.kind = o.kind.toNat ∧ g.dt = o.dt.toNat ∧ g.scope = o.scope.toNat ∧ g.nmem = o.nmem.toNat ∧ g.len = o.len.toNat ∧ g.has o.midx.toNat = false ↔ g.kind = 1)) ∧
    (∀ g ∈ [openColl 1 false, openColl 2 false, openColl 1 true], ({ queueS 4 with colls := [g] } : State).colls.find? (fun h =>
      h.takes (partOf 0) aCollOps.group.toNat aCollOps.scope.toNat 0 && !(h.broken && h.has aCollOps.midx.toNat)) = some g) := by decide +kernel
/-- The image that a swap installs at once where no decision of the partition runs, and later where one runs on a die. -/
def swapS (run : Option Decision) : State :=
  ((ringS aCur 1).setPart 0 { Part.zero with staged := some ⟨[0xD800], 0⟩ }).setFcast 0 { Fcast.start with run := run }
theorem witness_PrivilegedPackets_swap : (∀ r ∈ [none, some aDecision], ((swapS r).part 0).swap = none ∧ ((swapS r).part 0).staged.isSome = true ∧
      ((swapS r).part 0).badStaged = false) ∧ (∀ e ∈ (swapS none).fcasts, e.1 % 16 = partOf 0 → e.2.run = none) ∧
    (∃ e ∈ (swapS (some aDecision)).fcasts, e.1 % 16 = partOf 0 ∧ e.2.run.isSome = true) := by decide +kernel

/-- A partition with cores; rings without poison; instances that have come to nothing, with a member and without; members late and members left. -/
theorem witness_FrontEvents_rest : State.reset.coresOf 0 ≠ [] ∧ (∀ n ∈ State.reset.coresOf 0, n < 32) ∧
    (pipeState .hosted 2 4).ringPoison (aPipe (hosted .hosted)) 0 = none ∧
    State.reset.unreached (openColl 1 true).dests = none ∧ (openColl 1 true).members ≠ [] ∧ ({ openColl 1 true with members := [] } : Coll).members = [] ∧
    (∀ i ∈ ({ openColl 1 true with members := [], dead := [0, 1] } : Coll).own, i ∈ [0, 1]) ∧
    (∃ i ∈ ({ openColl 1 true with members := [], dead := [0] } : Coll).own, i ∉ [0]) ∧
    ({ openColl 1 true with members := [] } : Coll).id = (openColl 1 false).id := by decide +kernel

theorem podPackages_none (s : State) (d : Nat) (hd : s.downAt = []) (hp : s.portsUp = []) (hr : s.routes = [(d, [0])]) (h : d ≠ Config.ownPackage) :
    s.podPackages = [d] ∧ s.unreached s.podPackages = some 0 := by
  have h1 : s.podPackages = [d] := by simp [State.podPackages, hr, h]
  exact ⟨h1, by rw [h1]; exact unreached_none s [d] hd (fun e => by simp [State.route, hp]) (by simp)⟩

/-- A member of a barrier that waits at the limit for a package no route leads to; and one when every package can be reached. -/
def podBar (d tb : Nat) : State := { onRow (committing { aCommit with wait := .pod 0 }) with routes := [(d, [0])], portsUp := [], tb := tb }
theorem witness_FrontEvents_barrier (d : Nat) (h : d ≠ Config.ownPackage) : (podBar d (10 ^ 7)).unreached (podBar d (10 ^ 7)).podPackages = some 0 ∧
    max 0 0 + ((podBar d (10 ^ 7)).part (partOf 0)).fault ≤ (podBar d (10 ^ 7)).tb ∧ (podBar d (10 ^ 7 - 1)).tb < max 0 0 + ((podBar d (10 ^ 7 - 1)).part (partOf 0)).fault ∧
    (podBar d (10 ^ 7)).task 0 = some (committing { aCommit with wait := .pod 0 }) ∧ State.reset.unreached State.reset.podPackages = none := by
  exact ⟨(podPackages_none _ d rfl rfl rfl h).2, (by decide +kernel : max 0 0 + Part.zero.fault ≤ 10 ^ 7), (by decide +kernel : 10 ^ 7 - 1 < max 0 0 + Part.zero.fault),
    rfl, rfl⟩

theorem witness_MessageEvents_rings : (msgS (some (.inl [1]))).chanPoison false (padKey 0 0x1000) = none ∧
    (msgS (some (.inr (1, 2, 0)))).poisoned (dieKey 0 0x100) 64 = none ∧ (∀ o ∈ ([] : List Msg), o.cx = 0 → (aMsg none).seq ≤ o.seq) := by decide +kernel

/-- No stage waits for the pool, and one does; headers without poison. -/
theorem witness_SchedulerEvents_checks : State.reset.unfunded 0 = [] ∧ ((pipeState .hosted 2 4).modPart 0 fun p => { p with plevel := 0 }).unfunded 0 = [0] ∧
    (actS (anAct none [])).checkPoison (anAct none []) ((actS (anAct none [])).checkCores 0 (blockWord 0 0)) = none ∧
    isoS.checkPoison (anAct none isoChans) (isoS.isobarCores 0 (actCtx (anAct none isoChans)) (anAct none isoChans)) = none ∧
    (∀ k ∈ isoS.isobarCores 0 (actCtx (anAct none isoChans)) (anAct none isoChans), isoS.chanProt 0 (anAct none isoChans) k = none) := by decide +kernel

/-- An instruction that waits at its step 4 with its word kept; an engine that a miss of its own stalls, and one that none does. -/
def chargedS : State := onRow { aTask with charged := true, ir := 0x04642800 }
def missedS : State := { queueS 1 with ports := [(enginePort 0 1 aCmd, ⟨[], [], none, some ⟨0, 0x4000, 1, 0, 4, 0, false, .engine 0 1⟩⟩)] }
theorem witness_StepRunsDecoded_waits : chargedS.turn = .row 0 ∧ (match chargedS.task 0 with
      | some t => t.charged && !chargedS.held 0 t && t.commit.isNone && !(chargedS.row 0).gated && (decodeTask t.ir).isSome
      | none => false) = true ∧ aTask.charged = false ∧ missedS.engineStalled 0 1 aCmd = true ∧ (queueS 1).engineStalled 0 1 aCmd = false ∧
    missedS.turn = .engine 0 1 ∧ ((missedS.ctx 0).bind fun x => headCmd x 1) = some aCmd := by decide +kernel

/-- A payload that fits a flit and one that does not; a channel with a credit and one without; traffic to a package with a route and without. -/
def routed : State := { State.reset with routes := [(3, [0])], podTx := [(3, 0, .barrierArrival 1 0)] }
theorem witness_FeedsAndLinks_credits : podFits (.barrierArrival 3 0) = true ∧ podFits (.collective 0 0 0 0 0 0 0 0 (List.replicate 225 0)) = false ∧
    routed.credits 0 0 = true ∧ routed.route 3 = some 0 ∧ ({ routed with portsUp := [] } : State).route 3 = none ∧
    ({ routed with links := [(0, { Link.start with out := List.replicate (Config.linkCredits + 1) (0, none, .barrierArrival 1 0) })] } : State).credits 0 0 = false ∧
    ((aFlit 0 true).vc < 16) := by
  refine ⟨by decide, by decide +kernel, ?_, rfl, rfl, ?_, by decide⟩
  · simp [State.credits, routed, getT, State.reset, Link.start]
  · simp [State.credits, getT]

/-- A receipt's first step, with a read that has been lost and with none, and with the quota of its VF reached. -/
theorem witness_ReceiptPackets_checks : (let s := codeS.modCtx 0 fun x => { x with setup := { x.setup with clog := 4 }, receipt := some (recAt 1) };
      ((s.ctx 0).any fun x => x.parses && x.receipt == some (recAt 1)) = true ∧ s.pendR = []) ∧
    (recAt 1).step = 1 ∧ lostIn (recAt 1).lost 0x4000 16 = none ∧ lostIn [(0x4008, 1)] 0x4000 16 ≠ none ∧
    (let s := codeS.setVf 0 { codeS.vf 0 with qslots := 1 }; (s.vf 0).qslots ≠ 0 ∧ ((s.setCtx 0 { ringCtx aCur 1 with acts := [anAct none []] }).entriesOf 0 = 1)) ∧
    (∀ b ∈ [0x100, 0x200], codeOk 0x4000 b (lbEntry (blockWord 0 0)) = true) := by decide +kernel

/-- An instruction that has waited at its step 4 is not charged again (R29). -/
theorem test_charged_once : ((ran 0x04642800 aTask).map fun t => t.meter - aTask.meter) = some 4 ∧
    ((ran 0x04642800 { aTask with charged := true }).map fun t => (t.meter - aTask.meter, t.charged)) = some (0, false) := by decide +kernel
/-- A swap installs the staged image at once where no decision runs, else it waits (R275). -/
theorem test_swap_waits : (∀ e ∈ [(none, some ⟨[0xD800], 0⟩), (some aDecision, none)], (match exec .policySwap (swapS e.1) with
    | .next u => (u.part 0).image == e.2
    | _ => false) = true) := by decide +kernel
/-- A gzip header that ends before its two FHCRC bytes is malformed (R177). -/
theorem test_gzip_cut : gzipHeader [0x1F, 0x8B, 8, 2, 0, 0, 0, 0, 0, 0] = .inr (1, 10) := by decide +kernel

/-! The range check at issue (R231): operands within the ranges of context 0, and the same where it has no pad range. -/

def padless (k cost : Nat) : State := (issued (queueS k) cost).modCtx 0 fun x => { x with setup := { x.setup with padn := 0 } }
def aCopy2d : Copy2dOps := ⟨0, 2, 2, 0x20, 0x4000, 0, 16, 0x100⟩
theorem witness_CopyCommands_ranges : let l := [(2, 0, 256, 1), (0, 0x4000, 256, 2)]; let n := [(0, 0x4000, 256, 1), (2, 256 * 32767, 256, 2)];
    (issued (queueS 1) 80).outside (it 1) l = none ∧ (issued (queueS 1) 80).outside (it 1) n = none ∧
    (issued (queueS 1) 98).outside (it 1) (copy2dSpans aCopy2d) = none ∧ (padless 1 80).outside (it 1) [(2, 0, 256, 1)] = some (1, 0) ∧
    (padless 1 80).outside (it 1) [(2, 256, 256, 2)] = some (2, 256) ∧
    (padless 1 98).outside (it 1) (copy2dSpans aCopy2d) = some (2, 0) := by decide +kernel

theorem witness_EngineCommands_ranges : (issued (queueS 3) 208).outside (it 3) (gatherSpans aGather 2) = none ∧
    (issued (queueS 3) 208).outside (it 3) (gatherSpans aGather 1) = none ∧ (issued (queueS 4) 160).outside (it 4) (collSpans aCollOps) = none ∧
    (padless 3 208).outside (it 3) (gatherSpans aGather 2) = some (1, 0x100) ∧ (padless 4 160).outside (it 4) (collSpans aCollOps) = some (1, 0) ∧
    (padless 0 4096).outside (it 0) (mxtSpans chMxt) = some (3, 0x1000) := by decide +kernel

/-- The ring that a save leaves: as the Front left it, with its header poisoned, and with a header that is none. -/
theorem witness_FrontEvents_left : let h := hosted .saving; let p := aPipe h; let s := pipeState .saving 2 4;
    s.leftBad p h = none ∧ (({ s with poison := [p.linkKey 0 / 256] } : State).leftBad p h).isSome = true ∧
    ({ s with poison := [p.linkKey 0 / 256] } : State).poisoned (p.slotKey 0) 16 = none ∧
    (s.writeN (p.linkKey 0) 64 0).leftBad p h = some (8, 0) ∧ s.faulting 0 = false := by decide +kernel

/-- A write that leaves its granule poisoned gives the waiting context the data error; one that covers it whole satisfies the wait (R53, R328). -/
def waitS : State :=
  { (actS { anAct none [] with wkey := some 0x4008, wok := false, bound := true }).modCtx 0 fun x => { x with
      bounds := [⟨1, 0x5000, 2 ^ 101 + 0x4008 * 2 ^ 256 + 7 * 2 ^ 320, 1, 0, 0, 0, []⟩] } with poison := [0x40] }
theorem test_wait_poisoned : ((waitS.writeN 0x4008 8 7).ctx 0).any (fun x => (x.halt.fault.any fun f => f.cls == 12 && f.addr == 0x4000) &&
    x.acts.all fun a => !a.wok) = true := by decide +kernel
theorem test_wait_whole : ((waitS.write 0x4000 ((List.range 256).map fun i => if i = 8 then 7 else 0)).ctx 0).any (fun x => x.halt.fault.isNone &&
    x.acts.all fun a => a.wok) = true := by decide +kernel

/-- The command behind one that has issued is the head, and its wait is satisfied while the first goes on (R187). -/
theorem test_latch_behind : let c := { aCmd with st := .issued }; let d := { waitCmd with seq := 2 };
    let x := { Ctx.create Setup.ctx0 chain00 with eqs := [(1, ⟨2, 0, [c, d]⟩)], slots := [(0, ⟨true, 0⟩)] };
    ((findCmd x.latch 1 2).map fun c => c.sat) = some true ∧ headCmd x.latch 1 = some c := by decide +kernel

/-- A drain-frozen task whose walk has faulted still counts LULL (R322, R349). -/
theorem test_frozen_faulted : (onRow { aTask with froDrain := true, faulted := true }).rowClass 0 = (5, 0) := by decide +kernel

end Sys2Proof.Tests
end

section
/-! SUPPORT. The values of the divisions (R86), of the signed compare and of LUI (R85, R87), as the rules write them. -/

namespace Sys2Proof.Machine

section
variable (x : Word) {y : Word}

@[simp] theorem divS_zero : divS x 0#64 = BitVec.allOnes 64 := rfl
@[simp] theorem divU_zero : divU x 0#64 = BitVec.allOnes 64 := rfl
@[simp] theorem remS_zero : remS x 0#64 = x := rfl
@[simp] theorem remU_zero : remU x 0#64 = x := rfl

theorem divS_eq_tdiv (hy : y ≠ 0) : divS x y = BitVec.ofInt 64 (x.toInt.tdiv y.toInt) := by
  rw [divS, if_neg hy]
  exact BitVec.eq_of_toInt_eq (by rw [BitVec.toInt_sdiv, BitVec.toInt_ofInt])

theorem divU_eq_div (hy : y ≠ 0) : divU x y = BitVec.ofNat 64 (x.toNat / y.toNat) := by
  rw [divU, if_neg hy, ← BitVec.toNat_udiv, BitVec.ofNat_toNat, BitVec.setWidth_eq]
  rfl

theorem remS_eq_tmod (hy : y ≠ 0) : remS x y = BitVec.ofInt 64 (x.toInt.tmod y.toInt) := by
  rw [remS, if_neg hy, ← BitVec.toInt_srem, BitVec.ofInt_toInt]

theorem remU_eq_mod (hy : y ≠ 0) : remU x y = BitVec.ofNat 64 (x.toNat % y.toNat) := by
  rw [remU, if_neg hy, ← BitVec.toNat_umod, BitVec.ofNat_toNat, BitVec.setWidth_eq]
  rfl

theorem flag64_slt (y : Word) : flag64 (x.slt y) = if x.toInt < y.toInt then 1 else 0 := by
  simp [flag64, BitVec.slt_iff_toInt_lt]

theorem not_slt_iff (y : Word) : (!x.slt y) = true ↔ y.toInt ≤ x.toInt := by
  rw [Bool.not_eq_true', ← Bool.not_eq_true, BitVec.slt_iff_toInt_lt, Int.not_lt]

theorem not_ult_iff (y : Word) : (!x.ult y) = true ↔ y.toNat ≤ x.toNat := by
  rw [Bool.not_eq_true', ← Bool.not_eq_true, BitVec.ult_iff_lt, BitVec.lt_def, Nat.not_lt]

end

theorem append_zero_eq_shiftLeft (i : BitVec 16) : i ++ (0 : BitVec 16) = ((i.setWidth 32) <<< 16 : BitVec 32) := by
  rw [BitVec.append_def, BitVec.shiftLeftZeroExtend_eq]
  exact BitVec.or_zero

end Sys2Proof.Machine
end

section
/-! SUPPORT. What a scalar instruction of a paying row comes to (R29, R37): the rules from which the statements about scalar
instructions follow. -/

namespace Sys2Proof.Safety

open Sys2Proof.Machine

/-! ## The charge -/

section
variable {s s1 : State} {r n : Nat} {t t1 : Machine.Task}

theorem Paying.meter (h : Paying s r t n s1 t1) (hc : t.charged = false) : t1.meter = t.meter + n := by
  obtain ⟨_, _, hp⟩ := h
  rcases State.pay_ok_cases hp with ⟨hc', _⟩ | ⟨_, _, _, _, _, _, _, rfl⟩ | ⟨_, _, _, _, rfl⟩ | ⟨_, _, _, _, _, rfl⟩
  · simp [hc] at hc'
  all_goals rfl

theorem Paying.flags (h : Paying s r t n s1 t1) : t1.flags = t.flags := by
  obtain ⟨_, _, hp⟩ := h
  rw [State.pay_task hp]

/-! ## How the instruction ends -/

theorem Paying.runTask_done (h : Paying s r t n s1 t1) {body : State → Machine.Task → Body} {s2 : State} {t2 : Machine.Task}
    (hb : body s1 t1 = .done s2 t2) : s.runTask (fun _ => n) body = .next (retire s2 t2) := by
  obtain ⟨hr, ht, hp⟩ := h
  rw [State.runTask_ok (fun _ => n) body hr ht hp, hb]
  rfl

theorem Paying.runTask_stop (h : Paying s r t n s1 t1) {body : State → Machine.Task → Body} {c : Stop} (hb : body s1 t1 = .stop c) :
    s.runTask (fun _ => n) body = .next (s1.stopTask t1 c) := by
  obtain ⟨hr, ht, hp⟩ := h
  rw [State.runTask_ok (fun _ => n) body hr ht hp, hb]

theorem Paying.runReg (h : Paying s r t n s1 t1) (f : Machine.Task → Machine.Task) : s.runReg n f = .next (retire s1 (f t1)) :=
  h.runTask_done rfl

theorem Paying.alu2 (h : Paying s r t n s1 t1) {d a b : BitVec 5} (f : Word → Word → Word) {v : Word} (hv : f (t1.S a) (t1.S b) = v) :
    s.alu2 n d a b f = .next (retire s1 (t1.setS d v).adv) := by
  rw [State.alu2, h.runReg, hv]

theorem Paying.alu1 (h : Paying s r t n s1 t1) {d a : BitVec 5} (f : Word → Word) {v : Word} (hv : f (t1.S a) = v) :
    s.alu1 n d a f = .next (retire s1 (t1.setS d v).adv) := by
  rw [State.alu1, h.runReg, hv]

/-- LUI writes its immediate, shifted left by 16 and sign-extended from 32 bits (R87). -/
theorem Paying.lui (h : Paying s r t 4 s1 t1) (d : BitVec 5) (i : BitVec 16) :
    exec (.lui d i) s = .next (retire s1 (t1.setS d (((i.setWidth 32) <<< 16 : BitVec 32).signExtend 64)).adv) := by
  rw [← append_zero_eq_shiftLeft]
  exact h.runReg fun t => (t.setS d ((i ++ (0 : BitVec 16)).signExtend 64)).adv

/-! ## Branches (R96) -/

/-- A branch goes to its target where its condition holds, and to the next instruction where it does not. -/
theorem Paying.branch (h : Paying s r t 4 s1 t1) {d : BitVec 16} {c : Machine.Task → Bool} {P : Prop} (hc : c t1 = true ↔ P) :
    (P → s.branch d c = .next (retire s1 { t1 with pc := t1.pc + 4 * d.signExtend 64 })) ∧
    (¬P → s.branch d c = .next (retire s1 { t1 with pc := t1.pc + 4 })) := by
  rw [State.branch, h.runReg]
  constructor <;> intro hP
  · rw [if_pos (hc.2 hP), Task.jump, sext64, BitVec.mul_comm]
  · rw [if_neg (mt hc.1 hP), Task.adv]

/-- BDNZ counts its register down, and goes to the next instruction where 1 became 0, else to its target. -/
theorem Paying.bdnz (h : Paying s r t 4 s1 t1) {a : BitVec 5} (ha : a ≠ 0) (d : BitVec 16) :
    exec (.bdnz a d) s = .next (retire s1 { t1.setS a (t1.S a - 1) with
      pc := t1.pc + (if t1.S a = 1 then 4 else 4 * d.signExtend 64) }) := by
  have hz : t1.S a - 1 = 0 ↔ t1.S a = 1 := sub_eq_zero
  refine (h.runReg _).trans ?_
  dsimp only
  rw [Task.S_setS_same t1 a _ ha]
  by_cases h1 : t1.S a = 1
  · rw [if_pos (hz.2 h1), if_pos h1, Task.adv, Task.setS_pc]
  · rw [if_neg (mt hz.1 h1), if_neg h1, Task.jump, Task.setS_pc, sext64, BitVec.mul_comm]

/-! ## Jumps (R97) -/

theorem Paying.jal (h : Paying s r t 4 s1 t1) (l : BitVec 26) :
    exec (.jal l) s = .next (retire s1 { t1.setS 31 (t1.pc + 4) with pc := t1.pc + 4 * l.signExtend 64 }) := by
  refine (h.runReg _).trans ?_
  rw [Task.jump, Task.setS_pc, sext64, BitVec.mul_comm]

theorem Paying.jalr_aligned (h : Paying s r t 4 s1 t1) (d a : BitVec 5) {e : BitVec 16} (ht : (t1.S a + e.signExtend 64).toNat % 4 = 0) :
    exec (.jalr d a e) s = .next (retire s1 { t1.setS d (t1.pc + 4) with pc := t1.S a + e.signExtend 64 }) :=
  h.runTask_done (if_neg (not_not_intro ht))

theorem Paying.jalr_misaligned (h : Paying s r t 4 s1 t1) (d a : BitVec 5) {e : BitVec 16} (ht : (t1.S a + e.signExtend 64).toNat % 4 ≠ 0) :
    exec (.jalr d a e) s = .next (s1.stopTask t1 .misaligned) :=
  h.runTask_stop (if_pos ht)

end

end Sys2Proof.Safety
end

section
/-! SUPPORT. The words of the formats RI, BR and J (R26): their fields, and what those of the immediate forms, branches and jumps
decode to (R27, R28). -/

namespace Sys2Proof

/-! ## Two registers and a halfword: RI and BR -/

/-- The word of an opcode, two register fields and 16 bits. -/
def riWord (op : Nat) (d a : BitVec 5) (i : BitVec 16) : Nat := op * 2 ^ 26 + d.toNat * 2 ^ 21 + a.toNat * 2 ^ 16 + i.toNat

section
variable {op : Nat} (d a b : BitVec 5) (i : BitVec 16)

theorem riWord_op (h : op < 64) : fld (riWord op d a i) 31 26 = op := by simp only [fld, riWord]; omega

@[simp] theorem riWord_second : fld (riWord op d a i) 20 16 = a.toNat := by simp only [fld, riWord]; omega

@[simp] theorem riWord_kind : fld (riWord op d a i) 15 6 = i.toNat / 64 := by simp only [fld, riWord]; omega

@[simp] theorem riWord_reg1 : bvf (riWord op d a i) 25 21 = d := by
  apply BitVec.eq_of_toNat_eq; simp only [bvf, riWord, BitVec.toNat_ofNat]; omega

@[simp] theorem riWord_reg2 : bvf (riWord op d a i) 20 16 = a := by
  apply BitVec.eq_of_toNat_eq; simp only [bvf, riWord, BitVec.toNat_ofNat]; omega

@[simp] theorem riWord_half : bvf (riWord op d a i) 15 0 = i := by
  apply BitVec.eq_of_toNat_eq; simp only [bvf, riWord, BitVec.toNat_ofNat]; omega

@[simp] theorem riWord_amount : bvf (riWord op d a i) 5 0 = i.setWidth 6 := by
  apply BitVec.eq_of_toNat_eq; simp only [bvf, riWord, BitVec.toNat_ofNat, BitVec.toNat_setWidth]; omega

/-! ## Decoding -/

theorem decodeTask_of_raw {w : Nat} {i : Instr} (h : decodeRaw w = some i) (hw : i.wf = true) : decodeTask w = some i := by
  simp [decodeTask, h, hw]

theorem decodeTask_of_ill_formed {w : Nat} {i : Instr} (h : decodeRaw w = some i) (hw : i.wf = false) : decodeTask w = none := by
  simp [decodeTask, h, hw]

theorem decodeTask_of_raw_none {w : Nat} (h : decodeRaw w = none) : decodeTask w = none := by simp [decodeTask, h]

theorem decodeTask_addi : decodeTask (riWord 0x02 d a i) = some (.addi d a i) :=
  decodeTask_of_raw (by simp [decodeRaw, riWord_op, decodeOp02]) rfl

theorem decodeTask_andi : decodeTask (riWord 0x03 d a i) = some (.andi d a i) :=
  decodeTask_of_raw (by simp [decodeRaw, riWord_op, decodeOp03]) rfl

theorem decodeTask_ori : decodeTask (riWord 0x04 d a i) = some (.ori d a i) :=
  decodeTask_of_raw (by simp [decodeRaw, riWord_op, decodeOp04]) rfl

theorem decodeTask_xori : decodeTask (riWord 0x05 d a i) = some (.xori d a i) :=
  decodeTask_of_raw (by simp [decodeRaw, riWord_op, decodeOp05]) rfl

section
variable {i}

theorem decodeTask_shli (h : i.toNat / 64 = 0) : decodeTask (riWord 0x06 d a i) = some (.shli d a (i.setWidth 6)) :=
  decodeTask_of_raw (by simp [decodeRaw, riWord_op, decodeOp06, Nat.lt_of_div_eq_zero (by decide) h]) rfl

theorem decodeTask_shri (h : i.toNat / 64 = 1) : decodeTask (riWord 0x06 d a i) = some (.shri d a (i.setWidth 6)) :=
  decodeTask_of_raw (by simp [decodeRaw, riWord_op, decodeOp06, h]) rfl

theorem decodeTask_sari (h : i.toNat / 64 = 2) : decodeTask (riWord 0x06 d a i) = some (.sari d a (i.setWidth 6)) :=
  decodeTask_of_raw (by simp [decodeRaw, riWord_op, decodeOp06, h]) rfl

theorem decodeTask_no_shift (h0 : i.toNat / 64 ≠ 0) (h1 : i.toNat / 64 ≠ 1) (h2 : i.toNat / 64 ≠ 2) : decodeTask (riWord 0x06 d a i) = none :=
  decodeTask_of_raw_none (by simp [decodeRaw, riWord_op, decodeOp06, h0, h1, h2])

end

theorem decodeTask_lui : decodeTask (riWord 0x07 d a i) = if a = 0 then some (.lui d i) else none := by
  have hraw : decodeRaw (riWord 0x07 d a i) = if a = 0 then some (.lui d i) else none := by
    simp [decodeRaw, riWord_op, decodeOp07, BitVec.toNat_eq]
  by_cases ha : a = 0
  · rw [if_pos ha] at hraw ⊢; exact decodeTask_of_raw hraw rfl
  · rw [if_neg ha] at hraw ⊢; exact decodeTask_of_raw_none hraw

theorem decodeTask_slti : decodeTask (riWord 0x08 d a i) = some (.slti d a i) :=
  decodeTask_of_raw (by simp [decodeRaw, riWord_op, decodeOp08]) rfl

theorem decodeTask_beq : decodeTask (riWord 0x18 a b i) = some (.beq a b i) :=
  decodeTask_of_raw (by simp [decodeRaw, riWord_op, decodeOp18]) rfl

theorem decodeTask_bne : decodeTask (riWord 0x19 a b i) = some (.bne a b i) :=
  decodeTask_of_raw (by simp [decodeRaw, riWord_op, decodeOp19]) rfl

theorem decodeTask_blt : decodeTask (riWord 0x1A a b i) = some (.blt a b i) :=
  decodeTask_of_raw (by simp [decodeRaw, riWord_op, decodeOp1A]) rfl

theorem decodeTask_bge : decodeTask (riWord 0x1B a b i) = some (.bge a b i) :=
  decodeTask_of_raw (by simp [decodeRaw, riWord_op, decodeOp1B]) rfl

theorem decodeTask_bltn : decodeTask (riWord 0x1C a b i) = some (.bltn a b i) :=
  decodeTask_of_raw (by simp [decodeRaw, riWord_op, decodeOp1C]) rfl

theorem decodeTask_bgen : decodeTask (riWord 0x1D a b i) = some (.bgen a b i) :=
  decodeTask_of_raw (by simp [decodeRaw, riWord_op, decodeOp1D]) rfl

theorem decodeTask_bdnz : decodeTask (riWord 0x1E a b i) = if a ≠ 0 ∧ b = 0 then some (.bdnz a i) else none := by
  have hraw : decodeRaw (riWord 0x1E a b i) = if b = 0 then some (.bdnz a i) else none := by
    simp [decodeRaw, riWord_op, decodeOp1E, BitVec.toNat_eq]
  by_cases hb : b = 0
  · rw [if_pos hb] at hraw
    by_cases ha : a = 0
    · rw [if_neg fun h => h.1 ha]; exact decodeTask_of_ill_formed hraw (decide_eq_false (not_not_intro ha))
    · rw [if_pos ⟨ha, hb⟩]; exact decodeTask_of_raw hraw (decide_eq_true ha)
  · rw [if_neg hb] at hraw
    rw [if_neg fun h => hb h.2]; exact decodeTask_of_raw_none hraw

theorem decodeTask_jalr : decodeTask (riWord 0x21 d a i) = some (.jalr d a i) :=
  decodeTask_of_raw (by simp [decodeRaw, riWord_op, decodeOp21]) rfl

end

/-- A word of format J has 26 bits beside its opcode, and JAL takes them all as its displacement. -/
theorem decodeTask_jal (l : BitVec 26) : decodeTask (0x20 * 2 ^ 26 + l.toNat) = some (.jal l) := by
  have hop : fld (0x20 * 2 ^ 26 + l.toNat) 31 26 = 32 := by simp only [fld]; omega
  have hl : bvf (0x20 * 2 ^ 26 + l.toNat) 25 0 = l := by
    apply BitVec.eq_of_toNat_eq; simp only [bvf, BitVec.toNat_ofNat]; omega
  exact decodeTask_of_raw (by simp only [decodeRaw, hop, decodeOp20, hl]) rfl

end Sys2Proof
end

section
/-! SUPPORT. The statements about scalar integer operations, branches and jumps, settled. -/

namespace Sys2Proof.Safety

open Sys2Proof.Machine

/-- Settles O11, from the rules for JAL and for JALR with an aligned and a misaligned target. -/
theorem jumps : Obligations.Jumps := by
  intro s s1 r t t1 d a e l hp
  exact ⟨hp.jal l, hp.jalr_aligned d a, hp.jalr_misaligned d a, hp.meter, decodeTask_jal l, decodeTask_jalr d a e, by decide⟩

/-- Settles O10: a branch is decided by its condition on the task once charged; BDNZ from 0 counts down to all ones. -/
theorem branches : Obligations.Branches := by
  intro s s1 r t t1 a b d hp
  refine ⟨hp.branch beq_iff_eq, hp.branch bne_iff_ne, hp.branch BitVec.slt_iff_toInt_lt, hp.branch (not_slt_iff _ _),
    hp.branch BitVec.ult_iff_lt, hp.branch (not_ult_iff _ _), fun ha => hp.bdnz ha d, ?_, hp.meter, ?_, decodeTask_bdnz a b d, by decide, by decide⟩
  · rintro ⟨hx, ha⟩
    have h := hp.bdnz ha d
    rwa [hx] at h
  · simp only [List.forall_mem_cons]
    exact ⟨decodeTask_beq a b d, decodeTask_bne a b d, decodeTask_blt a b d, decodeTask_bge a b d, decodeTask_bltn a b d,
      decodeTask_bgen a b d, by simp⟩

/-- Settles O4: each form is one operation on a register, and its word is decoded by the opcode's row. -/
theorem immediateResults : Obligations.ImmediateResults := by
  intro s s1 r t t1 d a i n hp
  refine ⟨hp.alu1 (· + sext64 i) rfl, hp.alu1 (· &&& zext64 i) rfl, hp.alu1 (· ||| zext64 i) rfl, hp.alu1 (· ^^^ zext64 i) rfl,
    hp.alu1 (· <<< n.toNat) rfl, hp.alu1 (· >>> n.toNat) rfl, hp.alu1 (·.sshiftRight n.toNat) rfl, hp.lui d i,
    hp.alu1 (fun x => flag64 (x.slt (sext64 i))) (flag64_slt _ _), ?_,
    hp.meter, ⟨decodeTask_addi d a i, decodeTask_andi d a i, decodeTask_ori d a i, decodeTask_xori d a i, ?_, decodeTask_lui d a i,
      decodeTask_slti d a i⟩, by decide, by decide, by decide, by decide⟩
  · rintro rfl
    exact hp.lui d _
  · split
    next h => exact decodeTask_shli d a h
    next h => exact decodeTask_shri d a h
    next h => exact decodeTask_sari d a h
    next h0 h1 h2 => exact decodeTask_no_shift d a h0 h1 h2

/-- Settles O2: each division is the quotient or remainder that its rule names, and the pairs of the table are evaluated. -/
theorem divisionResults : Obligations.DivisionResults := by
  refine ⟨fun s s1 r t t1 d a b => ⟨fun hp => ⟨?zeroDivisor, ?quotient, ?overflow, ?table, fun v => ?flags⟩, fun hp => ?highProduct,
    fun hp => ⟨?bext, ?bdep, ?sext⟩⟩, by decide, by decide, by decide, by decide, by decide, by decide⟩
  case zeroDivisor =>
    intro hy
    exact ⟨hp.alu2 divS (by simp [hy]), hp.alu2 divU (by simp [hy]), hp.alu2 remS (by simp [hy]), hp.alu2 remU (by simp [hy])⟩
  case quotient =>
    intro hy
    exact ⟨hp.alu2 divS (divS_eq_tdiv _ hy), hp.alu2 divU (divU_eq_div _ hy), hp.alu2 remS (remS_eq_tmod _ hy),
      hp.alu2 remU (remU_eq_mod _ hy)⟩
  case overflow =>
    rintro ⟨hx, hy⟩
    exact ⟨hp.alu2 divS (by rw [hx, hy]; decide), hp.alu2 remS (by rw [hx, hy]; decide)⟩
  case table =>
    rintro ⟨hx, hy⟩
    exact ⟨hp.alu2 divS (by rw [hx, hy]; decide), hp.alu2 remS (by rw [hx, hy]; decide)⟩
  case flags => rw [Task.adv, Task.setS_flags, hp.flags]
  case highProduct =>
    rintro ⟨hx, hy⟩
    exact hp.alu2 mulhU (by rw [hx, hy]; decide)
  case bext =>
    rintro ⟨hx, hy⟩
    exact hp.alu2 (fun x y => BitVec.ofNat 64 (bextFrom x y 64 0 0)) (by rw [hx, hy]; decide)
  case bdep =>
    rintro ⟨hx, hy⟩
    exact hp.alu2 (fun x y => BitVec.ofNat 64 (bdepFrom x y 64 0 0)) (by rw [hx, hy]; decide)
  case sext =>
    intro hx
    exact hp.alu1 (sextTo 2) (by rw [hx]; decide)

end Sys2Proof.Safety
end

section
/-! SUPPORT. The words of task instructions by their formats (R26): the fields of each format's word, and that the decoder gives back
every well-formed instruction from its word (R24 to R28). -/

namespace Sys2Proof

/-- The decoder gives an instruction back from its word, where it is well-formed. -/
def RoundTrips (x : Instr) : Prop := x.wf = true → encode x < 2 ^ 32 ∧ decodeTask (encode x) = some x

theorem roundTrips_of {x : Instr} {w : Nat} (hlt : encode x < 2 ^ 32) (hw : encode x = w) (hd : x.wf = true → decodeRaw w = some x) :
    RoundTrips x := fun h => ⟨hlt, hw ▸ decodeTask_of_raw (hd h) h⟩

theorem roundTrips_of_task {x : Instr} (hlt : encode x < 2 ^ 32) (hd : decodeTask (encode x) = some x) : RoundTrips x := fun _ => ⟨hlt, hd⟩

theorem bvf_eq {n hi lo : Nat} {x : BitVec (hi - lo + 1)} (h : n / 2 ^ lo % 2 ^ (hi - lo + 1) = x.toNat) : bvf n hi lo = x :=
  BitVec.eq_of_toNat_eq ((BitVec.toNat_ofNat ..).trans h)

/-! ## Three registers, a mask, an operation and a type -/

/-- The word of an opcode and an operation at bit 3, with three registers, a mask and a type. -/
def vecWord (op f : Nat) (d a b : BitVec 5) (k t : BitVec 3) : Nat :=
  op * 2 ^ 26 + f * 8 + d.toNat * 2 ^ 21 + a.toNat * 2 ^ 16 + b.toNat * 2 ^ 11 + k.toNat * 2 ^ 8 + t.toNat

section
variable {op f : Nat} (d a b : BitVec 5) (k t : BitVec 3)

@[simp] theorem vecWord_d (hf : f < 32) : bvf (vecWord op f d a b k t) 25 21 = d := bvf_eq (by simp only [vecWord]; omega)
@[simp] theorem vecWord_a (hf : f < 32) : bvf (vecWord op f d a b k t) 20 16 = a := bvf_eq (by simp only [vecWord]; omega)
@[simp] theorem vecWord_b (hf : f < 32) : bvf (vecWord op f d a b k t) 15 11 = b := bvf_eq (by simp only [vecWord]; omega)
@[simp] theorem vecWord_k (hf : f < 32) : bvf (vecWord op f d a b k t) 10 8 = k := bvf_eq (by simp only [vecWord]; omega)
@[simp] theorem vecWord_t : bvf (vecWord op f d a b k t) 2 0 = t := bvf_eq (by simp only [vecWord]; omega)

variable (ho : op < 64) (hf : f < 32)
include hf

@[simp] theorem vecWord_f : fld (vecWord op f d a b k t) 7 3 = f := by simp only [fld, vecWord]; omega
@[simp] theorem vecWord_low5 : fld (vecWord op f d a b k t) 7 0 = f * 8 + t.toNat := by simp only [fld, vecWord]; omega
@[simp] theorem vecWord_low8 : fld (vecWord op f d a b k t) 10 3 = k.toNat * 32 + f := by simp only [fld, vecWord]; omega
@[simp] theorem vecWord_low11 : fld (vecWord op f d a b k t) 10 0 = t.toNat + (k.toNat * 256 + f * 8) := by simp only [fld, vecWord]; omega
@[simp] theorem vecWord_low13 : fld (vecWord op f d a b k t) 15 3 = b.toNat * 256 + k.toNat * 32 + f := by simp only [fld, vecWord]; omega
@[simp] theorem vecWord_low16 : fld (vecWord op f d a b k t) 15 0 = t.toNat + (b.toNat * 2048 + k.toNat * 256 + f * 8) := by
  simp only [fld, vecWord]; omega
@[simp] theorem vecWord_third : fld (vecWord op f d a b k t) 15 11 = b.toNat := by simp only [fld, vecWord]; omega
@[simp] theorem vecWord_first : fld (vecWord op f d a b k t) 25 21 = d.toNat := by simp only [fld, vecWord]; omega

include ho in
@[simp] theorem vecWord_op : fld (vecWord op f d a b k t) 31 26 = op := by simp only [fld, vecWord]; omega

end

/-! ## Floating point: three registers, an operation, a mode and a type -/

/-- The word of an opcode with three registers, five bits from bit 6, a mode and a type. -/
def fpWord (op : Nat) (d a b f : BitVec 5) (m w : BitVec 3) : Nat :=
  op * 2 ^ 26 + d.toNat * 2 ^ 21 + a.toNat * 2 ^ 16 + b.toNat * 2 ^ 11 + f.toNat * 2 ^ 6 + m.toNat * 2 ^ 3 + w.toNat

section
variable {op : Nat} (d a b f : BitVec 5) (m w : BitVec 3)

@[simp] theorem fpWord_d : bvf (fpWord op d a b f m w) 25 21 = d := bvf_eq (by simp only [fpWord]; omega)
@[simp] theorem fpWord_a : bvf (fpWord op d a b f m w) 20 16 = a := bvf_eq (by simp only [fpWord]; omega)
@[simp] theorem fpWord_b : bvf (fpWord op d a b f m w) 15 11 = b := bvf_eq (by simp only [fpWord]; omega)
@[simp] theorem fpWord_f : bvf (fpWord op d a b f m w) 10 6 = f := bvf_eq (by simp only [fpWord]; omega)
@[simp] theorem fpWord_m : bvf (fpWord op d a b f m w) 5 3 = m := bvf_eq (by simp only [fpWord]; omega)
@[simp] theorem fpWord_w : bvf (fpWord op d a b f m w) 2 0 = w := bvf_eq (by simp only [fpWord]; omega)
@[simp] theorem fpWord_low5 : fld (fpWord op d a b f m w) 10 6 = f.toNat := by simp only [fld, fpWord]; omega
@[simp] theorem fpWord_low8 : fld (fpWord op d a b f m w) 10 3 = m.toNat + f.toNat * 8 := by simp only [fld, fpWord]; omega
@[simp] theorem fpWord_low10 : fld (fpWord op d a b f m w) 15 6 = b.toNat * 32 + f.toNat := by simp only [fld, fpWord]; omega
@[simp] theorem fpWord_low13 : fld (fpWord op d a b f m w) 15 3 = m.toNat + (b.toNat * 256 + f.toNat * 8) := by simp only [fld, fpWord]; omega
@[simp] theorem fpWord_op (h : op < 64) : fld (fpWord op d a b f m w) 31 26 = op := by simp only [fld, fpWord]; omega

end

/-! ## Memory: two registers, a space, a size and an offset -/

/-- The word of an opcode with two registers, a space, a size and an offset. -/
def memWord (op : Nat) (d a : BitVec 5) (s w : BitVec 3) (o : BitVec 10) : Nat :=
  op * 2 ^ 26 + d.toNat * 2 ^ 21 + a.toNat * 2 ^ 16 + s.toNat * 2 ^ 13 + w.toNat * 2 ^ 10 + o.toNat

section
variable {op : Nat} (d a : BitVec 5) (s w : BitVec 3) (o : BitVec 10)

@[simp] theorem memWord_d : bvf (memWord op d a s w o) 25 21 = d := bvf_eq (by simp only [memWord]; omega)
@[simp] theorem memWord_a : bvf (memWord op d a s w o) 20 16 = a := bvf_eq (by simp only [memWord]; omega)
@[simp] theorem memWord_s : bvf (memWord op d a s w o) 15 13 = s := bvf_eq (by simp only [memWord]; omega)
@[simp] theorem memWord_w : bvf (memWord op d a s w o) 12 10 = w := bvf_eq (by simp only [memWord]; omega)
@[simp] theorem memWord_o : bvf (memWord op d a s w o) 9 0 = o := bvf_eq (by simp only [memWord]; omega)
@[simp] theorem memWord_size : fld (memWord op d a s w o) 12 10 = w.toNat := by simp only [fld, memWord]; omega
@[simp] theorem memWord_mid6 : fld (memWord op d a s w o) 15 10 = s.toNat * 8 + w.toNat := by simp only [fld, memWord]; omega
@[simp] theorem memWord_op (h : op < 64) : fld (memWord op d a s w o) 31 26 = op := by simp only [fld, memWord]; omega

end

/-! ## Channels: a register, a register, an operation, a handle and an offset -/

/-- The word of a channel instruction. -/
def chanWord (m : BitVec 3) (d a : BitVec 5) (h : BitVec 4) (o : BitVec 9) : Nat :=
  0x23 * 2 ^ 26 + m.toNat * 2 ^ 13 + d.toNat * 2 ^ 21 + a.toNat * 2 ^ 16 + h.toNat * 2 ^ 9 + o.toNat

section
variable (m : BitVec 3) (d a : BitVec 5) (h : BitVec 4) (o : BitVec 9)

@[simp] theorem chanWord_d : bvf (chanWord m d a h o) 25 21 = d := bvf_eq (by simp only [chanWord]; omega)
@[simp] theorem chanWord_a : bvf (chanWord m d a h o) 20 16 = a := bvf_eq (by simp only [chanWord]; omega)
@[simp] theorem chanWord_h : bvf (chanWord m d a h o) 12 9 = h := bvf_eq (by simp only [chanWord]; omega)
@[simp] theorem chanWord_o : bvf (chanWord m d a h o) 8 0 = o := bvf_eq (by simp only [chanWord]; omega)
@[simp] theorem chanWord_m : fld (chanWord m d a h o) 15 13 = m.toNat := by simp only [fld, chanWord]; omega
@[simp] theorem chanWord_first : fld (chanWord m d a h o) 25 21 = d.toNat := by simp only [fld, chanWord]; omega
@[simp] theorem chanWord_op : fld (chanWord m d a h o) 31 26 = 35 := by simp only [fld, chanWord]; omega

end

/-! ## The instructions of those formats -/

section
variable {d a b c : BitVec 5} {k t m : BitVec 3} {i : BitVec 16} {o : BitVec 10} {h : BitVec 4} {n : BitVec 6} {f : BitVec 9}
  {g : BitVec 12} {j : BitVec 22} {q : BitVec 1} {u : BitVec 2} {p : BitVec 3} {l : BitVec 26}

theorem roundTrips_add : RoundTrips (.add d a b) :=
  roundTrips_of (w := vecWord 0x01 0 d a b 0 0) (Laws.FitsWord.add _ _ _) (by simp [encode, vecWord]) fun _ =>
    by simp [decodeRaw, decodeOp01]
theorem roundTrips_sub : RoundTrips (.sub d a b) :=
  roundTrips_of (w := vecWord 0x01 1 d a b 0 0) (Laws.FitsWord.sub _ _ _) (by simp [encode, vecWord]) fun _ =>
    by simp [decodeRaw, decodeOp01]
theorem roundTrips_mul : RoundTrips (.mul d a b) :=
  roundTrips_of (w := vecWord 0x01 2 d a b 0 0) (Laws.FitsWord.mul _ _ _) (by simp [encode, vecWord]) fun _ =>
    by simp [decodeRaw, decodeOp01]
theorem roundTrips_mulh : RoundTrips (.mulh d a b) :=
  roundTrips_of (w := vecWord 0x01 3 d a b 0 0) (Laws.FitsWord.mulh _ _ _) (by simp [encode, vecWord]) fun _ =>
    by simp [decodeRaw, decodeOp01]
theorem roundTrips_mulhn : RoundTrips (.mulhn d a b) :=
  roundTrips_of (w := vecWord 0x01 4 d a b 0 0) (Laws.FitsWord.mulhn _ _ _) (by simp [encode, vecWord]) fun _ =>
    by simp [decodeRaw, decodeOp01]
theorem roundTrips_div : RoundTrips (.div d a b) :=
  roundTrips_of (w := vecWord 0x01 5 d a b 0 0) (Laws.FitsWord.div _ _ _) (by simp [encode, vecWord]) fun _ =>
    by simp [decodeRaw, decodeOp01]
theorem roundTrips_divn : RoundTrips (.divn d a b) :=
  roundTrips_of (w := vecWord 0x01 6 d a b 0 0) (Laws.FitsWord.divn _ _ _) (by simp [encode, vecWord]) fun _ =>
    by simp [decodeRaw, decodeOp01]
theorem roundTrips_rem : RoundTrips (.rem d a b) :=
  roundTrips_of (w := vecWord 0x01 7 d a b 0 0) (Laws.FitsWord.rem _ _ _) (by simp [encode, vecWord]) fun _ =>
    by simp [decodeRaw, decodeOp01]
theorem roundTrips_remn : RoundTrips (.remn d a b) :=
  roundTrips_of (w := vecWord 0x01 8 d a b 0 0) (Laws.FitsWord.remn _ _ _) (by simp [encode, vecWord]) fun _ =>
    by simp [decodeRaw, decodeOp01]
theorem roundTrips_and : RoundTrips (.and d a b) :=
  roundTrips_of (w := vecWord 0x01 9 d a b 0 0) (Laws.FitsWord.and _ _ _) (by simp [encode, vecWord]) fun _ =>
    by simp [decodeRaw, decodeOp01]
theorem roundTrips_or : RoundTrips (.or d a b) :=
  roundTrips_of (w := vecWord 0x01 10 d a b 0 0) (Laws.FitsWord.or _ _ _) (by simp [encode, vecWord]) fun _ =>
    by simp [decodeRaw, decodeOp01]
theorem roundTrips_xor : RoundTrips (.xor d a b) :=
  roundTrips_of (w := vecWord 0x01 11 d a b 0 0) (Laws.FitsWord.xor _ _ _) (by simp [encode, vecWord]) fun _ =>
    by simp [decodeRaw, decodeOp01]
theorem roundTrips_andn : RoundTrips (.andn d a b) :=
  roundTrips_of (w := vecWord 0x01 12 d a b 0 0) (Laws.FitsWord.andn _ _ _) (by simp [encode, vecWord]) fun _ =>
    by simp [decodeRaw, decodeOp01]
theorem roundTrips_shl : RoundTrips (.shl d a b) :=
  roundTrips_of (w := vecWord 0x01 13 d a b 0 0) (Laws.FitsWord.shl _ _ _) (by simp [encode, vecWord]) fun _ =>
    by simp [decodeRaw, decodeOp01]
theorem roundTrips_shr : RoundTrips (.shr d a b) :=
  roundTrips_of (w := vecWord 0x01 14 d a b 0 0) (Laws.FitsWord.shr _ _ _) (by simp [encode, vecWord]) fun _ =>
    by simp [decodeRaw, decodeOp01]
theorem roundTrips_sar : RoundTrips (.sar d a b) :=
  roundTrips_of (w := vecWord 0x01 15 d a b 0 0) (Laws.FitsWord.sar _ _ _) (by simp [encode, vecWord]) fun _ =>
    by simp [decodeRaw, decodeOp01]
theorem roundTrips_min : RoundTrips (.min d a b) :=
  roundTrips_of (w := vecWord 0x01 16 d a b 0 0) (Laws.FitsWord.min _ _ _) (by simp [encode, vecWord]) fun _ =>
    by simp [decodeRaw, decodeOp01]
theorem roundTrips_max : RoundTrips (.max d a b) :=
  roundTrips_of (w := vecWord 0x01 17 d a b 0 0) (Laws.FitsWord.max _ _ _) (by simp [encode, vecWord]) fun _ =>
    by simp [decodeRaw, decodeOp01]
theorem roundTrips_minn : RoundTrips (.minn d a b) :=
  roundTrips_of (w := vecWord 0x01 18 d a b 0 0) (Laws.FitsWord.minn _ _ _) (by simp [encode, vecWord]) fun _ =>
    by simp [decodeRaw, decodeOp01]
theorem roundTrips_maxn : RoundTrips (.maxn d a b) :=
  roundTrips_of (w := vecWord 0x01 19 d a b 0 0) (Laws.FitsWord.maxn _ _ _) (by simp [encode, vecWord]) fun _ =>
    by simp [decodeRaw, decodeOp01]
theorem roundTrips_slt : RoundTrips (.slt d a b) :=
  roundTrips_of (w := vecWord 0x01 20 d a b 0 0) (Laws.FitsWord.slt _ _ _) (by simp [encode, vecWord]) fun _ =>
    by simp [decodeRaw, decodeOp01]
theorem roundTrips_sltn : RoundTrips (.sltn d a b) :=
  roundTrips_of (w := vecWord 0x01 21 d a b 0 0) (Laws.FitsWord.sltn _ _ _) (by simp [encode, vecWord]) fun _ =>
    by simp [decodeRaw, decodeOp01]
theorem roundTrips_seq : RoundTrips (.seq d a b) :=
  roundTrips_of (w := vecWord 0x01 22 d a b 0 0) (Laws.FitsWord.seq _ _ _) (by simp [encode, vecWord]) fun _ =>
    by simp [decodeRaw, decodeOp01]
theorem roundTrips_clz : RoundTrips (.clz d a) :=
  roundTrips_of (w := vecWord 0x01 23 d a 0 0 0) (Laws.FitsWord.clz _ _) (by simp [encode, vecWord]) fun _ =>
    by simp [decodeRaw, decodeOp01]
theorem roundTrips_popc : RoundTrips (.popc d a) :=
  roundTrips_of (w := vecWord 0x01 24 d a 0 0 0) (Laws.FitsWord.popc _ _) (by simp [encode, vecWord]) fun _ =>
    by simp [decodeRaw, decodeOp01]
theorem roundTrips_bext : RoundTrips (.bext d a b) :=
  roundTrips_of (w := vecWord 0x01 25 d a b 0 0) (Laws.FitsWord.bext _ _ _) (by simp [encode, vecWord]) fun _ =>
    by simp [decodeRaw, decodeOp01]
theorem roundTrips_bdep : RoundTrips (.bdep d a b) :=
  roundTrips_of (w := vecWord 0x01 26 d a b 0 0) (Laws.FitsWord.bdep _ _ _) (by simp [encode, vecWord]) fun _ =>
    by simp [decodeRaw, decodeOp01]
theorem roundTrips_sext : RoundTrips (.sext d a k) :=
  roundTrips_of (w := vecWord 0x01 27 d a 0 0 k) (Laws.FitsWord.sext _ _ _) (by simp [encode, vecWord]) fun _ =>
    by simp [decodeRaw, decodeOp01]
theorem roundTrips_zext : RoundTrips (.zext d a k) :=
  roundTrips_of (w := vecWord 0x01 28 d a 0 0 k) (Laws.FitsWord.zext _ _ _) (by simp [encode, vecWord]) fun _ =>
    by simp [decodeRaw, decodeOp01]
theorem roundTrips_lutx : RoundTrips (.lutx d a b k) :=
  roundTrips_of (w := vecWord 0x16 0 d a b k 0) (Laws.FitsWord.lutx _ _ _ _) (by simp [encode, vecWord]) fun _ =>
    by simp [decodeRaw, decodeOp16]
theorem roundTrips_lutld : RoundTrips (.lutld d) :=
  roundTrips_of (w := vecWord 0x16 1 0 d 0 0 0) (Laws.FitsWord.lutld _) (by simp [encode, vecWord]) fun _ =>
    by simp [decodeRaw, decodeOp16]
theorem roundTrips_emit : RoundTrips (.emit d k) :=
  roundTrips_of (w := vecWord 0x24 0 0 d 0 0 k) (Laws.FitsWord.emit _ _) (by simp [encode, vecWord]) fun _ =>
    by simp [decodeRaw, decodeOp24]
theorem roundTrips_vadd : RoundTrips (.vadd d a b k t) :=
  roundTrips_of (w := vecWord 0x30 0 d a b k t) (Laws.FitsWord.vadd _ _ _ _ _) (by simp [encode, vecWord]) fun _ =>
    by simp [decodeRaw, decodeOp30]
theorem roundTrips_vsub : RoundTrips (.vsub d a b k t) :=
  roundTrips_of (w := vecWord 0x30 1 d a b k t) (Laws.FitsWord.vsub _ _ _ _ _) (by simp [encode, vecWord]) fun _ =>
    by simp [decodeRaw, decodeOp30]
theorem roundTrips_vmul : RoundTrips (.vmul d a b k t) :=
  roundTrips_of (w := vecWord 0x30 2 d a b k t) (Laws.FitsWord.vmul _ _ _ _ _) (by simp [encode, vecWord]) fun _ =>
    by simp [decodeRaw, decodeOp30]
theorem roundTrips_vmulh : RoundTrips (.vmulh d a b k t) :=
  roundTrips_of (w := vecWord 0x30 3 d a b k t) (Laws.FitsWord.vmulh _ _ _ _ _) (by simp [encode, vecWord]) fun _ =>
    by simp [decodeRaw, decodeOp30]
theorem roundTrips_vadds : RoundTrips (.vadds d a b k t) :=
  roundTrips_of (w := vecWord 0x30 4 d a b k t) (Laws.FitsWord.vadds _ _ _ _ _) (by simp [encode, vecWord]) fun _ =>
    by simp [decodeRaw, decodeOp30]
theorem roundTrips_vsubs : RoundTrips (.vsubs d a b k t) :=
  roundTrips_of (w := vecWord 0x30 5 d a b k t) (Laws.FitsWord.vsubs _ _ _ _ _) (by simp [encode, vecWord]) fun _ =>
    by simp [decodeRaw, decodeOp30]
theorem roundTrips_vmin : RoundTrips (.vmin d a b k t) :=
  roundTrips_of (w := vecWord 0x30 6 d a b k t) (Laws.FitsWord.vmin _ _ _ _ _) (by simp [encode, vecWord]) fun _ =>
    by simp [decodeRaw, decodeOp30]
theorem roundTrips_vmax : RoundTrips (.vmax d a b k t) :=
  roundTrips_of (w := vecWord 0x30 7 d a b k t) (Laws.FitsWord.vmax _ _ _ _ _) (by simp [encode, vecWord]) fun _ =>
    by simp [decodeRaw, decodeOp30]
theorem roundTrips_vand : RoundTrips (.vand d a b k t) :=
  roundTrips_of (w := vecWord 0x30 8 d a b k t) (Laws.FitsWord.vand _ _ _ _ _) (by simp [encode, vecWord]) fun _ =>
    by simp [decodeRaw, decodeOp30]
theorem roundTrips_vor : RoundTrips (.vor d a b k t) :=
  roundTrips_of (w := vecWord 0x30 9 d a b k t) (Laws.FitsWord.vor _ _ _ _ _) (by simp [encode, vecWord]) fun _ =>
    by simp [decodeRaw, decodeOp30]
theorem roundTrips_vxor : RoundTrips (.vxor d a b k t) :=
  roundTrips_of (w := vecWord 0x30 10 d a b k t) (Laws.FitsWord.vxor _ _ _ _ _) (by simp [encode, vecWord]) fun _ =>
    by simp [decodeRaw, decodeOp30]
theorem roundTrips_vandn : RoundTrips (.vandn d a b k t) :=
  roundTrips_of (w := vecWord 0x30 11 d a b k t) (Laws.FitsWord.vandn _ _ _ _ _) (by simp [encode, vecWord]) fun _ =>
    by simp [decodeRaw, decodeOp30]
theorem roundTrips_vshl : RoundTrips (.vshl d a b k t) :=
  roundTrips_of (w := vecWord 0x30 12 d a b k t) (Laws.FitsWord.vshl _ _ _ _ _) (by simp [encode, vecWord]) fun _ =>
    by simp [decodeRaw, decodeOp30]
theorem roundTrips_vshr : RoundTrips (.vshr d a b k t) :=
  roundTrips_of (w := vecWord 0x30 13 d a b k t) (Laws.FitsWord.vshr _ _ _ _ _) (by simp [encode, vecWord]) fun _ =>
    by simp [decodeRaw, decodeOp30]
theorem roundTrips_vsar : RoundTrips (.vsar d a b k t) :=
  roundTrips_of (w := vecWord 0x30 14 d a b k t) (Laws.FitsWord.vsar _ _ _ _ _) (by simp [encode, vecWord]) fun _ =>
    by simp [decodeRaw, decodeOp30]
theorem roundTrips_vabsd : RoundTrips (.vabsd d a b k t) :=
  roundTrips_of (w := vecWord 0x30 15 d a b k t) (Laws.FitsWord.vabsd _ _ _ _ _) (by simp [encode, vecWord]) fun _ =>
    by simp [decodeRaw, decodeOp30]
theorem roundTrips_vclz : RoundTrips (.vclz d a k t) :=
  roundTrips_of (w := vecWord 0x30 16 d a 0 k t) (Laws.FitsWord.vclz _ _ _ _) (by simp [encode, vecWord]) fun _ =>
    by simp [decodeRaw, decodeOp30]
theorem roundTrips_vpopc : RoundTrips (.vpopc d a k t) :=
  roundTrips_of (w := vecWord 0x30 17 d a 0 k t) (Laws.FitsWord.vpopc _ _ _ _) (by simp [encode, vecWord]) fun _ =>
    by simp [decodeRaw, decodeOp30]
theorem roundTrips_vpack : RoundTrips (.vpack d a b k t) :=
  roundTrips_of (w := vecWord 0x30 18 d a b k t) (Laws.FitsWord.vpack _ _ _ _ _) (by simp [encode, vecWord]) fun _ =>
    by simp [decodeRaw, decodeOp30]
theorem roundTrips_vunpack : RoundTrips (.vunpack d a b k t) :=
  roundTrips_of (w := vecWord 0x30 19 d a b k t) (Laws.FitsWord.vunpack _ _ _ _ _) (by simp [encode, vecWord]) fun _ =>
    by simp [decodeRaw, decodeOp30]
theorem roundTrips_vfadd : RoundTrips (.vfadd d a b k t) :=
  roundTrips_of (w := vecWord 0x31 0 d a b k t) (Laws.FitsWord.vfadd _ _ _ _ _) (by simp [encode, vecWord]) fun _ =>
    by simp [decodeRaw, decodeOp31]
theorem roundTrips_vfsub : RoundTrips (.vfsub d a b k t) :=
  roundTrips_of (w := vecWord 0x31 1 d a b k t) (Laws.FitsWord.vfsub _ _ _ _ _) (by simp [encode, vecWord]) fun _ =>
    by simp [decodeRaw, decodeOp31]
theorem roundTrips_vfmul : RoundTrips (.vfmul d a b k t) :=
  roundTrips_of (w := vecWord 0x31 2 d a b k t) (Laws.FitsWord.vfmul _ _ _ _ _) (by simp [encode, vecWord]) fun _ =>
    by simp [decodeRaw, decodeOp31]
theorem roundTrips_vfmin : RoundTrips (.vfmin d a b k t) :=
  roundTrips_of (w := vecWord 0x31 3 d a b k t) (Laws.FitsWord.vfmin _ _ _ _ _) (by simp [encode, vecWord]) fun _ =>
    by simp [decodeRaw, decodeOp31]
theorem roundTrips_vfmax : RoundTrips (.vfmax d a b k t) :=
  roundTrips_of (w := vecWord 0x31 4 d a b k t) (Laws.FitsWord.vfmax _ _ _ _ _) (by simp [encode, vecWord]) fun _ =>
    by simp [decodeRaw, decodeOp31]
theorem roundTrips_vfms : RoundTrips (.vfms d a b k t) :=
  roundTrips_of (w := vecWord 0x31 5 d a b k t) (Laws.FitsWord.vfms _ _ _ _ _) (by simp [encode, vecWord]) fun _ =>
    by simp [decodeRaw, decodeOp31]
theorem roundTrips_vfnma : RoundTrips (.vfnma d a b k t) :=
  roundTrips_of (w := vecWord 0x31 6 d a b k t) (Laws.FitsWord.vfnma _ _ _ _ _) (by simp [encode, vecWord]) fun _ =>
    by simp [decodeRaw, decodeOp31]
theorem roundTrips_vscale : RoundTrips (.vscale d a b k t) :=
  roundTrips_of (w := vecWord 0x31 7 d a b k t) (Laws.FitsWord.vscale _ _ _ _ _) (by simp [encode, vecWord]) fun _ =>
    by simp [decodeRaw, decodeOp31]
theorem roundTrips_vrsum : RoundTrips (.vrsum d a k t) :=
  roundTrips_of (w := vecWord 0x34 0 d a 0 k t) (Laws.FitsWord.vrsum _ _ _ _) (by simp [encode, vecWord]) fun _ =>
    by simp [decodeRaw, decodeOp34]
theorem roundTrips_vrmin : RoundTrips (.vrmin d a k t) :=
  roundTrips_of (w := vecWord 0x34 1 d a 0 k t) (Laws.FitsWord.vrmin _ _ _ _) (by simp [encode, vecWord]) fun _ =>
    by simp [decodeRaw, decodeOp34]
theorem roundTrips_vrmax : RoundTrips (.vrmax d a k t) :=
  roundTrips_of (w := vecWord 0x34 2 d a 0 k t) (Laws.FitsWord.vrmax _ _ _ _) (by simp [encode, vecWord]) fun _ =>
    by simp [decodeRaw, decodeOp34]
theorem roundTrips_vrfsum : RoundTrips (.vrfsum d a k t) :=
  roundTrips_of (w := vecWord 0x34 3 d a 0 k t) (Laws.FitsWord.vrfsum _ _ _ _) (by simp [encode, vecWord]) fun _ =>
    by simp [decodeRaw, decodeOp34]
theorem roundTrips_vscan : RoundTrips (.vscan d a k t) :=
  roundTrips_of (w := vecWord 0x34 4 d a 0 k t) (Laws.FitsWord.vscan _ _ _ _) (by simp [encode, vecWord]) fun _ =>
    by simp [decodeRaw, decodeOp34]
theorem roundTrips_vperm : RoundTrips (.vperm d a b k) :=
  roundTrips_of (w := vecWord 0x35 0 d a b k 0) (Laws.FitsWord.vperm _ _ _ _) (by simp [encode, vecWord]) fun _ =>
    by simp [decodeRaw, decodeOp35]
theorem roundTrips_vshuf : RoundTrips (.vshuf d a b k) :=
  roundTrips_of (w := vecWord 0x35 1 d a b k 0) (Laws.FitsWord.vshuf _ _ _ _) (by simp [encode, vecWord]) fun _ =>
    by simp [decodeRaw, decodeOp35]
theorem roundTrips_vrot : RoundTrips (.vrot d a b k) :=
  roundTrips_of (w := vecWord 0x35 2 d a b k 0) (Laws.FitsWord.vrot _ _ _ _) (by simp [encode, vecWord]) fun _ =>
    by simp [decodeRaw, decodeOp35]
theorem roundTrips_vnbr : RoundTrips (.vnbr d a b k) :=
  roundTrips_of (w := vecWord 0x35 3 d a b k 0) (Laws.FitsWord.vnbr _ _ _ _) (by simp [encode, vecWord]) fun _ =>
    by simp [decodeRaw, decodeOp35]
theorem roundTrips_vcmpEq : RoundTrips (.vcmpEq d a b k t) :=
  roundTrips_of (w := vecWord 0x36 0 d a b k t) (Laws.FitsWord.vcmpEq _ _ _ _ _) (by simp [encode, vecWord]) fun _ =>
    by simp [decodeRaw, decodeOp36]
theorem roundTrips_vcmpNe : RoundTrips (.vcmpNe d a b k t) :=
  roundTrips_of (w := vecWord 0x36 1 d a b k t) (Laws.FitsWord.vcmpNe _ _ _ _ _) (by simp [encode, vecWord]) fun _ =>
    by simp [decodeRaw, decodeOp36]
theorem roundTrips_vcmpLt : RoundTrips (.vcmpLt d a b k t) :=
  roundTrips_of (w := vecWord 0x36 2 d a b k t) (Laws.FitsWord.vcmpLt _ _ _ _ _) (by simp [encode, vecWord]) fun _ =>
    by simp [decodeRaw, decodeOp36]
theorem roundTrips_vcmpLe : RoundTrips (.vcmpLe d a b k t) :=
  roundTrips_of (w := vecWord 0x36 3 d a b k t) (Laws.FitsWord.vcmpLe _ _ _ _ _) (by simp [encode, vecWord]) fun _ =>
    by simp [decodeRaw, decodeOp36]
theorem roundTrips_vfcmpEq : RoundTrips (.vfcmpEq d a b k t) :=
  roundTrips_of (w := vecWord 0x36 8 d a b k t) (Laws.FitsWord.vfcmpEq _ _ _ _ _) (by simp [encode, vecWord]) fun _ =>
    by simp [decodeRaw, decodeOp36]
theorem roundTrips_vfcmpLt : RoundTrips (.vfcmpLt d a b k t) :=
  roundTrips_of (w := vecWord 0x36 9 d a b k t) (Laws.FitsWord.vfcmpLt _ _ _ _ _) (by simp [encode, vecWord]) fun _ =>
    by simp [decodeRaw, decodeOp36]
theorem roundTrips_vfcmpLe : RoundTrips (.vfcmpLe d a b k t) :=
  roundTrips_of (w := vecWord 0x36 10 d a b k t) (Laws.FitsWord.vfcmpLe _ _ _ _ _) (by simp [encode, vecWord]) fun _ =>
    by simp [decodeRaw, decodeOp36]
theorem roundTrips_vfcmpUn : RoundTrips (.vfcmpUn d a b k t) :=
  roundTrips_of (w := vecWord 0x36 11 d a b k t) (Laws.FitsWord.vfcmpUn _ _ _ _ _) (by simp [encode, vecWord]) fun _ =>
    by simp [decodeRaw, decodeOp36]
theorem roundTrips_vbcst : RoundTrips (.vbcst d a k t) :=
  roundTrips_of (w := vecWord 0x37 0 d a 0 k t) (Laws.FitsWord.vbcst _ _ _ _) (by simp [encode, vecWord]) fun _ =>
    by simp [decodeRaw, decodeOp37]
theorem roundTrips_vins : RoundTrips (.vins d a b k) :=
  roundTrips_of (w := vecWord 0x37 1 d a b 0 k) (Laws.FitsWord.vins _ _ _ _) (by simp [encode, vecWord]) fun _ =>
    by simp [decodeRaw, decodeOp37]
theorem roundTrips_vext : RoundTrips (.vext d a b k) :=
  roundTrips_of (w := vecWord 0x37 2 d a b 0 k) (Laws.FitsWord.vext _ _ _ _) (by simp [encode, vecWord]) fun _ =>
    by simp [decodeRaw, decodeOp37]
theorem roundTrips_vmov : RoundTrips (.vmov d a k) :=
  roundTrips_of (w := vecWord 0x37 3 d a 0 k 0) (Laws.FitsWord.vmov _ _ _) (by simp [encode, vecWord]) fun _ =>
    by simp [decodeRaw, decodeOp37]
theorem roundTrips_vsel : RoundTrips (.vsel d a b k) :=
  roundTrips_of (w := vecWord 0x39 0 d a b k 0) (Laws.FitsWord.vsel _ _ _ _) (by simp [encode, vecWord]) fun _ =>
    by simp [decodeRaw, decodeOp39]
theorem roundTrips_kand : RoundTrips (.kand d a b) :=
  roundTrips_of (w := vecWord 0x39 1 d a b 0 0) (Laws.FitsWord.kand _ _ _) (by simp [encode, vecWord]) fun _ =>
    by simp [decodeRaw, decodeOp39]
theorem roundTrips_kor : RoundTrips (.kor d a b) :=
  roundTrips_of (w := vecWord 0x39 2 d a b 0 0) (Laws.FitsWord.kor _ _ _) (by simp [encode, vecWord]) fun _ =>
    by simp [decodeRaw, decodeOp39]
theorem roundTrips_knot : RoundTrips (.knot d a) :=
  roundTrips_of (w := vecWord 0x39 3 d a 0 0 0) (Laws.FitsWord.knot _ _) (by simp [encode, vecWord]) fun _ =>
    by simp [decodeRaw, decodeOp39]
theorem roundTrips_kmov : RoundTrips (.kmov d a) :=
  roundTrips_of (w := vecWord 0x39 4 d a 0 0 0) (Laws.FitsWord.kmov _ _) (by simp [encode, vecWord]) fun _ =>
    by simp [decodeRaw, decodeOp39]
theorem roundTrips_kmovFromScalar : RoundTrips (.kmovFromScalar d a) :=
  roundTrips_of (w := vecWord 0x39 5 d a 0 0 0) (Laws.FitsWord.kmovFromScalar _ _) (by simp [encode, vecWord]) fun _ =>
    by simp [decodeRaw, decodeOp39]
theorem roundTrips_kmovToScalar : RoundTrips (.kmovToScalar d a) :=
  roundTrips_of (w := vecWord 0x39 6 d a 0 0 0) (Laws.FitsWord.kmovToScalar _ _) (by simp [encode, vecWord]) fun _ =>
    by simp [decodeRaw, decodeOp39]
theorem roundTrips_vrcp : RoundTrips (.vrcp d a k t) :=
  roundTrips_of (w := vecWord 0x3A 0 d a 0 k t) (Laws.FitsWord.vrcp _ _ _ _) (by simp [encode, vecWord]) fun _ =>
    by simp [decodeRaw, decodeOp3A]
theorem roundTrips_vrsq : RoundTrips (.vrsq d a k t) :=
  roundTrips_of (w := vecWord 0x3A 1 d a 0 k t) (Laws.FitsWord.vrsq _ _ _ _) (by simp [encode, vecWord]) fun _ =>
    by simp [decodeRaw, decodeOp3A]
theorem roundTrips_vexp2 : RoundTrips (.vexp2 d a k t) :=
  roundTrips_of (w := vecWord 0x3A 2 d a 0 k t) (Laws.FitsWord.vexp2 _ _ _ _) (by simp [encode, vecWord]) fun _ =>
    by simp [decodeRaw, decodeOp3A]
theorem roundTrips_vlog2 : RoundTrips (.vlog2 d a k t) :=
  roundTrips_of (w := vecWord 0x3A 3 d a 0 k t) (Laws.FitsWord.vlog2 _ _ _ _) (by simp [encode, vecWord]) fun _ =>
    by simp [decodeRaw, decodeOp3A]
theorem roundTrips_vtanh : RoundTrips (.vtanh d a k t) :=
  roundTrips_of (w := vecWord 0x3A 4 d a 0 k t) (Laws.FitsWord.vtanh _ _ _ _) (by simp [encode, vecWord]) fun _ =>
    by simp [decodeRaw, decodeOp3A]
theorem roundTrips_fadd : RoundTrips (.fadd d a b k t) :=
  roundTrips_of (w := fpWord 0x09 d a b 0 k t) (Laws.FitsWord.fadd _ _ _ _ _) (by simp only [encode, fpWord, BitVec.reduceToNat]; omega) fun _ =>
    by simp [decodeRaw, decodeOp09]
theorem roundTrips_fsub : RoundTrips (.fsub d a b k t) :=
  roundTrips_of (w := fpWord 0x09 d a b 1 k t) (Laws.FitsWord.fsub _ _ _ _ _) (by simp only [encode, fpWord, BitVec.reduceToNat]; omega) fun _ =>
    by simp [decodeRaw, decodeOp09]
theorem roundTrips_fmul : RoundTrips (.fmul d a b k t) :=
  roundTrips_of (w := fpWord 0x09 d a b 2 k t) (Laws.FitsWord.fmul _ _ _ _ _) (by simp only [encode, fpWord, BitVec.reduceToNat]; omega) fun _ =>
    by simp [decodeRaw, decodeOp09]
theorem roundTrips_fdiv : RoundTrips (.fdiv d a b k t) :=
  roundTrips_of (w := fpWord 0x09 d a b 3 k t) (Laws.FitsWord.fdiv _ _ _ _ _) (by simp only [encode, fpWord, BitVec.reduceToNat]; omega) fun _ =>
    by simp [decodeRaw, decodeOp09]
theorem roundTrips_fsqrt : RoundTrips (.fsqrt d a k t) :=
  roundTrips_of (w := fpWord 0x09 d a 0 4 k t) (Laws.FitsWord.fsqrt _ _ _ _) (by simp only [encode, fpWord, BitVec.reduceToNat]; omega) fun _ =>
    by simp [decodeRaw, decodeOp09]
theorem roundTrips_frsq : RoundTrips (.frsq d a k t) :=
  roundTrips_of (w := fpWord 0x09 d a 0 5 k t) (Laws.FitsWord.frsq _ _ _ _) (by simp only [encode, fpWord, BitVec.reduceToNat]; omega) fun _ =>
    by simp [decodeRaw, decodeOp09]
theorem roundTrips_fmin : RoundTrips (.fmin d a b k) :=
  roundTrips_of (w := fpWord 0x09 d a b 6 0 k) (Laws.FitsWord.fmin _ _ _ _) (by simp only [encode, fpWord, BitVec.reduceToNat]; omega) fun _ =>
    by simp [decodeRaw, decodeOp09]
theorem roundTrips_fmax : RoundTrips (.fmax d a b k) :=
  roundTrips_of (w := fpWord 0x09 d a b 7 0 k) (Laws.FitsWord.fmax _ _ _ _) (by simp only [encode, fpWord, BitVec.reduceToNat]; omega) fun _ =>
    by simp [decodeRaw, decodeOp09]
theorem roundTrips_fcvt : RoundTrips (.fcvt d a b k t) :=
  roundTrips_of (w := fpWord 0x09 d a b 8 k t) (Laws.FitsWord.fcvt _ _ _ _ _) (by simp only [encode, fpWord, BitVec.reduceToNat]; omega) fun _ =>
    by simp [decodeRaw, decodeOp09]
theorem roundTrips_fcmpEq : RoundTrips (.fcmpEq d a b k) :=
  roundTrips_of (w := fpWord 0x09 d a b 9 0 k) (Laws.FitsWord.fcmpEq _ _ _ _) (by simp only [encode, fpWord, BitVec.reduceToNat]; omega) fun _ =>
    by simp [decodeRaw, decodeOp09]
theorem roundTrips_fcmpLt : RoundTrips (.fcmpLt d a b k) :=
  roundTrips_of (w := fpWord 0x09 d a b 10 0 k) (Laws.FitsWord.fcmpLt _ _ _ _) (by simp only [encode, fpWord, BitVec.reduceToNat]; omega) fun _ =>
    by simp [decodeRaw, decodeOp09]
theorem roundTrips_fcmpLe : RoundTrips (.fcmpLe d a b k) :=
  roundTrips_of (w := fpWord 0x09 d a b 11 0 k) (Laws.FitsWord.fcmpLe _ _ _ _) (by simp only [encode, fpWord, BitVec.reduceToNat]; omega) fun _ =>
    by simp [decodeRaw, decodeOp09]
theorem roundTrips_fcmpUn : RoundTrips (.fcmpUn d a b k) :=
  roundTrips_of (w := fpWord 0x09 d a b 12 0 k) (Laws.FitsWord.fcmpUn _ _ _ _) (by simp only [encode, fpWord, BitVec.reduceToNat]; omega) fun _ =>
    by simp [decodeRaw, decodeOp09]
theorem roundTrips_fclass : RoundTrips (.fclass d a k) :=
  roundTrips_of (w := fpWord 0x09 d a 0 13 0 k) (Laws.FitsWord.fclass _ _ _) (by simp only [encode, fpWord, BitVec.reduceToNat]; omega) fun _ =>
    by simp [decodeRaw, decodeOp09]
theorem roundTrips_fma : RoundTrips (.fma d a b k t) :=
  roundTrips_of (w := fpWord 0x0A d a b 0 k t) (Laws.FitsWord.fma _ _ _ _ _) (by simp only [encode, fpWord, BitVec.reduceToNat]; omega) fun _ =>
    by simp [decodeRaw, decodeOp0A]
theorem roundTrips_vfma : RoundTrips (.vfma d a b c k t) :=
  roundTrips_of (w := fpWord 0x32 d a b c k t) (Laws.FitsWord.vfma _ _ _ _ _ _) (by simp only [encode, fpWord]; omega) fun _ =>
    by simp [decodeRaw, decodeOp32]
theorem roundTrips_ld : RoundTrips (.ld d a k t o) :=
  roundTrips_of (w := memWord 0x10 d a k t o) (Laws.FitsWord.ld _ _ _ _ _) (by simp only [encode, memWord]; omega) fun _ =>
    by simp [decodeRaw, decodeOp10]
theorem roundTrips_st : RoundTrips (.st d a k t o) :=
  roundTrips_of (w := memWord 0x11 d a k t o) (Laws.FitsWord.st _ _ _ _ _) (by simp only [encode, memWord]; omega) fun _ =>
    by simp [decodeRaw, decodeOp11]
theorem roundTrips_vld : RoundTrips (.vld d a k o) :=
  roundTrips_of (w := memWord 0x12 d a k 0 o) (Laws.FitsWord.vld _ _ _ _) (by simp only [encode, memWord, BitVec.reduceToNat]; omega) fun _ =>
    by simp [decodeRaw, decodeOp12]
theorem roundTrips_vgld : RoundTrips (.vgld d a k o) :=
  roundTrips_of (w := memWord 0x12 d a k 1 o) (Laws.FitsWord.vgld _ _ _ _) (by simp only [encode, memWord, BitVec.reduceToNat]; omega) fun _ =>
    by simp [decodeRaw, decodeOp12]
theorem roundTrips_vst : RoundTrips (.vst d a k o) :=
  roundTrips_of (w := memWord 0x13 d a k 0 o) (Laws.FitsWord.vst _ _ _ _) (by simp only [encode, memWord, BitVec.reduceToNat]; omega) fun _ =>
    by simp [decodeRaw, decodeOp13]
theorem roundTrips_vlds : RoundTrips (.vlds d a o) :=
  roundTrips_of (w := memWord 0x14 d a 1 0 o) (Laws.FitsWord.vlds _ _ _) (by simp only [encode, memWord, BitVec.reduceToNat]; omega) fun _ =>
    by simp [decodeRaw, decodeOp14]
theorem roundTrips_vldsIx : RoundTrips (.vldsIx d a o) :=
  roundTrips_of (w := memWord 0x14 d a 1 1 o) (Laws.FitsWord.vldsIx _ _ _) (by simp only [encode, memWord, BitVec.reduceToNat]; omega) fun _ =>
    by simp [decodeRaw, decodeOp14]
theorem roundTrips_vsts : RoundTrips (.vsts d a o) :=
  roundTrips_of (w := memWord 0x15 d a 1 0 o) (Laws.FitsWord.vsts _ _ _) (by simp only [encode, memWord, BitVec.reduceToNat]; omega) fun _ =>
    by simp [decodeRaw, decodeOp15]
theorem roundTrips_crd : RoundTrips (.crd d a h f) :=
  roundTrips_of (w := chanWord 0 d a h f) (Laws.FitsWord.crd _ _ _ _) (by simp [encode, chanWord]) fun _ =>
    by simp [decodeRaw, decodeOp23]
theorem roundTrips_crdt : RoundTrips (.crdt d a h f) :=
  roundTrips_of (w := chanWord 1 d a h f) (Laws.FitsWord.crdt _ _ _ _) (by simp [encode, chanWord]) fun _ =>
    by simp [decodeRaw, decodeOp23]
theorem roundTrips_cwr : RoundTrips (.cwr d a h f) :=
  roundTrips_of (w := chanWord 2 d a h f) (Laws.FitsWord.cwr _ _ _ _) (by simp [encode, chanWord]) fun _ =>
    by simp [decodeRaw, decodeOp23]
theorem roundTrips_cwrt : RoundTrips (.cwrt d a h f) :=
  roundTrips_of (w := chanWord 3 d a h f) (Laws.FitsWord.cwrt _ _ _ _) (by simp [encode, chanWord]) fun _ =>
    by simp [decodeRaw, decodeOp23]
theorem roundTrips_advR : RoundTrips (.advR d h f) :=
  roundTrips_of (w := chanWord 4 0 d h f) (Laws.FitsWord.advR _ _ _) (by simp [encode, chanWord]) fun _ =>
    by simp [decodeRaw, decodeOp23]
theorem roundTrips_advW : RoundTrips (.advW d h f) :=
  roundTrips_of (w := chanWord 5 0 d h f) (Laws.FitsWord.advW _ _ _) (by simp [encode, chanWord]) fun _ =>
    by simp [decodeRaw, decodeOp23]
theorem roundTrips_addi : RoundTrips (.addi d a i) := roundTrips_of_task (Laws.FitsWord.addi _ _ _) (decodeTask_addi d a i)
theorem roundTrips_andi : RoundTrips (.andi d a i) := roundTrips_of_task (Laws.FitsWord.andi _ _ _) (decodeTask_andi d a i)
theorem roundTrips_ori : RoundTrips (.ori d a i) := roundTrips_of_task (Laws.FitsWord.ori _ _ _) (decodeTask_ori d a i)
theorem roundTrips_xori : RoundTrips (.xori d a i) := roundTrips_of_task (Laws.FitsWord.xori _ _ _) (decodeTask_xori d a i)
theorem roundTrips_slti : RoundTrips (.slti d a i) := roundTrips_of_task (Laws.FitsWord.slti _ _ _) (decodeTask_slti d a i)
theorem roundTrips_beq : RoundTrips (.beq d a i) := roundTrips_of_task (Laws.FitsWord.beq _ _ _) (decodeTask_beq d a i)
theorem roundTrips_bne : RoundTrips (.bne d a i) := roundTrips_of_task (Laws.FitsWord.bne _ _ _) (decodeTask_bne d a i)
theorem roundTrips_blt : RoundTrips (.blt d a i) := roundTrips_of_task (Laws.FitsWord.blt _ _ _) (decodeTask_blt d a i)
theorem roundTrips_bge : RoundTrips (.bge d a i) := roundTrips_of_task (Laws.FitsWord.bge _ _ _) (decodeTask_bge d a i)
theorem roundTrips_bltn : RoundTrips (.bltn d a i) := roundTrips_of_task (Laws.FitsWord.bltn _ _ _) (decodeTask_bltn d a i)
theorem roundTrips_bgen : RoundTrips (.bgen d a i) := roundTrips_of_task (Laws.FitsWord.bgen _ _ _) (decodeTask_bgen d a i)
theorem roundTrips_jalr : RoundTrips (.jalr d a i) := roundTrips_of_task (Laws.FitsWord.jalr _ _ _) (decodeTask_jalr d a i)

theorem roundTrips_jal : RoundTrips (.jal l) := roundTrips_of_task (Laws.FitsWord.jal _) (decodeTask_jal l)

theorem roundTrips_bdnz : RoundTrips (.bdnz d i) := fun h =>
  roundTrips_of_task (Laws.FitsWord.bdnz _ _)
    ((congrArg decodeTask (show _ = riWord 0x1E d 0 i by simp [encode, riWord])).trans
      ((decodeTask_bdnz d 0 i).trans (if_pos ⟨of_decide_eq_true h, rfl⟩))) h

theorem roundTrips_lui : RoundTrips (.lui d i) :=
  roundTrips_of_task (Laws.FitsWord.lui _ _)
    ((congrArg decodeTask (show _ = riWord 0x07 d 0 i by simp [encode, riWord])).trans ((decodeTask_lui d 0 i).trans (if_pos rfl)))

/-! ## Shifts by an immediate: a kind above the amount -/

/-- The immediate of a shift: its kind above its amount. -/
def shiftImm (kind : Nat) (n : BitVec 6) : BitVec 16 := BitVec.ofNat 16 (kind * 64 + n.toNat)

theorem shiftImm_toNat {kind : Nat} (h : kind < 4) : (shiftImm kind n).toNat = kind * 64 + n.toNat := by
  simp only [shiftImm, BitVec.toNat_ofNat]; omega

theorem shiftImm_kind {kind : Nat} (h : kind < 4) : (shiftImm kind n).toNat / 64 = kind := by rw [shiftImm_toNat h]; omega

theorem shiftImm_amount {kind : Nat} (h : kind < 4) : (shiftImm kind n).setWidth 6 = n := by
  apply BitVec.eq_of_toNat_eq; rw [BitVec.toNat_setWidth, shiftImm_toNat h]; omega

theorem riWord_shiftImm {kind : Nat} (h : kind < 4) :
    riWord 0x06 d a (shiftImm kind n) = 0x18000000 + kind * 64 + d.toNat * 2 ^ 21 + a.toNat * 2 ^ 16 + n.toNat := by
  rw [riWord, shiftImm_toNat h]; omega

theorem roundTrips_shli : RoundTrips (.shli d a n) :=
  roundTrips_of_task (Laws.FitsWord.shli _ _ _) (by
    rw [show encode (.shli d a n) = _ from (riWord_shiftImm (kind := 0) (by decide)).symm,
      decodeTask_shli d a (shiftImm_kind (by decide)), shiftImm_amount (by decide)])

theorem roundTrips_shri : RoundTrips (.shri d a n) :=
  roundTrips_of_task (Laws.FitsWord.shri _ _ _) (by
    rw [show encode (.shri d a n) = _ from (riWord_shiftImm (kind := 1) (by decide)).symm,
      decodeTask_shri d a (shiftImm_kind (by decide)), shiftImm_amount (by decide)])

theorem roundTrips_sari : RoundTrips (.sari d a n) :=
  roundTrips_of_task (Laws.FitsWord.sari _ _ _) (by
    rw [show encode (.sari d a n) = _ from (riWord_shiftImm (kind := 2) (by decide)).symm,
      decodeTask_sari d a (shiftImm_kind (by decide)), shiftImm_amount (by decide)])

/-! ## One register, an operation and a halfword -/

theorem roundTrips_vli : RoundTrips (.vli d i) :=
  roundTrips_of (w := riWord 0x38 d 0 i) (Laws.FitsWord.vli _ _) (by simp [encode, riWord]) fun _ => by simp [decodeRaw, riWord_op, decodeOp38]
theorem roundTrips_vlih : RoundTrips (.vlih d i) :=
  roundTrips_of (w := riWord 0x38 d 1 i) (Laws.FitsWord.vlih _ _) (by simp only [encode, riWord, BitVec.reduceToNat]; omega)
    fun _ => by simp [decodeRaw, riWord_op, decodeOp38]
theorem roundTrips_vlui : RoundTrips (.vlui d i) :=
  roundTrips_of (w := riWord 0x38 d 2 i) (Laws.FitsWord.vlui _ _) (by simp only [encode, riWord, BitVec.reduceToNat]; omega)
    fun _ => by simp [decodeRaw, riWord_op, decodeOp38]
theorem roundTrips_vorli : RoundTrips (.vorli d i) :=
  roundTrips_of (w := riWord 0x38 d 3 i) (Laws.FitsWord.vorli _ _) (by simp only [encode, riWord, BitVec.reduceToNat]; omega)
    fun _ => by simp [decodeRaw, riWord_op, decodeOp38]
theorem roundTrips_vaddi : RoundTrips (.vaddi d i) :=
  roundTrips_of (w := riWord 0x38 d 4 i) (Laws.FitsWord.vaddi _ _) (by simp only [encode, riWord, BitVec.reduceToNat]; omega)
    fun _ => by simp [decodeRaw, riWord_op, decodeOp38]

/-! ## Special registers, charge requests, staged atomics and conversions -/

theorem roundTrips_mfs : RoundTrips (.mfs d a) := by
  have hop : fld (encode (.mfs d a)) 31 26 = 0x0B := by simp only [fld, encode]; omega
  have hz : fld (encode (.mfs d a)) 20 5 = 0 := by simp only [fld, encode]; omega
  have hd : bvf (encode (.mfs d a)) 25 21 = d := bvf_eq (by simp only [encode]; omega)
  have ha : bvf (encode (.mfs d a)) 4 0 = a := bvf_eq (by simp only [encode]; omega)
  exact roundTrips_of (Laws.FitsWord.mfs _ _) rfl fun _ => by simp only [decodeRaw, hop, decodeOp0B, hz, hd, ha, if_true]

theorem roundTrips_mts : RoundTrips (.mts d a) := by
  have hop : fld (encode (.mts d a)) 31 26 = 0x0B := by simp only [fld, encode]; omega
  have hz : fld (encode (.mts d a)) 20 5 ≠ 0 := by simp only [fld, encode]; omega
  have h1 : fld (encode (.mts d a)) 15 5 = 1024 := by simp only [fld, encode]; omega
  have h2 : fld (encode (.mts d a)) 25 21 = 0 := by simp only [fld, encode]; omega
  have hd : bvf (encode (.mts d a)) 20 16 = d := bvf_eq (by simp only [encode]; omega)
  have ha : bvf (encode (.mts d a)) 4 0 = a := bvf_eq (by simp only [encode]; omega)
  exact roundTrips_of (Laws.FitsWord.mts _ _) rfl fun _ => by
    simp only [decodeRaw, hop, decodeOp0B, if_neg hz, h1, h2, hd, ha, and_self, if_true]

theorem roundTrips_charge : RoundTrips (.charge d a g) := by
  have hop : fld (encode (.charge d a g)) 31 26 = 0x22 := by simp only [fld, encode]; omega
  have hz : fld (encode (.charge d a g)) 15 12 = 0 := by simp only [fld, encode]; omega
  have hd : bvf (encode (.charge d a g)) 25 21 = d := bvf_eq (by simp only [encode]; omega)
  have ha : bvf (encode (.charge d a g)) 20 16 = a := bvf_eq (by simp only [encode]; omega)
  have hg : bvf (encode (.charge d a g)) 11 0 = g := bvf_eq (by simp only [encode]; omega)
  exact roundTrips_of (Laws.FitsWord.charge _ _ _) rfl fun _ => by simp only [decodeRaw, hop, decodeOp22, hz, hd, ha, hg, if_true]

theorem roundTrips_mcs : RoundTrips (.mcs d g) := by
  have hop : fld (encode (.mcs d g)) 31 26 = 0x22 := by simp only [fld, encode]; omega
  have hz : fld (encode (.mcs d g)) 15 12 ≠ 0 := by simp only [fld, encode]; omega
  have h1 : fld (encode (.mcs d g)) 20 12 = 1 := by simp only [fld, encode]; omega
  have hd : bvf (encode (.mcs d g)) 25 21 = d := bvf_eq (by simp only [encode]; omega)
  have hg : bvf (encode (.mcs d g)) 11 0 = g := bvf_eq (by simp only [encode]; omega)
  exact roundTrips_of (Laws.FitsWord.mcs _ _) rfl fun _ => by simp only [decodeRaw, hop, decodeOp22, if_neg hz, h1, hd, hg, if_true]

/-- The word of a staged atomic: its space in the low bits of the first register field. -/
def stagedWord (f : Nat) (s : BitVec 3) (a b : BitVec 5) (w : BitVec 3) : Nat := vecWord 0x26 f (s.setWidth 5) a b 0#3 w

theorem stagedWord_high {f : Nat} (hf : f < 32) (s : BitVec 3) (w : BitVec 3) : fld (stagedWord f s a b w) 25 24 = 0 := by
  simp only [fld, stagedWord, vecWord, BitVec.toNat_setWidth]; omega

theorem stagedWord_space {f : Nat} (hf : f < 32) (s : BitVec 3) (w : BitVec 3) : bvf (stagedWord f s a b w) 23 21 = s :=
  bvf_eq (by simp only [stagedWord, vecWord, BitVec.toNat_setWidth, BitVec.reduceToNat]; omega)

theorem stagedWord_eq (f : Nat) (s : BitVec 3) (w : BitVec 3) :
    stagedWord f s a b w = 0x98000000 + f * 8 + s.toNat * 2 ^ 21 + a.toNat * 2 ^ 16 + b.toNat * 2 ^ 11 + w.toNat := by
  simp only [stagedWord, vecWord, BitVec.toNat_setWidth, BitVec.reduceToNat]; omega

theorem decodeRaw_stagedWord {f : Nat} (hf : f < 32) (s : BitVec 3) (w : BitVec 3) :
    decodeRaw (stagedWord f s a b w) =
      if f = 0 then some (.sadd s a b w) else if f = 1 then some (.smin s a b w) else if f = 2 then some (.smax s a b w)
      else if f = 3 then some (.sor s a b w) else if f = 4 then some (.sand s a b w)
      else if w.toNat + f * 8 = 42 then some (.sfadd s a b) else none := by
  have hh := stagedWord_high (a := a) (b := b) hf s w
  have hs := stagedWord_space (a := a) (b := b) hf s w
  rw [stagedWord] at hh hs ⊢
  simp [decodeRaw, decodeOp26, hh, hs, hf]

theorem roundTrips_sadd : RoundTrips (.sadd k d a t) :=
  roundTrips_of (Laws.FitsWord.sadd _ _ _ _) (stagedWord_eq 0 k t).symm fun _ => decodeRaw_stagedWord (by decide) k t
theorem roundTrips_smin : RoundTrips (.smin k d a t) :=
  roundTrips_of (Laws.FitsWord.smin _ _ _ _) (stagedWord_eq 1 k t).symm fun _ => decodeRaw_stagedWord (by decide) k t
theorem roundTrips_smax : RoundTrips (.smax k d a t) :=
  roundTrips_of (Laws.FitsWord.smax _ _ _ _) (stagedWord_eq 2 k t).symm fun _ => decodeRaw_stagedWord (by decide) k t
theorem roundTrips_sor : RoundTrips (.sor k d a t) :=
  roundTrips_of (Laws.FitsWord.sor _ _ _ _) (stagedWord_eq 3 k t).symm fun _ => decodeRaw_stagedWord (by decide) k t
theorem roundTrips_sand : RoundTrips (.sand k d a t) :=
  roundTrips_of (Laws.FitsWord.sand _ _ _ _) (stagedWord_eq 4 k t).symm fun _ => decodeRaw_stagedWord (by decide) k t
theorem roundTrips_sfadd : RoundTrips (.sfadd k d a) :=
  roundTrips_of (w := stagedWord 5 k d a 2) (Laws.FitsWord.sfadd _ _ _)
    (by rw [stagedWord_eq]; simp only [encode, BitVec.reduceToNat]; omega) fun _ => decodeRaw_stagedWord (by decide) k 2

/-- The word of a conversion. -/
def cvtWord (d a : BitVec 5) (s : BitVec 3) (g : BitVec 1) (k : BitVec 3) (u : BitVec 2) (m t : BitVec 3) : Nat :=
  0xCC000000 + d.toNat * 2097152 + a.toNat * 65536 + s.toNat * 8192 + g.toNat * 4096 + k.toNat * 256 + u.toNat * 64 + m.toNat * 8 + t.toNat

theorem decodeRaw_cvtWord : decodeRaw (cvtWord d a k q t u m p) =
    if m.toNat = 5 then some (.vcvtSr d a k q t u p) else some (.vcvt d a k q t u m p) := by
  have hop : fld (cvtWord d a k q t u m p) 31 26 = 0x33 := by simp only [fld, cvtWord]; omega
  have hz : fld (cvtWord d a k q t u m p) 11 11 = 0 := by simp only [fld, cvtWord]; omega
  have hm : fld (cvtWord d a k q t u m p) 5 3 = m.toNat := by simp only [fld, cvtWord]; omega
  have h1 : bvf (cvtWord d a k q t u m p) 25 21 = d := bvf_eq (by simp only [cvtWord]; omega)
  have h2 : bvf (cvtWord d a k q t u m p) 20 16 = a := bvf_eq (by simp only [cvtWord]; omega)
  have h3 : bvf (cvtWord d a k q t u m p) 15 13 = k := bvf_eq (by simp only [cvtWord]; omega)
  have h4 : bvf (cvtWord d a k q t u m p) 12 12 = q := bvf_eq (by simp only [cvtWord]; omega)
  have h5 : bvf (cvtWord d a k q t u m p) 10 8 = t := bvf_eq (by simp only [cvtWord]; omega)
  have h6 : bvf (cvtWord d a k q t u m p) 7 6 = u := bvf_eq (by simp only [cvtWord]; omega)
  have h7 : bvf (cvtWord d a k q t u m p) 5 3 = m := bvf_eq (by simp only [cvtWord]; omega)
  have h8 : bvf (cvtWord d a k q t u m p) 2 0 = p := bvf_eq (by simp only [cvtWord]; omega)
  simp only [decodeRaw, hop, decodeOp33, hz, hm, h1, h2, h3, h4, h5, h6, h7, h8, and_true, if_true]

/-- VCVT.SR is the conversion of mode 5, which no VCVT has (R137). -/
theorem roundTrips_vcvtSr : RoundTrips (.vcvtSr d a k q t u m) :=
  roundTrips_of (w := cvtWord d a k q t u 5 m) (Laws.FitsWord.vcvtSr _ _ _ _ _ _ _)
    (by simp only [encode, cvtWord, BitVec.reduceToNat]; omega) fun _ => decodeRaw_cvtWord

theorem roundTrips_vcvt : RoundTrips (.vcvt d a k q t u m p) :=
  roundTrips_of (w := cvtWord d a k q t u m p) (Laws.FitsWord.vcvt _ _ _ _ _ _ _ _) rfl fun h => by
    have hm : m.toNat ≠ 5 := by simp [Instr.wf, BitVec.le_def] at h; omega
    rw [decodeRaw_cvtWord, if_neg hm]

/-! ## Exits, fences, translation maintenance and traps -/

theorem roundTrips_exit : RoundTrips (.exit k d) := by
  have hop : fld (encode (.exit k d)) 31 26 = 0x25 := by simp only [fld, encode]; omega
  have hz : fld (encode (.exit k d)) 13 0 = 0 := by simp only [fld, encode]; omega
  have hf : fld (encode (.exit k d)) 25 22 = 0 := by simp only [fld, encode]; omega
  have hk : bvf (encode (.exit k d)) 21 19 = k := bvf_eq (by simp only [encode]; omega)
  have hd : bvf (encode (.exit k d)) 18 14 = d := bvf_eq (by simp only [encode]; omega)
  exact roundTrips_of (Laws.FitsWord.exit _ _) rfl fun _ => by simp only [decodeRaw, hop, decodeOp25, hz, hf, hk, hd, and_self, if_true]

theorem roundTrips_xwait : RoundTrips (.xwait d a b q) := by
  have hop : fld (encode (.xwait d a b q)) 31 26 = 0x25 := by simp only [fld, encode]; omega
  have hz : fld (encode (.xwait d a b q)) 5 0 = 0 := by simp only [fld, encode]; omega
  have hf : fld (encode (.xwait d a b q)) 25 22 = 1 := by simp only [fld, encode]; omega
  have hd : bvf (encode (.xwait d a b q)) 21 17 = d := bvf_eq (by simp only [encode]; omega)
  have ha : bvf (encode (.xwait d a b q)) 16 12 = a := bvf_eq (by simp only [encode]; omega)
  have hb : bvf (encode (.xwait d a b q)) 11 7 = b := bvf_eq (by simp only [encode]; omega)
  have hq : bvf (encode (.xwait d a b q)) 6 6 = q := bvf_eq (by simp only [encode]; omega)
  exact roundTrips_of (Laws.FitsWord.xwait _ _ _ _) rfl fun _ => by simp [decodeRaw, hop, decodeOp25, hz, hf, hd, ha, hb, hq]

theorem roundTrips_xbar : RoundTrips (.xbar k d h) := by
  have hop : fld (encode (.xbar k d h)) 31 26 = 0x25 := by simp only [fld, encode]; omega
  have hz : fld (encode (.xbar k d h)) 9 0 = 0 := by simp only [fld, encode]; omega
  have hf : fld (encode (.xbar k d h)) 25 22 = 2 := by simp only [fld, encode]; omega
  have hk : bvf (encode (.xbar k d h)) 21 19 = k := bvf_eq (by simp only [encode]; omega)
  have hd : bvf (encode (.xbar k d h)) 18 14 = d := bvf_eq (by simp only [encode]; omega)
  have hh : bvf (encode (.xbar k d h)) 13 10 = h := bvf_eq (by simp only [encode]; omega)
  exact roundTrips_of (Laws.FitsWord.xbar _ _ _) rfl fun _ => by simp [decodeRaw, hop, decodeOp25, hz, hf, hk, hd, hh]

theorem roundTrips_xamo : RoundTrips (.xamo d a b h q) := by
  have hop : fld (encode (.xamo d a b h q)) 31 26 = 0x25 := by simp only [fld, encode]; omega
  have hz : fld (encode (.xamo d a b h q)) 1 0 = 0 := by simp only [fld, encode]; omega
  have hf : fld (encode (.xamo d a b h q)) 25 22 = 3 := by simp only [fld, encode]; omega
  have hd : bvf (encode (.xamo d a b h q)) 21 17 = d := bvf_eq (by simp only [encode]; omega)
  have ha : bvf (encode (.xamo d a b h q)) 16 12 = a := bvf_eq (by simp only [encode]; omega)
  have hb : bvf (encode (.xamo d a b h q)) 11 7 = b := bvf_eq (by simp only [encode]; omega)
  have hh : bvf (encode (.xamo d a b h q)) 6 3 = h := bvf_eq (by simp only [encode]; omega)
  have hq : bvf (encode (.xamo d a b h q)) 2 2 = q := bvf_eq (by simp only [encode]; omega)
  exact roundTrips_of (Laws.FitsWord.xamo _ _ _ _ _) rfl fun _ => by simp [decodeRaw, hop, decodeOp25, hz, hf, hd, ha, hb, hh, hq]

theorem roundTrips_fenceAcq : RoundTrips (.fenceAcq k) := by
  have hop : fld (encode (.fenceAcq k)) 31 26 = 0x27 := by simp only [fld, encode]; omega
  have hz : fld (encode (.fenceAcq k)) 18 0 = 0 := by simp only [fld, encode]; omega
  have hf : fld (encode (.fenceAcq k)) 25 22 = 0 := by simp only [fld, encode]; omega
  have hk : bvf (encode (.fenceAcq k)) 21 19 = k := bvf_eq (by simp only [encode]; omega)
  exact roundTrips_of (Laws.FitsWord.fenceAcq _) rfl fun _ => by simp [decodeRaw, hop, decodeOp27, hz, hf, hk]

theorem roundTrips_tlbiPage : RoundTrips (.tlbiPage d q) := by
  have hop : fld (encode (.tlbiPage d q)) 31 26 = 0x28 := by simp only [fld, encode]; omega
  have hz : fld (encode (.tlbiPage d q)) 13 0 = 0 := by simp only [fld, encode]; omega
  have hk : fld (encode (.tlbiPage d q)) 16 15 = 0 := by simp only [fld, encode]; omega
  have hf : fld (encode (.tlbiPage d q)) 25 22 = 0 := by simp only [fld, encode]; omega
  have hd : bvf (encode (.tlbiPage d q)) 21 17 = d := bvf_eq (by simp only [encode]; omega)
  have hq : bvf (encode (.tlbiPage d q)) 14 14 = q := bvf_eq (by simp only [encode]; omega)
  exact roundTrips_of (Laws.FitsWord.tlbiPage _ _) rfl fun _ => by simp [decodeRaw, hop, decodeOp28, hz, hk, hf, hd, hq]

theorem roundTrips_tlbiCtx : RoundTrips (.tlbiCtx q) := by
  have hop : fld (encode (.tlbiCtx q)) 31 26 = 0x28 := by simp only [fld, encode]; omega
  have hz : fld (encode (.tlbiCtx q)) 13 0 = 0 := by simp only [fld, encode]; omega
  have hk : fld (encode (.tlbiCtx q)) 16 15 = 1 := by simp only [fld, encode]; omega
  have hf : fld (encode (.tlbiCtx q)) 25 15 = 1 := by simp only [fld, encode]; omega
  have hq : bvf (encode (.tlbiCtx q)) 14 14 = q := bvf_eq (by simp only [encode]; omega)
  exact roundTrips_of (Laws.FitsWord.tlbiCtx _) rfl fun _ => by simp [decodeRaw, hop, decodeOp28, hz, hk, hf, hq]

theorem roundTrips_tlbiPart : RoundTrips (.tlbiPart q) := by
  have hop : fld (encode (.tlbiPart q)) 31 26 = 0x28 := by simp only [fld, encode]; omega
  have hz : fld (encode (.tlbiPart q)) 13 0 = 0 := by simp only [fld, encode]; omega
  have hk : fld (encode (.tlbiPart q)) 16 15 = 2 := by simp only [fld, encode]; omega
  have hf : fld (encode (.tlbiPart q)) 25 15 = 2 := by simp only [fld, encode]; omega
  have hq : bvf (encode (.tlbiPart q)) 14 14 = q := bvf_eq (by simp only [encode]; omega)
  exact roundTrips_of (Laws.FitsWord.tlbiPart _) rfl fun _ => by simp [decodeRaw, hop, decodeOp28, hz, hk, hf, hq]

theorem roundTrips_trap : RoundTrips (.trap j) := by
  have hop : fld (encode (.trap j)) 31 26 = 0x29 := by simp only [fld, encode]; omega
  have hf : fld (encode (.trap j)) 25 22 = 0 := by simp only [fld, encode]; omega
  have hj : bvf (encode (.trap j)) 21 0 = j := bvf_eq (by simp only [encode]; omega)
  exact roundTrips_of (Laws.FitsWord.trap _) rfl fun _ => by simp only [decodeRaw, hop, decodeOp29, hf, hj, if_true]

theorem roundTrips_xstop : RoundTrips .xstop := roundTrips_of_task (by decide) (by decide)
theorem roundTrips_ptsync : RoundTrips .ptsync := roundTrips_of_task (by decide) (by decide)
theorem roundTrips_brk : RoundTrips .brk := roundTrips_of_task (by decide) (by decide)

end

end Sys2Proof
end

section
/-! SUPPORT. The statement about the words of task instructions, settled. -/

namespace Sys2Proof.Safety

set_option maxRecDepth 2000 in
/-- Settles O57, instruction by instruction. -/
theorem taskRoundTrip : Obligations.TaskRoundTrip := by
  intro d a b c k t m p i o q u h n f g l j
  simp only [List.forall_mem_cons]
  exact ⟨roundTrips_add, roundTrips_sub, roundTrips_mul, roundTrips_mulh, roundTrips_mulhn, roundTrips_div, roundTrips_divn,
    roundTrips_rem, roundTrips_remn, roundTrips_and, roundTrips_or, roundTrips_xor, roundTrips_andn, roundTrips_shl, roundTrips_shr,
    roundTrips_sar, roundTrips_min, roundTrips_max, roundTrips_minn, roundTrips_maxn, roundTrips_slt, roundTrips_sltn, roundTrips_seq,
    roundTrips_clz, roundTrips_popc, roundTrips_bext, roundTrips_bdep, roundTrips_sext, roundTrips_zext, roundTrips_addi, roundTrips_andi,
    roundTrips_ori, roundTrips_xori, roundTrips_shli, roundTrips_shri, roundTrips_sari, roundTrips_lui, roundTrips_slti, roundTrips_fadd,
    roundTrips_fsub, roundTrips_fmul, roundTrips_fdiv, roundTrips_fsqrt, roundTrips_frsq, roundTrips_fmin, roundTrips_fmax,
    roundTrips_fcvt, roundTrips_fcmpEq, roundTrips_fcmpLt, roundTrips_fcmpLe, roundTrips_fcmpUn, roundTrips_fclass, roundTrips_fma,
    roundTrips_mfs, roundTrips_mts, roundTrips_ld, roundTrips_st, roundTrips_vld, roundTrips_vgld, roundTrips_vst, roundTrips_vlds,
    roundTrips_vldsIx, roundTrips_vsts, roundTrips_lutx, roundTrips_lutld, roundTrips_beq, roundTrips_bne, roundTrips_blt, roundTrips_bge,
    roundTrips_bltn, roundTrips_bgen, roundTrips_bdnz, roundTrips_jal, roundTrips_jalr, roundTrips_charge, roundTrips_mcs, roundTrips_crd,
    roundTrips_crdt, roundTrips_cwr, roundTrips_cwrt, roundTrips_advR, roundTrips_advW, roundTrips_emit, roundTrips_exit, roundTrips_xwait,
    roundTrips_xbar, roundTrips_xamo, roundTrips_xstop, roundTrips_sadd, roundTrips_smin, roundTrips_smax, roundTrips_sor, roundTrips_sand,
    roundTrips_sfadd, roundTrips_fenceAcq, roundTrips_tlbiPage, roundTrips_tlbiCtx, roundTrips_tlbiPart, roundTrips_ptsync,
    roundTrips_trap, roundTrips_brk, roundTrips_vadd, roundTrips_vsub, roundTrips_vmul, roundTrips_vmulh, roundTrips_vadds,
    roundTrips_vsubs, roundTrips_vmin, roundTrips_vmax, roundTrips_vand, roundTrips_vor, roundTrips_vxor, roundTrips_vandn,
    roundTrips_vshl, roundTrips_vshr, roundTrips_vsar, roundTrips_vabsd, roundTrips_vclz, roundTrips_vpopc, roundTrips_vpack,
    roundTrips_vunpack, roundTrips_vfadd, roundTrips_vfsub, roundTrips_vfmul, roundTrips_vfmin, roundTrips_vfmax, roundTrips_vfms,
    roundTrips_vfnma, roundTrips_vscale, roundTrips_vfma, roundTrips_vcvt, roundTrips_vcvtSr, roundTrips_vrsum, roundTrips_vrmin,
    roundTrips_vrmax, roundTrips_vrfsum, roundTrips_vscan, roundTrips_vperm, roundTrips_vshuf, roundTrips_vrot, roundTrips_vnbr,
    roundTrips_vcmpEq, roundTrips_vcmpNe, roundTrips_vcmpLt, roundTrips_vcmpLe, roundTrips_vfcmpEq, roundTrips_vfcmpLt, roundTrips_vfcmpLe,
    roundTrips_vfcmpUn, roundTrips_vbcst, roundTrips_vins, roundTrips_vext, roundTrips_vmov, roundTrips_vli, roundTrips_vlih,
    roundTrips_vlui, roundTrips_vorli, roundTrips_vaddi, roundTrips_vsel, roundTrips_kand, roundTrips_kor, roundTrips_knot,
    roundTrips_kmov, roundTrips_kmovFromScalar, roundTrips_kmovToScalar, roundTrips_vrcp, roundTrips_vrsq, roundTrips_vexp2,
    roundTrips_vlog2, roundTrips_vtanh, List.forall_mem_nil _⟩

end Sys2Proof.Safety
end

/-! SUPPORT. Memory stays canonical (O55). One lemma for each operation of the model that answers a state, callees first: where the state it is given
has canonical memory, so has each state that its answer carries. An operation writes memory only by `State.write` and by the moves of the array's
tiles, whose lemmas stand in Laws/Memory; each other lemma splits along the branches of its operation and cites the lemmas of what that calls. -/
section

set_option Elab.async false

namespace Sys2Proof.Machine

/-! ## What it says of a state, and of what an operation answers -/

/-- The memory of a state is canonical: locations rise strictly, and no entry is zero. -/
def State.Canon (s : State) : Prop := Memory.wf s.mem = true

/-- Each answer of an operation that carries a state carries one whose memory is canonical. -/
def Reach.Canon : Reach → Prop
  | .ok _ s | .pageFault _ _ _ s | .prot _ s | .data _ s => s.Canon

@[inherit_doc Reach.Canon] def Dev.Canon : Dev → Prop
  | .ok s | .pageFault _ _ _ s | .prot _ s | .data _ s => s.Canon

@[inherit_doc Reach.Canon] def Body.Canon : Body → Prop
  | .done s _ | .faultAt s _ _ _ => s.Canon
  | _ => True

@[inherit_doc Reach.Canon] def Paid.Canon : Paid → Prop
  | .ok s _ | .short s => s.Canon
  | .darkEnd _ => True

@[inherit_doc Reach.Canon] def Parts.Canon : Parts → Prop
  | .read _ _ s | .stall s => s.Canon

@[inherit_doc Reach.Canon] def LR.Canon {α : Type} : LR α → Prop
  | .ok _ s | .invalid s | .pageFault _ _ _ s | .prot _ s | .data _ s => s.Canon

@[inherit_doc Reach.Canon] def Fetch.Canon : Fetch → Prop
  | .word _ s => s.Canon
  | _ => True

@[inherit_doc Reach.Canon] def Item.Canon : Item → Prop
  | .ok _ s | .bad _ _ _ s | .stall s => s.Canon

@[inherit_doc Reach.Canon] def Succ.Canon : Succ → Prop
  | .ok s | .invalid s | .wait s _ _ | .prot s _ _ | .data s _ => s.Canon

@[inherit_doc Reach.Canon] def Elems.Canon : Elems → Prop
  | .ok s _ _ _ => s.Canon
  | .bad b => b.Canon

@[inherit_doc Reach.Canon] def Enq.Canon : Enq → Prop
  | .ok s | .full s | .quota s | .pageFault _ _ _ s | .prot _ s | .data _ s => s.Canon

@[inherit_doc Reach.Canon] def Eng.Canon {α : Type} : Eng α → Prop
  | .ok _ s | .faultAt s _ _ _ => s.Canon
  | _ => True

/-- A step that answers a next state answers one whose memory is canonical. -/
def Keeps : Host.Outcome State Fault Refusal → Prop
  | .next s => s.Canon
  | _ => True

theorem State.canon_of_mem {s u : State} (h : s.Canon) (hm : u.mem = s.mem) : u.Canon := by
  unfold State.Canon at h ⊢
  rw [hm]
  exact h

theorem State.canon_ite {p : Prop} [Decidable p] {a b : State} (ha : a.Canon) (hb : b.Canon) : (if p then a else b).Canon := by
  split
  · exact ha
  · exact hb

theorem foldl_canon {α : Type} {g : State → α → State} (hg : ∀ u e, u.Canon → (g u e).Canon) (l : List α) {u : State} (h : u.Canon) :
    (l.foldl g u).Canon := by
  induction l generalizing u with
  | nil => exact h
  | cons e r ih => exact ih (hg u e h)

/-! ## The array's storage -/

theorem mxtSwap_canon {m : List Host.Cell} (h : Memory.wf m = true) (o core r swap) : Memory.wf (mxtSwap o core r swap m) = true := by
  have hs : Memory.wf (if swap then swapTiles m core else m) = true := by
    split
    · exact wfMem_swapTiles _ h
    · exact h
  unfold mxtSwap
  dsimp only
  split
  · exact wfMem_fillTile _ _ _ hs
  · exact hs

theorem finishPart_canon {m : List Host.Cell} (h : Memory.wf m = true) (mm fresh core part) : Memory.wf (finishPart mm fresh core part m) = true :=
  wfMem_setRange _ _ h

theorem runChunks_canon {m : List Host.Cell} (h : Memory.wf m = true) (mm core rows bnext rowAt scale n r) :
    Memory.wf (runChunks mm core rows bnext rowAt scale n r m).1 = true := by
  induction n generalizing r m with
  | zero => exact h
  | succ n ih =>
    unfold runChunks
    dsimp only
    refine ih ?_ _
    split
    · exact h
    · exact wfMem_swapTiles _ (wfMem_fillTile _ _ _ h)

theorem mxtRun_canon {m : List Host.Cell} (h : Memory.wf m = true) (o core rowAt) : Memory.wf (mxtRun o core rowAt m) = true := by
  refine wfMem_finishAcc _ _ _ _ _ (runChunks_canon ?_ ..)
  split
  · exact wfMem_swapTiles _ h
  · exact h

/-! ## The operations, callees first -/

theorem State.onRow_canon {s : State} (h : s.Canon) (f) (hf : ∀ u, (f u).Canon) : Keeps (s.onRow f) := by
  unfold State.onRow
  grind -ring -linarith -lia [Keeps, State.Canon]

theorem State.setPart_canon {s : State} (h : s.Canon) (p x) : (s.setPart p x).Canon := h
theorem State.modPart_canon {s : State} (h : s.Canon) (p f) : (s.modPart p f).Canon := h
theorem State.debit_canon {s : State} (h : s.Canon) (p n) : ∀ u, s.debit p n = some u → u.Canon := by
  unfold State.debit
  grind -ring -linarith -lia [State.modPart_canon, State.Canon]

theorem State.setCtx_canon {s : State} (h : s.Canon) (c x) : (s.setCtx c x).Canon := h
theorem State.modCtx_canon {s : State} (h : s.Canon) (c f) : (s.modCtx c f).Canon := by
  unfold State.modCtx
  grind -ring -linarith -lia [State.setCtx_canon, State.Canon]

theorem State.tally_canon {s : State} (h : s.Canon) (cx tag drawn credited) : (s.tally cx tag drawn credited).Canon := by
  unfold State.tally
  grind -ring -linarith -lia [State.modCtx_canon, State.Canon]

theorem State.pay_canon {s : State} (h : s.Canon) (t ru) : (s.pay t ru).Canon := by
  unfold State.pay
  grind -ring -linarith -lia [State.debit_canon, State.tally_canon, Paid.Canon, State.Canon]

theorem State.shortOf_canon {s : State} (h : s.Canon) (t darkend) : (s.shortOf t darkend).2.Canon := by
  unfold State.shortOf
  grind -ring -linarith -lia [State.Canon]

theorem State.setPort_canon {s : State} (h : s.Canon) (n x) : (s.setPort n x).Canon := h
theorem State.modPort_canon {s : State} (h : s.Canon) (n f) : (s.modPort n f).Canon := h
theorem State.usePort_canon {s : State} (h : s.Canon) (port e) : (s.usePort port e).Canon := h
theorem State.xlateOf_canon {s : State} (h : s.Canon) (port cx as va acc) : (s.xlateOf port cx as va acc).2.Canon := by
  unfold State.xlateOf
  grind -ring -linarith -lia [State.usePort_canon, State.Canon]

theorem State.reachPieces_canon {s : State} (h : s.Canon) (port cx acc as l) : (s.reachPieces port cx acc as l).Canon := by
  induction l generalizing s with
  | nil => exact h
  | cons e r ih => grind -ring -linarith -lia [State.reachPieces, State.xlateOf_canon, Reach.Canon]

theorem State.reach_canon {s : State} (h : s.Canon) (port cx a n acc) : (s.reach port cx a n acc).Canon := by
  unfold State.reach
  grind -ring -linarith -lia [State.reachPieces_canon, Reach.Canon, State.Canon]

theorem State.setFcast_canon {s : State} (h : s.Canon) (k x) : (s.setFcast k x).Canon := h
theorem State.modFcast_canon {s : State} (h : s.Canon) (k f) : (s.modFcast k f).Canon := h
theorem State.fault_canon {s : State} (h : s.Canon) (cx cls detail core row addr pc succ) : (s.fault cx cls detail core row addr pc succ).Canon := by
  unfold State.fault
  grind -ring -linarith -lia [State.setCtx_canon, State.modFcast_canon, State.Canon]

theorem State.waitsBad_canon {s : State} (h : s.Canon) (k n) : (s.waitsBad k n).Canon := by
  rw [State.Canon, State.waitsBad_mem]
  exact h

theorem State.write_canon {s : State} (h : s.Canon) (k bs) : (s.write k bs).Canon := State.write_wf k bs h
theorem State.puts_canon {s : State} (h : s.Canon) (ks bs) : (s.puts ks bs).Canon := by
  induction ks generalizing s bs with
  | nil => exact h
  | cons e r ih => exact ih (State.write_canon h ..) _

theorem State.devStop_canon {s : State} (h : s.Canon) (die cx va bs) : (s.devStop die cx va bs).Canon := by
  unfold State.devStop
  dsimp only
  split
  case h_4 =>
    split
    · grind -ring -linarith -lia [State.reach_canon, Reach.Canon, Dev.Canon]
    · split
      · grind -ring -linarith -lia [State.reach_canon, Reach.Canon, Dev.Canon, State.puts_canon]
      · split <;> grind -ring -linarith -lia [State.reach_canon, Reach.Canon, Dev.Canon, State.puts_canon]
  all_goals grind -ring -linarith -lia [State.reach_canon, Reach.Canon, Dev.Canon]

theorem State.devPut_canon {s : State} (h : s.Canon) (die cx va acc bs) : (s.devPut die cx va acc bs).Canon := by
  unfold State.devPut
  grind -ring -linarith -lia [State.reach_canon, State.puts_canon, Dev.Canon, Reach.Canon, State.Canon]

theorem State.interrupt_canon {s : State} (h : s.Canon) (cx) : (s.interrupt cx).Canon := h
theorem State.devTry_canon {s : State} (h : s.Canon) (die cx kind va bs) : (s.devTry die cx kind va bs).Canon := by
  unfold State.devTry
  grind -ring -linarith -lia [State.devStop_canon, State.devPut_canon, State.interrupt_canon, Dev.Canon, State.Canon]

theorem State.devLost_canon {s : State} (h : s.Canon) (cx kind addr cls detail) : (s.devLost cx kind addr cls detail).Canon := by
  unfold State.devLost
  grind -ring -linarith -lia [State.modCtx_canon, State.fault_canon, State.Canon]

theorem State.devWriteAt_canon {s : State} (h : s.Canon) (die cx kind va bs) : (s.devWriteAt die cx kind va bs).Canon := by
  unfold State.devWriteAt
  grind -ring -linarith -lia [State.devTry_canon, State.devLost_canon, Dev.Canon, State.Canon]

theorem State.setBind_canon {s : State} (h : s.Canon) (hkey writer on) : (s.setBind hkey writer on).Canon := by
  unfold State.setBind
  grind -ring -linarith -lia [State.write_canon, State.Canon]

theorem State.clearBind_canon {s : State} (h : s.Canon) (cx core row pc quad k writer) : (s.clearBind cx core row pc quad k writer).Canon := by
  unfold State.clearBind
  grind -ring -linarith -lia [State.setBind_canon, State.fault_canon, State.Canon]

theorem State.unbind_canon {s : State} (h : s.Canon) (cx cs) : (s.unbind cx cs).Canon := by
  unfold State.unbind
  grind -ring -linarith -lia [State.clearBind_canon, foldl_canon, State.Canon]

theorem State.devWrite_canon {s : State} (h : s.Canon) (cx kind va bs) : (s.devWrite cx kind va bs).Canon := by
  unfold State.devWrite
  grind -ring -linarith -lia [State.devWriteAt_canon, State.Canon]

theorem State.record_canon {s : State} (h : s.Canon) (cx r) : (s.record cx r).Canon := by
  unfold State.record
  grind -ring -linarith -lia [State.setCtx_canon, State.devWrite_canon, State.Canon]

theorem State.complete_canon {s : State} (h : s.Canon) (cx seq status code stage) : (s.complete cx seq status code stage).Canon := by
  unfold State.complete
  grind -ring -linarith -lia [State.setCtx_canon, State.record_canon, State.Canon]

theorem State.settle_canon {s : State} (h : s.Canon) (cx seq) : (s.settle cx seq).Canon := by
  unfold State.settle
  grind -ring -linarith -lia [State.complete_canon, State.Canon]

theorem State.ended_canon {s : State} (h : s.Canon) (cx pkt) : (s.ended cx pkt).Canon := by
  unfold State.ended
  grind -ring -linarith -lia [State.settle_canon, State.modCtx_canon, State.Canon]

theorem State.writeHead_canon {s : State} (h : s.Canon) (cx seg headx tailx) : (s.writeHead cx seg headx tailx).Canon := by
  unfold State.writeHead
  grind -ring -linarith -lia [State.devWrite_canon, State.Canon]

theorem State.retireHead_canon {s : State} (h : s.Canon) (cx q) : (s.retireHead cx q).Canon := by
  unfold State.retireHead
  grind -ring -linarith -lia [State.writeHead_canon, State.setCtx_canon, State.Canon]

theorem State.discardActs_canon {s : State} (h : s.Canon) (cx gone) : (s.discardActs cx gone).Canon := by
  unfold State.discardActs
  grind -ring -linarith -lia [State.unbind_canon, State.modCtx_canon, State.ended_canon, State.retireHead_canon, foldl_canon, State.Canon]

theorem State.memberEnded_canon {s : State} (h : s.Canon) (cx grp n) : (s.memberEnded cx grp n).Canon := by
  unfold State.memberEnded
  grind -ring -linarith -lia [State.modCtx_canon, State.Canon]

theorem State.cancelGroup_canon {s : State} (h : s.Canon) (t) : (s.cancelGroup t).Canon := by
  unfold State.cancelGroup
  grind -ring -linarith -lia [State.discardActs_canon, State.modCtx_canon, State.memberEnded_canon, State.Canon]

theorem State.releaseHandles_canon {s : State} (h : s.Canon) (t) : (s.releaseHandles t).Canon := by
  unfold State.releaseHandles
  grind -ring -linarith -lia [State.clearBind_canon, foldl_canon, State.Canon]

theorem State.disarm_canon {s : State} (h : s.Canon) (cx id) : (s.disarm cx id).Canon := by
  unfold State.disarm
  grind -ring -linarith -lia [State.modCtx_canon, State.unbind_canon, State.Canon]

theorem State.setRow_canon {s : State} (h : s.Canon) (r x) : (s.setRow r x).Canon := h
theorem State.modRow_canon {s : State} (h : s.Canon) (r f) : (s.modRow r f).Canon := h
theorem State.setPipe_canon {s : State} (h : s.Canon) (cx p) : (s.setPipe cx p).Canon := by
  unfold State.setPipe
  grind -ring -linarith -lia [State.modCtx_canon, State.Canon]

theorem State.claimRow_canon {s : State} (h : s.Canon) (cx p row) : (s.claimRow cx p row).Canon := by
  unfold State.claimRow
  grind -ring -linarith -lia [State.modRow_canon, State.setPipe_canon, State.Canon]

theorem State.claimRows_canon {s : State} (h : s.Canon) (cx q n) : (s.claimRows cx q n).Canon := by
  induction n generalizing s with
  | zero => exact h
  | succ n ih => grind -ring -linarith -lia [State.claimRows, State.claimRow_canon]

theorem State.writeN_canon {s : State} (h : s.Canon) (k n v) : (s.writeN k n v).Canon := by
  unfold State.writeN
  grind -ring -linarith -lia [State.write_canon, State.Canon]

theorem State.advance_canon {s : State} (h : s.Canon) (hkey writer n) : (s.advance hkey writer n).Canon := by
  unfold State.advance
  grind -ring -linarith -lia [State.writeN_canon, State.Canon]

theorem State.setTag_canon {s : State} (h : s.Canon) (hkey logn cnt t) : (s.setTag hkey logn cnt t).Canon := by
  unfold State.setTag
  grind -ring -linarith -lia [State.write_canon, State.Canon]

theorem State.ringPut_canon {s : State} (h : s.Canon) (l hkey v tag) : (s.ringPut l hkey v tag).Canon := by
  unfold State.ringPut
  grind -ring -linarith -lia [State.advance_canon, State.setTag_canon, State.writeN_canon, State.Canon]

theorem State.placeIso_canon {s : State} (h : s.Canon) (cx q) : (s.placeIso cx q).Canon := by
  unfold State.placeIso
  grind -ring -linarith -lia [State.fault_canon, State.setPipe_canon, State.ringPut_canon, State.Canon]

theorem State.setCore_canon {s : State} (h : s.Canon) (n x) : (s.setCore n x).Canon := h
theorem State.modCore_canon {s : State} (h : s.Canon) (n f) : (s.modCore n f).Canon := h
theorem State.keepArray_canon {s : State} (h : s.Canon) (cx core code w0) : (s.keepArray cx core code w0).Canon := by
  unfold State.keepArray
  grind -ring -linarith -lia [State.modCore_canon, State.Canon]

theorem State.append_canon {s : State} (h : s.Canon) (cx core code w0 w1 pkt receipt pipe) : (s.append cx core code w0 w1 pkt receipt pipe).Canon := by
  unfold State.append
  grind -ring -linarith -lia [State.modCtx_canon, State.keepArray_canon, State.Canon]

theorem State.appendPrefs_canon {s : State} (h : s.Canon) (cx p l) : (s.appendPrefs cx p l).Canon := by
  induction l generalizing s with
  | nil => exact h
  | cons e r ih =>
    obtain ⟨pos, _ | m⟩ := e
    · unfold State.appendPrefs
      grind -ring -linarith -lia [State.append_canon, State.setPipe_canon]
    · exact ih h

theorem State.bandGo_canon {s : State} (h : s.Canon) (cx q) : (s.bandGo cx q).Canon := by
  unfold State.bandGo
  grind -ring -linarith -lia [State.claimRows_canon, State.placeIso_canon, State.appendPrefs_canon, State.Canon]

theorem State.frontRecord_canon {s : State} (h : s.Canon) (cx p) : (s.frontRecord cx p).Canon := by
  unfold State.frontRecord
  grind -ring -linarith -lia [State.setPipe_canon, State.writeN_canon, State.Canon]

theorem State.recordsOn_canon {s : State} (h : s.Canon) (core) : (s.recordsOn core).Canon := by
  refine foldl_canon (fun u e hu => ?_) _ h
  split
  · split
    · exact hu
    · exact State.frontRecord_canon hu ..
  · exact hu

theorem State.ringSection_canon {s : State} (h : s.Canon) (l hkey vs tag) : (s.ringSection l hkey vs tag).Canon := by
  unfold State.ringSection
  grind -ring -linarith -lia [State.ringPut_canon, foldl_canon, State.Canon]

theorem State.feed_canon {s : State} (h : s.Canon) (p pos) : (s.feed p pos).Canon := by
  unfold State.feed
  grind -ring -linarith -lia [State.ringSection_canon, foldl_canon, State.Canon]

theorem State.beginRestore_canon {s : State} (h : s.Canon) (cx p h) : (s.beginRestore cx p h).Canon := by
  unfold State.beginRestore
  grind -ring -linarith -lia [State.setPipe_canon, State.fault_canon, State.feed_canon, State.appendPrefs_canon, State.Canon]

theorem State.pump_canon {s : State} (h : s.Canon) (core n) : (s.pump core n).Canon := by
  induction n generalizing s with
  | zero => exact h
  | succ n ih =>
    unfold State.pump
    grind -ring -linarith -lia [State.setPipe_canon, State.beginRestore_canon]

theorem State.frontCore_canon {s : State} (h : s.Canon) (core) : (s.frontCore core).Canon := by
  unfold State.frontCore
  grind -ring -linarith -lia [State.bandGo_canon, State.recordsOn_canon, State.pump_canon, foldl_canon, State.Canon]

theorem State.undefer_canon {s : State} (h : s.Canon) (p d) : (s.undefer p d).Canon := h
theorem State.setTask_canon {s : State} (h : s.Canon) (r t) : (s.setTask r t).Canon := h
theorem State.freeRow_canon {s : State} (h : s.Canon) (r) : (s.freeRow r).Canon := h
theorem State.freeRowGo_canon {s : State} (h : s.Canon) (r) : (s.freeRowGo r).Canon := by
  unfold State.freeRowGo
  grind -ring -linarith -lia [State.frontCore_canon, State.freeRow_canon, State.Canon]

theorem State.finishStop_canon {s : State} (h : s.Canon) (t reason darkend) : (s.finishStop t reason darkend).Canon := by
  unfold State.finishStop
  grind -ring -linarith -lia [State.shortOf_canon, State.devWriteAt_canon, State.cancelGroup_canon, State.memberEnded_canon, State.releaseHandles_canon, State.disarm_canon, State.modCtx_canon, State.freeRowGo_canon, State.ended_canon, State.fault_canon, State.Canon]

theorem State.stopTask_canon {s : State} (h : s.Canon) (t r) : (s.stopTask t r).Canon := by
  unfold State.stopTask
  grind -ring -linarith -lia [State.finishStop_canon, State.setTask_canon, State.Canon]

theorem State.faultTask_canon {s : State} (h : s.Canon) (t cls detail addr) : (s.faultTask t cls detail addr).Canon := by
  unfold State.faultTask
  grind -ring -linarith -lia [State.fault_canon, State.setTask_canon, State.Canon]

theorem State.missRow_canon {s : State} (h : s.Canon) (t va acc) : (s.missRow t va acc).Canon := h
theorem State.issue_canon {s : State} (h : s.Canon) (t cost body fin) (hbody : ∀ u v, u.Canon → (body u v).Canon) (hfin : ∀ u v, u.Canon → (fin u v).Canon) : (s.issue t cost body fin).Canon := by
  unfold State.issue
  grind -ring -linarith -lia [State.pay_canon, State.stopTask_canon, State.finishStop_canon, State.faultTask_canon, State.missRow_canon, State.setTask_canon, Body.Canon, Paid.Canon, State.Canon]

theorem retire_canon {s : State} (h : s.Canon) (t) : (retire s t).Canon := h
theorem State.runTask_canon {s : State} (h : s.Canon) (cost body) (hbody : ∀ u v, u.Canon → (body u v).Canon) : Keeps (s.runTask cost body) := by
  unfold State.runTask
  grind -ring -linarith -lia [State.onRow_canon, State.issue_canon, retire_canon, Body.Canon, Keeps, State.Canon]

theorem State.runReg_canon {s : State} (h : s.Canon) (cost f) : Keeps (s.runReg cost f) := State.runTask_canon h _ _ fun _ _ hu => hu
theorem State.alu2_canon {s : State} (h : s.Canon) (cost d a b f) : Keeps (s.alu2 cost d a b f) := by
  unfold State.alu2
  grind -ring -linarith -lia [State.runReg_canon, Keeps, State.Canon]

theorem execAdd_canon {s : State} (h : s.Canon) (d a b) : Keeps (execAdd d a b s) := by
  unfold execAdd
  grind -ring -linarith -lia [State.alu2_canon, Keeps, State.Canon]

theorem execSub_canon {s : State} (h : s.Canon) (d a b) : Keeps (execSub d a b s) := by
  unfold execSub
  grind -ring -linarith -lia [State.alu2_canon, Keeps, State.Canon]

theorem execMul_canon {s : State} (h : s.Canon) (d a b) : Keeps (execMul d a b s) := by
  unfold execMul
  grind -ring -linarith -lia [State.alu2_canon, Keeps, State.Canon]

theorem execMulh_canon {s : State} (h : s.Canon) (d a b) : Keeps (execMulh d a b s) := by
  unfold execMulh
  grind -ring -linarith -lia [State.alu2_canon, Keeps, State.Canon]

theorem execMulhn_canon {s : State} (h : s.Canon) (d a b) : Keeps (execMulhn d a b s) := by
  unfold execMulhn
  grind -ring -linarith -lia [State.alu2_canon, Keeps, State.Canon]

theorem execDiv_canon {s : State} (h : s.Canon) (d a b) : Keeps (execDiv d a b s) := by
  unfold execDiv
  grind -ring -linarith -lia [State.alu2_canon, Keeps, State.Canon]

theorem execDivn_canon {s : State} (h : s.Canon) (d a b) : Keeps (execDivn d a b s) := by
  unfold execDivn
  grind -ring -linarith -lia [State.alu2_canon, Keeps, State.Canon]

theorem execRem_canon {s : State} (h : s.Canon) (d a b) : Keeps (execRem d a b s) := by
  unfold execRem
  grind -ring -linarith -lia [State.alu2_canon, Keeps, State.Canon]

theorem execRemn_canon {s : State} (h : s.Canon) (d a b) : Keeps (execRemn d a b s) := by
  unfold execRemn
  grind -ring -linarith -lia [State.alu2_canon, Keeps, State.Canon]

theorem execAnd_canon {s : State} (h : s.Canon) (d a b) : Keeps (execAnd d a b s) := by
  unfold execAnd
  grind -ring -linarith -lia [State.alu2_canon, Keeps, State.Canon]

theorem execOr_canon {s : State} (h : s.Canon) (d a b) : Keeps (execOr d a b s) := by
  unfold execOr
  grind -ring -linarith -lia [State.alu2_canon, Keeps, State.Canon]

theorem execXor_canon {s : State} (h : s.Canon) (d a b) : Keeps (execXor d a b s) := by
  unfold execXor
  grind -ring -linarith -lia [State.alu2_canon, Keeps, State.Canon]

theorem execAndn_canon {s : State} (h : s.Canon) (d a b) : Keeps (execAndn d a b s) := by
  unfold execAndn
  grind -ring -linarith -lia [State.alu2_canon, Keeps, State.Canon]

theorem execShl_canon {s : State} (h : s.Canon) (d a b) : Keeps (execShl d a b s) := by
  unfold execShl
  grind -ring -linarith -lia [State.alu2_canon, Keeps, State.Canon]

theorem execShr_canon {s : State} (h : s.Canon) (d a b) : Keeps (execShr d a b s) := by
  unfold execShr
  grind -ring -linarith -lia [State.alu2_canon, Keeps, State.Canon]

theorem execSar_canon {s : State} (h : s.Canon) (d a b) : Keeps (execSar d a b s) := by
  unfold execSar
  grind -ring -linarith -lia [State.alu2_canon, Keeps, State.Canon]

theorem execMin_canon {s : State} (h : s.Canon) (d a b) : Keeps (execMin d a b s) := by
  unfold execMin
  grind -ring -linarith -lia [State.alu2_canon, Keeps, State.Canon]

theorem execMax_canon {s : State} (h : s.Canon) (d a b) : Keeps (execMax d a b s) := by
  unfold execMax
  grind -ring -linarith -lia [State.alu2_canon, Keeps, State.Canon]

theorem execMinn_canon {s : State} (h : s.Canon) (d a b) : Keeps (execMinn d a b s) := by
  unfold execMinn
  grind -ring -linarith -lia [State.alu2_canon, Keeps, State.Canon]

theorem execMaxn_canon {s : State} (h : s.Canon) (d a b) : Keeps (execMaxn d a b s) := by
  unfold execMaxn
  grind -ring -linarith -lia [State.alu2_canon, Keeps, State.Canon]

theorem execSlt_canon {s : State} (h : s.Canon) (d a b) : Keeps (execSlt d a b s) := by
  unfold execSlt
  grind -ring -linarith -lia [State.alu2_canon, Keeps, State.Canon]

theorem execSltn_canon {s : State} (h : s.Canon) (d a b) : Keeps (execSltn d a b s) := by
  unfold execSltn
  grind -ring -linarith -lia [State.alu2_canon, Keeps, State.Canon]

theorem execSeq_canon {s : State} (h : s.Canon) (d a b) : Keeps (execSeq d a b s) := by
  unfold execSeq
  grind -ring -linarith -lia [State.alu2_canon, Keeps, State.Canon]

theorem State.alu1_canon {s : State} (h : s.Canon) (cost d a f) : Keeps (s.alu1 cost d a f) := by
  unfold State.alu1
  grind -ring -linarith -lia [State.runReg_canon, Keeps, State.Canon]

theorem execClz_canon {s : State} (h : s.Canon) (d a) : Keeps (execClz d a s) := by
  unfold execClz
  grind -ring -linarith -lia [State.alu1_canon, Keeps, State.Canon]

theorem execPopc_canon {s : State} (h : s.Canon) (d a) : Keeps (execPopc d a s) := by
  unfold execPopc
  grind -ring -linarith -lia [State.alu1_canon, Keeps, State.Canon]

theorem execBext_canon {s : State} (h : s.Canon) (d a b) : Keeps (execBext d a b s) := by
  unfold execBext
  grind -ring -linarith -lia [State.alu2_canon, Keeps, State.Canon]

theorem execBdep_canon {s : State} (h : s.Canon) (d a b) : Keeps (execBdep d a b s) := by
  unfold execBdep
  grind -ring -linarith -lia [State.alu2_canon, Keeps, State.Canon]

theorem execSext_canon {s : State} (h : s.Canon) (d a w) : Keeps (execSext d a w s) := by
  unfold execSext
  grind -ring -linarith -lia [State.alu1_canon, Keeps, State.Canon]

theorem execZext_canon {s : State} (h : s.Canon) (d a w) : Keeps (execZext d a w s) := by
  unfold execZext
  grind -ring -linarith -lia [State.alu1_canon, Keeps, State.Canon]

theorem execAddi_canon {s : State} (h : s.Canon) (d a i) : Keeps (execAddi d a i s) := by
  unfold execAddi
  grind -ring -linarith -lia [State.alu1_canon, Keeps, State.Canon]

theorem execAndi_canon {s : State} (h : s.Canon) (d a i) : Keeps (execAndi d a i s) := by
  unfold execAndi
  grind -ring -linarith -lia [State.alu1_canon, Keeps, State.Canon]

theorem execOri_canon {s : State} (h : s.Canon) (d a i) : Keeps (execOri d a i s) := by
  unfold execOri
  grind -ring -linarith -lia [State.alu1_canon, Keeps, State.Canon]

theorem execXori_canon {s : State} (h : s.Canon) (d a i) : Keeps (execXori d a i s) := by
  unfold execXori
  grind -ring -linarith -lia [State.alu1_canon, Keeps, State.Canon]

theorem execShli_canon {s : State} (h : s.Canon) (d a n) : Keeps (execShli d a n s) := by
  unfold execShli
  grind -ring -linarith -lia [State.alu1_canon, Keeps, State.Canon]

theorem execShri_canon {s : State} (h : s.Canon) (d a n) : Keeps (execShri d a n s) := by
  unfold execShri
  grind -ring -linarith -lia [State.alu1_canon, Keeps, State.Canon]

theorem execSari_canon {s : State} (h : s.Canon) (d a n) : Keeps (execSari d a n s) := by
  unfold execSari
  grind -ring -linarith -lia [State.alu1_canon, Keeps, State.Canon]

theorem execLui_canon {s : State} (h : s.Canon) (d i) : Keeps (execLui d i s) := by
  unfold execLui
  grind -ring -linarith -lia [State.runReg_canon, Keeps, State.Canon]

theorem execSlti_canon {s : State} (h : s.Canon) (d a i) : Keeps (execSlti d a i s) := by
  unfold execSlti
  grind -ring -linarith -lia [State.alu1_canon, Keeps, State.Canon]

theorem State.fop2_canon {s : State} (h : s.Canon) (cost d a b w f) : Keeps (s.fop2 cost d a b w f) := by
  unfold State.fop2
  grind -ring -linarith -lia [State.runReg_canon, Keeps, State.Canon]

theorem execFadd_canon {s : State} (h : s.Canon) (d a b m w) : Keeps (execFadd d a b m w s) := by
  unfold execFadd
  grind -ring -linarith -lia [State.fop2_canon, Keeps, State.Canon]

theorem execFsub_canon {s : State} (h : s.Canon) (d a b m w) : Keeps (execFsub d a b m w s) := by
  unfold execFsub
  grind -ring -linarith -lia [State.fop2_canon, Keeps, State.Canon]

theorem execFmul_canon {s : State} (h : s.Canon) (d a b m w) : Keeps (execFmul d a b m w s) := by
  unfold execFmul
  grind -ring -linarith -lia [State.fop2_canon, Keeps, State.Canon]

theorem execFdiv_canon {s : State} (h : s.Canon) (d a b m w) : Keeps (execFdiv d a b m w s) := by
  unfold execFdiv
  grind -ring -linarith -lia [State.fop2_canon, Keeps, State.Canon]

theorem State.fop1_canon {s : State} (h : s.Canon) (cost d a w f) : Keeps (s.fop1 cost d a w f) := by
  unfold State.fop1
  grind -ring -linarith -lia [State.runReg_canon, Keeps, State.Canon]

theorem execFsqrt_canon {s : State} (h : s.Canon) (d a m w) : Keeps (execFsqrt d a m w s) := by
  unfold execFsqrt
  grind -ring -linarith -lia [State.fop1_canon, Keeps, State.Canon]

theorem execFrsq_canon {s : State} (h : s.Canon) (d a m w) : Keeps (execFrsq d a m w s) := by
  unfold execFrsq
  grind -ring -linarith -lia [State.fop1_canon, Keeps, State.Canon]

theorem execFmin_canon {s : State} (h : s.Canon) (d a b w) : Keeps (execFmin d a b w s) := by
  unfold execFmin
  grind -ring -linarith -lia [State.fop2_canon, Keeps, State.Canon]

theorem execFmax_canon {s : State} (h : s.Canon) (d a b w) : Keeps (execFmax d a b w s) := by
  unfold execFmax
  grind -ring -linarith -lia [State.fop2_canon, Keeps, State.Canon]

theorem execFcvt_canon {s : State} (h : s.Canon) (d a c m w) : Keeps (execFcvt d a c m w s) := by
  unfold execFcvt
  grind -ring -linarith -lia [State.runReg_canon, Keeps, State.Canon]

theorem execFcmpEq_canon {s : State} (h : s.Canon) (d a b w) : Keeps (execFcmpEq d a b w s) := by
  unfold execFcmpEq
  grind -ring -linarith -lia [State.fop2_canon, Keeps, State.Canon]

theorem execFcmpLt_canon {s : State} (h : s.Canon) (d a b w) : Keeps (execFcmpLt d a b w s) := by
  unfold execFcmpLt
  grind -ring -linarith -lia [State.fop2_canon, Keeps, State.Canon]

theorem execFcmpLe_canon {s : State} (h : s.Canon) (d a b w) : Keeps (execFcmpLe d a b w s) := by
  unfold execFcmpLe
  grind -ring -linarith -lia [State.fop2_canon, Keeps, State.Canon]

theorem execFcmpUn_canon {s : State} (h : s.Canon) (d a b w) : Keeps (execFcmpUn d a b w s) := by
  unfold execFcmpUn
  grind -ring -linarith -lia [State.fop2_canon, Keeps, State.Canon]

theorem execFclass_canon {s : State} (h : s.Canon) (d a w) : Keeps (execFclass d a w s) := by
  unfold execFclass
  grind -ring -linarith -lia [State.fop1_canon, Keeps, State.Canon]

theorem execFma_canon {s : State} (h : s.Canon) (d a b m w) : Keeps (execFma d a b m w s) := by
  unfold execFma
  grind -ring -linarith -lia [State.runReg_canon, Keeps, State.Canon]

theorem execMfs_canon {s : State} (h : s.Canon) (d n) : Keeps (execMfs d n s) := State.runTask_canon h _ _ fun _ _ hu => hu
theorem execMts_canon {s : State} (h : s.Canon) (a n) : Keeps (execMts a n s) := by
  unfold execMts
  grind -ring -linarith -lia [State.runReg_canon, Keeps, State.Canon]

theorem State.withAddr_canon {s : State} (h : s.Canon) (t sp ea size acc lane k) (hk : ∀ u v w, u.Canon → (k u v w).Canon) : (s.withAddr t sp ea size acc lane k).Canon := by
  unfold State.withAddr
  grind -ring -linarith -lia [State.usePort_canon, Body.Canon, State.Canon]

theorem State.setDie_canon {s : State} (h : s.Canon) (d x) : (s.setDie d x).Canon := h
theorem State.modDie_canon {s : State} (h : s.Canon) (d f) : (s.modDie d f).Canon := h
theorem State.demandTake_canon {s : State} (h : s.Canon) (die k g w e dirty) : (s.demandTake die k g w e dirty).Canon := h
theorem State.llcRead_canon {s : State} (h : s.Canon) (p node key) : (s.llcRead p node key).Canon := by
  unfold State.llcRead
  grind -ring -linarith -lia [State.Canon]

theorem State.setBank_canon {s : State} (h : s.Canon) (b x) : (s.setBank b x).Canon := h
theorem State.countDie_canon {s : State} (h : s.Canon) (d ev n vf) : (s.countDie d ev n vf).Canon := by
  unfold State.countDie
  grind -ring -linarith -lia [State.setBank_canon, State.Canon]

theorem State.request_canon {s : State} (h : s.Canon) (die home vf) : (s.request die home vf).Canon := by
  unfold State.request
  grind -ring -linarith -lia [State.modDie_canon, State.countDie_canon, State.Canon]

theorem State.fetchGranule_canon {s : State} (h : s.Canon) (die cx va key) : (s.fetchGranule die cx va key).Canon := by
  unfold State.fetchGranule
  grind -ring -linarith -lia [State.llcRead_canon, State.request_canon, State.Canon]

theorem State.readGranule_canon {s : State} (h : s.Canon) (die cx va key) : (s.readGranule die cx va key).Canon := by
  unfold State.readGranule
  grind -ring -linarith -lia [State.modDie_canon, State.demandTake_canon, State.fetchGranule_canon, State.setDie_canon, State.Canon]

theorem State.readVia_canon {s : State} (h : s.Canon) (die cx va ks) : (s.readVia die cx va ks).Canon := by
  unfold State.readVia
  grind -ring -linarith -lia [State.readGranule_canon, foldl_canon, State.Canon]

theorem State.readable_canon {s : State} (h : s.Canon) (k n ea go) (hgo : go.Canon) : (s.readable k n ea go).Canon := by
  unfold State.readable
  grind -ring -linarith -lia [Body.Canon, State.Canon]

theorem State.saw_canon {s : State} (h : s.Canon) (row k n) : (s.saw row k n).Canon := h
theorem State.load_canon {s : State} (h : s.Canon) (t sp ea size lane k) (hk : ∀ u v w, u.Canon → (k u v w).Canon) : (s.load t sp ea size lane k).Canon := by
  unfold State.load
  grind -ring -linarith -lia [State.withAddr_canon, State.readVia_canon, State.readable_canon, State.saw_canon, Body.Canon, State.Canon]

theorem execLd_canon {s : State} (h : s.Canon) (x b sp w o) : Keeps (execLd x b sp w o s) := by
  unfold execLd
  grind -ring -linarith -lia [State.runTask_canon, State.load_canon, Body.Canon, Keeps, State.Canon]

theorem staged_canon {s : State} (h : s.Canon) (t) : (staged s t).Canon := by
  unfold staged
  grind -ring -linarith -lia [Body.Canon, State.Canon]

theorem State.stage_canon {s : State} (h : s.Canon) (t sp ea size lane v) : (s.stage t sp ea size lane v).Canon := by
  unfold State.stage
  grind -ring -linarith -lia [State.withAddr_canon, staged_canon, Body.Canon, State.Canon]

theorem execSt_canon {s : State} (h : s.Canon) (x b sp w o) : Keeps (execSt x b sp w o s) := by
  unfold execSt
  grind -ring -linarith -lia [State.runTask_canon, State.stage_canon, Body.Canon, Keeps, State.Canon]

/-- A body of a vector access that fails carries no state. -/
theorem State.xlLanes_bad (s : State) (t acc as l) : ∀ b, s.xlLanes t acc as l = .inr b → b.Canon := by
  induction l generalizing s with
  | nil => intro b hb; cases hb
  | cons a r ih => grind -ring -linarith -lia [State.xlLanes, Body.Canon]

theorem State.xlLanes_canon {s : State} (h : s.Canon) (t acc as l) : ∀ x, s.xlLanes t acc as l = .inl x → x.1.Canon := by
  induction l generalizing s with
  | nil => intro x hx; cases hx; exact h
  | cons a r ih => grind -ring -linarith -lia [State.xlLanes, State.usePort_canon]

theorem State.memElems_canon {s : State} (h : s.Canon) (t ea acc addr) : (s.memElems t ea acc addr).Canon := by
  unfold State.memElems
  dsimp only
  split
  next e _ =>
    split
    · trivial
    · split
      next heq => exact State.xlLanes_bad _ _ _ _ _ _ heq
      next x heq =>
        split
        · trivial
        · exact State.xlLanes_canon (State.usePort_canon h ..) _ _ _ _ _ heq
  · trivial
  · trivial

theorem State.elems_canon {s : State} (h : s.Canon) (t sp ea acc addr) : (s.elems t sp ea acc addr).Canon := by
  unfold State.elems
  split
  · trivial
  · split
    · split
      · exact State.memElems_canon h ..
      · trivial
    · split
      · trivial
      · split
        · trivial
        · exact h

theorem State.loadElems_canon {s : State} (h : s.Canon) (t x es g fmt) : (s.loadElems t x es g fmt).Canon := by
  unfold State.loadElems
  grind -ring -linarith -lia [State.saw_canon, State.readVia_canon, foldl_canon, Body.Canon, State.Canon]

theorem execVld_canon {s : State} (h : s.Canon) (x b sp o) : Keeps (execVld x b sp o s) := by
  unfold execVld
  grind -ring -linarith -lia [State.runTask_canon, State.elems_canon, State.loadElems_canon, Body.Canon, Elems.Canon, Keeps, State.Canon]

theorem execVgld_canon {s : State} (h : s.Canon) (x b sp o) : Keeps (execVgld x b sp o s) := by
  unfold execVgld
  grind -ring -linarith -lia [State.runTask_canon, State.elems_canon, State.loadElems_canon, Body.Canon, Elems.Canon, Keeps, State.Canon]

theorem execVst_canon {s : State} (h : s.Canon) (x b sp o) : Keeps (execVst x b sp o s) := by
  unfold execVst
  grind -ring -linarith -lia [State.runTask_canon, State.elems_canon, staged_canon, foldl_canon, Body.Canon, Elems.Canon, Keeps, State.Canon]

theorem State.loadSlices_canon {s : State} (h : s.Canon) (t x a) : (s.loadSlices t x a).Canon := by
  unfold State.loadSlices
  grind -ring -linarith -lia [State.loadElems_canon, Body.Canon, State.Canon]

theorem execVlds_canon {s : State} (h : s.Canon) (x b o) : Keeps (execVlds x b o s) := by
  unfold execVlds
  grind -ring -linarith -lia [State.runTask_canon, State.loadSlices_canon, Body.Canon, Keeps, State.Canon]

theorem execVldsIx_canon {s : State} (h : s.Canon) (x b o) : Keeps (execVldsIx x b o s) := by
  unfold execVldsIx
  grind -ring -linarith -lia [State.runTask_canon, State.loadSlices_canon, Body.Canon, Keeps, State.Canon]

theorem execVsts_canon {s : State} (h : s.Canon) (x b o) : Keeps (execVsts x b o s) := by
  unfold execVsts
  grind -ring -linarith -lia [State.runTask_canon, staged_canon, Body.Canon, Keeps, State.Canon]

theorem State.vecOp_canon {s : State} (h : s.Canon) (cost d k f) : Keeps (s.vecOp cost d k f) := by
  unfold State.vecOp
  grind -ring -linarith -lia [State.runReg_canon, Keeps, State.Canon]

theorem execLutx_canon {s : State} (h : s.Canon) (d a b k) : Keeps (execLutx d a b k s) := by
  unfold execLutx
  grind -ring -linarith -lia [State.vecOp_canon, Keeps, State.Canon]

theorem execLutld_canon {s : State} (h : s.Canon) (a) : Keeps (execLutld a s) := by
  refine State.runTask_canon h _ _ fun u t hu => ?_
  extract_lets ea k reads
  clear_value reads
  generalize ((List.range 9).map fun j => k / 256 + j) = l
  clear_value k
  generalize 2 ^ 23 = n1
  clear_value ea
  split
  · trivial
  split
  · trivial
  split
  · trivial
  split
  · trivial
  · exact State.saw_canon hu ..

theorem State.branch_canon {s : State} (h : s.Canon) (d c) : Keeps (s.branch d c) := by
  unfold State.branch
  grind -ring -linarith -lia [State.runReg_canon, Keeps, State.Canon]

theorem execBeq_canon {s : State} (h : s.Canon) (a b d) : Keeps (execBeq a b d s) := by
  unfold execBeq
  grind -ring -linarith -lia [State.branch_canon, Keeps, State.Canon]

theorem execBne_canon {s : State} (h : s.Canon) (a b d) : Keeps (execBne a b d s) := by
  unfold execBne
  grind -ring -linarith -lia [State.branch_canon, Keeps, State.Canon]

theorem execBlt_canon {s : State} (h : s.Canon) (a b d) : Keeps (execBlt a b d s) := by
  unfold execBlt
  grind -ring -linarith -lia [State.branch_canon, Keeps, State.Canon]

theorem execBge_canon {s : State} (h : s.Canon) (a b d) : Keeps (execBge a b d s) := by
  unfold execBge
  grind -ring -linarith -lia [State.branch_canon, Keeps, State.Canon]

theorem execBltn_canon {s : State} (h : s.Canon) (a b d) : Keeps (execBltn a b d s) := by
  unfold execBltn
  grind -ring -linarith -lia [State.branch_canon, Keeps, State.Canon]

theorem execBgen_canon {s : State} (h : s.Canon) (a b d) : Keeps (execBgen a b d s) := by
  unfold execBgen
  grind -ring -linarith -lia [State.branch_canon, Keeps, State.Canon]

theorem execBdnz_canon {s : State} (h : s.Canon) (a d) : Keeps (execBdnz a d s) := by
  unfold execBdnz
  grind -ring -linarith -lia [State.runReg_canon, Keeps, State.Canon]

theorem execJal_canon {s : State} (h : s.Canon) (d) : Keeps (execJal d s) := by
  unfold execJal
  grind -ring -linarith -lia [State.runReg_canon, Keeps, State.Canon]

theorem execJalr_canon {s : State} (h : s.Canon) (d a i) : Keeps (execJalr d a i s) := State.runTask_canon h _ _ fun u t hu => by
  dsimp only
  split <;> grind -ring -linarith -lia [Body.Canon]

theorem execCharge_canon {s : State} (h : s.Canon) (d a n) : Keeps (execCharge d a n s) := State.runTask_canon h _ _ fun u t hu => by
  dsimp only
  split
  · exact hu
  · exact State.tally_canon (State.modPart_canon hu ..) ..

theorem execMcs_canon {s : State} (h : s.Canon) (d k) : Keeps (execMcs d k s) := State.runTask_canon h _ _ fun u t hu => by
  dsimp only [Body.Canon]
  split <;> exact hu

theorem State.inChan_canon {s : State} (h : s.Canon) (t hd k n acc go) (hgo : go.Canon) : (s.inChan t hd k n acc go).Canon := by
  unfold State.inChan
  grind -ring -linarith -lia [Body.Canon, State.Canon]

theorem execCrd_canon {s : State} (h : s.Canon) (d a h o) : Keeps (execCrd d a h o s) := by
  unfold execCrd
  grind -ring -linarith -lia [State.runTask_canon, State.inChan_canon, State.readable_canon, State.saw_canon, Body.Canon, Keeps, State.Canon]

theorem execCrdt_canon {s : State} (h : s.Canon) (d a h o) : Keeps (execCrdt d a h o s) := by
  unfold execCrdt
  grind -ring -linarith -lia [State.runTask_canon, State.inChan_canon, State.readable_canon, State.saw_canon, Body.Canon, Keeps, State.Canon]

theorem execCwr_canon {s : State} (h : s.Canon) (d a h o) : Keeps (execCwr d a h o s) := by
  unfold execCwr
  grind -ring -linarith -lia [State.runTask_canon, State.inChan_canon, staged_canon, Body.Canon, Keeps, State.Canon]

theorem execCwrt_canon {s : State} (h : s.Canon) (tag a h o) : Keeps (execCwrt tag a h o s) := by
  unfold execCwrt
  grind -ring -linarith -lia [State.runTask_canon, State.inChan_canon, staged_canon, Body.Canon, Keeps, State.Canon]

theorem stageAdv_canon  (t h out n x4 x5) (hx4 : x4.Canon) (hx5 : ∀ u, (x5 u).Canon) : (stageAdv t h out n x4 x5).Canon := by
  unfold stageAdv
  grind -ring -linarith -lia [Body.Canon, State.Canon]

theorem State.runAdv_canon {s : State} (h : s.Canon) (a h o out) : Keeps (s.runAdv a h o out) := by
  unfold State.runAdv
  grind -ring -linarith -lia [State.runTask_canon, stageAdv_canon, State.inChan_canon, Body.Canon, Keeps, State.Canon]

theorem execAdvR_canon {s : State} (h : s.Canon) (a h o) : Keeps (execAdvR a h o s) := by
  unfold execAdvR
  grind -ring -linarith -lia [State.runAdv_canon, Keeps, State.Canon]

theorem execAdvW_canon {s : State} (h : s.Canon) (a h o) : Keeps (execAdvW a h o s) := by
  unfold execAdvW
  grind -ring -linarith -lia [State.runAdv_canon, Keeps, State.Canon]

theorem execEmit_canon {s : State} (h : s.Canon) (a q) : Keeps (execEmit a q s) := by
  unfold execEmit
  grind -ring -linarith -lia [State.runTask_canon, staged_canon, Body.Canon, Keeps, State.Canon]

theorem State.atStep_canon {s : State} (h : s.Canon) (r k f) (hf : ∀ u v, (f u v).Canon) : (s.atStep r k f).Canon := by
  unfold State.atStep
  grind -ring -linarith -lia [State.Canon]

theorem State.doWords_canon {s : State} (h : s.Canon) (t i h) : (s.doWords t i h).Canon := by
  unfold State.doWords
  grind -ring -linarith -lia [State.setTag_canon, State.writeN_canon, foldl_canon, State.Canon]

theorem State.doHandle_canon {s : State} (h : s.Canon) (t i h) : (s.doHandle t i h).Canon := by
  unfold State.doHandle
  grind -ring -linarith -lia [State.doWords_canon, State.setTag_canon, State.advance_canon, foldl_canon, State.Canon]

theorem State.doChannels_canon {s : State} (h : s.Canon) (t) : (s.doChannels t).Canon := by
  unfold State.doChannels
  grind -ring -linarith -lia [State.fault_canon, State.doHandle_canon, foldl_canon, State.Canon]

theorem State.atomic_canon {s : State} (h : s.Canon) (key size op v) : (s.atomic key size op v).2.Canon := by
  unfold State.atomic
  grind -ring -linarith -lia [State.writeN_canon, State.Canon]

theorem State.writeGranule_canon {s : State} (h : s.Canon) (die cx key) : (s.writeGranule die cx key).Canon := by
  unfold State.writeGranule
  grind -ring -linarith -lia [State.modDie_canon, State.usePort_canon, State.setDie_canon, State.demandTake_canon, State.Canon]

theorem State.taskAtomic_canon {s : State} (h : s.Canon) (t key size op v va) : (s.taskAtomic t key size op v va).2.Canon := by
  unfold State.taskAtomic
  grind -ring -linarith -lia [State.fault_canon, State.atomic_canon, State.writeGranule_canon, State.Canon]

theorem State.doAtomics_canon {s : State} (h : s.Canon) (t) : (s.doAtomics t).Canon := by
  unfold State.doAtomics
  grind -ring -linarith -lia [State.taskAtomic_canon, foldl_canon, State.Canon]

theorem State.writeVia_canon {s : State} (h : s.Canon) (die cx va ks) : (s.writeVia die cx va ks).Canon := by
  unfold State.writeVia
  grind -ring -linarith -lia [State.writeGranule_canon, foldl_canon, State.Canon]

theorem State.writeCells_canon {s : State} (h : s.Canon) (cs) : (s.writeCells cs).Canon := by
  unfold State.writeCells
  grind -ring -linarith -lia [State.write_canon, foldl_canon, State.Canon]

theorem State.doStores_canon {s : State} (h : s.Canon) (t) : (s.doStores t).Canon := by
  unfold State.doStores
  grind -ring -linarith -lia [State.writeVia_canon, State.writeCells_canon, foldl_canon, State.Canon]

theorem State.commitStart_canon {s : State} (h : s.Canon) (t c) : (s.commitStart t c).Canon := by
  unfold State.commitStart
  grind -ring -linarith -lia [State.setTask_canon, State.fault_canon, State.doChannels_canon, State.doAtomics_canon, State.doStores_canon, State.Canon]

theorem State.tlbi_canon {s : State} (h : s.Canon) (cx kind s2 va) : (s.tlbi cx kind s2 va).Canon := h
theorem State.doItems_canon {s : State} (h : s.Canon) (t l ys) : (s.doItems t l ys).1.Canon := by
  induction l generalizing s ys with
  | nil => exact h
  | cons e r ih => cases e <;> unfold State.doItems <;> grind -ring -linarith -lia [State.append_canon, State.tlbi_canon]

theorem State.commitItems_canon {s : State} (h : s.Canon) (t c) : (s.commitItems t c).Canon := by
  unfold State.commitItems
  grind -ring -linarith -lia [State.doItems_canon, State.setTask_canon, State.Canon]

theorem State.commitAmo_canon {s : State} (h : s.Canon) (t c) : ∀ e, s.commitAmo t c = some e → e.2.Canon := by
  unfold State.commitAmo
  grind -ring -linarith -lia [State.fault_canon, State.taskAtomic_canon, State.Canon]

theorem State.podSend_canon {s : State} (h : s.Canon) (dest vc p) : (s.podSend dest vc p).Canon := h
theorem State.podSendAll_canon {s : State} (h : s.Canon) (dests vc p) : (s.podSendAll dests vc p).Canon := by
  unfold State.podSendAll
  grind -ring -linarith -lia [State.podSend_canon, foldl_canon, State.Canon]

theorem State.podArrive_canon {s : State} (h : s.Canon) (t c last) : (s.podArrive t c last).Canon := by
  unfold State.podArrive
  grind -ring -linarith -lia [State.podSendAll_canon, State.Canon]

theorem State.poolRose_canon {s : State} (h : s.Canon) (p old) : (s.poolRose p old).Canon := by
  unfold State.poolRose
  grind -ring -linarith -lia [State.undefer_canon, State.Canon]

theorem State.payDue_canon {s : State} (h : s.Canon) (p) : (s.payDue p).Canon := by
  unfold State.payDue
  grind -ring -linarith -lia [State.debit_canon, State.modCtx_canon, State.tally_canon, foldl_canon, State.Canon]

theorem State.credit_canon {s : State} (h : s.Canon) (p n) : (s.credit p n).Canon := by
  unfold State.credit
  grind -ring -linarith -lia [State.modPart_canon, State.poolRose_canon, State.payDue_canon, State.Canon]

theorem State.commitActNow_canon {s : State} (h : s.Canon) (t c old) : (s.commitActNow t c old).Canon := by
  unfold State.commitActNow
  grind -ring -linarith -lia [State.modCtx_canon, State.podArrive_canon, State.tally_canon, State.credit_canon, State.setTask_canon, State.Canon]

theorem State.commitAct_canon {s : State} (h : s.Canon) (t c) : (s.commitAct t c).Canon := by
  unfold State.commitAct
  split
  · exact State.setTask_canon h ..
  · split
    · exact State.setTask_canon h ..
    next heq => exact State.commitActNow_canon (State.commitAmo_canon h _ _ _ heq) ..

theorem State.badSuccs_canon {s : State} (h : s.Canon) (t bad left) : (s.badSuccs t bad left).Canon := by
  unfold State.badSuccs
  grind -ring -linarith -lia [State.fault_canon, foldl_canon, State.Canon]

theorem State.unhold_canon {s : State} (h : s.Canon) (cx b) : (s.unhold cx b).Canon := by
  unfold State.unhold
  grind -ring -linarith -lia [State.unbind_canon, State.Canon]

theorem State.enqueue_canon {s : State} (h : s.Canon) (cx addr b o span) : (s.enqueue cx addr b o span).Canon := by
  unfold State.enqueue
  dsimp only
  split
  · exact h
  · split
    · exact h
    · split
      · exact h
      · split
        · exact h
        · split
          · exact h
          · split
            case h_4 ks v heq =>
              have hv : v.Canon := by grind -ring -linarith -lia [State.reach_canon, Reach.Canon]
              refine State.retireHead_canon ?_ ..
              split
              · exact State.modCtx_canon (State.writeN_canon hv ..) ..
              · exact State.writeHead_canon (State.modCtx_canon (State.writeN_canon hv ..) ..) ..
            all_goals grind -ring -linarith -lia [State.reach_canon, Reach.Canon, Enq.Canon]

theorem State.pendRead_canon {s : State} (h : s.Canon) (cx va acc stage level who) : (s.pendRead cx va acc stage level who).Canon := h
theorem State.copySucc_canon {s : State} (h : s.Canon) (t k w b) : (s.copySucc t k w b).Canon := by
  unfold State.copySucc
  grind -ring -linarith -lia [State.enqueue_canon, State.pendRead_canon, State.unhold_canon, Enq.Canon, Succ.Canon, State.Canon]

theorem LR.bind_canon {α β : Type} {r : LR α} {f : α → State → LR β} (hr : r.Canon) (hf : ∀ a s, s.Canon → (f a s).Canon) : (r.bind f).Canon := by
  cases r with
  | ok a s => exact hf a s hr
  | _ => exact hr

theorem State.devReadAt_canon {s : State} (h : s.Canon) (die cx va n) : (s.devReadAt die cx va n).Canon := by
  unfold State.devReadAt
  grind -ring -linarith -lia [State.reach_canon, LR.Canon, Reach.Canon, State.Canon]

theorem State.readRows_canon {s : State} (h : s.Canon) (die cx w n) : (s.readRows die cx w n).Canon := by
  induction n with
  | zero => exact h
  | succ n ih =>
    refine LR.bind_canon ih fun rows u hu => ?_
    split
    · exact hu
    · refine LR.bind_canon (State.devReadAt_canon hu ..) fun row v hv => ?_
      split <;> exact hv

theorem State.xlate_canon {s : State} (h : s.Canon) (port cx va acc) : (s.xlate port cx va acc).2.Canon := by
  unfold State.xlate
  grind -ring -linarith -lia [State.xlateOf_canon, State.Canon]

theorem State.readRest_canon {s : State} (h : s.Canon) (die cx w) : (s.readRest die cx w).Canon := by
  unfold State.readRest
  grind -ring -linarith -lia [LR.bind_canon, State.devReadAt_canon, State.readRows_canon, State.xlate_canon, LR.Canon, State.Canon]

theorem State.readBlock_canon {s : State} (h : s.Canon) (die cx addr edit mayArm) : (s.readBlock die cx addr edit mayArm).Canon := by
  unfold State.readBlock
  grind -ring -linarith -lia [LR.bind_canon, State.devReadAt_canon, State.readRest_canon, LR.Canon, State.Canon]

theorem State.bindAll_canon {s : State} (h : s.Canon) (cs) : (s.bindAll cs).Canon := by
  unfold State.bindAll
  grind -ring -linarith -lia [State.setBind_canon, foldl_canon, State.Canon]

theorem State.arm_canon {s : State} (h : s.Canon) (cx addr b o) : (s.arm cx addr b o).Canon := by
  unfold State.arm
  grind -ring -linarith -lia [State.bindAll_canon, State.modCtx_canon, State.Canon]

theorem State.oneSucc_canon {s : State} (h : s.Canon) (t c k w) : (s.oneSucc t c k w).Canon := by
  unfold State.oneSucc
  grind -ring -linarith -lia [State.copySucc_canon, State.readBlock_canon, State.pendRead_canon, State.arm_canon, State.bindAll_canon, LR.Canon, Succ.Canon, State.Canon]

theorem State.doSuccs_canon {s : State} (h : s.Canon) (t c l bad) : (s.doSuccs t c l bad).1.Canon := by
  induction l generalizing s c bad with
  | nil => exact h
  | cons e r ih =>
    unfold State.doSuccs
    grind -ring -linarith -lia [State.oneSucc_canon, State.badSuccs_canon, State.fault_canon, Succ.Canon]

theorem State.commitSuccs_canon {s : State} (h : s.Canon) (t c) : (s.commitSuccs t c).Canon := by
  unfold State.commitSuccs
  grind -ring -linarith -lia [State.setTask_canon, State.badSuccs_canon, State.unhold_canon, State.doSuccs_canon, State.Canon]

theorem State.frontGo_canon {s : State} (h : s.Canon) (cx q) : (s.frontGo cx q).Canon := by
  unfold State.frontGo
  grind -ring -linarith -lia [State.frontCore_canon, State.Canon]

theorem outTokens_canon {s : State} (h : s.Canon) (p : Pipe) (ok logn rcnt out : Nat) :
    (((List.range out).foldl (fun s t => s.writeN (padKey p.core (p.outbuf + 4 * (p.outw + t))) 4 (getN s.mem (slotKey ok logn 4 (rcnt + t)) 4)) s).advance ok false (out + 1)).Canon :=
  State.advance_canon (foldl_canon (fun _ _ hu => State.writeN_canon hu ..) _ h) ..
theorem State.markers_canon {s : State} (h : s.Canon) (cx q pos) : (s.markers cx q pos).Canon := by
  unfold State.markers
  split
  · exact h
  next p _ =>
    split
    · exact h
    next hd _ =>
      extract_lets i ik u1 u2 ok out
      have h1 : u1.Canon := State.advance_canon h ..
      have h2 : u2.Canon := by
        unfold u2
        split
        · exact State.advance_canon h1 ..
        · exact h1
      clear_value u2
      split
      next ih _ _ =>
        extract_lets eop u3 u4 u5 p1
        have h3 : u3.Canon := State.ringPut_canon h2 ..
        have h4 : u4.Canon := by
          unfold u4
          split
          · exact h3
          · exact State.ringPut_canon h3 ..
        clear_value u4
        have h5 : u5.Canon := by
          unfold u5
          split
          · exact h4
          · split
            · exact State.fault_canon h4 ..
            · split
              · exact outTokens_canon h4 ..
              · exact h4
        clear_value u5 p1
        exact State.frontGo_canon (State.setPipe_canon h5 ..) ..
      · exact State.fault_canon h ..

theorem State.findWait_canon {s : State} (h : s.Canon) (cx a w) : (s.findWait cx a w).Canon := by
  unfold State.findWait
  grind -ring -linarith -lia [State.xlate_canon, State.fault_canon, State.modCtx_canon, State.pendRead_canon, State.Canon]

theorem State.rearm_canon {s : State} (h : s.Canon) (cx id) : (s.rearm cx id).Canon := by
  unfold State.rearm
  grind -ring -linarith -lia [State.findWait_canon, State.modCtx_canon, State.Canon]

theorem State.cutGo_canon {s : State} (h : s.Canon) (cx q) : (s.cutGo cx q).Canon := by
  unfold State.cutGo
  grind -ring -linarith -lia [State.fault_canon, State.setPipe_canon, State.ringPut_canon, State.frontGo_canon, foldl_canon, State.Canon]

theorem State.unclaim_canon {s : State} (h : s.Canon) (row) : (s.unclaim row).Canon := h
theorem State.capture_canon {s : State} (h : s.Canon) (core) : (s.capture core).Canon := by
  unfold State.capture
  grind -ring -linarith -lia [State.setBank_canon, State.Canon]

theorem State.endScrolls_canon {s : State} (h : s.Canon) (core hs) : (s.endScrolls core hs).Canon := by
  unfold State.endScrolls
  grind -ring -linarith -lia [State.capture_canon, foldl_canon, State.Canon]

theorem State.parkGo_canon {s : State} (h : s.Canon) (cx q) : (s.parkGo cx q).Canon := by
  unfold State.parkGo
  grind -ring -linarith -lia [State.frontGo_canon, State.unclaim_canon, State.setPipe_canon, State.endScrolls_canon, foldl_canon, State.Canon]

theorem State.commitEnd_canon {s : State} (h : s.Canon) (t c) : (s.commitEnd t c).Canon := by
  unfold State.commitEnd
  grind -ring -linarith -lia [State.markers_canon, State.fault_canon, State.releaseHandles_canon, State.freeRowGo_canon, State.memberEnded_canon, State.disarm_canon, State.rearm_canon, State.ended_canon, State.cutGo_canon, State.parkGo_canon, State.Canon]

theorem State.commitGo_canon {s : State} (h : s.Canon) (r) : (s.commitGo r).Canon := by
  unfold State.commitGo
  grind -ring -linarith -lia [State.atStep_canon, State.commitStart_canon, State.commitItems_canon, State.commitAct_canon, State.commitSuccs_canon, State.commitEnd_canon, State.Canon]

theorem exitDone_canon {s : State} (h : s.Canon) (t) : (exitDone s t).Canon := by
  unfold exitDone
  grind -ring -linarith -lia [State.finishStop_canon, State.commitGo_canon, State.setTask_canon, State.Canon]

theorem State.runExit_canon {s : State} (h : s.Canon) (body) (hbody : ∀ u v, u.Canon → (body u v).Canon) : Keeps (s.runExit body) := by
  unfold State.runExit
  grind -ring -linarith -lia [State.onRow_canon, State.issue_canon, exitDone_canon, Body.Canon, Keeps, State.Canon]

theorem execExit_canon {s : State} (h : s.Canon) (n f) : Keeps (execExit n f s) := State.runExit_canon h _ fun u t hu => by
  dsimp only
  split
  · trivial
  · exact hu

theorem execXwait_canon {s : State} (h : s.Canon) (b a v c) : Keeps (execXwait b a v c s) := by
  unfold execXwait
  grind -ring -linarith -lia [State.runExit_canon, State.withAddr_canon, Body.Canon, Keeps, State.Canon]

theorem execXbar_canon {s : State} (h : s.Canon) (c b n) : Keeps (execXbar c b n s) := State.runExit_canon h _ fun u t hu => by
  split
  · trivial
  · exact hu

theorem execXamo_canon {s : State} (h : s.Canon) (b a v o w) : Keeps (execXamo b a v o w s) := by
  unfold execXamo
  grind -ring -linarith -lia [State.runExit_canon, State.withAddr_canon, Body.Canon, Keeps, State.Canon]

theorem execXstop_canon {s : State} (h : s.Canon) : Keeps (execXstop s) := State.runExit_canon h _ fun u t hu => by
  split
  · trivial
  · exact hu

theorem State.runAtomic_canon {s : State} (h : s.Canon) (sp a b w op) : Keeps (s.runAtomic sp a b w op) := by
  unfold State.runAtomic
  grind -ring -linarith -lia [State.runTask_canon, State.withAddr_canon, staged_canon, Body.Canon, Keeps, State.Canon]

theorem execSadd_canon {s : State} (h : s.Canon) (sp a b w) : Keeps (execSadd sp a b w s) := by
  unfold execSadd
  grind -ring -linarith -lia [State.runAtomic_canon, Keeps, State.Canon]

theorem execSmin_canon {s : State} (h : s.Canon) (sp a b w) : Keeps (execSmin sp a b w s) := by
  unfold execSmin
  grind -ring -linarith -lia [State.runAtomic_canon, Keeps, State.Canon]

theorem execSmax_canon {s : State} (h : s.Canon) (sp a b w) : Keeps (execSmax sp a b w s) := by
  unfold execSmax
  grind -ring -linarith -lia [State.runAtomic_canon, Keeps, State.Canon]

theorem execSor_canon {s : State} (h : s.Canon) (sp a b w) : Keeps (execSor sp a b w s) := by
  unfold execSor
  grind -ring -linarith -lia [State.runAtomic_canon, Keeps, State.Canon]

theorem execSand_canon {s : State} (h : s.Canon) (sp a b w) : Keeps (execSand sp a b w s) := by
  unfold execSand
  grind -ring -linarith -lia [State.runAtomic_canon, Keeps, State.Canon]

theorem execSfadd_canon {s : State} (h : s.Canon) (sp a b) : Keeps (execSfadd sp a b s) := by
  unfold execSfadd
  grind -ring -linarith -lia [State.runAtomic_canon, Keeps, State.Canon]

theorem execFenceAcq_canon {s : State} (h : s.Canon) (c) : Keeps (execFenceAcq c s) := State.onRow_canon h _ fun t => by
  split
  · exact h
  · exact State.issue_canon h _ _ _ _ (fun _ _ hu => hu) fun _ _ hu => retire_canon hu _

theorem State.runPriv_canon {s : State} (h : s.Canon) (body) (hbody : ∀ u v, u.Canon → (body u v).Canon) : Keeps (s.runPriv body) := by
  unfold State.runPriv
  grind -ring -linarith -lia [State.onRow_canon, State.issue_canon, retire_canon, State.stopTask_canon, Body.Canon, Keeps, State.Canon]

theorem State.runTlbi_canon {s : State} (h : s.Canon) (kind s2 va) : Keeps (s.runTlbi kind s2 va) := by
  unfold State.runTlbi
  grind -ring -linarith -lia [State.runPriv_canon, staged_canon, Body.Canon, Keeps, State.Canon]

theorem execTlbiPage_canon {s : State} (h : s.Canon) (a s2) : Keeps (execTlbiPage a s2 s) := State.runTlbi_canon h ..
theorem execTlbiCtx_canon {s : State} (h : s.Canon) (s2) : Keeps (execTlbiCtx s2 s) := by
  unfold execTlbiCtx
  grind -ring -linarith -lia [State.runTlbi_canon, Keeps, State.Canon]

theorem execTlbiPart_canon {s : State} (h : s.Canon) (s2) : Keeps (execTlbiPart s2 s) := by
  unfold execTlbiPart
  grind -ring -linarith -lia [State.runTlbi_canon, Keeps, State.Canon]

theorem execPtsync_canon {s : State} (h : s.Canon) : Keeps (execPtsync s) := by
  unfold execPtsync
  grind -ring -linarith -lia [State.runPriv_canon, staged_canon, Body.Canon, Keeps, State.Canon]

theorem execTrap_canon {s : State} (h : s.Canon) (_c) : Keeps (execTrap _c s) := State.runTask_canon h _ _ fun _ _ _ => trivial
theorem execBrk_canon {s : State} (h : s.Canon) : Keeps (execBrk s) := State.runTask_canon h _ _ fun u t hu => by
  split
  · exact hu
  · trivial

theorem State.vint_canon {s : State} (h : s.Canon) (d a b k ty f) : Keeps (s.vint d a b k ty f) := by
  unfold State.vint
  grind -ring -linarith -lia [State.vecOp_canon, Keeps, State.Canon]

theorem execVadd_canon {s : State} (h : s.Canon) (d a b k ty) : Keeps (execVadd d a b k ty s) := by
  unfold execVadd
  grind -ring -linarith -lia [State.vint_canon, Keeps, State.Canon]

theorem execVsub_canon {s : State} (h : s.Canon) (d a b k ty) : Keeps (execVsub d a b k ty s) := by
  unfold execVsub
  grind -ring -linarith -lia [State.vint_canon, Keeps, State.Canon]

theorem execVmul_canon {s : State} (h : s.Canon) (d a b k ty) : Keeps (execVmul d a b k ty s) := by
  unfold execVmul
  grind -ring -linarith -lia [State.vint_canon, Keeps, State.Canon]

theorem execVmulh_canon {s : State} (h : s.Canon) (d a b k ty) : Keeps (execVmulh d a b k ty s) := by
  unfold execVmulh
  grind -ring -linarith -lia [State.vint_canon, Keeps, State.Canon]

theorem execVadds_canon {s : State} (h : s.Canon) (d a b k ty) : Keeps (execVadds d a b k ty s) := by
  unfold execVadds
  grind -ring -linarith -lia [State.vint_canon, Keeps, State.Canon]

theorem execVsubs_canon {s : State} (h : s.Canon) (d a b k ty) : Keeps (execVsubs d a b k ty s) := by
  unfold execVsubs
  grind -ring -linarith -lia [State.vint_canon, Keeps, State.Canon]

theorem execVmin_canon {s : State} (h : s.Canon) (d a b k ty) : Keeps (execVmin d a b k ty s) := by
  unfold execVmin
  grind -ring -linarith -lia [State.vint_canon, Keeps, State.Canon]

theorem execVmax_canon {s : State} (h : s.Canon) (d a b k ty) : Keeps (execVmax d a b k ty s) := by
  unfold execVmax
  grind -ring -linarith -lia [State.vint_canon, Keeps, State.Canon]

theorem execVand_canon {s : State} (h : s.Canon) (d a b k ty) : Keeps (execVand d a b k ty s) := by
  unfold execVand
  grind -ring -linarith -lia [State.vint_canon, Keeps, State.Canon]

theorem execVor_canon {s : State} (h : s.Canon) (d a b k ty) : Keeps (execVor d a b k ty s) := by
  unfold execVor
  grind -ring -linarith -lia [State.vint_canon, Keeps, State.Canon]

theorem execVxor_canon {s : State} (h : s.Canon) (d a b k ty) : Keeps (execVxor d a b k ty s) := by
  unfold execVxor
  grind -ring -linarith -lia [State.vint_canon, Keeps, State.Canon]

theorem execVandn_canon {s : State} (h : s.Canon) (d a b k ty) : Keeps (execVandn d a b k ty s) := by
  unfold execVandn
  grind -ring -linarith -lia [State.vint_canon, Keeps, State.Canon]

theorem execVshl_canon {s : State} (h : s.Canon) (d a b k ty) : Keeps (execVshl d a b k ty s) := by
  unfold execVshl
  grind -ring -linarith -lia [State.vint_canon, Keeps, State.Canon]

theorem execVshr_canon {s : State} (h : s.Canon) (d a b k ty) : Keeps (execVshr d a b k ty s) := by
  unfold execVshr
  grind -ring -linarith -lia [State.vint_canon, Keeps, State.Canon]

theorem execVsar_canon {s : State} (h : s.Canon) (d a b k ty) : Keeps (execVsar d a b k ty s) := by
  unfold execVsar
  grind -ring -linarith -lia [State.vint_canon, Keeps, State.Canon]

theorem execVabsd_canon {s : State} (h : s.Canon) (d a b k ty) : Keeps (execVabsd d a b k ty s) := by
  unfold execVabsd
  grind -ring -linarith -lia [State.vint_canon, Keeps, State.Canon]

theorem execVclz_canon {s : State} (h : s.Canon) (d a k ty) : Keeps (execVclz d a k ty s) := by
  unfold execVclz
  grind -ring -linarith -lia [State.vint_canon, Keeps, State.Canon]

theorem execVpopc_canon {s : State} (h : s.Canon) (d a k ty) : Keeps (execVpopc d a k ty s) := by
  unfold execVpopc
  grind -ring -linarith -lia [State.vint_canon, Keeps, State.Canon]

theorem execVpack_canon {s : State} (h : s.Canon) (d a b k ty) : Keeps (execVpack d a b k ty s) := by
  unfold execVpack
  grind -ring -linarith -lia [State.vecOp_canon, Keeps, State.Canon]

theorem execVunpack_canon {s : State} (h : s.Canon) (d a p k ty) : Keeps (execVunpack d a p k ty s) := by
  unfold execVunpack
  grind -ring -linarith -lia [State.vecOp_canon, Keeps, State.Canon]

theorem State.vfp_canon {s : State} (h : s.Canon) (cost d a b c k ty f) : Keeps (s.vfp cost d a b c k ty f) := by
  unfold State.vfp
  grind -ring -linarith -lia [State.vecOp_canon, Keeps, State.Canon]

theorem execVfadd_canon {s : State} (h : s.Canon) (d a b k ty) : Keeps (execVfadd d a b k ty s) := by
  unfold execVfadd
  grind -ring -linarith -lia [State.vfp_canon, Keeps, State.Canon]

theorem execVfsub_canon {s : State} (h : s.Canon) (d a b k ty) : Keeps (execVfsub d a b k ty s) := by
  unfold execVfsub
  grind -ring -linarith -lia [State.vfp_canon, Keeps, State.Canon]

theorem execVfmul_canon {s : State} (h : s.Canon) (d a b k ty) : Keeps (execVfmul d a b k ty s) := by
  unfold execVfmul
  grind -ring -linarith -lia [State.vfp_canon, Keeps, State.Canon]

theorem execVfmin_canon {s : State} (h : s.Canon) (d a b k ty) : Keeps (execVfmin d a b k ty s) := by
  unfold execVfmin
  grind -ring -linarith -lia [State.vfp_canon, Keeps, State.Canon]

theorem execVfmax_canon {s : State} (h : s.Canon) (d a b k ty) : Keeps (execVfmax d a b k ty s) := by
  unfold execVfmax
  grind -ring -linarith -lia [State.vfp_canon, Keeps, State.Canon]

theorem execVfms_canon {s : State} (h : s.Canon) (d a b k ty) : Keeps (execVfms d a b k ty s) := by
  unfold execVfms
  grind -ring -linarith -lia [State.vfp_canon, Keeps, State.Canon]

theorem execVfnma_canon {s : State} (h : s.Canon) (d a b k ty) : Keeps (execVfnma d a b k ty s) := by
  unfold execVfnma
  grind -ring -linarith -lia [State.vfp_canon, Keeps, State.Canon]

theorem execVscale_canon {s : State} (h : s.Canon) (d a b k ty) : Keeps (execVscale d a b k ty s) := by
  unfold execVscale
  grind -ring -linarith -lia [State.vfp_canon, Keeps, State.Canon]

theorem execVfma_canon {s : State} (h : s.Canon) (d a b c k ty) : Keeps (execVfma d a b c k ty s) := by
  unfold execVfma
  grind -ring -linarith -lia [State.vfp_canon, Keeps, State.Canon]

theorem State.runCvt_canon {s : State} (h : s.Canon) (cost d a src isg k part dst rm fin) : Keeps (s.runCvt cost d a src isg k part dst rm fin) := State.runTask_canon h _ _ fun u t hu => by
  split
  · trivial
  · exact hu

theorem execVcvt_canon {s : State} (h : s.Canon) (d a src isg k part r dst) : Keeps (execVcvt d a src isg k part r dst s) := by
  unfold execVcvt
  grind -ring -linarith -lia [State.runCvt_canon, Keeps, State.Canon]

theorem execVcvtSr_canon {s : State} (h : s.Canon) (d a src isg k part dst) : Keeps (execVcvtSr d a src isg k part dst s) := by
  unfold execVcvtSr
  grind -ring -linarith -lia [State.runCvt_canon, Keeps, State.Canon]

theorem State.reduce_canon {s : State} (h : s.Canon) (d a k b f) : Keeps (s.reduce d a k b f) := by
  unfold State.reduce
  grind -ring -linarith -lia [State.runReg_canon, Keeps, State.Canon]

theorem execVrsum_canon {s : State} (h : s.Canon) (d a k ty) : Keeps (execVrsum d a k ty s) := by
  unfold execVrsum
  grind -ring -linarith -lia [State.reduce_canon, Keeps, State.Canon]

theorem execVrmin_canon {s : State} (h : s.Canon) (d a k ty) : Keeps (execVrmin d a k ty s) := by
  unfold execVrmin
  grind -ring -linarith -lia [State.reduce_canon, Keeps, State.Canon]

theorem execVrmax_canon {s : State} (h : s.Canon) (d a k ty) : Keeps (execVrmax d a k ty s) := by
  unfold execVrmax
  grind -ring -linarith -lia [State.reduce_canon, Keeps, State.Canon]

theorem execVrfsum_canon {s : State} (h : s.Canon) (d a k ty) : Keeps (execVrfsum d a k ty s) := by
  unfold execVrfsum
  grind -ring -linarith -lia [State.reduce_canon, Keeps, State.Canon]

theorem execVscan_canon {s : State} (h : s.Canon) (d a k ty) : Keeps (execVscan d a k ty s) := by
  unfold execVscan
  grind -ring -linarith -lia [State.runReg_canon, Keeps, State.Canon]

theorem State.permute_canon {s : State} (h : s.Canon) (d k f) : Keeps (s.permute d k f) := by
  unfold State.permute
  grind -ring -linarith -lia [State.vecOp_canon, Keeps, State.Canon]

theorem execVperm_canon {s : State} (h : s.Canon) (d a b k) : Keeps (execVperm d a b k s) := by
  unfold execVperm
  grind -ring -linarith -lia [State.permute_canon, Keeps, State.Canon]

theorem execVshuf_canon {s : State} (h : s.Canon) (d a b k) : Keeps (execVshuf d a b k s) := by
  unfold execVshuf
  grind -ring -linarith -lia [State.permute_canon, Keeps, State.Canon]

theorem execVrot_canon {s : State} (h : s.Canon) (d a n k) : Keeps (execVrot d a n k s) := by
  unfold execVrot
  grind -ring -linarith -lia [State.permute_canon, Keeps, State.Canon]

theorem execVnbr_canon {s : State} (h : s.Canon) (d a n k) : Keeps (execVnbr d a n k s) := by
  unfold execVnbr
  grind -ring -linarith -lia [State.permute_canon, Keeps, State.Canon]

theorem State.compare_canon {s : State} (h : s.Canon) (cost d a b k w f) : Keeps (s.compare cost d a b k w f) := by
  unfold State.compare
  grind -ring -linarith -lia [State.runReg_canon, foldl_canon, Keeps, State.Canon]

theorem State.icmp_canon {s : State} (h : s.Canon) (d a b k ty f) : Keeps (s.icmp d a b k ty f) := by
  unfold State.icmp
  grind -ring -linarith -lia [State.compare_canon, Keeps, State.Canon]

theorem execVcmpEq_canon {s : State} (h : s.Canon) (d a b k ty) : Keeps (execVcmpEq d a b k ty s) := by
  unfold execVcmpEq
  grind -ring -linarith -lia [State.icmp_canon, Keeps, State.Canon]

theorem execVcmpNe_canon {s : State} (h : s.Canon) (d a b k ty) : Keeps (execVcmpNe d a b k ty s) := by
  unfold execVcmpNe
  grind -ring -linarith -lia [State.icmp_canon, Keeps, State.Canon]

theorem execVcmpLt_canon {s : State} (h : s.Canon) (d a b k ty) : Keeps (execVcmpLt d a b k ty s) := by
  unfold execVcmpLt
  grind -ring -linarith -lia [State.icmp_canon, Keeps, State.Canon]

theorem execVcmpLe_canon {s : State} (h : s.Canon) (d a b k ty) : Keeps (execVcmpLe d a b k ty s) := by
  unfold execVcmpLe
  grind -ring -linarith -lia [State.icmp_canon, Keeps, State.Canon]

theorem State.fcmp_canon {s : State} (h : s.Canon) (d a b k ty op) : Keeps (s.fcmp d a b k ty op) := by
  unfold State.fcmp
  grind -ring -linarith -lia [State.compare_canon, Keeps, State.Canon]

theorem execVfcmpEq_canon {s : State} (h : s.Canon) (d a b k ty) : Keeps (execVfcmpEq d a b k ty s) := by
  unfold execVfcmpEq
  grind -ring -linarith -lia [State.fcmp_canon, Keeps, State.Canon]

theorem execVfcmpLt_canon {s : State} (h : s.Canon) (d a b k ty) : Keeps (execVfcmpLt d a b k ty s) := by
  unfold execVfcmpLt
  grind -ring -linarith -lia [State.fcmp_canon, Keeps, State.Canon]

theorem execVfcmpLe_canon {s : State} (h : s.Canon) (d a b k ty) : Keeps (execVfcmpLe d a b k ty s) := by
  unfold execVfcmpLe
  grind -ring -linarith -lia [State.fcmp_canon, Keeps, State.Canon]

theorem execVfcmpUn_canon {s : State} (h : s.Canon) (d a b k ty) : Keeps (execVfcmpUn d a b k ty s) := by
  unfold execVfcmpUn
  grind -ring -linarith -lia [State.fcmp_canon, Keeps, State.Canon]

theorem execVbcst_canon {s : State} (h : s.Canon) (d a k ty) : Keeps (execVbcst d a k ty s) := by
  unfold execVbcst
  grind -ring -linarith -lia [State.permute_canon, Keeps, State.Canon]

theorem execVins_canon {s : State} (h : s.Canon) (d a n _ty) : Keeps (execVins d a n _ty s) := by
  unfold execVins
  grind -ring -linarith -lia [State.runReg_canon, Keeps, State.Canon]

theorem execVext_canon {s : State} (h : s.Canon) (d a n ty) : Keeps (execVext d a n ty s) := by
  unfold execVext
  grind -ring -linarith -lia [State.runReg_canon, Keeps, State.Canon]

theorem execVmov_canon {s : State} (h : s.Canon) (d a k) : Keeps (execVmov d a k s) := by
  unfold execVmov
  grind -ring -linarith -lia [State.permute_canon, Keeps, State.Canon]

theorem State.vimm_canon {s : State} (h : s.Canon) (d f) : Keeps (s.vimm d f) := by
  unfold State.vimm
  grind -ring -linarith -lia [State.runReg_canon, Keeps, State.Canon]

theorem execVli_canon {s : State} (h : s.Canon) (d i) : Keeps (execVli d i s) := by
  unfold execVli
  grind -ring -linarith -lia [State.vimm_canon, Keeps, State.Canon]

theorem execVlih_canon {s : State} (h : s.Canon) (d i) : Keeps (execVlih d i s) := by
  unfold execVlih
  grind -ring -linarith -lia [State.vimm_canon, Keeps, State.Canon]

theorem execVlui_canon {s : State} (h : s.Canon) (d i) : Keeps (execVlui d i s) := by
  unfold execVlui
  grind -ring -linarith -lia [State.vimm_canon, Keeps, State.Canon]

theorem execVorli_canon {s : State} (h : s.Canon) (d i) : Keeps (execVorli d i s) := by
  unfold execVorli
  grind -ring -linarith -lia [State.vimm_canon, Keeps, State.Canon]

theorem execVaddi_canon {s : State} (h : s.Canon) (d i) : Keeps (execVaddi d i s) := by
  unfold execVaddi
  grind -ring -linarith -lia [State.vimm_canon, Keeps, State.Canon]

theorem execVsel_canon {s : State} (h : s.Canon) (d a b k) : Keeps (execVsel d a b k s) := by
  unfold execVsel
  grind -ring -linarith -lia [State.runReg_canon, Keeps, State.Canon]

theorem execKand_canon {s : State} (h : s.Canon) (d a b) : Keeps (execKand d a b s) := by
  unfold execKand
  grind -ring -linarith -lia [State.runReg_canon, Keeps, State.Canon]

theorem execKor_canon {s : State} (h : s.Canon) (d a b) : Keeps (execKor d a b s) := by
  unfold execKor
  grind -ring -linarith -lia [State.runReg_canon, Keeps, State.Canon]

theorem execKnot_canon {s : State} (h : s.Canon) (d a) : Keeps (execKnot d a s) := by
  unfold execKnot
  grind -ring -linarith -lia [State.runReg_canon, Keeps, State.Canon]

theorem execKmov_canon {s : State} (h : s.Canon) (d a) : Keeps (execKmov d a s) := by
  unfold execKmov
  grind -ring -linarith -lia [State.runReg_canon, Keeps, State.Canon]

theorem execKmovFromScalar_canon {s : State} (h : s.Canon) (d a) : Keeps (execKmovFromScalar d a s) := by
  unfold execKmovFromScalar
  grind -ring -linarith -lia [State.runReg_canon, Keeps, State.Canon]

theorem execKmovToScalar_canon {s : State} (h : s.Canon) (d a) : Keeps (execKmovToScalar d a s) := by
  unfold execKmovToScalar
  grind -ring -linarith -lia [State.runReg_canon, Keeps, State.Canon]

theorem State.vspecial_canon {s : State} (h : s.Canon) (d a k ty f) : Keeps (s.vspecial d a k ty f) := by
  unfold State.vspecial
  grind -ring -linarith -lia [State.vfp_canon, Keeps, State.Canon]

theorem execVrcp_canon {s : State} (h : s.Canon) (d a k ty) : Keeps (execVrcp d a k ty s) := by
  unfold execVrcp
  grind -ring -linarith -lia [State.vspecial_canon, Keeps, State.Canon]

theorem execVrsq_canon {s : State} (h : s.Canon) (d a k ty) : Keeps (execVrsq d a k ty s) := by
  unfold execVrsq
  grind -ring -linarith -lia [State.vspecial_canon, Keeps, State.Canon]

theorem execVexp2_canon {s : State} (h : s.Canon) (d a k ty) : Keeps (execVexp2 d a k ty s) := by
  unfold execVexp2
  grind -ring -linarith -lia [State.vspecial_canon, Keeps, State.Canon]

theorem execVlog2_canon {s : State} (h : s.Canon) (d a k ty) : Keeps (execVlog2 d a k ty s) := by
  unfold execVlog2
  grind -ring -linarith -lia [State.vspecial_canon, Keeps, State.Canon]

theorem execVtanh_canon {s : State} (h : s.Canon) (d a k ty) : Keeps (execVtanh d a k ty s) := by
  unfold execVtanh
  grind -ring -linarith -lia [State.vspecial_canon, Keeps, State.Canon]

theorem State.partFault_canon {s : State} (h : s.Canon) (p code) : (s.partFault p code).Canon := by
  unfold State.partFault
  grind -ring -linarith -lia [State.record_canon, State.Canon]

theorem State.trySwap_canon {s : State} (h : s.Canon) (p) : (s.trySwap p).Canon := by
  unfold State.trySwap
  grind -ring -linarith -lia [State.partFault_canon, State.complete_canon, State.setPart_canon, State.Canon]

theorem State.place_canon {s : State} (h : s.Canon) (r t) : (s.place r t).Canon := by
  unfold State.place
  dsimp only
  split
  · exact State.setRow_canon h ..
  · exact wfMem_clearRange _ _ h

theorem State.dispatch_canon {s : State} (h : s.Canon) (cx a r idx take) : (s.dispatch cx a r idx take).Canon := by
  unfold State.dispatch
  grind -ring -linarith -lia [State.fault_canon, State.debit_canon, State.tally_canon, State.place_canon, State.setBind_canon, State.modCtx_canon, State.retireHead_canon, foldl_canon, State.Canon]

theorem State.policyUsed_canon {s : State} (h : s.Canon) (cx tag pol) : (s.policyUsed cx tag pol).Canon := by
  unfold State.policyUsed
  grind -ring -linarith -lia [State.modCtx_canon, State.Canon]

theorem State.send_canon {s : State} (h : s.Canon) (cx a row idx take pol) : (s.send cx a row idx take pol).Canon := by
  unfold State.send
  grind -ring -linarith -lia [State.dispatch_canon, State.policyUsed_canon, State.Canon]

theorem State.sendTo_canon {s : State} (h : s.Canon) (cx x a row pol) : (s.sendTo cx x a row pol).Canon := by
  unfold State.sendTo
  grind -ring -linarith -lia [State.send_canon, State.modCtx_canon, State.Canon]

theorem State.doDisp_canon {s : State} (h : s.Canon) (p d q pol) : (s.doDisp p d q pol).Canon := by
  unfold State.doDisp
  grind -ring -linarith -lia [State.sendTo_canon, State.Canon]

theorem State.freezeRows_canon {s : State} (h : s.Canon) (core cx) : (s.freezeRows core cx).Canon := by
  refine foldl_canon (fun u r hu => ?_) _ h
  split
  · split
    · exact State.setTask_canon hu ..
    · exact hu
  · exact hu

theorem State.doPreempt_canon {s : State} (h : s.Canon) (p d victim pol) : (s.doPreempt p d victim pol).Canon := by
  unfold State.doPreempt
  grind -ring -linarith -lia [State.freezeRows_canon, State.sendTo_canon, State.Canon]

theorem State.lowPriority_canon {s : State} (h : s.Canon) (cx) : (s.lowPriority cx).Canon := by
  unfold State.lowPriority
  grind -ring -linarith -lia [State.modCtx_canon, State.Canon]

theorem State.dropTask_canon {s : State} (h : s.Canon) (r t) : (s.dropTask r t).Canon := by
  unfold State.dropTask
  grind -ring -linarith -lia [State.freeRowGo_canon, State.modPort_canon, State.releaseHandles_canon, State.Canon]

theorem State.dropTasks_canon {s : State} (h : s.Canon) (cx) : (s.dropTasks cx).1.Canon := by
  unfold State.dropTasks
  have hf (l : List Nat) (a : State × Nat) (ha : a.1.Canon) : (l.foldl (fun (a : State × Nat) r =>
      match a.1.task r with
      | some t => if t.commit.isNone then (a.1.dropTask r t, a.2 + 1) else a
      | none => a) a).1.Canon := by
    induction l generalizing a with
    | nil => exact ha
    | cons r l ih =>
      rw [List.foldl_cons]
      refine ih _ ?_
      split
      · split
        · exact State.dropTask_canon ha ..
        · exact ha
      · exact ha
  exact hf _ _ h

theorem State.dropPipes_canon {s : State} (h : s.Canon) (cx) : (s.dropPipes cx).Canon := by
  unfold State.dropPipes
  grind -ring -linarith -lia [State.unclaim_canon, State.modCtx_canon, State.frontCore_canon, foldl_canon, State.Canon]

theorem State.dropStalls_canon {s : State} (h : s.Canon) (cx) : (s.dropStalls cx).Canon := h
theorem State.forgetColl_canon {s : State} (h : s.Canon) (g) : (s.forgetColl g).Canon := h
theorem State.keepColl_canon {s : State} (h : s.Canon) (g) : (s.keepColl g).Canon := by
  unfold State.keepColl
  grind -ring -linarith -lia [State.forgetColl_canon, State.Canon]

theorem State.modCmd_canon {s : State} (h : s.Canon) (cx k seq f) : (s.modCmd cx k seq f).Canon := by
  unfold State.modCmd
  grind -ring -linarith -lia [State.modCtx_canon, State.Canon]

theorem State.memberDone_canon {s : State} (h : s.Canon) (m) : (s.memberDone m).Canon := by
  unfold State.memberDone
  grind -ring -linarith -lia [State.modCmd_canon, State.Canon]

theorem State.collFault_canon {s : State} (h : s.Canon) (ms) : (s.collFault ms).Canon := by
  unfold State.collFault
  grind -ring -linarith -lia [State.fault_canon, foldl_canon, State.Canon]

theorem State.doom_canon {s : State} (h : s.Canon) (g gone) : (s.doom g gone).Canon := by
  unfold State.doom
  grind -ring -linarith -lia [State.keepColl_canon, State.memberDone_canon, State.collFault_canon, foldl_canon, State.Canon]

theorem State.tellColl_canon {s : State} (h : s.Canon) (g) : (s.tellColl g).Canon := by
  unfold State.tellColl
  grind -ring -linarith -lia [State.podSendAll_canon, State.Canon]

theorem State.dropColl_canon {s : State} (h : s.Canon) (cx c) : (s.dropColl cx c).Canon := by
  unfold State.dropColl
  grind -ring -linarith -lia [State.doom_canon, State.tellColl_canon, State.Canon]

theorem State.freePlace_canon {s : State} (h : s.Canon) (die m) : (s.freePlace die m).Canon := by
  unfold State.freePlace
  grind -ring -linarith -lia [State.modDie_canon, State.setBind_canon, State.modCmd_canon, State.Canon]

theorem State.withdraw_canon {s : State} (h : s.Canon) (cx) : (s.withdraw cx).Canon := foldl_canon (fun _ _ hu => foldl_canon (fun _ _ hv => State.freePlace_canon hv ..) _ hu) _ h
theorem State.dropCmds_canon {s : State} (h : s.Canon) (cx) : (s.dropCmds cx).Canon := by
  unfold State.dropCmds
  grind -ring -linarith -lia [State.dropColl_canon, State.modPort_canon, State.withdraw_canon, State.modCtx_canon, foldl_canon, State.Canon]

theorem State.retireAll_canon {s : State} (h : s.Canon) (cx q n) : (s.retireAll cx q n).Canon := by
  induction n generalizing s with
  | zero => exact h
  | succ n ih => exact ih (State.retireHead_canon h ..)

theorem State.dropActs_canon {s : State} (h : s.Canon) (cx) : (s.dropActs cx).Canon := by
  unfold State.dropActs
  grind -ring -linarith -lia [State.unbind_canon, State.unhold_canon, State.modCtx_canon, State.retireAll_canon, foldl_canon, State.Canon]

theorem State.halt_canon {s : State} (h : s.Canon) (cx nores) : (s.halt cx nores).Canon := by
  unfold State.halt
  grind -ring -linarith -lia [State.setCtx_canon, State.dropTasks_canon, State.dropPipes_canon, State.dropStalls_canon, State.dropCmds_canon, State.dropActs_canon, State.modCtx_canon, State.Canon]

theorem State.doFault_canon {s : State} (h : s.Canon) (p d act) : (s.doFault p d act).Canon := by
  unfold State.doFault
  grind -ring -linarith -lia [State.lowPriority_canon, State.halt_canon, State.Canon]

theorem State.carryOut_canon {s : State} (h : s.Canon) (p d ans pol) : (s.carryOut p d ans pol).Canon := by
  unfold State.carryOut
  grind -ring -linarith -lia [State.doDisp_canon, State.doPreempt_canon, State.doFault_canon, State.Canon]

theorem State.decided_canon {s : State} (h : s.Canon) (die p d ans byFallback overran) : (s.decided die p d ans byFallback overran).Canon := by
  unfold State.decided
  grind -ring -linarith -lia [State.modFcast_canon, State.countDie_canon, State.trySwap_canon, State.carryOut_canon, foldl_canon, State.Canon]

theorem State.overrun_canon {s : State} (h : s.Canon) (die p d) : (s.overrun die p d).Canon := by
  unfold State.overrun
  grind -ring -linarith -lia [State.decided_canon, State.Canon]

theorem State.runFc_canon {s : State} (h : s.Canon) (f) : Keeps (s.runFc f) := by
  unfold State.runFc
  grind -ring -linarith -lia [State.overrun_canon, State.modFcast_canon, Keeps, State.Canon]

theorem fcReg_canon {s : State} (h : s.Canon) (d v) : Keeps (fcReg s d v) := by
  unfold fcReg
  grind -ring -linarith -lia [State.runFc_canon, Keeps, State.Canon]

theorem execFcLdi_canon {s : State} (h : s.Canon) (d n) : Keeps (execFcLdi d n s) := by
  unfold execFcLdi
  grind -ring -linarith -lia [fcReg_canon, Keeps, State.Canon]

theorem execFcLdq_canon {s : State} (h : s.Canon) (d n) : Keeps (execFcLdq d n s) := by
  unfold execFcLdq
  grind -ring -linarith -lia [fcReg_canon, Keeps, State.Canon]

theorem execFcLdp_canon {s : State} (h : s.Canon) (d n) : Keeps (execFcLdp d n s) := by
  unfold execFcLdp
  grind -ring -linarith -lia [fcReg_canon, Keeps, State.Canon]

theorem execFcLde_canon {s : State} (h : s.Canon) (d n) : Keeps (execFcLde d n s) := by
  unfold execFcLde
  grind -ring -linarith -lia [fcReg_canon, Keeps, State.Canon]

theorem execFcLds_canon {s : State} (h : s.Canon) (d n) : Keeps (execFcLds d n s) := by
  unfold execFcLds
  grind -ring -linarith -lia [fcReg_canon, Keeps, State.Canon]

theorem execFcSto_canon {s : State} (h : s.Canon) (d n) : Keeps (execFcSto d n s) := by
  unfold execFcSto
  grind -ring -linarith -lia [State.runFc_canon, Keeps, State.Canon]

theorem execFcAdd_canon {s : State} (h : s.Canon) (d b) : Keeps (execFcAdd d b s) := by
  unfold execFcAdd
  grind -ring -linarith -lia [fcReg_canon, Keeps, State.Canon]

theorem execFcSub_canon {s : State} (h : s.Canon) (d b) : Keeps (execFcSub d b s) := by
  unfold execFcSub
  grind -ring -linarith -lia [fcReg_canon, Keeps, State.Canon]

theorem execFcShl_canon {s : State} (h : s.Canon) (d n) : Keeps (execFcShl d n s) := by
  unfold execFcShl
  grind -ring -linarith -lia [fcReg_canon, Keeps, State.Canon]

theorem execFcShr_canon {s : State} (h : s.Canon) (d n) : Keeps (execFcShr d n s) := by
  unfold execFcShr
  grind -ring -linarith -lia [fcReg_canon, Keeps, State.Canon]

theorem execFcAnd_canon {s : State} (h : s.Canon) (d b) : Keeps (execFcAnd d b s) := by
  unfold execFcAnd
  grind -ring -linarith -lia [fcReg_canon, Keeps, State.Canon]

theorem execFcOr_canon {s : State} (h : s.Canon) (d b) : Keeps (execFcOr d b s) := by
  unfold execFcOr
  grind -ring -linarith -lia [fcReg_canon, Keeps, State.Canon]

theorem execFcMin_canon {s : State} (h : s.Canon) (d b) : Keeps (execFcMin d b s) := by
  unfold execFcMin
  grind -ring -linarith -lia [fcReg_canon, Keeps, State.Canon]

theorem execFcMax_canon {s : State} (h : s.Canon) (d b) : Keeps (execFcMax d b s) := by
  unfold execFcMax
  grind -ring -linarith -lia [fcReg_canon, Keeps, State.Canon]

theorem execFcSel_canon {s : State} (h : s.Canon) (d c b) : Keeps (execFcSel d c b s) := by
  unfold execFcSel
  grind -ring -linarith -lia [fcReg_canon, Keeps, State.Canon]

theorem fcJump_canon {s : State} (h : s.Canon) (n cond) : Keeps (fcJump s n cond) := by
  unfold fcJump
  grind -ring -linarith -lia [State.runFc_canon, Keeps, State.Canon]

theorem execFcJmp_canon {s : State} (h : s.Canon) (n) : Keeps (execFcJmp n s) := by
  unfold execFcJmp
  grind -ring -linarith -lia [fcJump_canon, Keeps, State.Canon]

theorem execFcJz_canon {s : State} (h : s.Canon) (d n) : Keeps (execFcJz d n s) := by
  unfold execFcJz
  grind -ring -linarith -lia [fcJump_canon, Keeps, State.Canon]

theorem execFcJnz_canon {s : State} (h : s.Canon) (d n) : Keeps (execFcJnz d n s) := by
  unfold execFcJnz
  grind -ring -linarith -lia [fcJump_canon, Keeps, State.Canon]

theorem execFcJlt_canon {s : State} (h : s.Canon) (d n) : Keeps (execFcJlt d n s) := by
  unfold execFcJlt
  grind -ring -linarith -lia [fcJump_canon, Keeps, State.Canon]

theorem execFcNextq_canon {s : State} (h : s.Canon) (d r) : Keeps (execFcNextq d r s) := by
  unfold execFcNextq
  grind -ring -linarith -lia [State.runFc_canon, Keeps, State.Canon]

theorem execFcPickmin_canon {s : State} (h : s.Canon) (d n) : Keeps (execFcPickmin d n s) := by
  unfold execFcPickmin
  grind -ring -linarith -lia [State.runFc_canon, Keeps, State.Canon]

theorem execFcPickmax_canon {s : State} (h : s.Canon) (d n) : Keeps (execFcPickmax d n s) := by
  unfold execFcPickmax
  grind -ring -linarith -lia [State.runFc_canon, Keeps, State.Canon]

theorem fcAnswer_canon {s : State} (h : s.Canon) (a) : Keeps (fcAnswer s a) := by
  unfold fcAnswer
  grind -ring -linarith -lia [State.runFc_canon, Keeps, State.Canon]

theorem execFcDisp_canon {s : State} (h : s.Canon) : Keeps (execFcDisp s) := by
  unfold execFcDisp
  grind -ring -linarith -lia [fcAnswer_canon, Keeps, State.Canon]

theorem execFcPreempt_canon {s : State} (h : s.Canon) (d) : Keeps (execFcPreempt d s) := by
  unfold execFcPreempt
  grind -ring -linarith -lia [fcAnswer_canon, Keeps, State.Canon]

theorem execFcFaultact_canon {s : State} (h : s.Canon) (d) : Keeps (execFcFaultact d s) := by
  unfold execFcFaultact
  grind -ring -linarith -lia [fcAnswer_canon, Keeps, State.Canon]

theorem execFcDefer_canon {s : State} (h : s.Canon) : Keeps (execFcDefer s) := by
  unfold execFcDefer
  grind -ring -linarith -lia [fcAnswer_canon, Keeps, State.Canon]

theorem execFcEnd_canon {s : State} (h : s.Canon) : Keeps (execFcEnd s) := by
  unfold execFcEnd
  grind -ring -linarith -lia [State.overrun_canon, State.decided_canon, Keeps, State.Canon]

theorem State.restoreArray_canon {s : State} (h : s.Canon) (cx core) : (s.restoreArray cx core).2.Canon := by
  unfold State.restoreArray
  dsimp only
  split
  · exact h
  next x _ =>
    have hr := State.reach_canon h (ctxPort (core / 8)) cx (imageAt x core) 0x60800 1
    split
    · split
      · exact h
      · generalize s.reach (ctxPort (core / 8)) cx (imageAt x core) 0x60800 1 = r at hr ⊢
        match r, hr with
        | .ok ks u, hu =>
          dsimp only
          split
          · exact State.fault_canon hu ..
          · apply State.modCore_canon
            exact wfMem_setRange _ _ hu
        | .pageFault a st l u, hu => exact hu
        | .prot a u, hu | .data a u, hu => exact State.fault_canon hu ..
    · apply State.modCore_canon
      exact wfMem_clearRange _ _ h

theorem State.takeArray_canon {s : State} (h : s.Canon) (cx core) : (s.takeArray cx core).2.Canon := by
  unfold State.takeArray
  grind -ring -linarith -lia [State.restoreArray_canon, State.modCtx_canon, State.devWriteAt_canon, State.Canon]

theorem State.payCmd_canon {s : State} (h : s.Canon) (cx c n) : ∀ u, s.payCmd cx c n = some u → u.Canon := by
  unfold State.payCmd
  split
  · rintro u ⟨⟩; exact h
  · intro u hu
    obtain ⟨v, hv, rfl⟩ := Option.map_eq_some_iff.1 hu
    exact State.tally_canon (State.debit_canon h _ _ _ hv) ..

theorem State.engineTurn_canon {s : State} (h : s.Canon) (cx k cost body more) (hbody : ∀ u v, u.Canon → (body u v).Canon) (hmore : ∀ u v, u.Canon → (more u v).Canon) : (s.engineTurn cx k cost body more).Canon := by
  unfold State.engineTurn
  split
  · exact h
  · split
    · exact h
    next c _ =>
      dsimp only
      split
      · exact h
      · exact State.modCtx_canon (hmore _ _ h) ..
      · split
        · exact h
        · have ht : (if ownsArray k c then s.takeArray cx c.core else (true, s)).2.Canon := by
            split
            · exact State.takeArray_canon h ..
            · exact h
          generalize (if ownsArray k c then s.takeArray cx c.core else (true, s)) = p at ht ⊢
          split
          · exact ht
          · split
            · exact State.modCmd_canon ht ..
            next s' hs' =>
              have hb := hbody s' ⟨cx, k, c⟩ (State.payCmd_canon ht _ _ _ _ hs')
              have hp := State.payCmd_canon ht _ _ _ _ hs'
              split
              next heq => rw [heq] at hb; exact State.modCtx_canon (State.modCmd_canon hb ..) ..
              · exact State.fault_canon hp ..
              next heq => rw [heq] at hb; exact State.fault_canon hb ..
              · exact State.modPort_canon ht ..
              · exact State.modCmd_canon ht ..

theorem State.runCmd_canon {s : State} (h : s.Canon) (cost body more) (hbody : ∀ u v, u.Canon → (body u v).Canon) (hmore : ∀ u v, u.Canon → (more u v).Canon) : Keeps (s.runCmd cost body more) := by
  unfold State.runCmd
  grind -ring -linarith -lia [State.engineTurn_canon, Eng.Canon, Keeps, State.Canon]

theorem Eng.bind_canon {α β : Type} {r : Eng α} {f : α → State → Eng β} (hr : r.Canon) (hf : ∀ a s, s.Canon → (f a s).Canon) : (r.bind f).Canon := by
  cases r with
  | ok a s => exact hf a s hr
  | faultAt s => exact hr
  | _ => trivial

theorem State.engRanges_canon {s : State} (h : s.Canon) (i l) : (s.engRanges i l).Canon := by
  unfold State.engRanges
  grind -ring -linarith -lia [Eng.Canon, State.Canon]

theorem State.engKeys_canon {s : State} (h : s.Canon) (i sp addr n acc) : (s.engKeys i sp addr n acc).Canon := by
  unfold State.engKeys
  grind -ring -linarith -lia [State.reach_canon, Eng.Canon, Reach.Canon, State.Canon]

theorem State.readSent_canon {s : State} (h : s.Canon) (die cx va ks bad) : (s.readSent die cx va ks bad).Canon := by
  unfold State.readSent
  grind -ring -linarith -lia [State.readGranule_canon, foldl_canon, State.Canon]

theorem State.engRead_canon {s : State} (h : s.Canon) (i sp addr n) : (s.engRead i sp addr n).Canon := by
  unfold State.engRead
  grind -ring -linarith -lia [Eng.bind_canon, State.engKeys_canon, State.readSent_canon, State.readVia_canon, Eng.Canon, State.Canon]

theorem State.engHold_canon {s : State} (h : s.Canon) (i ks addr) : (s.engHold i ks addr).Canon := by
  unfold State.engHold
  grind -ring -linarith -lia [Eng.Canon, State.Canon]

theorem State.engPut_canon {s : State} (h : s.Canon) (i sp addr ks bs) : (s.engPut i sp addr ks bs).Canon := by
  unfold State.engPut
  grind -ring -linarith -lia [State.puts_canon, State.writeVia_canon, State.Canon]

/-- An engine operation that answers an operation on states answers one that keeps memory canonical. -/
def Eng.CanonFn : Eng (State → State) → Prop
  | .ok f s => s.Canon ∧ ∀ u, u.Canon → (f u).Canon
  | .faultAt s _ _ _ => s.Canon
  | _ => True

theorem Eng.bind_canonFn {r : Eng (State → State)} {β : Type} {g : (State → State) → State → Eng β} (hr : r.CanonFn)
    (hg : ∀ f s, s.Canon → (∀ u, u.Canon → (f u).Canon) → (g f s).Canon) : (r.bind g).Canon := by
  cases r with
  | ok f s => exact hg f s hr.1 hr.2
  | faultAt s => exact hr
  | _ => trivial

theorem Eng.bind_canonFn' {α : Type} {r : Eng α} {g : α → State → Eng (State → State)} (hr : r.Canon)
    (hg : ∀ a s, s.Canon → (g a s).CanonFn) : (r.bind g).CanonFn := by
  cases r with
  | ok a s => exact hg a s hr
  | faultAt s => exact hr
  | _ => trivial

theorem State.engCopy_canon {s : State} (h : s.Canon) (i ssp src dsp dst n) {after} (hafter : ∀ u, u.Canon → (after u).CanonFn) : (s.engCopy i ssp src dsp dst n after).Canon := Eng.bind_canon (State.engRanges_canon h ..) fun _ u hu => Eng.bind_canon (State.engRead_canon hu ..) fun bs u hu =>
  Eng.bind_canon (State.engKeys_canon hu ..) fun ks u hu => Eng.bind_canonFn (hafter u hu) fun fin u hu hfin =>
  Eng.bind_canon (State.engHold_canon hu ..) fun _ u hu => hfin _ (State.engPut_canon hu ..)

theorem State.nearCopy_canon {s : State} (h : s.Canon) (i far len near noff src) {after} (hafter : ∀ u, u.Canon → (after u).CanonFn) : (s.nearCopy i far len near noff src after).Canon := by
  unfold State.nearCopy
  split
  · exact State.engCopy_canon h _ _ _ _ _ _ hafter
  · exact State.engCopy_canon h _ _ _ _ _ _ hafter

theorem noMore_canon {s : State} (h : s.Canon) (x1) : (noMore s x1).Canon := h
theorem execCopy_canon {s : State} (h : s.Canon) (_h o) : Keeps (execCopy _h o s) := State.runCmd_canon h _ _ _ (fun u i hu => State.nearCopy_canon hu _ _ _ _ _ _ fun v hv => ⟨hv, fun _ hw => hw⟩) fun _ _ hu => hu
theorem forRows_canon {α : Type} {f : State → Nat → Eng α} (hf : ∀ u n, u.Canon → (f u n).Canon) {s : State} (h : s.Canon) (l) : (forRows f s l).Canon := by
  induction l generalizing s with
  | nil => exact h
  | cons r l ih => exact Eng.bind_canon (hf s r h) fun a u hu => Eng.bind_canon (ih hu) fun as v hv => hv

theorem execCopy2d_canon {s : State} (h : s.Canon) (_h o) : Keeps (execCopy2d _h o s) := by
  unfold execCopy2d
  grind -ring -linarith -lia [State.runCmd_canon, Eng.bind_canon, State.engRanges_canon, forRows_canon, State.engRead_canon, State.engKeys_canon, State.engHold_canon, State.engPut_canon, noMore_canon, foldl_canon, Eng.Canon, Keeps, State.Canon]

theorem execCopyc_canon {s : State} (h : s.Canon) (_h o) : Keeps (execCopyc _h o s) := State.runCmd_canon h _ _ _ (fun u i hu => State.nearCopy_canon hu _ _ _ _ _ _ fun v hv =>
    Eng.bind_canonFn' (State.engKeys_canon hv ..) fun ks w hw => Eng.bind_canonFn' (State.engHold_canon hw ..) fun _ x hx =>
    ⟨hx, fun _ hy => State.engPut_canon hy ..⟩) fun _ _ hu => hu

theorem State.elemKeys_canon {s : State} (h : s.Canon) (i e acc l) : (s.elemKeys i e acc l).Canon := by
  induction l generalizing s with
  | nil => exact h
  | cons a r ih =>
    unfold State.elemKeys
    split
    · exact h
    · have hk := State.engKeys_canon h i 0 a e acc
      split
      next heq => rw [heq] at hk; exact Eng.bind_canon (ih hk) fun x u hu => hu
      · exact h
      next heq => rw [heq] at hk; exact hk
      all_goals trivial

theorem State.loseCmd_canon {s : State} (h : s.Canon) (cx k seq) : (s.loseCmd cx k seq).Canon := by
  unfold State.loseCmd
  grind -ring -linarith -lia [State.modCtx_canon, State.Canon]

theorem State.indirect_canon {s : State} (h : s.Canon) (i o acc go) (hgo : ∀ u v, u.Canon → (go u v).Canon) : (s.indirect i o acc go).Canon := by
  unfold State.indirect
  grind -ring -linarith -lia [Eng.bind_canon, State.engRead_canon, State.elemKeys_canon, State.fault_canon, State.loseCmd_canon, Eng.Canon, State.Canon]

theorem State.gatherGo_canon {s : State} (h : s.Canon) (i o dk n l) : (s.gatherGo i o dk n l).Canon := by
  induction l generalizing s n with
  | nil => exact h
  | cons e r ih =>
    unfold State.gatherGo
    dsimp only
    split
    · exact State.fault_canon (State.loseCmd_canon h ..) ..
    · exact ih (State.puts_canon h ..) _

theorem execGather_canon {s : State} (h : s.Canon) (_h o) : Keeps (execGather _h o s) := by
  unfold execGather
  grind -ring -linarith -lia [State.runCmd_canon, Eng.bind_canon, State.engRanges_canon, State.engKeys_canon, State.engHold_canon, State.indirect_canon, State.gatherGo_canon, noMore_canon, Eng.Canon, Keeps, State.Canon]

theorem execScatter_canon {s : State} (h : s.Canon) (_h o) : Keeps (execScatter _h o s) := by
  unfold execScatter
  grind -ring -linarith -lia [State.runCmd_canon, Eng.bind_canon, State.engRanges_canon, State.engRead_canon, State.indirect_canon, State.engHold_canon, State.puts_canon, noMore_canon, foldl_canon, Eng.Canon, Keeps, State.Canon]

theorem execDeck_canon {s : State} (h : s.Canon) (_h o) : Keeps (execDeck _h o s) := by
  unfold execDeck
  grind -ring -linarith -lia [State.runCmd_canon, Eng.bind_canon, State.engRead_canon, State.write_canon, noMore_canon, Eng.Canon, Keeps, State.Canon]

theorem State.deckCheck_canon {s : State} (h : s.Canon) (core doff n) : (s.deckCheck core doff n).Canon := by
  unfold State.deckCheck
  grind -ring -linarith -lia [Eng.Canon, State.Canon]

theorem execBload_canon {s : State} (h : s.Canon) (_h o) : Keeps (execBload _h o s) := State.runCmd_canon h _ _ _ (fun u i hu => Eng.bind_canon (State.deckCheck_canon hu ..) fun _ u hu => wfMem_fillTile _ _ _ hu) fun _ _ hu => hu
theorem State.mxtCheck_canon {s : State} (h : s.Canon) (i o) : (s.mxtCheck i o).Canon := by
  unfold State.mxtCheck
  dsimp only
  refine Eng.bind_canon (State.engRanges_canon h ..) fun _ _ _ => Eng.bind_canon ?_ fun _ u hu => Eng.bind_canon ?_ fun _ u hu => ?_
  · split
    · exact Eng.bind_canon (State.engRead_canon h ..) fun _ u hu => hu
    · split
      · trivial
      · split
        · trivial
        · refine Eng.bind_canon (State.engKeys_canon h ..) fun _ u hu => ?_
          split
          · trivial
          · split
            · trivial
            · split
              · trivial
              · exact hu
  · split
    · exact Eng.bind_canon (State.engRead_canon hu ..) fun _ u hu => hu
    · exact hu
  · split
    · exact hu
    · exact State.deckCheck_canon hu ..

theorem State.mxtChunk_canon {s : State} (h : s.Canon) (i o rows) : (s.mxtChunk i o rows).Canon := by
  unfold State.mxtChunk
  dsimp only
  split
  · apply State.modCmd_canon
    exact mxtSwap_canon h ..
  · apply State.modCmd_canon
    exact finishPart_canon h ..

theorem State.mxtMore_canon {s : State} (h : s.Canon) (i o) : (s.mxtMore i o).Canon := by
  unfold State.mxtMore
  dsimp only
  split
  · exact State.fault_canon (State.loseCmd_canon h ..) ..
  · split
    · exact State.fault_canon (State.setBind_canon (State.loseCmd_canon h ..) ..) ..
    · split
      · exact State.fault_canon (State.setBind_canon (State.loseCmd_canon h ..) ..) ..
      · split
        · exact h
        · split
          · exact State.fault_canon (State.setBind_canon (State.loseCmd_canon h ..) ..) ..
          · split
            · exact State.modCmd_canon (State.advance_canon h ..) ..
            · exact State.mxtChunk_canon (State.advance_canon h ..) ..

theorem execMxt_canon {s : State} (h : s.Canon) (_h o) : Keeps (execMxt _h o s) := State.runCmd_canon h _ _ _ (fun u i hu => Eng.bind_canon (State.mxtCheck_canon hu ..) fun _ u hu => by
    dsimp only
    split
    · exact mxtSwap_canon (State.setBind_canon (State.modCore_canon hu ..) ..) ..
    · exact mxtRun_canon (State.modCore_canon hu ..) ..) fun u i hu => by
    split
    · exact State.mxtMore_canon hu ..
    · exact hu

theorem execMxdrain_canon {s : State} (h : s.Canon) (_h o) : Keeps (execMxdrain _h o s) := by
  unfold execMxdrain
  grind -ring -linarith -lia [State.runCmd_canon, Eng.bind_canon, State.engKeys_canon, State.puts_canon, noMore_canon, Eng.Canon, Keeps, State.Canon]

theorem State.joinBroken_canon {s : State} (h : s.Canon) (g m) : (s.joinBroken g m).Canon := by
  unfold State.joinBroken
  grind -ring -linarith -lia [State.keepColl_canon, State.collFault_canon, State.Canon]

theorem State.badColl_canon {s : State} (h : s.Canon) (g) : (s.badColl g).Canon := by
  unfold State.badColl
  grind -ring -linarith -lia [State.doom_canon, State.Canon]

theorem State.endColl_canon {s : State} (h : s.Canon) (g) : (s.endColl g).Canon := by
  unfold State.endColl
  grind -ring -linarith -lia [State.badColl_canon, State.tellColl_canon, State.Canon]

theorem State.joinColl_canon {s : State} (h : s.Canon) (i o) : (s.joinColl i o).Canon := by
  unfold State.joinColl
  grind -ring -linarith -lia [State.podSendAll_canon, State.joinBroken_canon, State.endColl_canon, foldl_canon, Eng.Canon, State.Canon]

theorem execColl_canon {s : State} (h : s.Canon) (_h o) : Keeps (execColl _h o s) := by
  unfold execColl
  grind -ring -linarith -lia [State.runCmd_canon, Eng.bind_canon, State.engRanges_canon, State.engRead_canon, State.engKeys_canon, State.joinColl_canon, noMore_canon, Eng.Canon, Keeps, State.Canon]

theorem State.takePlace_canon {s : State} (h : s.Canon) (i o) : (s.takePlace i o).Canon := by
  unfold State.takePlace
  dsimp only
  split
  · trivial
  · refine Eng.bind_canon (State.engRead_canon h ..) fun _ u hu => ?_
    split
    · trivial
    · split
      · trivial
      · split
        · trivial
        · split
          · trivial
          · split
            · trivial
            · split
              · trivial
              · split
                · trivial
                · split
                  · trivial
                  · refine Eng.bind_canon (State.engKeys_canon hu ..) fun _ u hu => ?_
                    split
                    · trivial
                    · split
                      · trivial
                      · split
                        · trivial
                        · exact State.modDie_canon (State.setBind_canon hu ..) ..

theorem execIntake_canon {s : State} (h : s.Canon) (_h o) : Keeps (execIntake _h o s) := by
  unfold execIntake
  grind -ring -linarith -lia [State.runCmd_canon, State.takePlace_canon, noMore_canon, Eng.Canon, Keeps, State.Canon]

theorem execWindow_canon {s : State} (h : s.Canon) (_h o) : Keeps (execWindow _h o s) := State.runCmd_canon h _ _ _ (fun u i hu => by
  dsimp only
  split
  · trivial
  · exact State.setDie_canon (State.modPort_canon hu ..) ..) fun u i hu => hu

theorem execNote_canon {s : State} (h : s.Canon) (_h o) : Keeps (execNote _h o s) := by
  unfold execNote
  grind -ring -linarith -lia [State.runCmd_canon, Eng.bind_canon, State.engKeys_canon, State.engHold_canon, State.engPut_canon, noMore_canon, Eng.Canon, Keeps, State.Canon]

theorem execQfence_canon {s : State} (h : s.Canon) (_h _o) : Keeps (execQfence _h _o s) := State.runCmd_canon h _ _ _ (fun _ _ hu => hu) fun _ _ hu => hu
theorem State.onRing_canon {s : State} (h : s.Canon) (f) (hf : ∀ u v w, (f u v w).Canon) : Keeps (s.onRing f) := by
  unfold State.onRing
  grind -ring -linarith -lia [Keeps, State.Canon]

theorem State.startPkt_canon {s : State} (h : s.Canon) (cx c live body) : (s.startPkt cx c live body).Canon := by
  unfold State.startPkt
  grind -ring -linarith -lia [State.modCtx_canon, State.Canon]

theorem State.ringEnq_canon {s : State} (h : s.Canon) (cx who r) (hr : r.Canon) : (s.ringEnq cx who r).Canon := by
  unfold State.ringEnq
  grind -ring -linarith -lia [State.pendRead_canon, State.fault_canon, Enq.Canon, State.Canon]

theorem State.launchCopy_canon {s : State} (h : s.Canon) (cx c o b) : (s.launchCopy cx c o b).Canon := by
  unfold State.launchCopy
  grind -ring -linarith -lia [State.modCtx_canon, State.enqueue_canon, State.startPkt_canon, State.ringEnq_canon, Enq.Canon, State.Canon]

theorem State.endPkt_canon {s : State} (h : s.Canon) (cx c status code stage) : (s.endPkt cx c status code stage).Canon := by
  unfold State.endPkt
  grind -ring -linarith -lia [State.complete_canon, State.startPkt_canon, State.Canon]

theorem State.ringStall_canon {s : State} (h : s.Canon) (cx of va acc st l) : (s.ringStall cx of va acc st l).Canon := h
theorem State.ringRead_canon {α : Type} {s : State} (h : s.Canon) (cx c) {r : LR α} {go : α → State → State} (hr : r.Canon) (hgo : ∀ a u, u.Canon → (go a u).Canon) : (s.ringRead cx c r go).Canon := by
  cases r with
  | ok a u => exact hgo a u hr
  | invalid u => exact State.endPkt_canon h ..
  | pageFault va st l u => exact State.ringStall_canon hr ..
  | prot va u => exact State.fault_canon hr ..
  | data va u => exact State.fault_canon hr ..

theorem execLaunch_canon {s : State} (h : s.Canon) (o) : Keeps (execLaunch o s) := State.onRing_canon h _ fun cx x c => by
  dsimp only
  split
  · exact State.launchCopy_canon h ..
  · refine State.ringRead_canon h _ _ (State.readBlock_canon h ..) fun b u hu => ?_
    split
    · exact State.endPkt_canon h ..
    · split
      · exact State.endPkt_canon (State.arm_canon hu ..) ..
      · exact State.launchCopy_canon (State.bindAll_canon hu ..) ..

theorem State.refuse_canon {s : State} (h : s.Canon) (cx c code stage) : (s.refuse cx c code stage).Canon := by
  unfold State.refuse
  grind -ring -linarith -lia [State.endPkt_canon, State.Canon]

theorem State.devRead_canon {s : State} (h : s.Canon) (cx va n) : (s.devRead cx va n).Canon := by
  unfold State.devRead
  grind -ring -linarith -lia [State.devReadAt_canon, LR.Canon, State.Canon]

theorem State.loaderRead_canon {s : State} (h : s.Canon) (cx c va n code stage go) (hgo : ∀ u v, v.Canon → (go u v).Canon) : (s.loaderRead cx c va n code stage go).Canon := by
  unfold State.loaderRead
  grind -ring -linarith -lia [State.refuse_canon, State.devRead_canon, State.ringStall_canon, State.fault_canon, LR.Canon, State.Canon]

theorem State.ringInit_canon {s : State} (h : s.Canon) (hkey l) : (s.ringInit hkey l).Canon := by
  unfold State.ringInit
  grind -ring -linarith -lia [State.writeN_canon, State.Canon]

theorem State.loadPipe_canon {s : State} (h : s.Canon) (cx p) : (s.loadPipe cx p).Canon := by
  have hbody (u : State) (i : Nat) (hu : u.Canon) : (if stFbd (p.st i) = 0 then u else
      (u.ringInit (p.fbKey i) (p.lb i)).ringSection (p.lb i) (p.fbKey i) (List.replicate (stTout (p.st i)) 0) 1).Canon := by
    split
    · exact hu
    · exact State.ringSection_canon (State.ringInit_canon hu ..) ..
  unfold State.loadPipe
  extract_lets s1 s2 q
  have h1 : s1.Canon := foldl_canon (fun u i hu => State.ringInit_canon hu ..) _ h
  have h2 : s2.Canon := foldl_canon hbody _ h1
  exact State.frontGo_canon (State.frontRecord_canon (State.modCtx_canon h2 ..) ..) ..

theorem State.readStages_canon {s : State} (h : s.Canon) (cx c p n ws) : (s.readStages cx c p n ws).Canon := by
  induction n generalizing s ws with
  | zero =>
    unfold State.readStages
    dsimp only
    split
    · exact State.refuse_canon h ..
    · split
      · exact h
      · exact State.loadPipe_canon (State.startPkt_canon h ..) ..
  | succ n ih =>
    refine State.loaderRead_canon h _ _ _ _ _ _ _ fun w u hu => ?_
    split
    · exact ih hu _
    · exact State.refuse_canon hu ..

theorem execPipe_canon {s : State} (h : s.Canon) (o) : Keeps (execPipe o s) := by
  unfold execPipe
  grind -ring -linarith -lia [State.onRing_canon, State.refuse_canon, State.loaderRead_canon, State.readStages_canon, Keeps, State.Canon]

theorem execCmd_canon {s : State} (h : s.Canon) (o) : Keeps (execCmd o s) := by
  unfold execCmd
  grind -ring -linarith -lia [State.onRing_canon, State.endPkt_canon, State.append_canon, State.startPkt_canon, Keeps, State.Canon]

theorem execSignal_canon {s : State} (h : s.Canon) (o) : Keeps (execSignal o s) := by
  unfold execSignal
  grind -ring -linarith -lia [State.onRing_canon, State.xlate_canon, State.ringStall_canon, State.fault_canon, State.endPkt_canon, State.atomic_canon, Keeps, State.Canon]

theorem execWait_canon {s : State} (h : s.Canon) (o) : Keeps (execWait o s) := by
  unfold execWait
  grind -ring -linarith -lia [State.onRing_canon, State.endPkt_canon, State.modCtx_canon, State.xlate_canon, State.ringStall_canon, State.fault_canon, Keeps, State.Canon]

theorem State.receiptBad_canon {s : State} (h : s.Canon) (cx r) : (s.receiptBad cx r).Canon := by
  unfold State.receiptBad
  grind -ring -linarith -lia [State.complete_canon, State.modCtx_canon, State.unbind_canon, State.Canon]

theorem State.itemReach_canon {s : State} (h : s.Canon) (cx r va n go) (hgo : ∀ u v, v.Canon → (go u v).Canon) : (s.itemReach cx r va n go).Canon := by
  unfold State.itemReach
  grind -ring -linarith -lia [State.receiptBad_canon, State.reach_canon, State.fault_canon, State.pendRead_canon, Reach.Canon, State.Canon]

theorem blockRead_canon  (cx r b go) (hb : b.Canon) (hgo : ∀ u v, v.Canon → (go u v).Canon) : (blockRead cx r b go).Canon := by
  unfold blockRead
  grind -ring -linarith -lia [State.receiptBad_canon, State.pendRead_canon, State.fault_canon, LR.Canon, State.Canon]

theorem State.receiptEnqueue_canon {s : State} (h : s.Canon) (cx r) : (s.receiptEnqueue cx r).Canon := by
  unfold State.receiptEnqueue
  grind -ring -linarith -lia [State.enqueue_canon, State.modCtx_canon, State.ringEnq_canon, Enq.Canon, State.Canon]

theorem State.receiptItems_canon {s : State} (h : s.Canon) (cx r) : (s.receiptItems cx r).Canon := by
  unfold State.receiptItems
  grind -ring -linarith -lia [State.itemReach_canon, State.receiptEnqueue_canon, State.modCtx_canon, State.Canon]

theorem State.receiptStart_canon {s : State} (h : s.Canon) (cx r len b) : (s.receiptStart cx r len b).Canon := by
  unfold State.receiptStart
  grind -ring -linarith -lia [State.receiptBad_canon, State.receiptItems_canon, State.modCtx_canon, State.bindAll_canon, State.Canon]

theorem State.receiptCheck_canon {s : State} (h : s.Canon) (cx r) : (s.receiptCheck cx r).Canon := by
  unfold State.receiptCheck
  grind -ring -linarith -lia [State.itemReach_canon, State.receiptBad_canon, blockRead_canon, State.readBlock_canon, State.receiptStart_canon, LR.Canon, State.Canon]

theorem State.receiptWork_canon {s : State} (h : s.Canon) (cx) : (s.receiptWork cx).Canon := by
  unfold State.receiptWork
  grind -ring -linarith -lia [State.receiptCheck_canon, State.receiptItems_canon, State.receiptEnqueue_canon, State.Canon]

theorem execReceipt_canon {s : State} (h : s.Canon) (o) : Keeps (execReceipt o s) := by
  unfold execReceipt
  grind -ring -linarith -lia [State.onRing_canon, State.endPkt_canon, State.receiptWork_canon, State.modCtx_canon, State.startPkt_canon, Keeps, State.Canon]

theorem State.onPriv_canon {s : State} (h : s.Canon) (f) (hf : ∀ u v w, (f u v w).Canon) : Keeps (s.onPriv f) := by
  unfold State.onPriv
  grind -ring -linarith -lia [State.onRing_canon, State.endPkt_canon, Keeps, State.Canon]

theorem execPolicyLoad_canon {s : State} (h : s.Canon) (o) : Keeps (execPolicyLoad o s) := State.onPriv_canon h _ fun cx x c =>
  State.ringRead_canon h _ _ (State.devRead_canon h ..) fun w u hu => State.endPkt_canon (State.modPart_canon hu ..) ..

theorem State.swapNow_canon {s : State} (h : s.Canon) (p cx seq) : (s.swapNow p cx seq).Canon := h
theorem execPolicySwap_canon {s : State} (h : s.Canon) : Keeps (execPolicySwap s) := by
  unfold execPolicySwap
  grind -ring -linarith -lia [State.onPriv_canon, State.endPkt_canon, State.partFault_canon, State.modPart_canon, State.trySwap_canon, State.swapNow_canon, State.startPkt_canon, Keeps, State.Canon]

theorem State.needPart_canon {s : State} (h : s.Canon) (p) : (s.needPart p).Canon := by
  unfold State.needPart
  grind -ring -linarith -lia [State.setPart_canon, State.Canon]

theorem State.eachPipe_canon {s : State} (h : s.Canon) (cx f) (hf : ∀ u v, u.Canon → (f u v).Canon) : (s.eachPipe cx f).Canon := by
  unfold State.eachPipe
  grind -ring -linarith -lia [foldl_canon, State.Canon]

theorem State.parkAll_canon {s : State} (h : s.Canon) (cx on) : (s.parkAll cx on).Canon := by
  unfold State.parkAll
  grind -ring -linarith -lia [State.eachPipe_canon, State.parkGo_canon, State.setPipe_canon, State.Canon]

theorem execPartCores_canon {s : State} (h : s.Canon) (o) : Keeps (execPartCores o s) := by
  unfold execPartCores
  grind -ring -linarith -lia [State.onPriv_canon, State.needPart_canon, State.modCore_canon, State.parkAll_canon, State.startPkt_canon, foldl_canon, Keeps, State.Canon]

theorem State.onPart_canon {s : State} (h : s.Canon) (p f) (hf : ∀ u v w, (f u v w).Canon) : Keeps (s.onPart p f) := by
  unfold State.onPart
  grind -ring -linarith -lia [State.onPriv_canon, State.endPkt_canon, Keeps, State.Canon]

theorem execPartPool_canon {s : State} (h : s.Canon) (o) : Keeps (execPartPool o s) := by
  unfold execPartPool
  grind -ring -linarith -lia [State.onPart_canon, State.endPkt_canon, State.poolRose_canon, State.modPart_canon, Keeps, State.Canon]

theorem State.trimSlices_canon {s : State} (h : s.Canon) (p die) : (s.trimSlices p die).Canon := by
  unfold State.trimSlices
  grind -ring -linarith -lia [foldl_canon, State.Canon]

theorem execPartCache_canon {s : State} (h : s.Canon) (o) : Keeps (execPartCache o s) := by
  unfold execPartCache
  grind -ring -linarith -lia [State.onPart_canon, State.endPkt_canon, State.trimSlices_canon, State.modDie_canon, State.modPart_canon, foldl_canon, Keeps, State.Canon]

theorem State.newQueue_canon {s : State} (h : s.Canon) (cx c tgt q x prio urgent seg) : (s.newQueue cx c tgt q x prio urgent seg).Canon := by
  unfold State.newQueue
  grind -ring -linarith -lia [State.reach_canon, State.ringStall_canon, State.endPkt_canon, State.fault_canon, State.writeN_canon, State.setCtx_canon, Reach.Canon, State.Canon]

theorem execPartQueue_canon {s : State} (h : s.Canon) (o) : Keeps (execPartQueue o s) := by
  unfold execPartQueue
  grind -ring -linarith -lia [State.onPart_canon, State.endPkt_canon, State.newQueue_canon, State.setCtx_canon, Keeps, State.Canon]

theorem State.thawRow_canon {s : State} (h : s.Canon) (r) : (s.thawRow r).Canon := by
  unfold State.thawRow
  grind -ring -linarith -lia [State.setTask_canon, State.Canon]

theorem State.thawCtx_canon {s : State} (h : s.Canon) (cx) : (s.thawCtx cx).Canon := by
  unfold State.thawCtx
  grind -ring -linarith -lia [State.thawRow_canon, foldl_canon, State.Canon]

theorem State.uncutAll_canon {s : State} (h : s.Canon) (cx) : (s.uncutAll cx).Canon := by
  unfold State.uncutAll
  grind -ring -linarith -lia [State.eachPipe_canon, State.frontGo_canon, State.setPipe_canon, State.Canon]

theorem State.missOver_canon {s : State} (h : s.Canon) (m) : (s.missOver m).Canon := by
  unfold State.missOver
  grind -ring -linarith -lia [State.commitGo_canon, State.thawRow_canon, State.thawCtx_canon, State.uncutAll_canon, State.Canon]

theorem State.dropMiss_canon {s : State} (h : s.Canon) (n) : (s.dropMiss n).Canon := by
  unfold State.dropMiss
  grind -ring -linarith -lia [State.modPort_canon, State.Canon]

theorem State.tryWrite_canon {s : State} (h : s.Canon) (i) : (s.tryWrite i).Canon := by
  unfold State.tryWrite
  grind -ring -linarith -lia [State.devTry_canon, State.missOver_canon, State.dropMiss_canon, State.fault_canon, State.devLost_canon, Dev.Canon, State.Canon]

theorem State.replayRecords_canon {s : State} (h : s.Canon) (cx n) : (s.replayRecords cx n).Canon := by
  induction n generalizing s with
  | zero => exact h
  | succ n ih =>
    unfold State.replayRecords
    grind -ring -linarith -lia [State.tryWrite_canon]

theorem State.resumePipe_canon {s : State} (h : s.Canon) (cx q) : (s.resumePipe cx q).Canon := by
  unfold State.resumePipe
  grind -ring -linarith -lia [State.frontGo_canon, State.setPipe_canon, foldl_canon, State.Canon]

theorem State.resumePipes_canon {s : State} (h : s.Canon) (cx) : (s.resumePipes cx).Canon := by
  unfold State.resumePipes
  grind -ring -linarith -lia [State.eachPipe_canon, State.resumePipe_canon, State.Canon]

theorem State.wake_canon {s : State} (h : s.Canon) (cx) : (s.wake cx).Canon := by
  unfold State.wake
  grind -ring -linarith -lia [State.replayRecords_canon, State.resumePipes_canon, State.thawCtx_canon, State.record_canon, State.setCtx_canon, foldl_canon, State.Canon]

theorem State.setSlices_canon {s : State} (h : s.Canon) (p n) : (s.setSlices p n).Canon := by
  unfold State.setSlices
  grind -ring -linarith -lia [State.modPart_canon, State.wake_canon, State.parkAll_canon, foldl_canon, State.Canon]

theorem execPartLimits_canon {s : State} (h : s.Canon) (o) : Keeps (execPartLimits o s) := by
  unfold execPartLimits
  grind -ring -linarith -lia [State.onPart_canon, State.endPkt_canon, State.setSlices_canon, State.modPart_canon, Keeps, State.Canon]

theorem State.setVf_canon {s : State} (h : s.Canon) (v x) : (s.setVf v x).Canon := h
theorem execPartVf_canon {s : State} (h : s.Canon) (o) : Keeps (execPartVf o s) := by
  unfold execPartVf
  grind -ring -linarith -lia [State.onPriv_canon, State.endPkt_canon, State.setVf_canon, Keeps, State.Canon]

theorem State.dropWork_canon {s : State} (h : s.Canon) (cx seq p) : (s.dropWork cx seq p).Canon := by
  unfold State.dropWork
  grind -ring -linarith -lia [State.complete_canon, State.Canon]

theorem execPartDrop_canon {s : State} (h : s.Canon) (o) : Keeps (execPartDrop o s) := by
  unfold execPartDrop
  grind -ring -linarith -lia [State.onPart_canon, State.dropWork_canon, State.startPkt_canon, Keeps, State.Canon]

theorem State.created_canon {s : State} (h : s.Canon) (cx seq tgt) : (s.created cx seq tgt).Canon := by
  unfold State.created
  grind -ring -linarith -lia [State.complete_canon, State.Canon]

theorem State.ctxMark_canon {s : State} (h : s.Canon) (cx p n) : (s.ctxMark cx p n).Canon := by
  unfold State.ctxMark
  grind -ring -linarith -lia [State.modCtx_canon, State.Canon]

theorem State.ctxDiscard_canon {s : State} (h : s.Canon) (cx p tgt) : (s.ctxDiscard cx p tgt).Canon := by
  unfold State.ctxDiscard
  grind -ring -linarith -lia [State.modCtx_canon, State.ctxMark_canon, State.complete_canon, foldl_canon, State.Canon]

theorem State.forget_canon {s : State} (h : s.Canon) (cx) : (s.forget cx).Canon := h
theorem State.clear_canon {s : State} (h : s.Canon) (k n) : (s.clear k n).Canon := wfMem_clearRange _ _ h
theorem State.passUnit_canon {s : State} (h : s.Canon) (die u) : (s.passUnit die u).Canon := by
  unfold State.passUnit
  grind -ring -linarith -lia [State.clear_canon, State.Canon]

theorem State.passUnits_canon {s : State} (h : s.Canon) : (s.passUnits).Canon := foldl_canon (fun _ _ hu => foldl_canon (fun _ _ hv => State.passUnit_canon hv ..) _ hu) _ h
theorem State.ungate_canon {s : State} (h : s.Canon) (part su) : (s.ungate part su).Canon := by
  unfold State.ungate
  grind -ring -linarith -lia [State.Canon]

theorem State.create_canon {s : State} (h : s.Canon) (tgt o) : (s.create tgt o).Canon := by
  unfold State.create
  grind -ring -linarith -lia [State.ungate_canon, State.passUnits_canon, State.setCtx_canon, State.devWrite_canon, State.Canon]

theorem State.ctxReplace_canon {s : State} (h : s.Canon) (cx p o tgt) : (s.ctxReplace cx p o tgt).Canon := by
  unfold State.ctxReplace
  grind -ring -linarith -lia [State.forget_canon, State.complete_canon, State.passUnits_canon, State.created_canon, State.ctxMark_canon, State.create_canon, State.Canon]

theorem State.ctxWork_canon {s : State} (h : s.Canon) (cx p o) : (s.ctxWork cx p o).Canon := by
  unfold State.ctxWork
  grind -ring -linarith -lia [State.created_canon, State.halt_canon, State.ctxDiscard_canon, State.ctxReplace_canon, State.Canon]

theorem execPartCtx_canon {s : State} (h : s.Canon) (o) : Keeps (execPartCtx o s) := by
  unfold execPartCtx
  grind -ring -linarith -lia [State.onPriv_canon, State.endPkt_canon, State.startPkt_canon, State.needPart_canon, State.ctxWork_canon, Keeps, State.Canon]

theorem State.frontDispatch_canon {s : State} (h : s.Canon) (row) : (s.frontDispatch row).Canon := by
  unfold State.frontDispatch
  split
  · exact h
  · split
    · exact h
    · split
      · exact State.fault_canon h ..
      · split
        · exact State.fault_canon h ..
        · split
          · exact State.fault_canon h ..
          · split
            · exact State.fault_canon h ..
            · exact h
            · split
              · exact h
              next u hu => exact State.setPipe_canon (State.place_canon (State.debit_canon h _ _ _ hu) ..) ..

theorem execPoolRefill_canon {s : State} (h : s.Canon) (part) : Keeps (execPoolRefill part s) := by
  unfold execPoolRefill
  grind -ring -linarith -lia [State.frontDispatch_canon, State.credit_canon, State.modPart_canon, foldl_canon, Keeps, State.Canon]

theorem execOverrun_canon {s : State} (h : s.Canon) (die part) : Keeps (execOverrun die part s) := by
  unfold execOverrun
  grind -ring -linarith -lia [State.overrun_canon, Keeps, State.Canon]

theorem State.exhausted_canon {s : State} (h : s.Canon) (cx q) : (s.exhausted cx q).Canon := by
  unfold State.exhausted
  grind -ring -linarith -lia [State.setTask_canon, State.unhold_canon, State.commitGo_canon, State.fault_canon, State.badSuccs_canon, State.Canon]

theorem State.segReach_canon {s : State} (h : s.Canon) (cx va n) : (s.segReach cx va n).Canon := by
  unfold State.segReach
  grind -ring -linarith -lia [State.reach_canon, LR.Canon, Reach.Canon, State.Canon]

theorem State.reachLink_canon {s : State} (h : s.Canon) (cx seg last) : (s.reachLink cx seg last).Canon := by
  unfold State.reachLink
  grind -ring -linarith -lia [LR.bind_canon, State.segReach_canon, LR.Canon, State.Canon]

theorem State.linkSegment_canon {s : State} (h : s.Canon) (cx q e seg rest ks ls) : (s.linkSegment cx q e seg rest ks ls).Canon := by
  unfold State.linkSegment
  grind -ring -linarith -lia [State.modCtx_canon, State.puts_canon, State.retireHead_canon, State.commitGo_canon, foldl_canon, State.Canon]

theorem execSegmentLink_canon {s : State} (h : s.Canon) (cx qsel) : Keeps (execSegmentLink cx qsel s) := by
  unfold execSegmentLink
  dsimp only [Keeps]
  split
  · exact h
  · split
    · exact h
    next e _ =>
      split
      · exact h
      · split
        · exact State.exhausted_canon h ..
        next seg _ _ =>
          split
          · exact h
          · have hr := State.reachLink_canon h cx seg (e.segs.getLast?.map Prod.fst)
            split
            next heq => rw [heq] at hr; exact State.linkSegment_canon hr ..
            next heq => rw [heq] at hr; exact hr
            next heq => rw [heq] at hr; exact State.pendRead_canon hr ..
            next heq => rw [heq] at hr; exact State.fault_canon hr ..
            next heq => rw [heq] at hr; exact State.fault_canon hr ..

theorem execQueueRoom_canon {s : State} (h : s.Canon) (row) : Keeps (execQueueRoom row s) := by
  unfold execQueueRoom
  grind -ring -linarith -lia [State.commitGo_canon, Keeps, State.Canon]

theorem execTlbiComplete_canon {s : State} (h : s.Canon) (row) : Keeps (execTlbiComplete row s) := by
  unfold execTlbiComplete
  grind -ring -linarith -lia [State.commitGo_canon, State.setTask_canon, Keeps, State.Canon]

theorem execActivationReady_canon {s : State} (h : s.Canon) (cx act) : Keeps (execActivationReady cx act s) := by
  unfold execActivationReady
  grind -ring -linarith -lia [State.fault_canon, State.findWait_canon, State.undefer_canon, State.modCtx_canon, Keeps, State.Canon]

theorem State.passIsobar_canon {s : State} (h : s.Canon) (quad k) : (s.passIsobar quad k).Canon := by
  unfold State.passIsobar
  grind -ring -linarith -lia [State.advance_canon, State.setTag_canon, State.Canon]

theorem execIsobarRound_canon {s : State} (h : s.Canon) (cx act) : Keeps (execIsobarRound cx act s) := by
  unfold execIsobarRound
  dsimp only [Keeps]
  split
  · exact h
  · split
    · exact h
    · split
      · exact State.fault_canon h ..
      · split
        · exact State.fault_canon h ..
        · split
          · exact h
          · exact foldl_canon (fun u c hu => State.passIsobar_canon hu ..) _ (foldl_canon (fun u c hu => State.advance_canon hu ..) _ h)

theorem execDecision_canon {s : State} (h : s.Canon) (die part) : Keeps (execDecision die part s) := by
  unfold execDecision
  grind -ring -linarith -lia [State.modFcast_canon, State.decided_canon, Keeps, State.Canon]

theorem execDeferInterval_canon {s : State} (h : s.Canon) (die part) : Keeps (execDeferInterval die part s) := h
theorem execLullResume_canon {s : State} (h : s.Canon) (core) : Keeps (execLullResume core s) := by
  unfold execLullResume
  grind -ring -linarith -lia [State.setTask_canon, foldl_canon, Keeps, State.Canon]

theorem writeGated_canon {s : State} (h : s.Canon) (row k bs) (f : Row → Row) :
    (({ s.write k bs with freeCtr := s.freeCtr + 1 } : State).modRow row f).Canon := by
  have hw := State.write_canon h k bs
  generalize s.write k bs = u at hw ⊢
  apply State.modRow_canon
  exact State.canon_of_mem hw rfl
theorem State.gateRow_canon {s : State} (h : s.Canon) (row) : (s.gateRow row).Canon := by
  unfold State.gateRow
  cases s.task row with
  | none => exact h
  | some t =>
    dsimp only
    split
    · exact h
    · exact writeGated_canon h ..

theorem execRowGate_canon {s : State} (h : s.Canon) (row) : Keeps (execRowGate row s) := by
  unfold execRowGate
  grind -ring -linarith -lia [State.gateRow_canon, Keeps, State.Canon]

theorem State.walked_canon {s : State} (h : s.Canon) (port e keep) : (s.walked port e keep).Canon := by
  unfold State.walked
  grind -ring -linarith -lia [State.modPort_canon, State.missOver_canon, State.Canon]

theorem State.walkLost_canon {s : State} (h : s.Canon) (port w a) : (s.walkLost port w a).Canon := by
  unfold State.walkLost
  grind -ring -linarith -lia [State.modPort_canon, State.faultTask_canon, State.fault_canon, State.Canon]

theorem execWalk_canon {s : State} (h : s.Canon) (port) : Keeps (execWalk port s) := by
  unfold execWalk
  grind -ring -linarith -lia [State.modPort_canon, State.walked_canon, State.walkLost_canon, Keeps, State.Canon]

theorem State.modMiss_canon {s : State} (h : s.Canon) (n f) : (s.modMiss n f).Canon := by
  unfold State.modMiss
  grind -ring -linarith -lia [State.modPort_canon, State.Canon]

theorem State.cutAll_canon {s : State} (h : s.Canon) (cx on) : (s.cutAll cx on).Canon := by
  unfold State.cutAll
  grind -ring -linarith -lia [State.eachPipe_canon, State.cutGo_canon, State.setPipe_canon, State.Canon]

theorem execDrainLimit_canon {s : State} (h : s.Canon) (port) : Keeps (execDrainLimit port s) := by
  unfold execDrainLimit
  grind -ring -linarith -lia [State.modMiss_canon, State.setTask_canon, State.cutAll_canon, Keeps, State.Canon]

theorem State.writeNext_canon {s : State} (h : s.Canon) (cx kind n) : (s.writeNext cx kind n).Canon := by
  induction n generalizing s with
  | zero => exact h
  | succ n ih =>
    unfold State.writeNext
    grind -ring -linarith -lia [State.tryWrite_canon]

theorem State.modMsg_canon {s : State} (h : s.Canon) (die cx seq f) : (s.modMsg die cx seq f).Canon := h
theorem execFaultLimit_canon {s : State} (h : s.Canon) (port) : Keeps (execFaultLimit port s) := by
  unfold execFaultLimit
  grind -ring -linarith -lia [State.dropMiss_canon, State.writeNext_canon, State.devLost_canon, State.missOver_canon, State.modMsg_canon, State.commitGo_canon, State.fault_canon, State.faultTask_canon, State.modPort_canon, State.modCtx_canon, Keeps, State.Canon]

theorem State.replayWrite_canon {s : State} (h : s.Canon) (i) : (s.replayWrite i).Canon := by
  unfold State.replayWrite
  grind -ring -linarith -lia [State.writeNext_canon, State.tryWrite_canon, State.Canon]

theorem execReplay_canon {s : State} (h : s.Canon) (port) : Keeps (execReplay port s) := by
  unfold execReplay
  grind -ring -linarith -lia [State.replayWrite_canon, State.modPort_canon, State.xlate_canon, State.modMiss_canon, State.missOver_canon, State.dropMiss_canon, Keeps, State.Canon]

theorem State.windowAhead_canon {s : State} (h : s.Canon) (die tile slot w) : (s.windowAhead die tile slot w).Canon := by
  unfold State.windowAhead
  dsimp only
  split
  · exact h
  · split
    · exact h
    next va _ =>
      have hx (acc) := State.xlate_canon h (genPort die tile) w.cx va acc
      split
      next heq => have := hx (if w.kind = 0 then 2 else 1); rw [heq] at this; exact State.modDie_canon this ..
      next heq => have := hx (if w.kind = 0 then 2 else 1); rw [heq] at this; exact State.modPort_canon this ..
      next heq => have := hx (if w.kind = 0 then 2 else 1); rw [heq] at this; exact State.fault_canon this ..
      next heq => have := hx (if w.kind = 0 then 2 else 1); rw [heq] at this; exact State.fault_canon this ..

theorem execWindowFill_canon {s : State} (h : s.Canon) (die tile slot) : Keeps (execWindowFill die tile slot s) := by
  unfold execWindowFill
  grind -ring -linarith -lia [State.modDie_canon, State.windowAhead_canon, State.xlate_canon, State.fetchGranule_canon, State.modPort_canon, State.fault_canon, Keeps, State.Canon]

theorem State.resumeNow_canon {s : State} (h : s.Canon) (cx) : (s.resumeNow cx).Canon := by
  unfold State.resumeNow
  grind -ring -linarith -lia [State.modCtx_canon, State.Canon]

theorem State.haltEnd_canon {s : State} (h : s.Canon) (cx) : (s.haltEnd cx).Canon := by
  unfold State.haltEnd
  grind -ring -linarith -lia [State.setCtx_canon, State.complete_canon, State.record_canon, foldl_canon, State.Canon]

theorem execFaultRecordWrite_canon {s : State} (h : s.Canon) (cx) : Keeps (execFaultRecordWrite cx s) := by
  unfold execFaultRecordWrite
  grind -ring -linarith -lia [State.modCtx_canon, State.dropCmds_canon, State.devWrite_canon, State.devLost_canon, State.resumeNow_canon, State.haltEnd_canon, Keeps, State.Canon]

theorem execMachineCheck_canon {s : State} (h : s.Canon) (die) : Keeps (execMachineCheck die s) := by
  unfold execMachineCheck
  grind -ring -linarith -lia [State.modDie_canon, State.fault_canon, foldl_canon, Keeps, State.Canon]

theorem State.endByFallback_canon {s : State} (h : s.Canon) (p die) : (s.endByFallback p die).Canon := by
  unfold State.endByFallback
  grind -ring -linarith -lia [State.decided_canon, State.Canon]

theorem State.loseImage_canon {s : State} (h : s.Canon) (p) : (s.loseImage p).Canon := by
  unfold State.loseImage
  grind -ring -linarith -lia [State.endByFallback_canon, State.modPart_canon, foldl_canon, State.Canon]

theorem execSchedulerEccError_canon {s : State} (h : s.Canon) (site) : Keeps (execSchedulerEccError site s) := by
  unfold execSchedulerEccError
  grind -ring -linarith -lia [State.countDie_canon, State.partFault_canon, State.loseImage_canon, State.modPart_canon, State.fault_canon, Keeps, State.Canon]

theorem execSliceEnd_canon {s : State} (h : s.Canon) (part) : Keeps (execSliceEnd part s) := by
  unfold execSliceEnd
  grind -ring -linarith -lia [State.modPart_canon, State.parkAll_canon, foldl_canon, Keeps, State.Canon]

theorem State.handovers_canon {s : State} (h : s.Canon) (part) : (s.handovers part).Canon := by
  unfold State.handovers
  grind -ring -linarith -lia [State.modCore_canon, foldl_canon, State.Canon]

theorem execSliceStart_canon {s : State} (h : s.Canon) (part) : Keeps (execSliceStart part s) := by
  unfold execSliceStart
  grind -ring -linarith -lia [State.modPart_canon, State.handovers_canon, State.wake_canon, foldl_canon, Keeps, State.Canon]

theorem State.scrollBad_canon {s : State} (h : s.Canon) (cx p h cls a) : (s.scrollBad cx p h cls a).Canon := by
  unfold State.scrollBad
  grind -ring -linarith -lia [State.fault_canon, State.Canon]

theorem State.areaKeys_canon {s : State} (h : s.Canon) (cx p h acc) : (s.areaKeys cx p h acc).1.Canon := by
  unfold State.areaKeys
  grind -ring -linarith -lia [State.reach_canon, State.pendRead_canon, State.fault_canon, Reach.Canon, State.Canon]

theorem State.ringDrop_canon {s : State} (h : s.Canon) (l hkey) : (s.ringDrop l hkey).Canon := by
  unfold State.ringDrop
  split
  · split
    · exact h
    · exact State.advance_canon h ..
  · exact h

theorem State.pipeDone_canon {s : State} (h : s.Canon) (cx q) : (s.pipeDone cx q).Canon := by
  unfold State.pipeDone
  grind -ring -linarith -lia [State.frontCore_canon, State.ended_canon, State.modCtx_canon, State.Canon]

theorem State.saved_canon {s : State} (h : s.Canon) (cx p h) : (s.saved cx p h).Canon := by
  unfold State.saved
  grind -ring -linarith -lia [State.frontGo_canon, State.setPipe_canon, State.capture_canon, State.unclaim_canon, State.ringDrop_canon, State.pipeDone_canon, State.beginRestore_canon, State.Canon]

theorem execScrollSaveComplete_canon {s : State} (h : s.Canon) (row) : Keeps (execScrollSaveComplete row s) := by
  unfold execScrollSaveComplete
  grind -ring -linarith -lia [State.scrollBad_canon, State.areaKeys_canon, State.cutGo_canon, State.parkGo_canon, State.saved_canon, State.puts_canon, Keeps, State.Canon]

theorem execScrollRestoreComplete_canon {s : State} (h : s.Canon) (row) : Keeps (execScrollRestoreComplete row s) := by
  unfold execScrollRestoreComplete
  grind -ring -linarith -lia [State.areaKeys_canon, State.scrollBad_canon, State.capture_canon, State.write_canon, State.cutGo_canon, State.parkGo_canon, State.frontGo_canon, State.setPipe_canon, Keeps, State.Canon]

theorem execFrontDispatch_canon {s : State} (h : s.Canon) (row) : Keeps (execFrontDispatch row s) := by
  unfold execFrontDispatch
  grind -ring -linarith -lia [State.frontDispatch_canon, Keeps, State.Canon]

theorem execFrontIsobarRound_canon {s : State} (h : s.Canon) (row) : Keeps (execFrontIsobarRound row s) := by
  unfold execFrontIsobarRound
  grind -ring -linarith -lia [State.fault_canon, State.advance_canon, State.ringPut_canon, State.frontGo_canon, State.cutGo_canon, Keeps, State.Canon]

theorem State.freeChan_canon {s : State} (h : s.Canon) (c) : (s.freeChan c).Canon := by
  unfold State.freeChan
  grind -ring -linarith -lia [State.setBind_canon, State.Canon]

theorem execCommandComplete_canon {s : State} (h : s.Canon) (cx k seq) : Keeps (execCommandComplete cx k seq s) := by
  unfold execCommandComplete
  grind -ring -linarith -lia [State.modCtx_canon, State.settle_canon, State.setPipe_canon, State.freeChan_canon, State.frontCore_canon, Keeps, State.Canon]

theorem execCollectiveResult_canon {s : State} (h : s.Canon) (inst) : Keeps (execCollectiveResult inst s) := by
  unfold execCollectiveResult
  grind -ring -linarith -lia [State.endColl_canon, State.write_canon, State.memberDone_canon, State.forgetColl_canon, foldl_canon, Keeps, State.Canon]

theorem State.msgRead_canon {s : State} (h : s.Canon) (die m va n) : (s.msgRead die m va n).Canon := by
  unfold State.msgRead
  grind -ring -linarith -lia [State.reach_canon, State.readSent_canon, State.readVia_canon, Eng.Canon, Reach.Canon, State.Canon]

theorem execMessageDecided_canon {s : State} (h : s.Canon) (die place) : Keeps (execMessageDecided die place s) := by
  unfold execMessageDecided
  grind -ring -linarith -lia [Eng.bind_canon, State.msgRead_canon, State.modMsg_canon, State.fault_canon, State.modPort_canon, Eng.Canon, Keeps, State.Canon]

theorem State.undelivered_canon {s : State} (h : s.Canon) (die m cls addr) : (s.undelivered die m cls addr).Canon := by
  unfold State.undelivered
  grind -ring -linarith -lia [State.fault_canon, State.freePlace_canon, State.Canon]

theorem State.freeNat_canon {s : State} (h : s.Canon) : (s.freeNat).2.Canon := h
theorem State.putSlots_canon {s : State} (h : s.Canon) (hk logn cnt l) : (s.putSlots hk logn cnt l).Canon := by
  induction l generalizing s cnt with
  | nil => exact h
  | cons e r ih => exact ih (State.setTag_canon (State.writeN_canon h ..) ..) _

theorem State.deliver_canon {s : State} (h : s.Canon) (die m toks h) : (s.deliver die m toks h).Canon := by
  unfold State.deliver
  grind -ring -linarith -lia [State.freeNat_canon, State.advance_canon, State.putSlots_canon, State.freePlace_canon, State.modMsg_canon, State.Canon]

theorem State.quarantined_canon {s : State} (h : s.Canon) (die m l reason stage off) : (s.quarantined die m l reason stage off).Canon := by
  unfold State.quarantined
  grind -ring -linarith -lia [State.write_canon, State.countDie_canon, State.freePlace_canon, State.writeN_canon, State.Canon]

theorem State.deliverMsg_canon {s : State} (h : s.Canon) (die m) : ∀ u, s.deliverMsg die m = some u → u.Canon := by
  unfold State.deliverMsg
  intro u hu
  split at hu
  · cases hu
  · split at hu
    · cases hu; exact State.undelivered_canon h ..
    · cases hu; exact State.undelivered_canon h ..
    · split at hu
      · cases hu
      · cases hu; exact State.deliver_canon h ..
  · split at hu
    · cases hu; exact State.undelivered_canon h ..
    · cases hu; exact State.undelivered_canon h ..
    · dsimp only at hu
      split at hu
      · cases hu
      · cases hu; exact State.quarantined_canon h ..

theorem execMessageDelivery_canon {s : State} (h : s.Canon) (die) : Keeps (execMessageDelivery die s) := by
  unfold execMessageDelivery
  dsimp only [Keeps]
  cases hf : List.findSome? (fun m => s.deliverMsg die m) _ with
  | none => exact h
  | some u =>
    obtain ⟨m, _, hm⟩ := List.exists_of_findSome?_eq_some hf
    exact State.deliverMsg_canon h _ _ _ hm

theorem execDoorbellWrite_canon {s : State} (h : s.Canon) (vf cx n) : Keeps (execDoorbellWrite vf cx n s) := by
  unfold execDoorbellWrite
  grind -ring -linarith -lia [State.modCtx_canon, Keeps, State.Canon]

theorem execWaitTimeout_canon {s : State} (h : s.Canon) (cx) : Keeps (execWaitTimeout cx s) := by
  unfold execWaitTimeout
  grind -ring -linarith -lia [State.endPkt_canon, Keeps, State.Canon]

theorem State.item_canon {s : State} (h : s.Canon) (cx va n lost) : (s.item cx va n lost).Canon := by
  unfold State.item
  grind -ring -linarith -lia [State.devRead_canon, State.pendRead_canon, Item.Canon, LR.Canon, State.Canon]

theorem State.items_canon {s : State} (h : s.Canon) (cx lost l) : (s.items cx lost l).Canon := by
  induction l generalizing s with
  | nil => exact h
  | cons e r ih =>
    unfold State.items
    grind -ring -linarith -lia [State.item_canon, Item.Canon, Parts.Canon]

theorem State.itemFaults_canon {s : State} (h : s.Canon) (cx fs) : (s.itemFaults cx fs).Canon := by
  unfold State.itemFaults
  grind -ring -linarith -lia [State.fault_canon, foldl_canon, State.Canon]

theorem State.recheck_canon {s : State} (h : s.Canon) (cx r) : (s.recheck cx r).Canon := by
  unfold State.recheck
  grind -ring -linarith -lia [State.items_canon, State.modCtx_canon, State.itemFaults_canon, Parts.Canon, State.Canon]

theorem State.closeLeaves_canon {s : State} (h : s.Canon) : (s.closeLeaves).Canon := by
  unfold State.closeLeaves
  grind -ring -linarith -lia [State.complete_canon, foldl_canon, State.Canon]

theorem State.closeBatch_canon {s : State} (h : s.Canon) : (s.closeBatch).Canon := by
  unfold State.closeBatch
  grind -ring -linarith -lia [State.devWrite_canon, State.closeLeaves_canon, foldl_canon, State.Canon]

theorem State.joinBatch_canon {s : State} (h : s.Canon) (cx r) : (s.joinBatch cx r).Canon := by
  unfold State.joinBatch
  grind -ring -linarith -lia [State.closeBatch_canon, State.modCtx_canon, State.Canon]

theorem State.chainResult_canon {s : State} (h : s.Canon) (cx r) : (s.chainResult cx r).Canon := by
  unfold State.chainResult
  grind -ring -linarith -lia [State.item_canon, State.fault_canon, State.joinBatch_canon, State.setCtx_canon, Item.Canon, State.Canon]

theorem execReceiptFinish_canon {s : State} (h : s.Canon) (cx) : Keeps (execReceiptFinish cx s) := by
  unfold execReceiptFinish
  grind -ring -linarith -lia [State.recheck_canon, State.joinBatch_canon, State.chainResult_canon, Keeps, State.Canon]

theorem execBatchClose_canon {s : State} (h : s.Canon) : Keeps (execBatchClose s) := by
  unfold execBatchClose
  grind -ring -linarith -lia [State.closeLeaves_canon, State.closeBatch_canon, Keeps, State.Canon]

theorem State.askResume_canon {s : State} (h : s.Canon) (cx a) : (s.askResume cx a).Canon := by
  unfold State.askResume
  grind -ring -linarith -lia [State.resumeNow_canon, State.modCtx_canon, State.Canon]

theorem execContextResume_canon {s : State} (h : s.Canon) (cx) : Keeps (execContextResume cx s) := by
  unfold execContextResume
  grind -ring -linarith -lia [State.askResume_canon, Keeps, State.Canon]

theorem execHostHalt_canon {s : State} (h : s.Canon) (cx) : Keeps (execHostHalt cx s) := by
  unfold execHostHalt
  grind -ring -linarith -lia [State.fault_canon, Keeps, State.Canon]

theorem execResumeWithRewind_canon {s : State} (h : s.Canon) (cx) : Keeps (execResumeWithRewind cx s) := by
  unfold execResumeWithRewind
  grind -ring -linarith -lia [State.askResume_canon, Keeps, State.Canon]

theorem State.setMig_canon {s : State} (h : s.Canon) (cx n) : (s.setMig cx n).Canon := by
  unfold State.setMig
  grind -ring -linarith -lia [State.modCtx_canon, State.Canon]

theorem LR.go_canon {α : Type} {r : LR α} (hr : r.Canon) (cx) {fail : State → State} {f : α → State → State} (hfail : ∀ u, u.Canon → (fail u).Canon) (hf : ∀ a u, u.Canon → (f a u).Canon) : (r.go cx fail f).Canon := by
  cases r with
  | ok a u => exact hf a u hr
  | invalid u => exact hr
  | pageFault a st l u => exact State.pendRead_canon hr ..
  | prot a u => exact hfail _ (State.fault_canon hr ..)
  | data a u => exact hfail _ (State.fault_canon hr ..)

theorem State.readWords_canon {s : State} (h : s.Canon) (cx l) : (s.readWords cx l).Canon := by
  induction l generalizing s with
  | nil => exact h
  | cons va r ih => exact LR.bind_canon (State.devRead_canon h ..) fun _ u hu => ih hu

theorem State.findWords_canon {s : State} (h : s.Canon) (cx x) : (s.findWords cx x).Canon := by
  unfold State.findWords
  grind -ring -linarith -lia [State.findWait_canon, State.modCtx_canon, foldl_canon, State.Canon]

theorem State.coreShown_canon {s : State} (h : s.Canon) (cx x n) : (s.coreShown cx x n).Canon := by
  unfold State.coreShown
  grind -ring -linarith -lia [LR.bind_canon, State.devReadAt_canon, LR.Canon, State.Canon]

theorem State.coresShown_canon {s : State} (h : s.Canon) (cx x l) : (s.coresShown cx x l).Canon := by
  induction l generalizing s with
  | nil => exact h
  | cons n r ih => exact LR.bind_canon (State.coreShown_canon h ..) fun b u hu => LR.bind_canon (ih hu) fun bs v hv => hv

theorem Dev.go_canon  (r cx fail f) (hr : r.Canon) (hfail : ∀ u, u.Canon → (fail u).Canon) (hf : ∀ u, u.Canon → (f u).Canon) : (Dev.go r cx fail f).Canon := by
  unfold Dev.go
  grind -ring -linarith -lia [State.pendRead_canon, State.fault_canon, Dev.Canon, State.Canon]

theorem devTry_go_canon {s : State} (h : s.Canon) (die cx kind va bs) {fail f : State → State} (hfail : ∀ u, u.Canon → (fail u).Canon)
    (hf : ∀ u, u.Canon → (f u).Canon) : ((s.devTry die cx kind va bs).go cx fail f).Canon := by
  have hd := State.devTry_canon h die cx kind va bs
  generalize s.devTry die cx kind va bs = r at hd ⊢
  exact Dev.go_canon _ _ _ _ hd hfail hf
theorem State.exportNow_canon {s : State} (h : s.Canon) (cx) : (s.exportNow cx).Canon := by
  unfold State.exportNow
  split
  · exact h
  · split
    · exact h
    · refine LR.go_canon (State.readWords_canon h ..) _ (fun u hu => State.setMig_canon hu ..) fun _ u hu => ?_
      extract_lets s1 s2
      have h1 : s1.Canon := by
        apply State.unhold_canon
        apply State.findWords_canon
        exact hu
      have h2 : s2.Canon := State.modCtx_canon h1 ..
      split
      · exact h2
      · split
        · exact State.setMig_canon (State.fault_canon h2 ..) ..
        · refine LR.go_canon (State.coresShown_canon h2 ..) _ (fun u hu => State.setMig_canon hu ..) fun _ u hu => ?_
          exact devTry_go_canon hu _ _ _ _ _ (fun u hu => State.setMig_canon hu ..) fun u hu => State.modCtx_canon hu ..

theorem execExportCtx_canon {s : State} (h : s.Canon) (cx) : Keeps (execExportCtx cx s) := by
  unfold execExportCtx
  grind -ring -linarith -lia [State.setMig_canon, State.resumePipes_canon, State.parkAll_canon, State.exportNow_canon, Keeps, State.Canon]

theorem State.importArrays_canon {s : State} (h : s.Canon) (cx x bs l) : (s.importArrays cx x bs l).Canon := by
  induction l generalizing s bs with
  | nil => exact h
  | cons n r ih => exact ih (State.modCtx_canon (State.devWriteAt_canon h ..) ..) _

theorem State.watchPoison_canon {s : State} (h : s.Canon) (cx va) : (s.watchPoison cx va).Canon := by
  unfold State.watchPoison
  grind -ring -linarith -lia [State.fault_canon, State.Canon]

theorem State.importHead_canon {s : State} (h : s.Canon) (cx h body slots) : (s.importHead cx h body slots).Canon := by
  unfold State.importHead
  grind -ring -linarith -lia [State.modCtx_canon, State.watchPoison_canon, State.Canon]

theorem State.takeEarly_canon {s : State} (h : s.Canon) (cx) : (s.takeEarly cx).Canon := by
  unfold State.takeEarly
  grind -ring -linarith -lia [State.devWrite_canon, foldl_canon, State.Canon]

theorem State.importOpen_canon {s : State} (h : s.Canon) (cx np rc bs) : (s.importOpen cx np rc bs).Canon := by
  unfold State.importOpen
  grind -ring -linarith -lia [State.modCtx_canon, State.Canon]

theorem State.importWait_canon {s : State} (h : s.Canon) (cx va entry) : (s.importWait cx va entry).Canon := by
  unfold State.importWait
  grind -ring -linarith -lia [State.modCtx_canon, State.watchPoison_canon, foldl_canon, State.Canon]

theorem State.importWaits_canon {s : State} (h : s.Canon) (cx bs at_ n) : (s.importWaits cx bs at_ n).Canon := by
  induction n with
  | zero => exact h
  | succ n ih => exact State.importWait_canon ih ..

theorem execImportCtx_canon {s : State} (h : s.Canon) (cx) : Keeps (execImportCtx cx s) := by
  unfold execImportCtx
  grind -ring -linarith -lia [State.setMig_canon, LR.go_canon, State.devReadAt_canon, State.importArrays_canon, State.importHead_canon, State.takeEarly_canon, State.importOpen_canon, State.importWaits_canon, Keeps, LR.Canon, State.Canon]

theorem execReleaseStubs_canon {s : State} (h : s.Canon) (cx) : Keeps (execReleaseStubs cx s) := by
  unfold execReleaseStubs
  grind -ring -linarith -lia [State.modCtx_canon, Keeps, State.Canon]

theorem execClaim_canon {s : State} (h : s.Canon) (vf bank) : Keeps (execClaim vf bank s) := by
  unfold execClaim
  grind -ring -linarith -lia [State.setBank_canon, Keeps, State.Canon]

theorem execRelease_canon {s : State} (h : s.Canon) (vf bank) : Keeps (execRelease vf bank s) := by
  unfold execRelease
  grind -ring -linarith -lia [State.setBank_canon, Keeps, State.Canon]

theorem execClearCounters_canon {s : State} (h : s.Canon) (vf bank) : Keeps (execClearCounters vf bank s) := by
  unfold execClearCounters
  grind -ring -linarith -lia [State.setBank_canon, State.modDie_canon, Keeps, State.Canon]

theorem execCounterLowRead_canon {s : State} (h : s.Canon) (vf bank k) : Keeps (execCounterLowRead vf bank k s) := by
  unfold execCounterLowRead
  grind -ring -linarith -lia [State.setVf_canon, Keeps, State.Canon]

theorem execVoltageReportRead_canon {s : State} (h : s.Canon) (die) : Keeps (execVoltageReportRead die s) := h
theorem execVoltageReportClear_canon {s : State} (h : s.Canon) (die) : Keeps (execVoltageReportClear die s) := h
theorem State.stopGo_canon {s : State} (h : s.Canon) (cx dump) : (s.stopGo cx dump).Canon := by
  unfold State.stopGo
  grind -ring -linarith -lia [State.setCtx_canon, State.cutAll_canon, State.Canon]

theorem execDebugStop_canon {s : State} (h : s.Canon) (cx) : Keeps (execDebugStop cx s) := by
  unfold execDebugStop
  grind -ring -linarith -lia [State.stopGo_canon, Keeps, State.Canon]

theorem State.debugFree_canon {s : State} (h : s.Canon) (cx) : (s.debugFree cx).Canon := by
  unfold State.debugFree
  grind -ring -linarith -lia [State.modCtx_canon, State.uncutAll_canon, State.thawCtx_canon, State.setTask_canon, foldl_canon, State.Canon]

theorem execDebugRelease_canon {s : State} (h : s.Canon) (cx) : Keeps (execDebugRelease cx s) := by
  unfold execDebugRelease
  grind -ring -linarith -lia [State.debugFree_canon, Keeps, State.Canon]

theorem State.dumpWrite_canon {s : State} (h : s.Canon) (cx l) : (s.dumpWrite cx l).Canon := by
  induction l generalizing s with
  | nil => exact State.debugFree_canon h ..
  | cons e r ih => exact Dev.go_canon _ _ _ _ (State.devTry_canon h ..) (fun u hu => hu) fun u hu => ih hu

theorem State.dumpNow_canon {s : State} (h : s.Canon) (cx) : (s.dumpNow cx).Canon := by
  unfold State.dumpNow
  grind -ring -linarith -lia [LR.go_canon, State.coresShown_canon, State.dumpWrite_canon, LR.Canon, State.Canon]

theorem execLiveDump_canon {s : State} (h : s.Canon) (cx) : Keeps (execLiveDump cx s) := by
  unfold execLiveDump
  grind -ring -linarith -lia [State.stopGo_canon, State.dumpNow_canon, Keeps, State.Canon]

theorem State.bankWrite_canon {s : State} (h : s.Canon) (vf bank r v) : (s.bankWrite vf bank r v).Canon := by
  unfold State.bankWrite
  grind -ring -linarith -lia [execClaim_canon, execRelease_canon, execClearCounters_canon, State.setBank_canon, Keeps, State.Canon]

theorem State.dropEntries_canon {s : State} (h : s.Canon) (cx) : (s.dropEntries cx).Canon := h
theorem State.haltWrite_canon {s : State} (h : s.Canon) (cx act) : (s.haltWrite cx act).Canon := by
  unfold State.haltWrite
  grind -ring -linarith -lia [State.askResume_canon, State.fault_canon, State.Canon]

theorem State.migWrite_canon {s : State} (h : s.Canon) (cx cmd) : (s.migWrite cx cmd).Canon := by
  unfold State.migWrite
  grind -ring -linarith -lia [execExportCtx_canon, execImportCtx_canon, execReleaseStubs_canon, Keeps, State.Canon]

theorem State.debugWrite_canon {s : State} (h : s.Canon) (cx w v) : (s.debugWrite cx w v).Canon := by
  unfold State.debugWrite
  grind -ring -linarith -lia [State.modCtx_canon, execDebugStop_canon, execDebugRelease_canon, execLiveDump_canon, Keeps, State.Canon]

theorem execRegisterWrite_canon {s : State} (h : s.Canon) (vf off v) : Keeps (execRegisterWrite vf off v s) :=   State.canon_ite h (State.canon_ite (State.modCtx_canon h ..) (State.canon_ite (State.bankWrite_canon h ..) (State.canon_ite h
    (State.canon_ite (State.modCtx_canon (State.canon_ite (State.dropEntries_canon h ..) h) ..)
      (State.canon_ite (State.haltWrite_canon h ..) (State.canon_ite (State.migWrite_canon h ..)
        (State.canon_ite (State.canon_ite (State.modDie_canon h ..) h)
          (State.canon_ite h (State.canon_ite (State.debugWrite_canon h ..) h)))))))))

theorem State.reset_canon  : (State.reset).Canon := rfl
theorem State.fresh_canon {s : State} (h : s.Canon) : (s.fresh).Canon := by
  unfold State.fresh
  grind -ring -linarith -lia [State.reset_canon, State.Canon]

theorem State.stoppedAt_canon {s : State} (h : s.Canon) (step report) : (s.stoppedAt step report).Canon := by
  unfold State.stoppedAt
  grind -ring -linarith -lia [State.fresh_canon, State.Canon]

theorem State.startUp_canon {s : State} (h : s.Canon) : (s.startUp).Canon := by
  unfold State.startUp
  grind -ring -linarith -lia [State.stoppedAt_canon, State.fresh_canon, State.Canon]

theorem execPowerOn_canon {s : State} (h : s.Canon) : Keeps (execPowerOn s) := by
  unfold execPowerOn
  grind -ring -linarith -lia [State.startUp_canon, Keeps, State.Canon]

theorem execStartUpRequest_canon {s : State} (h : s.Canon) : Keeps (execStartUpRequest s) := by
  unfold execStartUpRequest
  grind -ring -linarith -lia [State.startUp_canon, Keeps, State.Canon]

theorem State.idleDie_canon {s : State} (h : s.Canon) (die) : (s.idleDie die).Canon := by
  unfold State.idleDie
  extract_lets s1 s2 s3 s4
  have h1 : s1.Canon := h
  clear_value s1
  have h2 : s2.Canon := foldl_canon (fun u g hu => State.endColl_canon hu ..) _ h1
  clear_value s2
  have h3 : s3.Canon := foldl_canon (fun u e hu => foldl_canon (fun v c hv => State.dropColl_canon hv ..) _ hu) _ h2
  clear_value s3
  have h4 : s4.Canon := by
    refine foldl_canon (fun u i hu => ?_) _ h3
    split
    · exact State.dropTask_canon hu ..
    · exact hu
  clear_value s4
  exact h4

theorem execDieReset_canon {s : State} (h : s.Canon) (die) : Keeps (execDieReset die s) := by
  have hi := State.idleDie_canon h die
  unfold execDieReset
  generalize s.idleDie die = u at hi ⊢
  generalize dieCores die = l
  split
  · exact h
  · extract_lets u0 gone u1 key u2
    have h1 : u1.Canon := wfMem_filter _ hi
    clear_value u1
    have h2 : u2.Canon := foldl_canon (fun v n hv => State.modCore_canon hv ..) _ h1
    clear_value u2
    apply State.modDie_canon
    exact h2

theorem State.dark_canon {s : State} (h : s.Canon) : (s.dark).Canon := by
  unfold State.dark
  grind -ring -linarith -lia [State.fresh_canon, State.Canon]

theorem execFeedLoss_canon {s : State} (h : s.Canon) (feed) : Keeps (execFeedLoss feed s) := by
  unfold execFeedLoss
  grind -ring -linarith -lia [State.dark_canon, Keeps, State.Canon]

theorem execFeedReturn_canon {s : State} (h : s.Canon) (feed) : Keeps (execFeedReturn feed s) := by
  unfold execFeedReturn
  grind -ring -linarith -lia [Keeps, State.Canon]

theorem execPowerLoss_canon {s : State} (h : s.Canon) : Keeps (execPowerLoss s) := by
  unfold execPowerLoss
  grind -ring -linarith -lia [State.dark_canon, Keeps, State.Canon]

theorem State.modIsland_canon {s : State} (h : s.Canon) (i f) : (s.modIsland i f).Canon := h
theorem execPowerWindow_canon {s : State} (h : s.Canon) (mean island) : Keeps (execPowerWindow mean island s) := by
  unfold execPowerWindow
  grind -ring -linarith -lia [State.modIsland_canon, Keeps, State.Canon]

theorem execPowerCapSet_canon {s : State} (h : s.Canon) (watts) : Keeps (execPowerCapSet watts s) := by
  unfold execPowerCapSet
  grind -ring -linarith -lia [Keeps, State.Canon]

theorem execLvlcapSet_canon {s : State} (h : s.Canon) (island level) : Keeps (execLvlcapSet island level s) := by
  unfold execLvlcapSet
  grind -ring -linarith -lia [State.modIsland_canon, Keeps, State.Canon]

theorem State.reply_canon {s : State} (h : s.Canon) (bs) : (s.reply bs).Canon := h
theorem execSensorRead_canon {s : State} (h : s.Canon) (sensor) : Keeps (execSensorRead sensor s) := h
theorem execGetVersion_canon {s : State} (h : s.Canon) : Keeps (execGetVersion s) := h
theorem State.refused_canon {s : State} (h : s.Canon) : (s.refused).Canon := h
theorem execGetCapabilities_canon {s : State} (h : s.Canon) : Keeps (execGetCapabilities s) := by
  unfold execGetCapabilities
  grind -ring -linarith -lia [State.refused_canon, State.reply_canon, Keeps, State.Canon]

theorem execNegotiateAlgorithms_canon {s : State} (h : s.Canon) (sha256 slhDsa) : Keeps (execNegotiateAlgorithms sha256 slhDsa s) := by
  unfold execNegotiateAlgorithms
  grind -ring -linarith -lia [State.refused_canon, State.reply_canon, Keeps, State.Canon]

theorem State.busy_canon {s : State} (h : s.Canon) : (s.busy).Canon := h
theorem execGetDigests_canon {s : State} (h : s.Canon) : Keeps (execGetDigests s) := by
  unfold execGetDigests
  grind -ring -linarith -lia [State.busy_canon, State.refused_canon, State.reply_canon, Keeps, State.Canon]

theorem execGetCertificate_canon {s : State} (h : s.Canon) (slot off len) : Keeps (execGetCertificate slot off len s) := by
  unfold execGetCertificate
  grind -ring -linarith -lia [State.busy_canon, State.refused_canon, State.reply_canon, Keeps, State.Canon]

theorem execChallenge_canon {s : State} (h : s.Canon) (slot nonce) : Keeps (execChallenge slot nonce s) := by
  unfold execChallenge
  grind -ring -linarith -lia [State.busy_canon, State.refused_canon, State.reply_canon, Keeps, State.Canon]

theorem execGetMeasurements_canon {s : State} (h : s.Canon) (index) : Keeps (execGetMeasurements index s) := by
  unfold execGetMeasurements
  grind -ring -linarith -lia [State.refused_canon, State.busy_canon, State.reply_canon, Keeps, State.Canon]

theorem execConfigurationRequest_canon {s : State} (h : s.Canon) (off) : Keeps (execConfigurationRequest off s) := by
  unfold execConfigurationRequest
  grind -ring -linarith -lia [State.reply_canon, State.busy_canon, Keeps, State.Canon]

theorem execCxlMemRead_canon {s : State} (h : s.Canon) (dec addr size) : Keeps (execCxlMemRead dec addr size s) := by
  unfold execCxlMemRead
  grind -ring -linarith -lia [Keeps, State.Canon]

theorem State.cxlPut_canon {s : State} (h : s.Canon) (plc bs l) : (s.cxlPut plc bs l).Canon := by
  induction l generalizing s bs with
  | nil => exact h
  | cons e r ih =>
    refine ih ?_ _
    split
    · exact State.write_canon h ..
    · exact h

theorem execCxlMemWrite_canon {s : State} (h : s.Canon) (dec addr size v) : Keeps (execCxlMemWrite dec addr size v s) := by
  unfold execCxlMemWrite
  grind -ring -linarith -lia [State.cxlPut_canon, Keeps, State.Canon]

theorem State.transmit_canon {s : State} (h : s.Canon) (port vc dest p) : (s.transmit port vc dest p).Canon := h
theorem State.podGo_canon {s : State} (h : s.Canon) : (s.podGo).Canon := by
  unfold State.podGo
  grind -ring -linarith -lia [State.transmit_canon, foldl_canon, State.Canon]

theorem State.relink_canon {s : State} (h : s.Canon) (routes up) : (s.relink routes up).Canon := by
  unfold State.relink
  grind -ring -linarith -lia [State.podGo_canon, foldl_canon, State.Canon]

theorem State.loseLink_canon {s : State} (h : s.Canon) (port) : (s.loseLink port).Canon := by
  unfold State.loseLink
  grind -ring -linarith -lia [State.relink_canon, State.Canon]

theorem State.remoteColl_canon {s : State} (h : s.Canon) (part inst group kind dt nmem len midx off data) : (s.remoteColl part inst group kind dt nmem len midx off data).Canon := by
  unfold State.remoteColl
  grind -ring -linarith -lia [State.endColl_canon, State.Canon]

theorem State.lostColl_canon {s : State} (h : s.Canon) (part inst group nmem) : (s.lostColl part inst group nmem).Canon := by
  unfold State.lostColl
  grind -ring -linarith -lia [State.badColl_canon, State.Canon]

theorem State.follow_canon {s : State} (h : s.Canon) (master) : (s.follow master).Canon := h
theorem State.takeFlit_canon {s : State} (h : s.Canon) (vc p) : (s.takeFlit vc p).Canon := by
  unfold State.takeFlit
  grind -ring -linarith -lia [State.remoteColl_canon, State.lostColl_canon, State.follow_canon, State.devWrite_canon, State.Canon]

theorem execFlitReceive_canon {s : State} (h : s.Canon) (flit) : Keeps (execFlitReceive flit s) := by
  unfold execFlitReceive
  grind -ring -linarith -lia [State.loseLink_canon, State.takeFlit_canon, Keeps, State.Canon]

theorem execTimeFlit_canon {s : State} (h : s.Canon) (master) : Keeps (execTimeFlit master s) := h
theorem execPortDown_canon {s : State} (h : s.Canon) (port) : Keeps (execPortDown port s) := by
  unfold execPortDown
  grind -ring -linarith -lia [State.loseLink_canon, Keeps, State.Canon]

theorem execRouteReturn_canon {s : State} (h : s.Canon) (dest port) : Keeps (execRouteReturn dest port s) := by
  unfold execRouteReturn
  grind -ring -linarith -lia [State.relink_canon, Keeps, State.Canon]

theorem execVoltageMinimum_canon {s : State} (h : s.Canon) (die mv sensor island) : Keeps (execVoltageMinimum die mv sensor island s) := h
theorem execRouteTableLoad_canon {s : State} (h : s.Canon) (table) : Keeps (execRouteTableLoad table s) := by
  unfold execRouteTableLoad
  grind -ring -linarith -lia [State.relink_canon, Keeps, State.Canon]

theorem execCollectiveFaultLimit_canon {s : State} (h : s.Canon) (inst) : Keeps (execCollectiveFaultLimit inst s) := by
  unfold execCollectiveFaultLimit
  grind -ring -linarith -lia [State.keepColl_canon, State.memberDone_canon, State.collFault_canon, State.commitGo_canon, State.fault_canon, foldl_canon, Keeps, State.Canon]

theorem exec_canon {s : State} (h : s.Canon) (i) : Keeps (exec i s) := by
  cases i with
  | add => exact execAdd_canon h ..
  | sub => exact execSub_canon h ..
  | mul => exact execMul_canon h ..
  | mulh => exact execMulh_canon h ..
  | mulhn => exact execMulhn_canon h ..
  | div => exact execDiv_canon h ..
  | divn => exact execDivn_canon h ..
  | rem => exact execRem_canon h ..
  | remn => exact execRemn_canon h ..
  | and => exact execAnd_canon h ..
  | or => exact execOr_canon h ..
  | xor => exact execXor_canon h ..
  | andn => exact execAndn_canon h ..
  | shl => exact execShl_canon h ..
  | shr => exact execShr_canon h ..
  | sar => exact execSar_canon h ..
  | min => exact execMin_canon h ..
  | max => exact execMax_canon h ..
  | minn => exact execMinn_canon h ..
  | maxn => exact execMaxn_canon h ..
  | slt => exact execSlt_canon h ..
  | sltn => exact execSltn_canon h ..
  | seq => exact execSeq_canon h ..
  | clz => exact execClz_canon h ..
  | popc => exact execPopc_canon h ..
  | bext => exact execBext_canon h ..
  | bdep => exact execBdep_canon h ..
  | sext => exact execSext_canon h ..
  | zext => exact execZext_canon h ..
  | addi => exact execAddi_canon h ..
  | andi => exact execAndi_canon h ..
  | ori => exact execOri_canon h ..
  | xori => exact execXori_canon h ..
  | shli => exact execShli_canon h ..
  | shri => exact execShri_canon h ..
  | sari => exact execSari_canon h ..
  | lui => exact execLui_canon h ..
  | slti => exact execSlti_canon h ..
  | fadd => exact execFadd_canon h ..
  | fsub => exact execFsub_canon h ..
  | fmul => exact execFmul_canon h ..
  | fdiv => exact execFdiv_canon h ..
  | fsqrt => exact execFsqrt_canon h ..
  | frsq => exact execFrsq_canon h ..
  | fmin => exact execFmin_canon h ..
  | fmax => exact execFmax_canon h ..
  | fcvt => exact execFcvt_canon h ..
  | fcmpEq => exact execFcmpEq_canon h ..
  | fcmpLt => exact execFcmpLt_canon h ..
  | fcmpLe => exact execFcmpLe_canon h ..
  | fcmpUn => exact execFcmpUn_canon h ..
  | fclass => exact execFclass_canon h ..
  | fma => exact execFma_canon h ..
  | mfs => exact execMfs_canon h ..
  | mts => exact execMts_canon h ..
  | ld => exact execLd_canon h ..
  | st => exact execSt_canon h ..
  | vld => exact execVld_canon h ..
  | vgld => exact execVgld_canon h ..
  | vst => exact execVst_canon h ..
  | vlds => exact execVlds_canon h ..
  | vldsIx => exact execVldsIx_canon h ..
  | vsts => exact execVsts_canon h ..
  | lutx => exact execLutx_canon h ..
  | lutld => exact execLutld_canon h ..
  | beq => exact execBeq_canon h ..
  | bne => exact execBne_canon h ..
  | blt => exact execBlt_canon h ..
  | bge => exact execBge_canon h ..
  | bltn => exact execBltn_canon h ..
  | bgen => exact execBgen_canon h ..
  | bdnz => exact execBdnz_canon h ..
  | jal => exact execJal_canon h ..
  | jalr => exact execJalr_canon h ..
  | charge => exact execCharge_canon h ..
  | mcs => exact execMcs_canon h ..
  | crd => exact execCrd_canon h ..
  | crdt => exact execCrdt_canon h ..
  | cwr => exact execCwr_canon h ..
  | cwrt => exact execCwrt_canon h ..
  | advR => exact execAdvR_canon h ..
  | advW => exact execAdvW_canon h ..
  | emit => exact execEmit_canon h ..
  | exit => exact execExit_canon h ..
  | xwait => exact execXwait_canon h ..
  | xbar => exact execXbar_canon h ..
  | xamo => exact execXamo_canon h ..
  | xstop => exact execXstop_canon h ..
  | sadd => exact execSadd_canon h ..
  | smin => exact execSmin_canon h ..
  | smax => exact execSmax_canon h ..
  | sor => exact execSor_canon h ..
  | sand => exact execSand_canon h ..
  | sfadd => exact execSfadd_canon h ..
  | fenceAcq => exact execFenceAcq_canon h ..
  | tlbiPage => exact execTlbiPage_canon h ..
  | tlbiCtx => exact execTlbiCtx_canon h ..
  | tlbiPart => exact execTlbiPart_canon h ..
  | ptsync => exact execPtsync_canon h ..
  | trap x => exact execTrap_canon h x
  | brk => exact execBrk_canon h ..
  | vadd => exact execVadd_canon h ..
  | vsub => exact execVsub_canon h ..
  | vmul => exact execVmul_canon h ..
  | vmulh => exact execVmulh_canon h ..
  | vadds => exact execVadds_canon h ..
  | vsubs => exact execVsubs_canon h ..
  | vmin => exact execVmin_canon h ..
  | vmax => exact execVmax_canon h ..
  | vand => exact execVand_canon h ..
  | vor => exact execVor_canon h ..
  | vxor => exact execVxor_canon h ..
  | vandn => exact execVandn_canon h ..
  | vshl => exact execVshl_canon h ..
  | vshr => exact execVshr_canon h ..
  | vsar => exact execVsar_canon h ..
  | vabsd => exact execVabsd_canon h ..
  | vclz => exact execVclz_canon h ..
  | vpopc => exact execVpopc_canon h ..
  | vpack => exact execVpack_canon h ..
  | vunpack => exact execVunpack_canon h ..
  | vfadd => exact execVfadd_canon h ..
  | vfsub => exact execVfsub_canon h ..
  | vfmul => exact execVfmul_canon h ..
  | vfmin => exact execVfmin_canon h ..
  | vfmax => exact execVfmax_canon h ..
  | vfms => exact execVfms_canon h ..
  | vfnma => exact execVfnma_canon h ..
  | vscale => exact execVscale_canon h ..
  | vfma => exact execVfma_canon h ..
  | vcvt => exact execVcvt_canon h ..
  | vcvtSr => exact execVcvtSr_canon h ..
  | vrsum => exact execVrsum_canon h ..
  | vrmin => exact execVrmin_canon h ..
  | vrmax => exact execVrmax_canon h ..
  | vrfsum => exact execVrfsum_canon h ..
  | vscan => exact execVscan_canon h ..
  | vperm => exact execVperm_canon h ..
  | vshuf => exact execVshuf_canon h ..
  | vrot => exact execVrot_canon h ..
  | vnbr => exact execVnbr_canon h ..
  | vcmpEq => exact execVcmpEq_canon h ..
  | vcmpNe => exact execVcmpNe_canon h ..
  | vcmpLt => exact execVcmpLt_canon h ..
  | vcmpLe => exact execVcmpLe_canon h ..
  | vfcmpEq => exact execVfcmpEq_canon h ..
  | vfcmpLt => exact execVfcmpLt_canon h ..
  | vfcmpLe => exact execVfcmpLe_canon h ..
  | vfcmpUn => exact execVfcmpUn_canon h ..
  | vbcst => exact execVbcst_canon h ..
  | vins x y z w => exact execVins_canon h x y z w
  | vext => exact execVext_canon h ..
  | vmov => exact execVmov_canon h ..
  | vli => exact execVli_canon h ..
  | vlih => exact execVlih_canon h ..
  | vlui => exact execVlui_canon h ..
  | vorli => exact execVorli_canon h ..
  | vaddi => exact execVaddi_canon h ..
  | vsel => exact execVsel_canon h ..
  | kand => exact execKand_canon h ..
  | kor => exact execKor_canon h ..
  | knot => exact execKnot_canon h ..
  | kmov => exact execKmov_canon h ..
  | kmovFromScalar => exact execKmovFromScalar_canon h ..
  | kmovToScalar => exact execKmovToScalar_canon h ..
  | vrcp => exact execVrcp_canon h ..
  | vrsq => exact execVrsq_canon h ..
  | vexp2 => exact execVexp2_canon h ..
  | vlog2 => exact execVlog2_canon h ..
  | vtanh => exact execVtanh_canon h ..
  | fcLdi => exact execFcLdi_canon h ..
  | fcLdq => exact execFcLdq_canon h ..
  | fcLdp => exact execFcLdp_canon h ..
  | fcLde => exact execFcLde_canon h ..
  | fcLds => exact execFcLds_canon h ..
  | fcSto => exact execFcSto_canon h ..
  | fcAdd => exact execFcAdd_canon h ..
  | fcSub => exact execFcSub_canon h ..
  | fcShl => exact execFcShl_canon h ..
  | fcShr => exact execFcShr_canon h ..
  | fcAnd => exact execFcAnd_canon h ..
  | fcOr => exact execFcOr_canon h ..
  | fcMin => exact execFcMin_canon h ..
  | fcMax => exact execFcMax_canon h ..
  | fcSel => exact execFcSel_canon h ..
  | fcJmp => exact execFcJmp_canon h ..
  | fcJz => exact execFcJz_canon h ..
  | fcJnz => exact execFcJnz_canon h ..
  | fcJlt => exact execFcJlt_canon h ..
  | fcNextq => exact execFcNextq_canon h ..
  | fcPickmin => exact execFcPickmin_canon h ..
  | fcPickmax => exact execFcPickmax_canon h ..
  | fcDisp => exact execFcDisp_canon h ..
  | fcPreempt => exact execFcPreempt_canon h ..
  | fcFaultact => exact execFcFaultact_canon h ..
  | fcDefer => exact execFcDefer_canon h ..
  | fcEnd => exact execFcEnd_canon h ..
  | copy x y => exact execCopy_canon h x y
  | copy2d x y => exact execCopy2d_canon h x y
  | copyc x y => exact execCopyc_canon h x y
  | gather x y => exact execGather_canon h x y
  | scatter x y => exact execScatter_canon h x y
  | deck x y => exact execDeck_canon h x y
  | bload x y => exact execBload_canon h x y
  | mxt x y => exact execMxt_canon h x y
  | mxdrain x y => exact execMxdrain_canon h x y
  | coll x y => exact execColl_canon h x y
  | intake x y => exact execIntake_canon h x y
  | window x y => exact execWindow_canon h x y
  | note x y => exact execNote_canon h x y
  | qfence x y => exact execQfence_canon h x y
  | launch => exact execLaunch_canon h ..
  | pipe => exact execPipe_canon h ..
  | cmd => exact execCmd_canon h ..
  | signal => exact execSignal_canon h ..
  | wait => exact execWait_canon h ..
  | receipt => exact execReceipt_canon h ..
  | policyLoad => exact execPolicyLoad_canon h ..
  | policySwap => exact execPolicySwap_canon h ..
  | partCores => exact execPartCores_canon h ..
  | partPool => exact execPartPool_canon h ..
  | partCache => exact execPartCache_canon h ..
  | partQueue => exact execPartQueue_canon h ..
  | partLimits => exact execPartLimits_canon h ..
  | partVf => exact execPartVf_canon h ..
  | partDrop => exact execPartDrop_canon h ..
  | partCtx => exact execPartCtx_canon h ..
  | poolRefill => exact execPoolRefill_canon h ..
  | overrun => exact execOverrun_canon h ..
  | segmentLink => exact execSegmentLink_canon h ..
  | queueRoom => exact execQueueRoom_canon h ..
  | tlbiComplete => exact execTlbiComplete_canon h ..
  | activationReady => exact execActivationReady_canon h ..
  | isobarRound => exact execIsobarRound_canon h ..
  | decision => exact execDecision_canon h ..
  | deferInterval => exact execDeferInterval_canon h ..
  | lullResume => exact execLullResume_canon h ..
  | rowGate => exact execRowGate_canon h ..
  | walk => exact execWalk_canon h ..
  | drainLimit => exact execDrainLimit_canon h ..
  | faultLimit => exact execFaultLimit_canon h ..
  | replay => exact execReplay_canon h ..
  | windowFill => exact execWindowFill_canon h ..
  | faultRecordWrite => exact execFaultRecordWrite_canon h ..
  | machineCheck => exact execMachineCheck_canon h ..
  | schedulerEccError => exact execSchedulerEccError_canon h ..
  | sliceEnd => exact execSliceEnd_canon h ..
  | sliceStart => exact execSliceStart_canon h ..
  | scrollSaveComplete => exact execScrollSaveComplete_canon h ..
  | scrollRestoreComplete => exact execScrollRestoreComplete_canon h ..
  | frontDispatch => exact execFrontDispatch_canon h ..
  | frontIsobarRound => exact execFrontIsobarRound_canon h ..
  | commandComplete => exact execCommandComplete_canon h ..
  | collectiveResult => exact execCollectiveResult_canon h ..
  | messageDecided => exact execMessageDecided_canon h ..
  | messageDelivery => exact execMessageDelivery_canon h ..
  | doorbellWrite => exact execDoorbellWrite_canon h ..
  | waitTimeout => exact execWaitTimeout_canon h ..
  | receiptFinish => exact execReceiptFinish_canon h ..
  | batchClose => exact execBatchClose_canon h ..
  | contextResume => exact execContextResume_canon h ..
  | hostHalt => exact execHostHalt_canon h ..
  | resumeWithRewind => exact execResumeWithRewind_canon h ..
  | exportCtx => exact execExportCtx_canon h ..
  | importCtx => exact execImportCtx_canon h ..
  | releaseStubs => exact execReleaseStubs_canon h ..
  | claim => exact execClaim_canon h ..
  | release => exact execRelease_canon h ..
  | clearCounters => exact execClearCounters_canon h ..
  | counterLowRead => exact execCounterLowRead_canon h ..
  | voltageReportRead => exact execVoltageReportRead_canon h ..
  | voltageReportClear => exact execVoltageReportClear_canon h ..
  | debugStop => exact execDebugStop_canon h ..
  | debugRelease => exact execDebugRelease_canon h ..
  | liveDump => exact execLiveDump_canon h ..
  | registerWrite => exact execRegisterWrite_canon h ..
  | powerOn => exact execPowerOn_canon h ..
  | startUpRequest => exact execStartUpRequest_canon h ..
  | dieReset => exact execDieReset_canon h ..
  | feedLoss => exact execFeedLoss_canon h ..
  | feedReturn => exact execFeedReturn_canon h ..
  | powerLoss => exact execPowerLoss_canon h ..
  | powerWindow => exact execPowerWindow_canon h ..
  | powerCapSet => exact execPowerCapSet_canon h ..
  | lvlcapSet => exact execLvlcapSet_canon h ..
  | sensorRead => exact execSensorRead_canon h ..
  | getVersion => exact execGetVersion_canon h ..
  | getCapabilities => exact execGetCapabilities_canon h ..
  | negotiateAlgorithms => exact execNegotiateAlgorithms_canon h ..
  | getDigests => exact execGetDigests_canon h ..
  | getCertificate => exact execGetCertificate_canon h ..
  | challenge => exact execChallenge_canon h ..
  | getMeasurements => exact execGetMeasurements_canon h ..
  | configurationRequest => exact execConfigurationRequest_canon h ..
  | cxlMemRead => exact execCxlMemRead_canon h ..
  | cxlMemWrite => exact execCxlMemWrite_canon h ..
  | flitReceive => exact execFlitReceive_canon h ..
  | timeFlit => exact execTimeFlit_canon h ..
  | portDown => exact execPortDown_canon h ..
  | routeReturn => exact execRouteReturn_canon h ..
  | voltageMinimum => exact execVoltageMinimum_canon h ..
  | routeTableLoad => exact execRouteTableLoad_canon h ..
  | collectiveFaultLimit => exact execCollectiveFaultLimit_canon h ..

theorem State.beats_canon {s : State} (h : s.Canon) (core u cls n vf) : (s.beats core u cls n vf).Canon := by
  unfold State.beats
  grind -ring -linarith -lia [State.setBank_canon, State.Canon]

theorem State.beat_canon {s : State} (h : s.Canon) (r old) : (s.beat r old).Canon := by
  unfold State.beat
  grind -ring -linarith -lia [State.modRow_canon, State.beats_canon, State.Canon]

theorem State.fetch_canon {s : State} (h : s.Canon) (t) : (s.fetch t).Canon := by
  unfold State.fetch
  grind -ring -linarith -lia [State.setTask_canon, State.usePort_canon, Fetch.Canon, State.Canon]

theorem State.endAccess_canon {s : State} (h : s.Canon) (r) : (s.endAccess r).Canon := by
  unfold State.endAccess
  grind -ring -linarith -lia [State.modPort_canon, State.Canon]

theorem afterRow_canon {o : Host.Outcome State Fault Refusal} (h : Keeps o) (r t) : Keeps (afterRow r t o) := by
  cases o with
  | next s => exact State.beat_canon (State.endAccess_canon h _) ..
  | _ => trivial

theorem State.rowTurn_canon {s : State} (h : s.Canon) (r) : Keeps (s.rowTurn r) := by
  unfold State.rowTurn
  grind -ring -linarith -lia [State.beat_canon, State.commitGo_canon, State.modRow_canon, State.fetch_canon, afterRow_canon, State.stopTask_canon, State.missRow_canon, State.faultTask_canon, exec_canon, Fetch.Canon, Keeps, State.Canon]

theorem State.engineBeat_canon {s : State} (h : s.Canon) (cx k c) : (s.engineBeat cx k c).Canon := by
  unfold State.engineBeat
  grind -ring -linarith -lia [State.beats_canon, State.Canon]

theorem State.engineStep_canon {s : State} (h : s.Canon) (cx k) : Keeps (s.engineStep cx k) := by
  unfold State.engineStep
  grind -ring -linarith -lia [State.engineBeat_canon, exec_canon, Keeps, State.Canon]

theorem State.saveArray_canon {s : State} (h : s.Canon) (core) : (s.saveArray core).Canon := by
  unfold State.saveArray
  grind -ring -linarith -lia [State.modCore_canon, State.modCtx_canon, State.devWriteAt_canon, State.Canon]

theorem State.clearDie_canon {s : State} (h : s.Canon) (old die) : (s.clearDie old die).Canon := by
  unfold State.clearDie
  refine foldl_canon (fun u n hu => ?_) _ (foldl_canon (fun u c hu => ?_) _ h)
  · split
    · exact State.clear_canon hu ..
    · exact hu
  · split
    · exact State.clear_canon hu ..
    · exact hu

theorem State.moveCore_canon {s : State} (h : s.Canon) (n) : (s.moveCore n).Canon := by
  unfold State.moveCore
  grind -ring -linarith -lia [State.clear_canon, State.saveArray_canon, State.clearDie_canon, State.modCore_canon, State.modPart_canon, State.modFcast_canon, State.resumePipes_canon, State.passUnits_canon, foldl_canon, State.Canon]

theorem State.partWork_canon {s : State} (h : s.Canon) (cx) : (s.partWork cx).Canon := by
  unfold State.partWork
  refine foldl_canon (fun u p hu => ?_) _ (foldl_canon (fun u n hu => State.moveCore_canon hu ..) _ h)
  split
  · split
    · exact hu
    · exact State.complete_canon hu ..
  · exact State.dropWork_canon hu ..
  · exact State.ctxWork_canon hu ..
  · exact State.receiptWork_canon hu ..
  · exact hu

theorem State.parse_canon {s : State} (h : s.Canon) (cx w) : (s.parse cx w).Canon := by
  unfold State.parse
  grind -ring -linarith -lia [State.setCtx_canon, State.endPkt_canon, State.modCtx_canon, State.Canon]

theorem State.fetchPkt_canon {s : State} (h : s.Canon) (cx x) : (s.fetchPkt cx x).Canon := by
  unfold State.fetchPkt
  grind -ring -linarith -lia [State.devRead_canon, State.parse_canon, State.ringStall_canon, State.fault_canon, LR.Canon, State.Canon]

theorem State.ringTurn_canon {s : State} (h : s.Canon) (cx) : (s.ringTurn cx).1.Canon := by
  have hp := State.partWork_canon h cx
  unfold State.ringTurn
  generalize s.partWork cx = u at hp ⊢
  dsimp only
  cases hx : u.ctx cx with
  | none => exact hp
  | some x =>
    dsimp only
    split
    · exact hp
    · cases x.cur with
      | none => exact State.fetchPkt_canon hp ..
      | some _ => exact hp

theorem State.ringStep_canon {s : State} (h : s.Canon) (cx) {o} (ho : s.ringStep cx = o) : Keeps o := by
  have ht := State.ringTurn_canon h cx
  subst ho
  unfold State.ringStep
  generalize s.ringTurn cx = r at ht ⊢
  obtain ⟨u, _ | i⟩ := r
  · exact ht
  · exact exec_canon ht i

theorem State.forecastStep_canon {s : State} (h : s.Canon) (die part) : Keeps (s.forecastStep die part) := by
  unfold State.forecastStep
  grind -ring -linarith -lia [exec_canon, Keeps, State.Canon]

theorem State.move_canon {s : State} (h : s.Canon) {o} (ho : s.move = o) : Keeps o := by
  subst ho
  have hidle : State.Canon { s with turn := .idle } := h
  unfold State.move
  split
  · exact exec_canon hidle _
  · split
    · trivial
    · split
      · exact h
      · exact State.rowTurn_canon h ..
      · exact State.engineStep_canon h ..
      next cx _ =>
        have hr := @State.ringStep_canon _ h cx
        generalize s.ringStep cx = o at hr ⊢
        exact hr rfl
      · exact State.forecastStep_canon h ..
      · exact exec_canon hidle _

theorem State.sendTime_canon {s : State} (h : s.Canon) : (s.sendTime).Canon := by
  unfold State.sendTime
  grind -ring -linarith -lia [State.transmit_canon, foldl_canon, State.Canon]

theorem State.acked_canon {s : State} (h : s.Canon) : (s.acked).Canon := h
theorem State.pass_canon {s : State} (h : s.Canon) (dt) : (s.pass dt).Canon := by
  unfold State.pass
  grind -ring -linarith -lia [State.sendTime_canon, State.podGo_canon, State.acked_canon, State.Canon]


/-- Whatever agent moves, and where only ticks pass: the next state's memory is canonical. -/
theorem step_canon {s : State} (h : s.Canon) : Keeps (step s) := by
  unfold step
  split
  · exact exec_canon h _
  · split
    · exact State.move_canon h rfl
    next a r _ =>
      split
      · exact State.move_canon (s := { s with agenda := r, turn := a.who }) (State.canon_of_mem h rfl) rfl
      · exact State.canon_of_mem (State.pass_canon h _) rfl

end Sys2Proof.Machine

namespace Sys2Proof.Safety

open Sys2Proof.Machine

/-- Settles O55: every operation of the model that answers a state keeps memory canonical, and a step is made of them. -/
theorem stepKeepsMemoryCanonical : Obligations.StepKeepsMemoryCanonical := by
  unfold Obligations.StepKeepsMemoryCanonical
  intro s s' h hs
  have hk := step_canon h
  rw [hs] at hk
  exact hk

end Sys2Proof.Safety

end

section

namespace Sys2Proof.Machine

/-- The number of a queue, as its snapshot gives it. -/
def queueNumber (e : Nat × Ctx × Nat × QEnt) : Nat := 8 * (e.1 % 32) + e.2.2.1

/-- What the queues of one context are numbered by: its place in the partition, and the queue's own selector. -/
theorem mem_queuesOf_context {p c : Nat} {x : Ctx} {e : Nat × Ctx × Nat × QEnt}
    (h : e ∈ (List.range 8).filterMap fun q => (findT x.queues q).map fun en => (32 * p + c, x, q, en)) :
    e.1 = 32 * p + c ∧ e.2.2.1 < 8 := by
  obtain ⟨q, hq, he⟩ := List.mem_filterMap.mp h
  obtain ⟨en, -, rfl⟩ := Option.map_eq_some_iff.mp he
  exact ⟨rfl, List.mem_range.mp hq⟩

theorem queuesOf_ascends (s : State) (p : Nat) : (s.queuesOf p).Pairwise fun a b => queueNumber a < queueNumber b := by
  unfold State.queuesOf
  rw [List.pairwise_flatMap]
  constructor
  · intro c _
    cases s.ctx (32 * p + c) with
    | none => exact List.Pairwise.nil
    | some x =>
      rw [List.pairwise_filterMap]
      refine List.pairwise_lt_range.imp fun {q q'} hq e he e' he' => ?_
      obtain ⟨_, -, rfl⟩ := Option.map_eq_some_iff.mp he
      obtain ⟨_, -, rfl⟩ := Option.map_eq_some_iff.mp he'
      simp only [queueNumber]
      omega
  · refine List.pairwise_lt_range.imp_of_mem fun {c c'} hc hc' hlt e he e' he' => ?_
    rw [List.mem_range] at hc hc'
    cases hx : s.ctx (32 * p + c) with
    | none => simp [hx] at he
    | some x =>
      cases hx' : s.ctx (32 * p + c') with
      | none => simp [hx'] at he'
      | some x' =>
        simp only [hx] at he
        simp only [hx'] at he'
        obtain ⟨h1, h2⟩ := mem_queuesOf_context he
        obtain ⟨h3, h4⟩ := mem_queuesOf_context he'
        simp only [queueNumber]
        omega

/-- The candidate that a queue gives, if any: what `State.snapshot` does with each queue. -/
def State.candidate (s : State) (kind core : Nat) : Nat × Ctx × Nat × QEnt → Option QSnap := fun (cx, x, q, e) =>
  if kind = 0 ∧ s.dispatches cx = false then none
  else match x.oldest q (fun a => kind != 0 || s.placeable cx x core a) with
    | none => none
    | some a => if kind = 0 ∧ s.funds cx a = false then none
      else some ⟨8 * (cx % 32) + q, s.queueFields cx x q e core a, a.ready.getD 0⟩

theorem snapshot_eq_filterMap (s : State) (p kind core : Nat) : s.snapshot p kind core = (s.queuesOf p).filterMap (s.candidate kind core) := rfl

theorem candidate_number {s : State} {kind core : Nat} {e : Nat × Ctx × Nat × QEnt} {w : QSnap} (h : s.candidate kind core e = some w) :
    w.q = queueNumber e := by
  obtain ⟨cx, x, q, en⟩ := e
  unfold State.candidate at h
  dsimp only at h
  split at h
  · cases h
  · split at h
    · cases h
    · split at h
      · cases h
      · cases h
        rfl

end Sys2Proof.Machine

namespace Sys2Proof.Safety

open Sys2Proof.Machine

/-- Settles O36: a snapshot keeps the order in which the queues of a partition are listed, by context and then by selector. -/
theorem candidatesAscend : Obligations.CandidatesAscend := by
  unfold Obligations.CandidatesAscend
  intro s p kind core
  rw [snapshot_eq_filterMap, List.pairwise_filterMap]
  refine (queuesOf_ascends s p).imp fun {a b} hab u hu v hv => ?_
  rw [candidate_number hu, candidate_number hv]
  exact hab

end Sys2Proof.Safety

end

section

namespace Sys2Proof.Machine

/-! SUPPORT. Rounding a value that the format holds (O7): a magnitude code stands for a number of at most the format's precision at a last place not
below the format's, which rounding leaves as it is. -/

theorem bitLen_le {m k : Nat} (h : m < 2 ^ k) : bitLen m ≤ k := by
  unfold bitLen
  split
  · exact Nat.zero_le k
  next hm => exact Nat.succ_le_of_lt ((Nat.log2_lt hm).mpr h)

theorem bitLen_of_normal {m k : Nat} (hlo : 2 ^ k ≤ m) (hhi : m < 2 ^ (k + 1)) : bitLen m = k + 1 := by
  have hm : m ≠ 0 := by
    have := Nat.two_pow_pos k
    omega
  rw [bitLen, if_neg hm, (Nat.log2_eq_iff hm).mpr ⟨hlo, hhi⟩]

/-- A number of at most p bits whose last place is not below the least one is not cut. -/
theorem roundMag_of_fits {rm : Rm} {neg : Bool} {p m : Nat} {lo e : Int} (hm : bitLen m ≤ p) (he : lo ≤ e) (hq : e = lo ∨ bitLen m = p) :
    roundMag rm neg p (some lo) m e false = (m, e, false) := by
  have hmax : max (e + bitLen m - p) lo = e := by
    rcases hq with rfl | hp <;> omega
  simp [roundMag, hmax]

theorem magVal_eq_fin {f : Fm} {s n : Bool} {c m : Nat} {e : Int} (hp : 0 < f.p) (h : magVal f s c = .fin n m e) :
    s = n ∧ bitLen m ≤ f.p ∧ f.qmin ≤ e ∧ (e = f.qmin ∨ bitLen m = f.p) ∧ magCode f m e = c ∧ (m = 0 → c = 0) := by
  obtain ⟨k, hk⟩ : ∃ k, f.p = k + 1 := ⟨f.p - 1, by omega⟩
  have ht : 0 < 2 ^ k := Nat.two_pow_pos k
  simp only [magVal, hk, Nat.add_sub_cancel] at h
  split at h
  next h0 =>
    obtain ⟨rfl, rfl, rfl⟩ := FVal.fin.inj h
    have hc : c < 2 ^ (k + 1) := by
      have := (Nat.div_eq_zero_iff_lt ht).mp h0
      omega
    simp [magCode, hk, bitLen_le hc]
  next h0 =>
    obtain ⟨rfl, rfl, rfl⟩ := FVal.fin.inj h
    have hr := Nat.mod_lt c ht
    have hd := Nat.div_add_mod c (2 ^ k)
    have hlen : bitLen (2 ^ k + c % 2 ^ k) = k + 1 := bitLen_of_normal (by omega) (by omega)
    have hpos := Nat.pos_of_ne_zero h0
    have hplace : (f.qmin + (c / 2 ^ k : Nat) - 1 - f.qmin).toNat = c / 2 ^ k - 1 := by
      generalize c / 2 ^ k = d
      omega
    refine ⟨rfl, by omega, ?_, .inr (by omega), ?_, by omega⟩
    · generalize c / 2 ^ k = d at hpos ⊢
      omega
    rw [magCode, hplace, hk, Nat.add_sub_cancel, Nat.sub_mul, Nat.one_mul, Nat.mul_comm]
    have : 2 ^ k ≤ 2 ^ k * (c / 2 ^ k) := Nat.le_mul_of_pos_right _ hpos
    omega

/-- The code of a value's sign and magnitude. -/
theorem signed_code {w x : Nat} (hx : x < 2 ^ (w + 1)) :
    x % 2 ^ w + (if (x / 2 ^ w % 2 == 1) = true then 2 ^ w else 0) = x := by
  have hd := Nat.div_add_mod x (2 ^ w)
  have hlt : x / 2 ^ w < 2 := by
    rw [Nat.div_lt_iff_lt_mul (Nat.two_pow_pos w)]
    omega
  obtain h | h : x / 2 ^ w = 0 ∨ x / 2 ^ w = 1 := by
    generalize x / 2 ^ w = d at hlt
    omega
  · simp [h] at hd ⊢
    omega
  · simp [h] at hd ⊢
    omega

theorem round_ieee_value {p w : Nat} {lo hi : Int} {rm : Rm} {x m : Nat} {n : Bool} {e : Int} (hp : 0 < p) (hx : x < 2 ^ (w + 1))
    (hv : (Fm.ieee p lo hi (w + 1)).value x = .fin n m e) : (Fm.ieee p lo hi (w + 1)).round rm n m e false = (x, 0) := by
  simp only [Fm.value, Nat.add_sub_cancel] at hv
  split at hv
  next hc =>
    obtain ⟨rfl, hlen, hlo, hq, hcode, hzero⟩ := magVal_eq_fin (f := .ieee p lo hi (w + 1)) hp hv
    have hsign := signed_code hx
    by_cases hm : m = 0
    · rw [hzero hm, Nat.zero_add] at hsign
      simp [Fm.round, hm]
      simpa using hsign
    · have hmax : ¬ (Fm.ieee p lo hi (w + 1)).maxCode < x % 2 ^ w := by
        simp only [Fm.maxCode]
        omega
      have hmag := roundMag_of_fits (rm := rm) (neg := x / 2 ^ w % 2 == 1) hlen hlo hq
      simp only [Fm.round, hm, hmag, hcode, hmax, hsign, false_and, if_false, Bool.false_and, Nat.add_sub_cancel]
      rfl
  · split at hv <;> cases hv

end Sys2Proof.Machine

namespace Sys2Proof.Safety

open Sys2Proof.Machine

/-- Settles O7, for each IEEE format at once (`round_ieee_value`). -/
theorem roundKeepsRepresentable : Obligations.RoundKeepsRepresentable := by
  unfold Obligations.RoundKeepsRepresentable fmOf
  intro w rm x n m e hx hv
  split at hx
  next h0 =>
    rw [if_pos h0] at hv ⊢
    exact round_ieee_value (by decide) hx hv
  next h0 =>
    rw [if_neg h0] at hv ⊢
    split at hx
    next h1 =>
      rw [if_pos h1] at hv ⊢
      exact round_ieee_value (by decide) hx hv
    next h1 =>
      rw [if_neg h1] at hv ⊢
      exact round_ieee_value (by decide) hx hv

end Sys2Proof.Safety

end

section

namespace Sys2Proof.Machine

/-! SUPPORT. What staged stores cover (O17): the byte of a location under a list of cells is that of the last cell there, in the task's own view and
in memory once the cells are written. -/

/-- The byte at a location under a list of cells: that of the last one there. -/
def underCells (k : Nat) (cs : List Host.Cell) (b : Byte) : Byte := cs.foldl (fun a c => if c.1 = k then c.2 else a) b

theorem underCells_cellsAt (k a : Nat) (bs : List Byte) (b : Byte) :
    underCells k (cellsAt a bs) b = if a ≤ k ∧ k < a + bs.length then bs.getD (k - a) 0 else b := by
  induction bs generalizing a b with
  | nil => rw [if_neg (by simp)]; rfl
  | cons c r ih =>
    have hstep : underCells k (cellsAt a (c :: r)) b = underCells k (cellsAt (a + 1) r) (if a = k then c else b) := rfl
    rw [hstep, ih, List.length_cons]
    by_cases ha : a = k
    · subst ha
      simp
    · by_cases hr : a + 1 ≤ k ∧ k < a + 1 + r.length
      · rw [if_pos hr, if_pos (by omega), show k - a = (k - (a + 1)) + 1 by omega, List.getD_cons_succ]
      · rw [if_neg hr, if_neg ha, if_neg (by omega)]

theorem getB_putCells {m : List Host.Cell} (h : Memory.wf m = true) (cs : List Host.Cell) (k : Nat) :
    getB (putCells m cs) k = underCells k cs (getB m k) := by
  induction cs generalizing m with
  | nil => rfl
  | cons c r ih =>
    have hstep : putCells m (c :: r) = putCells (putB m c.1 c.2) r := rfl
    rw [hstep, ih (wfMem_putB c.1 c.2 h), getB_putB h]
    simp only [underCells, List.foldl_cons, eq_comm]

theorem runs_cons_of_nil {c : Host.Cell} {r : List Host.Cell} (h : runs r = []) : runs (c :: r) = [(c.1, [c.2])] := by
  unfold runs at h ⊢
  rw [List.foldr_cons, h]

theorem runs_cons_of_cons {c : Host.Cell} {r : List Host.Cell} {k : Nat} {bs : List Byte} {q : List (Nat × List Byte)} (h : runs r = (k, bs) :: q) :
    runs (c :: r) = if c.1 + 1 = k then (c.1, c.2 :: bs) :: q else (c.1, [c.2]) :: (k, bs) :: q := by
  unfold runs at h ⊢
  rw [List.foldr_cons, h]

/-- The runs of a list of cells are its cells. -/
theorem flatMap_runs (cs : List Host.Cell) : (runs cs).flatMap (fun r => cellsAt r.1 r.2) = cs := by
  induction cs with
  | nil => rfl
  | cons c r ih =>
    cases hr : runs r with
    | nil =>
      rw [hr] at ih
      rw [runs_cons_of_nil hr, ← ih]
      rfl
    | cons p q =>
      obtain ⟨k, bs⟩ := p
      rw [hr, List.flatMap_cons] at ih
      rw [runs_cons_of_cons hr]
      split
      next hk =>
        rw [List.flatMap_cons, ← ih, ← hk]
        rfl
      · rw [List.flatMap_cons, List.flatMap_cons, ih]
        rfl

@[simp] theorem writeCells_mem (s : State) (cs : List Host.Cell) : (s.writeCells cs).mem = putCells s.mem cs := by
  have hfold (l : List (Nat × List Byte)) (u : State) :
      (l.foldl (fun s e => s.write e.1 e.2) u).mem = putCells u.mem (l.flatMap fun r => cellsAt r.1 r.2) := by
    induction l generalizing u with
    | nil => rfl
    | cons e r ih =>
      rw [List.foldl_cons, ih, State.write_mem, List.flatMap_cons]
      simp only [putCells, List.foldl_append]
  rw [State.writeCells, hfold, flatMap_runs]

@[simp] theorem writeGranule_mem (s : State) (die cx key : Nat) : (s.writeGranule die cx key).mem = s.mem := by
  unfold State.writeGranule
  dsimp only
  split
  · rfl
  · split
    · rfl
    · split
      · rfl
      · split <;> rfl

@[simp] theorem writeVia_mem (s : State) (die cx va : Nat) (ks : List (Nat × Nat)) : (s.writeVia die cx va ks).mem = s.mem := by
  unfold State.writeVia
  generalize granules va ks = l
  induction l generalizing s with
  | nil => rfl
  | cons e r ih => rw [List.foldl_cons, ih, writeGranule_mem]

/-- The byte that staged items leave at a location where memory has one. -/
def underStaged (k : Nat) (l : List Staged) (b : Byte) : Byte :=
  l.foldl (fun b i => match i with
    | .store cells _ _ => underCells k cells b
    | _ => b) b

theorem loadByte_eq_underStaged (m : List Host.Cell) (l : List Staged) (k : Nat) : loadByte m l k = underStaged k l (getB m k) := rfl

theorem loadByte_append_store (m : List Host.Cell) (l : List Staged) (k : Nat) (cs : List Host.Cell) (va : Nat) (us : List PEnt) :
    loadByte m (l ++ [.store cs va us]) k = underCells k cs (loadByte m l k) := by
  simp only [loadByte_eq_underStaged, underStaged, List.foldl_append, List.foldl_cons, List.foldl_nil]

theorem loadByte_append_other (m : List Host.Cell) (l : List Staged) (k : Nat) (i : Staged) (hi : ∀ cs va us, i ≠ .store cs va us) :
    loadByte m (l ++ [i]) k = loadByte m l k := by
  cases i with
  | store cs va us => exact absurd rfl (hi cs va us)
  | _ => simp only [loadByte_eq_underStaged, underStaged, List.foldl_append, List.foldl_cons, List.foldl_nil]

/-- What step 1 of the commit does with one staged item. -/
def State.doStore (s : State) (t : Task) : Staged → State
  | .store cells va uses =>
    (if uses.isEmpty then s else s.writeVia (t.core / 8) t.cx va ((runs cells).map fun r => (r.1, r.2.length))).writeCells cells
  | _ => s

theorem doStores_eq_foldl (s : State) (t : Task) : s.doStores t = t.staged.foldl (fun s i => s.doStore t i) s := by
  unfold State.doStores State.doStore
  rfl

theorem doStore_store_mem (s : State) (t : Task) (cs va us) : (s.doStore t (.store cs va us)).mem = putCells s.mem cs := by
  simp only [State.doStore, writeCells_mem]
  split
  · rfl
  · rw [writeVia_mem]

theorem getB_foldl_doStore (t : Task) (k : Nat) (l : List Staged) {s : State} (h : Memory.wf s.mem = true) :
    getB (l.foldl (fun s i => s.doStore t i) s).mem k = underStaged k l (getB s.mem k) := by
  induction l generalizing s with
  | nil => rfl
  | cons i r ih =>
    rw [List.foldl_cons]
    cases i with
    | store cs va us =>
      have hmem := doStore_store_mem s t cs va us
      rw [ih (by rw [hmem]; exact wfMem_putCells cs h), hmem, getB_putCells h]
      rfl
    | _ => exact ih h

end Sys2Proof.Machine

namespace Sys2Proof.Safety

open Sys2Proof.Machine

/-- Settles O17: both the task's view and the commit's memory are memory under the cells of the staged stores, in order. -/
theorem loadsSeeStagedStores : Obligations.LoadsSeeStagedStores := by
  unfold Obligations.LoadsSeeStagedStores
  refine ⟨fun m l k a va bs us => ⟨rfl, ?_⟩, fun m l i k hi => loadByte_append_other m l k i hi, fun s t k h => ?_⟩
  · rw [loadByte_append_store, underCells_cellsAt]
  · rw [doStores_eq_foldl, getB_foldl_doStore t k t.staged h]
    rfl

end Sys2Proof.Safety

end

section

namespace Sys2Proof.Machine

/-! SUPPORT. Numbers in memory (O22): a number written reads back modulo its size, and nothing else changes. -/

theorem length_bytesOfNat (n w : Nat) : (bytesOfNat n w).length = n := by
  induction n generalizing w with
  | zero => rfl
  | succ n ih => simp [bytesOfNat, ih]

theorem natOfBytes_bytesOfNat (n w : Nat) : natOfBytes (bytesOfNat n w) = w % 2 ^ (8 * n) := by
  induction n generalizing w with
  | zero => simp [bytesOfNat, natOfBytes, Nat.mod_one]
  | succ n ih =>
    have hpow : 2 ^ (8 * (n + 1)) = 256 * 2 ^ (8 * n) := by rw [Nat.mul_succ, Nat.pow_add, Nat.mul_comm]
    simp only [bytesOfNat, natOfBytes, ih, BitVec.toNat_ofNat]
    rw [hpow, Nat.mod_mul]

theorem natOfBytes_lt (bs : List Byte) : natOfBytes bs < 2 ^ (8 * bs.length) := by
  induction bs with
  | nil => simp [natOfBytes]
  | cons b r ih =>
    have hb := b.isLt
    have hpow : 2 ^ (8 * (r.length + 1)) = 256 * 2 ^ (8 * r.length) := by rw [Nat.mul_succ, Nat.pow_add, Nat.mul_comm]
    simp only [natOfBytes, List.length_cons, hpow]
    omega

theorem getN_lt (m : List Host.Cell) (k n : Nat) : getN m k n < 2 ^ (8 * n) := by
  simpa [getN, getBs] using natOfBytes_lt (getBs m k n)

theorem getBs_write {s : State} (h : Memory.wf s.mem = true) (k : Nat) (bs : List Byte) : getBs (s.write k bs).mem k bs.length = bs := by
  refine List.ext_getElem (by simp [getBs]) fun i _ hi => ?_
  simp only [getBs, List.getElem_map, List.getElem_range, State.getB_write h]
  rw [if_pos ⟨Nat.le_add_right .., by omega⟩, Nat.add_sub_cancel_left, List.getD_eq_getElem _ _ hi]

theorem getN_writeN {s : State} (h : Memory.wf s.mem = true) (k n v : Nat) : getN (s.writeN k n v).mem k n = v % 2 ^ (8 * n) := by
  have hb := getBs_write h k (bytesOfNat n v)
  rw [length_bytesOfNat] at hb
  rw [getN, State.writeN, hb, natOfBytes_bytesOfNat]

theorem getB_writeN_other {s : State} (h : Memory.wf s.mem = true) (k n v : Nat) {j : Nat} (hj : j < k ∨ k + n ≤ j) :
    getB (s.writeN k n v).mem j = getB s.mem j := by
  rw [State.writeN, State.getB_write h, length_bytesOfNat, if_neg (by omega)]

theorem signedN_eq_toInt (n x : Nat) : signedN n (x % 2 ^ (8 * n)) = (BitVec.ofNat (8 * n) x).toInt := by
  have hlt : x % 2 ^ (8 * n) < 2 ^ (8 * n) := Nat.mod_lt _ (Nat.two_pow_pos _)
  have hhalf : x % 2 ^ (8 * n) < 2 ^ (8 * n - 1) ↔ 2 * (x % 2 ^ (8 * n)) < 2 ^ (8 * n) := by
    cases n with
    | zero => simp [Nat.mod_one]
    | succ n =>
      have hpow : 2 ^ (8 * (n + 1)) = 2 * 2 ^ (8 * (n + 1) - 1) := by rw [← Nat.pow_succ']; rfl
      omega
  simp only [signedN, BitVec.toInt, BitVec.toNat_ofNat, Nat.mod_mod, hhalf]
  push_cast
  rfl

end Sys2Proof.Machine

namespace Sys2Proof.Safety

open Sys2Proof.Machine

/-- Settles O22, by the result of each operation and `getN_writeN`. -/
theorem atomicResults : Obligations.AtomicResults := by
  unfold Obligations.AtomicResults
  intro s key size op v j h hsize old x becomes
  have hb {y : BitVec (8 * size)} (hy : rmw op size (getN s.mem key size) v % 2 ^ (8 * size) = y.toNat) : becomes y := by
    simp only [becomes, State.atomic, getN_writeN h, hy]
  have hold : getN s.mem key size % 2 ^ (8 * size) = old.toNat := rfl
  have hx : v % 2 ^ (8 * size) = x.toNat := rfl
  have hso : signedN size old.toNat = old.toInt := signedN_eq_toInt size _
  have hsx : signedN size x.toNat = x.toInt := signedN_eq_toInt size _
  have hmod (y : BitVec (8 * size)) : y.toNat % 2 ^ (8 * size) = y.toNat := Nat.mod_eq_of_lt y.isLt
  refine ⟨rfl, ?_, ?_, ?_, ?_, ?_, ?_, ?_, ?_, ?_, ?_, fun hj => getB_writeN_other h key size _ hj⟩
  · rintro rfl
    exact hb (by simp [rmw, hold, hx])
  · rintro rfl
    refine hb ?_
    simp only [rmw, hold, hx, hso, hsx]
    split <;> exact hmod _
  · rintro rfl
    refine hb ?_
    simp only [rmw, hold, hx, hso, hsx]
    split <;> exact hmod _
  · rintro rfl
    refine hb ?_
    simp only [rmw, hold, hx, Nat.min_def]
    split <;> exact hmod _
  · rintro rfl
    refine hb ?_
    simp only [rmw, hold, hx]
    by_cases hle : x.toNat ≤ old.toNat
    · rw [if_pos hle, Nat.max_eq_left hle, hmod]
    · rw [if_neg hle, Nat.max_eq_right (by omega), hmod]
  · rintro rfl
    exact hb (by simp only [rmw, hold, hx, ← BitVec.toNat_or, hmod])
  · rintro rfl
    exact hb (by simp only [rmw, hold, hx, ← BitVec.toNat_and, hmod])
  · rintro rfl
    exact hb (by simp only [rmw, hold, hx, ← BitVec.toNat_xor, hmod])
  · rintro rfl
    exact hb (by simp only [rmw, hx, hmod])
  · rintro rfl -
    exact hb (by simp only [rmw, hold, hx, BitVec.toNat_ofNat])

end Sys2Proof.Safety

end

section

set_option Elab.async false
namespace Sys2Proof.Machine

/-! SUPPORT. Round trips of Forecast operations, commands and packets (O58): each operand stands at its place in the word, so that the decoder reads it back
there, and every field that the decoder wants to be 0 is. -/

theorem decodeForecast_of_raw {w : Nat} {x : Instr} (h : decodeForecastRaw w = some x) (hw : x.wf = true) : decodeForecast w = some x := by
  simp only [decodeForecast, h, hw, if_true]

theorem decodeCommand_of_raw {w0 w1 : Nat} {x : Instr} (h : decodeCommandRaw w0 w1 = some x) (hw : x.wf = true) : decodeCommand w0 w1 = some x := by
  simp only [decodeCommand, h, hw, if_true]

theorem decodePacket_of_raw {k w : Nat} {x : Instr} (h : decodePacketRaw k w = some x) (hw : x.wf = true) : decodePacket k w = some x := by
  simp only [decodePacket, h, hw, if_true]

/-! ## Forecast operations -/

/-- The halfword of an operation fits and decodes to it. -/
def ForecastRoundTrips (x : Instr) : Prop := x.wf = true → encode x < 2 ^ 16 ∧ decodeForecast (encode x) = some x

theorem forecastRoundTrips_of {x : Instr} (hlt : encode x < 2 ^ 16) (hraw : decodeForecastRaw (encode x) = some x) : ForecastRoundTrips x :=
  fun hw => ⟨hlt, decodeForecast_of_raw hraw hw⟩

theorem forecastRoundTrips_fcLdi (d : BitVec 3) (n : BitVec 8) : ForecastRoundTrips (.fcLdi d n) := by
  refine forecastRoundTrips_of (by simp only [encode]; omega) ?_
  have hop : fld (encode (.fcLdi d n)) 15 11 = 1 := by
    simp only [fld, encode]
    omega
  simp only [decodeForecastRaw, hop]
  simp only [encode, Option.some.injEq, Instr.fcLdi.injEq]
  exact ⟨bvf_eq (by omega), bvf_eq (by omega)⟩

theorem forecastRoundTrips_fcLdq (d : BitVec 3) (n : BitVec 8) : ForecastRoundTrips (.fcLdq d n) := by
  refine forecastRoundTrips_of (by simp only [encode]; omega) ?_
  have hop : fld (encode (.fcLdq d n)) 15 11 = 2 := by
    simp only [fld, encode]
    omega
  simp only [decodeForecastRaw, hop]
  simp only [encode, Option.some.injEq, Instr.fcLdq.injEq]
  exact ⟨bvf_eq (by omega), bvf_eq (by omega)⟩

theorem forecastRoundTrips_fcLdp (d : BitVec 3) (n : BitVec 8) : ForecastRoundTrips (.fcLdp d n) := by
  refine forecastRoundTrips_of (by simp only [encode]; omega) ?_
  have hop : fld (encode (.fcLdp d n)) 15 11 = 3 := by
    simp only [fld, encode]
    omega
  simp only [decodeForecastRaw, hop]
  simp only [encode, Option.some.injEq, Instr.fcLdp.injEq]
  exact ⟨bvf_eq (by omega), bvf_eq (by omega)⟩

theorem forecastRoundTrips_fcLde (d : BitVec 3) (n : BitVec 8) : ForecastRoundTrips (.fcLde d n) := by
  refine forecastRoundTrips_of (by simp only [encode]; omega) ?_
  have hop : fld (encode (.fcLde d n)) 15 11 = 4 := by
    simp only [fld, encode]
    omega
  simp only [decodeForecastRaw, hop]
  simp only [encode, Option.some.injEq, Instr.fcLde.injEq]
  exact ⟨bvf_eq (by omega), bvf_eq (by omega)⟩

theorem forecastRoundTrips_fcLds (d : BitVec 3) (n : BitVec 4) : ForecastRoundTrips (.fcLds d n) := by
  refine forecastRoundTrips_of (by simp only [encode]; omega) ?_
  have hop : fld (encode (.fcLds d n)) 15 11 = 5 := by
    simp only [fld, encode]
    omega
  simp only [decodeForecastRaw, hop]
  refine (if_pos ?_).trans ?_
  · simp only [fld, encode]
    omega
  · simp only [encode, Option.some.injEq, Instr.fcLds.injEq]
    exact ⟨bvf_eq (by omega), bvf_eq (by omega)⟩

theorem forecastRoundTrips_fcSto (d : BitVec 3) (n : BitVec 4) : ForecastRoundTrips (.fcSto d n) := by
  refine forecastRoundTrips_of (by simp only [encode]; omega) ?_
  have hop : fld (encode (.fcSto d n)) 15 11 = 6 := by
    simp only [fld, encode]
    omega
  simp only [decodeForecastRaw, hop]
  refine (if_pos ?_).trans ?_
  · simp only [fld, encode]
    omega
  · simp only [encode, Option.some.injEq, Instr.fcSto.injEq]
    exact ⟨bvf_eq (by omega), bvf_eq (by omega)⟩

theorem forecastRoundTrips_fcAdd (d : BitVec 3) (n : BitVec 3) : ForecastRoundTrips (.fcAdd d n) := by
  refine forecastRoundTrips_of (by simp only [encode]; omega) ?_
  have hop : fld (encode (.fcAdd d n)) 15 11 = 7 := by
    simp only [fld, encode]
    omega
  simp only [decodeForecastRaw, hop]
  refine (if_pos ?_).trans ?_
  · simp only [fld, encode]
    omega
  · simp only [encode, Option.some.injEq, Instr.fcAdd.injEq]
    exact ⟨bvf_eq (by omega), bvf_eq (by omega)⟩

theorem forecastRoundTrips_fcSub (d : BitVec 3) (n : BitVec 3) : ForecastRoundTrips (.fcSub d n) := by
  refine forecastRoundTrips_of (by simp only [encode]; omega) ?_
  have hop : fld (encode (.fcSub d n)) 15 11 = 8 := by
    simp only [fld, encode]
    omega
  simp only [decodeForecastRaw, hop]
  refine (if_pos ?_).trans ?_
  · simp only [fld, encode]
    omega
  · simp only [encode, Option.some.injEq, Instr.fcSub.injEq]
    exact ⟨bvf_eq (by omega), bvf_eq (by omega)⟩

theorem forecastRoundTrips_fcShl (d : BitVec 3) (n : BitVec 5) : ForecastRoundTrips (.fcShl d n) := by
  refine forecastRoundTrips_of (by simp only [encode]; omega) ?_
  have hop : fld (encode (.fcShl d n)) 15 11 = 9 := by
    simp only [fld, encode]
    omega
  simp only [decodeForecastRaw, hop]
  refine (if_pos ?_).trans ?_
  · simp only [fld, encode]
    omega
  · simp only [encode, Option.some.injEq, Instr.fcShl.injEq]
    exact ⟨bvf_eq (by omega), bvf_eq (by omega)⟩

theorem forecastRoundTrips_fcShr (d : BitVec 3) (n : BitVec 5) : ForecastRoundTrips (.fcShr d n) := by
  refine forecastRoundTrips_of (by simp only [encode]; omega) ?_
  have hop : fld (encode (.fcShr d n)) 15 11 = 10 := by
    simp only [fld, encode]
    omega
  simp only [decodeForecastRaw, hop]
  refine (if_pos ?_).trans ?_
  · simp only [fld, encode]
    omega
  · simp only [encode, Option.some.injEq, Instr.fcShr.injEq]
    exact ⟨bvf_eq (by omega), bvf_eq (by omega)⟩

theorem forecastRoundTrips_fcAnd (d : BitVec 3) (n : BitVec 3) : ForecastRoundTrips (.fcAnd d n) := by
  refine forecastRoundTrips_of (by simp only [encode]; omega) ?_
  have hop : fld (encode (.fcAnd d n)) 15 11 = 11 := by
    simp only [fld, encode]
    omega
  simp only [decodeForecastRaw, hop]
  refine (if_pos ?_).trans ?_
  · simp only [fld, encode]
    omega
  · simp only [encode, Option.some.injEq, Instr.fcAnd.injEq]
    exact ⟨bvf_eq (by omega), bvf_eq (by omega)⟩

theorem forecastRoundTrips_fcOr (d : BitVec 3) (n : BitVec 3) : ForecastRoundTrips (.fcOr d n) := by
  refine forecastRoundTrips_of (by simp only [encode]; omega) ?_
  have hop : fld (encode (.fcOr d n)) 15 11 = 12 := by
    simp only [fld, encode]
    omega
  simp only [decodeForecastRaw, hop]
  refine (if_pos ?_).trans ?_
  · simp only [fld, encode]
    omega
  · simp only [encode, Option.some.injEq, Instr.fcOr.injEq]
    exact ⟨bvf_eq (by omega), bvf_eq (by omega)⟩

theorem forecastRoundTrips_fcMin (d : BitVec 3) (n : BitVec 3) : ForecastRoundTrips (.fcMin d n) := by
  refine forecastRoundTrips_of (by simp only [encode]; omega) ?_
  have hop : fld (encode (.fcMin d n)) 15 11 = 13 := by
    simp only [fld, encode]
    omega
  simp only [decodeForecastRaw, hop]
  refine (if_pos ?_).trans ?_
  · simp only [fld, encode]
    omega
  · simp only [encode, Option.some.injEq, Instr.fcMin.injEq]
    exact ⟨bvf_eq (by omega), bvf_eq (by omega)⟩

theorem forecastRoundTrips_fcMax (d : BitVec 3) (n : BitVec 3) : ForecastRoundTrips (.fcMax d n) := by
  refine forecastRoundTrips_of (by simp only [encode]; omega) ?_
  have hop : fld (encode (.fcMax d n)) 15 11 = 14 := by
    simp only [fld, encode]
    omega
  simp only [decodeForecastRaw, hop]
  refine (if_pos ?_).trans ?_
  · simp only [fld, encode]
    omega
  · simp only [encode, Option.some.injEq, Instr.fcMax.injEq]
    exact ⟨bvf_eq (by omega), bvf_eq (by omega)⟩

theorem forecastRoundTrips_fcSel (d : BitVec 3) (n : BitVec 3) (p : BitVec 3) : ForecastRoundTrips (.fcSel d n p) := by
  refine forecastRoundTrips_of (by simp only [encode]; omega) ?_
  have hop : fld (encode (.fcSel d n p)) 15 11 = 15 := by
    simp only [fld, encode]
    omega
  simp only [decodeForecastRaw, hop]
  refine (if_pos ?_).trans ?_
  · simp only [fld, encode]
    omega
  · simp only [encode, Option.some.injEq, Instr.fcSel.injEq]
    exact ⟨bvf_eq (by omega), bvf_eq (by omega), bvf_eq (by omega)⟩

theorem forecastRoundTrips_fcJmp (d : BitVec 8) : ForecastRoundTrips (.fcJmp d) := by
  refine forecastRoundTrips_of (by simp only [encode]; omega) ?_
  have hop : fld (encode (.fcJmp d)) 15 11 = 16 := by
    simp only [fld, encode]
    omega
  simp only [decodeForecastRaw, hop]
  refine (if_pos ?_).trans ?_
  · simp only [fld, encode]
    omega
  · simp only [encode, Option.some.injEq, Instr.fcJmp.injEq]
    exact bvf_eq (by omega)

theorem forecastRoundTrips_fcJz (d : BitVec 3) (n : BitVec 8) : ForecastRoundTrips (.fcJz d n) := by
  refine forecastRoundTrips_of (by simp only [encode]; omega) ?_
  have hop : fld (encode (.fcJz d n)) 15 11 = 17 := by
    simp only [fld, encode]
    omega
  simp only [decodeForecastRaw, hop]
  simp only [encode, Option.some.injEq, Instr.fcJz.injEq]
  exact ⟨bvf_eq (by omega), bvf_eq (by omega)⟩

theorem forecastRoundTrips_fcJnz (d : BitVec 3) (n : BitVec 8) : ForecastRoundTrips (.fcJnz d n) := by
  refine forecastRoundTrips_of (by simp only [encode]; omega) ?_
  have hop : fld (encode (.fcJnz d n)) 15 11 = 18 := by
    simp only [fld, encode]
    omega
  simp only [decodeForecastRaw, hop]
  simp only [encode, Option.some.injEq, Instr.fcJnz.injEq]
  exact ⟨bvf_eq (by omega), bvf_eq (by omega)⟩

theorem forecastRoundTrips_fcJlt (d : BitVec 3) (n : BitVec 8) : ForecastRoundTrips (.fcJlt d n) := by
  refine forecastRoundTrips_of (by simp only [encode]; omega) ?_
  have hop : fld (encode (.fcJlt d n)) 15 11 = 19 := by
    simp only [fld, encode]
    omega
  simp only [decodeForecastRaw, hop]
  simp only [encode, Option.some.injEq, Instr.fcJlt.injEq]
  exact ⟨bvf_eq (by omega), bvf_eq (by omega)⟩

theorem forecastRoundTrips_fcNextq (d : BitVec 3) (n : BitVec 1) : ForecastRoundTrips (.fcNextq d n) := by
  refine forecastRoundTrips_of (by simp only [encode]; omega) ?_
  have hop : fld (encode (.fcNextq d n)) 15 11 = 20 := by
    simp only [fld, encode]
    omega
  simp only [decodeForecastRaw, hop]
  refine (if_pos ?_).trans ?_
  · simp only [fld, encode]
    omega
  · simp only [encode, Option.some.injEq, Instr.fcNextq.injEq]
    exact ⟨bvf_eq (by omega), bvf_eq (by omega)⟩

theorem forecastRoundTrips_fcPickmin (d : BitVec 3) (n : BitVec 8) : ForecastRoundTrips (.fcPickmin d n) := by
  refine forecastRoundTrips_of (by simp only [encode]; omega) ?_
  have hop : fld (encode (.fcPickmin d n)) 15 11 = 21 := by
    simp only [fld, encode]
    omega
  simp only [decodeForecastRaw, hop]
  simp only [encode, Option.some.injEq, Instr.fcPickmin.injEq]
  exact ⟨bvf_eq (by omega), bvf_eq (by omega)⟩

theorem forecastRoundTrips_fcPickmax (d : BitVec 3) (n : BitVec 8) : ForecastRoundTrips (.fcPickmax d n) := by
  refine forecastRoundTrips_of (by simp only [encode]; omega) ?_
  have hop : fld (encode (.fcPickmax d n)) 15 11 = 22 := by
    simp only [fld, encode]
    omega
  simp only [decodeForecastRaw, hop]
  simp only [encode, Option.some.injEq, Instr.fcPickmax.injEq]
  exact ⟨bvf_eq (by omega), bvf_eq (by omega)⟩

theorem forecastRoundTrips_fcDisp : ForecastRoundTrips (.fcDisp) := by
  refine forecastRoundTrips_of (by simp only [encode]; omega) ?_
  have hop : fld (encode (.fcDisp)) 15 11 = 23 := by
    simp only [fld, encode]
    omega
  simp only [decodeForecastRaw, hop]
  rfl

theorem forecastRoundTrips_fcPreempt (d : BitVec 3) : ForecastRoundTrips (.fcPreempt d) := by
  refine forecastRoundTrips_of (by simp only [encode]; omega) ?_
  have hop : fld (encode (.fcPreempt d)) 15 11 = 24 := by
    simp only [fld, encode]
    omega
  simp only [decodeForecastRaw, hop]
  refine (if_pos ?_).trans ?_
  · simp only [fld, encode]
    omega
  · simp only [encode, Option.some.injEq, Instr.fcPreempt.injEq]
    exact bvf_eq (by omega)

theorem forecastRoundTrips_fcFaultact (d : BitVec 3) : ForecastRoundTrips (.fcFaultact d) := by
  refine forecastRoundTrips_of (by simp only [encode]; omega) ?_
  have hop : fld (encode (.fcFaultact d)) 15 11 = 25 := by
    simp only [fld, encode]
    omega
  simp only [decodeForecastRaw, hop]
  refine (if_pos ?_).trans ?_
  · simp only [fld, encode]
    omega
  · simp only [encode, Option.some.injEq, Instr.fcFaultact.injEq]
    exact bvf_eq (by omega)

theorem forecastRoundTrips_fcDefer : ForecastRoundTrips (.fcDefer) := by
  refine forecastRoundTrips_of (by simp only [encode]; omega) ?_
  have hop : fld (encode (.fcDefer)) 15 11 = 26 := by
    simp only [fld, encode]
    omega
  simp only [decodeForecastRaw, hop]
  rfl

theorem forecastRoundTrips_fcEnd : ForecastRoundTrips (.fcEnd) := by
  refine forecastRoundTrips_of (by simp only [encode]; omega) ?_
  have hop : fld (encode (.fcEnd)) 15 11 = 27 := by
    simp only [fld, encode]
    omega
  simp only [decodeForecastRaw, hop]
  rfl

/-! ## Words made of fields -/

/-- The word of fields, the first at bit 0 and each next one above it. -/
def pack : List ((w : Nat) × BitVec w) → Nat
  | [] => 0
  | ⟨w, x⟩ :: r => x.toNat + 2 ^ w * pack r

/-- The place of the field of a number in fields that begin at a place: the widths below it, summed from there. -/
def fieldPlace : List ((w : Nat) × BitVec w) → Nat → Nat → Nat
  | _, 0, a => a
  | [], _, a => a
  | e :: r, i + 1, a => fieldPlace r i (a + e.1)

theorem fieldPlace_add (l : List ((w : Nat) × BitVec w)) (i a b : Nat) : fieldPlace l i (a + b) = a + fieldPlace l i b := by
  induction l generalizing i b with
  | nil => cases i <;> rfl
  | cons e r ih =>
    cases i with
    | zero => rfl
    | succ i =>
      simp only [fieldPlace]
      rw [Nat.add_assoc, ih]

theorem fieldPlace_succ (e : (w : Nat) × BitVec w) (r : List ((w : Nat) × BitVec w)) (i : Nat) :
    fieldPlace (e :: r) (i + 1) 0 = e.1 + fieldPlace r i 0 := by
  simp only [fieldPlace]
  rw [Nat.add_comm, fieldPlace_add]

theorem pack_cons_div (w : Nat) (x : BitVec w) (r : List ((w : Nat) × BitVec w)) (k : Nat) : pack (⟨w, x⟩ :: r) / 2 ^ (w + k) = pack r / 2 ^ k := by
  rw [Nat.pow_add, ← Nat.div_div_eq_div_mul, pack, Nat.add_mul_div_left _ _ (Nat.two_pow_pos w), Nat.div_eq_of_lt x.isLt, Nat.zero_add]

theorem pack_div_fieldPlace {l : List ((w : Nat) × BitVec w)} {i w : Nat} {x : BitVec w} (h : l[i]? = some ⟨w, x⟩) :
    pack l / 2 ^ fieldPlace l i 0 % 2 ^ w = x.toNat := by
  induction l generalizing i with
  | nil => simp at h
  | cons e r ih =>
    cases i with
    | zero =>
      simp only [List.getElem?_cons_zero, Option.some.injEq] at h
      subst h
      simp only [pack, fieldPlace, Nat.pow_zero, Nat.div_one, Nat.add_mul_mod_self_left]
      exact Nat.mod_eq_of_lt x.isLt
    | succ i =>
      rw [fieldPlace_succ, pack_cons_div]
      exact ih h

theorem pack_div_above {l : List ((w : Nat) × BitVec w)} {i : Nat} (h : l[i]? = none) : pack l / 2 ^ fieldPlace l i 0 = 0 := by
  induction l generalizing i with
  | nil => simp [pack]
  | cons e r ih =>
    cases i with
    | zero => simp at h
    | succ i =>
      rw [fieldPlace_succ, pack_cons_div]
      exact ih h

theorem bvf_pack {l : List ((w : Nat) × BitVec w)} (hi lo : Nat) {x : BitVec (hi - lo + 1)} (i : Nat) (h : l[i]? = some ⟨hi - lo + 1, x⟩)
    (hlo : fieldPlace l i 0 = lo) : bvf (pack l) hi lo = x := bvf_eq (hlo ▸ pack_div_fieldPlace h)

theorem fld_pack {l : List ((w : Nat) × BitVec w)} {hi lo : Nat} {x : BitVec (hi - lo + 1)} (i : Nat) (h : l[i]? = some ⟨hi - lo + 1, x⟩)
    (hlo : fieldPlace l i 0 = lo) : fld (pack l) hi lo = x.toNat := by
  subst hlo
  exact pack_div_fieldPlace h

theorem fld_pack_ofNat {l : List ((w : Nat) × BitVec w)} {hi lo n : Nat} (i : Nat) (h : l[i]? = some ⟨hi - lo + 1, BitVec.ofNat _ n⟩)
    (hlo : fieldPlace l i 0 = lo) (hn : n < 2 ^ (hi - lo + 1)) : fld (pack l) hi lo = n := by
  rw [fld_pack i h hlo, BitVec.toNat_ofNat, Nat.mod_eq_of_lt hn]

/-- Nothing stands above the fields. -/
theorem fld_pack_above {l : List ((w : Nat) × BitVec w)} {hi lo : Nat} (i : Nat) (h : l[i]? = none) (hlo : fieldPlace l i 0 = lo) :
    fld (pack l) hi lo = 0 := by
  subst hlo
  rw [fld, pack_div_above h, Nat.zero_mod]

/-! ## Commands -/

theorem mxt_short_of_wf {h : CmdHdr} {o : MxtOps} (hw : Instr.wf (.mxt h o) = true) : o.ach = 0 → o.ahdr = 0 ∧ o.aspc = 0 := by
  intro ha
  simp only [Instr.wf, MxtOps.wf, decide_eq_true_eq] at hw
  obtain ⟨-, -, -, -, -, -, hshort, -⟩ := hw
  exact (hshort ha).2

theorem note_short_of_wf {h : CmdHdr} {o : NoteOps} (hw : Instr.wf (.note h o) = true) : o.long = 0 → o.nval64 = 0 := by
  intro hl
  simp only [Instr.wf, NoteOps.wf, Bool.and_eq_true, decide_eq_true_eq] at hw
  obtain ⟨-, ⟨-, -, -, hshort⟩, -⟩ := hw
  exact hshort hl

/-- The two words of a command decode to it. -/
def CommandRoundTrips (x : Instr) : Prop := x.wf = true → decodeCommand (encodeCommand x).1 (encodeCommand x).2 = some x

theorem encodeCopy_fst (h : CmdHdr) (o : CopyOps) : (encodeCopy h o).1 =
    pack [⟨57, o.far⟩, ⟨16, o.len⟩, ⟨3, o.near⟩, ⟨20, o.noff⟩, ⟨2, 0#2⟩, ⟨1, 0#1⟩, ⟨5, h.sets⟩, ⟨16, h.waitm⟩, ⟨8, 1#8⟩] := by
  simp only [encodeCopy, encodeHdr, pack, BitVec.toNat_ofNat]
  omega

theorem commandRoundTrips_copy (h : CmdHdr) (o : CopyOps) : CommandRoundTrips (.copy h o) := by
  intro hw
  refine decodeCommand_of_raw ?_ hw
  have hopc : fld (encodeCopy h o).1 127 120 = 1 := by
    rw [encodeCopy_fst]
    exact fld_pack_ofNat 8 rfl rfl (by decide)
  simp only [encodeCommand, decodeCommandRaw, hopc]
  refine (if_pos ?_).trans ?_
  · rw [encodeCopy_fst]
    exact ⟨fld_pack_ofNat 4 rfl rfl (by decide), fld_pack_ofNat 5 rfl rfl (by decide), rfl⟩
  · rw [encodeCopy_fst]
    simp only [decodeHdr, Option.some.injEq, Instr.copy.injEq]
    constructor
    · exact congrArg₂ CmdHdr.mk (bvf_pack 103 99 6 rfl rfl) (bvf_pack 119 104 7 rfl rfl)
    · cases o
      simp only [CopyOps.mk.injEq]
      exact ⟨bvf_pack 56 0 0 rfl rfl, bvf_pack 72 57 1 rfl rfl, bvf_pack 75 73 2 rfl rfl, bvf_pack 95 76 3 rfl rfl⟩

theorem encodeCopy2d_fst (h : CmdHdr) (o : Copy2dOps) : (encodeCopy2d h o).1 =
    pack [⟨57, o.dst⟩, ⟨3, o.dsp⟩, ⟨16, o.rows⟩, ⟨20, o.dstride⟩, ⟨2, 0#2⟩, ⟨1, 1#1⟩, ⟨5, h.sets⟩, ⟨16, h.waitm⟩, ⟨8, 2#8⟩] := by
  simp only [encodeCopy2d, encodeHdr, pack, BitVec.toNat_ofNat]
  omega

theorem encodeCopy2d_snd (h : CmdHdr) (o : Copy2dOps) : (encodeCopy2d h o).2 =
    pack [⟨57, o.src⟩, ⟨3, o.ssp⟩, ⟨4, 0#4⟩, ⟨20, o.rlen⟩, ⟨20, o.sstride⟩, ⟨24, 0#24⟩] := by
  simp only [encodeCopy2d, pack, BitVec.toNat_ofNat]
  omega

theorem commandRoundTrips_copy2d (h : CmdHdr) (o : Copy2dOps) : CommandRoundTrips (.copy2d h o) := by
  intro hw
  refine decodeCommand_of_raw ?_ hw
  have hopc : fld (encodeCopy2d h o).1 127 120 = 2 := by
    rw [encodeCopy2d_fst]
    exact fld_pack_ofNat 8 rfl rfl (by decide)
  simp only [encodeCommand, decodeCommandRaw, hopc]
  refine (if_pos ?_).trans ?_
  · rw [encodeCopy2d_fst, encodeCopy2d_snd]
    exact ⟨fld_pack_ofNat 4 rfl rfl (by decide), fld_pack_ofNat 2 rfl rfl (by decide), fld_pack_ofNat 5 rfl rfl (by decide), fld_pack_ofNat 5 rfl rfl (by decide)⟩
  · rw [encodeCopy2d_fst, encodeCopy2d_snd]
    simp only [decodeHdr, Option.some.injEq, Instr.copy2d.injEq]
    constructor
    · exact congrArg₂ CmdHdr.mk (bvf_pack 103 99 6 rfl rfl) (bvf_pack 119 104 7 rfl rfl)
    · cases o
      simp only [Copy2dOps.mk.injEq]
      exact ⟨bvf_pack 56 0 0 rfl rfl, bvf_pack 59 57 1 rfl rfl, bvf_pack 75 60 2 rfl rfl, bvf_pack 95 76 3 rfl rfl, bvf_pack 56 0 0 rfl rfl, bvf_pack 59 57 1 rfl rfl, bvf_pack 83 64 3 rfl rfl, bvf_pack 103 84 4 rfl rfl⟩

theorem encodeCopyc_fst (h : CmdHdr) (o : CopycOps) : (encodeCopyc h o).1 =
    pack [⟨57, o.far⟩, ⟨16, o.len⟩, ⟨3, o.near⟩, ⟨20, o.noff⟩, ⟨2, 0#2⟩, ⟨1, 1#1⟩, ⟨5, h.sets⟩, ⟨16, h.waitm⟩, ⟨8, 3#8⟩] := by
  simp only [encodeCopyc, encodeHdr, pack, BitVec.toNat_ofNat]
  omega

theorem encodeCopyc_snd (h : CmdHdr) (o : CopycOps) : (encodeCopyc h o).2 =
    pack [⟨57, o.cwa⟩, ⟨7, 0#7⟩, ⟨64, o.cwv⟩] := by
  simp only [encodeCopyc, pack, BitVec.toNat_ofNat]
  omega

theorem commandRoundTrips_copyc (h : CmdHdr) (o : CopycOps) : CommandRoundTrips (.copyc h o) := by
  intro hw
  refine decodeCommand_of_raw ?_ hw
  have hopc : fld (encodeCopyc h o).1 127 120 = 3 := by
    rw [encodeCopyc_fst]
    exact fld_pack_ofNat 8 rfl rfl (by decide)
  simp only [encodeCommand, decodeCommandRaw, hopc]
  refine (if_pos ?_).trans ?_
  · rw [encodeCopyc_fst, encodeCopyc_snd]
    exact ⟨fld_pack_ofNat 4 rfl rfl (by decide), fld_pack_ofNat 1 rfl rfl (by decide), fld_pack_ofNat 5 rfl rfl (by decide)⟩
  · rw [encodeCopyc_fst, encodeCopyc_snd]
    simp only [decodeHdr, Option.some.injEq, Instr.copyc.injEq]
    constructor
    · exact congrArg₂ CmdHdr.mk (bvf_pack 103 99 6 rfl rfl) (bvf_pack 119 104 7 rfl rfl)
    · cases o
      simp only [CopycOps.mk.injEq]
      exact ⟨bvf_pack 56 0 0 rfl rfl, bvf_pack 72 57 1 rfl rfl, bvf_pack 75 73 2 rfl rfl, bvf_pack 95 76 3 rfl rfl, bvf_pack 56 0 0 rfl rfl, bvf_pack 127 64 2 rfl rfl⟩

theorem encodeGather_fst (h : CmdHdr) (o : GatherOps) : (encodeGather h o).1 =
    pack [⟨57, o.base⟩, ⟨3, o.esz⟩, ⟨1, o.iw⟩, ⟨1, 0#1⟩, ⟨16, o.count⟩, ⟨3, o.isp⟩, ⟨17, 0#17⟩, ⟨1, 1#1⟩, ⟨5, h.sets⟩, ⟨16, h.waitm⟩,
      ⟨8, 4#8⟩] := by
  simp only [encodeGather, encodeHdr, pack, BitVec.toNat_ofNat]
  omega

theorem encodeGather_snd (h : CmdHdr) (o : GatherOps) : (encodeGather h o).2 =
    pack [⟨57, o.idx⟩, ⟨3, o.dsp⟩, ⟨4, 0#4⟩, ⟨57, o.data⟩, ⟨7, 0#7⟩] := by
  simp only [encodeGather, pack, BitVec.toNat_ofNat]
  omega

theorem commandRoundTrips_gather (h : CmdHdr) (o : GatherOps) : CommandRoundTrips (.gather h o) := by
  intro hw
  refine decodeCommand_of_raw ?_ hw
  have hopc : fld (encodeGather h o).1 127 120 = 4 := by
    rw [encodeGather_fst]
    exact fld_pack_ofNat 10 rfl rfl (by decide)
  simp only [encodeCommand, decodeCommandRaw, hopc]
  refine (if_pos ?_).trans ?_
  · rw [encodeGather_fst, encodeGather_snd]
    exact ⟨fld_pack_ofNat 3 rfl rfl (by decide), fld_pack_ofNat 6 rfl rfl (by decide), fld_pack_ofNat 2 rfl rfl (by decide), fld_pack_ofNat 4 rfl rfl (by decide), fld_pack_ofNat 7 rfl rfl (by decide)⟩
  · rw [encodeGather_fst, encodeGather_snd]
    simp only [decodeHdr, Option.some.injEq, Instr.gather.injEq]
    constructor
    · exact congrArg₂ CmdHdr.mk (bvf_pack 103 99 8 rfl rfl) (bvf_pack 119 104 9 rfl rfl)
    · cases o
      simp only [GatherOps.mk.injEq]
      exact ⟨bvf_pack 56 0 0 rfl rfl, bvf_pack 59 57 1 rfl rfl, bvf_pack 60 60 2 rfl rfl, bvf_pack 77 62 4 rfl rfl, bvf_pack 80 78 5 rfl rfl, bvf_pack 56 0 0 rfl rfl, bvf_pack 59 57 1 rfl rfl, bvf_pack 120 64 3 rfl rfl⟩

theorem encodeScatter_fst (h : CmdHdr) (o : GatherOps) : (encodeScatter h o).1 =
    pack [⟨57, o.base⟩, ⟨3, o.esz⟩, ⟨1, o.iw⟩, ⟨1, 0#1⟩, ⟨16, o.count⟩, ⟨3, o.isp⟩, ⟨17, 0#17⟩, ⟨1, 1#1⟩, ⟨5, h.sets⟩, ⟨16, h.waitm⟩,
      ⟨8, 5#8⟩] := by
  simp only [encodeScatter, encodeHdr, pack, BitVec.toNat_ofNat]
  omega

theorem encodeScatter_snd (h : CmdHdr) (o : GatherOps) : (encodeScatter h o).2 =
    pack [⟨57, o.idx⟩, ⟨3, o.dsp⟩, ⟨4, 0#4⟩, ⟨57, o.data⟩, ⟨7, 0#7⟩] := by
  simp only [encodeScatter, pack, BitVec.toNat_ofNat]
  omega

theorem commandRoundTrips_scatter (h : CmdHdr) (o : GatherOps) : CommandRoundTrips (.scatter h o) := by
  intro hw
  refine decodeCommand_of_raw ?_ hw
  have hopc : fld (encodeScatter h o).1 127 120 = 5 := by
    rw [encodeScatter_fst]
    exact fld_pack_ofNat 10 rfl rfl (by decide)
  simp only [encodeCommand, decodeCommandRaw, hopc]
  refine (if_pos ?_).trans ?_
  · rw [encodeScatter_fst, encodeScatter_snd]
    exact ⟨fld_pack_ofNat 3 rfl rfl (by decide), fld_pack_ofNat 6 rfl rfl (by decide), fld_pack_ofNat 2 rfl rfl (by decide), fld_pack_ofNat 4 rfl rfl (by decide), fld_pack_ofNat 7 rfl rfl (by decide)⟩
  · rw [encodeScatter_fst, encodeScatter_snd]
    simp only [decodeHdr, Option.some.injEq, Instr.scatter.injEq]
    constructor
    · exact congrArg₂ CmdHdr.mk (bvf_pack 103 99 8 rfl rfl) (bvf_pack 119 104 9 rfl rfl)
    · cases o
      simp only [GatherOps.mk.injEq]
      exact ⟨bvf_pack 56 0 0 rfl rfl, bvf_pack 59 57 1 rfl rfl, bvf_pack 60 60 2 rfl rfl, bvf_pack 77 62 4 rfl rfl, bvf_pack 80 78 5 rfl rfl, bvf_pack 56 0 0 rfl rfl, bvf_pack 59 57 1 rfl rfl, bvf_pack 120 64 3 rfl rfl⟩

theorem encodeDeck_fst (h : CmdHdr) (o : DeckOps) : (encodeDeck h o).1 =
    pack [⟨57, o.src⟩, ⟨16, o.doff⟩, ⟨16, o.len⟩, ⟨3, o.ssp⟩, ⟨6, 0#6⟩, ⟨1, 0#1⟩, ⟨5, h.sets⟩, ⟨16, h.waitm⟩, ⟨8, 6#8⟩] := by
  simp only [encodeDeck, encodeHdr, pack, BitVec.toNat_ofNat]
  omega

theorem commandRoundTrips_deck (h : CmdHdr) (o : DeckOps) : CommandRoundTrips (.deck h o) := by
  intro hw
  refine decodeCommand_of_raw ?_ hw
  have hopc : fld (encodeDeck h o).1 127 120 = 6 := by
    rw [encodeDeck_fst]
    exact fld_pack_ofNat 8 rfl rfl (by decide)
  simp only [encodeCommand, decodeCommandRaw, hopc]
  refine (if_pos ?_).trans ?_
  · rw [encodeDeck_fst]
    exact ⟨fld_pack_ofNat 4 rfl rfl (by decide), fld_pack_ofNat 5 rfl rfl (by decide), rfl⟩
  · rw [encodeDeck_fst]
    simp only [decodeHdr, Option.some.injEq, Instr.deck.injEq]
    constructor
    · exact congrArg₂ CmdHdr.mk (bvf_pack 103 99 6 rfl rfl) (bvf_pack 119 104 7 rfl rfl)
    · cases o
      simp only [DeckOps.mk.injEq]
      exact ⟨bvf_pack 56 0 0 rfl rfl, bvf_pack 72 57 1 rfl rfl, bvf_pack 88 73 2 rfl rfl, bvf_pack 91 89 3 rfl rfl⟩

theorem encodeBload_fst (h : CmdHdr) (o : BloadOps) : (encodeBload h o).1 =
    pack [⟨16, o.doff⟩, ⟨1, o.sc⟩, ⟨81, 0#81⟩, ⟨1, 0#1⟩, ⟨5, h.sets⟩, ⟨16, h.waitm⟩, ⟨8, 7#8⟩] := by
  simp only [encodeBload, encodeHdr, pack, BitVec.toNat_ofNat]
  omega

theorem commandRoundTrips_bload (h : CmdHdr) (o : BloadOps) : CommandRoundTrips (.bload h o) := by
  intro hw
  refine decodeCommand_of_raw ?_ hw
  have hopc : fld (encodeBload h o).1 127 120 = 7 := by
    rw [encodeBload_fst]
    exact fld_pack_ofNat 6 rfl rfl (by decide)
  simp only [encodeCommand, decodeCommandRaw, hopc]
  refine (if_pos ?_).trans ?_
  · rw [encodeBload_fst]
    exact ⟨fld_pack_ofNat 2 rfl rfl (by decide), fld_pack_ofNat 3 rfl rfl (by decide), rfl⟩
  · rw [encodeBload_fst]
    simp only [decodeHdr, Option.some.injEq, Instr.bload.injEq]
    constructor
    · exact congrArg₂ CmdHdr.mk (bvf_pack 103 99 4 rfl rfl) (bvf_pack 119 104 5 rfl rfl)
    · cases o
      simp only [BloadOps.mk.injEq]
      exact ⟨bvf_pack 15 0 0 rfl rfl, bvf_pack 16 16 1 rfl rfl⟩

theorem encodeMxt_fst (h : CmdHdr) (o : MxtOps) : (encodeMxt h o).1 =
    pack [⟨15, o.abase⟩, ⟨6, o.mm1⟩, ⟨8, o.km1⟩, ⟨23, o.ascl⟩, ⟨2, o.mode⟩, ⟨2, o.aprec⟩, ⟨2, o.bprec⟩, ⟨1, o.afin⟩, ⟨1, o.bfin⟩,
      ⟨1, o.fresh⟩, ⟨1, o.swap0⟩, ⟨16, o.bnext⟩, ⟨1, o.ach⟩, ⟨19, 0#19⟩, ⟨1, o.ach⟩, ⟨5, h.sets⟩, ⟨16, h.waitm⟩, ⟨8, 8#8⟩] := by
  simp only [encodeMxt, encodeHdr, pack, BitVec.toNat_ofNat]
  omega

theorem encodeMxt_snd (h : CmdHdr) (o : MxtOps) : (encodeMxt h o).2 =
    pack [⟨25, o.ahdr⟩, ⟨1, o.aspc⟩, ⟨102, 0#102⟩] := by
  simp only [encodeMxt, pack, BitVec.toNat_ofNat]
  omega

theorem commandRoundTrips_mxt (h : CmdHdr) (o : MxtOps) : CommandRoundTrips (.mxt h o) := by
  intro hw
  refine decodeCommand_of_raw ?_ hw
  have hopc : fld (encodeMxt h o).1 127 120 = 8 := by
    rw [encodeMxt_fst]
    exact fld_pack_ofNat 17 rfl rfl (by decide)
  simp only [encodeCommand, decodeCommandRaw, hopc]
  refine (if_pos ?_).trans ?_
  · rw [encodeMxt_fst, encodeMxt_snd]
    refine ⟨fld_pack_ofNat 13 rfl rfl (by decide), fld_pack_ofNat 2 rfl rfl (by decide), ?_, ?_⟩
    · exact (fld_pack 14 (x := o.ach) rfl rfl).trans (fld_pack (hi := 78) (lo := 78) 12 (x := o.ach) rfl rfl).symm
    · intro hz
      rw [fld_pack (hi := 98) (lo := 98) 14 (x := o.ach) rfl rfl] at hz
      obtain ⟨hahdr, haspc⟩ := mxt_short_of_wf hw (BitVec.eq_of_toNat_eq hz)
      simp [pack, hahdr, haspc]
  · rw [encodeMxt_fst, encodeMxt_snd]
    simp only [decodeHdr, Option.some.injEq, Instr.mxt.injEq]
    constructor
    · exact congrArg₂ CmdHdr.mk (bvf_pack 103 99 15 rfl rfl) (bvf_pack 119 104 16 rfl rfl)
    · cases o
      simp only [MxtOps.mk.injEq]
      exact ⟨bvf_pack 14 0 0 rfl rfl, bvf_pack 20 15 1 rfl rfl, bvf_pack 28 21 2 rfl rfl, bvf_pack 51 29 3 rfl rfl, bvf_pack 53 52 4 rfl rfl, bvf_pack 55 54 5 rfl rfl, bvf_pack 57 56 6 rfl rfl, bvf_pack 58 58 7 rfl rfl, bvf_pack 59 59 8 rfl rfl, bvf_pack 60 60 9 rfl rfl, bvf_pack 61 61 10 rfl rfl, bvf_pack 77 62 11 rfl rfl, bvf_pack 78 78 12 rfl rfl, bvf_pack 24 0 0 rfl rfl, bvf_pack 25 25 1 rfl rfl⟩

theorem encodeMxdrain_fst (h : CmdHdr) (o : MxdrainOps) : (encodeMxdrain h o).1 =
    pack [⟨15, o.dst⟩, ⟨6, o.mm1⟩, ⟨3, o.ofmt⟩, ⟨2, o.prec⟩, ⟨1, o.usgn⟩, ⟨1, o.fin⟩, ⟨70, 0#70⟩, ⟨1, 0#1⟩, ⟨5, h.sets⟩, ⟨16, h.waitm⟩,
      ⟨8, 9#8⟩] := by
  simp only [encodeMxdrain, encodeHdr, pack, BitVec.toNat_ofNat]
  omega

theorem commandRoundTrips_mxdrain (h : CmdHdr) (o : MxdrainOps) : CommandRoundTrips (.mxdrain h o) := by
  intro hw
  refine decodeCommand_of_raw ?_ hw
  have hopc : fld (encodeMxdrain h o).1 127 120 = 9 := by
    rw [encodeMxdrain_fst]
    exact fld_pack_ofNat 10 rfl rfl (by decide)
  simp only [encodeCommand, decodeCommandRaw, hopc]
  refine (if_pos ?_).trans ?_
  · rw [encodeMxdrain_fst]
    exact ⟨fld_pack_ofNat 6 rfl rfl (by decide), fld_pack_ofNat 7 rfl rfl (by decide), rfl⟩
  · rw [encodeMxdrain_fst]
    simp only [decodeHdr, Option.some.injEq, Instr.mxdrain.injEq]
    constructor
    · exact congrArg₂ CmdHdr.mk (bvf_pack 103 99 8 rfl rfl) (bvf_pack 119 104 9 rfl rfl)
    · cases o
      simp only [MxdrainOps.mk.injEq]
      exact ⟨bvf_pack 14 0 0 rfl rfl, bvf_pack 20 15 1 rfl rfl, bvf_pack 23 21 2 rfl rfl, bvf_pack 25 24 3 rfl rfl, bvf_pack 26 26 4 rfl rfl, bvf_pack 27 27 5 rfl rfl⟩

theorem encodeColl_fst (h : CmdHdr) (o : CollOps) : (encodeColl h o).1 =
    pack [⟨2, o.kind⟩, ⟨2, o.dt⟩, ⟨3, o.scope⟩, ⟨11, o.midx⟩, ⟨11, o.nmem⟩, ⟨16, o.group⟩, ⟨16, o.len⟩, ⟨15, o.src⟩, ⟨15, o.dst⟩, ⟨7, 0#7⟩,
      ⟨1, 0#1⟩, ⟨5, h.sets⟩, ⟨16, h.waitm⟩, ⟨8, 10#8⟩] := by
  simp only [encodeColl, encodeHdr, pack, BitVec.toNat_ofNat]
  omega

theorem commandRoundTrips_coll (h : CmdHdr) (o : CollOps) : CommandRoundTrips (.coll h o) := by
  intro hw
  refine decodeCommand_of_raw ?_ hw
  have hopc : fld (encodeColl h o).1 127 120 = 10 := by
    rw [encodeColl_fst]
    exact fld_pack_ofNat 13 rfl rfl (by decide)
  simp only [encodeCommand, decodeCommandRaw, hopc]
  refine (if_pos ?_).trans ?_
  · rw [encodeColl_fst]
    exact ⟨fld_pack_ofNat 9 rfl rfl (by decide), fld_pack_ofNat 10 rfl rfl (by decide), rfl⟩
  · rw [encodeColl_fst]
    simp only [decodeHdr, Option.some.injEq, Instr.coll.injEq]
    constructor
    · exact congrArg₂ CmdHdr.mk (bvf_pack 103 99 11 rfl rfl) (bvf_pack 119 104 12 rfl rfl)
    · cases o
      simp only [CollOps.mk.injEq]
      exact ⟨bvf_pack 1 0 0 rfl rfl, bvf_pack 3 2 1 rfl rfl, bvf_pack 6 4 2 rfl rfl, bvf_pack 17 7 3 rfl rfl, bvf_pack 28 18 4 rfl rfl, bvf_pack 44 29 5 rfl rfl, bvf_pack 60 45 6 rfl rfl, bvf_pack 75 61 7 rfl rfl, bvf_pack 90 76 8 rfl rfl⟩

theorem encodeIntake_fst (h : CmdHdr) (o : IntakeOps) : (encodeIntake h o).1 =
    pack [⟨57, o.srca⟩, ⟨30, o.slen⟩, ⟨2, o.tenc⟩, ⟨3, o.cset⟩, ⟨2, o.cont⟩, ⟨4, 0#4⟩, ⟨1, 1#1⟩, ⟨5, h.sets⟩, ⟨16, h.waitm⟩, ⟨8, 11#8⟩] := by
  simp only [encodeIntake, encodeHdr, pack, BitVec.toNat_ofNat]
  omega

theorem encodeIntake_snd (h : CmdHdr) (o : IntakeOps) : (encodeIntake h o).2 =
    pack [⟨32, o.tag⟩, ⟨20, o.prof⟩, ⟨76, 0#76⟩] := by
  simp only [encodeIntake, pack, BitVec.toNat_ofNat]
  omega

theorem commandRoundTrips_intake (h : CmdHdr) (o : IntakeOps) : CommandRoundTrips (.intake h o) := by
  intro hw
  refine decodeCommand_of_raw ?_ hw
  have hopc : fld (encodeIntake h o).1 127 120 = 11 := by
    rw [encodeIntake_fst]
    exact fld_pack_ofNat 9 rfl rfl (by decide)
  simp only [encodeCommand, decodeCommandRaw, hopc]
  refine (if_pos ?_).trans ?_
  · rw [encodeIntake_fst, encodeIntake_snd]
    exact ⟨fld_pack_ofNat 5 rfl rfl (by decide), fld_pack_ofNat 2 rfl rfl (by decide), fld_pack_ofNat 6 rfl rfl (by decide)⟩
  · rw [encodeIntake_fst, encodeIntake_snd]
    simp only [decodeHdr, Option.some.injEq, Instr.intake.injEq]
    constructor
    · exact congrArg₂ CmdHdr.mk (bvf_pack 103 99 7 rfl rfl) (bvf_pack 119 104 8 rfl rfl)
    · cases o
      simp only [IntakeOps.mk.injEq]
      exact ⟨bvf_pack 56 0 0 rfl rfl, bvf_pack 86 57 1 rfl rfl, bvf_pack 88 87 2 rfl rfl, bvf_pack 91 89 3 rfl rfl, bvf_pack 93 92 4 rfl rfl, bvf_pack 31 0 0 rfl rfl, bvf_pack 51 32 1 rfl rfl⟩

theorem encodeWindow_fst (h : CmdHdr) (o : WindowOps) : (encodeWindow h o).1 =
    pack [⟨57, o.wbase⟩, ⟨4, o.tile⟩, ⟨10, o.slot⟩, ⟨8, o.gm1⟩, ⟨2, o.dims⟩, ⟨1, o.dir⟩, ⟨16, 0#16⟩, ⟨1, 1#1⟩, ⟨5, h.sets⟩, ⟨16, h.waitm⟩,
      ⟨8, 12#8⟩] := by
  simp only [encodeWindow, encodeHdr, pack, BitVec.toNat_ofNat]
  omega

theorem encodeWindow_snd (h : CmdHdr) (o : WindowOps) : (encodeWindow h o).2 =
    pack [⟨12, o.n0m1⟩, ⟨20, o.str0⟩, ⟨12, o.n1m1⟩, ⟨20, o.str1⟩, ⟨12, o.n2m1⟩, ⟨20, o.str2⟩, ⟨16, o.stream⟩, ⟨16, 0#16⟩] := by
  simp only [encodeWindow, pack, BitVec.toNat_ofNat]
  omega

theorem commandRoundTrips_window (h : CmdHdr) (o : WindowOps) : CommandRoundTrips (.window h o) := by
  intro hw
  refine decodeCommand_of_raw ?_ hw
  have hopc : fld (encodeWindow h o).1 127 120 = 12 := by
    rw [encodeWindow_fst]
    exact fld_pack_ofNat 10 rfl rfl (by decide)
  simp only [encodeCommand, decodeCommandRaw, hopc]
  refine (if_pos ?_).trans ?_
  · rw [encodeWindow_fst, encodeWindow_snd]
    exact ⟨fld_pack_ofNat 6 rfl rfl (by decide), fld_pack_ofNat 7 rfl rfl (by decide), fld_pack_ofNat 7 rfl rfl (by decide)⟩
  · rw [encodeWindow_fst, encodeWindow_snd]
    simp only [decodeHdr, Option.some.injEq, Instr.window.injEq]
    constructor
    · exact congrArg₂ CmdHdr.mk (bvf_pack 103 99 8 rfl rfl) (bvf_pack 119 104 9 rfl rfl)
    · cases o
      simp only [WindowOps.mk.injEq]
      exact ⟨bvf_pack 56 0 0 rfl rfl, bvf_pack 60 57 1 rfl rfl, bvf_pack 70 61 2 rfl rfl, bvf_pack 78 71 3 rfl rfl, bvf_pack 80 79 4 rfl rfl, bvf_pack 81 81 5 rfl rfl, bvf_pack 11 0 0 rfl rfl, bvf_pack 31 12 1 rfl rfl, bvf_pack 43 32 2 rfl rfl, bvf_pack 63 44 3 rfl rfl, bvf_pack 75 64 4 rfl rfl, bvf_pack 95 76 5 rfl rfl, bvf_pack 111 96 6 rfl rfl⟩

theorem encodeNote_fst (h : CmdHdr) (o : NoteOps) : (encodeNote h o).1 =
    pack [⟨57, o.naddr⟩, ⟨3, o.nsp⟩, ⟨4, 0#4⟩, ⟨32, o.nval⟩, ⟨2, 0#2⟩, ⟨1, o.long⟩, ⟨5, h.sets⟩, ⟨16, h.waitm⟩, ⟨8, 13#8⟩] := by
  simp only [encodeNote, encodeHdr, pack, BitVec.toNat_ofNat]
  omega

theorem encodeNote_snd (h : CmdHdr) (o : NoteOps) : (encodeNote h o).2 =
    pack [⟨64, o.nval64⟩, ⟨64, 0#64⟩] := by
  simp only [encodeNote, pack, BitVec.toNat_ofNat]
  omega

theorem commandRoundTrips_note (h : CmdHdr) (o : NoteOps) : CommandRoundTrips (.note h o) := by
  intro hw
  refine decodeCommand_of_raw ?_ hw
  have hopc : fld (encodeNote h o).1 127 120 = 13 := by
    rw [encodeNote_fst]
    exact fld_pack_ofNat 8 rfl rfl (by decide)
  simp only [encodeCommand, decodeCommandRaw, hopc]
  refine (if_pos ?_).trans ?_
  · rw [encodeNote_fst, encodeNote_snd]
    refine ⟨fld_pack_ofNat 2 rfl rfl (by decide), fld_pack_ofNat 4 rfl rfl (by decide), fld_pack_ofNat 1 rfl rfl (by decide), ?_⟩
    · intro hz
      rw [fld_pack (hi := 98) (lo := 98) 5 (x := o.long) rfl rfl] at hz
      simp [pack, note_short_of_wf hw (BitVec.eq_of_toNat_eq hz)]
  · rw [encodeNote_fst, encodeNote_snd]
    simp only [decodeHdr, Option.some.injEq, Instr.note.injEq]
    constructor
    · exact congrArg₂ CmdHdr.mk (bvf_pack 103 99 6 rfl rfl) (bvf_pack 119 104 7 rfl rfl)
    · cases o
      simp only [NoteOps.mk.injEq]
      exact ⟨bvf_pack 56 0 0 rfl rfl, bvf_pack 59 57 1 rfl rfl, bvf_pack 95 64 3 rfl rfl, bvf_pack 98 98 5 rfl rfl, bvf_pack 63 0 0 rfl rfl⟩

theorem encodeQfence_fst (h : CmdHdr) (o : QfenceOps) : (encodeQfence h o).1 =
    pack [⟨6, o.qmask⟩, ⟨92, 0#92⟩, ⟨1, 0#1⟩, ⟨5, h.sets⟩, ⟨16, h.waitm⟩, ⟨8, 14#8⟩] := by
  simp only [encodeQfence, encodeHdr, pack, BitVec.toNat_ofNat]
  omega

theorem commandRoundTrips_qfence (h : CmdHdr) (o : QfenceOps) : CommandRoundTrips (.qfence h o) := by
  intro hw
  refine decodeCommand_of_raw ?_ hw
  have hopc : fld (encodeQfence h o).1 127 120 = 14 := by
    rw [encodeQfence_fst]
    exact fld_pack_ofNat 5 rfl rfl (by decide)
  simp only [encodeCommand, decodeCommandRaw, hopc]
  refine (if_pos ?_).trans ?_
  · rw [encodeQfence_fst]
    exact ⟨fld_pack_ofNat 1 rfl rfl (by decide), fld_pack_ofNat 2 rfl rfl (by decide), rfl⟩
  · rw [encodeQfence_fst]
    simp only [decodeHdr, Option.some.injEq, Instr.qfence.injEq]
    constructor
    · exact congrArg₂ CmdHdr.mk (bvf_pack 103 99 3 rfl rfl) (bvf_pack 119 104 4 rfl rfl)
    · cases o
      simp only [QfenceOps.mk.injEq]
      exact bvf_pack 5 0 0 rfl rfl

/-! ## Packets -/

/-- The body of a packet of a kind decodes to it. -/
def PacketRoundTrips (k : Nat) (x : Instr) : Prop := x.wf = true → decodePacket k (encodePacket x) = some x

theorem encodeLaunch_eq (o : LaunchOps) : encodeLaunch o =
    pack [⟨64, 0#64⟩, ⟨64, o.block⟩, ⟨21, o.count⟩] := by
  simp only [encodeLaunch, pack, BitVec.toNat_ofNat]
  omega

theorem packetRoundTrips_launch (o : LaunchOps) : PacketRoundTrips 1 (.launch o) := by
  refine decodePacket_of_raw ?_
  simp only [decodePacketRaw, encodePacket]
  refine (if_pos ?_).trans ?_
  · rw [encodeLaunch_eq]
    exact fld_pack_above 3 rfl rfl
  · rw [encodeLaunch_eq]
    cases o
    simp only [Option.some.injEq, Instr.launch.injEq, LaunchOps.mk.injEq]
    exact ⟨bvf_pack 127 64 1 rfl rfl, bvf_pack 148 128 2 rfl rfl⟩

theorem encodePipe_eq (o : PipeOps) : encodePipe o =
    pack [⟨64, 0#64⟩, ⟨64, o.block⟩] := by
  simp only [encodePipe, pack, BitVec.toNat_ofNat]
  omega

theorem packetRoundTrips_pipe (o : PipeOps) : PacketRoundTrips 2 (.pipe o) := by
  refine decodePacket_of_raw ?_
  simp only [decodePacketRaw, encodePacket]
  refine (if_pos ?_).trans ?_
  · rw [encodePipe_eq]
    exact fld_pack_above 2 rfl rfl
  · rw [encodePipe_eq]
    cases o
    simp only [Option.some.injEq, Instr.pipe.injEq, PipeOps.mk.injEq]
    exact bvf_pack 127 64 1 rfl rfl

theorem encodeCmd_eq (o : CmdOps) : encodeCmd o =
    pack [⟨64, 0#64⟩, ⟨5, o.core⟩, ⟨3, o.queue⟩, ⟨56, 0#56⟩, ⟨128, o.lo⟩, ⟨128, o.hi⟩] := by
  simp only [encodeCmd, pack, BitVec.toNat_ofNat]
  omega

theorem packetRoundTrips_cmd (o : CmdOps) : PacketRoundTrips 3 (.cmd o) := by
  refine decodePacket_of_raw ?_
  simp only [decodePacketRaw, encodePacket]
  refine (if_pos ?_).trans ?_
  · rw [encodeCmd_eq]
    exact ⟨fld_pack_ofNat 3 rfl rfl (by decide), fld_pack_above 6 rfl rfl⟩
  · rw [encodeCmd_eq]
    cases o
    simp only [Option.some.injEq, Instr.cmd.injEq, CmdOps.mk.injEq]
    exact ⟨bvf_pack 68 64 1 rfl rfl, bvf_pack 71 69 2 rfl rfl, bvf_pack 255 128 4 rfl rfl, bvf_pack 383 256 5 rfl rfl⟩

theorem encodeSignal_eq (o : SignalOps) : encodeSignal o =
    pack [⟨64, 0#64⟩, ⟨64, o.addr⟩, ⟨64, o.value⟩, ⟨2, o.op⟩] := by
  simp only [encodeSignal, pack, BitVec.toNat_ofNat]
  omega

theorem packetRoundTrips_signal (o : SignalOps) : PacketRoundTrips 4 (.signal o) := by
  refine decodePacket_of_raw ?_
  simp only [decodePacketRaw, encodePacket]
  refine (if_pos ?_).trans ?_
  · rw [encodeSignal_eq]
    exact fld_pack_above 4 rfl rfl
  · rw [encodeSignal_eq]
    cases o
    simp only [Option.some.injEq, Instr.signal.injEq, SignalOps.mk.injEq]
    exact ⟨bvf_pack 127 64 1 rfl rfl, bvf_pack 191 128 2 rfl rfl, bvf_pack 193 192 3 rfl rfl⟩

theorem encodeWait_eq (o : WaitOps) : encodeWait o =
    pack [⟨64, 0#64⟩, ⟨64, o.addr⟩, ⟨64, o.value⟩, ⟨2, o.op⟩, ⟨30, 0#30⟩, ⟨32, o.tmo⟩] := by
  simp only [encodeWait, pack, BitVec.toNat_ofNat]
  omega

theorem packetRoundTrips_wait (o : WaitOps) : PacketRoundTrips 5 (.wait o) := by
  refine decodePacket_of_raw ?_
  simp only [decodePacketRaw, encodePacket]
  refine (if_pos ?_).trans ?_
  · rw [encodeWait_eq]
    exact ⟨fld_pack_ofNat 4 rfl rfl (by decide), fld_pack_above 6 rfl rfl⟩
  · rw [encodeWait_eq]
    cases o
    simp only [Option.some.injEq, Instr.wait.injEq, WaitOps.mk.injEq]
    exact ⟨bvf_pack 127 64 1 rfl rfl, bvf_pack 191 128 2 rfl rfl, bvf_pack 193 192 3 rfl rfl, bvf_pack 255 224 5 rfl rfl⟩

theorem encodeReceipt_eq (o : ReceiptOps) : encodeReceipt o =
    pack [⟨64, 0#64⟩, ⟨64, o.block⟩, ⟨64, o.codea⟩, ⟨64, o.arga⟩, ⟨32, o.argl⟩, ⟨32, o.resl⟩, ⟨64, o.resa⟩, ⟨64, o.rdst⟩, ⟨64, o.bdst⟩] := by
  simp only [encodeReceipt, pack, BitVec.toNat_ofNat]
  omega

theorem packetRoundTrips_receipt (o : ReceiptOps) : PacketRoundTrips 6 (.receipt o) := by
  refine decodePacket_of_raw ?_
  simp only [decodePacketRaw, encodePacket]
  refine (if_pos trivial).trans ?_
  rw [encodeReceipt_eq]
  cases o
  simp only [Option.some.injEq, Instr.receipt.injEq, ReceiptOps.mk.injEq]
  exact ⟨bvf_pack 127 64 1 rfl rfl, bvf_pack 191 128 2 rfl rfl, bvf_pack 255 192 3 rfl rfl, bvf_pack 287 256 4 rfl rfl, bvf_pack 319 288 5 rfl rfl, bvf_pack 383 320 6 rfl rfl, bvf_pack 447 384 7 rfl rfl, bvf_pack 511 448 8 rfl rfl⟩

theorem encodePolicyLoad_eq (o : PolicyLoadOps) : encodePolicyLoad o =
    pack [⟨64, 0#64⟩, ⟨64, o.img⟩, ⟨8, o.lenm1⟩] := by
  simp only [encodePolicyLoad, pack, BitVec.toNat_ofNat]
  omega

theorem packetRoundTrips_policyLoad (o : PolicyLoadOps) : PacketRoundTrips 7 (.policyLoad o) := by
  refine decodePacket_of_raw ?_
  simp only [decodePacketRaw, encodePacket]
  refine (if_pos ?_).trans ?_
  · rw [encodePolicyLoad_eq]
    exact fld_pack_above 3 rfl rfl
  · rw [encodePolicyLoad_eq]
    cases o
    simp only [Option.some.injEq, Instr.policyLoad.injEq, PolicyLoadOps.mk.injEq]
    exact ⟨bvf_pack 127 64 1 rfl rfl, bvf_pack 135 128 2 rfl rfl⟩

theorem packetRoundTrips_policySwap : PacketRoundTrips 8 .policySwap := decodePacket_of_raw rfl

theorem encodePartCores_eq (o : PartCoresOps) : encodePartCores o =
    pack [⟨64, 0#64⟩, ⟨4, o.p⟩, ⟨60, 0#60⟩, ⟨32, o.mask⟩] := by
  simp only [encodePartCores, pack, BitVec.toNat_ofNat]
  omega

theorem packetRoundTrips_partCores (o : PartCoresOps) : PacketRoundTrips 16 (.partCores o) := by
  refine decodePacket_of_raw ?_
  simp only [decodePacketRaw, encodePacket]
  refine (if_pos ?_).trans ?_
  · rw [encodePartCores_eq]
    exact ⟨fld_pack_ofNat 2 rfl rfl (by decide), fld_pack_above 4 rfl rfl⟩
  · rw [encodePartCores_eq]
    cases o
    simp only [Option.some.injEq, Instr.partCores.injEq, PartCoresOps.mk.injEq]
    exact ⟨bvf_pack 67 64 1 rfl rfl, bvf_pack 159 128 3 rfl rfl⟩

theorem encodePartPool_eq (o : PartPoolOps) : encodePartPool o =
    pack [⟨64, 0#64⟩, ⟨4, o.p⟩, ⟨60, 0#60⟩, ⟨32, o.plevel⟩, ⟨32, o.pcap⟩, ⟨20, o.prate⟩] := by
  simp only [encodePartPool, pack, BitVec.toNat_ofNat]
  omega

theorem packetRoundTrips_partPool (o : PartPoolOps) : PacketRoundTrips 17 (.partPool o) := by
  refine decodePacket_of_raw ?_
  simp only [decodePacketRaw, encodePacket]
  refine (if_pos ?_).trans ?_
  · rw [encodePartPool_eq]
    exact ⟨fld_pack_ofNat 2 rfl rfl (by decide), fld_pack_above 6 rfl rfl⟩
  · rw [encodePartPool_eq]
    cases o
    simp only [Option.some.injEq, Instr.partPool.injEq, PartPoolOps.mk.injEq]
    exact ⟨bvf_pack 67 64 1 rfl rfl, bvf_pack 159 128 3 rfl rfl, bvf_pack 191 160 4 rfl rfl, bvf_pack 211 192 5 rfl rfl⟩

theorem encodePartCache_eq (o : PartCacheOps) : encodePartCache o =
    pack [⟨64, 0#64⟩, ⟨4, o.p⟩, ⟨4, o.dies⟩, ⟨56, 0#56⟩, ⟨10, o.sbase⟩, ⟨11, o.scount⟩, ⟨15, o.tquota⟩, ⟨21, o.lquota⟩, ⟨7, 0#7⟩, ⟨8, o.bw⟩] := by
  simp only [encodePartCache, pack, BitVec.toNat_ofNat]
  omega

theorem packetRoundTrips_partCache (o : PartCacheOps) : PacketRoundTrips 18 (.partCache o) := by
  refine decodePacket_of_raw ?_
  simp only [decodePacketRaw, encodePacket]
  refine (if_pos ?_).trans ?_
  · rw [encodePartCache_eq]
    exact ⟨fld_pack_ofNat 3 rfl rfl (by decide), fld_pack_ofNat 8 rfl rfl (by decide), fld_pack_above 10 rfl rfl⟩
  · rw [encodePartCache_eq]
    cases o
    simp only [Option.some.injEq, Instr.partCache.injEq, PartCacheOps.mk.injEq]
    exact ⟨bvf_pack 67 64 1 rfl rfl, bvf_pack 71 68 2 rfl rfl, bvf_pack 137 128 4 rfl rfl, bvf_pack 148 138 5 rfl rfl, bvf_pack 163 149 6 rfl rfl, bvf_pack 184 164 7 rfl rfl, bvf_pack 199 192 9 rfl rfl⟩

theorem encodePartQueue_eq (o : PartQueueOps) : encodePartQueue o =
    pack [⟨64, 0#64⟩, ⟨4, o.p⟩, ⟨4, 0#4⟩, ⟨5, o.c⟩, ⟨3, o.qsel⟩, ⟨3, o.prio⟩, ⟨1, o.urgent⟩, ⟨44, 0#44⟩, ⟨64, o.segment⟩] := by
  simp only [encodePartQueue, pack, BitVec.toNat_ofNat]
  omega

theorem packetRoundTrips_partQueue (o : PartQueueOps) : PacketRoundTrips 19 (.partQueue o) := by
  refine decodePacket_of_raw ?_
  simp only [decodePacketRaw, encodePacket]
  refine (if_pos ?_).trans ?_
  · rw [encodePartQueue_eq]
    exact ⟨fld_pack_ofNat 2 rfl rfl (by decide), fld_pack_ofNat 7 rfl rfl (by decide), fld_pack_above 9 rfl rfl⟩
  · rw [encodePartQueue_eq]
    cases o
    simp only [Option.some.injEq, Instr.partQueue.injEq, PartQueueOps.mk.injEq]
    exact ⟨bvf_pack 67 64 1 rfl rfl, bvf_pack 76 72 3 rfl rfl, bvf_pack 79 77 4 rfl rfl, bvf_pack 82 80 5 rfl rfl, bvf_pack 83 83 6 rfl rfl, bvf_pack 191 128 8 rfl rfl⟩

theorem encodePartLimits_eq (o : PartLimitsOps) : encodePartLimits o =
    pack [⟨64, 0#64⟩, ⟨4, o.p⟩, ⟨60, 0#60⟩, ⟨32, o.drain⟩, ⟨64, o.fault⟩, ⟨32, o.dint⟩, ⟨32, o.slice⟩] := by
  simp only [encodePartLimits, pack, BitVec.toNat_ofNat]
  omega

theorem packetRoundTrips_partLimits (o : PartLimitsOps) : PacketRoundTrips 20 (.partLimits o) := by
  refine decodePacket_of_raw ?_
  simp only [decodePacketRaw, encodePacket]
  refine (if_pos ?_).trans ?_
  · rw [encodePartLimits_eq]
    exact ⟨fld_pack_ofNat 2 rfl rfl (by decide), fld_pack_above 7 rfl rfl⟩
  · rw [encodePartLimits_eq]
    cases o
    simp only [Option.some.injEq, Instr.partLimits.injEq, PartLimitsOps.mk.injEq]
    exact ⟨bvf_pack 67 64 1 rfl rfl, bvf_pack 159 128 3 rfl rfl, bvf_pack 223 160 4 rfl rfl, bvf_pack 255 224 5 rfl rfl, bvf_pack 287 256 6 rfl rfl⟩

theorem encodePartVf_eq (o : PartVfOps) : encodePartVf o =
    pack [⟨64, 0#64⟩, ⟨7, o.vf⟩, ⟨9, 0#9⟩, ⟨16, o.qslots⟩, ⟨16, o.dcnt⟩] := by
  simp only [encodePartVf, pack, BitVec.toNat_ofNat]
  omega

theorem packetRoundTrips_partVf (o : PartVfOps) : PacketRoundTrips 21 (.partVf o) := by
  refine decodePacket_of_raw ?_
  simp only [decodePacketRaw, encodePacket]
  refine (if_pos ?_).trans ?_
  · rw [encodePartVf_eq]
    exact ⟨fld_pack_ofNat 2 rfl rfl (by decide), fld_pack_above 5 rfl rfl⟩
  · rw [encodePartVf_eq]
    cases o
    simp only [Option.some.injEq, Instr.partVf.injEq, PartVfOps.mk.injEq]
    exact ⟨bvf_pack 70 64 1 rfl rfl, bvf_pack 95 80 3 rfl rfl, bvf_pack 111 96 4 rfl rfl⟩

theorem encodePartDrop_eq (o : PartDropOps) : encodePartDrop o =
    pack [⟨64, 0#64⟩, ⟨4, o.p⟩] := by
  simp only [encodePartDrop, pack, BitVec.toNat_ofNat]
  omega

theorem packetRoundTrips_partDrop (o : PartDropOps) : PacketRoundTrips 22 (.partDrop o) := by
  refine decodePacket_of_raw ?_
  simp only [decodePacketRaw, encodePacket]
  refine (if_pos ?_).trans ?_
  · rw [encodePartDrop_eq]
    exact fld_pack_above 2 rfl rfl
  · rw [encodePartDrop_eq]
    cases o
    simp only [Option.some.injEq, Instr.partDrop.injEq, PartDropOps.mk.injEq]
    exact bvf_pack 67 64 1 rfl rfl

theorem encodePartCtx_eq (o : PartCtxOps) : encodePartCtx o =
    pack [⟨64, 0#64⟩, ⟨4, o.p⟩, ⟨5, o.c⟩, ⟨1, o.priv⟩, ⟨7, o.vf⟩, ⟨1, o.en⟩, ⟨1, o.nest⟩, ⟨13, 0#13⟩, ⟨7, o.padlo⟩, ⟨1, 0#1⟩, ⟨8, o.padn⟩,
      ⟨6, o.dielo⟩, ⟨2, 0#2⟩, ⟨7, o.dien⟩, ⟨1, 0#1⟩, ⟨64, o.root1⟩, ⟨64, o.root2⟩, ⟨64, o.cring⟩, ⟨64, o.dring⟩, ⟨64, o.sring⟩,
      ⟨64, o.farea⟩] := by
  simp only [encodePartCtx, pack, BitVec.toNat_ofNat]
  omega

theorem packetRoundTrips_partCtx (o : PartCtxOps) : PacketRoundTrips 23 (.partCtx o) := by
  refine decodePacket_of_raw ?_
  simp only [decodePacketRaw, encodePacket]
  refine (if_pos ?_).trans ?_
  · rw [encodePartCtx_eq]
    exact ⟨fld_pack_ofNat 7 rfl rfl (by decide), fld_pack_ofNat 9 rfl rfl (by decide), fld_pack_ofNat 12 rfl rfl (by decide), fld_pack_ofNat 14 rfl rfl (by decide)⟩
  · rw [encodePartCtx_eq]
    cases o
    simp only [Option.some.injEq, Instr.partCtx.injEq, PartCtxOps.mk.injEq]
    exact ⟨bvf_pack 67 64 1 rfl rfl, bvf_pack 72 68 2 rfl rfl, bvf_pack 73 73 3 rfl rfl, bvf_pack 80 74 4 rfl rfl, bvf_pack 81 81 5 rfl rfl, bvf_pack 82 82 6 rfl rfl, bvf_pack 102 96 8 rfl rfl, bvf_pack 111 104 10 rfl rfl, bvf_pack 117 112 11 rfl rfl, bvf_pack 126 120 13 rfl rfl, bvf_pack 191 128 15 rfl rfl, bvf_pack 255 192 16 rfl rfl, bvf_pack 319 256 17 rfl rfl, bvf_pack 383 320 18 rfl rfl, bvf_pack 447 384 19 rfl rfl, bvf_pack 511 448 20 rfl rfl⟩

end Sys2Proof.Machine

namespace Sys2Proof.Safety

open Sys2Proof.Machine

/-- Settles O58, by the round trip of each operation, command and packet. -/
theorem agentRoundTrips : Obligations.AgentRoundTrips := by
  unfold Obligations.AgentRoundTrips
  refine ⟨fun d k t m q h e => ?_, fun h o1 o2 o3 o4 o5 o6 o7 o8 o9 o10 o11 o12 o13 => ?_,
    fun o1 o2 o3 o4 o5 o6 o7 o16 o17 o18 o19 o20 o21 o22 o23 => ?_⟩
  · simp only [List.forall_mem_cons]
    exact ⟨forecastRoundTrips_fcLdi _ _, forecastRoundTrips_fcLdq _ _, forecastRoundTrips_fcLdp _ _, forecastRoundTrips_fcLde _ _, 
      forecastRoundTrips_fcLds _ _, forecastRoundTrips_fcSto _ _, forecastRoundTrips_fcAdd _ _, forecastRoundTrips_fcSub _ _, 
      forecastRoundTrips_fcShl _ _, forecastRoundTrips_fcShr _ _, forecastRoundTrips_fcAnd _ _, forecastRoundTrips_fcOr _ _, 
      forecastRoundTrips_fcMin _ _, forecastRoundTrips_fcMax _ _, forecastRoundTrips_fcSel _ _ _, forecastRoundTrips_fcJmp _, 
      forecastRoundTrips_fcJz _ _, forecastRoundTrips_fcJnz _ _, forecastRoundTrips_fcJlt _ _, forecastRoundTrips_fcNextq _ _, 
      forecastRoundTrips_fcPickmin _ _, forecastRoundTrips_fcPickmax _ _, forecastRoundTrips_fcDisp, forecastRoundTrips_fcPreempt _, 
      forecastRoundTrips_fcFaultact _, forecastRoundTrips_fcDefer, forecastRoundTrips_fcEnd, List.forall_mem_nil _⟩
  · simp only [List.forall_mem_cons]
    exact ⟨commandRoundTrips_copy _ _, commandRoundTrips_copy2d _ _, commandRoundTrips_copyc _ _, commandRoundTrips_gather _ _, 
      commandRoundTrips_scatter _ _, commandRoundTrips_deck _ _, commandRoundTrips_bload _ _, commandRoundTrips_mxt _ _, 
      commandRoundTrips_mxdrain _ _, commandRoundTrips_coll _ _, commandRoundTrips_window _ _, commandRoundTrips_note _ _, 
      commandRoundTrips_qfence _ _, commandRoundTrips_intake _ _, List.forall_mem_nil _⟩
  · simp only [List.forall_mem_cons]
    exact ⟨packetRoundTrips_launch _, packetRoundTrips_pipe _, packetRoundTrips_cmd _, packetRoundTrips_signal _, packetRoundTrips_wait _, 
      packetRoundTrips_receipt _, packetRoundTrips_policyLoad _, packetRoundTrips_policySwap, packetRoundTrips_partCores _, 
      packetRoundTrips_partPool _, packetRoundTrips_partCache _, packetRoundTrips_partQueue _, packetRoundTrips_partLimits _, 
      packetRoundTrips_partVf _, packetRoundTrips_partDrop _, packetRoundTrips_partCtx _, List.forall_mem_nil _⟩

end Sys2Proof.Safety

end

section

/-! SUPPORT. The values of the integer register operations (R85) as the statement writes them. -/

namespace Sys2Proof.Machine

theorem clzN_word (x : Word) : clzN 64 x.toNat = if x = 0 then 64 else 63 - x.toNat.log2 := by
  unfold clzN bitLen
  by_cases hx : x = 0
  · subst hx
    rfl
  · have hn : x.toNat ≠ 0 := fun h => hx (BitVec.eq_of_toNat_eq h)
    rw [if_neg hn, if_neg hx]
    omega

theorem popN_word (x : Word) : popN 64 x.toNat = (List.range 64).countP fun i => x.getLsbD i := by
  have hbit (i : Nat) : x.toNat / 2 ^ i % 2 = if x.getLsbD i then 1 else 0 := by
    rw [← Nat.toNat_testBit, BitVec.testBit_toNat, Bool.toNat, Bool.cond_eq_ite]
  simp only [popN, hbit]
  generalize List.range 64 = l
  induction l with
  | nil => rfl
  | cons i r ih => rw [List.map_cons, List.sum_cons, List.countP_cons, ih, Nat.add_comm]

end Sys2Proof.Machine

namespace Sys2Proof.Safety

open Sys2Proof.Machine

/-- Settles O1: each operation is the rule for two registers or for one (`Paying.alu2`, `Paying.alu1`) at its own function. -/
theorem integerResults : Obligations.IntegerResults := by
  unfold Obligations.IntegerResults
  intro s s1 r t t1 d a b x y gives
  refine ⟨fun h => ⟨h.alu2 (fun x y => x + y) rfl, h.alu2 (fun x y => x - y) rfl, h.alu2 (fun x y => x &&& y) rfl, h.alu2 (fun x y => x ||| y) rfl,
    h.alu2 (fun x y => x ^^^ y) rfl, h.alu2 (fun x y => x &&& ~~~y) rfl, h.alu2 (fun x y => x <<< (y.toNat % 64)) rfl,
    h.alu2 (fun x y => x >>> (y.toNat % 64)) rfl, h.alu2 (fun x y => x.sshiftRight (y.toNat % 64)) rfl,
    h.alu2 (fun x y => if x.slt y then x else y) ?_, h.alu2 (fun x y => if x.slt y then y else x) ?_,
    h.alu2 (fun x y => if x.ult y then x else y) ?_, h.alu2 (fun x y => if x.ult y then y else x) ?_, h.alu2 (fun x y => flag64 (x.slt y)) ?_,
    h.alu2 (fun x y => flag64 (x.ult y)) ?_, h.alu2 (fun x y => flag64 (x == y)) ?_, h.alu1 (fun x => BitVec.ofNat 64 (clzN 64 x.toNat)) ?_,
    h.alu1 (fun x => BitVec.ofNat 64 (popN 64 x.toNat)) ?_, h.alu1 (sextTo 0) rfl, h.alu1 (sextTo 1) rfl, h.alu1 (sextTo 2) rfl,
    h.alu1 (zextTo 0) rfl, h.alu1 (zextTo 1) rfl, h.alu1 (zextTo 2) rfl⟩,
    fun h => ⟨h.alu2 (fun x y => x * y) rfl, h.alu2 mulhS rfl, h.alu2 mulhU rfl⟩⟩
  · simp only [BitVec.slt_iff_toInt_lt, x, y]
  · simp only [BitVec.slt_iff_toInt_lt, x, y]
  · simp only [BitVec.ult_iff_lt, BitVec.lt_def, x, y]
  · simp only [BitVec.ult_iff_lt, BitVec.lt_def, x, y]
  · exact flag64_slt ..
  · simp only [flag64, BitVec.ult_iff_lt, BitVec.lt_def, x, y]
  · simp only [flag64, beq_iff_eq, x, y]
  · rw [clzN_word]
  · rw [popN_word]

end Sys2Proof.Safety

end

section

/-! SUPPORT. Gathering and scattering bits (R85): the loops of the model as sums over the positions of the mask. -/

namespace Sys2Proof.Machine

section
variable (x y : Word)

/-- How many bits of the mask stand at the given number of positions from one on. -/
def maskBits (i n : Nat) : Nat := (List.range n).countP fun j => y.getLsbD (i + j)

theorem maskBits_succ (i n : Nat) : maskBits y i (n + 1) = (if y.getLsbD i then 1 else 0) + maskBits y (i + 1) n := by
  simp only [maskBits, List.range_succ_eq_map, List.countP_cons, List.countP_map, Function.comp_def, Nat.add_zero, Nat.succ_eq_add_one]
  rw [Nat.add_comm]
  congr 2
  funext j
  rw [Nat.add_right_comm, Nat.add_assoc]

theorem bextFrom_eq_sum (n i k : Nat) : bextFrom x y n i k =
    ((List.range n).map fun j => if y.getLsbD (i + j) && x.getLsbD (i + j) then 2 ^ (k + maskBits y i j) else 0).sum := by
  induction n generalizing i k with
  | zero => rfl
  | succ n ih =>
    have htail : ((List.range n).map fun j => if y.getLsbD (i + 1 + j) && x.getLsbD (i + 1 + j)
          then 2 ^ (k + (if y.getLsbD i then 1 else 0) + maskBits y (i + 1) j) else 0) =
        (List.range n).map fun j => if y.getLsbD (i + (j + 1)) && x.getLsbD (i + (j + 1)) then 2 ^ (k + maskBits y i (j + 1)) else 0 := by
      refine List.map_congr_left fun j _ => ?_
      rw [maskBits_succ, show i + 1 + j = i + (j + 1) by omega, Nat.add_assoc]
    rw [List.range_succ_eq_map, List.map_cons, List.map_map, List.sum_cons, bextFrom]
    simp only [Function.comp_def, Nat.succ_eq_add_one, ← htail, ih]
    cases hy : y.getLsbD i <;> simp [maskBits]

theorem bdepFrom_eq_sum (n i k : Nat) : bdepFrom x y n i k =
    ((List.range n).map fun j => if y.getLsbD (i + j) && x.getLsbD (k + maskBits y i j) then 2 ^ (i + j) else 0).sum := by
  induction n generalizing i k with
  | zero => rfl
  | succ n ih =>
    have htail : ((List.range n).map fun j => if y.getLsbD (i + 1 + j) &&
          x.getLsbD (k + (if y.getLsbD i then 1 else 0) + maskBits y (i + 1) j) then 2 ^ (i + 1 + j) else 0) =
        (List.range n).map fun j => if y.getLsbD (i + (j + 1)) && x.getLsbD (k + maskBits y i (j + 1)) then 2 ^ (i + (j + 1)) else 0 := by
      refine List.map_congr_left fun j _ => ?_
      rw [maskBits_succ, show i + 1 + j = i + (j + 1) by omega, Nat.add_assoc]
    rw [List.range_succ_eq_map, List.map_cons, List.map_map, List.sum_cons, bdepFrom]
    simp only [Function.comp_def, Nat.succ_eq_add_one, ← htail, ih]
    cases hy : y.getLsbD i <;> simp [maskBits]

end

end Sys2Proof.Machine

namespace Sys2Proof.Safety

open Sys2Proof.Machine

/-- Settles O3, by the sums that the two loops compute. -/
theorem bitMoves : Obligations.BitMoves := by
  unfold Obligations.BitMoves
  intro s s1 r t t1 d a b h x y below
  have hbelow (i : Nat) : below i = maskBits y 0 i := by simp only [below, maskBits, Nat.zero_add]
  refine ⟨h.alu2 (fun x y => BitVec.ofNat 64 (bextFrom x y 64 0 0)) ?_, h.alu2 (fun x y => BitVec.ofNat 64 (bdepFrom x y 64 0 0)) ?_⟩
  · simp only [bextFrom_eq_sum, hbelow, Nat.zero_add, x, y]
  · simp only [bdepFrom_eq_sum, hbelow, Nat.zero_add, x, y]

end Sys2Proof.Safety

end

section

/-! SUPPORT. The rules for the scalar floating-point operations (R83, R88 to R92). -/

namespace Sys2Proof.Safety

open Sys2Proof.Machine

section
variable {s s1 : State} {r n : Nat} {t t1 : Machine.Task}

theorem Paying.fop2 (h : Paying s r t n s1 t1) (d a b : BitVec 5) (w : BitVec 3) (f : Fm → Nat → Nat → Nat × Fl) :
    s.fop2 n d a b w f = .next (retire s1 (t1.setF d (f (fmOf w.toNat) (t1.F a (fmOf w.toNat)) (t1.F b (fmOf w.toNat))))) :=
  h.runReg fun t => t.setF d (f (fmOf w.toNat) (t.F a (fmOf w.toNat)) (t.F b (fmOf w.toNat)))

theorem Paying.fop1 (h : Paying s r t n s1 t1) (d a : BitVec 5) (w : BitVec 3) (f : Fm → Nat → Nat × Fl) :
    s.fop1 n d a w f = .next (retire s1 (t1.setF d (f (fmOf w.toNat) (t1.F a (fmOf w.toNat))))) :=
  h.runReg fun t => t.setF d (f (fmOf w.toNat) (t.F a (fmOf w.toNat)))

theorem Paying.fcvt (h : Paying s r t 8 s1 t1) (d a c : BitVec 5) (m w : BitVec 3) :
    exec (.fcvt d a c m w) s = .next (retire s1 (t1.setF d (Machine.fcvt c.toNat w.toNat (.mode m.toNat) (t1.S a)))) :=
  h.runReg fun t => t.setF d (Machine.fcvt c.toNat w.toNat (.mode m.toNat) (t.S a))

end

/-- Settles O5: each operation is a rule for two registers, for one, or for a conversion, at its own function. -/
theorem floatResults : Obligations.FloatResults := by
  unfold Obligations.FloatResults
  intro s s1 r t t1 d a b m w F x y rm gives holds
  refine ⟨fun h => ⟨h.fop2 d a b w fun f => fAdd f rm, h.fop2 d a b w fun f => fSub f rm, h.fop2 d a b w fun f => fMul f rm,
    h.fop2 d a b w fun f => fMinMax f false, h.fop2 d a b w fun f => fMinMax f true,
    h.fop2 d a b w fun f x y => cmpBit (fCmp f 0 x y), h.fop2 d a b w fun f x y => cmpBit (fCmp f 1 x y),
    h.fop2 d a b w fun f x y => cmpBit (fCmp f 2 x y), h.fop2 d a b w fun f x y => cmpBit (fCmp f 3 x y),
    h.fop1 d a w fun f x => (2 ^ fClass f x, 0), h.fcvt d a 0 m w, h.fcvt d a 1 m w, h.fcvt d a 2 m w, h.fcvt d a 3 m w, h.fcvt d a 4 m w,
    h.fcvt d a 5 m w, h.fcvt d a 6 m w⟩,
    fun h => ⟨h.fop2 d a b w fun f => fDiv f rm, h.fop1 d a w fun f => fSqrt f rm, h.fop1 d a w fun f => fRsq f rm⟩,
    fun h => h.runReg fun t => t.setF d (fFma F rm (t.F a F) (t.F b F) (t.F d F))⟩

end Sys2Proof.Safety

end

section

namespace Sys2Proof.Safety

open Sys2Proof.Machine

/-- Settles O8, by what each register file reads after a write (`Task.S_setS`, `Task.V_setV`, `Task.K_setK`). -/
theorem registerFiles : Obligations.RegisterFiles := by
  unfold Obligations.RegisterFiles
  intro t n m i j x v y
  refine ⟨⟨t.S_zero, t.setS_zero x, t.K_zero, t.setK_zero y⟩, fun hn => ?_, fun hm => t.S_setS_other x hm, ?_, fun hm => ?_, fun hi => ?_, fun hj => ?_⟩
  · exact t.S_setS_same n x hn
  · rw [Task.V_setV, if_pos rfl]
  · rw [Task.V_setV, if_neg hm]
  · rw [Task.K_setK, if_pos ⟨rfl, hi⟩]
  · rw [Task.K_setK, if_neg fun h => hj h.1]

end Sys2Proof.Safety

end

section

/-! SUPPORT. Special registers (R93): what a charge leaves of the task and of the time base. -/

namespace Sys2Proof.Machine

@[simp] theorem modCtx_tb (s : State) (c : Nat) (f : Ctx → Ctx) : (s.modCtx c f).tb = s.tb := by
  unfold State.modCtx
  split <;> rfl

@[simp] theorem tally_tb (s : State) (cx : Nat) (b : Bool) (m n : Nat) : (s.tally cx b m n).tb = s.tb := by
  unfold State.tally
  split
  · exact modCtx_tb ..
  · rfl

theorem pay_tb {s s1 : State} {t t1 : Task} {n : Nat} (h : s.pay t n = .ok s1 t1) : s1.tb = s.tb := by
  rcases State.pay_ok_cases h with ⟨_, rfl, _⟩ | ⟨_, s', _, _, _, hd, rfl, _⟩ | ⟨_, _, _, rfl, _⟩ | ⟨_, _, _, _, rfl, _⟩
  · rfl
  · rw [tally_tb, (State.debit_some hd).2]
    rfl
  · rfl
  · rfl

end Sys2Proof.Machine

namespace Sys2Proof.Safety

open Sys2Proof.Machine

section
variable {s s1 : State} {r : Nat} {t t1 : Machine.Task}

theorem Paying.mfs (h : Paying s r t 4 s1 t1) (d n : BitVec 5) {v : Word} (hv : special s1 t1 n.toNat = v) :
    exec (.mfs d n) s = .next (retire s1 (t1.setS d v).adv) :=
  h.runTask_done (body := fun s t => .done s (t.setS d (special s t n.toNat)).adv) (by rw [hv])

theorem Paying.mts (h : Paying s r t 4 s1 t1) (a n : BitVec 5) : exec (.mts a n) s = .next (retire s1 (t1.setSpecial n.toNat (t1.S a)).adv) :=
  h.runReg fun t => (t.setSpecial n.toNat (t.S a)).adv

end

/-- Settles O9: a charge leaves each special register but `meter`. -/
theorem specialRegisterMoves : Obligations.SpecialRegisterMoves := by
  unfold Obligations.SpecialRegisterMoves
  intro s s1 r t t1 d a h reads writes
  have htb : s1.tb = s.tb := pay_tb h.2.2
  have ht : t1 = { t with meter := t1.meter, dark := t1.dark, charged := false } := State.pay_task h.2.2
  refine ⟨h.mfs d 0 ?_, h.mfs d 1 ?_, h.mfs d 2 ?_, h.mfs d 3 ?_, h.mfs d 4 ?_, h.mfs d 5 ?_, fun hc => h.mfs d 6 ?_, h.mfs d 7 ?_, h.mfs d 8 ?_,
    h.mfs d 9 ?_, h.mfs d 10 ?_, h.mts a 4, h.mts a 5, h.mts a 8, h.mts a 9⟩
  case refine_7 => exact congrArg (BitVec.ofNat 64) (h.meter hc)
  case refine_11 => exact congrArg (BitVec.ofNat 64) htb
  all_goals
    rw [ht]
    rfl

end Sys2Proof.Safety

end

section

/-! SUPPORT. A charge left that is no difference modulo 2^64 (O12): MCS 2 adds 2^64 to the budget before it takes the meter away, and a meter past that
sum leaves 0. -/

namespace Sys2Proof.Safety

open Sys2Proof.Machine

/-- A task that has waited at its step 4, so that no charge looks at its meter, which is past 2^64. -/
def farMeter : Machine.Task := { placeTask with charged := true, meter := 2 ^ 64 + 1, budget := 0 }

/-- The machine after reset with a task on row 0, whose turn it is. -/
def rowZero (t : Machine.Task) : State := { State.reset.setTask 0 (some t) with turn := .row 0 }

theorem paying_farMeter : Paying (rowZero farMeter) 0 farMeter 4 (rowZero farMeter) { farMeter with charged := false } :=
  ⟨rfl, rfl, State.pay_charged _ _ _ rfl⟩

/-- What a machine's step leaves in register 1 of row 0. -/
def outcomeS1 : Host.Outcome State Fault Refusal → Option Word
  | .next s => (s.task 0).map fun t => t.S 1
  | _ => none

theorem outcomeS1_retire (s : State) {t : Machine.Task} (ht : t.row = 0) : outcomeS1 (.next (retire s t)) = some (t.S 1) := by
  simp only [outcomeS1, retire, ht, State.task_setTask, Option.map_some]

/-- Refutes O12: where the meter is past the budget by more than 2^64, MCS 2 reads 0 and not the difference modulo 2^64. -/
theorem not_chargeRequests : ¬ Obligations.ChargeRequests := by
  unfold Obligations.ChargeRequests
  intro h
  obtain ⟨-, -, hread⟩ := h (rowZero farMeter) (rowZero farMeter) 0 farMeter { farMeter with charged := false } 1 0 0
  obtain ⟨-, -, hleft, -⟩ := hread paying_farMeter
  have hmodel : exec (.mcs 1 2) (rowZero farMeter) = .next (retire (rowZero farMeter) (({ farMeter with charged := false } : Machine.Task).setS 1 0).adv) :=
    paying_farMeter.runTask_done (body := fun s t => .done (if (2 : BitVec 12) = 2 ∧ t.measured = true then { s with freeCtr := s.freeCtr + 1 } else s)
      (t.setS 1 (BitVec.ofNat 64 (mcsValue s t 2))).adv) rfl
  have heq := congrArg outcomeS1 (hmodel.symm.trans (hleft rfl))
  rw [outcomeS1_retire _ rfl, outcomeS1_retire _ rfl] at heq
  exact absurd heq (by decide)

end Sys2Proof.Safety

end

section

/-! SUPPORT. Reserved major opcodes (R27, R28). -/

namespace Sys2Proof.Machine

theorem decodeTask_of_raw_none {w : Nat} (h : decodeRaw w = none) : decodeTask w = none := by
  rw [decodeTask, h]

theorem fld_major {w : Nat} (h : w < 2 ^ 32) : fld w 31 26 = w / 2 ^ 26 := Nat.mod_eq_of_lt (by omega)

end Sys2Proof.Machine

namespace Sys2Proof.Safety

open Sys2Proof.Machine

/-- Settles O59: the listed words are evaluated, and a reserved opcode falls to the last branch of the decoder. -/
theorem wordsDecode : Obligations.WordsDecode := by
  unfold Obligations.WordsDecode
  refine ⟨by decide +kernel, by decide +kernel, fun w hw hop => decodeTask_of_raw_none ?_⟩
  rw [← fld_major hw] at hop
  unfold decodeRaw
  simp only [List.mem_cons, List.not_mem_nil, or_false] at hop
  rcases hop with h | h | h | h | h | h | h | h | h | h | h | h | h | h | h | h | h | h <;> simp only [h]

end Sys2Proof.Safety

end

section

/-! SUPPORT. What a masked vector result changes (R36, R119, R130). -/

namespace Sys2Proof.Machine

theorem getLsbD_foldl_active (km : BitVec 16) (r : Vector (Lane × Fl) 16) (l : List (Fin 16)) (f : Fl) (b : Nat) :
    (l.foldl (fun a (i : Fin 16) => if active km i then a ||| r[i].2 else a) f).getLsbD b = true ↔
      f.getLsbD b = true ∨ ∃ i ∈ l, active km i = true ∧ r[i].2.getLsbD b = true := by
  induction l generalizing f with
  | nil => simp
  | cons i l ih =>
    rw [List.foldl_cons, ih]
    by_cases hi : active km i = true
    · simp [hi, or_assoc]
    · simp [hi]

theorem getLsbD_orFlags (km : BitVec 16) (r : Vector (Lane × Fl) 16) (b : Nat) :
    (orFlags km r).getLsbD b = true ↔ ∃ i : Fin 16, km.getLsbD i = true ∧ r[i].2.getLsbD b = true := by
  rw [orFlags, getLsbD_foldl_active]
  simp [active]

theorem getLsbD_raise (t : Task) (f : Fl) (b : Nat) : (t.raise f).flags.getLsbD b = (t.flags.getLsbD b || f.getLsbD b) := by
  have hf : f.getLsbD b = true → b < 64 := fun h => Nat.lt_trans (BitVec.lt_of_getLsbD h) (by decide)
  rw [Task.raise, BitVec.getLsbD_or, BitVec.getLsbD_setWidth]
  by_cases hb : b < 64
  · simp [hb]
  · simp [hb, Bool.eq_false_iff.mpr (mt hf hb)]

theorem V_setVec (t : Task) (d n : BitVec 5) (k : BitVec 3) (r : Vector (Lane × Fl) 16) : (t.setVec d k r).V n =
    if n = d then Vector.ofFn fun i => if active (t.K k) i then r[i].1 else (t.V d)[i] else t.V n := t.V_setV d n _

end Sys2Proof.Machine

namespace Sys2Proof.Safety

open Sys2Proof.Machine

/-- Settles O24, by the lanes of the register written and the fold of the active lanes' flags. -/
theorem vectorMasking : Obligations.VectorMasking := by
  unfold Obligations.VectorMasking
  intro t d n k r u
  refine ⟨fun i => ?_, fun hn => ?_, fun b => ?_, rfl⟩
  · simp only [u, V_setVec, if_true, active]
    simp
  · simp only [u, V_setVec, if_neg hn]
  · have hflags : u.flags = ((t.setV d (Vector.ofFn fun i => if active (t.K k) i then r[i].1 else (t.V d)[i])).raise (orFlags (t.K k) r)).flags := rfl
    rw [hflags, getLsbD_raise, Bool.or_eq_true, getLsbD_orFlags]
    rfl

end Sys2Proof.Safety

end

section

/-! SUPPORT. The rules for masked vector results that raise no flag (R36, R119, R141 to R148). -/

namespace Sys2Proof.Machine

theorem orFlags_eq_zero {km : BitVec 16} {r : Vector (Lane × Fl) 16} (h : ∀ i : Fin 16, r[i].2 = 0) : orFlags km r = 0 := by
  have hfold (l : List (Fin 16)) : l.foldl (fun a (i : Fin 16) => if active km i then a ||| r[i].2 else a) 0 = 0 := by
    induction l with
    | nil => rfl
    | cons i l ih =>
      rw [List.foldl_cons, h i]
      simpa using ih
  exact hfold _

theorem raise_zero (t : Task) : t.raise 0 = t := by
  have hflags : t.flags ||| (0 : Fl).setWidth 64 = t.flags := by simp
  rw [Task.raise, hflags]

theorem setVec_ofFn_noFlags (t : Task) (d : BitVec 5) (k : BitVec 3) (f : Fin 16 → Lane) : t.setVec d k (Vector.ofFn fun i => (f i, 0)) =
    (t.setV d (Vector.ofFn fun i => if (t.K k).getLsbD i then f i else (t.V d)[i])).adv := by
  rw [Task.setVec, orFlags_eq_zero fun i => by simp, raise_zero]
  simp [active]

theorem laneAt_fin (v : Vector Lane 16) (i : Fin 16) : laneAt v i = v[i] := by
  simp [laneAt, Nat.mod_eq_of_lt i.isLt]

theorem laneAt_sub_sixteen (v : Vector Lane 16) {x : Nat} (hx : 16 ≤ x) : laneAt v (x - 16) = laneAt v x := by
  unfold laneAt
  congr 1
  omega

theorem append_eq_ofNat (x y : BitVec 16) : x ++ y = BitVec.ofNat 32 (x.toNat * 65536 + y.toNat) := by
  refine BitVec.eq_of_toNat_eq ?_
  rw [BitVec.toNat_append, Nat.shiftLeft_eq, BitVec.toNat_ofNat, ← Nat.shiftLeft_eq, ← Nat.shiftLeft_add_eq_or_of_lt y.isLt, Nat.shiftLeft_eq]
  exact (Nat.mod_eq_of_lt (by omega)).symm

theorem map_eq_ofFn (v : Vector Lane 16) (f : Lane → Lane) : v.map f = Vector.ofFn fun l : Fin 16 => f v[l] := by
  ext i hi
  simp

end Sys2Proof.Machine

namespace Sys2Proof.Safety

open Sys2Proof.Machine

section
variable {s s1 : State} {r n : Nat} {t t1 : Machine.Task}

theorem Paying.vecOp (h : Paying s r t n s1 t1) (d : BitVec 5) (k : BitVec 3) (f : Machine.Task → Fin 16 → Lane × Fl) :
    s.vecOp n d k f = .next (retire s1 (t1.setVec d k (Vector.ofFn (f t1)))) := h.runReg _

theorem Paying.masked (h : Paying s r t n s1 t1) (d : BitVec 5) (k : BitVec 3) (f : Machine.Task → Fin 16 → Lane) {g : Fin 16 → Lane}
    (hg : ∀ l, f t1 l = g l) : s.vecOp n d k (fun t i => (f t i, 0)) =
      .next (retire s1 (t1.setV d (Vector.ofFn fun l => if (t1.K k).getLsbD l then g l else (t1.V d)[l])).adv) := by
  rw [h.vecOp, setVec_ofFn_noFlags]
  simp only [hg]

theorem Paying.vimm (h : Paying s r t 48 s1 t1) (d : BitVec 5) (f : Lane → Lane) {g : Fin 16 → Lane} (hg : ∀ l : Fin 16, f (t1.V d)[l] = g l) :
    s.vimm d f = .next (retire s1 (t1.setV d (Vector.ofFn g)).adv) := by
  rw [State.vimm, h.runReg, map_eq_ofFn, funext hg]

end

/-- Settles O29, by the rule for masked lanes, that for immediates, and one register write each for VINS, VEXT and VSEL. -/
theorem vectorMoves : Obligations.VectorMoves := by
  unfold Obligations.VectorMoves
  intro s s1 r t t1 d a b n k ty i h lane all masked
  refine ⟨h.masked d k (fun t i => laneAt (t.V a) (laneAt (t.V b) i).toNat) fun l => by rw [laneAt_fin]; rfl,
    h.masked d k (fun t i => let x := (laneAt (t.V b) i).toNat % 32; if x < 16 then laneAt (t.V a) x else laneAt (t.V d) (x - 16)) fun l => ?_,
    h.masked d k (fun t i => laneAt (t.V a) (i + n.toNat)) fun _ => rfl,
    h.masked d k (fun t i => laneAt (t.V a) (i ^^^ 2 ^ n.toNat)) fun _ => rfl,
    h.masked d k (fun t i => laneAt (t.V a) i) fun l => laneAt_fin _ l,
    h.masked d k (fun t _ => bcst ty (t.S a)) fun _ => ?_, h.runReg _, h.runReg _, h.runReg _,
    h.vimm d _ fun _ => rfl, h.vimm d _ fun _ => ?_, h.vimm d _ fun _ => ?_, h.vimm d _ fun _ => rfl, h.vimm d _ fun _ => rfl⟩
  · rw [laneAt_fin]
    dsimp only
    split
    · rfl
    next hx => exact laneAt_sub_sixteen _ (Nat.le_of_not_lt hx)
  · rfl
  · rw [append_eq_ofNat]
    congr 1
  · rw [append_eq_ofNat]
    simp

end Sys2Proof.Safety

end

section

/-! SUPPORT. The integer operations on sub-elements (R130, R133): what each computes on numbers below 2^n is, modulo 2^n, the operation on bit vectors
of n bits. -/

namespace Sys2Proof.Machine

theorem laneOf_congr {n : Nat} {f g : Nat → Nat} (h : ∀ j, f j % 2 ^ n = g j % 2 ^ n) : laneOf n f = laneOf n g := by
  simp only [laneOf, h]

theorem perSub_noFlags (n : Nat) (f : Nat → Nat) : perSub n (fun j => (f j, 0)) = (laneOf n f, 0) := by
  have hfold (l : List Nat) : l.foldl (fun (a : Fl) _ => a ||| 0) 0 = 0 := by
    induction l with
    | nil => rfl
    | cons j l _ => simp
  exact Prod.ext rfl (hfold _)

theorem subOf_lt (n : Nat) (x : Lane) (j : Nat) : subOf n x j < 2 ^ n := Nat.mod_lt _ (Nat.two_pow_pos n)

theorem intBits_pos (ty : BitVec 3) : 0 < intBits ty := by
  unfold intBits
  split
  · decide
  · split <;> decide

section
variable {n : Nat} (x y : BitVec n)

theorem intOf_toNat (sg : Bool) (hn : 0 < n) : intOf sg n x.toNat = if sg then x.toInt else x.toNat := by
  obtain ⟨m, rfl⟩ := Nat.exists_eq_add_of_lt hn
  have hpow : 2 ^ (0 + m + 1) = 2 * 2 ^ m := by rw [Nat.zero_add, Nat.pow_succ']
  have hhalf : 2 ^ (0 + m + 1 - 1) = 2 ^ m := by simp
  cases sg with
  | false => rfl
  | true =>
    simp only [intOf, BitVec.toInt, hhalf, Bool.true_and, decide_eq_true_eq, if_true]
    push_cast
    split <;> split <;> omega

theorem natOf_eq_toNat (v : Int) : natOf n v = (BitVec.ofInt n v).toNat := by
  rw [natOf, BitVec.toNat_ofInt]
  norm_cast

theorem toNat_mod : x.toNat % 2 ^ n = x.toNat := Nat.mod_eq_of_lt x.isLt

theorem sub_mod_eq : (x.toNat + 2 ^ n - y.toNat) % 2 ^ n = (x - y).toNat := by
  have hy := y.isLt
  rw [BitVec.toNat_sub]
  congr 1
  omega

theorem and_not_eq : (x.toNat &&& (2 ^ n - 1 - y.toNat)) = (x &&& ~~~y).toNat := by
  rw [BitVec.toNat_and, BitVec.toNat_not]

theorem shl_mod_eq : x.toNat * 2 ^ (y.toNat % n) % 2 ^ n = (x <<< (y.toNat % n)).toNat := by
  rw [BitVec.toNat_shiftLeft, Nat.shiftLeft_eq]

theorem shr_eq : x.toNat / 2 ^ (y.toNat % n) = (x >>> (y.toNat % n)).toNat := by
  rw [BitVec.toNat_ushiftRight, Nat.shiftRight_eq_div_pow]

theorem sar_eq (hn : 0 < n) : natOf n (intOf true n x.toNat / 2 ^ (y.toNat % n)) = (x.sshiftRight (y.toNat % n)).toNat := by
  rw [intOf_toNat x true hn, natOf_eq_toNat, BitVec.sshiftRight, Int.shiftRight_eq_div_pow]
  rfl

theorem clz_eq : n - bitLen x.toNat = if x = 0 then n else n - 1 - x.toNat.log2 := by
  unfold bitLen
  by_cases hx : x = 0
  · simp [hx]
  · have hnat : x.toNat ≠ 0 := fun h => hx (BitVec.eq_of_toNat_eq h)
    rw [if_neg hnat, if_neg hx]
    omega

theorem pop_eq (l : List Nat) : (l.map fun i => x.toNat / 2 ^ i % 2).sum = l.countP fun i => x.getLsbD i := by
  have hbit (i : Nat) : x.toNat / 2 ^ i % 2 = if x.getLsbD i then 1 else 0 := by
    rw [← Nat.toNat_testBit, BitVec.testBit_toNat, Bool.toNat, Bool.cond_eq_ite]
  simp only [hbit]
  induction l with
  | nil => rfl
  | cons i r ih => rw [List.map_cons, List.sum_cons, List.countP_cons, ih, Nat.add_comm]

end

end Sys2Proof.Machine

namespace Sys2Proof.Safety

open Sys2Proof.Machine

/-- The rule for an integer operation on sub-elements, from what it computes modulo the width. -/
theorem Paying.vint {s s1 : State} {r : Nat} {t t1 : Machine.Task} (h : Paying s r t 48 s1 t1) (d a b : BitVec 5) (k ty : BitVec 3)
    (f : Bool → Nat → Nat → Nat → Nat) (g : BitVec (intBits ty) → BitVec (intBits ty) → BitVec (intBits ty))
    (hfg : ∀ x y : BitVec (intBits ty), f (isSigned ty) (intBits ty) x.toNat y.toNat % 2 ^ intBits ty = (g x y).toNat) :
    s.vint d a b k ty f = .next (retire s1 (t1.setV d (Vector.ofFn fun l => if (t1.K k).getLsbD l then
      laneOf (intBits ty) fun j => (g (BitVec.ofNat _ (subOf (intBits ty) (t1.V a)[l] j)) (BitVec.ofNat _ (subOf (intBits ty) (t1.V b)[l] j))).toNat
      else (t1.V d)[l])).adv) := by
  simp only [State.vint, perSub_noFlags]
  refine h.masked d k _ fun l => laneOf_congr fun j => ?_
  rw [toNat_mod, ← hfg, BitVec.toNat_ofNat, BitVec.toNat_ofNat, Nat.mod_eq_of_lt (subOf_lt ..), Nat.mod_eq_of_lt (subOf_lt ..)]

/-- Settles O25, by the rule `Paying.vint` at each operation. -/
theorem vectorIntegerResults : Obligations.VectorIntegerResults := by
  unfold Obligations.VectorIntegerResults
  intro s s1 r t t1 d a b k ty h n int lo hi clamp rule
  have hint (x : BitVec n) : intOf (isSigned ty) n x.toNat = int x := intOf_toNat x _ (intBits_pos ty)
  have hclamp (v : Int) : clampTo (isSigned ty) n v = (clamp v).toNat := natOf_eq_toNat _
  have hmod {x : BitVec n} {v : Nat} (hv : v = x.toNat) : v % 2 ^ n = x.toNat := hv ▸ toNat_mod x
  refine ⟨?_, ?_, ?_, ?_, ?_, ?_, ?_, ?_, ?_, ?_, ?_, ?_, ?_, ?_, ?_, ?_, ?_, ?_⟩
  · exact h.vint d a b k ty (fun _ _ x y => x + y) (fun x y => x + y) fun x y => (BitVec.toNat_add x y).symm
  · exact h.vint d a b k ty (fun _ w x y => x + 2 ^ w - y) (fun x y => x - y) sub_mod_eq
  · exact h.vint d a b k ty (fun _ _ x y => x * y) (fun x y => x * y) fun x y => (BitVec.toNat_mul x y).symm
  · exact h.vint d a b k ty mulHigh (fun x y => BitVec.ofInt n (int x * int y / 2 ^ n)) fun x y =>
      hmod (by rw [mulHigh, hint, hint, natOf_eq_toNat])
  · exact h.vint d a b k ty (fun g w x y => clampTo g w (intOf g w x + intOf g w y)) (fun x y => clamp (int x + int y)) fun x y =>
      hmod (by rw [hint, hint, hclamp])
  · exact h.vint d a b k ty (fun g w x y => clampTo g w (intOf g w x - intOf g w y)) (fun x y => clamp (int x - int y)) fun x y =>
      hmod (by rw [hint, hint, hclamp])
  · exact h.vint d a b k ty (fun g w x y => if intOf g w x ≤ intOf g w y then x else y) (fun x y => if int x ≤ int y then x else y) fun x y =>
      hmod (by rw [hint, hint, apply_ite BitVec.toNat])
  · exact h.vint d a b k ty (fun g w x y => if intOf g w x ≤ intOf g w y then y else x) (fun x y => if int x ≤ int y then y else x) fun x y =>
      hmod (by rw [hint, hint, apply_ite BitVec.toNat])
  · exact h.vint d a b k ty (fun _ _ x y => x &&& y) (fun x y => x &&& y) fun x y => hmod (BitVec.toNat_and x y).symm
  · exact h.vint d a b k ty (fun _ _ x y => x ||| y) (fun x y => x ||| y) fun x y => hmod (BitVec.toNat_or x y).symm
  · exact h.vint d a b k ty (fun _ _ x y => x ^^^ y) (fun x y => x ^^^ y) fun x y => hmod (BitVec.toNat_xor x y).symm
  · exact h.vint d a b k ty (fun _ w x y => x &&& (2 ^ w - 1 - y)) (fun x y => x &&& ~~~y) fun x y => hmod (and_not_eq x y)
  · exact h.vint d a b k ty (fun _ w x y => x * 2 ^ (y % w)) (fun x y => x <<< (y.toNat % n)) shl_mod_eq
  · exact h.vint d a b k ty (fun _ w x y => x / 2 ^ (y % w)) (fun x y => x >>> (y.toNat % n)) fun x y => hmod (shr_eq x y)
  · exact h.vint d a b k ty (fun _ w x y => natOf w (intOf true w x / 2 ^ (y % w))) (fun x y => x.sshiftRight (y.toNat % n)) fun x y =>
      hmod (sar_eq x y (intBits_pos ty))
  · exact h.vint d a b k ty (fun g w x y => (intOf g w x - intOf g w y).natAbs) (fun x y => BitVec.ofNat n (int x - int y).natAbs) fun x y => by
      rw [hint, hint, BitVec.toNat_ofNat]
  · exact h.vint d a 0 k ty (fun _ w x _ => w - bitLen x) (fun x _ => BitVec.ofNat n (if x = 0 then n else n - 1 - x.toNat.log2)) fun x _ => by
      rw [clz_eq, BitVec.toNat_ofNat]
  · exact h.vint d a 0 k ty (fun _ w x _ => ((List.range w).map fun i => x / 2 ^ i % 2).sum)
      (fun x _ => BitVec.ofNat n ((List.range n).countP fun i => x.getLsbD i)) fun x _ => by rw [pop_eq, BitVec.toNat_ofNat]

end Sys2Proof.Safety

end

section

namespace Sys2Proof.Safety

open Sys2Proof.Machine

section
variable {s s1 : State} {r n : Nat} {t t1 : Machine.Task}

/-- The rule for a floating-point operation on sub-elements (R134 to R139). -/
theorem Paying.vfp (h : Paying s r t n s1 t1) (d a b c : BitVec 5) (k ty : BitVec 3) (f : Fm → Nat → Nat → Nat → Nat × Fl) :
    s.vfp n d a b c k ty f = .next (retire s1 (t1.setVec d k (Vector.ofFn fun l => perSub (vFm t1.fmt ty.toNat).width fun j =>
      f (vFm t1.fmt ty.toNat) (subOf (vFm t1.fmt ty.toNat).width (t1.V a)[l] j) (subOf (vFm t1.fmt ty.toNat).width (t1.V b)[l] j)
        (subOf (vFm t1.fmt ty.toNat).width (t1.V c)[l] j)))) := h.vecOp d k _

/-- The rule for a special function (R140). -/
theorem Paying.vspecial (h : Paying s r t 160 s1 t1) (d a : BitVec 5) (k ty : BitVec 3) (f : Fm → Nat → Nat × Fl) :
    s.vspecial d a k ty f = .next (retire s1 (t1.setVec d k (Vector.ofFn fun l => perSub (vFm t1.fmt ty.toNat).width fun j =>
      f (vFm t1.fmt ty.toNat) (subOf (vFm t1.fmt ty.toNat).width (t1.V a)[l] j)))) := h.vecOp d k _

end

/-- Settles O26: each operation is a rule for lanes at its own function. -/
theorem vectorFloatResults : Obligations.VectorFloatResults := by
  unfold Obligations.VectorFloatResults
  intro s s1 r t t1 d a b c k ty F lanes x y z rn subs
  refine ⟨fun h => ⟨h.vecOp d k fun t i => (packLane (isSigned ty) (intBits ty) (t.V a)[i] (t.V b)[i], 0),
    h.vecOp d k fun t i => (unpackLane (isSigned ty) (intBits ty) c.toNat (t.V a)[i], 0),
    h.vfp d a b d k ty fun f x y _ => fAdd f rn x y, h.vfp d a b d k ty fun f x y _ => fSub f rn x y, h.vfp d a b d k ty fun f x y _ => fMul f rn x y,
    h.vfp d a b d k ty fun f x y _ => fMinMax f false x y, h.vfp d a b d k ty fun f x y _ => fMinMax f true x y,
    h.vfp d a b d k ty fun f x y _ => fScale f x (intOf true f.width y)⟩,
    fun h => ⟨h.vfp d a b c k ty fun f x y z => fFma f rn x y z,
      h.vfp d a b d k ty fun f x y z => fFmaVal f rn (f.value x) (f.value y) (f.value z).flip,
      h.vfp d a b d k ty fun f x y z => fFmaVal f rn (f.value x).flip (f.value y) (f.value z)⟩,
    fun h => ⟨h.vspecial d a k ty fRcp, h.vspecial d a k ty fun f => fRsq f rn, h.vspecial d a k ty fExp2, h.vspecial d a k ty fLog2,
      h.vspecial d a k ty fTanh⟩⟩

end Sys2Proof.Safety

end

section

namespace Sys2Proof.Safety

open Sys2Proof.Machine

section
variable {s s1 : State} {r n : Nat} {t t1 : Machine.Task}

theorem Paying.runCvt_illegal (h : Paying s r t n s1 t1) (d a : BitVec 5) (src : BitVec 3) (g : BitVec 1) (k : BitVec 3) (p : BitVec 2) (dst : BitVec 3)
    (rm : Machine.Task → Nat → Nat → Rm) (fin : Machine.Task → Machine.Task) (hbad : (src = 6 ∨ dst = 6) ∧ cvp t1.fmt = 0) :
    s.runCvt n d a src g k p dst rm fin = .next (s1.stopTask t1 .illegal) := h.runTask_stop (if_pos hbad)

theorem Paying.runCvt_done (h : Paying s r t n s1 t1) (d a : BitVec 5) (src : BitVec 3) (g : BitVec 1) (k : BitVec 3) (p : BitVec 2) (dst : BitVec 3)
    (rm : Machine.Task → Nat → Nat → Rm) (fin : Machine.Task → Machine.Task) (hbad : ¬ ((src = 6 ∨ dst = 6) ∧ cvp t1.fmt = 0)) :
    s.runCvt n d a src g k p dst rm fin = .next (retire s1 (fin (t1.setVec d k (Vector.ofFn fun i =>
      cvLane t1.fmt src.toNat dst.toNat p.toNat (g == 1) (rm t1 i) (t1.V a)[i] (t1.V d)[i])))) := h.runTask_done (if_neg hbad)

end

/-- Settles O27: both conversions are one rule, under their own rounding and end. -/
theorem vectorConversions : Obligations.VectorConversions := by
  unfold Obligations.VectorConversions
  intro s s1 r t t1 d a src k m dst g p bad res
  refine ⟨fun h => ⟨h.runCvt_illegal d a src g k p dst (fun _ _ _ => .mode m.toNat) id, h.runCvt_done d a src g k p dst (fun _ _ _ => .mode m.toNat) id⟩,
    fun h => ⟨h.runCvt_illegal d a src g k p dst (fun t i j => .stoch ((squall t i).toNat / 2 ^ (16 * j) % 2 ^ 16)) fun t => { t with srctr := t.srctr + 1 },
      h.runCvt_done d a src g k p dst (fun t i j => .stoch ((squall t i).toNat / 2 ^ (16 * j) % 2 ^ 16)) fun t => { t with srctr := t.srctr + 1 }⟩⟩

end Sys2Proof.Safety

end

section

/-! SUPPORT. Compares (R145): the fold of a lane holds where each sub-element does, and the mask is the sum of the bits of the lanes that hold. -/

namespace Sys2Proof.Machine

/-- What a lane's compare comes to: 1 where every sub-element holds, else 0, and the flags of all of them. -/
def compareLane (n : Nat) (c : Nat → Bool × Fl) : Lane × Fl :=
  (List.range n).foldl (fun acc j => (if (c j).1 then acc.1 else 0, acc.2 ||| (c j).2)) (1, 0)

theorem compareLane_fst (n : Nat) (c : Nat → Bool × Fl) : (compareLane n c).1 = if (List.range n).all (fun j => (c j).1) then 1 else 0 := by
  have hfold (l : List Nat) (x : Lane) (f : Fl) : (l.foldl (fun acc j => (if (c j).1 then acc.1 else 0, acc.2 ||| (c j).2)) (x, f)).1 =
      if l.all (fun j => (c j).1) then x else 0 := by
    induction l generalizing x f with
    | nil => rfl
    | cons j l ih =>
      rw [List.foldl_cons, ih, List.all_cons]
      cases (c j).1 <;> simp
  exact hfold _ _ _

theorem compareLane_snd (n : Nat) (c : Nat → Bool × Fl) : (compareLane n c).2 = ((List.range n).map fun j => (c j).2).foldl (fun x y => x ||| y) 0 := by
  have hfold (l : List Nat) (x : Lane) (f : Fl) : (l.foldl (fun acc j => (if (c j).1 then acc.1 else 0, acc.2 ||| (c j).2)) (x, f)).2 =
      (l.map fun j => (c j).2).foldl (fun x y => x ||| y) f := by
    induction l generalizing x f with
    | nil => rfl
    | cons j l ih => rw [List.foldl_cons, ih, List.map_cons, List.foldl_cons]
  exact hfold _ _ _

theorem compareLane_holds (n : Nat) (c : Nat → Bool × Fl) : ((compareLane n c).1 == 1) = (List.range n).all fun j => (c j).1 := by
  rw [compareLane_fst]
  cases (List.range n).all fun j => (c j).1 <;> rfl

theorem foldl_or_init (l : List Fl) (a : Fl) : l.foldl (fun x y => x ||| y) a = a ||| l.foldl (fun x y => x ||| y) 0 := by
  induction l generalizing a with
  | nil => simp
  | cons b l ih =>
    rw [List.foldl_cons, List.foldl_cons, ih, ih (0 ||| b)]
    simp [BitVec.or_assoc]

theorem foldl_add_if {α : Type} (p : α → Bool) (v : α → Nat) (l : List α) (a : Nat) :
    l.foldl (fun acc i => if p i then acc + v i else acc) a = a + (l.map fun i => if p i then v i else 0).sum := by
  induction l generalizing a with
  | nil => rfl
  | cons i l ih =>
    rw [List.foldl_cons, ih, List.map_cons, List.sum_cons]
    split <;> omega

theorem orFlags_ofFn (km : BitVec 16) (r : Fin 16 → Lane × Fl) (fl : Fin 16 → List Fl)
    (h : ∀ i, (r i).2 = (fl i).foldl (fun x y => x ||| y) 0) : orFlags km (Vector.ofFn r) =
      ((List.finRange 16).flatMap fun (l : Fin 16) => if km.getLsbD l then fl l else []).foldl (fun x y => x ||| y) 0 := by
  rw [List.foldl_flatMap, orFlags]
  congr 1
  funext a i
  simp only [active, Fin.getElem_fin, Vector.getElem_ofFn, Fin.eta]
  split
  · rw [h, ← foldl_or_init]
  · rfl

end Sys2Proof.Machine

namespace Sys2Proof.Safety

open Sys2Proof.Machine

/-- The mask of a compare: a bit for each active lane whose sub-elements all hold. -/
def compareMask (km : BitVec 16) (w : Nat) (c : Fin 16 → Nat → Bool) : BitVec 16 := BitVec.ofNat 16
  ((List.finRange 16).map fun (l : Fin 16) => if km.getLsbD l && (List.range (32 / w)).all (c l) then 2 ^ l.val else 0).sum

/-- The flags of a compare: those of every sub-element of the active lanes. -/
def compareFlags (km : BitVec 16) (w : Nat) (c : Fin 16 → Nat → Fl) : Fl :=
  ((List.finRange 16).flatMap fun (l : Fin 16) => if km.getLsbD l then (List.range (32 / w)).map (c l) else []).foldl (fun x y => x ||| y) 0

theorem orFlags_compareLane (km : BitVec 16) (w : Nat) (c : Fin 16 → Nat → Bool × Fl) :
    orFlags km (Vector.ofFn fun i => compareLane (32 / w) (c i)) = compareFlags km w fun l j => (c l j).2 :=
  orFlags_ofFn km _ _ fun i => compareLane_snd _ (c i)

/-- The compare of one sub-element. -/
def subCompare (t : Machine.Task) (w : Nat) (a b : BitVec 5) (f : Nat → Nat → Bool × Fl) (l : Fin 16) (j : Nat) : Bool × Fl :=
  f (subOf w (t.V a)[l] j) (subOf w (t.V b)[l] j)

theorem compare_eq (s : State) (cost : Nat) (d a b : BitVec 5) (k : BitVec 3) (w : Machine.Task → Nat) (f : Machine.Task → Nat → Nat → Bool × Fl) :
    s.compare cost d a b k w f = s.runReg cost fun t =>
      let r : Vector (Lane × Fl) 16 := Vector.ofFn fun i => compareLane (32 / w t) (subCompare t (w t) a b (f t) i)
      let m := (List.finRange 16).foldl (fun acc (i : Fin 16) => if active (t.K k) i && r[i].1 == 1 then acc + 2 ^ i.val else acc) 0
      ((t.setK (d.setWidth 3) (BitVec.ofNat 16 m)).raise (orFlags (t.K k) r)).adv := rfl

section
variable {s s1 : State} {r n : Nat} {t t1 : Machine.Task}

/-- The rule for a compare (R145). -/
theorem Paying.compare (h : Paying s r t n s1 t1) (d a b : BitVec 5) (k : BitVec 3) (w : Machine.Task → Nat)
    (f : Machine.Task → Nat → Nat → Bool × Fl) : s.compare n d a b k w f = .next (retire s1
      ((t1.setK (d.setWidth 3) (compareMask (t1.K k) (w t1) fun l j => (subCompare t1 (w t1) a b (f t1) l j).1)).raise
        (compareFlags (t1.K k) (w t1) fun l j => (subCompare t1 (w t1) a b (f t1) l j).2)).adv) := by
  rw [compare_eq, h.runReg]
  dsimp only
  rw [orFlags_compareLane, foldl_add_if, Nat.zero_add]
  simp only [Fin.getElem_fin, Vector.getElem_ofFn, Fin.eta, compareLane_holds, active]
  rfl

end

theorem compareFlags_zero (km : BitVec 16) (w : Nat) : compareFlags km w (fun _ _ => 0) = 0 := by
  have hzero (l : List Fl) (h : ∀ f ∈ l, f = 0) : l.foldl (fun x y => x ||| y) 0 = 0 := by
    induction l with
    | nil => rfl
    | cons f l ih =>
      rw [List.foldl_cons, h f (List.mem_cons_self ..)]
      exact ih fun g hg => h g (List.mem_cons_of_mem _ hg)
  refine hzero _ fun f hf => ?_
  obtain ⟨i, -, hi⟩ := List.mem_flatMap.mp hf
  split at hi
  · obtain ⟨_, -, rfl⟩ := List.mem_map.mp hi
    rfl
  · cases hi

/-- The rule for an integer compare: it raises no flag. -/
theorem Paying.icmp {s s1 : State} {r : Nat} {t t1 : Machine.Task} (h : Paying s r t 48 s1 t1) (d a b : BitVec 5) (k ty : BitVec 3)
    (p : Int → Int → Bool) {int : Nat → Int} (hint : ∀ x j, intOf (isSigned ty) (intBits ty) (subOf (intBits ty) x j) = int (subOf (intBits ty) x j)) :
    s.icmp d a b k ty p = .next (retire s1 (t1.setK (d.setWidth 3) (compareMask (t1.K k) (intBits ty) fun l j =>
      p (int (subOf (intBits ty) (t1.V a)[l] j)) (int (subOf (intBits ty) (t1.V b)[l] j)))).adv) := by
  rw [State.icmp, h.compare]
  simp only [subCompare, hint]
  rw [compareFlags_zero, raise_zero]

/-- Settles O30, by the rules for compares, and one register write each for the operations on masks. -/
theorem vectorCompares : Obligations.VectorCompares := by
  unfold Obligations.VectorCompares
  intro s s1 r t t1 d a b k ty mask
  refine ⟨fun h => ?_, fun h => ?_, fun h => ⟨h.runReg fun t => (t.setK (kreg d) (t.K (kreg a) &&& t.K (kreg b))).adv,
    h.runReg fun t => (t.setK (kreg d) (t.K (kreg a) ||| t.K (kreg b))).adv, h.runReg fun t => (t.setK (kreg d) (~~~(t.K (kreg a)))).adv,
    h.runReg fun t => (t.setK (kreg d) (t.K (kreg a))).adv, h.runReg fun t => (t.setK (kreg d) ((t.S a).setWidth 16)).adv,
    h.runReg fun t => (t.setS d ((t.K (kreg a)).setWidth 64)).adv⟩⟩
  · intro n int rule
    have hint (x : Lane) (j : Nat) : intOf (isSigned ty) n (subOf n x j) = int (subOf n x j) := by
      have hsub := intOf_toNat (BitVec.ofNat n (subOf n x j)) (isSigned ty) (intBits_pos ty)
      rw [BitVec.toNat_ofNat, Nat.mod_eq_of_lt (subOf_lt ..)] at hsub
      exact hsub
    exact ⟨h.icmp d a b k ty (fun x y => decide (x = y)) hint, h.icmp d a b k ty (fun x y => decide (x ≠ y)) hint,
      h.icmp d a b k ty (fun x y => decide (x < y)) hint, h.icmp d a b k ty (fun x y => decide (x ≤ y)) hint⟩
  · have hcmp (op : Nat) := h.compare d a b k (fun t => (vFm t.fmt ty.toNat).width) fun t => fCmp (vFm t.fmt ty.toNat) op
    exact ⟨hcmp 0, hcmp 1, hcmp 2, hcmp 3⟩

end Sys2Proof.Safety

end

section

/-! SUPPORT. Reductions and scans (R141 to R143): a tree of an associative operation combines the lanes as a fold does, whatever its shape. -/

namespace Sys2Proof.Machine

/-- The combination of two lanes of which either may be inactive. -/
def optOp (g : Nat → Nat → Nat) : Option Nat → Option Nat → Option Nat
  | some x, some y => some (g x y)
  | some x, none => some x
  | none, y => y

/-- The combination of all lanes. -/
def total (g : Nat → Nat → Nat) (l : List (Option Nat × Fl)) : Option Nat := l.foldr (fun a r => optOp g a.1 r) none

section
variable {g : Nat → Nat → Nat} (hg : ∀ x y z, g (g x y) z = g x (g y z))
include hg

theorem optOp_assoc (a b c : Option Nat) : optOp g (optOp g a b) c = optOp g a (optOp g b c) := by
  cases a <;> cases b <;> cases c <;> simp [optOp, hg]

theorem total_level (l : List (Option Nat × Fl)) : total g (level (fun x y => (g x y, 0)) l) = total g l := by
  induction l using level.induct with
  | case1 a b r ih =>
    have hnode : (node (fun x y => (g x y, 0)) a b).1 = optOp g a.1 b.1 := by
      obtain ⟨_ | x, fa⟩ := a <;> obtain ⟨_ | y, fb⟩ := b <;> rfl
    simp only [level, total, List.foldr_cons, hnode, optOp_assoc hg] at ih ⊢
    rw [ih]
  | case2 l _ => rw [level]; assumption

theorem total_some_cons (x : Nat) (f : Fl) (l : List (Option Nat)) :
    total g ((some x, f) :: l.map fun a => (a, 0)) = some ((l.filterMap id).foldl g x) := by
  induction l generalizing x f with
  | nil => rfl
  | cons a l ih =>
    cases a with
    | none =>
      have hskip : total g ((some x, f) :: (none :: l).map fun a => (a, (0 : Fl))) = total g ((some x, f) :: l.map fun a => (a, 0)) := rfl
      rw [hskip, ih]
      rfl
    | some y =>
      have hstep : total g ((some x, f) :: (some y :: l).map fun a => (a, (0 : Fl))) = total g ((some (g x y), f) :: l.map fun a => (a, 0)) :=
        (optOp_assoc hg (some x) (some y) _).symm
      rw [hstep, ih]
      rfl

end

section
variable (g : Nat → Nat → Nat)

theorem level_flags {l : List (Option Nat × Fl)} (h : ∀ a ∈ l, a.2 = 0) : ∀ a ∈ level (fun x y => (g x y, 0)) l, a.2 = 0 := by
  induction l using level.induct with
  | case1 a b r ih =>
    have hnode : (node (fun x y => (g x y, 0)) a b).2 = 0 := by
      have ha := h a (by simp)
      have hb := h b (by simp)
      obtain ⟨_ | x, fa⟩ := a <;> obtain ⟨_ | y, fb⟩ := b <;> simp_all [node]
    rw [level, List.forall_mem_cons]
    exact ⟨hnode, ih fun c hc => h c (List.mem_cons_of_mem _ (List.mem_cons_of_mem _ hc))⟩
  | case2 l hl => rwa [level]; assumption

theorem length_level {l : List (Option Nat × Fl)} {n : Nat} (h : l.length = 2 * n) : (level (fun x y => (g x y, 0)) l).length = n := by
  induction l using level.induct generalizing n with
  | case1 a b r ih =>
    rw [level, List.length_cons, ih (n := n - 1) (by simp only [List.length_cons] at h; omega)]
    simp only [List.length_cons] at h
    omega
  | case2 l hl =>
    match l, hl with
    | [], _ =>
      simp only [level, List.length_nil] at h ⊢
      omega
    | [_], _ => simp at h; omega
    | a :: b :: r, hl => exact absurd rfl (hl a b r)

theorem tree_eq_total (hg : ∀ x y z, g (g x y) z = g x (g y z)) {xs : List (Option Nat)} (h : xs.length = 16) :
    tree (fun x y => (g x y, 0)) xs = ((total g (xs.map fun x => (x, 0))).getD 0, 0) := by
  have hnone (x : Option Nat) : optOp g x none = x := by cases x <;> rfl
  have hflags : ∀ a ∈ xs.map fun x => (x, (0 : Fl)), a.2 = 0 := by simp
  have hlen : (xs.map fun x => (x, (0 : Fl))).length = 16 := by rw [List.length_map, h]
  generalize hl : xs.map (fun x => (x, (0 : Fl))) = l at hflags hlen ⊢
  have htotal : total g (level (fun x y => (g x y, 0)) (level (fun x y => (g x y, 0)) (level (fun x y => (g x y, 0))
      (level (fun x y => (g x y, 0)) l)))) = total g l := by
    rw [total_level hg, total_level hg, total_level hg, total_level hg]
  have hroot := level_flags g (level_flags g (level_flags g (level_flags g hflags)))
  have hone := length_level g (n := 1) (length_level g (n := 2) (length_level g (n := 4) (length_level g (n := 8) hlen)))
  obtain ⟨r, hr⟩ := List.length_eq_one_iff.mp hone
  rw [hr] at htotal hroot
  have hvalue : total g l = r.1 := htotal.symm.trans (hnone r.1)
  simp only [tree, hl, hr, hvalue, hroot r (List.mem_singleton_self r)]

/-- What the active lanes fold to, from the first of them on. -/
def foldLanes (g : Nat → Nat → Nat) : List Nat → Nat
  | [] => 0
  | x :: l => l.foldl g x

theorem total_getD_eq_foldLanes (hg : ∀ x y z, g (g x y) z = g x (g y z)) (xs : List (Option Nat)) :
    (total g (xs.map fun x => (x, 0))).getD 0 = foldLanes g (xs.filterMap id) := by
  induction xs with
  | nil => rfl
  | cons a l ih =>
    cases a with
    | none => exact ih
    | some x =>
      rw [List.map_cons, total_some_cons hg]
      rfl

/-- Two operations that agree on the values of a list, and stay among the values they agree on, fold it alike. -/
theorem foldl_congr_on {P : Nat → Prop} {p q : Nat → Nat → Nat} (hpq : ∀ x y, P x → P y → p x y = q x y ∧ P (p x y)) {l : List Nat}
    (hl : ∀ y ∈ l, P y) {x : Nat} (hx : P x) : l.foldl p x = l.foldl q x := by
  induction l generalizing x with
  | nil => rfl
  | cons y l ih =>
    obtain ⟨heq, hp⟩ := hpq x y hx (hl y (List.mem_cons_self ..))
    rw [List.foldl_cons, List.foldl_cons, ← heq]
    exact ih (fun z hz => hl z (List.mem_cons_of_mem _ hz)) hp

end

theorem addMod_assoc (m x y z : Nat) : ((x + y) % m + z) % m = (x + (y + z) % m) % m := by
  rw [Nat.mod_add_mod, Nat.add_mod_mod, Nat.add_assoc]

theorem foldl_addMod (m : Nat) (l : List Nat) (x : Nat) : l.foldl (fun x y => (x + y) % m) x % m = (x + l.sum) % m := by
  induction l generalizing x with
  | nil => rfl
  | cons y l ih => rw [List.foldl_cons, ih, Nat.mod_add_mod, List.sum_cons, Nat.add_assoc]

theorem minBy_assoc (v : Nat → Int) (x y z : Nat) :
    (if v (if v x ≤ v y then x else y) ≤ v z then (if v x ≤ v y then x else y) else z) =
      if v x ≤ v (if v y ≤ v z then y else z) then x else (if v y ≤ v z then y else z) := by
  by_cases hxy : v x ≤ v y <;> by_cases hyz : v y ≤ v z <;> by_cases hxz : v x ≤ v z <;> simp [hxy, hyz, hxz] <;> omega

theorem maxBy_assoc (v : Nat → Int) (x y z : Nat) :
    (if v (if v x ≤ v y then y else x) ≤ v z then z else (if v x ≤ v y then y else x)) =
      if v x ≤ v (if v y ≤ v z then z else y) then (if v y ≤ v z then z else y) else x := by
  by_cases hxy : v x ≤ v y <;> by_cases hyz : v y ≤ v z <;> by_cases hxz : v x ≤ v z <;> simp [hxy, hyz, hxz] <;> omega

theorem sum_take_finRange (n k : Nat) (f : Fin n → Nat) :
    (((List.finRange n).map f).take k).sum = ((List.finRange n).map fun l => if l.val < k then f l else 0).sum := by
  rw [← List.ofFn_eq_map, List.sum_take_ofFn, Finset.sum_filter, Fin.sum_univ_def]

theorem filterMap_lanesOf (t : Task) (a : BitVec 5) (k : BitVec 3) (b j : Nat) : (lanesOf t a k b j).filterMap id =
    (List.finRange 16).filterMap fun (l : Fin 16) => if (t.K k).getLsbD l then some (subOf b (t.V a)[l] j) else none := by
  rw [lanesOf, List.filterMap_map]
  rfl

theorem mem_lanesOf_lt {t : Task} {a : BitVec 5} {k : BitVec 3} {b j x : Nat} (h : x ∈ (lanesOf t a k b j).filterMap id) : x < 2 ^ b := by
  rw [filterMap_lanesOf] at h
  obtain ⟨l, -, hl⟩ := List.mem_filterMap.mp h
  split at hl
  · cases hl
    exact subOf_lt ..
  · cases hl

theorem foldLanes_congr_on {P : Nat → Prop} {p q : Nat → Nat → Nat} (hpq : ∀ x y, P x → P y → p x y = q x y ∧ P (p x y)) {l : List Nat}
    (hl : ∀ y ∈ l, P y) : foldLanes p l = foldLanes q l := by
  cases l with
  | nil => rfl
  | cons x l => exact foldl_congr_on hpq (fun y hy => hl y (List.mem_cons_of_mem _ hy)) (hl x (List.mem_cons_self ..))

theorem foldLanes_addMod (m : Nat) (l : List Nat) : foldLanes (fun x y => (x + y) % m) l % m = l.sum % m := by
  cases l with
  | nil => rfl
  | cons x l => rw [foldLanes, foldl_addMod, List.sum_cons]

/-- Numbers of n bits with the same value as integers are the same. -/
theorem intOf_injective {sg : Bool} {n x y : Nat} (hx : x < 2 ^ n) (hy : y < 2 ^ n) (h : intOf sg n x = intOf sg n y) : x = y := by
  unfold intOf at h
  have hpow : ((2 : Int) ^ n) = ((2 ^ n : Nat) : Int) := by norm_cast
  rw [hpow] at h
  split at h <;> split at h <;> omega

/-- The lesser of two numbers of n bits by one comparison and by the other. -/
theorem pickMin_eq {sg : Bool} {n x y : Nat} {vx vy : Int} (hx : intOf sg n x = vx) (hy : intOf sg n y = vy) (hxn : x < 2 ^ n) (hyn : y < 2 ^ n) :
    (if intOf sg n x ≤ intOf sg n y then x else y) = (if decide (vy < vx) = true then y else x) ∧
      (if intOf sg n x ≤ intOf sg n y then x else y) < 2 ^ n := by
  subst hx hy
  by_cases h : intOf sg n x ≤ intOf sg n y
  · simp [h, hxn]
  · rw [if_neg h]
    simp [hyn, not_le.mp h]

/-- The greater of two numbers of n bits by one comparison and by the other: equals are the same number. -/
theorem pickMax_eq {sg : Bool} {n x y : Nat} {vx vy : Int} (hx : intOf sg n x = vx) (hy : intOf sg n y = vy) (hxn : x < 2 ^ n) (hyn : y < 2 ^ n) :
    (if intOf sg n x ≤ intOf sg n y then y else x) = (if decide (vx < vy) = true then y else x) ∧
      (if intOf sg n x ≤ intOf sg n y then y else x) < 2 ^ n := by
  subst hx hy
  rcases lt_trichotomy (intOf sg n x) (intOf sg n y) with h | h | h
  · simp [h, h.le, hyn]
  · simp [hyn, intOf_injective hxn hyn h]
  · simp [not_le.mpr h, h.le, hxn]

/-- The sum of the active lanes below k, as a sum over all lanes. -/
theorem sum_take_lanesOf (t : Task) (a : BitVec 5) (m : BitVec 3) (b j : Nat) (i : Fin 16) :
    (((lanesOf t a m b j).take (i + 1)).map fun x => x.getD 0).sum =
      ((List.finRange 16).map fun (l : Fin 16) => if l ≤ i ∧ (t.K m).getLsbD l then subOf b (t.V a)[l] j else 0).sum := by
  rw [List.map_take, lanesOf, List.map_map, sum_take_finRange]
  refine congrArg List.sum (List.map_congr_left fun l _ => ?_)
  by_cases hl : l ≤ i
  · have : l.val < i.val + 1 := Nat.lt_succ_of_le hl
    simp only [Function.comp_apply, this, hl, active, if_true, true_and]
    by_cases ha : (t.K m).getLsbD l = true
    · rw [if_pos ha]
      exact congrArg (Option.getD · 0) (if_pos ha)
    · rw [if_neg ha]
      exact congrArg (Option.getD · 0) (if_neg ha)
  · have : ¬ l.val < i.val + 1 := fun h => hl (Nat.le_of_lt_succ h)
    simp [this, hl]

end Sys2Proof.Machine

namespace Sys2Proof.Safety

open Sys2Proof.Machine

section
variable {s s1 : State} {r : Nat} {t t1 : Machine.Task}

/-- The rule for a reduction by an associative operation that raises no flag. -/
theorem Paying.reduce_assoc (h : Paying s r t 96 s1 t1) (d a : BitVec 5) (k : BitVec 3) (n : Nat) {g : Nat → Nat → Nat}
    (hg : ∀ x y z, g (g x y) z = g x (g y z)) : s.reduce d a k (fun _ => n) (fun _ => tree fun x y => (g x y, 0)) =
      .next (retire s1 (t1.setV d (Vector.replicate 16 (laneOf n fun j => foldLanes g ((lanesOf t1 a k n j).filterMap id)))).adv) := by
  have hlen (j : Nat) : (lanesOf t1 a k n j).length = 16 := by simp [lanesOf]
  rw [State.reduce, h.runReg]
  simp only [tree_eq_total g hg (hlen _), total_getD_eq_foldLanes g hg, perSub_noFlags, raise_zero]

end

/-- Settles O28: sums, minima and maxima are associative, so that the tree gives what a fold gives. -/
theorem vectorReductions : Obligations.VectorReductions := by
  unfold Obligations.VectorReductions
  intro s s1 r t t1 d a k ty h n xs int fold rule
  have hxs (j : Nat) : (lanesOf t1 a k n j).filterMap id = xs j := filterMap_lanesOf ..
  have hlt (j y : Nat) (hy : y ∈ xs j) : y < 2 ^ n := mem_lanesOf_lt ((hxs j).symm ▸ hy)
  have hint (x : Nat) (hx : x < 2 ^ n) : intOf (isSigned ty) n x = int x := by
    have hof := intOf_toNat (BitVec.ofNat n x) (isSigned ty) (intBits_pos ty)
    rw [BitVec.toNat_ofNat, Nat.mod_eq_of_lt hx] at hof
    exact hof
  have hfold (p : Nat → Nat → Bool) (l : List Nat) : fold p l = foldLanes (fun m y => if p y m then y else m) l := by cases l <;> rfl
  refine ⟨?_, ?_, ?_, ?_, h.runReg _⟩
  · refine (h.reduce_assoc d a k n (addMod_assoc (2 ^ n))).trans ?_
    simp only [hxs]
    rw [laneOf_congr fun j => foldLanes_addMod (2 ^ n) (xs j)]
  · refine (h.reduce_assoc d a k n (minBy_assoc (intOf (isSigned ty) n))).trans ?_
    simp only [hxs, hfold]
    rw [laneOf_congr fun j => congrArg (· % 2 ^ n) (foldLanes_congr_on (fun x y hx hy => pickMin_eq (hint x hx) (hint y hy) hx hy) (hlt j))]
  · refine (h.reduce_assoc d a k n (maxBy_assoc (intOf (isSigned ty) n))).trans ?_
    simp only [hxs, hfold]
    rw [laneOf_congr fun j => congrArg (· % 2 ^ n) (foldLanes_congr_on (fun x y hx hy => pickMax_eq (hint x hx) (hint y hy) hx hy) (hlt j))]
  · refine (h.runReg _).trans ?_
    simp only [sum_take_lanesOf]
    rfl

end Sys2Proof.Safety

end

section

/-! SUPPORT. The LUT island (R155, R156): each bit of a lane is the bit of its table that the selected input bits number. -/

namespace Sys2Proof.Machine

theorem foldl_bits_lt (o : Nat → Nat) (ho : ∀ j, o j < 2) (n : Nat) : (List.range n).foldl (fun acc j => acc + o j * 2 ^ j) 0 < 2 ^ n := by
  induction n with
  | zero => exact Nat.one_pos
  | succ n ih =>
    rw [List.range_succ, List.foldl_append, List.foldl_cons, List.foldl_nil, Nat.pow_succ]
    have hn := Nat.mul_le_mul_right (2 ^ n) (Nat.le_of_lt_succ (ho n))
    omega

/-- A sum of bits at their places has each of them at its place, and none above. -/
theorem testBit_foldl_bits (o : Nat → Nat) (ho : ∀ j, o j < 2) (n i : Nat) :
    ((List.range n).foldl (fun acc j => acc + o j * 2 ^ j) 0).testBit i = (decide (i < n) && o i == 1) := by
  induction n with
  | zero => simp
  | succ n ih =>
    rw [List.range_succ, List.foldl_append, List.foldl_cons, List.foldl_nil, Nat.add_comm, Nat.mul_comm,
      Nat.testBit_two_pow_mul_add _ (foldl_bits_lt o ho n), ih]
    by_cases hi : i < n
    · simp [hi, Nat.lt_succ_of_lt hi]
    · rw [if_neg hi]
      obtain rfl | hlt := Nat.eq_or_lt_of_le (Nat.le_of_not_lt hi)
      · have hn : o n % 2 = o n := Nat.mod_eq_of_lt (ho n)
        simp [Nat.testBit_zero, hn, ← Bool.beq_eq_decide_eq]
      · have hbit : (o n).testBit (i - n) = false := Nat.testBit_lt_two_pow (Nat.lt_of_lt_of_le (ho n) (Nat.le_self_pow (by omega) 2))
        rw [hbit, decide_eq_false (by omega), Bool.false_and]

theorem lutOut_lt (c : Word) (x : Nat) : lutOut c x < 2 := Nat.mod_lt _ (by decide)

theorem toNat_div_two_pow (x : BitVec 64) (p n : Nat) : x.toNat / 2 ^ p % 2 * 2 ^ n = if x.getLsbD p then 2 ^ n else 0 := by
  rw [← Nat.toNat_testBit, BitVec.testBit_toNat]
  cases x.getLsbD p <;> simp

theorem lutOut_eq_one (c : Word) (x : BitVec 64) : (lutOut c x.toNat == 1) = c.toNat.testBit (
    (if x.getLsbD (c.toNat / 2 ^ (16 + 6 * 3) % 64) then 2 ^ 3 else 0) + (if x.getLsbD (c.toNat / 2 ^ (16 + 6 * 2) % 64) then 2 ^ 2 else 0) +
    (if x.getLsbD (c.toNat / 2 ^ (16 + 6 * 1) % 64) then 2 ^ 1 else 0) + (if x.getLsbD (c.toNat / 2 ^ (16 + 6 * 0) % 64) then 2 ^ 0 else 0)) := by
  simp only [← toNat_div_two_pow]
  rw [Nat.testBit_eq_decide_div_mod_eq, Bool.beq_eq_decide_eq]
  norm_num [lutOut, bits]

theorem toNat_append_words (x y : Lane) : (y ++ x : BitVec 64).toNat = y.toNat * 2 ^ 32 + x.toNat := by
  have happ := BitVec.toNat_append y x
  rw [← Nat.shiftLeft_add_eq_or_of_lt x.isLt, Nat.shiftLeft_eq] at happ
  exact happ

theorem getLsbD_lutLane (cfg : Vector Word 256) (l : Nat) (x y : Lane) (p : Nat) (hp : p < 32) : (lutLane cfg l x y).getLsbD p =
    (decide (p < 16) && lutOut (cfg[(16 * l + p) % 256]'(Nat.mod_lt _ (by decide))) (y ++ x : BitVec 64).toNat == 1) := by
  rw [lutLane, BitVec.getLsbD_ofNat, decide_eq_true hp, Bool.true_and, toNat_append_words]
  exact testBit_foldl_bits (fun j => lutOut (cfg[(16 * l + j) % 256]'(Nat.mod_lt _ (by decide))) (y.toNat * 2 ^ 32 + x.toNat))
    (fun j => lutOut_lt _ _) 16 p

end Sys2Proof.Machine

namespace Sys2Proof.Safety

open Sys2Proof.Machine

theorem Paying.runTask_fault {s s1 : State} {r n : Nat} {t t1 : Machine.Task} (h : Paying s r t n s1 t1) {body : State → Machine.Task → Body}
    {c d a : Nat} (hb : body s1 t1 = .fault c d a) : s.runTask (fun _ => n) body = .next (s1.faultTask t1 c d a) := by
  obtain ⟨hr, ht, hp⟩ := h
  rw [State.runTask_ok (fun _ => n) body hr ht hp, hb]

/-- What LUTLD does once it is charged: the last steps of its check, with no byte of the tables taken from a poisoned granule. -/
theorem lutld_find_none {s : State} {t : Machine.Task} {k : Nat} (h : ∀ i < 2048, covered t.staged (k + i) 1 = true ∨ (k + i) / 256 ∉ s.poison) :
    (((List.range 9).map fun j => k / 256 + j).find? fun g => s.poison.contains g &&
      (List.range 2048).any fun i => (k + i) / 256 == g && !covered t.staged (k + i) 1) = none := by
  rw [List.find?_eq_none]
  intro g _ hg
  simp only [Bool.and_eq_true, List.any_eq_true, List.mem_range, beq_iff_eq, Bool.not_eq_true', List.contains_iff_mem] at hg
  obtain ⟨hpoison, i, hi, rfl, huncovered⟩ := hg
  obtain hc | hn := h i hi
  · rw [hc] at huncovered
    cases huncovered
  · exact hn hpoison

/-- Settles O33. -/
theorem lutIsland : Obligations.LutIsland := by
  unfold Obligations.LutIsland
  intro s s1 r t t1 d a b k
  refine ⟨fun h => h.masked d k (fun t i => lutLane t.cfg i (t.V a)[i] (t.V b)[i]) fun _ => rfl, fun cfg l x y j => ?_, fun h => ?_⟩
  · intro c input sel
    have hidx : (16 * l.val + j.val) % 256 = 16 * l.val + j.val := Nat.mod_eq_of_lt (by omega)
    refine ⟨?_, ?_⟩
    · rw [getLsbD_lutLane _ _ _ _ _ (by omega), decide_eq_true j.isLt, Bool.true_and, lutOut_eq_one]
      simp only [hidx]
      rfl
    · rw [getLsbD_lutLane _ _ _ _ _ (by omega), decide_eq_false (by omega), Bool.false_and]
  · intro ea key
    refine ⟨fun hmis => h.runTask_stop (if_pos hmis), fun ⟨hal, hout⟩ => h.runTask_stop ((if_neg (not_not.mpr hal)).trans (if_pos hout)),
      fun ⟨hal, hin, hreach⟩ => h.runTask_fault ((if_neg (not_not.mpr hal)).trans ((if_neg (Nat.not_lt.mpr hin)).trans (if_pos ?_))),
      fun ⟨hal, hin, hreach, hpoison⟩ => h.runTask_done
        ((if_neg (not_not.mpr hal)).trans ((if_neg (Nat.not_lt.mpr hin)).trans ((if_neg ?_).trans ?_)))⟩
    · rw [hreach]
      rfl
    · rw [hreach]
      decide
    · dsimp only
      rw [lutld_find_none hpoison]
      rfl

end Sys2Proof.Safety

end

section

namespace Sys2Proof.Safety

open Sys2Proof.Machine

section
variable {s : State} {die p : Nat} {d : Decision}

/-- The rule for a Forecast operation before the 129th: it replaces the running decision and nothing else. -/
theorem Deciding.runFc (h : Deciding s die p d) (f : State → Fcast → Decision → Decision) : s.runFc f =
    .next (s.setFcast (16 * die + p) { s.fcast (16 * die + p) with
      run := some (f s (s.fcast (16 * die + p)) { d with ops := d.ops + 1, pc := d.pc + 1 }) }) :=
  State.runFc_ok f h.1 h.2.1 h.2.2

/-- The rule for a Forecast operation that writes a register. -/
theorem Deciding.fcReg (h : Deciding s die p d) (x : BitVec 3) (v : Decision → BitVec 32) : fcReg s x v =
    .next (s.setFcast (16 * die + p) { s.fcast (16 * die + p) with
      run := some (({ d with ops := d.ops + 1, pc := d.pc + 1 } : Decision).setR x (v { d with ops := d.ops + 1, pc := d.pc + 1 })) }) :=
  h.runFc fun _ _ e => e.setR x (v e)

end

theorem ite_lt_eq_ite_le {α : Type} (a b : Nat) (x y : α) : (if b < a then y else x) = if a ≤ b then x else y := by
  simp only [← not_le, ite_not]

/-- The greater of two words: equals are the same word. -/
theorem ite_lt_toNat_eq_ite_le {n : Nat} (a b : BitVec n) : (if a.toNat < b.toNat then b else a) = if a.toNat ≤ b.toNat then b else a := by
  rcases Nat.lt_trichotomy a.toNat b.toNat with h | h | h
  · rw [if_pos h, if_pos h.le]
  · rw [BitVec.eq_of_toNat_eq h, ite_self, ite_self]
  · rw [if_neg h.asymm, if_neg (not_le.mpr h)]

/-- Settles O34, by the rule `Deciding.fcReg` at each operation. -/
theorem forecastRegisterResults : Obligations.ForecastRegisterResults := by
  unfold Obligations.ForecastRegisterResults
  intro s die p d x y c n h w hd k f runs sets queue
  refine ⟨hd.fcReg x fun _ => n.setWidth 32, fun hq => ?_, fun q hq => ?_, hd.fcReg x fun e => BitVec.ofNat 32 (e.pfields.getD n.toNat 0),
    hd.fcReg x fun e => BitVec.ofNat 32 (e.efields.getD n.toNat 0), hd.fcReg x fun e => e.scr[w.toNat]'(w.isLt),
    hd.runFc fun _ _ e => { e with sto := putT e.sto w.toNat (e.R x) }, hd.fcReg x fun e => e.R x + e.R y, hd.fcReg x fun e => e.R x - e.R y,
    hd.fcReg x fun e => e.R x <<< h.toNat, hd.fcReg x fun e => e.R x >>> h.toNat, hd.fcReg x fun e => e.R x &&& e.R y,
    hd.fcReg x fun e => e.R x ||| e.R y, ?_, ?_, hd.fcReg x fun e => if e.R c = 0 then e.R x else e.R y⟩
  · refine (hd.fcReg x fun e => BitVec.ofNat 32 ((e.cand.map fun q => q.field n.toNat).getD 0)).trans ?_
    have hcand : ({ d with ops := d.ops + 1, pc := d.pc + 1 } : Decision).cand = none := hq
    rw [hcand]
    rfl
  · refine (hd.fcReg x fun e => BitVec.ofNat 32 ((e.cand.map fun q => q.field n.toNat).getD 0)).trans ?_
    have hcand : ({ d with ops := d.ops + 1, pc := d.pc + 1 } : Decision).cand = some q := hq
    rw [hcand]
    rfl
  · refine (hd.fcReg x fun e => if (e.R y).toNat < (e.R x).toNat then e.R y else e.R x).trans ?_
    rw [ite_lt_eq_ite_le]
    rfl
  · refine (hd.fcReg x fun e => if (e.R x).toNat < (e.R y).toNat then e.R y else e.R x).trans ?_
    rw [ite_lt_toNat_eq_ite_le]
    rfl

end Sys2Proof.Safety

end

section

namespace Sys2Proof.Machine

/-- The candidate found first is the only one of a list in ascending order that no other with the property stands below. -/
theorem find_of_least {cs : List QSnap} (hs : cs.Pairwise fun a b => a.q < b.q) {p : QSnap → Bool} {q : QSnap} (hq : q ∈ cs) (hp : p q = true)
    (hleast : ∀ e ∈ cs, p e = true → q.q ≤ e.q) : cs.find? p = some q := by
  induction cs with
  | nil => cases hq
  | cons c cs ih =>
    obtain ⟨hlt, hs⟩ := List.pairwise_cons.mp hs
    rcases List.mem_cons.mp hq with rfl | hq
    · exact List.find?_cons_of_pos hp
    · have hc : ¬ p c = true := fun hc => absurd (hlt q hq) (not_lt.mpr (hleast c (List.mem_cons_self ..) hc))
      rw [List.find?_cons_of_neg hc]
      exact ih hs hq fun e he => hleast e (List.mem_cons_of_mem _ he)

/-- One step of a pick: the candidate so far, or the next one. -/
def pickStep (better : Nat → Nat → Bool) (n : Nat) (b : Option QSnap) (c : QSnap) : Option QSnap :=
  match b with
  | some e => if better (c.field n) (e.field n) then some c else b
  | none => some c

theorem pickStep_eq_or (better : Nat → Nat → Bool) (n : Nat) (b : Option QSnap) (c : QSnap) :
    pickStep better n b c = some c ∨ pickStep better n b c = b := by
  cases b with
  | none => exact .inl rfl
  | some e =>
    rw [pickStep]
    split
    · exact .inl rfl
    · exact .inr rfl

theorem pickBy_eq_foldl (better : Nat → Nat → Bool) (n : Nat) (cs : List QSnap) : pickBy better n cs = cs.foldl (pickStep better n) none := rfl

/-- A candidate that no later one is better than stays picked. -/
theorem foldl_pickStep_stays {better : Nat → Nat → Bool} {n : Nat} {q : QSnap} {cs : List QSnap}
    (h : ∀ e ∈ cs, better (e.field n) (q.field n) = false) : cs.foldl (pickStep better n) (some q) = some q := by
  induction cs with
  | nil => rfl
  | cons c cs ih =>
    have hc : pickStep better n (some q) c = some q := by simp [pickStep, h c (List.mem_cons_self ..)]
    rw [List.foldl_cons, hc]
    exact ih fun e he => h e (List.mem_cons_of_mem _ he)

/-- A candidate better than the one picked so far and than all before it, and that no later one is better than, is picked. -/
theorem foldl_pickStep_picks {better : Nat → Nat → Bool} {n : Nat} {q : QSnap} {cs : List QSnap} (hs : cs.Pairwise fun a b => a.q < b.q) (hq : q ∈ cs)
    (hbest : ∀ e ∈ cs, better (e.field n) (q.field n) = false) (hfirst : ∀ e ∈ cs, e.q < q.q → better (q.field n) (e.field n) = true)
    {b : Option QSnap} (hb : ∀ e, b = some e → better (q.field n) (e.field n) = true) : cs.foldl (pickStep better n) b = some q := by
  induction cs generalizing b with
  | nil => cases hq
  | cons c cs ih =>
    obtain ⟨hlt, hs⟩ := List.pairwise_cons.mp hs
    rw [List.foldl_cons]
    rcases List.mem_cons.mp hq with rfl | hq
    · have hpick : pickStep better n b q = some q := by
        cases b with
        | none => rfl
        | some e => simp [pickStep, hb e rfl]
      rw [hpick]
      exact foldl_pickStep_stays fun e he => hbest e (List.mem_cons_of_mem _ he)
    · refine ih hs hq (fun e he => hbest e (List.mem_cons_of_mem _ he)) (fun e he => hfirst e (List.mem_cons_of_mem _ he)) fun e he => ?_
      have hc := hfirst c (List.mem_cons_self ..) (hlt q hq)
      rcases pickStep_eq_or better n b c with h | h
      · rw [h] at he
        cases he
        exact hc
      · exact hb e (h ▸ he)

theorem pickBy_of_best {better : Nat → Nat → Bool} {n : Nat} {q : QSnap} {cs : List QSnap} (hs : cs.Pairwise fun a b => a.q < b.q) (hq : q ∈ cs)
    (hbest : ∀ e ∈ cs, better (e.field n) (q.field n) = false) (hfirst : ∀ e ∈ cs, e.q < q.q → better (q.field n) (e.field n) = true) :
    pickBy better n cs = some q := by
  rw [pickBy_eq_foldl]
  exact foldl_pickStep_picks hs hq hbest hfirst fun e he => nomatch he

end Sys2Proof.Machine

namespace Sys2Proof.Safety

open Sys2Proof.Machine

section
variable {s : State} {die p : Nat} {d : Decision}

/-- The rule for a jump that is not taken. -/
theorem Deciding.fcJump_not (h : Deciding s die p d) (n : BitVec 8) (c : Decision → Bool) (hc : c { d with ops := d.ops + 1, pc := d.pc + 1 } = false) :
    fcJump s n c =
      .next (s.setFcast (16 * die + p) { s.fcast (16 * die + p) with run := some { d with ops := d.ops + 1, pc := d.pc + 1 } }) := by
  refine (h.runFc fun _ _ e => if c e then { e with pc := jumpTo e.pc n } else e).trans ?_
  rw [hc]
  rfl

/-- The rule for a jump that is taken. -/
theorem Deciding.fcJump_taken (h : Deciding s die p d) (n : BitVec 8) (c : Decision → Bool)
    (hc : c { d with ops := d.ops + 1, pc := d.pc + 1 } = true) : fcJump s n c =
      .next (s.setFcast (16 * die + p) { s.fcast (16 * die + p) with run := some { d with ops := d.ops + 1, pc := jumpTo (d.pc + 1) n } }) := by
  refine (h.runFc fun _ _ e => if c e then { e with pc := jumpTo e.pc n } else e).trans ?_
  rw [hc]
  rfl

/-- The rule for a pick. -/
theorem Deciding.moveTo (h : Deciding s die p d) (x : BitVec 3) (v : QSnap → Nat) (f : Decision → Option QSnap) {c : Option QSnap}
    (hc : f { d with ops := d.ops + 1, pc := d.pc + 1 } = c) : (s.runFc fun _ _ e => e.moveTo x (f e) v) =
      .next (s.setFcast (16 * die + p) { s.fcast (16 * die + p) with run := some { d with
        ops := d.ops + 1, pc := d.pc + 1, cursor := c.map QSnap.q, f := d.f.set x.toNat (BitVec.ofNat 32 ((c.map v).getD 0)) x.isLt } }) := by
  subst hc
  exact h.runFc fun _ _ e => e.moveTo x (f e) v

end

/-- The candidate stands above the cursor, or there is none. -/
def aboveCursor (cur : Option Nat) (c : QSnap) : Bool := match cur with | some q => decide (q < c.q) | none => true

theorem aboveCursor_iff (r : BitVec 1) (cur : Option Nat) (c : QSnap) :
    aboveCursor (if r = 1 then none else cur) c = true ↔ r = 1 ∨ cur = none ∨ ∃ q, cur = some q ∧ q < c.q := by
  by_cases hr : r = 1
  · simp [hr, aboveCursor]
  · rw [if_neg hr, or_iff_right hr]
    cases cur <;> simp [aboveCursor]

theorem jumpTo_of_nonneg {pc : Nat} {n : BitVec 8} (h : 0 ≤ (pc : Int) + 1 + n.toInt) : jumpTo (pc + 1) n = ((pc : Int) + 1 + n.toInt).toNat := by
  rw [jumpTo, Nat.cast_add, Nat.cast_one, if_neg (not_lt.mpr h)]

theorem jumpTo_of_neg {pc : Nat} {n : BitVec 8} (h : (pc : Int) + 1 + n.toInt < 0) : jumpTo (pc + 1) n = 65536 := by
  rw [jumpTo, Nat.cast_add, Nat.cast_one, if_pos h]

/-- Settles O35: a jump by its condition, a move by the candidate that stands first, or best, in ascending order. -/
theorem forecastControlResults : Obligations.ForecastControlResults := by
  unfold Obligations.ForecastControlResults
  intro s die p d x n r hd hs k f d1 runs jumps moves above field
  have hjump (i : Instr) (c : Decision → Bool) (P : Prop) (hi : exec i s = fcJump s n c) (hc : c d1 = true ↔ P) : jumps i P := by
    refine ⟨fun hP => hi.trans (hd.fcJump_not n c (Bool.eq_false_iff.mpr (hP ∘ hc.mp))), fun hP => ⟨fun hn => ?_, fun hn => ?_⟩⟩
    · rw [← jumpTo_of_nonneg hn]
      exact hi.trans (hd.fcJump_taken n c (hc.mpr hP))
    · rw [← jumpTo_of_neg hn]
      exact hi.trans (hd.fcJump_taken n c (hc.mpr hP))
  have habove (c : QSnap) : aboveCursor (if r = 1 then none else d.cursor) c = true ↔ above c.q := aboveCursor_iff r d.cursor c
  have hnext {c : Option QSnap} (hc : d.snap.find? (aboveCursor (if r = 1 then none else d.cursor)) = c) :
      runs (.fcNextq x r) { d1 with
        cursor := c.map QSnap.q, f := d.f.set x.toNat (BitVec.ofNat 32 ((c.map fun _ => 1).getD 0)) x.isLt } :=
    hd.moveTo x (fun _ => 1) (fun e => e.snap.find? (aboveCursor (if r = 1 then none else e.cursor))) hc
  have hmin {c : Option QSnap} (hc : pickBy (fun a b => decide (a < b)) n.toNat d.snap = c) : runs (.fcPickmin x n) { d1 with
      cursor := c.map QSnap.q, f := d.f.set x.toNat (BitVec.ofNat 32 ((c.map fun e => e.field n.toNat).getD 0)) x.isLt } :=
    hd.moveTo x (fun e => e.field n.toNat) (fun e => pickBy (fun a b => decide (a < b)) n.toNat e.snap) hc
  have hmax {c : Option QSnap} (hc : pickBy (fun a b => decide (b < a)) n.toNat d.snap = c) : runs (.fcPickmax x n) { d1 with
      cursor := c.map QSnap.q, f := d.f.set x.toNat (BitVec.ofNat 32 ((c.map fun e => e.field n.toNat).getD 0)) x.isLt } :=
    hd.moveTo x (fun e => e.field n.toNat) (fun e => pickBy (fun a b => decide (b < a)) n.toNat e.snap) hc
  refine ⟨hjump _ (fun _ => true) _ rfl (by simp), hjump _ (fun e => e.R x == 0) _ rfl beq_iff_eq, hjump _ (fun e => e.R x != 0) _ rfl bne_iff_ne,
    hjump _ (fun e => (e.R x).msb) _ rfl (by rw [BitVec.msb_eq_getLsbD_last]; rfl),
    fun q hq hup hleast => ?_, fun hnone => ?_, fun q hq hbest => ?_, fun q hq hbest => ?_, fun hnil => ⟨?_, ?_⟩,
    hd.runFc fun _ _ e => { e with ans := some (.disp e.cursor) }, hd.runFc fun _ _ e => { e with ans := some (.preempt (e.R x).toNat) },
    hd.runFc fun _ _ e => { e with ans := some (.faultact (e.R x).toNat) }, hd.runFc fun _ _ e => { e with ans := some .defer }⟩
  · exact hnext (find_of_least hs hq ((habove q).mpr hup) fun e he hp => hleast e he ((habove e).mp hp))
  · exact hnext (List.find?_eq_none.mpr fun e he hp => hnone e he ((habove e).mp hp))
  · exact hmin (pickBy_of_best hs hq (fun e he => decide_eq_false (by have := hbest e he; change ¬ field e < field q; omega))
      fun e he hlt => decide_eq_true (by have := hbest e he; change field q < field e; omega))
  · exact hmax (pickBy_of_best hs hq (fun e he => decide_eq_false (by have := hbest e he; change ¬ field q < field e; omega))
      fun e he hlt => decide_eq_true (by have := hbest e he; change field e < field q; omega))
  · exact hmin (c := none) (by rw [hnil]; rfl)
  · exact hmax (c := none) (by rw [hnil]; rfl)

end Sys2Proof.Safety

end

section

namespace Sys2Proof.Machine

/-- A scratch block with the staged words over it. -/
def stagedOver (sto : Tbl (BitVec 32)) (ls : List (Fin 16)) (v : Vector (BitVec 32) 16) : Vector (BitVec 32) 16 :=
  ls.foldl (fun v (i : Fin 16) => match findT sto i.val with | some x => v.set i.val x | none => v) v

theorem getElem_stagedOver (sto : Tbl (BitVec 32)) (ls : List (Fin 16)) (v : Vector (BitVec 32) 16) (i : Fin 16) :
    (stagedOver sto ls v)[i] = if i ∈ ls then (findT sto i.val).getD v[i] else v[i] := by
  induction ls generalizing v with
  | nil => rfl
  | cons l ls ih =>
    have hstep : stagedOver sto (l :: ls) v = stagedOver sto ls (match findT sto l.val with | some x => v.set l.val x | none => v) := rfl
    rw [hstep, ih]
    by_cases hil : i = l
    · subst hil
      cases findT sto i.val <;> simp
    · have hne : l.val ≠ i.val := fun h => hil (Fin.ext h.symm)
      cases findT sto l.val <;> simp [hil, hne]

theorem State.trySwap_none {s : State} {p : Nat} (h : (s.part p).swap = none) : s.trySwap p = s := by
  simp only [State.trySwap, h]

/-- The answers that belong to a kind. -/
theorem belongs_iff (kind : Nat) (a : Answer) : belongs kind a = true ↔ (∃ q, a = .disp (some q) ∧ kind = 0) ∨ (∃ v, a = .preempt v ∧ kind = 1) ∨
    (∃ n, a = .faultact n ∧ n ≤ 2 ∧ kind = 2) ∨ (a = .defer ∧ kind < 2) := by
  cases a with
  | disp q => cases q <;> simp [belongs]
  | preempt v => simp [belongs]
  | faultact n => simp [belongs, and_comm]
  | defer => simp [belongs]

/-- A deferral of a decision that no swap waits for. -/
theorem State.decided_defer {s : State} {die p : Nat} {d : Decision} (hk : d.kind < 2) (hsw : (s.part p).swap = none) :
    s.decided die p { d with ops := d.ops + 1 } .defer false false = s.setFcast (16 * die + p) { s.fcast (16 * die + p) with
      run := none
      record := some ⟨(s.fcast (16 * die + p)).dseq, d.kind, .defer, false, if d.image.words.length ≠ 0 then d.image.hash else 0⟩
      scratch := stagedOver d.sto (List.finRange 16) (s.fcast (16 * die + p)).scratch
      defers := (s.fcast (16 * die + p)).defers + 1
      deferred := (s.fcast (16 * die + p)).deferred ++ [(d.kind, d.core, d.row, s.tb)] } := by
  have hkind : ¬ 2 ≤ d.kind := not_le.mpr hk
  unfold State.decided
  rw [State.trySwap_none (by exact hsw)]
  simp [State.modFcast, State.carryOut, hk, hkind]
  rfl

end Sys2Proof.Machine

namespace Sys2Proof.Safety

open Sys2Proof.Machine

section
variable {s : State} {die p : Nat} {d : Decision}

/-- END of the decision whose turn it is. -/
theorem execFcEnd_eq (ht : s.turn = .forecast die p) (hd : (s.fcast (16 * die + p)).run = some d) : exec .fcEnd s =
    if 128 ≤ d.ops ∨ belongs d.kind (d.ans.getD .defer) = false then .next (s.overrun die p d)
    else .next (s.decided die p { d with ops := d.ops + 1 } (d.ans.getD .defer) false false) := by
  change execFcEnd s = _
  unfold execFcEnd
  rw [ht]
  simp only [hd]

end

/-- The operations of a decision but END. -/
def forecastOps (x y c : BitVec 3) (n : BitVec 8) (h : BitVec 5) (w : BitVec 4) (r : BitVec 1) : List Instr :=
  [.fcLdi x n, .fcLdq x n, .fcLdp x n, .fcLde x n, .fcLds x w, .fcSto x w, .fcAdd x y, .fcSub x y, .fcShl x h, .fcShr x h, .fcAnd x y,
    .fcOr x y, .fcMin x y, .fcMax x y, .fcSel x c y, .fcJmp n, .fcJz x n, .fcJnz x n, .fcJlt x n, .fcNextq x r, .fcPickmin x n, .fcPickmax x n,
    .fcDisp, .fcPreempt x, .fcFaultact x, .fcDefer]

/-- An operation changes the running decision by a function of it that keeps its snapshot, image and kind. -/
theorem forecastOps_runFc (x y c : BitVec 3) (n : BitVec 8) (h : BitVec 5) (w : BitVec 4) (r : BitVec 1) : ∀ i ∈ forecastOps x y c n h w r,
    ∃ f : Decision → Decision, (∀ s, exec i s = s.runFc fun _ _ e => f e) ∧ ∀ e, (f e).snap = e.snap ∧ (f e).image = e.image ∧ (f e).kind = e.kind := by
  have hreg (i : Instr) (v : Decision → BitVec 32) (hi : exec i = fun s => fcReg s x v) : ∃ f : Decision → Decision,
      (∀ s, exec i s = s.runFc fun _ _ e => f e) ∧ ∀ e, (f e).snap = e.snap ∧ (f e).image = e.image ∧ (f e).kind = e.kind :=
    ⟨fun e => e.setR x (v e), fun s => congrFun hi s, fun _ => ⟨rfl, rfl, rfl⟩⟩
  have hjump (i : Instr) (v : Decision → Bool) (hi : exec i = fun s => fcJump s n v) : ∃ f : Decision → Decision,
      (∀ s, exec i s = s.runFc fun _ _ e => f e) ∧ ∀ e, (f e).snap = e.snap ∧ (f e).image = e.image ∧ (f e).kind = e.kind :=
    ⟨fun e => if v e then { e with pc := jumpTo e.pc n } else e, fun s => congrFun hi s, fun e => by dsimp only; split <;> exact ⟨rfl, rfl, rfl⟩⟩
  have hans (i : Instr) (v : Decision → Answer) (hi : exec i = fun s => fcAnswer s v) : ∃ f : Decision → Decision,
      (∀ s, exec i s = s.runFc fun _ _ e => f e) ∧ ∀ e, (f e).snap = e.snap ∧ (f e).image = e.image ∧ (f e).kind = e.kind :=
    ⟨fun e => { e with ans := some (v e) }, fun s => congrFun hi s, fun _ => ⟨rfl, rfl, rfl⟩⟩
  simp only [forecastOps, List.forall_mem_cons]
  exact ⟨hreg _ (fun _ => n.setWidth 32) rfl, hreg _ (fun e => BitVec.ofNat 32 ((e.cand.map fun q => q.field n.toNat).getD 0)) rfl,
    hreg _ (fun e => BitVec.ofNat 32 (e.pfields.getD n.toNat 0)) rfl, hreg _ (fun e => BitVec.ofNat 32 (e.efields.getD n.toNat 0)) rfl,
    hreg _ (fun e => e.scr[w.toNat]'(w.isLt)) rfl,
    ⟨fun e => { e with sto := putT e.sto w.toNat (e.R x) }, fun _ => rfl, fun _ => ⟨rfl, rfl, rfl⟩⟩,
    hreg _ (fun e => e.R x + e.R y) rfl, hreg _ (fun e => e.R x - e.R y) rfl, hreg _ (fun e => e.R x <<< h.toNat) rfl,
    hreg _ (fun e => e.R x >>> h.toNat) rfl, hreg _ (fun e => e.R x &&& e.R y) rfl, hreg _ (fun e => e.R x ||| e.R y) rfl,
    hreg _ (fun e => if (e.R y).toNat < (e.R x).toNat then e.R y else e.R x) rfl,
    hreg _ (fun e => if (e.R x).toNat < (e.R y).toNat then e.R y else e.R x) rfl, hreg _ (fun e => if e.R c = 0 then e.R x else e.R y) rfl,
    hjump _ (fun _ => true) rfl, hjump _ (fun e => e.R x == 0) rfl, hjump _ (fun e => e.R x != 0) rfl, hjump _ (fun e => (e.R x).msb) rfl,
    ⟨fun e => e.moveTo x (e.snap.find? (aboveCursor (if r = 1 then none else e.cursor))) fun _ => 1, fun _ => rfl, fun _ => ⟨rfl, rfl, rfl⟩⟩,
    ⟨fun e => e.moveTo x (pickBy (fun a b => decide (a < b)) n.toNat e.snap) fun q => q.field n.toNat, fun _ => rfl, fun _ => ⟨rfl, rfl, rfl⟩⟩,
    ⟨fun e => e.moveTo x (pickBy (fun a b => decide (b < a)) n.toNat e.snap) fun q => q.field n.toNat, fun _ => rfl, fun _ => ⟨rfl, rfl, rfl⟩⟩,
    hans _ (fun e => .disp e.cursor) rfl, hans _ (fun e => .preempt (e.R x).toNat) rfl, hans _ (fun e => .faultact (e.R x).toNat) rfl,
    hans _ (fun _ => .defer) rfl, List.forall_mem_nil _⟩

/-- Settles O37: END by whether the answer belongs to the kind; every operation of a decision that has run 128 is an overrun. -/
theorem forecastEnds : Obligations.ForecastEnds := by
  unfold Obligations.ForecastEnds
  intro s die p d ht hd fc ans fits
  have hfits : belongs d.kind ans = true ↔ fits := belongs_iff d.kind ans
  have hend (ho : d.ops < 128) (hf : fits) : exec .fcEnd s = .next (s.decided die p { d with ops := d.ops + 1 } ans false false) := by
    rw [execFcEnd_eq ht hd, if_neg]
    simp [not_le.mpr ho, ans, hfits.mpr hf]
  refine ⟨hend, fun ho hf => ?_, fun ho ha hk hsw => ⟨stagedOver d.sto (List.finRange 16) fc.scratch, fun i => ?_, ?_⟩, fun ho x y c n h w r => ?_⟩
  · rw [execFcEnd_eq ht hd, if_pos (.inr (Bool.eq_false_iff.mpr fun hb => hf (hfits.mp hb)))]
  · rw [getElem_stagedOver, if_pos (List.mem_finRange i)]
  · rw [hend ho (.inr (.inr (.inr ⟨ha, hk⟩))), ha]
    exact congrArg Host.Outcome.next (State.decided_defer hk hsw)
  · have hall : ∀ i ∈ forecastOps x y c n h w r ++ [.fcEnd], exec i s = .next (s.overrun die p d) := by
      refine List.forall_mem_append.mpr ⟨fun i hi => ?_, ?_⟩
      · obtain ⟨f, hf, -⟩ := forecastOps_runFc x y c n h w r i hi
        exact (hf s).trans (State.runFc_over _ ht hd ho)
      · rw [List.forall_mem_singleton, execFcEnd_eq ht hd, if_pos (.inl ho)]
    exact hall

end Sys2Proof.Safety

end

section

namespace Sys2Proof.Machine

/-! ## Counted reads: what they leave unchanged -/

theorem State.countDie_store (s : State) (d ev n vf : Nat) : (s.countDie d ev n vf).mem = s.mem ∧ (s.countDie d ev n vf).poison = s.poison := by
  unfold State.countDie
  dsimp only
  split <;> exact ⟨rfl, rfl⟩

theorem State.llcRead_store (s : State) (p node key : Nat) : (s.llcRead p node key).mem = s.mem ∧ (s.llcRead p node key).poison = s.poison := by
  unfold State.llcRead
  dsimp only
  split <;> exact ⟨rfl, rfl⟩

theorem State.fetchGranule_store (s : State) (die cx va key : Nat) :
    (s.fetchGranule die cx va key).mem = s.mem ∧ (s.fetchGranule die cx va key).poison = s.poison := by
  unfold State.fetchGranule State.request
  simp only [(State.llcRead_store _ _ _ _).1, (State.llcRead_store _ _ _ _).2, (State.countDie_store _ _ _ _ _).1, (State.countDie_store _ _ _ _ _).2]
  exact ⟨rfl, rfl⟩

/-- A read counted by the windows of a die changes no byte and poisons none. -/
theorem State.readGranule_store (s : State) (die cx va key : Nat) :
    (s.readGranule die cx va key).mem = s.mem ∧ (s.readGranule die cx va key).poison = s.poison := by
  have hfetch := s.fetchGranule_store die cx va key
  unfold State.readGranule
  dsimp only
  split
  · exact ⟨rfl, rfl⟩
  · split
    · exact ⟨rfl, rfl⟩
    · split
      · split
        · exact ⟨rfl, rfl⟩
        · exact hfetch
      · split
        · exact ⟨rfl, rfl⟩
        · exact hfetch

theorem State.readVia_store (s : State) (die cx va : Nat) (ks : List (Nat × Nat)) :
    (s.readVia die cx va ks).mem = s.mem ∧ (s.readVia die cx va ks).poison = s.poison := by
  unfold State.readVia
  induction granules va ks generalizing s with
  | nil => exact ⟨rfl, rfl⟩
  | cons e l ih =>
    obtain ⟨hm, hp⟩ := s.readGranule_store die cx e.1 e.2
    rw [List.foldl_cons, (ih _).1, (ih _).2, hm, hp]
    exact ⟨rfl, rfl⟩

end Sys2Proof.Machine

namespace Sys2Proof.Safety

open Sys2Proof.Machine

section
variable {s s1 s2 : State} {r n : Nat} {t t1 : Machine.Task}

theorem Paying.runTask_faultAt (h : Paying s r t n s1 t1) {body : State → Machine.Task → Body} {c d a : Nat}
    (hb : body s1 t1 = .faultAt s2 c d a) : s.runTask (fun _ => n) body = .next (s2.faultTask t1 c d a) := by
  obtain ⟨hr, ht, hp⟩ := h
  rw [State.runTask_ok (fun _ => n) body hr ht hp, hb]

theorem Paying.runTask_miss (h : Paying s r t n s1 t1) {body : State → Machine.Task → Body} {va acc : Nat} (hb : body s1 t1 = .miss va acc) :
    s.runTask (fun _ => n) body = .next ((s1.setTask t.row (some { t1 with charged := true })).missRow t va acc) := by
  obtain ⟨hr, ht, hp⟩ := h
  rw [State.runTask_ok (fun _ => n) body hr ht hp, hb]

end

section
variable {s s2 : State} {t : Machine.Task} {sp size acc k : Nat} {ea : Word} {es : List PEnt}

theorem addrCheck_misaligned (h : ea.toNat % size ≠ 0) : addrCheck sp ea size = some .misaligned := by rw [addrCheck, if_pos h]

theorem addrCheck_unresolved (ha : ea.toNat % size = 0) (h : if sp = 0 then isCanon ea.toNat = false else extent sp ≤ ea.toNat) :
    addrCheck sp ea size = some .unresolved := by
  rw [addrCheck, if_neg (not_not.mpr ha)]
  split at h
  · simp [*]
  · simp [*]

theorem addrCheck_mem (ha : ea.toNat % size = 0) (h : isCanon ea.toNat = true) : addrCheck 0 ea size = none := by simp [addrCheck, ha, h]

theorem addrCheck_space (ha : ea.toNat % size = 0) (hsp : sp ≠ 0) (h : ea.toNat < extent sp) : addrCheck sp ea size = none := by
  simp [addrCheck, ha, hsp, not_le.mpr h]

/-- The rule for an access to one lane's slice or to a space that is located. -/
theorem Located.withAddr (h : Located s t sp ea size acc s2 k es) (body : State → Nat → List PEnt → Body) :
    s.withAddr t sp ea size acc 0 body = body s2 k es := by
  obtain ⟨ha, h⟩ := h
  split at h
  case isTrue hsp =>
    obtain ⟨hc, e, he, rfl, rfl, rfl⟩ := h
    subst hsp
    exact State.withAddr_mem s t ea size acc 0 body (addrCheck_mem ha hc) he
  case isFalse hsp =>
    obtain ⟨hx, rfl, rfl, h⟩ := h
    have hcheck := addrCheck_space ha hsp hx
    split at h
    case isTrue h1 =>
      subst h1 h
      exact State.withAddr_lane s2 t ea size acc 0 body hcheck
    case isFalse h1 =>
      obtain ⟨hreach, rfl⟩ := h
      simp only [State.withAddr, hcheck, hsp, h1, hreach, if_false, if_true]

end

/-- Settles O14: a located load is covered by the task's own stores, or reads memory, or meets a poisoned byte. -/
theorem scalarLoads : Obligations.ScalarLoads := by
  unfold Obligations.ScalarLoads
  intro s s1 s2 r t t1 x b sp w o k es h size ea hloc v
  have hload : s1.load t1 sp.toNat ea size 0 (fun u n _ => .done u (t1.setS x (BitVec.ofNat 64 n)).adv) = _ := hloc.withAddr _
  have hread : (if sp.toNat = 0 then s2.readVia (t1.core / 8) t1.cx ea.toNat [(k, size)] else s2).mem = s2.mem ∧
      (if sp.toNat = 0 then s2.readVia (t1.core / 8) t1.cx ea.toNat [(k, size)] else s2).poison = s2.poison := by
    split
    · exact State.readVia_store ..
    · exact ⟨rfl, rfl⟩
  have hsp : (sp = 0) = (sp.toNat = 0) := propext ⟨fun h => h ▸ rfl, fun h => BitVec.eq_of_toNat_eq h⟩
  simp only [hsp]
  refine ⟨fun hc => h.runTask_done (hload.trans (if_pos hc)), fun hc hp => ?_, fun hc hp => ?_⟩
  · refine h.runTask_done (hload.trans ((if_neg (by simp [hc])).trans ?_))
    simp only [State.readable, State.poisoned, hread.2, hread.1]
    rw [State.poisoned] at hp
    rw [hp]
  · refine h.runTask_faultAt (hload.trans ((if_neg (by simp [hc])).trans ?_))
    obtain ⟨g, hg⟩ := Option.ne_none_iff_exists'.mp hp
    simp only [State.readable, State.poisoned, hread.2]
    rw [State.poisoned] at hg
    rw [hg]

end Sys2Proof.Safety

end

section

namespace Sys2Proof.Safety

open Sys2Proof.Machine

/-! ## What is staged (R76) -/

theorem stageStore_fits {t : Machine.Task} {size : Nat} (h : t.nbytes + size ≤ 16384) (cells : List Host.Cell) (va : Nat) (uses : List PEnt) :
    stageStore t cells size va uses =
      some { t with staged := t.staged ++ [.store cells va uses], nstore := t.nstore + 1, nbytes := t.nbytes + size } :=
  if_neg (not_lt.mpr h)

theorem stageStore_full {t : Machine.Task} {size : Nat} (h : 16384 < t.nbytes + size) (cells : List Host.Cell) (va : Nat) (uses : List PEnt) :
    stageStore t cells size va uses = none := if_pos h

theorem stageAtomic_fits {t : Machine.Task} {size : Nat} (h : t.nbytes + size ≤ 16384) (k op : Nat) (v : Word) (uses : List PEnt) :
    stageAtomic t k size op v uses =
      some { t with staged := t.staged ++ [.atomic k size op v uses], nstore := t.nstore + 1, nbytes := t.nbytes + size } :=
  if_neg (not_lt.mpr h)

theorem stageAtomic_full {t : Machine.Task} {size : Nat} (h : 16384 < t.nbytes + size) (k op : Nat) (v : Word) (uses : List PEnt) :
    stageAtomic t k size op v uses = none := if_pos h

theorem stageCmd_fits {t : Machine.Task} (h : t.ncmd < 16) (g : Staged) :
    stageCmd t g = some { t with staged := t.staged ++ [g], ncmd := t.ncmd + 1 } :=
  if_neg (by omega)

theorem stageCmd_full {t : Machine.Task} (h : 16 ≤ t.ncmd) (g : Staged) : stageCmd t g = none := if_pos (by omega)

/-- Settles O15: a located store stages its bytes where they fit. -/
theorem scalarStores : Obligations.ScalarStores := by
  unfold Obligations.ScalarStores
  intro s s1 s2 r t t1 x b sp w o k es h size ea hloc
  have hstage : s1.stage t1 sp.toNat ea size 0 (t1.S x).toNat = _ := hloc.withAddr _
  refine ⟨fun hb => h.runTask_done (hstage.trans ?_), fun hb => h.runTask_stop (hstage.trans ?_)⟩
  · rw [stageStore_fits hb]
    rfl
  · rw [stageStore_full hb]
    rfl

/-- Settles O21: a located atomic is staged with its operation where its bytes fit. -/
theorem stagedAtomics : Obligations.StagedAtomics := by
  unfold Obligations.StagedAtomics
  intro s s1 s2 r t t1 a b sp w k es h rule
  have hrule (i : Instr) (v op : Nat) (hi : exec i s = s.runAtomic sp a b v op) : rule i v op := by
    refine fun hloc => ⟨fun hb => hi.trans (h.runTask_done ((hloc.withAddr _).trans ?_)), fun hb => hi.trans (h.runTask_stop ((hloc.withAddr _).trans ?_))⟩
    · rw [stageAtomic_fits hb]
      rfl
    · rw [stageAtomic_full hb]
      rfl
  exact ⟨hrule _ _ _ rfl, hrule _ _ _ rfl, hrule _ _ _ rfl, hrule _ _ _ rfl, hrule _ _ _ rfl, hrule _ _ _ rfl⟩

section
variable {s s1 : State} {r n : Nat} {t t1 : Machine.Task} {ea : Word} {sp size acc : Nat} {body : State → Machine.Task → Body}

/-- The rule for a scalar instruction that goes on from its address: how it ends where the address cannot be located. -/
theorem Paying.withAddr_ends (h : Paying s r t n s1 t1) (k : State → Nat → List PEnt → Body) (hbody : body s1 t1 = s1.withAddr t1 sp ea size acc 0 k) :
    (ea.toNat % size ≠ 0 → s.runTask (fun _ => n) body = .next (s1.stopTask t1 .misaligned)) ∧
    (ea.toNat % size = 0 → (if sp = 0 then isCanon ea.toNat = false else extent sp ≤ ea.toNat) →
      s.runTask (fun _ => n) body = .next (s1.stopTask t1 .unresolved)) ∧
    (ea.toNat % size = 0 → sp = 0 → isCanon ea.toNat = true →
      (s1.lookup t1.row t1.cx ea.toNat acc = some .prot → s.runTask (fun _ => n) body = .next (s1.faultTask t1 3 acc ea.toNat)) ∧
      (s1.lookup t1.row t1.cx ea.toNat acc = none →
        s.runTask (fun _ => n) body = .next ((s1.setTask t.row (some { t1 with charged := true })).missRow t ea.toNat acc))) ∧
    (ea.toNat % size = 0 → 2 ≤ sp → ea.toNat < extent sp → s1.reachable t1.cx t1.core sp ea.toNat size = false →
      s.runTask (fun _ => n) body = .next (s1.faultTask t1 3 acc ea.toNat)) := by
  refine ⟨fun ha => h.runTask_stop (hbody.trans (State.withAddr_stop _ _ _ _ _ _ _ _ (addrCheck_misaligned ha))),
    fun ha hx => h.runTask_stop (hbody.trans (State.withAddr_stop _ _ _ _ _ _ _ _ (addrCheck_unresolved ha hx))),
    fun ha hsp hc => ⟨fun hl => h.runTask_fault (hbody.trans ?_), fun hl => h.runTask_miss (hbody.trans ?_)⟩,
    fun ha hsp hx hreach => h.runTask_fault (hbody.trans ?_)⟩
  · subst hsp
    simp only [State.withAddr, addrCheck_mem ha hc, hl, if_true]
  · subst hsp
    simp only [State.withAddr, addrCheck_mem ha hc, hl, if_true]
  · have h0 : sp ≠ 0 := by omega
    have h1 : sp ≠ 1 := by omega
    simp [State.withAddr, addrCheck_space ha h0 hx, h0, h1, hreach]

end

/-- Settles O16, by the rule `Paying.withAddr_ends` for a load and for a store. -/
theorem scalarAccessEnds : Obligations.ScalarAccessEnds := by
  unfold Obligations.ScalarAccessEnds
  intro s s1 r t t1 x b sp w o h size ea ends
  have hsp : (sp = 0) = (sp.toNat = 0) := propext ⟨fun h => h ▸ rfl, fun h => BitVec.eq_of_toNat_eq h⟩
  simp only [ends, hsp]
  exact ⟨h.withAddr_ends _ rfl, h.withAddr_ends _ rfl⟩

section
variable {s s1 : State} {r : Nat} {t t1 : Machine.Task}

/-- The rule for a privileged instruction that stages a command. -/
theorem runPriv_stageCmd (g : Machine.Task → Staged) :
    (s.turn = .row r → s.task r = some t → (s.ctx t.cx).any (fun x => x.setup.priv) = false →
      s.runPriv (fun u v => staged u (stageCmd v (g v))) = .next (s.stopTask t .illegal)) ∧
    (Paying s r t 4 s1 t1 → (s.ctx t.cx).any (fun x => x.setup.priv) = true →
      (t1.ncmd < 16 → s.runPriv (fun u v => staged u (stageCmd v (g v))) =
        .next (retire s1 { t1 with staged := t1.staged ++ [g t1], ncmd := t1.ncmd + 1, pc := t1.pc + 4 })) ∧
      (16 ≤ t1.ncmd → s.runPriv (fun u v => staged u (stageCmd v (g v))) = .next (s1.stopTask t1 .overflow))) := by
  refine ⟨fun hr ht hv => State.runPriv_user _ hr ht hv, fun ⟨hr, ht, hp⟩ hv => ⟨fun hn => ?_, fun hn => ?_⟩⟩
  · rw [State.runPriv_ok _ hr ht hv hp, stageCmd_fits hn]
    rfl
  · rw [State.runPriv_ok _ hr ht hv hp, stageCmd_full hn]
    rfl

end

/-- Settles O23: the fence by what it waits for, traps by their reason, the privileged instructions by the rule `runPriv_stageCmd`. -/
theorem systemInstructions : Obligations.SystemInstructions := by
  unfold Obligations.SystemInstructions
  intro s s1 r t t1 a c code s2 brk priv rule
  refine ⟨fun h => ⟨fun hf => ?_, fun hf => ?_, h.runTask_stop rfl, fun hb => h.runTask_done (if_pos hb),
    fun hb => h.runTask_stop (if_neg (Bool.eq_false_iff.mp hb))⟩,
    runPriv_stageCmd fun v => .tlbi 0 (s2 == 1) (v.S a), runPriv_stageCmd fun _ => .tlbi 1 (s2 == 1) 0, runPriv_stageCmd fun _ => .tlbi 2 (s2 == 1) 0,
    runPriv_stageCmd fun _ => .ptsync⟩
  · obtain ⟨hr, ht, hp⟩ := h
    refine (State.onRow_row _ hr ht).trans ?_
    rw [hf, if_neg (by simp), State.issue_ok _ _ hp]
  · obtain ⟨hr, ht, hp⟩ := h
    refine (State.onRow_row _ hr ht).trans ?_
    rw [if_pos hf]

end Sys2Proof.Safety

end

section

namespace Sys2Proof.Safety

open Sys2Proof.Machine

/-- What an instruction that writes scalar register d, and raises flags, keeps of its task. -/
structure ScalarFrame (d : BitVec 5) (t u : Machine.Task) : Prop where
  row : u.row = t.row
  pc : u.pc = t.pc + 4
  meter : u.meter = t.meter
  other : ∀ x, x ≠ d → u.S x = t.S x
  v : u.v = t.v
  k : u.k = t.k
  cfg : u.cfg = t.cfg
  fmt : u.fmt = t.fmt
  seed : u.seed = t.seed
  srctr : u.srctr = t.srctr
  budget : u.budget = t.budget
  staged : u.staged = t.staged
  handles : u.handles = t.handles
  commit : u.commit = t.commit
  flags : t.flags &&& u.flags = t.flags

/-- An instruction that costs n and changes its task as `ScalarFrame` allows, and nothing else. -/
def Framed (d : BitVec 5) (i : Instr) (n : Nat) : Prop :=
  ∃ g : State → Machine.Task → Machine.Task, (exec i = fun s => s.runTask (fun _ => n) fun s t => .done s (g s t)) ∧ ∀ s t, ScalarFrame d t (g s t)

theorem S_setS_other (t : Machine.Task) {d x : BitVec 5} (v : Word) (h : x ≠ d) : (t.setS d v).S x = t.S x := by
  have hne : d.toNat ≠ x.toNat := fun e => h (BitVec.eq_of_toNat_eq e).symm
  unfold Machine.Task.setS Machine.Task.S
  by_cases hd : d = 0
  · rw [if_pos hd]
  · rw [if_neg hd]
    simp [Vector.getElem_set_ne _ _ hne]

theorem and_or_self {n : Nat} (x y : BitVec n) : x &&& (x ||| y) = x := by
  ext i hi
  simp only [BitVec.getElem_and, BitVec.getElem_or]
  cases x[i] <;> simp

theorem scalarFrame_setS (t : Machine.Task) (d : BitVec 5) (v : Word) : ScalarFrame d t (t.setS d v).adv := by
  constructor <;> simp [Machine.Task.adv]
  exact fun x hx => S_setS_other t v hx

theorem scalarFrame_setF (t : Machine.Task) (d : BitVec 5) (r : Nat × Fl) : ScalarFrame d t (t.setF d r) := by
  have hS := fun x (hx : x ≠ d) => S_setS_other (t.raise r.2) (BitVec.ofNat 64 r.1) hx
  constructor <;> simp [Machine.Task.setF, Machine.Task.adv, Machine.Task.raise, and_or_self]
  exact hS

section
variable {d a b : BitVec 5} {w : BitVec 3} {i : Instr} {n : Nat}

theorem setS_frame (v : Machine.Task → Word) (hi : exec i = fun s => s.runReg n fun t => (t.setS d (v t)).adv) : Framed d i n :=
  ⟨fun _ t => (t.setS d (v t)).adv, hi, fun _ t => scalarFrame_setS t d (v t)⟩

theorem setF_frame (v : Machine.Task → Nat × Fl) (hi : exec i = fun s => s.runReg n fun t => t.setF d (v t)) : Framed d i n :=
  ⟨fun _ t => t.setF d (v t), hi, fun _ t => scalarFrame_setF t d (v t)⟩

theorem alu1_frame (f : Word → Word) (hi : exec i = fun s => s.alu1 n d a f) : Framed d i n := setS_frame (fun t => f (t.S a)) hi

theorem alu2_frame (f : Word → Word → Word) (hi : exec i = fun s => s.alu2 n d a b f) : Framed d i n := setS_frame (fun t => f (t.S a) (t.S b)) hi

theorem fop1_frame (f : Fm → Nat → Nat × Fl) (hi : exec i = fun s => s.fop1 n d a w f) : Framed d i n :=
  setF_frame (fun t => f (fmOf w.toNat) (t.F a (fmOf w.toNat))) hi

theorem fop2_frame (f : Fm → Nat → Nat → Nat × Fl) (hi : exec i = fun s => s.fop2 n d a b w f) : Framed d i n :=
  setF_frame (fun t => f (fmOf w.toNat) (t.F a (fmOf w.toNat)) (t.F b (fmOf w.toNat))) hi

end

/-- The instructions of O60 that write one scalar register, with their costs. -/
def scalarWriters (d a b : BitVec 5) (i : BitVec 16) (n : BitVec 6) (m w : BitVec 3) : List (Instr × Nat) :=
  [(.add d a b, 4), (.sub d a b, 4), (.and d a b, 4), (.or d a b, 4), (.xor d a b, 4), (.andn d a b, 4),
    (.shl d a b, 4), (.shr d a b, 4), (.sar d a b, 4), (.min d a b, 4), (.max d a b, 4), (.minn d a b, 4), (.maxn d a b, 4), (.slt d a b, 4),
    (.sltn d a b, 4), (.seq d a b, 4), (.clz d a, 4), (.popc d a, 4), (.bext d a b, 4), (.bdep d a b, 4), (.sext d a m, 4), (.zext d a m, 4),
    (.mul d a b, 8), (.mulh d a b, 8), (.mulhn d a b, 8), (.div d a b, 24), (.divn d a b, 24), (.rem d a b, 24), (.remn d a b, 24),
    (.addi d a i, 4), (.andi d a i, 4), (.ori d a i, 4), (.xori d a i, 4), (.shli d a n, 4), (.shri d a n, 4), (.sari d a n, 4), (.lui d i, 4),
    (.slti d a i, 4), (.mfs d a, 4), (.fadd d a b m w, 8), (.fsub d a b m w, 8), (.fmul d a b m w, 8), (.fdiv d a b m w, 24), (.fsqrt d a m w, 24),
    (.frsq d a m w, 24), (.fmin d a b w, 8), (.fmax d a b w, 8), (.fcvt d a b m w, 8), (.fcmpEq d a b w, 8), (.fcmpLt d a b w, 8),
    (.fcmpLe d a b w, 8), (.fcmpUn d a b w, 8), (.fclass d a w, 8), (.fma d a b m w, 10), (.kmovToScalar d a, 4)]

theorem scalarWriters_framed (d a b : BitVec 5) (i : BitVec 16) (n : BitVec 6) (m w : BitVec 3) :
    ∀ e ∈ scalarWriters d a b i n m w, Framed d e.1 e.2 := by
  simp only [scalarWriters, List.forall_mem_cons]
  exact ⟨alu2_frame (fun x y => x + y) rfl,
    alu2_frame (fun x y => x - y) rfl,
    alu2_frame (fun x y => x &&& y) rfl,
    alu2_frame (fun x y => x ||| y) rfl,
    alu2_frame (fun x y => x ^^^ y) rfl,
    alu2_frame (fun x y => x &&& ~~~y) rfl,
    alu2_frame (fun x y => x <<< (y.toNat % 64)) rfl,
    alu2_frame (fun x y => x >>> (y.toNat % 64)) rfl,
    alu2_frame (fun x y => x.sshiftRight (y.toNat % 64)) rfl,
    alu2_frame (fun x y => if x.slt y then x else y) rfl,
    alu2_frame (fun x y => if x.slt y then y else x) rfl,
    alu2_frame (fun x y => if x.ult y then x else y) rfl,
    alu2_frame (fun x y => if x.ult y then y else x) rfl,
    alu2_frame (fun x y => flag64 (x.slt y)) rfl,
    alu2_frame (fun x y => flag64 (x.ult y)) rfl,
    alu2_frame (fun x y => flag64 (x == y)) rfl,
    alu1_frame (fun x => BitVec.ofNat 64 (clzN 64 x.toNat)) rfl,
    alu1_frame (fun x => BitVec.ofNat 64 (popN 64 x.toNat)) rfl,
    alu2_frame (fun x y => BitVec.ofNat 64 (bextFrom x y 64 0 0)) rfl,
    alu2_frame (fun x y => BitVec.ofNat 64 (bdepFrom x y 64 0 0)) rfl,
    alu1_frame (sextTo m) rfl,
    alu1_frame (zextTo m) rfl,
    alu2_frame (fun x y => x * y) rfl,
    alu2_frame mulhS rfl,
    alu2_frame mulhU rfl,
    alu2_frame divS rfl,
    alu2_frame divU rfl,
    alu2_frame remS rfl,
    alu2_frame remU rfl,
    alu1_frame (fun x => x + sext64 i) rfl,
    alu1_frame (fun x => x &&& zext64 i) rfl,
    alu1_frame (fun x => x ||| zext64 i) rfl,
    alu1_frame (fun x => x ^^^ zext64 i) rfl,
    alu1_frame (fun x => x <<< n.toNat) rfl,
    alu1_frame (fun x => x >>> n.toNat) rfl,
    alu1_frame (fun x => x.sshiftRight n.toNat) rfl,
    setS_frame (fun _ => (i ++ (0 : BitVec 16)).signExtend 64) rfl,
    alu1_frame (fun x => flag64 (x.slt (sext64 i))) rfl,
    ⟨fun s t => (t.setS d (special s t a.toNat)).adv, rfl, fun _ t => scalarFrame_setS ..⟩,
    fop2_frame (fun f => fAdd f (.mode m.toNat)) rfl,
    fop2_frame (fun f => fSub f (.mode m.toNat)) rfl,
    fop2_frame (fun f => fMul f (.mode m.toNat)) rfl,
    fop2_frame (fun f => fDiv f (.mode m.toNat)) rfl,
    fop1_frame (fun f => fSqrt f (.mode m.toNat)) rfl,
    fop1_frame (fun f => fRsq f (.mode m.toNat)) rfl,
    fop2_frame (fun f => fMinMax f false) rfl,
    fop2_frame (fun f => fMinMax f true) rfl,
    setF_frame (fun t => fcvt b.toNat w.toNat (.mode m.toNat) (t.S a)) rfl,
    fop2_frame (fun f x y => cmpBit (fCmp f 0 x y)) rfl,
    fop2_frame (fun f x y => cmpBit (fCmp f 1 x y)) rfl,
    fop2_frame (fun f x y => cmpBit (fCmp f 2 x y)) rfl,
    fop2_frame (fun f x y => cmpBit (fCmp f 3 x y)) rfl,
    fop1_frame (fun f x => (2 ^ fClass f x, 0)) rfl,
    setF_frame (fun t => fFma (fmOf w.toNat) (.mode m.toNat) (t.F a (fmOf w.toNat)) (t.F b (fmOf w.toNat)) (t.F d (fmOf w.toNat))) rfl,
    setS_frame (fun t => (t.K (kreg a)).setWidth 64) rfl,
    List.forall_mem_nil _⟩

section
variable {s s1 s2 u : State} {r n k : Nat} {t t1 : Machine.Task} {d : BitVec 5} {i : Instr}

/-- What a charge leaves of a task. -/
theorem Paying.meter_eq (h : Paying s r t n s1 t1) (hc : t.charged = false) : t1.meter = t.meter + n := by
  rcases State.pay_ok_cases h.2.2 with ⟨hc', -⟩ | ⟨d, s', -, -, -, -, -, rfl⟩ | ⟨-, -, -, -, rfl⟩ | ⟨-, -, -, -, -, rfl⟩
  · simp [hc] at hc'
  · rfl
  · rfl
  · rfl

/-- The frame of an instruction that writes one scalar register, its charge included. -/
theorem Framed.frame (hf : Framed d i n) (h : Paying s r t n s1 t1) (hu : exec i s = .next u) : ∃ t2, u.task t.row = some t2 ∧ t2.pc = t.pc + 4 ∧
    (t.charged = false → t2.meter = t.meter + n) ∧ (∀ x, x ≠ d → t2.S x = t.S x) ∧ t2.v = t.v ∧ t2.k = t.k ∧ t2.cfg = t.cfg ∧ t2.fmt = t.fmt ∧
    t2.seed = t.seed ∧ t2.srctr = t.srctr ∧ t2.budget = t.budget ∧ t2.staged = t.staged ∧ t2.handles = t.handles ∧ t2.commit = t.commit ∧
    t.flags &&& t2.flags = t.flags ∧ u = s1.setTask t.row (some t2) ∧ ∀ x, getB u.mem x = getB s.mem x := by
  obtain ⟨g, hi, hg⟩ := hf
  have hg := hg s1 t1
  rw [hi] at hu
  have hu := Host.Outcome.next.inj (hu.symm.trans (h.runTask_done rfl))
  obtain ⟨m, dk, hm, ht⟩ : ∃ m dk, t1.meter = m ∧ t1 = { t with meter := m, dark := dk, charged := false } :=
    ⟨_, _, rfl, State.pay_task h.2.2⟩
  have hrow : t1.row = t.row := by rw [ht]
  have hset : u = s1.setTask t.row (some (g s1 t1)) := by rw [hu, retire, hg.row, hrow]
  have hS (x : BitVec 5) : t1.S x = t.S x := by rw [ht]; rfl
  have hmem : u.mem = s.mem := by rw [hset, ← State.pay_mem h.2.2]; rfl
  refine ⟨g s1 t1, by rw [hset, State.task_setTask], by rw [hg.pc, ht], fun hc => by rw [hg.meter, h.meter_eq hc],
    fun x hx => by rw [hg.other x hx, hS], by rw [hg.v, ht], by rw [hg.k, ht], by rw [hg.cfg, ht], by rw [hg.fmt, ht], by rw [hg.seed, ht],
    by rw [hg.srctr, ht], by rw [hg.budget, ht], by rw [hg.staged, ht], by rw [hg.handles, ht], by rw [hg.commit, ht], ?_, hset,
    fun x => by rw [hmem]⟩
  have hfl : t1.flags = t.flags := by rw [ht]
  rw [← hfl]
  exact hg.flags

/-- A located access changes a port at most. -/
theorem Located.frame {sp size acc : Nat} {ea : Word} {es : List PEnt} (h : Located s1 t1 sp ea size acc s2 k es) :
    s2.mem = s1.mem ∧ s2.ctxs = s1.ctxs := by
  obtain ⟨-, h⟩ := h
  split at h
  · obtain ⟨-, e, -, rfl, -⟩ := h
    exact ⟨rfl, rfl⟩
  · obtain ⟨-, rfl, -⟩ := h
    exact ⟨rfl, rfl⟩

end

/-- Settles O60: scalar results by `Framed`, the store by `scalarStores`, Forecast operations by `forecastOps_runFc`. -/
theorem frames : Obligations.Frames := by
  unfold Obligations.Frames
  refine ⟨fun s s1 u r t t1 d a b i n m w e he h hu => (scalarWriters_framed d a b i n m w e he).frame h hu,
    fun s s1 s2 u r t t1 x b sp w o k es h hloc hfits hu => ?_, fun s u die p d x y z n h w q hd i hi hu => ?_⟩
  · have hst := ((scalarStores s s1 s2 r t t1 x b sp w o k es h) hloc).1 hfits
    have hu := Host.Outcome.next.inj (hu.symm.trans hst)
    obtain ⟨hmem, hctxs⟩ := hloc.frame
    have ht := State.pay_task h.2.2
    have hrow : t1.row = t.row := by rw [ht]
    refine ⟨fun y => ?_, ?_, _, by rw [hu, retire, ← hrow, State.task_setTask], ?_, ?_, ?_, ?_, ?_, ?_⟩
    · rw [hu, ← State.pay_mem h.2.2, ← hmem]
      rfl
    · rw [hu, ← hctxs]
      rfl
    all_goals rw [ht]
  · obtain ⟨f, hf, hkeep⟩ := forecastOps_runFc x y z n h w q i hi
    have hu := Host.Outcome.next.inj (hu.symm.trans ((hf s).trans (hd.runFc fun _ _ e => f e)))
    exact ⟨_, hu, hkeep _⟩

end Sys2Proof.Safety

end

section

namespace Sys2Proof.Machine

/-- The chain value that reset gives context 0 is the one a new context starts with. -/
theorem chainStart_zero : chainStart 0 0 = chain00 := by decide +kernel

theorem reset_hasPart (p : Nat) : State.reset.hasPart p = true ↔ p = 0 := by
  by_cases h : 0 = p
  · subst h
    exact ⟨fun _ => rfl, fun _ => rfl⟩
  · have : State.reset.hasPart p = false := by simp [State.hasPart, State.reset, findT, h]
    simp [this, Ne.symm h]

theorem reset_ctx {c : Nat} {x : Ctx} (h : State.reset.ctx c = some x) : c = 0 ∧ x = Ctx.create Setup.ctx0 chain00 := by
  have hfind : State.reset.ctx c = if 0 = c then some (Ctx.create Setup.ctx0 chain00) else none := rfl
  rw [hfind] at h
  split at h
  · next hc => exact ⟨hc.symm, (Option.some.inj h).symm⟩
  · cases h

end Sys2Proof.Machine

namespace Sys2Proof.Safety

open Sys2Proof.Machine

/-- Settles O54: the tables of the state after reset are empty, but for partition 0 and its context 0. -/
theorem resetState : Obligations.ResetState := by
  unfold Obligations.ResetState
  refine ⟨rfl, rfl, fun _ => rfl, fun _ => ⟨rfl, rfl⟩, reset_hasPart, rfl, rfl, rfl, rfl, rfl, rfl, rfl, rfl, fun c x h => ?_, rfl, fun _ => ⟨rfl, rfl⟩,
    fun _ => ⟨rfl, rfl⟩, fun _ => ⟨rfl, rfl, rfl, rfl, rfl, rfl⟩, fun _ => ⟨rfl, rfl, rfl, rfl, rfl⟩, fun _ => rfl, fun _ => ⟨rfl, rfl⟩⟩
  obtain ⟨rfl, rfl⟩ := reset_ctx h
  refine ⟨rfl, rfl, rfl, rfl, rfl, rfl, rfl, rfl, rfl, rfl, rfl, ?_, rfl, rfl⟩
  rw [chainStart_zero]
  rfl

end Sys2Proof.Safety

end

section

namespace Sys2Proof.Safety

open Sys2Proof.Machine

/-! ## Elements of a channel (R101) -/

section
variable {s s1 : State} {r n : Nat} {t t1 : Machine.Task} {h : BitVec 4} {hd : Handle} {out : Bool} {e : Word}

theorem chanAt_absent (hh : t.handles[h.toNat]? = none) : chanAt t h out e = none := by
  rw [chanAt, hh]

theorem chanAt_outside (hh : t.handles[h.toNat]? = some hd) (ho : hd.out ≠ out ∨ hd.g ≤ e.toNat / slotWords hd.slotSz) : chanAt t h out e = none := by
  rw [chanAt, hh]
  dsimp only
  by_cases hout : hd.out ≠ out
  · rw [if_pos hout]
  · rw [if_neg hout, if_pos (ho.resolve_left hout)]

theorem chanAt_inside (hh : t.handles[h.toNat]? = some hd) (hout : hd.out = out) (he : e.toNat / slotWords hd.slotSz < hd.g) :
    chanAt t h out e = some (hd, e.toNat / slotWords hd.slotSz, e.toNat % slotWords hd.slotSz) := by
  rw [chanAt, hh]
  dsimp only
  rw [if_neg (not_not.mpr hout), if_neg (not_le.mpr he)]

theorem State.inChan_holds {k m acc : Nat} {go : Body} (hk : s.chanHolds t.cx hd.quad k m = true) : s.inChan t hd k m acc go = go := if_pos hk

theorem State.inChan_not {k m acc : Nat} {go : Body} (hk : ¬ s.chanHolds t.cx hd.quad k m = true) :
    s.inChan t hd k m acc go = .fault 3 acc (chanOffset hd.quad k) := if_neg hk

theorem chanOffset_lt (quad : Bool) (k : Nat) : chanOffset quad k < 2 ^ 64 := by
  unfold chanOffset
  generalize k - 2 ^ 56 = m
  norm_num
  split <;> omega

theorem readable_clean {k m : Nat} {ea : Word} {go : Body} (hp : s.poisoned k m = none) : s.readable k m ea go = go := by
  rw [State.readable, hp]

theorem readable_poisoned {k m : Nat} {go : Body} {quad : Bool} {j : Nat} (hp : s.poisoned k m ≠ none) :
    s.readable k m (BitVec.ofNat 64 (chanOffset quad j)) go = .faultAt s 12 0 (chanOffset quad j - chanOffset quad j % 256) := by
  obtain ⟨g, hg⟩ := Option.ne_none_iff_exists'.mp hp
  rw [State.readable, hg, BitVec.toNat_ofNat, Nat.mod_eq_of_lt (chanOffset_lt quad j)]

theorem stageChan_fits (hn : t.nchw < 256) (g : Staged) : stageChan t g = some { t with staged := t.staged ++ [g], nchw := t.nchw + 1 } :=
  if_neg (by omega)

theorem stageChan_full (hn : 256 ≤ t.nchw) (g : Staged) : stageChan t g = none := if_pos (by omega)

end

section
variable {s s1 : State} {r n : Nat} {t t1 : Machine.Task} {h : BitVec 4} {hd : Handle} {out : Bool} {e : Word} {body : State → Machine.Task → Body}
variable {kf : State → Machine.Task → Handle → Nat → Nat → Body}

/-- What an instruction does with an element of a channel. -/
def onElement (h : BitVec 4) (out : Bool) (e : Machine.Task → Word) (go : State → Machine.Task → Handle → Nat → Nat → Body) (s : State) (t : Machine.Task) :
    Body :=
  match chanAt t h out (e t) with
  | none => .stop .unresolved
  | some (hd, slot, word) => go s t hd slot word

theorem onElement_none {e : Machine.Task → Word} (hc : chanAt t h out (e t) = none) : onElement h out e kf s t = .stop .unresolved := by
  rw [onElement, hc]

theorem onElement_some {e : Machine.Task → Word} {slot word : Nat} (hc : chanAt t h out (e t) = some (hd, slot, word)) :
    onElement h out e kf s t = kf s t hd slot word := by
  rw [onElement, hc]

end

/-- CRD of an element. -/
def crdAt (d : BitVec 5) (s : State) (t : Machine.Task) (hd : Handle) (slot word : Nat) : Body :=
  let k := slotKey hd.hkey hd.logn hd.slotSz (hd.cnt0 + slot) + word * wordBytes hd.slotSz
  s.inChan t hd k (wordBytes hd.slotSz) 1 (s.readable k (wordBytes hd.slotSz) (BitVec.ofNat 64 (chanOffset hd.quad k))
    (.done (s.saw t.row k (wordBytes hd.slotSz)) (t.setS d (BitVec.ofNat 64 (getN s.mem k (wordBytes hd.slotSz)))).adv))

/-- CRDT of an element. -/
def crdtAt (d : BitVec 5) (s : State) (t : Machine.Task) (hd : Handle) (slot _word : Nat) : Body :=
  let k := tagKey hd.hkey hd.logn (hd.cnt0 + slot)
  s.inChan t hd k 1 1 (s.readable k 1 (BitVec.ofNat 64 (chanOffset hd.quad k))
    (.done (s.saw t.row k 1) (t.setS d (BitVec.ofNat 64 (tagAt s.mem hd.hkey hd.logn (hd.cnt0 + slot)))).adv))

/-- CWR to an element. -/
def cwrAt (d : BitVec 5) (h : BitVec 4) (e : Machine.Task → Word) (s : State) (t : Machine.Task) (hd : Handle) (slot word : Nat) : Body :=
  s.inChan t hd (slotKey hd.hkey hd.logn hd.slotSz (hd.cnt0 + slot) + word * wordBytes hd.slotSz) (wordBytes hd.slotSz) 2
    (staged s (stageChan t (.chan h.toNat (e t).toNat (t.S d))))

/-- CWRT to an element. -/
def cwrtAt (d : BitVec 5) (h : BitVec 4) (e : Machine.Task → Word) (s : State) (t : Machine.Task) (hd : Handle) (slot _word : Nat) : Body :=
  s.inChan t hd (tagKey hd.hkey hd.logn (hd.cnt0 + slot)) 1 2 (staged s (stageChan t (.tag h.toNat (e t).toNat d.toNat)))

section
variable (s : State) (d a : BitVec 5) (h : BitVec 4) (o : BitVec 9)

theorem exec_crd : exec (.crd d a h o) s = s.runTask (fun _ => 8) (onElement h false (fun t => chanOff t a o) (crdAt d)) := rfl
theorem exec_crdt : exec (.crdt d a h o) s = s.runTask (fun _ => 8) (onElement h false (fun t => chanOff t a o) (crdtAt d)) := rfl
theorem exec_cwr : exec (.cwr d a h o) s = s.runTask (fun _ => 8) (onElement h true (fun t => chanOff t a o) (cwrAt d h fun t => chanOff t a o)) := rfl
theorem exec_cwrt : exec (.cwrt d a h o) s = s.runTask (fun _ => 8) (onElement h true (fun t => chanOff t a o) (cwrtAt d h fun t => chanOff t a o)) := rfl

end

/-- Settles O18: the handle decides where the element is, its place whether it is read, staged, or a fault. -/
theorem channelWords : Obligations.ChannelWords := by
  unfold Obligations.ChannelWords
  intro s s1 r t t1 d a h o hp e stops stages
  have hstop {i : Instr} {out : Bool} {go : State → Machine.Task → Handle → Nat → Nat → Body}
      (hi : exec i s = s.runTask (fun _ => 8) (onElement h out (fun t => chanOff t a o) go)) (hc : chanAt t1 h out (chanOff t1 a o) = none) : stops i :=
    hi.trans (hp.runTask_stop (onElement_none hc))
  refine ⟨fun hh => ⟨hstop (exec_crd ..) (chanAt_absent hh), hstop (exec_crdt ..) (chanAt_absent hh), hstop (exec_cwr ..) (chanAt_absent hh),
    hstop (exec_cwrt ..) (chanAt_absent hh)⟩, ?_⟩
  intro hd hh w n k g holds faults granule
  refine ⟨fun ho => ?_, fun ho => ?_, fun ⟨hout, he⟩ => ?_, fun ⟨hout, he⟩ => ?_⟩
  · have hc : chanAt t1 h false (chanOff t1 a o) = none := chanAt_outside hh (ho.imp_left fun h => by simp [h])
    exact ⟨hstop (exec_crd ..) hc, hstop (exec_crdt ..) hc⟩
  · have hc : chanAt t1 h true (chanOff t1 a o) = none := chanAt_outside hh (ho.imp_left fun h => by simp [h])
    exact ⟨hstop (exec_cwr ..) hc, hstop (exec_cwrt ..) hc⟩
  · have hc : chanAt t1 h false (chanOff t1 a o) = some (hd, e / w, e % w) := chanAt_inside hh hout he
    refine ⟨fun hk => (exec_crd ..).trans (hp.runTask_fault ((onElement_some hc).trans (State.inChan_not hk))),
      fun hk => (exec_crdt ..).trans (hp.runTask_fault ((onElement_some hc).trans (State.inChan_not hk))),
      fun hk hq _ => (exec_crd ..).trans (hp.runTask_faultAt ((onElement_some hc).trans ((State.inChan_holds hk).trans (readable_poisoned hq)))),
      fun hk hq _ => (exec_crdt ..).trans (hp.runTask_faultAt ((onElement_some hc).trans ((State.inChan_holds hk).trans (readable_poisoned hq)))),
      fun hk hq => (exec_crd ..).trans (hp.runTask_done ((onElement_some hc).trans ((State.inChan_holds hk).trans (readable_clean hq)))),
      fun hk hq => (exec_crdt ..).trans (hp.runTask_done ((onElement_some hc).trans ((State.inChan_holds hk).trans (readable_clean hq))))⟩
  · have hc : chanAt t1 h true (chanOff t1 a o) = some (hd, e / w, e % w) := chanAt_inside hh hout he
    have hfits {g : Staged} (hn : t1.nchw < 256) :
        staged s1 (stageChan t1 g) = .done s1 { t1 with staged := t1.staged ++ [g], nchw := t1.nchw + 1, pc := t1.pc + 4 } := by
      rw [stageChan_fits hn]
      rfl
    have hfull {g : Staged} (hn : 256 ≤ t1.nchw) : staged s1 (stageChan t1 g) = .stop .overflow := by
      rw [stageChan_full hn]
      rfl
    refine ⟨fun hk => (exec_cwr ..).trans (hp.runTask_fault ((onElement_some hc).trans (State.inChan_not hk))),
      fun hk => (exec_cwrt ..).trans (hp.runTask_fault ((onElement_some hc).trans (State.inChan_not hk))),
      fun hk => ⟨fun hn => (exec_cwr ..).trans (hp.runTask_done ((onElement_some hc).trans ((State.inChan_holds hk).trans (hfits hn)))),
        fun hn => (exec_cwr ..).trans (hp.runTask_stop ((onElement_some hc).trans ((State.inChan_holds hk).trans (hfull hn))))⟩,
      fun hk => ⟨fun hn => (exec_cwrt ..).trans (hp.runTask_done ((onElement_some hc).trans ((State.inChan_holds hk).trans (hfits hn)))),
        fun hn => (exec_cwrt ..).trans (hp.runTask_stop ((onElement_some hc).trans ((State.inChan_holds hk).trans (hfull hn))))⟩⟩

end Sys2Proof.Safety

end

section

namespace Sys2Proof.Safety

open Sys2Proof.Machine

section
variable {s s1 : State} {r : Nat} {t t1 : Machine.Task} {h : BitVec 4} {hd : Handle} {out : Bool} {n : Word} {bad : Body} {go : Machine.Task → Body}

theorem stageAdv_within (hh : t.handles[h.toNat]? = some hd) (hout : hd.out = out) (hz : hd.slotSz ≠ 0) (hg : hd.adv + n.toNat ≤ hd.g) :
    stageAdv t h out n bad go = go { t with handles := t.handles.set h.toNat { hd with adv := hd.adv + n.toNat } } := by
  rw [stageAdv, hh]
  exact if_neg (by simp [hout, hz, hg])

theorem stageAdv_bad (hh : ∀ hd, t.handles[h.toNat]? = some hd → hd.out ≠ out ∨ hd.slotSz = 0 ∨ hd.g < hd.adv + n.toNat) :
    stageAdv t h out n bad go = bad := by
  rw [stageAdv]
  cases hx : t.handles[h.toNat]? with
  | none => rfl
  | some hd => exact if_pos (hh hd hx)

/-- The rule for an advance. -/
theorem Paying.runAdv (hp : Paying s r t 4 s1 t1) (a : BitVec 5) (h : BitVec 4) (o : BitVec 9) (out : Bool) :
    (∀ hd, t1.handles[h.toNat]? = some hd → hd.out = out → hd.slotSz ≠ 0 → hd.adv + (chanOff t1 a o).toNat ≤ hd.g →
      (s1.chanHolds t1.cx hd.quad (hd.hkey + if out then 0 else 8) 8 = true → s.runAdv a h o out = .next (retire s1 { t1 with
        handles := t1.handles.set h.toNat { hd with adv := hd.adv + (chanOff t1 a o).toNat }, pc := t1.pc + 4 })) ∧
      (s1.chanHolds t1.cx hd.quad (hd.hkey + if out then 0 else 8) 8 = false →
        s.runAdv a h o out = .next (s1.faultTask t1 3 3 (chanOffset hd.quad (hd.hkey + if out then 0 else 8))))) ∧
    ((∀ hd, t1.handles[h.toNat]? = some hd → hd.out ≠ out ∨ hd.slotSz = 0 ∨ hd.g < hd.adv + (chanOff t1 a o).toNat) →
      s.runAdv a h o out = .next (s1.stopTask t1 .unresolved)) := by
  unfold State.runAdv
  refine ⟨fun hd hh hout hz hg => ?_, fun hh => hp.runTask_stop (stageAdv_bad hh)⟩
  subst hout
  have hset (x : Handle) : (t1.handles.set h.toNat x)[h.toNat]? = some x := List.getElem?_set_self (List.getElem?_eq_some_iff.mp hh).1
  refine ⟨fun hk => hp.runTask_done ((stageAdv_within hh rfl hz hg).trans ?_), fun hk => hp.runTask_fault ((stageAdv_within hh rfl hz hg).trans ?_)⟩
  · rw [hset]
    exact if_pos hk
  · rw [hset]
    exact if_neg (Bool.eq_false_iff.mp hk)

end

/-- What EMIT does once it is charged. -/
def emitBody (a : BitVec 5) (q : BitVec 3) (s : State) (t : Machine.Task) : Body :=
  let ea := (t.S a).toNat
  if ea % 16 ≠ 0 then .stop .misaligned
  else if 4096 < ea + 16 then .stop .unresolved
  else
    let k := laneKey t.row 0 ea
    let w0 := loadN s.mem t k 16
    let n := if bits w0 98 1 = 1 then 32 else 16
    if 4096 < ea + n then .stop .unresolved
    else
      let w1 := if n = 32 then loadN s.mem t (k + 16) 16 else 0
      if covered t.staged k n ∨ s.poisoned k n = none then
        (if cmdValid q.toNat w0 w1 then staged s (stageCmd t (.cmd q.toNat w0 w1)) else .stop .illegal)
      else .fault 12 0 (ea - ea % 256)

theorem exec_emit (a : BitVec 5) (q : BitVec 3) (s : State) : exec (.emit a q) s = s.runTask (fun _ => 24) (emitBody a q) := rfl

/-- Settles O19: an advance by `Paying.runAdv`, EMIT by where its bytes lie and what they decode to. -/
theorem advancesAndEmit : Obligations.AdvancesAndEmit := by
  unfold Obligations.AdvancesAndEmit
  refine ⟨fun s s1 r t t1 a h o hp => ⟨hp.runAdv a h o false, hp.runAdv a h o true⟩, ?_⟩
  intro s s1 r t t1 a q hp ea k w0 long w1 n stops
  have hn : 16 ≤ n := by
    simp only [n]
    split <;> omega
  have hw1 : (if n = 32 then loadN s1.mem t1 (k + 16) 16 else 0) = w1 := by
    by_cases hl : long <;> simp [n, w1, hl]
  refine ⟨fun hm => hp.runTask_stop (if_pos hm), fun ⟨hm, hx⟩ => ?_, fun ⟨hm, hx, hc⟩ => ?_⟩
  · by_cases h16 : 4096 < ea + 16
    · exact hp.runTask_stop ((if_neg (not_not.mpr hm)).trans (if_pos h16))
    · exact hp.runTask_stop ((if_neg (not_not.mpr hm)).trans ((if_neg h16).trans (if_pos hx)))
  · have h16 : ¬ 4096 < ea + 16 := by omega
    have hbody : emitBody a q s1 t1 = if cmdValid q.toNat w0 w1 then staged s1 (stageCmd t1 (.cmd q.toNat w0 w1)) else .stop .illegal := by
      rw [← hw1]
      exact (if_neg (not_not.mpr hm)).trans ((if_neg h16).trans ((if_neg (not_lt.mpr hx)).trans (if_pos hc)))
    refine ⟨fun hv => hp.runTask_stop (hbody.trans (if_neg (by simp [hv]))), fun ⟨hv, hn⟩ => hp.runTask_stop (hbody.trans ((if_pos hv).trans ?_)),
      fun ⟨hv, hn⟩ => hp.runTask_done (hbody.trans ((if_pos hv).trans ?_))⟩
    · rw [stageCmd_full hn]
      rfl
    · rw [stageCmd_fits hn]
      rfl

end Sys2Proof.Safety

end

section

namespace Sys2Proof.Machine

/-- Every one of the first n numbers, as the Boolean check says it. -/
theorem any_range_eq_false {n : Nat} {p : Nat → Bool} : (List.range n).any p = false ↔ ∀ i < n, p i = false := by
  simp [List.any_eq_false]

theorem State.xlLanes_ok {s s2 : State} {t : Task} {acc : Nat} {span as : List Nat} {es : List Elem} (h : s.xlLanes t acc span as = .inl (s2, es)) :
    s2.mem = s.mem ∧ es.map Elem.va = as ∧ ∀ e ∈ es, ∃ u, e.use = some u ∧ e.key = entKey u e.va := by
  induction as generalizing s es with
  | nil =>
    cases h
    exact ⟨rfl, rfl, fun e he => nomatch he⟩
  | cons a as ih =>
    unfold State.xlLanes at h
    split at h
    · next u hu =>
      split at h
      · next x hx =>
        obtain ⟨s', es'⟩ := x
        cases h
        obtain ⟨hm, hva, hkey⟩ := ih hx
        refine ⟨hm, by rw [List.map_cons, hva], fun e he => ?_⟩
        rcases List.mem_cons.mp he with rfl | he
        · exact ⟨u, rfl, rfl⟩
        · exact hkey e he
      · cases h
    · cases h
    · cases h

/-- What a located access is: sixteen elements at their addresses, of one page format, with memory as it was. -/
def ElemsAt (s : State) (addr : Nat → Nat → Word) (s2 : State) (es : List Elem) (g fmt : Nat) : Prop :=
  s2.mem = s.mem ∧ es.length = 16 ∧ g = elemBytes fmt ∧
    ∀ i e, es[i]? = some e → e.va = (addr g i).toNat ∧ ∀ u, e.use = some u → u.fmt = fmt ∧ e.key = entKey u e.va

/-- The element i of a list whose addresses are those of the lanes. -/
theorem va_of_getElem {es : List Elem} {f : Nat → Nat} (hva : es.map Elem.va = (List.range 16).map f) {i : Nat} {e : Elem} (he : es[i]? = some e) :
    e.va = f i := by
  have hi : i < 16 := by
    have hlen := congrArg List.length hva
    rw [List.length_map, List.length_map, List.length_range] at hlen
    exact hlen ▸ (List.getElem?_eq_some_iff.mp he).1
  have h := congrArg (·[i]?) hva
  simp only [List.getElem?_map, he, Option.map_some, List.getElem?_range hi] at h
  exact Option.some.inj h

theorem State.memElems_ok {s s2 : State} {t : Task} {ea : Word} {acc : Nat} {addr : Nat → Nat → Word} {es : List Elem} {g fmt : Nat}
    (h : s.memElems t ea acc addr = .ok s2 es g fmt) : ElemsAt s addr s2 es g fmt := by
  unfold State.memElems at h
  dsimp only at h
  split at h
  · next e he =>
    split at h
    · cases h
    · split at h
      · cases h
      · next x hx =>
        obtain ⟨s', es'⟩ := x
        split at h
        · cases h
        · next hfmt =>
          obtain ⟨hm, hva, hkey⟩ := State.xlLanes_ok hx
          cases h
          have hlen := congrArg List.length hva
          rw [List.length_map, List.length_map, List.length_range] at hlen
          refine ⟨hm, hlen, rfl, fun i l hl => ⟨va_of_getElem hva hl, fun u hu => ?_⟩⟩
          have hmem := List.mem_of_getElem? hl
          obtain ⟨v, hv, hk⟩ := hkey l hmem
          cases hv.symm.trans hu
          refine ⟨?_, hk⟩
          by_contra hne
          exact hfmt (List.any_eq_true.mpr ⟨l, hmem, by simp [hu, hne]⟩)
  · cases h
  · cases h

end Sys2Proof.Machine

namespace Sys2Proof.Safety

open Sys2Proof.Machine

/-- Settles O31: the checks of a vector access in their order, then its elements. -/
theorem vectorAddresses : Obligations.VectorAddresses := by
  unfold Obligations.VectorAddresses
  intro s t sp ea acc addr aligned fits
  have hal : (ea.toNat % 4 ≠ 0 ∨ (List.range 16).any (fun i => (addr 4 i).toNat % 4 != 0) = true) ↔ ¬ aligned := by
    rw [not_and_or, not_forall]
    simp
  have hfit : (extent sp ≤ ea.toNat ∨ (List.range 16).any (fun i => decide (extent sp < (addr 4 i).toNat + 4)) = true) ↔ ¬ fits := by
    rw [not_and_or, not_forall]
    simp
  unfold State.elems
  simp only [hal, hfit]
  refine ⟨fun ha => if_pos ha, fun ⟨ha, hsp, hc⟩ => ?_, fun ⟨ha, hsp, hf⟩ => ?_, fun ⟨ha, hsp, hf, hr⟩ => ?_, fun s2 es g fmt h => ?_⟩
  · rw [if_neg (not_not.mpr ha), if_pos hsp, if_neg (by simp [hc])]
  · rw [if_neg (not_not.mpr ha), if_neg hsp, if_pos hf]
  · rw [if_neg (not_not.mpr ha), if_neg hsp, if_neg (not_not.mpr hf), List.find?_eq_none.mpr fun i hi => by simp [hr i (List.mem_range.mp hi)]]
  · suffices ElemsAt s addr s2 es g fmt from this
    split at h
    · cases h
    · split at h
      · split at h
        · exact State.memElems_ok h
        · cases h
      · split at h
        · cases h
        · split at h
          · cases h
          · cases h
            refine ⟨rfl, by simp, rfl, fun i e he => ⟨va_of_getElem (f := fun i => (addr 4 i).toNat) (by simp) he, fun u hu => ?_⟩⟩
            obtain ⟨j, -, rfl⟩ := List.mem_map.mp (List.mem_of_getElem? he)
            cases hu

end Sys2Proof.Safety

end

section

namespace Sys2Proof.Machine

/-- The reads of a run of elements that the windows of a die and the coherence of commits see. -/
def countRun (t : Task) (s : State) (r : Nat × Nat × Nat) : State :=
  (if isMemKey r.2.1 then s.readVia (t.core / 8) t.cx r.1 [(r.2.1, r.2.2)] else s).saw t.row r.2.1 r.2.2

theorem countRun_mem (t : Task) (s : State) (r : Nat × Nat × Nat) : (countRun t s r).mem = s.mem := by
  unfold countRun
  split
  · exact (s.readVia_store ..).1
  · rfl

theorem foldl_countRun_mem (t : Task) (s : State) (rs : List (Nat × Nat × Nat)) : (rs.foldl (countRun t) s).mem = s.mem := by
  induction rs generalizing s with
  | nil => rfl
  | cons r rs ih => rw [List.foldl_cons, ih, countRun_mem]

/-- A load of elements none of which takes a poisoned byte from memory. -/
theorem State.loadElems_clean {s : State} {t : Task} {es : List Elem} {g : Nat} (x : BitVec 5) (fmt : Nat)
    (h : ∀ e ∈ es, covered t.staged e.key g = true ∨ s.poisoned e.key g = none) : ∃ s3, s3.mem = s.mem ∧ s.loadElems t x es g fmt =
      .done s3 (t.setV x (Vector.ofFn fun i => ((es.map fun e => loadLane fmt (loadN s.mem t e.key g))[i.val]?).getD 0)).adv := by
  have hnone : (es.find? fun e => !covered t.staged e.key g && (s.poisoned e.key g).isSome) = none :=
    List.find?_eq_none.mpr fun e he => by rcases h e he with hc | hp <;> simp [*]
  refine ⟨(elemRuns g (es.filter fun e => !covered t.staged e.key g)).foldl (countRun t) s, foldl_countRun_mem .., ?_⟩
  unfold State.loadElems
  rw [hnone]
  rfl

theorem sliceCheck_ok {a : Nat → Word} (h : ∀ i < 16, (a i).toNat % 4 = 0 ∧ (a i).toNat ≤ 4092) : sliceCheck a = none := by
  have hal : ((List.range 16).any fun i => (a i).toNat % 4 != 0) = false := any_range_eq_false.mpr fun i hi => by simp [(h i hi).1]
  have hin : ((List.range 16).any fun i => decide (4092 < (a i).toNat)) = false := any_range_eq_false.mpr fun i hi => by simp [(h i hi).2]
  rw [sliceCheck, if_neg (by simp [hal]), if_neg (by simp [hin])]

theorem sliceCheck_misaligned {x : Word} (h : x.toNat % 4 ≠ 0) : sliceCheck (fun _ => x) = some .misaligned :=
  if_pos (List.any_eq_true.mpr ⟨0, by simp, by simp [h]⟩)

theorem sliceCheck_unresolved {x : Word} (ha : x.toNat % 4 = 0) (h : 4092 < x.toNat) : sliceCheck (fun _ => x) = some .unresolved :=
  (if_neg (by simp [ha])).trans (if_pos (List.any_eq_true.mpr ⟨0, by simp, by simp [h]⟩))

end Sys2Proof.Machine

namespace Sys2Proof.Safety

open Sys2Proof.Machine

section
variable {s s1 s2 : State} {r n : Nat} {t t1 : Machine.Task}

/-- The rule for a vector load whose elements are located and clean. -/
theorem Paying.loadElems (h : Paying s r t n s1 t1) {body : State → Machine.Task → Body} {es : List Elem} {g : Nat} (x : BitVec 5) (fmt : Nat)
    (hb : body s1 t1 = s2.loadElems t1 x es g fmt) (hc : ∀ e ∈ es, covered t1.staged e.key g = true ∨ s2.poisoned e.key g = none) :
    ∃ s3, s3.mem = s2.mem ∧ s.runTask (fun _ => n) body = .next (retire s3
      (t1.setV x (Vector.ofFn fun i => ((es.map fun e => loadLane fmt (loadN s2.mem t1 e.key g))[i.val]?).getD 0)).adv) := by
  obtain ⟨s3, hm, hl⟩ := State.loadElems_clean x fmt hc
  exact ⟨s3, hm, h.runTask_done (hb.trans hl)⟩

/-- The rule for a vector store whose elements are located. -/
theorem Paying.stageVector (h : Paying s r t n s1 t1) {body : State → Machine.Task → Body} {cells : List Host.Cell} {size va : Nat} {us : List PEnt} {fl : Fl}
    (hb : body s1 t1 = staged s2 ((stageStore t1 cells size va us).map fun t => t.raise fl)) :
    (t1.nbytes + size ≤ 16384 → s.runTask (fun _ => n) body = .next (retire s2 (Machine.Task.raise { t1 with
      staged := t1.staged ++ [.store cells va us], nstore := t1.nstore + 1, nbytes := t1.nbytes + size, pc := t1.pc + 4 } fl))) ∧
    (16384 < t1.nbytes + size → s.runTask (fun _ => n) body = .next (s1.stopTask t1 .overflow)) := by
  refine ⟨fun hf => h.runTask_done (hb.trans ?_), fun hf => h.runTask_stop (hb.trans ?_)⟩
  · rw [stageStore_fits hf]
    rfl
  · rw [stageStore_full hf]
    rfl

theorem map_raise_zero (x : Option Machine.Task) : (x.map fun t => t.raise 0) = x := by
  cases x with
  | none => rfl
  | some t => rw [Option.map_some, raise_zero]

end

/-- An access of sixteen elements, and what is done with them. -/
def onElems (x : Elems) (go : State → List Elem → Nat → Nat → Body) : Body :=
  match x with
  | .bad r => r
  | .ok s es g fmt => go s es g fmt

theorem onElems_ok {x : Elems} {s : State} {es : List Elem} {g fmt : Nat} {go : State → List Elem → Nat → Nat → Body} (h : x = .ok s es g fmt) :
    onElems x go = go s es g fmt := by
  subst h
  rfl

/-- The elements of a store with the bytes and flags of their lanes. -/
def storedLanes (t : Machine.Task) (x : BitVec 5) (es : List Elem) (fmt : Nat) : List (Elem × Nat × Fl) :=
  es.zipIdx.map fun e => (e.1, storeLane fmt (t.fmt.getLsbD 2) (laneAt (t.V x) e.2))

section
variable (s : State) (x b : BitVec 5) (sp : BitVec 3) (o : BitVec 10)

theorem exec_vld : exec (.vld x b sp o) s = s.runTask (fun _ => 96) fun s t =>
    onElems (s.elems t sp.toNat (vea t b o) 1 fun g i => vea t b o + BitVec.ofNat 64 (g * i)) fun s es g fmt => s.loadElems t x es g fmt := rfl

theorem exec_vgld : exec (.vgld x b sp o) s = s.runTask (fun _ => 96) fun s t =>
    onElems (s.elems t sp.toNat (vea t b o) 1 fun _ i => vea t b o + (laneAt (t.V x) i).signExtend 64) fun s es g fmt => s.loadElems t x es g fmt := rfl

theorem exec_vst : exec (.vst x b sp o) s = s.runTask (fun _ => 96) fun s t =>
    onElems (s.elems t sp.toNat (vea t b o) 2 fun g i => vea t b o + BitVec.ofNat 64 (g * i)) fun s es g fmt =>
      staged s ((stageStore t ((storedLanes t x es fmt).flatMap fun l => cellsAt l.1.key (bytesOfNat g l.2.1)) (16 * g) (vea t b o).toNat
        (es.filterMap fun e => e.use)).map fun u => u.raise ((storedLanes t x es fmt).foldl (fun a l => a ||| l.2.2) 0)) := rfl

/-- An access to the slices whose offset has been checked. -/
def onSlices (a : Nat → Word) (go : Body) : Body :=
  match sliceCheck a with
  | some r => .stop r
  | none => go

theorem onSlices_ok {a : Nat → Word} {go : Body} (h : sliceCheck a = none) : onSlices a go = go := by rw [onSlices, h]

theorem onSlices_stop {a : Nat → Word} {go : Body} {c : Stop} (h : sliceCheck a = some c) : onSlices a go = .stop c := by rw [onSlices, h]

theorem exec_vlds : exec (.vlds x b o) s = s.runTask (fun _ => 32) fun s t =>
    onSlices (fun _ => t.ea b o 4) (s.loadElems t x (sliceElems t fun _ => t.ea b o 4) 4 0) := rfl

theorem exec_vldsIx : exec (.vldsIx x b o) s = s.runTask (fun _ => 32) fun s t =>
    onSlices (fun i => t.ea b o 4 + (laneAt (t.V x) i).signExtend 64)
      (s.loadElems t x (sliceElems t fun i => t.ea b o 4 + (laneAt (t.V x) i).signExtend 64) 4 0) := rfl

theorem exec_vsts : exec (.vsts x b o) s = s.runTask (fun _ => 32) fun s t => onSlices (fun _ => t.ea b o 4)
    (staged s (stageStore t ((List.range 16).flatMap fun i => cellsAt (laneKey t.row i (t.ea b o 4).toNat) (bytesOfNat 4 (laneAt (t.V x) i).toNat)) 64
      (t.ea b o 4).toNat [])) := rfl

end

/-- Settles O32, by the rules `Paying.loadElems` and `Paying.stageVector`. -/
theorem vectorMemory : Obligations.VectorMemory := by
  unfold Obligations.VectorMemory
  intro s s1 s2 r t t1 x b sp o es g fmt ea lane clean loads stores
  refine ⟨fun h => ⟨fun he hc => ?_, fun he hc => ?_, fun he => ?_⟩, fun h => ?_⟩
  · simp only [loads, exec_vld]
    exact h.loadElems x fmt (onElems_ok he) hc
  · simp only [loads, exec_vgld]
    exact h.loadElems x fmt (onElems_ok he) hc
  · simp only [stores, exec_vst]
    exact h.stageVector (onElems_ok he)
  · intro base slices okAt
    refine ⟨fun ha hc => ?_, fun ha hc => ?_, fun ha => ?_, fun ha => ⟨?_, ?_⟩, fun ⟨ha, hx⟩ => ⟨?_, ?_⟩⟩
    · simp only [loads, exec_vlds]
      exact h.loadElems x 0 (onSlices_ok (sliceCheck_ok ha)) hc
    · simp only [loads, exec_vldsIx]
      exact h.loadElems x 0 (onSlices_ok (sliceCheck_ok ha)) hc
    · simp only [stores, exec_vsts]
      exact h.stageVector ((onSlices_ok (sliceCheck_ok ha)).trans (congrArg (staged s1) (map_raise_zero _).symm))
    · rw [exec_vlds]
      exact h.runTask_stop (onSlices_stop (sliceCheck_misaligned ha))
    · rw [exec_vsts]
      exact h.runTask_stop (onSlices_stop (sliceCheck_misaligned ha))
    · rw [exec_vlds]
      exact h.runTask_stop (onSlices_stop (sliceCheck_unresolved ha hx))
    · rw [exec_vsts]
      exact h.runTask_stop (onSlices_stop (sliceCheck_unresolved ha hx))

end Sys2Proof.Safety

end

section

namespace Sys2Proof.Machine

/-! ## The bytes of a stop record (R80, R82) -/

theorem bits_pack {l : List ((w : Nat) × BitVec w)} {lo n : Nat} {x : BitVec n} (i : Nat) (h : l[i]? = some ⟨n, x⟩)
    (hlo : fieldPlace l i 0 = lo) : bits (pack l) lo n = x.toNat := by
  subst hlo
  exact pack_div_fieldPlace h

theorem bits_pack_ofNat {l : List ((w : Nat) × BitVec w)} {lo n v : Nat} (i : Nat) (h : l[i]? = some ⟨n, BitVec.ofNat n v⟩)
    (hlo : fieldPlace l i 0 = lo) (hv : v < 2 ^ n) : bits (pack l) lo n = v := by
  rw [bits_pack i h hlo, BitVec.toNat_ofNat, Nat.mod_eq_of_lt hv]

theorem pack_lt {l : List ((w : Nat) × BitVec w)} {n : Nat} (h : fieldPlace l l.length 0 = n) : pack l < 2 ^ n := by
  have hz := pack_div_above (l := l) (i := l.length) (by simp)
  rw [h] at hz
  exact (Nat.div_eq_zero_iff_lt (Nat.two_pow_pos n)).mp hz

theorem toNat_ofBool_eq_ite (b : Bool) : (BitVec.ofBool b).toNat = if b then 1 else 0 := by cases b <;> rfl

theorem ite_eq_ofBool_mul (b : Bool) (n : Nat) : (if b then n else 0) = (BitVec.ofBool b).toNat * n := by cases b <;> simp

/-- The counts and the pc that a stop record tells. -/
def stopDark (t : Task) : Dark := t.dark.getD ⟨0, 0, t.pc, t.meter, t.nstore, t.nchw, t.ncmd⟩

/-- The fields of a stop record. -/
def stopFields (t : Task) (reason darkend short : Nat) (gang : Bool) : List ((w : Nat) × BitVec w) :=
  [⟨64, (stopDark t).pc⟩, ⟨32, BitVec.ofNat 32 (stopDark t).meter⟩, ⟨32, BitVec.ofNat 32 t.budget⟩, ⟨32, BitVec.ofNat 32 (short % 2 ^ 32)⟩,
    ⟨8, BitVec.ofNat 8 reason⟩, ⟨3, BitVec.ofNat 3 darkend⟩, ⟨1, BitVec.ofBool t.measured⟩, ⟨1, BitVec.ofBool t.smf⟩, ⟨2, BitVec.ofNat 2 t.lvl⟩,
    ⟨4, BitVec.ofNat 4 (t.gid.toNat % 16)⟩, ⟨1, BitVec.ofBool gang⟩, ⟨1, BitVec.ofBool t.bound.isSome⟩, ⟨3, 0#3⟩, ⟨15, BitVec.ofNat 15 (stopDark t).nstore⟩,
    ⟨9, BitVec.ofNat 9 (stopDark t).nchw⟩, ⟨5, BitVec.ofNat 5 (stopDark t).ncmd⟩, ⟨11, 0#11⟩, ⟨32, BitVec.ofNat 32 (t.tid.toNat % 2 ^ 32)⟩]

/-- The number of which a stop record holds the bytes. -/
def stopNat (t : Task) (reason darkend short : Nat) (gang : Bool) : Nat :=
  (stopDark t).pc.toNat + (stopDark t).meter % 2 ^ 32 * 2 ^ 64 + t.budget * 2 ^ 96 + short % 2 ^ 32 * 2 ^ 128 + reason * 2 ^ 160 + darkend * 2 ^ 168
    + (if t.measured then 2 ^ 171 else 0) + (if t.smf then 2 ^ 172 else 0) + t.lvl * 2 ^ 173 + t.gid.toNat % 16 * 2 ^ 175
    + (if gang then 2 ^ 179 else 0) + (if t.bound.isSome then 2 ^ 180 else 0)
    + (stopDark t).nstore * 2 ^ 184 + (stopDark t).nchw * 2 ^ 199 + (stopDark t).ncmd * 2 ^ 208 + t.tid.toNat % 2 ^ 32 * 2 ^ 224

theorem stopBytes_eq (t : Task) (reason darkend short : Nat) (gang : Bool) :
    stopBytes t reason darkend short gang = bytesOfNat 32 (stopNat t reason darkend short gang) := rfl

theorem stopNat_eq_pack {t : Task} {reason darkend : Nat} (short : Nat) (gang : Bool) (hm : (stopDark t).meter < 2 ^ 32) (hb : t.budget < 2 ^ 32)
    (hr : reason < 2 ^ 8) (hd : darkend < 2 ^ 3) (hl : t.lvl < 4) (hs : (stopDark t).nstore < 2 ^ 15) (hc : (stopDark t).nchw < 2 ^ 9)
    (hn : (stopDark t).ncmd < 2 ^ 5) : stopNat t reason darkend short gang = pack (stopFields t reason darkend short gang) := by
  have hsh : short % 2 ^ 32 < 2 ^ 32 := Nat.mod_lt _ (by norm_num)
  have htid : t.tid.toNat % 2 ^ 32 < 2 ^ 32 := Nat.mod_lt _ (by norm_num)
  have hgid : t.gid.toNat % 16 < 2 ^ 4 := Nat.mod_lt _ (by norm_num)
  simp only [stopNat, stopFields, pack, BitVec.toNat_ofNat, Nat.mod_eq_of_lt hm, Nat.mod_eq_of_lt hb, Nat.mod_eq_of_lt hr, Nat.mod_eq_of_lt hd,
    Nat.mod_eq_of_lt (show t.lvl < 2 ^ 2 from hl), Nat.mod_eq_of_lt hs, Nat.mod_eq_of_lt hc, Nat.mod_eq_of_lt hn, Nat.mod_eq_of_lt hsh,
    Nat.mod_eq_of_lt htid, Nat.mod_eq_of_lt hgid, ite_eq_ofBool_mul, Nat.zero_mod]
  ring

theorem natOfBytes_stopBytes {t : Task} {reason darkend : Nat} (short : Nat) (gang : Bool) (hm : (stopDark t).meter < 2 ^ 32) (hb : t.budget < 2 ^ 32)
    (hr : reason < 2 ^ 8) (hd : darkend < 2 ^ 3) (hl : t.lvl < 4) (hs : (stopDark t).nstore < 2 ^ 15) (hc : (stopDark t).nchw < 2 ^ 9)
    (hn : (stopDark t).ncmd < 2 ^ 5) : natOfBytes (stopBytes t reason darkend short gang) = pack (stopFields t reason darkend short gang) := by
  rw [stopBytes_eq, natOfBytes_bytesOfNat, stopNat_eq_pack short gang hm hb hr hd hl hs hc hn, Nat.mod_eq_of_lt (pack_lt (n := 8 * 32) rfl)]

/-- Each field of a stop record stands at its place. -/
theorem stopBytes_fields (t : Task) (reason darkend short : Nat) (gang : Bool) : let d := stopDark t
    d.meter < 2 ^ 32 → t.budget < 2 ^ 32 → reason < 2 ^ 8 → darkend < 2 ^ 3 → t.lvl < 4 → d.nstore < 2 ^ 15 → d.nchw < 2 ^ 9 → d.ncmd < 2 ^ 5 →
    let w := natOfBytes (stopBytes t reason darkend short gang)
    let flag (b : Bool) : Nat := if b then 1 else 0
    (stopBytes t reason darkend short gang).length = 32 ∧ bits w 0 64 = d.pc.toNat ∧ bits w 64 32 = d.meter ∧ bits w 96 32 = t.budget ∧
    bits w 128 32 = short % 2 ^ 32 ∧ bits w 160 8 = reason ∧ bits w 168 3 = darkend ∧ bits w 171 1 = flag t.measured ∧ bits w 172 1 = flag t.smf ∧
    bits w 173 2 = t.lvl ∧ bits w 175 4 = t.gid.toNat % 16 ∧ bits w 179 1 = flag gang ∧ bits w 180 1 = flag t.bound.isSome ∧ bits w 181 3 = 0 ∧
    bits w 184 15 = d.nstore ∧ bits w 199 9 = d.nchw ∧ bits w 208 5 = d.ncmd ∧ bits w 213 11 = 0 ∧ bits w 224 32 = t.tid.toNat % 2 ^ 32 := by
  intro d hm hb hr hd hl hs hc hn w flag
  have hw : w = pack (stopFields t reason darkend short gang) := natOfBytes_stopBytes short gang hm hb hr hd hl hs hc hn
  rw [hw]
  refine ⟨length_bytesOfNat .., bits_pack 0 rfl rfl, bits_pack_ofNat 1 rfl rfl hm, bits_pack_ofNat 2 rfl rfl hb,
    bits_pack_ofNat 3 rfl rfl (Nat.mod_lt _ (by norm_num)), bits_pack_ofNat 4 rfl rfl hr, bits_pack_ofNat 5 rfl rfl hd,
    (bits_pack 6 rfl rfl).trans (toNat_ofBool_eq_ite _), (bits_pack 7 rfl rfl).trans (toNat_ofBool_eq_ite _), bits_pack_ofNat 8 rfl rfl hl,
    bits_pack_ofNat 9 rfl rfl (Nat.mod_lt _ (by norm_num)), (bits_pack 10 rfl rfl).trans (toNat_ofBool_eq_ite _),
    (bits_pack 11 rfl rfl).trans (toNat_ofBool_eq_ite _), bits_pack_ofNat 12 rfl rfl (by norm_num), bits_pack_ofNat 13 rfl rfl hs, bits_pack_ofNat 14 rfl rfl hc,
    bits_pack_ofNat 15 rfl rfl hn, bits_pack_ofNat 16 rfl rfl (by norm_num), bits_pack_ofNat 17 rfl rfl (Nat.mod_lt _ (by norm_num))⟩

end Sys2Proof.Machine

end

section

namespace Sys2Proof.Machine

/-! ## What translations and writes leave unchanged -/

/-- A state that differs in its ports at most. -/
def PortsOnly (s u : State) : Prop := ∃ ps, u = { s with ports := ps }

theorem PortsOnly.refl (s : State) : PortsOnly s s := ⟨s.ports, rfl⟩

theorem PortsOnly.trans {s u v : State} (h : PortsOnly s u) (g : PortsOnly u v) : PortsOnly s v := by
  obtain ⟨p, rfl⟩ := h
  obtain ⟨q, rfl⟩ := g
  exact ⟨q, rfl⟩

/-- The state an access of an engine or of the device leaves. -/
def Reach.state : Reach → State
  | .ok _ s => s
  | .pageFault _ _ _ s => s
  | .prot _ s => s
  | .data _ s => s

theorem State.xlateOf_portsOnly (s : State) (port cx : Nat) (as : List Nat) (va acc : Nat) : PortsOnly s (s.xlateOf port cx as va acc).2 := by
  unfold State.xlateOf
  split
  · exact ⟨_, rfl⟩
  · exact .refl s
  · split
    · exact ⟨_, rfl⟩
    · exact .refl s

theorem State.reachPieces_portsOnly (s : State) (port cx acc : Nat) (as : List Nat) (ps : List (Nat × Nat)) :
    PortsOnly s (s.reachPieces port cx acc as ps).state := by
  induction ps generalizing s with
  | nil => exact .refl s
  | cons p ps ih =>
    have hx := s.xlateOf_portsOnly port cx as p.1 acc
    unfold State.reachPieces
    split
    · next e s' he =>
      rw [he] at hx
      have hi := hx.trans (ih s')
      split
      · next hk => rw [hk] at hi; exact hi
      · exact hi
    · next he => rw [he] at hx; exact hx
    · next he => rw [he] at hx; exact hx
    · next he => rw [he] at hx; exact hx

theorem State.reach_portsOnly (s : State) (port cx a n acc : Nat) : PortsOnly s (s.reach port cx a n acc).state := by
  have h := s.reachPieces_portsOnly port cx acc ((pagesOf a n).map Prod.fst) (pagesOf a n)
  unfold State.reach
  dsimp only
  split
  · next ks s' hk =>
    rw [hk] at h
    exact h.trans (s'.reachPieces_portsOnly ..)
  · exact h

theorem State.reach_ok_portsOnly {s s' : State} {port cx a n acc : Nat} {ks : List (Nat × Nat)} (h : s.reach port cx a n acc = .ok ks s') :
    PortsOnly s s' := by
  have hp := s.reach_portsOnly port cx a n acc
  rw [h] at hp
  exact hp

/-- The state a write of the device leaves. -/
def Dev.state : Dev → State
  | .ok s => s
  | .data _ s => s
  | .pageFault _ _ _ s => s
  | .prot _ s => s

/-- No pipeline stands on a core. -/
def State.NoPipes (s : State) (core : Nat) : Prop := ∀ e ∈ s.ctxs, ∀ p ∈ e.2.pipes, p.core ≠ core

theorem mem_putT {α : Type} {t : Tbl α} {k : Nat} {x : α} {e : Nat × α} (h : e ∈ putT t k x) : e ∈ t ∨ e = (k, x) := by
  induction t with
  | nil => exact .inr (List.mem_singleton.mp h)
  | cons a t ih =>
    unfold putT at h
    split at h
    · rcases List.mem_cons.mp h with rfl | h
      · exact .inr rfl
      · exact .inl (List.mem_cons_of_mem _ h)
    · rcases List.mem_cons.mp h with rfl | h
      · exact .inl (List.mem_cons_self ..)
      · exact (ih h).imp_left (List.mem_cons_of_mem _)

theorem mem_of_findT {α : Type} {t : Tbl α} {k : Nat} {x : α} (h : findT t k = some x) : (k, x) ∈ t := by
  induction t with
  | nil => cases h
  | cons a t ih =>
    obtain ⟨j, y⟩ := a
    unfold findT at h
    split at h
    · next hj =>
      cases h
      rw [hj]
      exact List.mem_cons_self ..
    · exact List.mem_cons_of_mem _ (ih h)

/-- A context replaced by one with the same pipelines. -/
theorem State.NoPipes.setCtx {s : State} {core cx : Nat} {x y : Ctx} (h : s.NoPipes core) (hx : s.ctx cx = some x) (hy : y.pipes = x.pipes) :
    (s.setCtx cx y).NoPipes core := by
  intro e he p hp
  rcases mem_putT he with he | rfl
  · exact h e he p hp
  · exact h (cx, x) (mem_of_findT hx) p (hy ▸ hp)

theorem State.NoPipes.fault {s : State} {core : Nat} (h : s.NoPipes core) (cx cls d c row a pc : Nat) (l : List Nat) :
    (s.fault cx cls d c row a pc l).NoPipes core := by
  unfold State.fault
  split
  · exact h
  · next x hx =>
    split
    · exact h.setCtx hx rfl
    · exact h.setCtx hx rfl

theorem State.NoPipes.write {s : State} {core : Nat} (h : s.NoPipes core) (k : Nat) (bs : List Byte) : (s.write k bs).NoPipes core := by
  have hfold (v : State) (l : List (Nat × Ctx)) (u : State) (hu : u.NoPipes core) :
      (l.foldl (fun u e => (v.badWait k bs.length e.2).elim u fun a => u.fault e.1 12 0 63 15 a 0 []) u).NoPipes core := by
    induction l generalizing u with
    | nil => exact hu
    | cons e l ih =>
      refine ih _ ?_
      dsimp only
      cases v.badWait k bs.length e.2 with
      | none => exact hu
      | some a => exact hu.fault _ _ _ _ _ _ _ _
  unfold State.write
  dsimp only
  split
  · refine hfold _ _ _ fun e he p hp => ?_
    obtain ⟨e', he', rfl⟩ := List.mem_map.mp he
    exact h e' he' p hp
  · exact h

theorem State.NoPipes.puts {s : State} {core : Nat} (h : s.NoPipes core) (ks : List (Nat × Nat)) (bs : List Byte) : (s.puts ks bs).NoPipes core := by
  induction ks generalizing s bs with
  | nil => exact h
  | cons e ks ih => exact ih (h.write _ _) _

theorem PortsOnly.noPipes {s u : State} {core : Nat} (hp : PortsOnly s u) (h : s.NoPipes core) : u.NoPipes core := by
  obtain ⟨ps, rfl⟩ := hp
  exact h

theorem State.noPipes_iff (s : State) (core : Nat) : s.pipesOn core = [] ↔ s.NoPipes core := by
  unfold State.pipesOn State.NoPipes
  simp

/-- A core without pipelines has no work for its Front. -/
theorem State.frontCore_noPipes {s : State} {core : Nat} (h : s.NoPipes core) : s.frontCore core = s := by
  have hpipes := (s.noPipes_iff core).mpr h
  have hwait : s.waiting core = [] := by
    unfold State.waiting
    simp only [List.flatMap_eq_nil_iff]
    intro e he p hp
    rw [if_neg (h e he p hp)]
  have hpump : s.pump core 4 = s := by
    unfold State.pump
    rw [hwait]
    split <;> rfl
  unfold State.frontCore
  rw [hpipes, List.foldl_nil]
  dsimp only
  rw [hpump, State.recordsOn, hpipes, List.foldl_nil]

theorem State.freeRowGo_noPipes {s : State} {r : Nat} (h : s.NoPipes (r / 12)) : s.freeRowGo r = s.freeRow r :=
  State.frontCore_noPipes h

theorem State.task_ungated (s : State) (r : Nat) : ((s.setTask r none).modRow r fun w => { w with gated := false }).task r = none := by
  simp [State.task, State.modRow]

theorem State.task_freeRow (s : State) (r : Nat) : (s.freeRow r).task r = none := by
  exact State.task_ungated { s with seen := s.seen.filter fun e => e.1 != r && e.2 != r } r

theorem State.tally_part (s : State) (cx : Nat) (b : Bool) (m n p : Nat) : (s.tally cx b m n).part p = s.part p := by
  unfold State.tally State.modCtx
  split
  · split <;> rfl
  · rfl

theorem State.shortOf_state (s : State) (t : Task) (darkend : Nat) : (s.shortOf t darkend).2 = s := by
  unfold State.shortOf
  split
  · split
    · rfl
    · split <;> rfl
  · rfl

/-- The end of a task that nothing waits for: its record, and its row. -/
theorem State.finishStop_plain {s : State} {t : Task} {x : Ctx} (reason darkend : Nat) (hx : s.ctx t.cx = some x) (hslog : x.setup.slog ≠ 0) (hg : t.grp = none)
    (hh : t.handles = []) (hb : t.bound = none) (hs : t.stage = none) (hp : t.pkt = none) (hr : t.receipt = false) :
    s.finishStop t reason darkend =
      (s.devWriteAt (t.core / 8) t.cx 1 x.setup.sring (stopBytes t reason darkend (s.shortOf t darkend).1 false)).freeRowGo t.row := by
  have hgang : s.cancels t = false := by simp [State.cancels, hx, hg]
  unfold State.finishStop
  simp only [hgang, hx, Option.map_some, if_neg hslog, State.shortOf_state]
  simp [hg, hb, hs, hp, hr, State.memberEnded, State.releaseHandles, hh, State.ended]

/-! ## The write of a stop record (R81) -/

theorem bytesOfNat_congr {n v w : Nat} (h : v % 2 ^ (8 * n) = w % 2 ^ (8 * n)) : bytesOfNat n v = bytesOfNat n w := by
  induction n generalizing v w with
  | zero => rfl
  | succ n ih =>
    have hpow : 2 ^ (8 * (n + 1)) = 256 * 2 ^ (8 * n) := by rw [Nat.mul_succ, Nat.pow_add, Nat.mul_comm]
    rw [hpow] at h
    have hlow : v % 256 = w % 256 := by rw [← Nat.mod_mul_right_mod v 256 (2 ^ (8 * n)), h, Nat.mod_mul_right_mod]
    have hhigh : v / 256 % 2 ^ (8 * n) = w / 256 % 2 ^ (8 * n) := by rw [← Nat.mod_mul_right_div_self, h, Nat.mod_mul_right_div_self]
    simp only [bytesOfNat]
    rw [ih hhigh]
    exact congrArg (· :: _) (BitVec.eq_of_toNat_eq (by simpa using hlow))

/-- The header of a stop ring: what has been written, what has been read, what was lost, and the bits above. -/
def stopHead (h written lost : Nat) : List Byte := bytesOfNat 24 (written + bits h 64 64 * 2 ^ 64 + lost * 2 ^ 128 + bits h 160 32 * 2 ^ 160)

theorem stopHead_full (h : Nat) : bytesOfNat 24 (h % 2 ^ 128 + sat32 (bits h 128 32 + 1) * 2 ^ 128 + bits h 160 32 * 2 ^ 160) =
    stopHead h (bits h 0 64) (min (bits h 128 32 + 1) (2 ^ 32 - 1)) := by
  have hlow : h % 2 ^ 128 = bits h 0 64 + bits h 64 64 * 2 ^ 64 := by
    simp only [bits]
    omega
  rw [stopHead, hlow, sat32]

theorem stopHead_room (h : Nat) :
    bytesOfNat 24 ((bits h 0 64 + 1) % 2 ^ 64 + h / 2 ^ 64 * 2 ^ 64) = stopHead h ((bits h 0 64 + 1) % 2 ^ 64) (bits h 128 32) := by
  refine bytesOfNat_congr ?_
  simp only [bits]
  generalize (h / 2 ^ 0 % 2 ^ 64 + 1) % 2 ^ 64 = w
  omega

section
variable {s s2 s3 : State} {die cx va : Nat} {x : Ctx} {ks rs : List (Nat × Nat)} {bs : List Byte}

/-- A stop record that is lost, its ring full. -/
theorem State.devWriteAt_stop_full (hw : s.pendW = []) (hx : s.ctx cx = some x) (hr : s.reach (ctxPort die) cx va 24 3 = .ok ks s2)
    (hp : s2.poisonIn va ks = none)
    (hfull : (bits (natOfBytes (s2.gets ks)) 0 64 + 2 ^ 64 - bits (natOfBytes (s2.gets ks)) 64 64) % 2 ^ 64 = 2 ^ x.setup.slog) :
    s.devWriteAt die cx 1 va bs = s2.puts ks (stopHead (natOfBytes (s2.gets ks)) (bits (natOfBytes (s2.gets ks)) 0 64)
      (min (bits (natOfBytes (s2.gets ks)) 128 32 + 1) (2 ^ 32 - 1))) := by
  have hstop : s.devStop die cx va bs = .ok (s2.puts ks (bytesOfNat 24 (natOfBytes (s2.gets ks) % 2 ^ 128
      + sat32 (bits (natOfBytes (s2.gets ks)) 128 32 + 1) * 2 ^ 128 + bits (natOfBytes (s2.gets ks)) 160 32 * 2 ^ 160))) := by
    unfold State.devStop
    simp only [hr, hp, hx, Option.map_some, Option.getD_some]
    exact if_pos hfull
  rw [State.devWriteAt, hw, List.find?_nil]
  dsimp only
  rw [State.devTry, if_pos rfl, hstop, stopHead_full]

/-- A stop record that is written, its ring not full. -/
theorem State.devWriteAt_stop_room (hw : s.pendW = []) (hx : s.ctx cx = some x) (hr : s.reach (ctxPort die) cx va 24 3 = .ok ks s2)
    (hp : s2.poisonIn va ks = none)
    (hroom : (bits (natOfBytes (s2.gets ks)) 0 64 + 2 ^ 64 - bits (natOfBytes (s2.gets ks)) 64 64) % 2 ^ 64 ≠ 2 ^ x.setup.slog)
    (hrec : s2.reach (ctxPort die) cx (va + 64 + 32 * (bits (natOfBytes (s2.gets ks)) 0 64 % 2 ^ x.setup.slog)) 32 3 = .ok rs s3) :
    s.devWriteAt die cx 1 va bs = (s3.puts rs bs).puts ks (stopHead (natOfBytes (s2.gets ks)) ((bits (natOfBytes (s2.gets ks)) 0 64 + 1) % 2 ^ 64)
      (bits (natOfBytes (s2.gets ks)) 128 32)) := by
  have hstop : s.devStop die cx va bs = .ok ((s3.puts rs bs).puts ks
      (bytesOfNat 24 ((bits (natOfBytes (s2.gets ks)) 0 64 + 1) % 2 ^ 64 + natOfBytes (s2.gets ks) / 2 ^ 64 * 2 ^ 64))) := by
    unfold State.devStop
    simp only [hr, hp, hx, Option.map_some, Option.getD_some]
    exact (if_neg hroom).trans (by rw [hrec])
  rw [State.devWriteAt, hw, List.find?_nil]
  dsimp only
  rw [State.devTry, if_pos rfl, hstop]
  dsimp only
  rw [stopHead_room]

/-- What an access to a stop ring leaves, however it ends. -/
theorem State.devStop_noPipes {core : Nat} (h : s.NoPipes core) : (s.devStop die cx va bs).state.NoPipes core := by
  have hreach (u : State) (hu : u.NoPipes core) (a n : Nat) : (u.reach (ctxPort die) cx a n 3).state.NoPipes core :=
    (u.reach_portsOnly (ctxPort die) cx a n 3).noPipes hu
  have h1 := hreach s h va 24
  unfold State.devStop
  dsimp only
  generalize s.reach (ctxPort die) cx va 24 3 = x at h1
  cases x with
  | pageFault | prot | data => exact h1
  | ok ks u =>
    dsimp only
    split
    · exact h1
    · split
      · exact State.NoPipes.puts h1 _ _
      · have h2 := hreach u h1 (va + 64 + 32 * (bits (natOfBytes (u.gets ks)) 0 64 % 2 ^ ((s.ctx cx).map fun x => x.setup.slog).getD 0)) 32
        generalize u.reach (ctxPort die) cx _ 32 3 = y at h2
        cases y with
        | pageFault | prot | data => exact h2
        | ok rs v => exact (State.NoPipes.puts h2 _ _).puts _ _

/-- A stop record written or lost puts no pipeline on a core. -/
theorem State.devWriteAt_stop_noPipes {core : Nat} (h : s.NoPipes core) (hw : s.pendW = []) : (s.devWriteAt die cx 1 va bs).NoPipes core := by
  have hstop := State.devStop_noPipes (die := die) (cx := cx) (va := va) (bs := bs) h
  have htry : s.devTry die cx 1 va bs = s.devStop die cx va bs := if_pos rfl
  rw [State.devWriteAt, hw, List.find?_nil]
  dsimp only
  rw [htry]
  generalize s.devStop die cx va bs = x at hstop
  cases x with
  | ok u => exact hstop
  | prot a u => exact State.NoPipes.fault hstop _ _ _ _ _ _ _ _
  | data a u => exact State.NoPipes.fault hstop _ _ _ _ _ _ _ _
  | pageFault a st l u => exact hstop

end

end Sys2Proof.Machine

namespace Sys2Proof.Safety

open Sys2Proof.Machine

/-- Settles O13: a charge by `State.pay`'s cases, a stop record by its fields, its write by the room in its ring. -/
theorem chargeStep : Obligations.ChargeStep := by
  unfold Obligations.ChargeStep
  refine ⟨fun s r t n body hr ht => ?_, stopBytes_fields, fun s s1 s2 s3 t x reason darkend short ks rs => ⟨fun hd => ?_, fun d hd hk hb => ?_, ?_⟩⟩
  · have hshort (hp : s.pay t n = .short s) : s.runTask (fun _ => n) body = .next (s.stopTask t .shortfall) := by
      refine (State.onRow_row _ hr ht).trans ?_
      simp only [State.issue, hp]
    have hend {k : Nat} (hp : s.pay t n = .darkEnd k) : s.runTask (fun _ => n) body = .next (s.finishStop t 1 k) := by
      refine (State.onRow_row _ hr ht).trans ?_
      simp only [State.issue, hp]
    refine ⟨s.pay_charged t n, fun ⟨hc, hd, hm⟩ => ⟨fun hn => ?_, fun hn hf => ?_, fun hn hf => ?_⟩, fun d hc hd => ⟨fun hn => ?_, fun ⟨hn, hl⟩ => ?_, fun ⟨hn, hl⟩ => ?_⟩⟩
    · simp [State.pay, hc, hd, hm, hn]
    · rw [hshort (by simp [State.pay, hc, hd, hm, hn])]
      simp [State.stopTask, hd, hf, Stop.code]
    · rw [hshort (by simp [State.pay, hc, hd, hm, hn])]
      simp [State.stopTask, hd, hf, hm]
    · exact hend (by simp [State.pay, hc, hd, hn])
    · exact hend (by simp [State.pay, hc, hd, not_lt.mpr hn, State.debit, hl])
    · refine ⟨(s.modPart (partOf t.cx) fun x => { x with plevel := x.plevel - (cdiv (t.meter + n - d.base) 64 - d.drawn) }).tally t.cx t.receipt
        (cdiv (t.meter + n - d.base) 64 - d.drawn) 0, by simp [State.pay, hc, hd, not_lt.mpr hn, State.debit, not_lt.mpr hl], ?_⟩
      rw [State.tally_part]
      simp [State.modPart]
  · simp only [State.shortOf, hd]
  · simp only [State.shortOf, hd]
    rw [if_neg hk, if_neg (not_lt.mpr hb)]
  · intro hsh hw hx hslog hg hh hb hs hp hr hpipes base n hreach hpoison h written read lost u head
    have hs1 : s1 = s := by rw [← s.shortOf_state t darkend, hsh]
    have hshort : (s.shortOf t darkend).1 = short := by rw [hsh]
    subst hs1
    have hno := (s1.noPipes_iff (t.row / 12)).mp hpipes
    have hu : u = (s1.devWriteAt (t.core / 8) t.cx 1 base (stopBytes t reason darkend short false)).freeRow t.row := by
      rw [← hshort]
      exact (State.finishStop_plain reason darkend hx hslog hg hh hb hs hp hr).trans
        (State.freeRowGo_noPipes (State.devWriteAt_stop_noPipes hno hw))
    refine ⟨by rw [hu, State.task_freeRow], fun hfull => ?_, fun hroom hrec => ?_⟩
    · rw [hu, State.devWriteAt_stop_full hw hx hreach hpoison hfull]
      rfl
    · rw [hu, State.devWriteAt_stop_room hw hx hreach hpoison hroom hrec]
      rfl

end Sys2Proof.Safety

end

section

/-! SUPPORT. The data error that an exit's atomic meets in a wait of its own context (O20): the atomic's location is not poisoned, but the word that the
context's ring waits on reaches into a granule that is. The write gives that wait its data error, so the commit goes on under a context fault. -/

namespace Sys2Proof.Safety

open Sys2Proof.Machine

/-- A context whose ring waits on the eight bytes from location 252. -/
def waitingCtx : Ctx :=
  { Ctx.create Setup.ctx0 chain00 with cur := some ⟨0, ⟨0, 0, 0, false, false⟩, 0, true, some 252, 0, false, false, none, none, none, none⟩ }

/-- The machine after reset, with that context, and the granule from location 256 poisoned. -/
def straddled : State := { State.reset with ctxs := [(0, waitingCtx)], poison := [1] }

/-- An atomic on the four bytes from location 252, with a successor. -/
def amoCommit : Commit := ⟨.amo 5 0 4 252 1 252, 5, [], [], [], [], 0, none, .none, [], 0⟩

/-- The successors that a commit has still to enqueue, of the task on row 0. -/
def succsLeft (s : State) : Option (List (Nat × Word)) := (s.task 0).bind fun t => t.commit.map fun c => c.succ

theorem straddled_succsLeft : succsLeft (straddled.commitAct placeTask amoCommit) = some [] := by decide +kernel

/-- Refutes O20: where the write of the exit's atomic gives a wait of its own context a data error, the commit names no successor. -/
theorem not_exits : ¬ Obligations.Exits := by
  unfold Obligations.Exits
  rintro ⟨-, -, h, -⟩
  obtain ⟨-, -, hamo, -⟩ := h straddled placeTask amoCommit rfl (by decide +kernel) (by decide +kernel)
  obtain ⟨u, hu, -, -, htask⟩ := (hamo 5 0 4 252 1 252 rfl).1 (by decide +kernel) (by decide +kernel)
  have hsuccs : succsLeft u = some [(0, 5)] := by
    rw [succsLeft, show (0 : Nat) = placeTask.row from rfl, htask]
    rfl
  rw [← hu, straddled_succsLeft] at hsuccs
  exact absurd hsuccs (by decide)

end Sys2Proof.Safety

end

section

namespace Sys2Proof.Machine

/-! ## The three scalar formats -/

/-- The formats of the scalar operations are binary interchange formats with a sign bit. -/
theorem fmOf_eq_ieee (w : Nat) : ∃ p lo hi b, fmOf w = .ieee p lo hi (b + 1) ∧ 2 ≤ p ∧ p ≤ b := by
  unfold fmOf
  split
  · exact ⟨24, -149, 104, 31, rfl, by norm_num, by norm_num⟩
  · split
    · exact ⟨11, -24, 5, 15, rfl, by norm_num, by norm_num⟩
    · exact ⟨8, -133, 120, 15, rfl, by norm_num, by norm_num⟩

theorem fmOf_roundInf (w : Nat) (n : Bool) : (fmOf w).roundInf n = ((fmOf w).infBits n, 0) := by
  obtain ⟨p, lo, hi, b, h, -⟩ := fmOf_eq_ieee w
  rw [h]
  rfl

/-- Zero is rounded to the zero of its sign. -/
theorem fmOf_round_zero (w : Nat) (rm : Rm) (n : Bool) (e : Int) :
    (fmOf w).round rm n 0 e false = (if n then 2 ^ ((fmOf w).width - 1) else 0, 0) := by
  obtain ⟨p, lo, hi, b, h, -⟩ := fmOf_eq_ieee w
  rw [h]
  simp [Fm.round, Fm.width]

theorem fmOf_roundVal_inf (w : Nat) (rm : Rm) (n : Bool) : (fmOf w).roundVal rm (.inf n) = ((fmOf w).infBits n, 0) := fmOf_roundInf w n

theorem fmOf_roundVal_zero (w : Nat) (rm : Rm) (n : Bool) (e : Int) :
    (fmOf w).roundVal rm (.fin n 0 e) = (if n then 2 ^ ((fmOf w).width - 1) else 0, 0) := fmOf_round_zero w rm n e

/-! ## Operations on classes of operands -/

section
variable {f : Fm} {X Y : FVal} {go : Nat × Fl}

theorem binop_nan (h : (X.isNaN || Y.isNaN) = true) : binop f X Y go = (f.qnan, flIf (X.isSig || Y.isSig) flNV) := if_pos h

theorem binop_number (hx : X.isNaN = false) (hy : Y.isNaN = false) : binop f X Y go = go := if_neg (by simp [hx, hy])

end

section
variable {f : Fm} {rm : Rm} {x y : Nat}

/-- A sum of numbers. -/
theorem fAdd_of_values {X Y : FVal} (hx : f.value x = X) (hy : f.value y = Y) (hX : X.isNaN = false) (hY : Y.isNaN = false) :
    fAdd f rm x y = orInvalid f rm (addVal rm X Y) := by
  subst hx hy
  exact binop_number hX hY

theorem fSub_of_values {X Y : FVal} (hx : f.value x = X) (hy : f.value y = Y) (hX : X.isNaN = false) (hY : Y.isNaN = false) :
    fSub f rm x y = orInvalid f rm (addVal rm X Y.flip) := by
  subst hx hy
  exact binop_number hX hY

theorem fMul_of_values {X Y : FVal} (hx : f.value x = X) (hy : f.value y = Y) (hX : X.isNaN = false) (hY : Y.isNaN = false) :
    fMul f rm x y = orInvalid f rm (mulVal X Y) := by
  subst hx hy
  exact binop_number hX hY

end

/-- The sum of a number and its opposite. -/
theorem addFin_opposite (rm : Rm) (n : Bool) {m : Nat} (e : Int) (hm : m ≠ 0) : addFin rm n m e (!n) m e = .fin (rm == .mode 3) 0 0 := by
  have hzero : signed n m * 2 ^ (e - min e e).toNat + signed (!n) m * 2 ^ (e - min e e).toNat = 0 := by cases n <;> simp [signed]
  unfold addFin
  simp only [hzero, if_true, hm, false_and, if_false]

/-- The sum of zeros. -/
theorem addFin_zeros (rm : Rm) (n k : Bool) (e g : Int) : addFin rm n 0 e k 0 g = .fin (if n = k then n else rm == .mode 3) 0 0 := by
  have hzero (s : Bool) : signed s 0 = 0 := by cases s <;> rfl
  unfold addFin
  simp only [hzero, zero_mul, add_zero, if_true, true_and]

/-! ## Fused multiply-add -/

section
variable {f : Fm} {rm : Rm} {x y z : Nat} {X Y V : FVal}

/-- An addition to a product that is valid. -/
theorem fFma_of_values (hx : f.value x = X) (hy : f.value y = Y) (hv : mulVal X Y = some V)
    (hi : ((X.isZero && Y.isInf) || (X.isInf && Y.isZero)) = false) (hX : X.isNaN = false) (hY : Y.isNaN = false) (hZ : (f.value z).isNaN = false) :
    fFma f rm x y z = orInvalid f rm (addVal rm V (f.value z)) := by
  subst hx hy
  rw [fFma, fFmaVal, if_neg (by simp [hi]), if_neg (by simp [hX, hY, hZ]), hv]

theorem isNaN_of_inf {n : Bool} (hz : f.value z = .inf n) : (f.value z).isNaN = false := by
  rw [hz]
  rfl

theorem mulVal_infs (n k : Bool) : mulVal (.inf n) (.inf k) = some (.inf (n != k)) := rfl

theorem mulVal_inf_fin (n k : Bool) {m : Nat} (e : Int) (hm : m ≠ 0) : mulVal (.inf n) (.fin k m e) = some (.inf (n != k)) := if_neg hm

theorem mulVal_fin_inf (n k : Bool) {m : Nat} (e : Int) (hm : m ≠ 0) : mulVal (.fin k m e) (.inf n) = some (.inf (n != k)) := by
  cases n <;> cases k <;> exact if_neg hm

theorem addVal_inf_opposite {n k : Bool} (hz : f.value z = .inf (n == k)) : orInvalid f rm (addVal rm (.inf (n != k)) (f.value z)) = (f.qnan, flNV) := by
  rw [hz]
  cases n <;> cases k <;> rfl

end

theorem addVal_inf_other (w : Nat) {rm : Rm} {z : Nat} {n k : Bool} (hz : ((fmOf w).value z).isNaN = false) (hne : (fmOf w).value z ≠ .inf (n == k)) :
    orInvalid (fmOf w) rm (addVal rm (.inf (n != k)) ((fmOf w).value z)) = ((fmOf w).infBits (n != k), 0) := by
  rw [← fmOf_roundInf]
  generalize (fmOf w).value z = Z at hz hne
  cases Z with
  | nan g => cases hz
  | fin i m e => rfl
  | inf i =>
    have hi : (n != k) = i := by cases n <;> cases k <;> cases i <;> simp_all
    rw [addVal, if_pos hi]
    rfl

/-! ## The classes of bit patterns -/

/-- The class of a pattern of a binary interchange format, by its sign, exponent and fraction. -/
theorem fClass_ieee {p b : Nat} {lo hi : Int} (hp : 2 ≤ p) (hpb : p ≤ b) (x : Nat) : fClass (.ieee p lo hi (b + 1)) x =
    if x / 2 ^ (p - 1) % 2 ^ (b + 1 - p) = 2 ^ (b + 1 - p) - 1 then
      (if x % 2 ^ (p - 1) = 0 then (if x.testBit b then 0 else 7) else if x % 2 ^ (p - 1) < 2 ^ (p - 2) then 8 else 9)
    else if x / 2 ^ (p - 1) % 2 ^ (b + 1 - p) = 0 then
      (if x % 2 ^ (p - 1) = 0 then (if x.testBit b then 3 else 4) else if x.testBit b then 2 else 5)
    else if x.testBit b then 1 else 6 := by
  obtain ⟨q, rfl⟩ : ∃ q, p = q + 2 := ⟨p - 2, by omega⟩
  obtain ⟨k, rfl⟩ : ∃ k, b = q + 2 + k := ⟨b - (q + 2), by omega⟩
  have hk : q + 2 + k + 1 - (q + 2) = k + 1 := by omega
  have hq1 : q + 2 - 1 = q + 1 := by omega
  have hq2 : q + 2 - 2 = q := by omega
  have hsign : (x / 2 ^ (q + 2 + k) % 2 == 1) = x.testBit (q + 2 + k) := by rw [Nat.testBit_eq_decide_div_mod_eq]; rfl
  have hmag : x % 2 ^ (q + 2 + k) = 2 ^ (q + 1) * (x / 2 ^ (q + 1) % 2 ^ (k + 1)) + x % 2 ^ (q + 1) := by
    rw [show q + 2 + k = (q + 1) + (k + 1) by omega, Nat.pow_add, Nat.mod_mul, Nat.add_comm]
  generalize hE : x / 2 ^ (q + 1) % 2 ^ (k + 1) = e at hmag
  have he : e < 2 ^ (k + 1) := hE ▸ Nat.mod_lt _ (Nat.two_pow_pos _)
  generalize hF : x % 2 ^ (q + 1) = fr at hmag
  have hfr : fr < 2 ^ (q + 1) := hF ▸ Nat.mod_lt _ (Nat.two_pow_pos _)
  simp only [fClass, Fm.value, Nat.add_sub_cancel, hsign, hmag, hk, hq1, hq2, hE, hF, Fm.p]
  generalize x.testBit (q + 2 + k) = sg
  generalize hT : 2 ^ (k + 1) = T at he ⊢
  have hT0 : 0 < T := hT ▸ Nat.two_pow_pos _
  have hq2p : 2 ^ (q + 1) = 2 * 2 ^ q := by rw [Nat.pow_succ, Nat.mul_comm]
  have hP0 : 0 < 2 ^ q := Nat.two_pow_pos q
  have hbit : (2 ^ (q + 1) * e + fr) / 2 ^ q % 2 = fr / 2 ^ q := by
    rw [hq2p, Nat.mul_assoc, Nat.mul_left_comm, Nat.mul_add_div hP0, Nat.mul_add_mod]
    exact Nat.mod_eq_of_lt ((Nat.div_lt_iff_lt_mul hP0).mpr (hq2p ▸ hfr))
  have hdiv : (2 ^ (q + 1) * e + fr) / 2 ^ (q + 1) = e := by
    rw [Nat.mul_add_div (Nat.two_pow_pos _), Nat.div_eq_of_lt hfr, Nat.add_zero]
  have hrem : (2 ^ (q + 1) * e + fr) % 2 ^ (q + 1) = fr := by rw [Nat.mul_add_mod, Nat.mod_eq_of_lt hfr]
  by_cases htop : e = T - 1
  · have hlt : ¬ 2 ^ (q + 1) * e + fr < (T - 1) * 2 ^ (q + 1) := by rw [htop, Nat.mul_comm]; omega
    have heq : (2 ^ (q + 1) * e + fr = (T - 1) * 2 ^ (q + 1)) = (fr = 0) := by rw [htop, Nat.mul_comm]; simp
    rw [if_neg hlt, if_pos htop, hbit]
    simp only [heq]
    by_cases h0 : fr = 0
    · simp [h0]
    · rw [if_neg h0, if_neg h0]
      by_cases hs : fr < 2 ^ q
      · simp [hs, Nat.div_eq_of_lt hs]
      · have : fr / 2 ^ q ≠ 0 := fun h => hs ((Nat.div_eq_zero_iff_lt hP0).mp h)
        simp [hs, this]
  · have hlt : 2 ^ (q + 1) * e + fr < (T - 1) * 2 ^ (q + 1) := by
      have : e + 1 ≤ T - 1 := by omega
      calc 2 ^ (q + 1) * e + fr < 2 ^ (q + 1) * (e + 1) := by rw [Nat.mul_add, Nat.mul_one]; omega
        _ ≤ (T - 1) * 2 ^ (q + 1) := by rw [Nat.mul_comm]; exact Nat.mul_le_mul_right _ this
    rw [if_pos hlt, if_neg htop]
    simp only [magVal, Fm.p, hq1, hdiv, hrem]
    by_cases h0 : e = 0
    · rw [if_pos h0, if_pos h0]
      simp [h0, hfr]
    · rw [if_neg h0, if_neg h0]
      simp

theorem fClass_fmOf (w x : Nat) : fClass (fmOf w) x =
    let s := x.testBit ((fmOf w).width - 1)
    let e := x / 2 ^ ((fmOf w).p - 1) % 2 ^ ((fmOf w).width - (fmOf w).p)
    let f := x % 2 ^ ((fmOf w).p - 1)
    if e = 2 ^ ((fmOf w).width - (fmOf w).p) - 1 then (if f = 0 then (if s then 0 else 7) else if f < 2 ^ ((fmOf w).p - 2) then 8 else 9)
    else if e = 0 then (if f = 0 then (if s then 3 else 4) else if s then 2 else 5)
    else if s then 1 else 6 := by
  obtain ⟨p, lo, hi, b, h, hp, hpb⟩ := fmOf_eq_ieee w
  rw [h]
  exact fClass_ieee hp hpb x

/-! ## Conversions to integers -/

/-- What a conversion of a number to an integer rounds its magnitude to. -/
def toIntMag (rm : Rm) (n : Bool) (m : Nat) (e : Int) : Nat :=
  if 0 ≤ e then m * 2 ^ e.toNat else if roundUp rm n (m / 2 ^ (-e).toNat) (m % 2 ^ (-e).toNat) (-e).toNat then m / 2 ^ (-e).toNat + 1 else m / 2 ^ (-e).toNat

theorem roundUp_exact (rm : Rm) (n : Bool) (h k : Nat) : roundUp rm n h 0 k = false := by
  unfold roundUp
  split <;> simp [(Nat.two_pow_pos k).ne]

/-- A magnitude of q and a rest r of k bits, rounded. -/
theorem roundUp_cases (rm : Rm) (n : Bool) (q : Nat) {r k : Nat} (hr : r < 2 ^ k) : let h := if roundUp rm n q r k then q + 1 else q
    True ∧ (r = 0 → h * 2 ^ k = 2 ^ k * q + r) ∧ (h = q ∨ h = q + 1) ∧ (rm = .mode 1 → h = q) ∧
    (rm = .mode 0 ∨ rm = .mode 4 → 2 * (h * 2 ^ k) ≤ 2 * (2 ^ k * q + r) + 2 ^ k ∧ 2 * (2 ^ k * q + r) ≤ 2 * (h * 2 ^ k) + 2 ^ k) ∧
    (rm = .mode 2 → (h = q ↔ r = 0 ∨ n = true)) ∧ (rm = .mode 3 → (h = q ↔ r = 0 ∨ n = false)) ∧
    (rm = .mode 0 → 2 * r = 2 ^ k → h % 2 = 0) ∧ (rm = .mode 4 → 2 * r = 2 ^ k → h = q + 1) := by
  intro h
  generalize hP : 2 ^ k = P at hr
  have hup : h = if roundUp rm n q r k then q + 1 else q := rfl
  have hmul : (q + 1) * P = P * q + P := by ring
  have hmul' : q * P = P * q := Nat.mul_comm ..
  refine ⟨trivial, fun h0 => ?_, ?_, fun hm => ?_, fun hm => ?_, fun hm => ?_, fun hm => ?_, fun hm h2 => ?_, fun hm h2 => ?_⟩
  · rw [hup, h0, roundUp_exact, if_neg (by simp), hmul', Nat.add_zero]
  · rw [hup]
    split
    · exact .inr rfl
    · exact .inl rfl
  · rw [hup, hm]
    rfl
  · rcases hm with hm | hm
    · rw [hup, hm, roundUp, hP]
      split
      · next hc =>
        rw [hmul]
        generalize P * q = M
        simp only [Bool.or_eq_true, decide_eq_true_eq, Bool.and_eq_true, beq_iff_eq] at hc
        omega
      · next hc =>
        rw [hmul']
        generalize P * q = M
        simp only [Bool.or_eq_true, decide_eq_true_eq, Bool.and_eq_true, beq_iff_eq, not_or] at hc
        omega
    · rw [hup, hm, roundUp, hP]
      split
      · next hc =>
        rw [hmul]
        generalize P * q = M
        rw [decide_eq_true_eq] at hc
        omega
      · next hc =>
        rw [hmul']
        generalize P * q = M
        rw [decide_eq_true_eq] at hc
        omega
  · rw [hup, hm, roundUp]
    cases n <;> by_cases h0 : r = 0 <;> simp [h0]
  · rw [hup, hm, roundUp]
    cases n <;> by_cases h0 : r = 0 <;> simp [h0]
  · rw [hup, hm, roundUp, hP, h2]
    rcases Nat.mod_two_eq_zero_or_one q with hq | hq
    · rw [if_neg (by simp [hq]), hq]
    · rw [if_pos (by simp [hq]), Nat.succ_mod_two_eq_zero_iff, hq]
  · rw [hup, hm, roundUp, hP, if_pos (by simp [h2])]

/-- The rounding of a magnitude h and a rest r of k bits, r not 0 where it is not exact. -/
theorem fToInt_cases (f : Fm) (rm : Rm) (lo hi : Int) (x : Nat) : (∀ g, f.value x = .nan g → fToInt f rm lo hi x = (0, flNV)) ∧
    (∀ n, f.value x = .inf n → fToInt f rm lo hi x = (if n then lo else hi, flNV)) ∧
    (∀ n m e, f.value x = .fin n m e → ∃ (h : Nat) (exact : Bool), let v : Int := if n then -h else h
      fToInt f rm lo hi x = (if hi < v then (hi, flNV) else if v < lo then (lo, flNV) else (v, if exact then 0 else flNX)) ∧
      (0 ≤ e → h = m * 2 ^ e.toNat ∧ exact = true) ∧
      (e < 0 → let k := (-e).toNat
        (exact = true ↔ m % 2 ^ k = 0) ∧ (exact = true → h * 2 ^ k = m) ∧ (h = m / 2 ^ k ∨ h = m / 2 ^ k + 1) ∧ (rm = .mode 1 → h = m / 2 ^ k) ∧
        (rm = .mode 0 ∨ rm = .mode 4 → 2 * (h * 2 ^ k) ≤ 2 * m + 2 ^ k ∧ 2 * m ≤ 2 * (h * 2 ^ k) + 2 ^ k) ∧
        (rm = .mode 2 → (h = m / 2 ^ k ↔ exact = true ∨ n = true)) ∧ (rm = .mode 3 → (h = m / 2 ^ k ↔ exact = true ∨ n = false)) ∧
        (rm = .mode 0 → 2 * (m % 2 ^ k) = 2 ^ k → h % 2 = 0) ∧ (rm = .mode 4 → 2 * (m % 2 ^ k) = 2 ^ k → h = m / 2 ^ k + 1))) := by
  refine ⟨fun g hx => by simp [fToInt, hx], fun n hx => by simp [fToInt, hx], fun n m e hx => ?_⟩
  by_cases he : 0 ≤ e
  · refine ⟨m * 2 ^ e.toNat, true, ?_, fun _ => ⟨rfl, rfl⟩, fun hn => absurd hn (not_lt.mpr he)⟩
    simp [fToInt, hx, he, signed, flIf]
  · generalize hk : (-e).toNat = k
    have hpos : 0 < 2 ^ k := Nat.two_pow_pos k
    have hdm : 2 ^ k * (m / 2 ^ k) + m % 2 ^ k = m := Nat.div_add_mod m (2 ^ k)
    have hr : m % 2 ^ k < 2 ^ k := Nat.mod_lt _ hpos
    refine ⟨if roundUp rm n (m / 2 ^ k) (m % 2 ^ k) k then m / 2 ^ k + 1 else m / 2 ^ k, decide (m % 2 ^ k = 0), ?_, fun h => absurd h he, fun _ => ?_⟩
    · simp only [fToInt, hx, if_neg he, hk, signed]
      by_cases hz : m % 2 ^ k = 0 <;> simp [hz, flIf]
    · simp only [decide_eq_true_eq]
      generalize m / 2 ^ k = q at hdm ⊢
      generalize m % 2 ^ k = r at hdm hr ⊢
      rw [← hdm]
      exact roundUp_cases rm n q hr

end Sys2Proof.Machine

namespace Sys2Proof.Safety

open Sys2Proof.Machine

/-- Settles O6: each clause by the class of its operands. -/
theorem floatSpecialCases : Obligations.FloatSpecialCases := by
  unfold Obligations.FloatSpecialCases
  intro w u rm x y z F G X Y Z zero sig
  refine ⟨fun h => ⟨binop_nan h, binop_nan h, binop_nan h, binop_nan h⟩, fun g hx => ?_, fun n ⟨hx, hy⟩ => ?_, fun n ⟨hx, hy⟩ => ?_,
    fun n k e ⟨hx, hy⟩ => ⟨?_, ?_⟩, fun n e k g ⟨hx, hy⟩ => ?_, fun n k ⟨hx, hy⟩ => ?_, fun h => ?_, fun n m e k g ⟨hx, hm, hy⟩ => ?_, fun n e hx => ?_,
    fun hx => ?_, fun n m e ⟨hx, hm, hy⟩ => ?_, fun n e k g ⟨hx, hy⟩ => ?_, fun ⟨hx, hy⟩ => ?_, fun ⟨hx, hy⟩ => ?_,
    fun e g ⟨hx, hy⟩ => ?_, rfl, rfl, fun h => ?_, fClass_fmOf w.toNat x, fun g hx => ?_, fun n hx => ?_, fun n m e hx => ?_, fun lo hi => ?_, ?_⟩
  · simp only [fSqrt, fRsq, show F.value x = _ from hx, and_self]
  · rw [fAdd_of_values hx hy rfl rfl]
    simp [addVal, orInvalid]
  · rw [fSub_of_values hx hy rfl rfl]
    simp [addVal, orInvalid, FVal.flip]
  · rw [fMul_of_values hx hy rfl rfl]
    rfl
  · rw [fMul_of_values hy hx rfl rfl]
    rfl
  · unfold fDiv
    rw [show F.value x = _ from hx, show F.value y = _ from hy]
    rfl
  · unfold fDiv
    rw [show F.value x = _ from hx, show F.value y = _ from hy]
    rfl
  · rcases h with hx | ⟨m, e, hx, hm⟩
    · simp [fSqrt, fRsq, show F.value x = _ from hx]
    · simp [fSqrt, fRsq, show F.value x = _ from hx, hm]
  · unfold fDiv
    rw [show F.value x = _ from hx, show F.value y = _ from hy, binop_number rfl rfl]
    simp [hm]
  · simp [fSqrt, fRsq, show F.value x = _ from hx, F, fmOf_round_zero, zero]
  · simp [fSqrt, fRsq, show F.value x = _ from hx, F, fmOf_round_zero, fmOf_roundInf]
  · rw [fAdd_of_values hx hy rfl rfl, addVal, addFin_opposite rm n e hm]
    exact fmOf_roundVal_zero ..
  · rw [fAdd_of_values hx hy rfl rfl, addVal, addFin_zeros]
    exact fmOf_roundVal_zero ..
  · have hy : Y.isNaN = false := by simpa using hy
    have hsig : flIf (Y.isSig || X.isSig) flNV = sig := by rw [Bool.or_comm]
    simp only [fMinMax, show F.value x = X from rfl, show F.value y = Y from rfl, hx, hy, hsig]
    exact ⟨rfl, rfl, rfl, rfl⟩
  · simp only [fMinMax, show F.value x = X from rfl, show F.value y = Y from rfl, hx, hy]
    exact ⟨rfl, rfl⟩
  · simp [fMinMax, fCmp, show F.value x = _ from hx, show F.value y = _ from hy, FVal.isNaN, FVal.isZero, FVal.neg, FVal.isSig, eqVal, ltVal, signed]
  · simp [fCmp, show F.value x = X from rfl, show F.value y = Y from rfl, h, flIf, sig]
  · simp [fConv, show F.value x = _ from hx, Fm.roundVal, FVal.isSig]
  · simp [fConv, show F.value x = _ from hx, G, fmOf_roundVal_inf, FVal.isSig, flIf]
  · simp [fConv, show F.value x = _ from hx, Fm.roundVal, FVal.isSig, flIf]
  · exact fToInt_cases F rm lo hi x
  · refine ⟨fun h => if_pos (by simpa using h), fun hn h => (if_neg (by simpa using hn)).trans (if_pos h), fun n k ⟨hx, hy, hz⟩ => ?_,
      fun n k m e ⟨hx, hy, hm, hz⟩ => ⟨?_, ?_⟩, fun n k m e ⟨hx, hy, hm, hz, hne⟩ => ⟨?_, ?_⟩, fun n k ⟨hx, hy, hz, hne⟩ => ?_,
      fun n m e k l g i ⟨hx, hy, hz⟩ => ?_⟩
    · exact (fFma_of_values hx hy (mulVal_infs n k) rfl rfl rfl (isNaN_of_inf hz)).trans (addVal_inf_opposite hz)
    · exact (fFma_of_values hx hy (mulVal_inf_fin n k e hm) (by simp [FVal.isZero, hm]) rfl rfl (isNaN_of_inf hz)).trans (addVal_inf_opposite hz)
    · exact (fFma_of_values hy hx (mulVal_fin_inf n k e hm) (by simp [FVal.isZero, hm]) rfl rfl (isNaN_of_inf hz)).trans (addVal_inf_opposite hz)
    · exact (fFma_of_values hx hy (mulVal_inf_fin n k e hm) (by simp [FVal.isZero, hm]) rfl rfl hz).trans (addVal_inf_other w.toNat hz hne)
    · exact (fFma_of_values hy hx (mulVal_fin_inf n k e hm) (by simp [FVal.isZero, hm]) rfl rfl hz).trans (addVal_inf_other w.toNat hz hne)
    · exact (fFma_of_values hx hy (mulVal_infs n k) rfl rfl rfl hz).trans (addVal_inf_other w.toNat hz hne)
    · refine (fFma_of_values hx hy rfl (by simp [FVal.isInf]) rfl rfl (isNaN_of_inf hz)).trans ?_
      rw [show F.value z = _ from hz]
      exact fmOf_roundVal_inf w.toNat rm i

end Sys2Proof.Safety

end

section

namespace Sys2Proof.Machine

/-- The key of a core memory stands as its offset does within its granule. -/
theorem spaceKey_mod {sp : Nat} (h : sp = 2 ∨ sp = 3 ∨ sp = 4) (core addr : Nat) : spaceKey sp core addr % 256 = addr % 256 := by
  rcases h with rfl | rfl | rfl
  · simp [spaceKey, padKey]
    omega
  · simp [spaceKey, padKey]
    omega
  · simp [spaceKey, dieKey]
    omega

/-- The location of a granule that an access meets. -/
theorem meets_granule {k n g : Nat} (hn : 0 < n) (h : meets k n (g * 256) 256 = true) : ∃ b < n, (k + b) / 256 = g ∧
    (b = g * 256 - k) := by
  simp only [meets, Bool.and_eq_true, decide_eq_true_eq] at h
  exact ⟨g * 256 - k, by omega, by omega, rfl⟩

theorem meets_of_div {k n b : Nat} (hb : b < n) : meets k n ((k + b) / 256 * 256) 256 = true := by
  simp only [meets, Bool.and_eq_true, decide_eq_true_eq]
  omega

theorem State.poisoned_none_iff (s : State) {k n : Nat} (hn : 0 < n) : s.poisoned k n = none ↔ ∀ b < n, (k + b) / 256 ∉ s.poison := by
  simp only [State.poisoned, List.find?_eq_none]
  constructor
  · exact fun h b hb hp => h _ hp (meets_of_div hb)
  · intro h g hg hm
    obtain ⟨b, hb, hbg, -⟩ := meets_granule hn hm
    exact h b hb (hbg ▸ hg)

theorem State.poisoned_some {s : State} {k n g : Nat} (h : s.poisoned k n = some g) : g ∈ s.poison ∧ meets k n (g * 256) 256 = true := by
  unfold State.poisoned at h
  exact ⟨List.mem_of_find?_eq_some h, List.find?_some (p := fun g => meets k n (g * 256) 256) h⟩

section
variable {s : State} {i : Iss} {sp addr n : Nat}

theorem State.engKeys_core (hsp : sp ≠ 0) (acc : Nat) (h : s.reachable i.cx i.c.core sp addr n = true) :
    s.engKeys i sp addr n acc = .ok [(spaceKey sp i.c.core addr, n)] s := by
  rw [State.engKeys, if_neg hsp, if_pos h]

theorem State.engKeys_outside (hsp : sp ≠ 0) (acc : Nat) (h : s.reachable i.cx i.c.core sp addr n = false) :
    s.engKeys i sp addr n acc = .fault 3 acc addr := by
  rw [State.engKeys, if_neg hsp, if_neg (by simp [h])]

/-- A read of one run of bytes on chip. -/
theorem State.engRead_core (hsp : sp ≠ 0) (h : s.reachable i.cx i.c.core sp addr n = true) : s.engRead i sp addr n =
    match s.poisoned (spaceKey sp i.c.core addr) n with
    | some g => .faultAt s 12 0 (addr + g * 256 - spaceKey sp i.c.core addr - (addr + g * 256 - spaceKey sp i.c.core addr) % 256)
    | none => .ok (getBs s.mem (spaceKey sp i.c.core addr) n) s := by
  rw [State.engRead, State.engKeys_core hsp 1 h]
  simp only [Eng.bind, State.poisonIn, hsp, false_and, if_false]
  cases s.poisoned (spaceKey sp i.c.core addr) n with
  | some g => rfl
  | none => simp [State.gets]

end

end Sys2Proof.Machine

namespace Sys2Proof.Safety

open Sys2Proof.Machine

/-- Settles O38: a range on chip is one run of bytes, read whole or up to its first poisoned granule. -/
theorem enginesReach : Obligations.EnginesReach := by
  unfold Obligations.EnginesReach
  intro s i sp addr n acc bs hsp hn k
  have h0 : sp ≠ 0 := by omega
  refine ⟨fun h => ⟨State.engKeys_core h0 acc h, fun hp => ?_, (s.poisoned_none_iff hn).mpr, fun ⟨b, hb, hbad⟩ => ?_, fun hlen => ?_⟩,
    fun h => ⟨State.engKeys_outside h0 acc h, ?_⟩⟩
  · rw [State.engRead_core h0 h, hp]
  · obtain ⟨g, hg⟩ : ∃ g, s.poisoned k n = some g :=
      Option.ne_none_iff_exists'.mp fun hnone => (s.poisoned_none_iff hn).mp hnone b hb hbad
    obtain ⟨hmem, hmeets⟩ := State.poisoned_some hg
    obtain ⟨c, hc, hcg, hck⟩ := meets_granule hn hmeets
    refine ⟨c, hc, hcg ▸ hmem, ?_⟩
    rw [State.engRead_core h0 h, hg]
    have hmod : k % 256 = addr % 256 := spaceKey_mod hsp i.c.core addr
    have haddr : addr + g * 256 - k - (addr + g * 256 - k) % 256 = addr + c - (addr + c) % 256 := by omega
    exact congrArg (Eng.faultAt s 12 0) haddr
  · rw [State.engPut, if_neg (by simp [h0]), State.puts, List.take_of_length_le hlen.le]
    rfl
  · rw [State.engRead, State.engKeys_outside h0 1 h]
    rfl

end Sys2Proof.Safety

end

section

namespace Sys2Proof.Machine

/-! ## The turn of an engine (R172, R187, R188) -/

section
variable {s s1 : State} {cx k : Nat} {x : Ctx} {c : Cmd} {cost : State → Iss → Nat} {body : State → Iss → Eng CmdSt} {more : State → Iss → State}

/-- A command that may issue, in the state in which it goes on: it is paid for and begins, or notes what it waits for. -/
def State.issueHead (u : State) (cx k : Nat) (c : Cmd) (cost : State → Iss → Nat) (body : State → Iss → Eng CmdSt) : State :=
  match u.payCmd cx c (cdiv (cost u ⟨cx, k, c⟩) 64) with
  | none => u.modCmd cx k c.seq fun d => { d with due := some (cdiv (cost u ⟨cx, k, c⟩) 64), held := (body u ⟨cx, k, c⟩).waits }
  | some v =>
    match body v ⟨cx, k, c⟩ with
    | .ok st s => (s.modCmd cx k c.seq fun d => { d with st := st, due := none, held := false }).modCtx cx Ctx.latch
    | .fault cls d a => v.fault cx cls d (Iss.faultCore ⟨cx, k, c⟩) 15 a 0 []
    | .faultAt s cls d a => s.fault cx cls d (Iss.faultCore ⟨cx, k, c⟩) 15 a 0 []
    | .stall p va acc st l => u.modPort p fun q => { q with miss := some ⟨cx, va, acc, st, l, u.tb, false, .engine cx k⟩ }
    | .wait => u.modCmd cx k c.seq fun d => { d with held := true }

/-- The turn of an engine whose head command is queued or paid. -/
theorem State.engineTurn_head (hx : s.ctx cx = some x) (hc : headCmd x k = some c) (hst : c.st = .queued ∨ c.st = .paid) :
    s.engineTurn cx k cost body more =
      if !s.mayIssue x c then s
      else
        let (ready, u) := if ownsArray k c then s.takeArray cx c.core else (true, s)
        if !ready then u else u.issueHead cx k c cost body := by
  unfold State.engineTurn
  rcases hst with hst | hst <;> simp only [hx, hc, hst] <;> rfl

theorem State.engineTurn_mayNot (hx : s.ctx cx = some x) (hc : headCmd x k = some c) (hst : c.st = .queued ∨ c.st = .paid)
    (hm : s.mayIssue x c = false) : s.engineTurn cx k cost body more = s := by
  rw [State.engineTurn_head hx hc hst, hm]
  rfl

/-- A command that may issue, its array not ready. -/
theorem State.engineTurn_notReady (hx : s.ctx cx = some x) (hc : headCmd x k = some c) (hst : c.st = .queued ∨ c.st = .paid)
    (hm : s.mayIssue x c = true) (ho : ownsArray k c = true) (ht : s.takeArray cx c.core = (false, s1)) : s.engineTurn cx k cost body more = s1 := by
  rw [State.engineTurn_head hx hc hst, hm, ho, ht]
  rfl

theorem State.payCmd_queued_none (hst : c.st = .queued) {n : Nat} (hl : (s.part (partOf cx)).plevel < n) : s.payCmd cx c n = none := by
  rw [State.payCmd, if_neg (by simp [hst]), State.debit, if_pos hl]
  rfl

/-- The state in which a command that may issue goes on: with the core's array, where it needs that. -/
def State.ReadyTo (s : State) (cx k : Nat) (c : Cmd) (s1 : State) : Prop :=
  if ownsArray k c = true then s.takeArray cx c.core = (true, s1) else s1 = s

/-- A command that may issue, with what it needs of its core. -/
theorem State.engineTurn_ready (hx : s.ctx cx = some x) (hc : headCmd x k = some c) (hst : c.st = .queued ∨ c.st = .paid) (hm : s.mayIssue x c = true)
    (hr : s.ReadyTo cx k c s1) : s.engineTurn cx k cost body more = s1.issueHead cx k c cost body := by
  rw [State.engineTurn_head hx hc hst, hm]
  unfold State.ReadyTo at hr
  split at hr
  case isTrue ho =>
    rw [ho, hr]
    rfl
  case isFalse ho =>
    subst hr
    rw [Bool.not_eq_true] at ho
    rw [ho]
    rfl

/-- A queued command that the pool cannot pay. -/
theorem State.issueHead_due (hst : c.st = .queued) (hl : (s1.part (partOf cx)).plevel < cdiv (cost s1 ⟨cx, k, c⟩) 64) : s1.issueHead cx k c cost body =
    s1.modCmd cx k c.seq fun d => { d with due := some (cdiv (cost s1 ⟨cx, k, c⟩) 64), held := (body s1 ⟨cx, k, c⟩).waits } := by
  rw [State.issueHead, State.payCmd_queued_none hst hl]

end

/-- Another context's array is not taken before its owner's work there is done and a slice boundary has permitted it. -/
theorem State.takeArray_other {s : State} {cx core o : Nat} {y : Ctx} (ho : (s.core core).owner = some o) (hne : o ≠ cx) (hy : s.ctx o = some y)
    (h : y.matrixWork core = true ∨ (s.core core).handover = false) : s.takeArray cx core = (false, s) := by
  rw [State.takeArray, ho]
  dsimp only
  rw [if_neg hne, hy]
  exact if_pos (by simpa using h)

end Sys2Proof.Machine

namespace Sys2Proof.Safety

open Sys2Proof.Machine

/-- A command of an engine at a stated cost. -/
def CommandCosts (i : Instr) (it : Iss) (u : State) (n : Nat) : Prop :=
  ∃ cost body more, (exec i = fun s => s.runCmd cost body more) ∧ cost u it = n

theorem drainLen_toNat (f : BitVec 3) (rows : Nat) :
    drainLen f.toNat rows = (if f = 0 then 2048 else if f.toNat ≤ 2 then 1024 else 516) * rows := by
  have hf : (f = 0) = (f.toNat = 0) := propext ⟨fun h => h ▸ rfl, fun h => BitVec.eq_of_toNat_eq h⟩
  simp only [drainLen, hf]

/-- Settles O39, by what the turn of an engine does with a command that it cannot issue. -/
theorem commandsWait : Obligations.CommandsWait := by
  unfold Obligations.CommandsWait
  intro s s1 cx k x c h o1 o2 o3 o4 o5 o6 o7 o8 o9 o10 o11 o12 o13 ht hx hc hst size gathers costs
  have hcosts (u : State) : ∀ e ∈ costs u, CommandCosts e.1 ⟨cx, k, c⟩ u e.2 := by
    simp only [costs, List.forall_mem_cons]
    exact ⟨⟨_, _, _, rfl, rfl⟩, ⟨_, _, _, rfl, rfl⟩, ⟨_, _, _, rfl, rfl⟩, ⟨_, _, _, rfl, rfl⟩, ⟨_, _, _, rfl, rfl⟩, ⟨_, _, _, rfl, rfl⟩, ⟨_, _, _, rfl, rfl⟩,
      ⟨_, _, _, rfl, rfl⟩, ⟨_, _, _, rfl, congrArg (fun n => 64 + 16 * cdiv n 256) (drainLen_toNat ..)⟩, ⟨_, _, _, rfl, rfl⟩, ⟨_, _, _, rfl, rfl⟩, ⟨_, _, _, rfl, rfl⟩, ⟨_, _, _, rfl, rfl⟩, ⟨_, _, _, rfl, rfl⟩,
      List.forall_mem_nil _⟩
  refine ⟨fun e he => ⟨fun hm => ?_, fun ho hm htake => ?_, fun ho hm hl => ?_⟩, fun o y ho hne hy h => State.takeArray_other ho hne hy h,
    fun e he ho hm htake hl => ?_⟩
  · obtain ⟨cost, body, more, hi, hn⟩ := hcosts s e he
    rw [hi]
    exact (State.runCmd_engine cost body more ht).trans (congrArg _ (State.engineTurn_mayNot hx hc (.inl hst) hm))
  · obtain ⟨cost, body, more, hi, hn⟩ := hcosts s e he
    rw [hi]
    exact (State.runCmd_engine cost body more ht).trans (congrArg _ (State.engineTurn_notReady hx hc (.inl hst) hm ho htake))
  · obtain ⟨cost, body, more, hi, hn⟩ := hcosts s e he
    rw [← hn] at hl ⊢
    rw [hi]
    exact ⟨_, (State.runCmd_engine cost body more ht).trans (congrArg _ ((State.engineTurn_ready hx hc (.inl hst) hm (by simp [State.ReadyTo, ho])).trans (State.issueHead_due hst hl)))⟩
  · obtain ⟨cost, body, more, hi, hn⟩ := hcosts s1 e he
    rw [← hn] at hl ⊢
    rw [hi]
    exact ⟨_, (State.runCmd_engine cost body more ht).trans (congrArg _ ((State.engineTurn_ready hx hc (.inl hst) hm (by simp [State.ReadyTo, ho, htake])).trans (State.issueHead_due hst hl)))⟩

end Sys2Proof.Safety

end

section

namespace Sys2Proof.Safety

open Sys2Proof.Machine

/-! ## Commands that issue -/

section
variable {s s1 : State} {cx k n : Nat} {x : Ctx} {c : Cmd} {i : Instr} {cost : State → Iss → Nat} {body : State → Iss → Eng CmdSt} {more : State → Iss → State}

/-- The turn of a command that issues: its meaning, in the state in which it has been paid for. -/
theorem Issues.issueHead (h : Issues s cx k x c n s1) (hi : exec i s = s.runCmd cost body more) (hn : ∀ u, cost u ⟨cx, k, c⟩ = n) :
    ∃ u : State, u.payCmd cx c (cdiv (cost u ⟨cx, k, c⟩) 64) = some s1 ∧ exec i s = .next (u.issueHead cx k c cost body) := by
  obtain ⟨ht, hx, hc, hst, hm, u, hr, hp⟩ := h
  rw [← hn u] at hp
  exact ⟨u, hp, hi.trans ((State.runCmd_engine cost body more ht).trans (congrArg _ (State.engineTurn_ready hx hc hst hm hr)))⟩

/-- A command that issues and is performed at once. -/
theorem Issues.performed (h : Issues s cx k x c n s1) (hi : exec i s = s.runCmd cost body more) (hn : ∀ u, cost u ⟨cx, k, c⟩ = n) {v : State}
    (hb : body s1 ⟨cx, k, c⟩ = .ok .done v) : exec i s = .next (performed v cx k c) := by
  obtain ⟨u, hp, hu⟩ := h.issueHead hi hn
  rw [hu, State.issueHead, hp]
  dsimp only
  rw [hb]
  rfl

/-- A command that issues and goes on. -/
theorem Issues.underway (h : Issues s cx k x c n s1) (hi : exec i s = s.runCmd cost body more) (hn : ∀ u, cost u ⟨cx, k, c⟩ = n) {v : State}
    (hb : body s1 ⟨cx, k, c⟩ = .ok .issued v) : exec i s = .next (underway v cx k c) := by
  obtain ⟨u, hp, hu⟩ := h.issueHead hi hn
  rw [hu, State.issueHead, hp]
  dsimp only
  rw [hb]
  rfl

/-- A command that meets a fault as it issues. -/
theorem Issues.fault (h : Issues s cx k x c n s1) (hi : exec i s = s.runCmd cost body more) (hn : ∀ u, cost u ⟨cx, k, c⟩ = n) {cls d a : Nat}
    (hb : body s1 ⟨cx, k, c⟩ = .fault cls d a) : exec i s = .next (s1.fault cx cls d (Iss.faultCore ⟨cx, k, c⟩) 15 a 0 []) := by
  obtain ⟨u, hp, hu⟩ := h.issueHead hi hn
  rw [hu, State.issueHead, hp]
  dsimp only
  rw [hb]

end

/-! ## Operands -/

section
variable {α β : Type}

theorem bind_ok {r : Eng α} {a : α} {s : State} (h : r = .ok a s) (f : α → State → Eng β) : r.bind f = f a s := by
  subst h
  rfl

theorem bind_fault {r : Eng α} {cls d a : Nat} (h : r = .fault cls d a) (f : α → State → Eng β) : r.bind f = .fault cls d a := by
  subst h
  rfl

end

section
variable {s : State} {i : Iss}

theorem engRanges_ok {l : List OpSpan} (h : s.outside i l = none) : s.engRanges i l = .ok () s := by
  rw [State.engRanges, h]

theorem engRanges_breach {l : List OpSpan} {acc a : Nat} (h : s.outside i l = some (acc, a)) : s.engRanges i l = .fault 3 acc a := by
  rw [State.engRanges, h]

theorem engHold_free {ks : List (Nat × Nat)} (h : s.holdHit i.cx i.c.receipt (ks.filter fun e => isMemKey e.1) = none) (addr : Nat) :
    s.engHold i ks addr = .ok () s := by
  rw [State.engHold, h]

/-- A span in memory breaches no range. -/
theorem outside_cons_mem (addr n acc : Nat) (l : List OpSpan) : s.outside i ((0, addr, n, acc) :: l) = s.outside i l := by
  simp [State.outside]

theorem outside_append_mem (addr n acc : Nat) (e : OpSpan) : s.outside i [e, (0, addr, n, acc)] = s.outside i [e] := by
  obtain ⟨sp, b, m, kind⟩ := e
  by_cases h : sp = 0 ∨ s.reachable i.cx i.c.core sp b m = true <;> simp [State.outside, h]

/-- The copy of operands that are reached. -/
theorem engCopy_ok {s2 s3 s4 : State} {ssp src dsp dst n : Nat} {bs : List Byte} {ks : List (Nat × Nat)} {after : State → Eng (State → State)}
    {fin : State → State} (ho : s.outside i [(ssp, src, n, 1), (dsp, dst, n, 2)] = none) (hr : s.engRead i ssp src n = .ok bs s2)
    (hk : s2.engKeys i dsp dst n 2 = .ok ks s3) (ha : after s3 = .ok fin s4) (hf : s4.holdHit i.cx i.c.receipt (ks.filter fun e => isMemKey e.1) = none) :
    s.engCopy i ssp src dsp dst n after = .ok .done (fin (s4.engPut i dsp dst ks bs)) := by
  rw [State.engCopy, bind_ok (engRanges_ok ho), bind_ok hr, bind_ok hk, bind_ok ha, bind_ok (engHold_free hf _)]

theorem nearCopy_source {b : BitVec 3} (hb : b.toNat < 5) (far len off : Nat) (after : State → Eng (State → State)) :
    s.nearCopy i far len (Machine.nearSpace b) off (nearIsSource b) after = s.engCopy i (Machine.nearSpace b) (256 * off) 0 far (256 * len) after :=
  if_pos (decide_eq_true hb)

theorem nearCopy_dest {b : BitVec 3} (hb : 5 ≤ b.toNat) (far len off : Nat) (after : State → Eng (State → State)) :
    s.nearCopy i far len (Machine.nearSpace b) off (nearIsSource b) after = s.engCopy i 0 far (Machine.nearSpace b) (256 * off) (256 * len) after :=
  if_neg (by simp [nearIsSource, hb])

/-- A copy whose operand on chip breaches the context's ranges. -/
theorem nearCopy_breach {b : BitVec 3} (far len off : Nat) (after : State → Eng (State → State)) {acc a : Nat}
    (h : s.outside i [(Machine.nearSpace b, 256 * off, 256 * len, if b.toNat < 5 then 1 else 2)] = some (acc, a)) :
    s.nearCopy i far len (Machine.nearSpace b) off (nearIsSource b) after = .fault 3 acc a := by
  by_cases hb : b.toNat < 5
  · rw [if_pos hb] at h
    rw [nearCopy_source hb, State.engCopy, bind_fault (engRanges_breach ((outside_append_mem ..).trans h))]
  · rw [if_neg hb] at h
    rw [nearCopy_dest (not_lt.mp hb), State.engCopy, bind_fault (engRanges_breach ((outside_cons_mem ..).trans h))]

end

/-- Settles O40: each command by the rule for what its meaning ends with, its operands reached in turn. -/
theorem copyCommands : Obligations.CopyCommands := by
  unfold Obligations.CopyCommands
  intro s s1 s2 s3 s4 cx k x c h bs ks ks2 it free copies breach near
  refine ⟨fun o hi acc a hb => hi.fault rfl (fun _ => rfl) (nearCopy_breach _ _ _ _ hb),
    fun o hi acc a hb => hi.fault rfl (fun _ => rfl) (nearCopy_breach _ _ _ _ hb),
    fun o hi acc a hb => hi.fault rfl (fun _ => rfl) (bind_fault (engRanges_breach hb) _),
    fun o hi hf => ⟨fun hn ⟨ho, hr, hk⟩ => ?_, fun hn ⟨ho, hr, hk⟩ => ?_⟩, fun o hi hk2 hf hf2 => ⟨fun hn ⟨ho, hr, hk⟩ => ?_, fun hn ⟨ho, hr, hk⟩ => ?_⟩,
    ?_, fun o hi hr => ?_, fun o hi hp => ?_, ?_, fun o hi hk hf => ?_⟩
  · exact hi.performed rfl (fun _ => rfl) ((nearCopy_source hn _ _ _ _).trans (engCopy_ok ho hr hk rfl hf))
  · exact hi.performed rfl (fun _ => rfl) ((nearCopy_dest hn _ _ _ _).trans (engCopy_ok ho hr hk rfl hf))
  · refine hi.performed rfl (fun _ => rfl) ((nearCopy_source hn _ _ _ _).trans
      (engCopy_ok (fin := fun s => s.engPut it 0 o.cwa.toNat ks2 (bytesOfNat 8 o.cwv.toNat)) ho hr hk ?_ hf))
    exact (bind_ok hk2 _).trans (bind_ok (engHold_free hf2 _) _)
  · refine hi.performed rfl (fun _ => rfl) ((nearCopy_dest hn _ _ _ _).trans
      (engCopy_ok (fin := fun s => s.engPut it 0 o.cwa.toNat ks2 (bytesOfNat 8 o.cwv.toNat)) ho hr hk ?_ hf))
    exact (bind_ok hk2 _).trans (bind_ok (engHold_free hf2 _) _)
  · intro o rows kss n hi ho hr hk hf
    exact hi.performed rfl (fun _ => rfl) ((bind_ok (engRanges_ok ho) _).trans ((bind_ok hr _).trans ((bind_ok hk _).trans (bind_ok (engHold_free hf _) _))))
  · exact hi.performed rfl (fun _ => rfl) (bind_ok hr _)
  · refine hi.performed rfl (fun _ => rfl) (bind_ok (a := ()) (s := s1) ?_ _)
    rw [State.deckCheck, hp]
  · intro o rows len hi hk
    exact hi.performed rfl (fun _ => rfl) (bind_ok hk _)
  · exact hi.performed rfl (fun _ => rfl) ((bind_ok hk _).trans (bind_ok (engHold_free hf _) _))

end Sys2Proof.Safety

end

section

/-! SUPPORT. An INTAKE that takes its core's array over (O41). The statement bounds no core number: the clearing of the array of core 2^37 reaches into the
storage of its die, where the profile of the command stands. The command's own word has an opcode of the array, and so the array is taken over first. -/

namespace Sys2Proof.Safety

open Sys2Proof.Machine

/-- A paid command of the array on core 2^37. -/
def arrayCmd : Cmd := ⟨0, 2 ^ 37, 6 * 2 ^ 120, 0, none, false, .paid, [], [], none, 0, [], false, none, false⟩

/-- Context 0 of reset, with that command at the head of an intake queue. -/
def intakeCtx : Ctx := { Ctx.create Setup.ctx0 chain00 with eqs := [(160, ⟨0, 0, [arrayCmd]⟩)] }

/-- The turn of that queue; memory holds a channel of four-byte slots at pad offset 0, a profile that names it at die offset 0, and a ring of four entries
at die offset 0x80000. -/
def clobbered : State :=
  { State.reset with
    turn := .engine 0 160
    ctxs := [(0, intakeCtx)]
    mem := [(2 ^ 60 + 2 ^ 56 + 16, 0x20), (2 ^ 60 + 2 ^ 57 + 12, 1), (2 ^ 60 + 2 ^ 57 + 42, 8), (2 ^ 60 + 2 ^ 57 + 0x80000 + 16, 2)] }

/-- The state in which the command has the array. -/
def clobberedOwned : State := (clobbered.takeArray 0 arrayCmd.core).2

def clobberedOps : IntakeOps := ⟨0, 0, 0, 0, 0, 0, 0⟩

/-- The places of the intake engine that an outcome leaves taken on the die of that core. -/
def placesTaken : Host.Outcome State Fault Refusal → Nat
  | .next s => (s.die (2 ^ 34)).msgs.length
  | _ => 0

theorem clobbered_issues : Issues clobbered 0 160 intakeCtx arrayCmd 516 clobberedOwned := by
  have hown : ownsArray 160 arrayCmd = true := by decide +kernel
  refine ⟨rfl, rfl, by decide +kernel, .inr rfl, by decide +kernel, clobberedOwned, ?_, rfl⟩
  rw [if_pos hown]
  exact Prod.ext (show (clobbered.takeArray 0 arrayCmd.core).1 = true by decide +kernel) rfl

theorem clobbered_placesTaken : placesTaken (exec (.intake ⟨0, 0⟩ clobberedOps) clobbered) = 0 := by decide +kernel

/-- A message that an outcome places on that die has a place there. -/
theorem placesTaken_place (s : State) (m : Msg) (cx k : Nat) (c : Cmd) :
    0 < placesTaken (.next (underway (s.modDie (2 ^ 34) fun d => { d with msgs := d.msgs ++ [m] }) cx k c)) := by
  simp [placesTaken, underway, State.die, State.modCmd, State.modDie, State.setDie]

/-- Refutes O41: where taking the array over clears the profile, the message that the profile names is not placed. -/
theorem not_engineCommands : ¬ Obligations.EngineCommands := by
  unfold Obligations.EngineCommands
  intro h
  obtain ⟨-, -, -, -, -, -, hintake, -⟩ :=
    h clobbered clobberedOwned clobbered clobbered clobbered 0 160 intakeCtx arrayCmd ⟨0, 0⟩ [] [] [] []
  obtain ⟨m, -, -, -, -, -, -, -, -, hexec⟩ := hintake clobberedOps ⟨0, 0, 4, 2⟩ 2 (by decide +kernel) clobbered_issues (by decide +kernel) (by decide +kernel)
    (by decide +kernel) (by decide +kernel) (by decide +kernel) (by decide +kernel) (by decide +kernel) rfl (by decide +kernel) (by decide +kernel)
    (by decide +kernel) (by decide +kernel) (by decide +kernel) (by decide +kernel) (.inl (by decide +kernel))
  have hnone := clobbered_placesTaken
  rw [hexec] at hnone
  exact absurd hnone (placesTaken_place _ m 0 160 arrayCmd).ne'

end Sys2Proof.Safety

end

section

namespace Sys2Proof.Machine

/-! ## Links of the pod -/

section
variable {s : State}

/-- One message that is to go to a package: it waits, or is sent. -/
def State.podOne (s : State) (e : Nat × Nat × PodPayload) : State :=
  match (s.route e.1).filter fun p => s.credits p e.2.1 with
  | some port => s.transmit port e.2.1 (some e.1) e.2.2
  | none => { s with podTx := s.podTx ++ [e] }

theorem State.podGo_eq (s : State) : s.podGo = s.podTx.foldl State.podOne { s with podTx := [] } := rfl

theorem State.podOne_routes (s : State) (e : Nat × Nat × PodPayload) : (s.podOne e).routes = s.routes ∧ (s.podOne e).portsUp = s.portsUp := by
  unfold State.podOne
  split <;> exact ⟨rfl, rfl⟩

theorem State.podOnes_routes (l : List (Nat × Nat × PodPayload)) (s : State) :
    (l.foldl State.podOne s).routes = s.routes ∧ (l.foldl State.podOne s).portsUp = s.portsUp := by
  induction l generalizing s with
  | nil => exact ⟨rfl, rfl⟩
  | cons e l ih =>
    obtain ⟨hr, hp⟩ := ih (s.podOne e)
    obtain ⟨hr1, hp1⟩ := s.podOne_routes e
    exact ⟨hr.trans hr1, hp.trans hp1⟩

/-- What is sent, or waits to be, moves no route. -/
theorem State.podGo_routes (s : State) : s.podGo.routes = s.routes ∧ s.podGo.portsUp = s.portsUp := by
  rw [State.podGo_eq]
  exact State.podOnes_routes _ _

theorem State.podGo_nil (h : s.podTx = []) : s.podGo = s := by
  rw [State.podGo_eq, h]
  exact congrArg (fun l => { s with podTx := l }) h.symm

theorem State.relink_routes (s : State) (routes : Tbl (List Nat)) (up : List Nat) : (s.relink routes up).routes = routes ∧ (s.relink routes up).portsUp = up :=
  State.podGo_routes _

theorem State.relink_links (routes : Tbl (List Nat)) (up : List Nat) (h : s.podTx = []) : (s.relink routes up).links = s.links := by
  rw [State.relink, State.podGo_nil (by exact h)]

/-- A route goes over a port that is up. -/
theorem State.route_up {d p : Nat} (h : s.route d = some p) : p ∈ s.portsUp :=
  List.contains_iff_mem.mp (List.find?_some h)

theorem State.loseLink_ports (s : State) (port : Nat) : (s.loseLink port).portsUp = s.portsUp.filter (fun p => p != port) ∧ (s.loseLink port).routes = s.routes := by
  exact ⟨(State.relink_routes _ _ _).2, (State.relink_routes _ _ _).1⟩

/-- No route goes over a port that is not among those up. -/
theorem State.route_ne_of_filter {l : List Nat} {port : Nat} (h : s.portsUp = l.filter fun p => p != port) (d p : Nat) (hr : s.route d = some p) :
    p ≠ port := by
  have hp := State.route_up hr
  rw [h, List.mem_filter] at hp
  simpa using hp.2

/-- One message that is to go to one package: it waits, or is sent. -/
theorem State.podGo_one {dest vc : Nat} {pay : PodPayload} (h : s.podTx = [(dest, vc, pay)]) :
    s.podGo = match (s.route dest).filter fun p => s.credits p vc with
      | some port => State.transmit { s with podTx := [] } port vc (some dest) pay
      | none => s := by
  rw [State.podGo_eq, h, List.foldl_cons, List.foldl_nil, State.podOne]
  dsimp only
  cases hf : (s.route dest).filter fun p => s.credits p vc with
  | some port =>
    rw [show (State.route { s with podTx := [] } dest).filter (fun p => State.credits { s with podTx := [] } p vc) = some port from hf]
  | none =>
    rw [show (State.route { s with podTx := [] } dest).filter (fun p => State.credits { s with podTx := [] } p vc) = none from hf]
    exact congrArg (fun l => { s with podTx := l }) h.symm

end

end Sys2Proof.Machine

namespace Sys2Proof.Safety

open Sys2Proof.Machine

/-- The feeds 0 and 1 of a package that has both. -/
theorem feed_both {i : Nat} (hi : i < 2) : ¬ (3 / 2 ^ i % 2 = 0 ∨ 2 ≤ i) ∧ 3 ≠ 2 ^ i ∧ ¬ ((3 - 2 ^ i) / 2 ^ i % 2 = 1 ∨ 2 ≤ i) ∧ 3 - 2 ^ i + 2 ^ i = 3 := by
  have h01 : i = 0 ∨ i = 1 := by omega
  obtain rfl | rfl := h01 <;> decide

theorem feed_one {i : Nat} (hi : i < 2) : ¬ (2 ^ i / 2 ^ i % 2 = 0 ∨ 2 ≤ i) := by
  rw [Nat.div_self (Nat.two_pow_pos i)]
  omega

theorem feedLoss_both {s : State} {i : Nat} (hi : i < 2) (h : s.feeds = 3) :
    exec (.feedLoss i) s = .next { s with feeds := 3 - 2 ^ i, events := s.events ++ [64 + i] } := by
  obtain ⟨h1, h2, -, -⟩ := feed_both hi
  show execFeedLoss i s = _
  rw [execFeedLoss, h, if_neg h1, if_neg h2]

theorem feedReturn_other {s : State} {i : Nat} (hi : i < 2) :
    exec (.feedReturn i) { s with feeds := 3 - 2 ^ i } = .next { s with feeds := 3 - 2 ^ i + 2 ^ i, events := s.events ++ [64 * 2 + i] } := by
  obtain ⟨-, -, h3, -⟩ := feed_both hi
  show execFeedReturn i _ = _
  rw [execFeedReturn, if_neg h3]

theorem feedLoss_last {s : State} {i : Nat} (hi : i < 2) (h : s.feeds = 2 ^ i) : exec (.feedLoss i) s = .next s.dark := by
  show execFeedLoss i s = _
  rw [execFeedLoss, h, if_neg (feed_one hi), if_pos rfl]

/-- Without power every event but POWER_ON is a fault. -/
theorem dark_move {s : State} {j : Instr} (hj : j ≠ .powerOn) (ht : s.turn = .event j) (hoff : s.phase = .off) : s.move = .fault .noPower := by
  rw [State.move, ht]
  split
  case h_1 heq => exact absurd (Turn.event.inj heq) hj
  case h_2 => exact if_pos hoff

theorem flit_taken {s : State} {fl : Flit} (hup : s.portsUp.contains fl.port = true) (hvc : fl.vc < 16) (hfit : podFits fl.payload = true) :
    ¬ ((!s.portsUp.contains fl.port) = true ∨ 16 ≤ fl.vc ∨ podFits fl.payload = false) := by
  rw [hup, hfit]
  simpa using hvc

/-- What a port does with a flit. -/
theorem flitReceive_bad {s : State} {fl : Flit} (hup : s.portsUp.contains fl.port = true) (hvc : fl.vc < 16) (hfit : podFits fl.payload = true)
    (hcrc : fl.crcGood = false) : exec (.flitReceive fl) s = .next (if 7 ≤ (getT s.links (16 * fl.port + fl.vc) Link.start).tries then s.loseLink fl.port else
      { s with links := putT s.links (16 * fl.port + fl.vc) { getT s.links (16 * fl.port + fl.vc) Link.start with
        tries := (getT s.links (16 * fl.port + fl.vc) Link.start).tries + 1 } }) := by
  show execFlitReceive fl s = _
  rw [execFlitReceive]
  dsimp only
  rw [if_neg (flit_taken hup hvc hfit), hcrc]
  rfl

theorem flitReceive_good {s : State} {fl : Flit} (hcrc : fl.crcGood = true) : exec (.flitReceive fl) s = .next (
    if !s.portsUp.contains fl.port ∨ 16 ≤ fl.vc ∨ podFits fl.payload = false then s
    else if fl.seq ≠ (getT s.links (16 * fl.port + fl.vc) Link.start).expect then s
    else { s with links := putT s.links (16 * fl.port + fl.vc) { getT s.links (16 * fl.port + fl.vc) Link.start with
      expect := (getT s.links (16 * fl.port + fl.vc) Link.start).expect + 1, tries := 0 } }.takeFlit fl.vc fl.payload) := by
  show execFlitReceive fl s = _
  rw [execFlitReceive]
  dsimp only
  rw [hcrc]
  rfl

/-- Settles O53, by what each event of feeds, links and time leaves. -/
theorem feedsAndLinks : Obligations.FeedsAndLinks := by
  unfold Obligations.FeedsAndLinks
  intro s i port dest vc pay w fl tab
  refine ⟨fun hi h => ⟨_, feedLoss_both hi h, feedReturn_other hi, (feed_both hi).2.2.2⟩,
    fun hi h => ⟨_, feedLoss_last hi h, rfl, rfl, rfl, rfl, rfl, rfl, rfl, fun j hj ht => dark_move hj ht rfl⟩, ?_, ?_, ⟨_, rfl, rfl⟩, ?_, ?_, ?_⟩
  · intro k l
    refine ⟨fun hup hvc hfit hcrc hseq => ?_, fun hup hcrc hseq => ?_, fun hup hvc hfit hcrc => ⟨fun ht => ?_, fun ht => ?_⟩, fun h => ?_⟩
    · rw [flitReceive_good hcrc, if_neg (flit_taken hup hvc hfit), if_neg (not_not_intro hseq)]
    · rw [flitReceive_good hcrc, if_pos hseq, ite_self]
    · rw [flitReceive_bad hup hvc hfit hcrc, if_neg (Nat.not_le.mpr ht)]
    · obtain ⟨hp, hr⟩ := State.loseLink_ports s fl.port
      exact ⟨_, (flitReceive_bad hup hvc hfit hcrc).trans (congrArg _ (if_pos ht)), hp, hr, State.route_ne_of_filter hp⟩
    · show execFlitReceive fl s = _
      rw [execFlitReceive]
      dsimp only
      rw [if_pos]
      obtain h | h := h
      · exact .inl (by rw [h]; rfl)
      · exact .inr (.inr h)
  · refine ⟨by simp [State.credits], fun h => ⟨fun hwait => ?_, fun hr hc => ?_⟩⟩
    · rw [State.podGo_one h]
      obtain hr | ⟨hr, hc⟩ := hwait
      · rw [hr]
        rfl
      · rw [hr, Option.filter_some, hc]
        rfl
    · rw [State.podGo_one h, hr, Option.filter_some, hc]
      rfl
  · by_cases h : s.portsUp.contains port = true
    · obtain ⟨hp, hr⟩ := State.loseLink_ports s port
      exact ⟨_, congrArg Host.Outcome.next (if_pos h), hp, hr, State.route_ne_of_filter hp⟩
    · have hp : s.portsUp = s.portsUp.filter fun p => p != port := by
        refine (List.filter_eq_self.mpr fun p hp => ?_).symm
        simp only [bne_iff_ne, ne_eq]
        rintro rfl
        exact h (List.contains_iff_mem.mpr hp)
      exact ⟨_, congrArg Host.Outcome.next (if_neg h), hp, rfl, State.route_ne_of_filter hp⟩
  · intro hlt hmem hdown
    obtain ⟨hr, hp⟩ := State.relink_routes s s.routes (s.portsUp ++ [port])
    exact ⟨_, congrArg Host.Outcome.next (if_pos (by rw [hmem, hdown, decide_eq_true hlt]; rfl)), hp, hr, State.relink_links _ _⟩
  · exact ⟨_, rfl, (State.relink_routes _ _ _).2, (State.relink_routes _ _ _).1, State.relink_links _ _⟩

end Sys2Proof.Safety

end

section

/-! SUPPORT. What gives up the work of a die (R253), and everything it goes through, leaves the time. -/

namespace Sys2Proof.Machine

/-- The state stands at a tick. -/
def State.AtTick (s : State) (n : Nat) : Prop := s.tb = n

section
variable {n₀ : Nat}

theorem State.forgetColl_tick {s : State} (h : s.AtTick n₀) (g) : (s.forgetColl g).AtTick n₀ := h

theorem State.keepColl_tick {s : State} (h : s.AtTick n₀) (g) : (s.keepColl g).AtTick n₀ := by
  unfold State.keepColl
  split <;> exact h

theorem State.modFcast_tick {s : State} (h : s.AtTick n₀) (k f) : (s.modFcast k f).AtTick n₀ := h

theorem State.setCtx_tick {s : State} (h : s.AtTick n₀) (c x) : (s.setCtx c x).AtTick n₀ := h

theorem State.fault_tick {s : State} (h : s.AtTick n₀) (cx cls detail core row addr pc succ) : (s.fault cx cls detail core row addr pc succ).AtTick n₀ := by
  unfold State.fault
  grind -ring -linarith -lia [State.setCtx_tick, State.modFcast_tick]

theorem foldl_tick {α : Type} {g : State → α → State} (hg : ∀ u e, u.AtTick n₀ → (g u e).AtTick n₀) (l : List α) {u : State} (h : u.AtTick n₀) :
    (l.foldl g u).AtTick n₀ := by
  induction l generalizing u with
  | nil => exact h
  | cons e r ih => exact ih (hg u e h)

theorem State.collFault_tick {s : State} (h : s.AtTick n₀) (ms) : (s.collFault ms).AtTick n₀ := by
  unfold State.collFault
  grind -ring -linarith -lia [State.fault_tick, foldl_tick]

theorem State.modCtx_tick {s : State} (h : s.AtTick n₀) (c f) : (s.modCtx c f).AtTick n₀ := by
  unfold State.modCtx
  grind -ring -linarith -lia [State.setCtx_tick]

theorem State.modCmd_tick {s : State} (h : s.AtTick n₀) (cx k seq f) : (s.modCmd cx k seq f).AtTick n₀ := by
  unfold State.modCmd
  grind -ring -linarith -lia [State.modCtx_tick]

theorem State.memberDone_tick {s : State} (h : s.AtTick n₀) (m) : (s.memberDone m).AtTick n₀ := by
  unfold State.memberDone
  grind -ring -linarith -lia [State.modCmd_tick]

theorem State.doom_tick {s : State} (h : s.AtTick n₀) (g gone) : (s.doom g gone).AtTick n₀ := by
  unfold State.doom
  grind -ring -linarith -lia [State.keepColl_tick, State.memberDone_tick, State.collFault_tick, foldl_tick]

theorem State.podSend_tick {s : State} (h : s.AtTick n₀) (dest vc p) : (s.podSend dest vc p).AtTick n₀ := h

theorem State.podSendAll_tick {s : State} (h : s.AtTick n₀) (dests vc p) : (s.podSendAll dests vc p).AtTick n₀ := by
  unfold State.podSendAll
  grind -ring -linarith -lia [State.podSend_tick, foldl_tick]

theorem State.tellColl_tick {s : State} (h : s.AtTick n₀) (g) : (s.tellColl g).AtTick n₀ := by
  unfold State.tellColl
  grind -ring -linarith -lia [State.podSendAll_tick]

theorem State.dropColl_tick {s : State} (h : s.AtTick n₀) (cx c) : (s.dropColl cx c).AtTick n₀ := by
  unfold State.dropColl
  grind -ring -linarith -lia [State.doom_tick, State.tellColl_tick]

theorem State.modPort_tick {s : State} (h : s.AtTick n₀) (n f) : (s.modPort n f).AtTick n₀ := h

theorem State.write_tick {s : State} (h : s.AtTick n₀) (k bs) : (s.write k bs).AtTick n₀ := by
  obtain ⟨po, cs, fs, tx, hw⟩ := State.write_frame s k bs
  rw [hw]
  exact h

theorem State.setBind_tick {s : State} (h : s.AtTick n₀) (hkey writer on) : (s.setBind hkey writer on).AtTick n₀ := by
  unfold State.setBind
  grind -ring -linarith -lia [State.write_tick]

theorem State.clearBind_tick {s : State} (h : s.AtTick n₀) (cx core row pc quad k writer) : (s.clearBind cx core row pc quad k writer).AtTick n₀ := by
  unfold State.clearBind
  grind -ring -linarith -lia [State.setBind_tick, State.fault_tick]

theorem State.releaseHandles_tick {s : State} (h : s.AtTick n₀) (t) : (s.releaseHandles t).AtTick n₀ := by
  unfold State.releaseHandles
  grind -ring -linarith -lia [State.clearBind_tick, foldl_tick]

theorem State.freeRow_tick {s : State} (h : s.AtTick n₀) (r) : (s.freeRow r).AtTick n₀ := h

theorem State.setPipe_tick {s : State} (h : s.AtTick n₀) (cx p) : (s.setPipe cx p).AtTick n₀ := by
  unfold State.setPipe
  grind -ring -linarith -lia [State.modCtx_tick]

theorem State.writeN_tick {s : State} (h : s.AtTick n₀) (k n v) : (s.writeN k n v).AtTick n₀ := by
  unfold State.writeN
  grind -ring -linarith -lia [State.write_tick]

theorem State.frontRecord_tick {s : State} (h : s.AtTick n₀) (cx p) : (s.frontRecord cx p).AtTick n₀ := by
  unfold State.frontRecord
  grind -ring -linarith -lia [State.setPipe_tick, State.writeN_tick]

theorem State.recordsOn_tick {s : State} (h : s.AtTick n₀) (core) : (s.recordsOn core).AtTick n₀ := by
  refine foldl_tick (fun u e hu => ?_) _ h
  split
  · split
    · exact hu
    · exact State.frontRecord_tick hu ..
  · exact hu

theorem State.modCore_tick {s : State} (h : s.AtTick n₀) (n f) : (s.modCore n f).AtTick n₀ := h

theorem State.keepArray_tick {s : State} (h : s.AtTick n₀) (cx core code w0) : (s.keepArray cx core code w0).AtTick n₀ := by
  unfold State.keepArray
  grind -ring -linarith -lia [State.modCore_tick]

theorem State.append_tick {s : State} (h : s.AtTick n₀) (cx core code w0 w1 pkt receipt pipe) : (s.append cx core code w0 w1 pkt receipt pipe).AtTick n₀ := by
  unfold State.append
  grind -ring -linarith -lia [State.modCtx_tick, State.keepArray_tick]

theorem State.appendPrefs_tick {s : State} (h : s.AtTick n₀) (cx p l) : (s.appendPrefs cx p l).AtTick n₀ := by
  induction l generalizing s with
  | nil => exact h
  | cons e r ih =>
    obtain ⟨pos, _ | m⟩ := e
    · unfold State.appendPrefs
      grind -ring -linarith -lia [State.append_tick, State.setPipe_tick]
    · exact ih h

theorem State.advance_tick {s : State} (h : s.AtTick n₀) (hkey writer n) : (s.advance hkey writer n).AtTick n₀ := by
  unfold State.advance
  dsimp only
  split <;> exact State.writeN_tick h ..

theorem State.setTag_tick {s : State} (h : s.AtTick n₀) (hkey logn cnt t) : (s.setTag hkey logn cnt t).AtTick n₀ := by
  unfold State.setTag
  grind -ring -linarith -lia [State.write_tick]

theorem State.ringPut_tick {s : State} (h : s.AtTick n₀) (l hkey v tag) : (s.ringPut l hkey v tag).AtTick n₀ := by
  unfold State.ringPut
  grind -ring -linarith -lia [State.advance_tick, State.setTag_tick, State.writeN_tick]

theorem State.placeIso_tick {s : State} (h : s.AtTick n₀) (cx q) : (s.placeIso cx q).AtTick n₀ := by
  unfold State.placeIso
  split
  · exact h
  · split
    · exact h
    · split
      · split
        · exact h
        · exact State.fault_tick h ..
      · split
        · exact State.setPipe_tick (State.ringPut_tick h ..) ..
        · exact h

theorem State.modRow_tick {s : State} (h : s.AtTick n₀) (r f) : (s.modRow r f).AtTick n₀ := h

theorem State.claimRow_tick {s : State} (h : s.AtTick n₀) (cx p row) : (s.claimRow cx p row).AtTick n₀ := by
  unfold State.claimRow
  grind -ring -linarith -lia [State.modRow_tick, State.setPipe_tick]

theorem State.claimRows_tick {s : State} (h : s.AtTick n₀) (cx q n) : (s.claimRows cx q n).AtTick n₀ := by
  induction n generalizing s with
  | zero => exact h
  | succ n ih => grind -ring -linarith -lia [State.claimRows, State.claimRow_tick]

theorem State.bandGo_tick {s : State} (h : s.AtTick n₀) (cx q) : (s.bandGo cx q).AtTick n₀ := by
  unfold State.bandGo
  grind -ring -linarith -lia [State.claimRows_tick, State.placeIso_tick, State.appendPrefs_tick]

theorem State.ringSection_tick {s : State} (h : s.AtTick n₀) (l hkey vs tag) : (s.ringSection l hkey vs tag).AtTick n₀ := by
  unfold State.ringSection
  grind -ring -linarith -lia [State.ringPut_tick, foldl_tick]

theorem State.feed_tick {s : State} (h : s.AtTick n₀) (p pos) : (s.feed p pos).AtTick n₀ := by
  unfold State.feed
  grind -ring -linarith -lia [State.ringSection_tick, foldl_tick]

theorem State.beginRestore_tick {s : State} (h : s.AtTick n₀) (cx p h) : (s.beginRestore cx p h).AtTick n₀ := by
  unfold State.beginRestore
  grind -ring -linarith -lia [State.setPipe_tick, State.fault_tick, State.feed_tick, State.appendPrefs_tick]

theorem State.pump_tick {s : State} (h : s.AtTick n₀) (core n) : (s.pump core n).AtTick n₀ := by
  induction n generalizing s with
  | zero => exact h
  | succ n ih =>
    unfold State.pump
    grind -ring -linarith -lia [State.setPipe_tick, State.beginRestore_tick]

theorem State.frontCore_tick {s : State} (h : s.AtTick n₀) (core) : (s.frontCore core).AtTick n₀ := by
  unfold State.frontCore
  grind -ring -linarith -lia [State.bandGo_tick, State.recordsOn_tick, State.pump_tick, foldl_tick]

theorem State.freeRowGo_tick {s : State} (h : s.AtTick n₀) (r) : (s.freeRowGo r).AtTick n₀ := by
  unfold State.freeRowGo
  grind -ring -linarith -lia [State.frontCore_tick, State.freeRow_tick]

theorem State.dropTask_tick {s : State} (h : s.AtTick n₀) (r t) : (s.dropTask r t).AtTick n₀ := by
  unfold State.dropTask
  grind -ring -linarith -lia [State.freeRowGo_tick, State.modPort_tick, State.releaseHandles_tick]

theorem State.badColl_tick {s : State} (h : s.AtTick n₀) (g) : (s.badColl g).AtTick n₀ := by
  unfold State.badColl
  grind -ring -linarith -lia [State.doom_tick]

theorem State.endColl_tick {s : State} (h : s.AtTick n₀) (g) : (s.endColl g).AtTick n₀ := by
  unfold State.endColl
  grind -ring -linarith -lia [State.badColl_tick, State.tellColl_tick]

theorem State.idleDie_tick {s : State} (h : s.AtTick n₀) (die) : (s.idleDie die).AtTick n₀ := by
  unfold State.idleDie
  extract_lets s1 s2 s3 s4
  have h1 : s1.AtTick n₀ := h
  clear_value s1
  have h2 : s2.AtTick n₀ := foldl_tick (fun u g hu => State.endColl_tick hu ..) _ h1
  clear_value s2
  have h3 : s3.AtTick n₀ := foldl_tick (fun u e hu => foldl_tick (fun v c hv => State.dropColl_tick hv ..) _ hu) _ h2
  clear_value s3
  have h4 : s4.AtTick n₀ := by
    refine foldl_tick (fun u i hu => ?_) _ h3
    split
    · exact State.dropTask_tick hu ..
    · exact hu
  clear_value s4
  exact h4

end

end Sys2Proof.Machine

end

section

namespace Sys2Proof.Machine

/-! ## Power (R254) -/

/-- The island that draws most of those seen, with one more seen. -/
def drawStep (n : Nat) (b : Option Nat) (i : Nat) : Option Nat :=
  match b with
  | some j => if Config.islandPower n j < Config.islandPower n i then some i else b
  | none => some i

theorem drawsMost_eq (n : Nat) (is : List Nat) : drawsMost n is = is.foldl (drawStep n) none := rfl

/-- The island that draws most stays so while none draws more. -/
theorem drawSteps_keep {n i : Nat} {l : List Nat} (h : ∀ j ∈ l, Config.islandPower n j ≤ Config.islandPower n i) : l.foldl (drawStep n) (some i) = some i := by
  induction l with
  | nil => rfl
  | cons j l ih =>
    rw [List.foldl_cons, drawStep, if_neg (Nat.not_lt.mpr (h j List.mem_cons_self))]
    exact ih fun k hk => h k (List.mem_cons_of_mem _ hk)

/-- Among islands that draw less than one, none draws as much. -/
theorem drawSteps_below {n i : Nat} {l : List Nat} (h : ∀ j ∈ l, Config.islandPower n j < Config.islandPower n i) {b : Option Nat}
    (hb : ∀ j ∈ b, Config.islandPower n j < Config.islandPower n i) : ∀ j ∈ l.foldl (drawStep n) b, Config.islandPower n j < Config.islandPower n i := by
  induction l generalizing b with
  | nil => exact hb
  | cons k l ih =>
    refine ih (fun j hj => h j (List.mem_cons_of_mem _ hj)) fun j hj => ?_
    have hk := h k List.mem_cons_self
    unfold drawStep at hj
    split at hj
    · split at hj
      · exact Option.mem_some.mp hj ▸ hk
      · exact hb j hj
    · exact Option.mem_some.mp hj ▸ hk

/-- The island that draws most, the lowest of several (log 5). -/
theorem drawsMost_some {n i : Nat} {is : List Nat} (hs : is.Pairwise (· < ·)) (hi : i ∈ is)
    (h : ∀ j ∈ is, Config.islandPower n j < Config.islandPower n i ∨ (Config.islandPower n j = Config.islandPower n i ∧ i ≤ j)) : drawsMost n is = some i := by
  obtain ⟨l, r, rfl⟩ := List.append_of_mem hi
  rw [List.pairwise_append] at hs
  obtain ⟨-, -, hlt⟩ := hs
  have hl : ∀ j ∈ l, Config.islandPower n j < Config.islandPower n i := fun j hj => by
    have hji := hlt j hj i List.mem_cons_self
    exact (h j (List.mem_append_left _ hj)).resolve_right fun hp => absurd hp.2 (Nat.not_le.mpr hji)
  have hr : ∀ j ∈ r, Config.islandPower n j ≤ Config.islandPower n i := fun j hj => by
    have := h j (List.mem_append_right _ (List.mem_cons_of_mem _ hj))
    omega
  have hstep : drawStep n (l.foldl (drawStep n) none) i = some i := by
    cases hb : l.foldl (drawStep n) none with
    | none => rfl
    | some j =>
      have hj : Config.islandPower n j < Config.islandPower n i :=
        drawSteps_below hl (b := none) (fun _ hn => absurd hn (Option.not_mem_none _)) j hb
      rw [drawStep]
      exact if_pos hj
  rw [drawsMost_eq, List.foldl_append, List.foldl_cons, hstep]
  exact drawSteps_keep hr

theorem State.island_modIsland (s : State) (i : Nat) (f : Island → Island) : (s.modIsland i f).island i = f (s.island i) := getT_putT_same ..

theorem State.island_modIsland_other (s : State) {i j : Nat} (f : Island → Island) (h : j ≠ i) : (s.modIsland i f).island j = s.island j :=
  getT_putT_other _ _ _ h

theorem mem_islands {p : Nat → Bool} {i : Nat} : i ∈ (List.range 256).filter p ↔ i < 256 ∧ p i = true := by
  rw [List.mem_filter, List.mem_range]

/-- One of a list that is not empty. -/
theorem getElem?_mod_mem {l : List Nat} (h : l ≠ []) (n : Nat) : ∃ i ∈ l, l[n % l.length]? = some i := by
  have hlt : n % l.length < l.length := Nat.mod_lt _ (List.length_pos_iff.mpr h)
  exact ⟨l[n % l.length], List.getElem_mem hlt, List.getElem?_eq_getElem hlt⟩

/-- A table that holds a value for each of a list of keys. -/
theorem getT_map_of_mem {α : Type} {l : List Nat} {k : Nat} (h : k ∈ l) (f : Nat → α) (d : α) : getT (l.map fun c => (c, f c)) k d = f k := by
  induction l with
  | nil => exact absurd h List.not_mem_nil
  | cons a l ih =>
    rw [List.map_cons, getT]
    split
    case isTrue ha => rw [ha]
    case isFalse ha => exact ih ((List.mem_cons.mp h).resolve_left (Ne.symm ha))

/-! ## Start-up (R245) -/

section
variable {s : State}

theorem State.firstBad_none (h : s.fwBad = []) : s.firstBad = none := by
  rw [State.firstBad, h]
  rfl

/-- The lowest image that fails its check is the first. -/
theorem State.firstBad_some {f : Nat} (hf : f < 8) (hbad : f ∈ s.fwBad) (hlow : ∀ g < f, g ∉ s.fwBad) : s.firstBad = some f := by
  rw [State.firstBad, List.find?_range_eq_some]
  exact ⟨by simpa using hbad, by simpa using hf, fun g hg => by simpa using hlow g hg⟩

theorem State.startUp_bad {f : Nat} (h : s.firstBad = some f) : s.startUp = s.stoppedAt 2 [64 * 8 + f] := by
  rw [State.startUp, h]

theorem State.startUp_puf (h : s.firstBad = none) (hp : s.pufOk = false) : s.startUp = s.stoppedAt 3 [] := by
  rw [State.startUp, h, hp]
  rfl

theorem Core.repair_part (c : Core) (f : Nat → Nat → Bool) : (c.repair f).part = if (c.repair f).oos then none else c.part := rfl

/-- What a start-up that passes its checks leaves. -/
theorem State.startUp_ok (h : s.firstBad = none) (hp : s.pufOk = true) : s.startUp.phase = .complete ∧ s.startUp.mem = [] ∧
    s.startUp.startups = s.startups + 1 ∧ ∀ n < 32, s.startUp.core n = Core.start.repair (Config.lineFaulty (s.startups + 1) n) := by
  rw [State.startUp, h, hp]
  refine ⟨rfl, rfl, rfl, fun n hn => ?_⟩
  exact getT_map_of_mem (List.mem_range.mpr hn) _ _

end

theorem State.tb_idleDie (s : State) (die : Nat) : (s.idleDie die).tb = s.tb := State.idleDie_tick rfl die

theorem modCores_frame {l : List Nat} {f : Nat → Core → Core} (s : State) : ∃ cs, l.foldl (fun s n => s.modCore n (f n)) s = { s with cores := cs } := by
  induction l generalizing s with
  | nil => exact ⟨s.cores, rfl⟩
  | cons n l ih =>
    obtain ⟨cs, h⟩ := ih (s.modCore n (f n))
    exact ⟨cs, h⟩

end Sys2Proof.Machine

namespace Sys2Proof.Safety

open Sys2Proof.Machine

section
variable {s : State}

theorem powerOn_off (h : s.phase = .off) : ∃ u : State, u.firstBad = s.firstBad ∧ u.pufOk = s.pufOk ∧ u.tb = 0 ∧ u.startups = s.startups ∧
    exec .powerOn s = .next u.startUp := by
  refine ⟨_, ?_, ?_, ?_, ?_, congrArg Host.Outcome.next (if_pos h)⟩ <;> rfl

theorem powerOn_complete (h : s.phase = .off) (hf : s.fwBad = []) (hp : s.pufOk = true) : ∃ u, exec .powerOn s = .next u ∧ u.phase = .complete ∧ u.mem = [] ∧
    u.startups = s.startups + 1 ∧ ∀ n < 32, ((u.core n).oos = true → (u.core n).part = none) ∧ ((u.core n).oos = false → (u.core n).part = some 0) := by
  obtain ⟨u, hbad, hpuf, -, hst, hu⟩ := powerOn_off h
  obtain ⟨h1, h2, h3, h4⟩ := State.startUp_ok (hbad.trans (State.firstBad_none hf)) (hpuf.trans hp)
  refine ⟨_, hu, h1, h2, h3.trans (congrArg (· + 1) hst), fun n hn => ?_⟩
  rw [h4 n hn, Core.repair_part]
  exact ⟨fun ho => if_pos ho, fun ho => if_neg (by simp [ho])⟩

theorem powerOn_badImage (h : s.phase = .off) {f : Nat} (hf : f < 8) (hbad : f ∈ s.fwBad) (hlow : ∀ g < f, g ∉ s.fwBad) :
    ∃ u, exec .powerOn s = .next u ∧ u.phase = .stopped 2 ∧ u.ctxs = [] ∧ u.parts = [] ∧ u.portsUp = [] ∧ u.tb = 0 ∧ u.events = [64 * 8 + f] := by
  obtain ⟨u, hb, -, htb, -, hu⟩ := powerOn_off h
  rw [State.startUp_bad (hb.trans (State.firstBad_some hf hbad hlow))] at hu
  exact ⟨_, hu, rfl, rfl, rfl, rfl, htb, rfl⟩

theorem powerOn_badPuf (h : s.phase = .off) (hf : s.fwBad = []) (hp : s.pufOk = false) :
    ∃ u, exec .powerOn s = .next u ∧ u.phase = .stopped 3 ∧ u.ctxs = [] ∧ u.parts = [] ∧ u.tb = 0 := by
  obtain ⟨u, hb, hpuf, htb, -, hu⟩ := powerOn_off h
  rw [State.startUp_puf (hb.trans (State.firstBad_none hf)) (hpuf.trans hp)] at hu
  exact ⟨_, hu, rfl, rfl, rfl, htb⟩

/-- A die whose storage is gone. -/
def emptiedDie (s : State) (die : Nat) : State :=
  { s with
    mem := s.mem.filter fun c => !(onStack die c.1 || onDeck die c.1)
    poison := s.poison.filter fun g => !(onStack die (g * 256) || onDeck die (g * 256))
    freeCtr := s.freeCtr + 1
    llc := s.llc.filter fun e => e.1 / 2 != die }

/-- A die that starts again: its vertical buses are repaired, its stacks trained. -/
def restartedDie (s : State) (die : Nat) : State :=
  let key := s.startups + 2 ^ 32 * s.freeCtr
  let u := (dieCores die).foldl (fun s n => s.modCore n fun c => c.repair (Config.lineFaulty key n)) s
  { u with events := u.events ++ (((dieCores die).filter fun n => (u.core n).oos).map fun n => 64 * 4 + n)
      ++ if Config.stacksTrain key die then [] else [64 * 3 + die] }.modDie die fun d =>
    { d with stopped := !Config.stacksTrain key die, wins := [], msgs := [] }

theorem dieReset_eq (die : Nat) : exec (.dieReset die) s = .next (if !(s.die die).stopped then s else restartedDie (emptiedDie (s.idleDie die) die) die) := rfl

theorem tb_emptiedDie (die : Nat) : (emptiedDie s die).tb = s.tb := rfl

theorem mem_emptiedDie (die : Nat) : ∀ c ∈ (emptiedDie s die).mem, onStack die c.1 = false ∧ onDeck die c.1 = false := fun c hc => by
  simpa using (List.mem_filter.mp hc).2

theorem restartedDie_frame (die : Nat) : (restartedDie s die).tb = s.tb ∧ (restartedDie s die).mem = s.mem ∧ ((restartedDie s die).die die).wins = [] ∧
    ((restartedDie s die).die die).msgs = [] := by
  obtain ⟨cs, hcs⟩ := modCores_frame (l := dieCores die) (f := fun n c => c.repair (Config.lineFaulty (s.startups + 2 ^ 32 * s.freeCtr) n)) s
  rw [restartedDie, hcs]
  exact ⟨rfl, rfl, congrArg Die.wins (getT_putT_same ..), congrArg Die.msgs (getT_putT_same ..)⟩

/-- A die's reset keeps the time, and leaves the die no window, no message and none of its storage. -/
theorem dieReset_stopped {die : Nat} (h : (s.die die).stopped = true) : ∃ u, exec (.dieReset die) s = .next u ∧ u.tb = s.tb ∧ (u.die die).wins = [] ∧
    (u.die die).msgs = [] ∧ ∀ c ∈ u.mem, onStack die c.1 = false ∧ onDeck die c.1 = false := by
  obtain ⟨htb, hmem, hw, hm⟩ := restartedDie_frame (s := emptiedDie (s.idleDie die) die) die
  refine ⟨_, (dieReset_eq die).trans (congrArg _ (if_neg (by simp [h]))), htb.trans ((tb_emptiedDie die).trans (State.tb_idleDie s die)), hw, hm, ?_⟩
  rw [hmem]
  exact mem_emptiedDie die

theorem draws_of_range {n i : Nat} (h : ∀ j < 256, 0 < (s.island j).lvlmax → Config.islandPower n j < Config.islandPower n i ∨
    (Config.islandPower n j = Config.islandPower n i ∧ i ≤ j)) : ∀ j ∈ (List.range 256).filter fun i => decide (0 < (s.island i).lvlmax),
    Config.islandPower n j < Config.islandPower n i ∨ (Config.islandPower n j = Config.islandPower n i ∧ i ≤ j) := fun j hj =>
  h j (mem_islands.mp hj).1 (of_decide_eq_true (mem_islands.mp hj).2)

/-- The end of a power window. -/
theorem powerWindow_end {watts island : Nat} (h : (s.window + 1) * 10 ^ 5 ≤ s.tb) :
    let ws := watts :: s.powers.take 9
    let sum := ws.sum
    let cap := s.powerCap * 1000 * ws.length
    ∃ u, exec (.powerWindow watts island) s = .next u ∧ u.window = s.window + 1 ∧ u.powers = ws.take 9 ∧ u.powerCap = s.powerCap ∧
      (cap < sum → ∀ i < 256, 0 < (s.island i).lvlmax →
        (∀ j < 256, 0 < (s.island j).lvlmax → Config.islandPower s.window j < Config.islandPower s.window i ∨
          (Config.islandPower s.window j = Config.islandPower s.window i ∧ i ≤ j)) →
        (u.island i).lvlmax = (s.island i).lvlmax - 1 ∧ ∀ j, j ≠ i → u.island j = s.island j) ∧
      (sum * 100 < cap * 95 → (∃ i < 256, (s.island i).lvlmax < (s.island i).lvlcap) →
        ∃ i < 256, (s.island i).lvlmax < (s.island i).lvlcap ∧ (u.island i).lvlmax = (s.island i).lvlmax + 1 ∧ ∀ j, j ≠ i → u.island j = s.island j) ∧
      (sum ≤ cap → cap * 95 ≤ sum * 100 → u.islands = s.islands) := by
  intro ws sum cap
  by_cases hover : cap < sum
  · refine ⟨_, congrArg Host.Outcome.next ((if_neg (Nat.not_lt.mpr h)).trans (if_pos hover)), ?_⟩
    split
    case h_1 j hd =>
      refine ⟨rfl, rfl, rfl, fun _ i hi hl hmost => ?_, fun hlow => absurd hlow (by omega), fun hle => absurd hle (Nat.not_le.mpr hover)⟩
      rw [drawsMost_some (List.pairwise_lt_range.filter _) (mem_islands.mpr ⟨hi, decide_eq_true hl⟩) (draws_of_range hmost)] at hd
      obtain rfl := Option.some.inj hd
      exact ⟨congrArg Island.lvlmax (State.island_modIsland ..), fun j hj => State.island_modIsland_other _ _ hj⟩
    case h_2 hd =>
      refine ⟨rfl, rfl, rfl, fun _ i hi hl hmost => ?_, fun hlow => absurd hlow (by omega), fun hle => absurd hle (Nat.not_le.mpr hover)⟩
      rw [drawsMost_some (List.pairwise_lt_range.filter _) (mem_islands.mpr ⟨hi, decide_eq_true hl⟩) (draws_of_range hmost)] at hd
      exact absurd hd (Option.some_ne_none _)
  · by_cases hunder : sum * 100 < cap * 95
    · refine ⟨_, congrArg Host.Outcome.next ((if_neg (Nat.not_lt.mpr h)).trans ((if_neg hover).trans (if_pos hunder))), ?_⟩
      split
      case h_1 j hd =>
        have hj := mem_islands.mp (List.mem_of_getElem? hd)
        have hlt := of_decide_eq_true hj.2
        refine ⟨rfl, rfl, rfl, fun ho => absurd ho hover, fun _ _ => ⟨j, hj.1, hlt, ?_, fun i hi => State.island_modIsland_other _ _ hi⟩,
          fun _ hge => absurd hunder (Nat.not_lt.mpr hge)⟩
        exact (congrArg Island.lvlmax (State.island_modIsland ..)).trans (Nat.min_eq_left hlt)
      case h_2 hd =>
        refine ⟨rfl, rfl, rfl, fun ho => absurd ho hover, fun _ hlow => ?_, fun _ hge => absurd hunder (Nat.not_lt.mpr hge)⟩
        obtain ⟨i, hi, hlt⟩ := hlow
        obtain ⟨j, -, hj⟩ := getElem?_mod_mem (List.ne_nil_of_mem
          (mem_islands (p := fun i => decide ((s.island i).lvlmax < (s.island i).lvlcap)).mpr ⟨hi, decide_eq_true hlt⟩)) island
        exact absurd (hd.symm.trans hj) (Option.some_ne_none _).symm
    · exact ⟨_, congrArg Host.Outcome.next ((if_neg (Nat.not_lt.mpr h)).trans ((if_neg hover).trans (if_neg hunder))), rfl, rfl, rfl,
        fun ho => absurd ho hover, fun hu => absurd hu hunder, fun _ _ => rfl⟩

end

/-- Settles O52, event by event. -/
theorem deviceEvents : Obligations.DeviceEvents := by
  unfold Obligations.DeviceEvents
  intro s die watts island level index off len nonce answers
  refine ⟨powerOn_complete, fun h => ⟨fun f hf hbad hlow => powerOn_badImage h hf hbad hlow, powerOn_badPuf h⟩, fun h => congrArg Host.Outcome.next (if_neg h),
    fun m h => ?_, fun h => ?_, fun h => congrArg Host.Outcome.next (if_pos (by simp [h])), dieReset_stopped, fun h => congrArg Host.Outcome.next (if_pos h),
    powerWindow_end, fun h => ?_, fun h => congrArg Host.Outcome.next (if_pos h), fun h => congrArg Host.Outcome.next (if_neg (by omega)), ⟨_, rfl, rfl⟩, rfl,
    fun h => congrArg Host.Outcome.next (if_neg h), fun h => congrArg Host.Outcome.next (if_neg (by simp; omega)), fun h h3 => ?_, fun h => ?_, fun h h1 h10 => ?_,
    fun h => ?_, fun h => congrArg Host.Outcome.next (if_pos h), fun h => congrArg Host.Outcome.next (if_neg h)⟩
  · exact congrArg Host.Outcome.next (by rw [h])
  · exact congrArg Host.Outcome.next (by rw [h])
  · exact ⟨_, congrArg Host.Outcome.next (if_neg (Nat.not_le.mpr h)), congrArg Island.lvlcap (State.island_modIsland ..),
      congrArg Island.lvlmax (State.island_modIsland ..)⟩
  · have hpast : ¬ s.phase.past 3 = false := by simp [h, Phase.past]
    exact ⟨congrArg Host.Outcome.next ((if_neg hpast).trans (if_neg (Nat.not_lt.mpr h3))),
      congrArg Host.Outcome.next ((if_neg hpast).trans (if_neg (by omega))), congrArg Host.Outcome.next ((if_neg hpast).trans (if_neg (by omega)))⟩
  · have hpast : s.phase.past 3 = false := by rw [h]; rfl
    exact ⟨congrArg Host.Outcome.next (if_pos hpast), congrArg Host.Outcome.next (if_pos hpast), congrArg Host.Outcome.next (if_pos hpast)⟩
  · exact congrArg Host.Outcome.next ((if_neg (by omega)).trans (if_neg (by simp [h, Phase.past])))
  · have hpast : s.phase.past 6 = false := by rw [h]; rfl
    exact ⟨congrArg Host.Outcome.next ((if_neg (by decide)).trans (if_pos hpast)), congrArg Host.Outcome.next ((if_neg (by decide)).trans (if_pos hpast))⟩

end Sys2Proof.Safety

end

section

namespace Sys2Proof.Machine

/-! ## Whose turn it is (R29) -/

section
variable {s : State}

/-- With no refill due and nothing on the agenda, who has the turn moves. -/
theorem step_move (hr : s.refill = none) (ha : s.agenda = []) : step s = s.move := by
  rw [step, hr, ha]

theorem State.move_of_not_powerOn (hp : s.phase ≠ .off) (ht : s.turn ≠ .event .powerOn) : s.move =
    match s.turn with
    | .idle => .next s
    | .row r => s.rowTurn r
    | .engine cx k => s.engineStep cx k
    | .ring cx => s.ringStep cx
    | .forecast d p => s.forecastStep d p
    | .event i => exec i { s with turn := .idle } := by
  unfold State.move
  split
  case h_1 h => exact absurd h ht
  case h_2 => exact if_neg hp

/-! ### Rows -/

section
variable {r : Nat} {t : Task}

/-- A row whose task is neither held nor at its commit, and whose state is not gated, fetches. -/
theorem State.rowTurn_fetch (ht : s.task r = some t) (hh : s.held r t = false) (hc : t.commit = none) (hg : (s.row r).gated = false) : s.rowTurn r =
    match s.fetch t with
    | .stop => afterRow r t (.next (s.stopTask t .unresolved))
    | .miss => .next ((s.missRow t t.pc.toNat 0).beat r (some t))
    | .fault c d a => .next ((s.faultTask t c d a).beat r (some t))
    | .word w s =>
      match decodeTask w with
      | none => afterRow r t (.next (s.stopTask t .illegal))
      | some i => afterRow r t (exec i s) := by
  rw [State.rowTurn, ht]
  dsimp only
  rw [hh, hc, hg]
  rfl

theorem State.rowTurn_word {w : Nat} {v : State} {i : Instr} (ht : s.task r = some t) (hh : s.held r t = false) (hc : t.commit = none)
    (hg : (s.row r).gated = false) (hf : s.fetch t = .word w v) (hd : decodeTask w = some i) : s.rowTurn r = afterRow r t (exec i v) := by
  rw [State.rowTurn_fetch ht hh hc hg, hf]
  dsimp only
  rw [hd]

theorem State.rowTurn_illegal {w : Nat} {v : State} (ht : s.task r = some t) (hh : s.held r t = false) (hc : t.commit = none)
    (hg : (s.row r).gated = false) (hf : s.fetch t = .word w v) (hd : decodeTask w = none) : s.rowTurn r = afterRow r t (.next (v.stopTask t .illegal)) := by
  rw [State.rowTurn_fetch ht hh hc hg, hf]
  dsimp only
  rw [hd]

theorem afterRow_eq (r : Nat) (t : Task) (o : Host.Outcome State Fault Refusal) : afterRow r t o = match o with
    | .next v => .next ((v.endAccess r).beat r (some t))
    | o => o := by
  cases o <;> rfl

theorem State.fetch_charged (h : t.charged = true) : s.fetch t = .word t.ir s := if_pos h

theorem State.fetch_word {e : PEnt} (h : t.charged = false) (hm : s.unmeasured t = false) (hpc : isCanon t.pc.toNat = true)
    (hl : s.lookup t.row t.cx t.pc.toNat 0 = some (.ok e)) (hp : s.poisoned (entKey e t.pc.toNat) 4 = none) : s.fetch t =
    .word (getN s.mem (entKey e t.pc.toNat) 4) ((s.usePort t.row e).setTask t.row (some { t with ir := getN s.mem (entKey e t.pc.toNat) 4 })) := by
  rw [State.fetch, h, hm, hpc, hl]
  dsimp only
  rw [hp]
  rfl

end

theorem State.ringStep_some {cx : Nat} {u : State} {i : Instr} (h : s.ringTurn cx = (u, some i)) : s.ringStep cx = exec i u := by
  unfold State.ringStep
  rw [h]

/-! ### Time (R247) -/

theorem State.sendTime_frame (s : State) : ∃ ls, s.sendTime = { s with links := ls } := by
  have hfold (l : List Nat) (u : State) : ∃ ls, l.foldl (fun u p => if u.credits p 0 then u.transmit p 0 none (.time (BitVec.ofNat 64 u.tb)) else u) u =
      { u with links := ls } := by
    induction l generalizing u with
    | nil => exact ⟨u.links, rfl⟩
    | cons p l ih =>
      obtain ⟨ls, h⟩ := ih (if u.credits p 0 then u.transmit p 0 none (.time (BitVec.ofNat 64 u.tb)) else u)
      refine ⟨ls, h.trans ?_⟩
      split <;> rfl
  unfold State.sendTime
  split
  · exact hfold _ _
  · exact ⟨s.links, rfl⟩

theorem State.podOne_frame (s : State) (e : Nat × Nat × PodPayload) : ∃ ls tx, s.podOne e = { s with links := ls, podTx := tx } := by
  unfold State.podOne
  split
  · exact ⟨_, s.podTx, rfl⟩
  · exact ⟨s.links, _, rfl⟩

theorem State.podGo_frame (s : State) : ∃ ls tx, s.podGo = { s with links := ls, podTx := tx } := by
  have hfold (l : List (Nat × Nat × PodPayload)) (u : State) : ∃ ls tx, l.foldl State.podOne u = { u with links := ls, podTx := tx } := by
    induction l generalizing u with
    | nil => exact ⟨u.links, u.podTx, rfl⟩
    | cons e l ih =>
      obtain ⟨ls, tx, h⟩ := ih (u.podOne e)
      obtain ⟨ls1, tx1, h1⟩ := u.podOne_frame e
      exact ⟨ls, tx, h.trans (by rw [h1])⟩
  obtain ⟨ls, tx, h⟩ := hfold s.podTx { s with podTx := [] }
  exact ⟨ls, tx, h⟩

/-- What the passing of ticks changes. -/
theorem State.pass_frame (s : State) (dt : Nat) : (s.pass dt).tb = s.tb + s.advanceOf dt ∧ (s.pass dt).lead = s.lead - (dt - s.advanceOf dt) ∧
    (s.pass dt).mem = s.mem ∧ (s.pass dt).ctxs = s.ctxs ∧ (s.pass dt).rows = s.rows ∧
    (s.pass dt).parts = s.parts.map fun e => (e.1, { e.2 with carry := e.2.carry + e.2.prate * s.advanceOf dt }) := by
  rw [State.pass]
  dsimp only
  generalize hu : (({ s with
      tb := s.tb + s.advanceOf dt
      lead := s.lead - (dt - s.advanceOf dt)
      tbHalf := decide (dt < s.slowFor) && (decide (dt % 2 = 1) != s.tbHalf)
      parts := s.parts.map fun e => (e.1, { e.2 with carry := e.2.carry + e.2.prate * s.advanceOf dt }) } : State).acked) = u
  obtain ⟨ls, tx, h⟩ := u.podGo_frame
  obtain ⟨ls2, h2⟩ := u.podGo.sendTime_frame
  rw [h2, h, ← hu]
  exact ⟨rfl, rfl, rfl, rfl, rfl, rfl⟩

theorem State.advanceOf_full (h : s.lead ≤ 16) (hh : s.tbHalf = false) (dt : Nat) : s.advanceOf dt = dt := by
  simp [State.advanceOf, State.slowFor, h, hh]

theorem State.advanceOf_half {dt : Nat} (h0 : dt ≠ 0) (h : 16 + dt ≤ s.lead) (hh : s.tbHalf = false) : s.advanceOf dt = dt / 2 := by
  have hslow : s.slowFor = 2 * (s.lead - 16) - 1 := by simp [State.slowFor, hh, show ¬ s.lead ≤ 16 by omega]
  have hle : dt ≤ s.slowFor := by omega
  rw [State.advanceOf, hh, Nat.min_eq_left hle, Nat.sub_eq_zero_of_le hle]
  rfl

end

end Sys2Proof.Machine

namespace Sys2Proof.Safety

open Sys2Proof.Machine

section
variable {s : State} {r : Nat} {t : Task} {i : Instr}

/-- Settles O56, by what each agent does at its turn. -/
theorem stepRunsDecoded : Obligations.StepRunsDecoded := by
  unfold Obligations.StepRunsDecoded
  intro s u r cx k die p t e i c d w a rest hr hoff
  refine ⟨fun ha => ?_, fun ha => ⟨fun h0 => ?_, fun h0 => ?_⟩⟩
  · have hmove (ht : s.turn ≠ .event .powerOn) := (step_move hr ha).trans (State.move_of_not_powerOn hoff ht)
    refine ⟨fun ht htask hh hc hg hch hpc hm hl hp => ?_, fun ht htask hh hc hg hch hd => ?_, fun ht hcmd => ⟨fun hst hd hex => ?_, fun hst => ?_⟩,
      fun ht hring => ?_, fun ht hrun hdue hw hd => ?_, fun ht hrun hdue => ?_, fun ht hi => ?_, fun ht => ?_⟩
    · have hf := State.fetch_word hch hm hpc hl hp
      rw [hmove (by simp [ht]), ht]
      refine ⟨fun hd => (State.rowTurn_word htask hh hc hg hf hd).trans ?_, fun hd => State.rowTurn_illegal htask hh hc hg hf hd⟩
      exact afterRow_eq r t _
    · rw [hmove (by simp [ht]), ht]
      exact (State.rowTurn_word htask hh hc hg (State.fetch_charged hch) hd).trans (afterRow_eq r t _)
    · rw [hmove (by simp [ht]), ht]
      dsimp only
      rw [State.engineStep, State.engineWord, hcmd]
      dsimp only
      rw [hst, if_neg Bool.false_ne_true, hd]
      dsimp only
      rw [hex]
    · rw [hmove (by simp [ht]), ht]
      dsimp only
      rw [State.engineStep, State.engineWord, hcmd]
      dsimp only
      rw [hst, if_pos rfl]
    · rw [hmove (by simp [ht]), ht]
      exact State.ringStep_some hring
    · rw [hmove (by simp [ht]), ht]
      dsimp only
      rw [State.forecastStep, State.forecastWord, hrun]
      dsimp only
      rw [hdue, if_neg Bool.false_ne_true, hw, Option.bind_some, hd]
    · rw [hmove (by simp [ht]), ht]
      dsimp only
      rw [State.forecastStep, State.forecastWord, hrun]
      dsimp only
      rw [hdue, if_pos rfl]
      show execOverrun die p s = _
      rw [execOverrun, hrun]
      exact congrArg _ (if_pos hdue)
    · rw [hmove (by simpa [ht] using hi), ht]
    · rw [hmove (by simp [ht]), ht]
  · rw [step, hr, ha]
    exact if_pos h0
  · obtain ⟨htb, hlead, hmem, hctxs, hrows, hparts⟩ := s.pass_frame a.dt
    refine ⟨⟨s.pass a.dt, ?_, htb, hlead, hmem, hctxs, hrows, hparts⟩, fun hl hh => State.advanceOf_full hl hh _, fun hl hh => State.advanceOf_half h0 hl hh⟩
    rw [step, hr, ha]
    exact if_neg h0

end

end Sys2Proof.Safety

end

section

namespace Sys2Proof.Machine

/-! ## Ports of the rows (R250, R251) -/

theorem putT_putT_same {α : Type} (t : Tbl α) (k : Nat) (x y : α) : putT (putT t k x) k y = putT t k y := by
  induction t with
  | nil => exact if_pos rfl
  | cons e t ih =>
    obtain ⟨a, z⟩ := e
    by_cases h : a = k
    · simp [putT, h]
    · simp [putT, h, ih]

section
variable {s : State}

theorem State.setPort_setPort (s : State) (n : Nat) (x y : Port) : (s.setPort n x).setPort n y = s.setPort n y :=
  congrArg (fun t => { s with ports := t }) (putT_putT_same ..)

theorem State.port_setPort (s : State) (n : Nat) (x : Port) : (s.setPort n x).port n = x := getT_putT_same ..

section
variable {n : Nat} {m : Miss}

theorem State.missAt_port (h : n < 384) : s.missAt n = (s.port n).miss := if_pos (by omega)

theorem State.missCores_row (h : n < 384) (m : Miss) : (s.missCores n m).contains = fun c => c == n / 12 := by
  rw [State.missCores, if_pos h]
  funext c
  simp [Bool.beq_eq_decide_eq]

theorem State.modMiss_port (h : n < 384) (hm : (s.port n).miss = some m) (f : Miss → Miss) :
    s.modMiss n f = s.setPort n { s.port n with miss := some (f m) } := by
  rw [State.modMiss, if_pos (by omega), State.modPort, hm]
  rfl

theorem State.onSource_row (hw : m.who = .row n) : s.onSource m = none := by
  rw [State.onSource, hw]

end

end

end Sys2Proof.Machine

namespace Sys2Proof.Safety

open Sys2Proof.Machine

section
variable {s : State} {n : Nat}

theorem walk_older {w : Walk} (hw : (s.port n).walk = some w) (h : w.gen1 ≠ (s.part (partOf w.cx)).gen1 ∨ w.gen2 ≠ (s.part (partOf w.cx)).gen2) :
    exec (.walk n) s = .next (s.setPort n { s.port n with walk := some { w with gen1 := (s.part (partOf w.cx)).gen1, gen2 := (s.part (partOf w.cx)).gen2 } }) := by
  show execWalk n s = _
  rw [execWalk, hw]
  exact congrArg _ (if_pos h)

/-- A walk of the current generations. -/
theorem walk_current {w : Walk} (hw : (s.port n).walk = some w) (h1 : w.gen1 = (s.part (partOf w.cx)).gen1) (h2 : w.gen2 = (s.part (partOf w.cx)).gen2)
    (hm : (s.port n).miss = none) : (∀ e, s.walk w.cx w.va w.acc = .ok e →
      exec (.walk n) s = .next (s.setPort n ⟨install (s.port n).entries e, (s.port n).got ++ [e], none, none⟩)) ∧
    (∀ st l, s.walk w.cx w.va w.acc = .pageFault st l →
      exec (.walk n) s = .next (s.setPort n { s.port n with walk := none, miss := some ⟨w.cx, w.va, w.acc, st, l, s.tb, false, .row n⟩ })) := by
  have hgen : ¬ (w.gen1 ≠ (s.part (partOf w.cx)).gen1 ∨ w.gen2 ≠ (s.part (partOf w.cx)).gen2) := by simp [h1, h2]
  refine ⟨fun e he => ?_, fun st l he => ?_⟩
  · show execWalk n s = _
    rw [execWalk, hw]
    dsimp only
    rw [if_neg hgen, he]
    dsimp only
    rw [State.walked, hm]
    rfl
  · show execWalk n s = _
    rw [execWalk, hw]
    dsimp only
    rw [if_neg hgen, he]
    dsimp only
    rw [State.modPort, hm]

end

section
variable {s : State} {n : Nat} {m : Miss} {t : Task}

theorem drainLimit_reached (hn : n < 384) (hm : (s.port n).miss = some m) (hwho : m.who = .row n) (ht : s.task n = some t) (hc : t.commit = none)
    (hd : m.drained = false) (hl : m.since + (s.part (partOf m.cx)).drain ≤ s.tb) : exec (.drainLimit n) s =
    .next (((s.setPort n { s.port n with miss := some { m with drained := true } }).setTask n (some { t with froDrain := true })).cutAll m.cx
      fun c => c == n / 12) := by
  obtain ⟨cx, va, acc, st, l, since, dr, who⟩ := m
  obtain rfl : who = .row n := hwho
  show execDrainLimit n s = _
  rw [execDrainLimit, State.missAt_port hn, hm]
  dsimp only at hd hl ⊢
  rw [if_neg (by simp [hd]; omega)]
  rw [State.missCores_row hn, State.modMiss_port hn hm, show State.task (s.setPort n _) n = some t from ht]
  dsimp only
  rw [hc]
  rfl

theorem drainLimit_before (hn : n < 384) (hm : (s.port n).miss = some m) (hl : s.tb < m.since + (s.part (partOf m.cx)).drain) :
    exec (.drainLimit n) s = .next s := by
  show execDrainLimit n s = _
  rw [execDrainLimit, State.missAt_port hn, hm]
  exact congrArg _ (if_pos (.inr hl))

theorem faultLimit_reached (hn : n < 384) (hm : (s.port n).miss = some m) (hwho : m.who = .row n) (ht : s.task n = some t) (hc : t.commit = none)
    (hl : m.since + (s.part (partOf m.cx)).fault ≤ s.tb) : exec (.faultLimit n) s =
    .next ((s.setPort n { s.port n with miss := none, walk := none }).faultTask t 6 (m.stage * 8 + m.level) m.va) := by
  show execFaultLimit n s = _
  rw [execFaultLimit, State.missAt_port hn, hm]
  dsimp only
  rw [if_neg (by omega), if_neg (by omega), State.onSource_row hwho, hwho]
  dsimp only
  have hdrop : s.dropMiss n = s.setPort n { s.port n with miss := none } := if_pos (by omega)
  rw [hdrop, show State.task (s.setPort n _) n = some t from ht]
  dsimp only
  rw [hc, State.modPort, State.port_setPort, State.setPort_setPort]
  rfl

theorem faultLimit_before (hn : n < 384) (hm : (s.port n).miss = some m) (hl : s.tb < m.since + (s.part (partOf m.cx)).fault) :
    exec (.faultLimit n) s = .next s := by
  show execFaultLimit n s = _
  rw [execFaultLimit, State.missAt_port hn, hm]
  exact congrArg _ (if_pos hl)

theorem replay_row (hn : n < 384) (hm : (s.port n).miss = some m) : exec (.replay n) s =
    .next (s.setPort n { s.port n with walk := some ⟨m.cx, m.va, m.acc, (s.part (partOf m.cx)).gen1, (s.part (partOf m.cx)).gen2⟩ }) := by
  show execReplay n s = _
  rw [execReplay, State.missAt_port hn, hm]
  dsimp only
  rw [if_neg (by omega), if_pos hn]
  rfl

end

/-- A read window with room takes its next granule. -/
theorem windowFill_reads {s s2 : State} {die tile slot : Nat} {v : Win} {e : PEnt} (hv : findT (s.die die).wins (tile * 1024 + slot) = some v)
    (hk : v.kind = 0) (hw : v.write = false) (hl : v.head - v.tail < v.len) (hsz : v.head < v.size) (hh : (s.die die).heldIn tile < tileSize)
    (hm : (s.port (genPort die tile)).miss = none) (hc : isCanon (v.addr v.head) = true) (hx : s.xlate (genPort die tile) v.cx (v.addr v.head) 1 = (.ok e, s2)) :
    exec (.windowFill die tile slot) s = .next ((s2.fetchGranule die v.cx (v.addr v.head) (entKey e (v.addr v.head))).modDie die fun d =>
      { d with wins := putT d.wins (tile * 1024 + slot) { v.use e with head := v.head + 1, held := v.held ++ [entKey e (v.addr v.head) / 256] } }) := by
  show execWindowFill die tile slot s = _
  rw [execWindowFill]
  dsimp only
  rw [hv]
  dsimp only
  have hbusy : ¬ (v.len ≤ v.head - v.tail ∨ v.size ≤ v.head ∨ tileSize ≤ (s.die die).heldIn tile ∨ (s.port (genPort die tile)).miss.isSome = true) := by
    simp only [hm, Option.isSome_none, Bool.false_eq_true, or_false]
    omega
  rw [if_neg (by simp [hw]), if_neg (by simp [hk, hw]), if_neg hbusy, hc, if_neg (by simp), hx]

/-- Settles O47, by what each event of a port does. -/
theorem portEvents : Obligations.PortEvents := by
  unfold Obligations.PortEvents
  intro s n die tile slot st l w m t e hn
  refine ⟨fun hw => ⟨walk_older hw, fun h1 h2 hm => ?_⟩, fun hm hwho ht hc => ⟨drainLimit_reached hn hm hwho ht hc, drainLimit_before hn hm,
    faultLimit_reached hn hm hwho ht hc, faultLimit_before hn hm, replay_row hn hm⟩, fun v s2 hv hk hw hl hsz hh hm hc hx => windowFill_reads hv hk hw hl hsz hh hm hc hx⟩
  obtain ⟨hok, hpf⟩ := walk_current hw h1 h2 hm
  exact ⟨hok e, hpf st l⟩

end Sys2Proof.Safety

end

section

/-! SUPPORT. What a write of the device, a fault and the completion of a packet can change: memory and its poison, contexts, the faults noted for the
Forecast units, what is to go to the pod, ports, interrupts, and the writes that wait. -/

namespace Sys2Proof.Machine

/-- A state that differs in that at most. -/
def DevOnly (s u : State) : Prop :=
  ∃ m po cs fs tx ps ir pw, u = { s with mem := m, poison := po, ctxs := cs, fcasts := fs, podTx := tx, ports := ps, irqs := ir, pendW := pw }

theorem DevOnly.refl (s : State) : DevOnly s s := ⟨s.mem, s.poison, s.ctxs, s.fcasts, s.podTx, s.ports, s.irqs, s.pendW, rfl⟩

theorem DevOnly.trans {s u v : State} (h : DevOnly s u) (g : DevOnly u v) : DevOnly s v := by
  obtain ⟨_, _, _, _, _, _, _, _, rfl⟩ := h
  obtain ⟨_, _, _, _, _, _, _, _, rfl⟩ := g
  exact ⟨_, _, _, _, _, _, _, _, rfl⟩

theorem PortsOnly.dev {s u : State} (h : PortsOnly s u) : DevOnly s u := by
  obtain ⟨ps, rfl⟩ := h
  exact ⟨_, _, _, _, _, ps, _, _, rfl⟩

theorem State.setCtx_dev (s : State) (c : Nat) (x : Ctx) : DevOnly s (s.setCtx c x) := ⟨_, _, _, _, _, _, _, _, rfl⟩

theorem State.modCtx_dev (s : State) (c : Nat) (f : Ctx → Ctx) : DevOnly s (s.modCtx c f) := by
  unfold State.modCtx
  split
  · exact s.setCtx_dev ..
  · exact .refl s

theorem State.fault_dev (s : State) (cx cls d core row a pc : Nat) (l : List Nat) : DevOnly s (s.fault cx cls d core row a pc l) := by
  obtain ⟨cs, fs, h⟩ := s.fault_frame cx cls d core row a pc l
  rw [h]
  exact ⟨_, _, cs, fs, _, _, _, _, rfl⟩

theorem State.write_dev (s : State) (k : Nat) (bs : List Byte) : DevOnly s (s.write k bs) := by
  obtain ⟨po, cs, fs, tx, h⟩ := s.write_frame k bs
  rw [h]
  exact ⟨_, po, cs, fs, tx, _, _, _, rfl⟩

theorem State.puts_dev (s : State) (ks : List (Nat × Nat)) (bs : List Byte) : DevOnly s (s.puts ks bs) := by
  induction ks generalizing s bs with
  | nil => exact .refl s
  | cons e ks ih => exact (s.write_dev ..).trans (ih ..)

theorem State.interrupt_dev (s : State) (cx : Nat) : DevOnly s (s.interrupt cx) := ⟨_, _, _, _, _, _, _, _, rfl⟩

/-- Where a write goes on from what it reaches, it changes what the rest changes. -/
theorem State.reach_dev {s : State} {port cx a n acc : Nat} {r : Reach} (h : s.reach port cx a n acc = r) : DevOnly s r.state := by
  subst h
  exact (s.reach_portsOnly ..).dev

theorem State.devStop_dev (s : State) (die cx va : Nat) (bs : List Byte) : DevOnly s (s.devStop die cx va bs).state := by
  unfold State.devStop
  dsimp only
  split
  case h_4 ks s' hr =>
    have h1 : DevOnly s s' := State.reach_dev hr
    split
    · exact h1
    · split
      · exact h1.trans (s'.puts_dev ..)
      · split
        case h_4 rs s2 hr2 => exact h1.trans ((State.reach_dev hr2).trans ((s2.puts_dev ..).trans (State.puts_dev ..)))
        all_goals
          rename_i hr2
          exact h1.trans (State.reach_dev hr2)
  all_goals
    rename_i hr
    exact State.reach_dev hr

theorem State.devPut_dev (s : State) (die cx va acc : Nat) (bs : List Byte) : DevOnly s (s.devPut die cx va acc bs).state := by
  unfold State.devPut
  split
  case h_1 ks s' hr => exact (State.reach_dev hr).trans (s'.puts_dev ..)
  all_goals
    rename_i hr
    exact State.reach_dev hr

theorem State.devTry_dev (s : State) (die cx kind va : Nat) (bs : List Byte) : DevOnly s (s.devTry die cx kind va bs).state := by
  unfold State.devTry
  split
  · exact s.devStop_dev ..
  · split
    · exact s.devPut_dev ..
    · split
      · exact s.devPut_dev ..
      · split
        · have h := s.devPut_dev die cx va 2 (bs.take 12 ++ bytesOfNat 4 s.tb)
          split
          · next s' hr =>
            rw [hr] at h
            exact h.trans (s'.interrupt_dev cx)
          · exact h
        · exact s.devPut_dev ..

theorem State.devLost_dev (s : State) (cx kind addr cls detail : Nat) : DevOnly s (s.devLost cx kind addr cls detail) := by
  unfold State.devLost
  split
  · exact s.modCtx_dev ..
  · exact s.fault_dev ..

theorem State.devWriteAt_dev (s : State) (die cx kind va : Nat) (bs : List Byte) : DevOnly s (s.devWriteAt die cx kind va bs) := by
  have h := s.devTry_dev die cx kind va bs
  unfold State.devWriteAt
  split
  · exact ⟨_, _, _, _, _, _, _, _, rfl⟩
  · split <;> rename_i hr <;> rw [hr] at h
    · exact h
    · exact h.trans (State.devLost_dev ..)
    · exact h.trans (State.devLost_dev ..)
    · exact h.trans ⟨_, _, _, _, _, _, _, _, rfl⟩

theorem State.devWrite_dev (s : State) (cx kind va : Nat) (bs : List Byte) : DevOnly s (s.devWrite cx kind va bs) := s.devWriteAt_dev ..

theorem State.record_dev (s : State) (cx : Nat) (r : Rec) : DevOnly s (s.record cx r) := by
  unfold State.record
  split
  · exact .refl s
  · split
    · exact s.setCtx_dev ..
    · exact (s.setCtx_dev ..).trans (State.devWrite_dev ..)

theorem State.complete_dev (s : State) (cx seq status code stage : Nat) : DevOnly s (s.complete cx seq status code stage) := by
  unfold State.complete
  split
  · exact .refl s
  · split
    · exact .refl s
    · dsimp only
      split
      · exact (s.setCtx_dev ..).trans (State.record_dev ..)
      · exact s.setCtx_dev ..

theorem DevOnly.part {s u : State} (h : DevOnly s u) (p : Nat) : u.part p = s.part p := by
  obtain ⟨_, _, _, _, _, _, _, _, rfl⟩ := h
  rfl

end Sys2Proof.Machine

end

section

namespace Sys2Proof.Machine

/-! ## POLICY.SWAP (R305) -/

section
variable {s : State} {p cx seq : Nat}

theorem State.part_modPart_same (s : State) (p : Nat) (f : Part → Part) : (s.modPart p f).part p = f (s.part p) := getT_putT_same ..

/-- Once a swap waits, the partition decides where a unit of it has a decision running. -/
theorem State.deciding_swapNow (s : State) (p cx seq : Nat) : (s.swapNow p cx seq).deciding p = true ↔ ∃ e ∈ s.fcasts, e.1 % 16 = p ∧ e.2.run.isSome = true := by
  rw [State.deciding, State.swapNow, List.any_eq_true]
  constructor
  · rintro ⟨e, he, h⟩
    obtain ⟨f, hf, rfl⟩ := List.mem_map.mp he
    refine ⟨f, hf, ?_⟩
    by_cases hp : f.1 % 16 = p <;> cases hr : f.2.run <;> simp_all
  · rintro ⟨f, hf, hp, hr⟩
    refine ⟨_, List.mem_map.mpr ⟨f, hf, if_pos hp⟩, ?_⟩
    obtain ⟨d, hd⟩ := Option.isSome_iff_exists.mp hr
    simp [hp, hd]

theorem State.part_swapNow (s : State) (p cx seq : Nat) : (s.swapNow p cx seq).part p = { s.part p with swap := some (cx, seq) } :=
  s.part_modPart_same p fun x => { x with swap := some (cx, seq) }

/-- A swap that waits for decisions. -/
theorem State.trySwap_deciding (h : s.deciding p = true) : s.trySwap p = s := by
  unfold State.trySwap
  dsimp only
  split
  · rfl
  · exact if_pos h

/-- A swap that takes effect. -/
theorem State.trySwap_part (h : s.deciding p = false) (hs : (s.part p).swap = some (cx, seq)) (hb : (s.part p).badStaged = false) :
    (s.trySwap p).part p = { s.part p with swap := none, image := (s.part p).staged, staged := none, badImage := false } := by
  unfold State.trySwap
  dsimp only
  rw [hs]
  dsimp only
  rw [h, hb]
  exact ((State.complete_dev ..).part p).trans (State.part_setPart ..)

end

/-! ## PART packets -/

theorem toNat_eq_zero_iff {n : Nat} (b : BitVec n) : b.toNat = 0 ↔ b = 0 := ⟨fun h => BitVec.eq_of_toNat_eq h, fun h => h ▸ rfl⟩

/-- The packet that a ring has just started is the one of its number, where no older one has it. -/
theorem find_started {ps : List Pkt} {q : Pkt} {n : Nat} (hn : q.seq = n) (h : ∀ p ∈ ps, p.seq ≠ n) : (ps ++ [q]).find? (fun p => p.seq == n) = some q := by
  rw [List.find?_append, List.find?_eq_none.mpr fun p hp => by simpa using h p hp]
  simp [hn]

end Sys2Proof.Machine

namespace Sys2Proof.Safety

open Sys2Proof.Machine

section
variable {s : State} {cx : Nat} {x : Ctx} {c : Cur}

theorem AtHead.priv (h : AtHead s cx x c) (hp : x.setup.priv = true) (f : Nat → Ctx → Cur → State) : s.onPriv f = .next (f cx x c) := by
  obtain ⟨ht, hx, hc⟩ := h
  exact State.onPriv_priv f ht hx hc hp

theorem AtHead.part (h : AtHead s cx x c) (hp : x.setup.priv = true) {p : Nat} (hh : s.hasPart p = true) (f : Nat → Ctx → Cur → State) :
    s.onPart p f = .next (f cx x c) := by
  obtain ⟨ht, hx, hc⟩ := h
  exact State.onPart_has f ht hx hc hp hh

/-- A packet of a partition that does not exist. -/
theorem AtHead.noPart (h : AtHead s cx x c) (hp : x.setup.priv = true) {p : Nat} (hh : s.hasPart p = false) (f : Nat → Ctx → Cur → State) :
    s.onPart p f = .next (s.endPkt cx c 1 0 0) :=
  (h.priv hp _).trans (congrArg _ (if_neg (by simp [hh])))

theorem AtHead.user (h : AtHead s cx x c) (hp : x.setup.priv = false) (f : Nat → Ctx → Cur → State) : s.onPriv f = .next (s.endPkt cx c 4 0 0) := by
  obtain ⟨ht, hx, hc⟩ := h
  exact State.onPriv_user f ht hx hc hp

theorem AtHead.started (h : AtHead s cx x c) (live body : Nat) : (s.startPkt cx c live body).ctx cx =
    some { x with pkts := x.pkts ++ [⟨c.seq, c.hdr.kind, c.hdr.rel, c.hdr.crec, c.hdr.irq, live, body⟩], cur := none } := by
  obtain ⟨-, hx, -⟩ := h
  rw [State.startPkt, State.modCtx, hx]
  exact findT_putT_same ..

theorem needPart_atHead (h : AtHead s cx x c) (p : Nat) : AtHead (s.needPart p) cx x c := by
  unfold State.needPart
  split
  · exact h
  · exact h

/-- What a swap of a good staged image leaves in the partition. -/
theorem swap_part (s : State) (cx : Nat) (c : Cur) (hb : (s.part (partOf cx)).badStaged = false) :
    let u := ((s.startPkt cx c 0 0).swapNow (partOf cx) cx c.seq).trySwap (partOf cx)
    let p := s.part (partOf cx)
    ((∀ e ∈ s.fcasts, e.1 % 16 = partOf cx → e.2.run = none) →
      (u.part (partOf cx)).image = p.staged ∧ (u.part (partOf cx)).staged = none ∧ (u.part (partOf cx)).swap = none) ∧
    ((∃ e ∈ s.fcasts, e.1 % 16 = partOf cx ∧ e.2.run.isSome = true) →
      (u.part (partOf cx)).image = p.image ∧ (u.part (partOf cx)).staged = p.staged ∧ (u.part (partOf cx)).swap = some (cx, c.seq)) := by
  intro u p
  have hfc : (s.startPkt cx c 0 0).fcasts = s.fcasts := State.modCtx_fcasts ..
  have hpart : (s.startPkt cx c 0 0).part (partOf cx) = p := (State.modCtx_dev ..).part _
  have hd := State.deciding_swapNow (s.startPkt cx c 0 0) (partOf cx) cx c.seq
  have hsw := State.part_swapNow (s.startPkt cx c 0 0) (partOf cx) cx c.seq
  rw [hfc] at hd
  rw [hpart] at hsw
  refine ⟨fun hnone => ?_, fun hsome => ?_⟩
  · have hno : ((s.startPkt cx c 0 0).swapNow (partOf cx) cx c.seq).deciding (partOf cx) = false := by
      rw [Bool.eq_false_iff, ne_eq, hd]
      rintro ⟨e, he, hp, hr⟩
      simp [hnone e he hp] at hr
    have hu := State.trySwap_part hno (by rw [hsw]) (by rw [hsw]; exact hb)
    rw [hsw] at hu
    refine ⟨congrArg Part.image hu, congrArg Part.staged hu, congrArg Part.swap hu⟩
  · have hu : u = (s.startPkt cx c 0 0).swapNow (partOf cx) cx c.seq := State.trySwap_deciding (hd.mpr hsome)
    rw [hu, hsw]
    exact ⟨rfl, rfl, rfl⟩

end

/-- Settles O44, packet by packet. -/
theorem privilegedPackets : Obligations.PrivilegedPackets := by
  unfold Obligations.PrivilegedPackets
  intro s s2 cx x c o1 o2 o3 o4 o5 o6 o7 o8 o9 h
  refine ⟨fun hp => ?_, fun hp => ?_⟩
  · simp only [List.forall_mem_cons, List.not_mem_nil, false_implies, implies_true, and_true]
    exact ⟨h.user hp _, h.user hp _, h.user hp _, h.user hp _, h.user hp _, h.user hp _, h.user hp _, h.user hp _, h.user hp _, h.user hp _⟩
  · intro p
    have hswap (hs : p.swap = none) (hst : p.staged.isSome = true) : exec .policySwap s = .next (if p.badStaged then
          ((s.modPart (partOf cx) fun p => { p with staged := none, badStaged := false }).endPkt cx c 7 1 0).partFault (partOf cx) 1
        else ((s.startPkt cx c 0 0).swapNow (partOf cx) cx c.seq).trySwap (partOf cx)) :=
      (h.priv hp _).trans (congrArg _ ((if_neg (by simp [show (s.part (partOf cx)).swap = none from hs])).trans (if_neg (by simpa [Option.isSome_iff_ne_none] using hst))))
    refine ⟨fun w hw => ?_, fun hs => (h.priv hp _).trans (congrArg _ (if_pos hs)), fun hs hst => ?_, hswap, fun hs hst hb => ?_, fun hn => ?_, fun hn => ?_,
      fun hh => h.part hp hh _, fun hh => h.part hp hh _, fun hh => ?_, fun hh => h.part hp hh _, h.priv hp _, fun hh => h.part hp hh _, ?_,
      fun hh => h.noPart hp hh _, fun hh => h.noPart hp hh _, fun hh => h.noPart hp hh _, fun hh => h.noPart hp hh _, fun hh => h.noPart hp hh _⟩
    · refine (h.priv hp _).trans (congrArg _ ?_)
      dsimp only
      rw [hw]
      rfl
    · exact (h.priv hp _).trans (congrArg _ ((if_neg (by simp [show (s.part (partOf cx)).swap = none from hs])).trans
        (if_pos (by simp [show (s.part (partOf cx)).staged = none from hst]))))
    · exact ⟨_, (hswap hs hst).trans (congrArg _ (if_neg (by simp [hb]))), swap_part s cx c hb⟩
    · refine (h.priv hp _).trans (congrArg _ (if_pos ?_))
      simpa [Option.isSome_iff_ne_none] using hn
    · refine (h.priv hp _).trans (congrArg _ (if_neg ?_))
      simpa using hn
    · refine ⟨fun hy => ?_, fun y hy => ⟨fun hq h0 => ?_, fun hq h0 => ?_, fun e he => ?_⟩⟩
      · refine (h.part hp hh _).trans (congrArg _ ?_)
        dsimp only
        rw [hy]
      · refine (h.part hp hh _).trans (congrArg _ ?_)
        dsimp only
        rw [hy]
        dsimp only
        rw [hq]
        exact if_pos ((toNat_eq_zero_iff _).mpr h0)
      · refine (h.part hp hh _).trans (congrArg _ ?_)
        dsimp only
        rw [hy]
        dsimp only
        rw [hq]
        exact if_neg fun hz => h0 ((toNat_eq_zero_iff _).mp hz)
      · refine (h.part hp hh _).trans (congrArg _ ?_)
        dsimp only
        rw [hy]
        dsimp only
        rw [he]
        simp only [toNat_eq_zero_iff]
    · intro tgt
      refine ⟨fun h0 hn => (h.priv hp _).trans (congrArg _ (if_pos ⟨h0, by rw [show s.ctx (32 * o9.p.toNat + o9.c.toNat) = none from hn]; rfl⟩)), fun hgo hq => ?_⟩
      refine (h.priv hp _).trans (congrArg _ ((if_neg ?_).trans ?_))
      · rintro ⟨h0, hn⟩
        obtain he | hs := hgo
        · exact he h0
        · exact hs (Option.isNone_iff_eq_none.mp hn)
      · have hstart := AtHead.started (needPart_atHead h o9.p.toNat) 0 c.body
        have hfind := find_started (q := ⟨c.seq, c.hdr.kind, c.hdr.rel, c.hdr.crec, c.hdr.irq, 0, c.body⟩) rfl hq
        dsimp only
        rw [hstart, Option.bind_some]
        dsimp only
        rw [hfind]

end Sys2Proof.Safety

end

section

namespace Sys2Proof.Safety

open Sys2Proof.Machine

section
variable {s s2 s3 : State} {cx : Nat} {x : Ctx} {c : Cur}

theorem AtHead.ring (h : AtHead s cx x c) (f : Nat → Ctx → Cur → State) : s.onRing f = .next (f cx x c) := by
  obtain ⟨ht, hx, hc⟩ := h
  exact State.onRing_ring f ht hx hc

/-! ### LAUNCH (R285) -/

section
variable {o : LaunchOps} {b : LBlock}

/-- The span of a LAUNCH, in the state in which its block is bound. -/
def launchSpan (u : State) (cx : Nat) (c : Cur) (o : LaunchOps) (b : LBlock) : Option Span :=
  if o.count = 1 then none else some ⟨0, c.seq, o.count.toNat, u.spanRanges cx b.image o.count.toNat⟩

theorem launchCopy_ok (h : (s.startPkt cx c 0 0).enqueue cx o.block.toNat b c.origin (launchSpan s cx c o b) = .ok s3) : s.launchCopy cx c o b = s3 := by
  rw [launchSpan] at h
  rw [State.launchCopy, h]

theorem launchCopy_full (h : (s.startPkt cx c 0 0).enqueue cx o.block.toNat b c.origin (launchSpan s cx c o b) = .full s3) :
    s.launchCopy cx c o b = s.modCtx cx fun x => { x with cur := some { c with block := some b, full := some (lbQsel b.image) } } := by
  rw [launchSpan] at h
  rw [State.launchCopy, h]

theorem launchCopy_quota (h : (s.startPkt cx c 0 0).enqueue cx o.block.toNat b c.origin (launchSpan s cx c o b) = .quota s3) :
    s.launchCopy cx c o b = s.modCtx cx fun x => { x with cur := some { c with block := some b, full := none } } := by
  rw [launchSpan] at h
  rw [State.launchCopy, h]
  rfl

theorem launch_bound (h : AtHead s cx x c) (hb : c.block = some b) : exec (.launch o) s = .next (s.launchCopy cx c o b) := by
  refine (h.ring _).trans (congrArg _ ?_)
  dsimp only
  rw [hb]

/-- A LAUNCH that reads its block. -/
theorem launch_reads (h : AtHead s cx x c) (hb : c.block = none) (hr : s.readBlock (s.firstDie (partOf cx)) cx o.block.toNat id (o.count == 1) = .ok b s2) :
    exec (.launch o) s = .next (if o.count ≠ 1 ∧ (lbGsz b.image ≠ 1 ∨ lbNch b.image ≠ 0) then s.endPkt cx c 1 0 0
      else if lbRearm b.image then (s2.arm cx o.block.toNat b { c.origin with pkt := none }).endPkt cx c 0 0 0
      else (s2.bindAll b.chans.flatten).launchCopy cx c o b) := by
  refine (h.ring _).trans (congrArg _ ?_)
  dsimp only
  rw [hb]
  dsimp only
  rw [hr]
  rfl

end

/-! ### PIPE (R276) -/

section
variable {c : Cur} {p : Pipe}

/-- A miss of the loader's own read of 64 bytes has reached the fault limit. -/
def LoaderLost (c : Cur) (va : Nat) : Prop := ∃ a, c.lost = some a ∧ va ≤ a ∧ a < va + 64

theorem any_lost {c : Cur} {va : Nat} : (c.lost.any fun a => decide (va ≤ a ∧ a < va + 64)) = true ↔ LoaderLost c va := by
  simp [LoaderLost, Option.any_eq_true]

theorem loaderRead_lost {va code stage : Nat} {go : Nat → State → State} (h : LoaderLost c va) :
    s.loaderRead cx c va 64 code stage go = s.endPkt cx c 2 code stage := if_pos (any_lost.mpr h)

theorem loaderRead_ok {va code stage w : Nat} {go : Nat → State → State} (h : ¬LoaderLost c va) (hr : s.devRead cx va 64 = .ok w s2) :
    s.loaderRead cx c va 64 code stage go = go w s2 := by
  rw [State.loaderRead, if_neg (fun ha => h (any_lost.mp ha)), hr]

/-- Descriptors that have been read, one after another, and those that follow. -/
theorem readStages_read {n m : Nat} {ws out : List Nat} (hr : StagesRead s cx p.stab n ws s3 out)
    (hl : ∀ j < n, ¬LoaderLost c ((p.stab + 64 * (ws.length + j)) % 2 ^ 64)) : s.readStages cx c p (n + m) ws = s3.readStages cx c p m out := by
  induction n generalizing s ws with
  | zero =>
    obtain ⟨rfl, rfl⟩ := hr
    rw [Nat.zero_add]
  | succ n ih =>
    obtain ⟨w, v, hw, hok, hrest⟩ := hr
    rw [Nat.add_right_comm, State.readStages, loaderRead_ok (by simpa using hl 0 n.succ_pos) hw]
    rw [if_pos hok]
    refine ih hrest fun j hj => ?_
    have := hl (j + 1) (Nat.succ_lt_succ hj)
    rwa [List.length_append, List.length_singleton, Nat.add_assoc, Nat.add_comm 1 j]

theorem StagesRead_length {n : Nat} {ws out : List Nat} (hr : StagesRead s cx p.stab n ws s3 out) : out.length = ws.length + n := by
  induction n generalizing s ws with
  | zero =>
    obtain ⟨-, rfl⟩ := hr
    rfl
  | succ n ih =>
    obtain ⟨w, v, -, -, hrest⟩ := hr
    rw [ih hrest, List.length_append, List.length_singleton]
    omega

/-- A miss at a descriptor that has reached the fault limit. -/
theorem readStages_lost {i n : Nat} {out : List Nat} (hi : i < n) (hr : StagesRead s cx p.stab i [] s3 out)
    (hl : ∀ j < i, ¬LoaderLost c ((p.stab + 64 * j) % 2 ^ 64)) (hlost : LoaderLost c ((p.stab + 64 * i) % 2 ^ 64)) :
    s.readStages cx c p n [] = s3.endPkt cx c 2 2 i := by
  obtain ⟨m, rfl⟩ : ∃ m, n = i + (m + 1) := ⟨n - i - 1, by omega⟩
  have hlen : out.length = i := by simpa using StagesRead_length hr
  rw [readStages_read hr (by simpa using hl), State.readStages, hlen, loaderRead_lost hlost]

/-- A pipeline whose descriptors have all been read, that passes its checks and whose band may run. -/
theorem readStages_load {out : List Nat} (hr : StagesRead s cx p.stab p.nstg [] s3 out) (hl : ∀ j < p.nstg, ¬LoaderLost c ((p.stab + 64 * j) % 2 ^ 64))
    (hok : ((s3.ctx cx).bind fun x => s3.refusal cx x { p with stages := out }) = none) (hrows : p.r ≤ (s3.freeGeneral p.core).length)
    (hrun : s3.bandRuns cx { p with stages := out, pkt := c.seq, q := c.seq } = true) :
    s.readStages cx c p p.nstg [] = (s3.startPkt cx c 1 0).loadPipe cx { p with stages := out, pkt := c.seq, q := c.seq } := by
  have hread := readStages_read (c := c) (m := 0) hr (by simpa using hl)
  rw [Nat.add_zero] at hread
  rw [hread, State.readStages]
  dsimp only
  rw [hok]
  exact if_neg (by simp only [hrun, Bool.not_true, Bool.or_false, decide_eq_true_eq]; exact Nat.not_lt.mpr hrows)

theorem pipe_reads {o : PipeOps} (h : AtHead s cx x c) (h64 : o.block.toNat % 64 = 0) (hc : isCanon o.block.toNat = true) : exec (.pipe o) s =
    .next (s.loaderRead cx c o.block.toNat 64 1 0 fun w s =>
      match pipeBlock c.seq w with
      | none => s.refuse cx c 1 0
      | some p => s.readStages cx c p p.nstg []) :=
  (h.ring _).trans (congrArg _ (if_neg (by simp [h64, hc])))

theorem pipe_lost {o : PipeOps} (h : AtHead s cx x c) (h64 : o.block.toNat % 64 = 0) (hc : isCanon o.block.toNat = true) (hl : LoaderLost c o.block.toNat) :
    exec (.pipe o) s = .next (s.endPkt cx c 2 1 0) :=
  (pipe_reads h h64 hc).trans (congrArg _ (loaderRead_lost hl))

/-- A PIPE whose block has been read reads the descriptors. -/
theorem pipe_stages {o : PipeOps} {w : Nat} (h : AtHead s cx x c) (h64 : o.block.toNat % 64 = 0) (hc : isCanon o.block.toNat = true)
    (hl : ¬LoaderLost c o.block.toNat) (hr : s.devRead cx o.block.toNat 64 = .ok w s2) (hp : pipeBlock c.seq w = some p) :
    exec (.pipe o) s = .next (s2.readStages cx c p p.nstg []) := by
  rw [pipe_reads h h64 hc, loaderRead_ok hl hr]
  rw [hp]

theorem pipe_refused {o : PipeOps} (h : AtHead s cx x c) (hb : o.block.toNat % 64 ≠ 0 ∨ isCanon o.block.toNat = false) :
    exec (.pipe o) s = .next (s.endPkt cx c 2 1 0) :=
  (h.ring _).trans (congrArg _ (if_pos hb))

end

/-! ### CMD (R279), SIGNAL (R281) and WAIT (R282) -/

theorem waiting_started {o : WaitOps} (h : c.started = true) (tb : Nat) : c.waiting o tb = c := if_pos h

theorem waiting_fields (c : Cur) (o : WaitOps) (tb : Nat) : (c.waiting o tb).wkey = c.wkey ∧ (c.waiting o tb).wok = c.wok := by
  unfold Cur.waiting
  split <;> exact ⟨rfl, rfl⟩

theorem cmd_refused_iff (s : State) (cx : Nat) (o : CmdOps) : ((s.core o.core.toNat).part ≠ some (partOf cx) ∨
      cmdValid o.queue.toNat o.lo.toNat o.hi.toNat = false ∨ (bits o.lo.toNat 98 1 = 0 ∧ o.hi.toNat ≠ 0)) ↔
    ¬((s.core o.core.toNat).part = some (partOf cx) ∧ cmdValid o.queue.toNat o.lo.toNat o.hi.toNat = true ∧ (bits o.lo.toNat 98 1 = 0 → o.hi.toNat = 0)) := by
  rw [← Bool.not_eq_true]
  tauto

theorem waitHolds_iff (op : BitVec 2) (now val : Nat) :
    waitHolds (if op = 1 then 2 else 1) now val = true ↔ if op = 1 then val ≤ now else now = val := by
  split <;> simp [waitHolds]

/-- A WAIT that compares. -/
theorem wait_compares {o : WaitOps} {e : PEnt} (h : AtHead s cx x c) (hk : c.wkey = none) (hx : s.xlate (s.devPort cx) cx o.addr.toNat 1 = (.ok e, s2))
    (hp : s2.poisoned (entKey e o.addr.toNat) 8 = none) : exec (.wait o) s = .next (
      if waitHolds (if o.op = 1 then 2 else 1) (getN s2.mem (entKey e o.addr.toNat) 8) o.value.toNat then s2.endPkt cx (c.waiting o s.tb) 0 0 0
      else s2.modCtx cx fun x => { x with cur := some { c.waiting o s.tb with wkey := some (entKey e o.addr.toNat) } }) := by
  refine (h.ring _).trans (congrArg _ ?_)
  dsimp only
  rw [(waiting_fields c o s.tb).1, hk]
  dsimp only
  rw [hx]
  dsimp only
  rw [hp]
  rfl

end

/-- Settles O42, packet by packet. -/
theorem workPackets : Obligations.WorkPackets := by
  unfold Obligations.WorkPackets
  intro s s2 s3 cx x c h
  refine ⟨fun o b => ?_, fun o w p out i => ?_, fun o => pipe_refused h, fun o => ?_, fun o e => ?_, fun o => ⟨fun key hk => ⟨fun hok hst => ?_, fun hok => ?_⟩, fun e hk hx => ?_⟩⟩
  · intro base copies
    have hcopies (u : State) (hu : exec (.launch o) s = .next (u.launchCopy cx c o b)) : copies u :=
      ⟨fun hr => hu.trans (congrArg _ (launchCopy_ok hr)), fun hr => hu.trans (congrArg _ (launchCopy_full hr)),
        fun hr => hu.trans (congrArg _ (launchCopy_quota hr))⟩
    refine ⟨fun hb => hcopies s (launch_bound h hb), fun hb hr => ⟨fun h1 hre => ?_, fun h1 hsp => ?_, fun hok hre => hcopies _ ?_⟩⟩
    · exact (launch_reads h hb hr).trans (congrArg _ ((if_neg fun hn => hn.1 h1).trans (if_pos hre)))
    · exact (launch_reads h hb hr).trans (congrArg _ (if_pos ⟨h1, hsp⟩))
    · refine (launch_reads h hb hr).trans (congrArg _ ((if_neg ?_).trans (if_neg (by simp [hre]))))
      rintro ⟨h1, hsp⟩
      obtain h1' | ⟨hg, hc⟩ := hok
      · exact h1 h1'
      · exact hsp.elim (fun hn => hn hg) fun hn => hn hc
  · intro q lost stage h64 hc
    refine ⟨fun hl => pipe_lost h h64 hc hl, fun hl hr hp => ⟨fun hi hj hrd hls => ?_, fun hj hrd hok hrows hrun => ?_⟩⟩
    · exact (pipe_stages h h64 hc hl hr hp).trans (congrArg _ (readStages_lost hi hrd hj hls))
    · exact (pipe_stages h h64 hc hl hr hp).trans (congrArg _ (readStages_load hrd hj hok hrows hrun))
  · intro core good
    refine ⟨fun hb => ?_, fun hg hr => ?_, fun hg hr => ?_⟩
    · exact (h.ring _).trans (congrArg _ (if_pos ((cmd_refused_iff s cx o).mpr hb)))
    · exact (h.ring _).trans (congrArg _ ((if_neg fun hn => (cmd_refused_iff s cx o).mp hn hg).trans (if_pos hr)))
    · exact (h.ring _).trans (congrArg _ ((if_neg fun hn => (cmd_refused_iff s cx o).mp hn hg).trans (if_neg (by simp [show s.roomFor cx o.core.toNat o.queue.toNat o.lo.toNat = false from hr]))))
  · intro key hx hp
    refine (h.ring _).trans (congrArg _ ?_)
    dsimp only
    rw [hx]
    refine if_neg ?_
    rintro ⟨h0, hpo⟩
    exact h0 (hp.resolve_right fun hn => by simp [key, hn] at hpo)
  · refine (h.ring _).trans (congrArg _ ?_)
    dsimp only
    rw [waiting_started hst, hk]
    exact if_pos hok
  · refine (h.ring _).trans (congrArg _ ?_)
    obtain ⟨hwk, hwok⟩ := waiting_fields c o s.tb
    dsimp only
    rw [hwk, hwok, hk, hok]
    rfl
  · intro key now c1 holds hp
    exact ⟨fun hh => (wait_compares h hk hx hp).trans (congrArg _ (if_pos ((waitHolds_iff ..).mpr hh))),
      fun hn => (wait_compares h hk hx hp).trans (congrArg _ (if_neg fun hh => hn ((waitHolds_iff ..).mp hh)))⟩

end Sys2Proof.Safety

end

section

namespace Sys2Proof.Safety

open Sys2Proof.Machine

section
variable {s s1 s2 s3 : State} {cx : Nat} {x y : Ctx} {r : Receipt}

/-- A RECEIPT that a fault has ended. -/
theorem receiptWork_faulted (hx : s.ctx cx = some x) (hr : x.receipt = some r) (hf : r.faulted = true) : s.receiptWork cx = s := by
  rw [State.receiptWork, hx]
  dsimp only
  rw [hr]
  exact if_pos (by simp [hf])

/-- A RECEIPT that works takes the step it is at. -/
theorem receiptWork_works (hx : s.ctx cx = some x) (hr : x.receipt = some r) (hf : r.faulted = false) (hw : x.works = true) (hm : x.mig ≠ 4)
    (hp : s.pendR = []) : s.receiptWork cx =
    if r.step = 1 then s.receiptCheck cx r else if r.step = 2 then s.receiptItems cx r else if r.step = 3 then s.receiptEnqueue cx r else s := by
  rw [State.receiptWork, hx]
  dsimp only
  rw [hr]
  exact if_neg (by simp [hf, hw, hm, hp])

/-- A read of an item: from an address, so many bytes, whose locations and state follow. -/
def ItemReads (cx : Nat) (r : Receipt) (s : State) (va n : Nat) (ks : List (Nat × Nat)) (t : State) : Prop :=
  lostIn r.lost va n = none ∧ s.reach (s.devPort cx) cx va n 1 = .ok ks t ∧ t.poisonIn va ks = none

theorem itemReach_ok {va n : Nat} {ks : List (Nat × Nat)} (h : ItemReads cx r s va n ks s1) (go : List (Nat × Nat) → State → State) :
    s.itemReach cx r va n go = go ks s1 := by
  obtain ⟨hl, hr, hp⟩ := h
  rw [State.itemReach, if_neg (by simp [hl]), hr]
  dsimp only
  rw [hp]

theorem itemReach_lost {va n : Nat} (h : lostIn r.lost va n ≠ none) (go : List (Nat × Nat) → State → State) :
    s.itemReach cx r va n go = s.receiptBad cx r :=
  if_pos (Option.isSome_iff_ne_none.mpr h)

/-- Step 1, the header read. -/
theorem receiptCheck_reads {ks : List (Nat × Nat)} (h : ItemReads cx r s r.codea 16 ks s1) : s.receiptCheck cx r =
    match codeLen (natOfBytes (s1.gets ks)) with
    | none => s1.receiptBad cx r
    | some len => blockRead cx r (s1.readBlock (s1.firstDie (partOf cx)) cx r.block id false) fun b s => s.receiptStart cx r len b :=
  (itemReach_ok h _).trans rfl

theorem receiptCheck_block {ks : List (Nat × Nat)} {len : Nat} {b : LBlock} (h : ItemReads cx r s r.codea 16 ks s1)
    (hl : codeLen (natOfBytes (s1.gets ks)) = some len) (hb : s1.readBlock (s1.firstDie (partOf cx)) cx r.block id false = .ok b s2) :
    s.receiptCheck cx r = s2.receiptStart cx r len b := by
  rw [receiptCheck_reads h, hl]
  dsimp only
  rw [hb]
  rfl

theorem receiptStart_ctx (hy : s.ctx cx = some y) (len : Nat) (b : LBlock) : s.receiptStart cx r len b =
    if codeOk r.codea len (lbEntry b.image) = false ∨ ((s.vf y.setup.vf).qslots ≠ 0 ∧ (s.vf y.setup.vf).qslots ≤ s.entriesOf y.setup.vf) then s.receiptBad cx r
    else ((s.bindAll b.chans.flatten).modCtx cx fun x => { x with
      receipt := some (r.checked len b y.chain s.tb), holds := [(r.checked len b y.chain s.tb).itemHold] }).receiptItems cx (r.checked len b y.chain s.tb) := by
  rw [State.receiptStart, hy]

/-- Step 2, both items read. -/
theorem receiptItems_reads {ks ms : List (Nat × Nat)} (h1 : ItemReads cx r s r.codea (16 + r.clen) ks s1) (h2 : ItemReads cx r s1 r.arga r.argl ms s2) :
    s.receiptItems cx r = (s2.modCtx cx fun x => { x with
        receipt := some { r with step := 3, hcode := sha256 (s2.gets ks), harg := sha256 (bytesOfNat 64 r.image ++ s2.gets ms) }
        chain := chainStep (chainStep x.chain 1 (16 + r.clen) (sha256 (s2.gets ks))) 2 (64 + r.argl) (sha256 (bytesOfNat 64 r.image ++ s2.gets ms)) }).receiptEnqueue
      cx { r with step := 3, hcode := sha256 (s2.gets ks), harg := sha256 (bytesOfNat 64 r.image ++ s2.gets ms) } :=
  (itemReach_ok h1 _).trans (itemReach_ok h2 _)

theorem receiptEnqueue_ok
    (h : s.enqueue cx r.block ⟨r.image, r.npkt, r.chans, r.wkey⟩ ⟨BitVec.ofNat 64 (r.seq * 2 ^ 20), some r.seq, true⟩ none = .ok s3) :
    s.receiptEnqueue cx r = s3.modCtx cx fun x => { x with receipt := x.receipt.map fun r => { r with step := 4, lost := [] } } := by
  rw [State.receiptEnqueue, h]

end

/-- Settles O43, step by step. -/
theorem receiptPackets : Obligations.ReceiptPackets := by
  unfold Obligations.ReceiptPackets
  intro s s1 s2 s3 cx x y c o r b len ks ms reads
  refine ⟨fun h => ⟨fun hbad => (h.ring _).trans (congrArg _ (if_pos hbad)), fun hok => (h.ring _).trans (congrArg _ (if_neg (by simp [hok])))⟩, rfl,
    receiptWork_faulted, fun hx hr hf hw hm hp => ?_⟩
  have hwork := receiptWork_works hx hr hf hw hm hp
  refine ⟨fun h1 hl => ?_, fun h1 hrd => ?_, fun h2 hr1 hr2 => ?_, fun h3 he => ?_⟩
  · exact hwork.trans ((if_pos h1).trans (itemReach_lost hl _))
  · rw [hwork, if_pos h1]
    refine ⟨fun hn => ?_, fun hl hb hy => ?_⟩
    · rw [receiptCheck_reads hrd, hn]
    · rw [receiptCheck_block hrd hl hb, receiptStart_ctx hy]
      refine ⟨fun hbad => if_pos hbad, fun hok hq => if_neg ?_⟩
      rintro (hc | ⟨hq0, hle⟩)
      · exact absurd (hc.symm.trans hok) (by decide)
      · exact hq.elim hq0 (Nat.not_lt.mpr hle)
  · rw [hwork, if_neg (by omega), if_pos h2]
    exact receiptItems_reads hr1 hr2
  · rw [hwork, if_neg (by omega), if_neg (by omega), if_pos h3]
    exact receiptEnqueue_ok he

end Sys2Proof.Safety

end

section

/-! SUPPORT. What writes leave of a context that waits for nothing, and what they leave of zeros (O45). -/

namespace Sys2Proof.Machine

/-! ## Tables -/

theorem findT_keys_ne {α : Type} {t : Tbl α} {k : Nat} (h : findT t k = none) : ∀ e ∈ t, e.1 ≠ k := by
  induction t with
  | nil => exact fun e he => absurd he List.not_mem_nil
  | cons a t ih =>
    obtain ⟨n, x⟩ := a
    rw [findT] at h
    split at h
    · exact absurd h (Option.some_ne_none x)
    · intro e he
      obtain rfl | he := List.mem_cons.mp he
      · assumption
      · exact ih h e he

/-- A table whose values change and whose keys stay. -/
theorem findT_map {α β : Type} (t : Tbl α) (f : Nat × α → β) (k : Nat) : findT (t.map fun e => (e.1, f e)) k = (findT t k).map fun x => f (k, x) := by
  induction t with
  | nil => rfl
  | cons a t ih =>
    obtain ⟨n, x⟩ := a
    rw [List.map_cons, findT, findT]
    split
    case isTrue h =>
      subst h
      rfl
    case isFalse h => exact ih

/-! ## A context that waits for nothing -/

/-- A context that has no activation, no packet at its head and no memory of another device's. -/
structure Ctx.Still (z : Ctx) : Prop where
  acts : z.acts = []
  cur : z.cur = none
  stubs : z.stubs = []

theorem Ctx.Still.touched {z : Ctx} (h : z.Still) (bad : Nat → Bool) (m : List Host.Cell) (k n : Nat) : ctxTouched bad m k n z = z := by
  obtain ⟨ha, hc, hs⟩ := h
  cases z
  subst ha hc hs
  rfl

theorem Ctx.Still.badWait {z : Ctx} (h : z.Still) (s : State) (k n : Nat) : s.badWait k n z = none := by
  obtain ⟨ha, hc, -⟩ := h
  simp [State.badWait, ctxReads, ha, hc]

/-- What the data error of a wait does, where a context meets one. -/
def State.faultWait (s : State) (k n : Nat) (u : State) (e : Nat × Ctx) : State := (s.badWait k n e.2).elim u fun a => u.fault e.1 12 0 63 15 a 0 []

theorem State.waitsBad_eq (s : State) (k n : Nat) : s.waitsBad k n = s.ctxs.foldl (s.faultWait k n) s := rfl

theorem State.faultWait_none {s u : State} {k n : Nat} {e : Nat × Ctx} (h : s.badWait k n e.2 = none) : s.faultWait k n u e = u := by
  rw [State.faultWait, h]
  rfl

theorem State.faultWait_some {s u : State} {k n a : Nat} {e : Nat × Ctx} (h : s.badWait k n e.2 = some a) :
    s.faultWait k n u e = u.fault e.1 12 0 63 15 a 0 [] := by
  rw [State.faultWait, h]
  rfl

/-- One context, of a number that no other has. -/
def State.Lone (s : State) (c : Nat) (z : Ctx) : Prop := s.ctx c = some z ∧ ∀ e ∈ s.ctxs, e.1 = c → e.2 = z

section
variable {s : State} {c : Nat} {z : Ctx}

theorem State.Lone.setCtx (h : s.Lone c z) {d : Nat} (hd : d ≠ c) (x : Ctx) : (s.setCtx d x).Lone c z := by
  obtain ⟨hz, hu⟩ := h
  refine ⟨(State.ctx_setCtx_other s x hd.symm).trans hz, fun e he hc => ?_⟩
  obtain he | rfl := mem_putT he
  · exact hu e he hc
  · exact absurd hc hd

theorem State.Lone.modCtx (h : s.Lone c z) {d : Nat} (hd : d ≠ c) (f : Ctx → Ctx) : (s.modCtx d f).Lone c z := by
  unfold State.modCtx
  split
  · exact h.setCtx hd _
  · exact h

theorem State.Lone.fault (h : s.Lone c z) {d : Nat} (hd : d ≠ c) (cls det core row addr pc : Nat) (succ : List Nat) :
    (s.fault d cls det core row addr pc succ).Lone c z := by
  unfold State.fault
  split
  · exact h
  · split
    · exact h.setCtx hd _
    · exact h.setCtx hd _

/-- What data errors of waits do leaves it. -/
theorem State.Lone.waitsBad (h : s.Lone c z) (hz : z.Still) (k n : Nat) : (s.waitsBad k n).Lone c z := by
  have hfold (l : List (Nat × Ctx)) (hl : ∀ e ∈ l, e.1 = c → e.2 = z) (u : State) (hu : u.Lone c z) :
      (l.foldl (s.faultWait k n) u).Lone c z := by
    induction l generalizing u with
    | nil => exact hu
    | cons e l ih =>
      refine ih (fun e he => hl e (List.mem_cons_of_mem _ he)) _ ?_
      by_cases hc : e.1 = c
      · rw [State.faultWait_none (by rw [hl e List.mem_cons_self hc, hz.badWait])]
        exact hu
      · cases hb : s.badWait k n e.2 with
        | none =>
          rw [State.faultWait_none hb]
          exact hu
        | some a =>
          rw [State.faultWait_some hb]
          exact hu.fault hc ..
  exact hfold s.ctxs h.2 s h

theorem State.Lone.touched {s t : State} {c : Nat} {z : Ctx} (h : s.Lone c z) (hz : z.Still) {bad : Nat → Bool} {m : List Host.Cell} {k n : Nat}
    (ht : t.ctxs = s.ctxs.map fun e => (e.1, ctxTouched bad m k n e.2)) : t.Lone c z := by
  obtain ⟨hc, hu⟩ := h
  refine ⟨?_, fun e he hk => ?_⟩
  · rw [State.ctx, ht, findT_map s.ctxs fun e => ctxTouched bad m k n e.2, show findT s.ctxs c = some z from hc]
    exact congrArg some (hz.touched ..)
  · rw [ht] at he
    obtain ⟨a, ha, rfl⟩ := List.mem_map.mp he
    rw [hu a ha hk]
    exact hz.touched ..

theorem State.Lone.write (h : s.Lone c z) (hz : z.Still) (k : Nat) (bs : List Byte) : (s.write k bs).Lone c z := by
  unfold State.write
  dsimp only
  split
  · exact State.Lone.waitsBad (State.Lone.touched h hz rfl) hz ..
  · exact h

theorem State.Lone.puts (h : s.Lone c z) (hz : z.Still) (ks : List (Nat × Nat)) (bs : List Byte) : (s.puts ks bs).Lone c z := by
  induction ks generalizing s bs with
  | nil => exact h
  | cons e ks ih => exact ih (h.write hz ..) _

theorem State.Lone.ports (h : s.Lone c z) {t : State} (ht : PortsOnly s t) : t.Lone c z := by
  obtain ⟨ps, rfl⟩ := ht
  exact h

end

/-! ## Contexts that stay -/

theorem State.modCtx_contexts (s : State) (c : Nat) (f : Ctx → Ctx) : ∃ cs, s.modCtx c f = { s with ctxs := cs } := by
  unfold State.modCtx
  split
  · exact ⟨_, rfl⟩
  · exact ⟨s.ctxs, rfl⟩

section
variable {s : State} {c : Nat}

theorem State.setCtx_has (h : (s.ctx c).isSome) (d : Nat) (x : Ctx) : ((s.setCtx d x).ctx c).isSome := by
  by_cases hd : c = d
  · rw [hd, State.ctx_setCtx]
    rfl
  · rw [State.ctx_setCtx_other s x hd]
    exact h

theorem State.fault_has (h : (s.ctx c).isSome) (d cls det core row addr pc : Nat) (succ : List Nat) : ((s.fault d cls det core row addr pc succ).ctx c).isSome := by
  unfold State.fault
  split
  · exact h
  · split
    · exact State.setCtx_has h ..
    · exact State.setCtx_has h ..

theorem State.waitsBad_has (h : (s.ctx c).isSome) (k n : Nat) : ((s.waitsBad k n).ctx c).isSome := by
  have hfold (l : List (Nat × Ctx)) (u : State) (hu : (u.ctx c).isSome) :
      ((l.foldl (s.faultWait k n) u).ctx c).isSome := by
    induction l generalizing u with
    | nil => exact hu
    | cons e l ih =>
      refine ih _ ?_
      cases hb : s.badWait k n e.2 with
      | none =>
        rw [State.faultWait_none hb]
        exact hu
      | some a =>
        rw [State.faultWait_some hb]
        exact State.fault_has hu ..
  exact hfold s.ctxs s h

theorem State.touched_has {s t : State} {c : Nat} (h : (s.ctx c).isSome) {f : Nat × Ctx → Ctx} (ht : t.ctxs = s.ctxs.map fun e => (e.1, f e)) :
    (t.ctx c).isSome := by
  rw [State.ctx, ht, findT_map, Option.isSome_map]
  exact h

theorem State.write_has (h : (s.ctx c).isSome) (k : Nat) (bs : List Byte) : ((s.write k bs).ctx c).isSome := by
  unfold State.write
  dsimp only
  split
  · exact State.waitsBad_has (State.touched_has h (f := fun e => ctxTouched _ _ _ _ e.2) rfl) ..
  · exact h

theorem State.puts_has (h : (s.ctx c).isSome) (ks : List (Nat × Nat)) (bs : List Byte) : ((s.puts ks bs).ctx c).isSome := by
  induction ks generalizing s bs with
  | nil => exact h
  | cons e ks ih => exact ih (State.write_has h ..) _

end

/-! ## Zeros -/

section
variable {s : State}

theorem getD_zeros (n i : Nat) : (List.replicate n (0 : Byte)).getD i 0 = 0 := by
  rw [List.getD_eq_getElem?_getD, List.getElem?_replicate]
  split <;> rfl

/-- A write of zeros leaves a zero zero. -/
theorem State.write_zeros {j : Nat} (hwf : Memory.wf s.mem = true) (k n : Nat) (h : getB s.mem j = 0 ∨ (k ≤ j ∧ j < k + n)) :
    getB (s.write k (List.replicate n 0)).mem j = 0 := by
  rw [State.getB_write hwf, List.length_replicate]
  split
  · exact getD_zeros ..
  case isFalse hn => exact h.resolve_right hn

theorem State.puts_zeros {j : Nat} (hwf : Memory.wf s.mem = true) {ks : List (Nat × Nat)} {n : Nat} (hn : (ks.map Prod.snd).sum ≤ n)
    (h : getB s.mem j = 0 ∨ ∃ e ∈ ks, e.1 ≤ j ∧ j < e.1 + e.2) : getB (s.puts ks (List.replicate n 0)).mem j = 0 := by
  induction ks generalizing s n with
  | nil => exact h.resolve_right (by simp)
  | cons e ks ih =>
    rw [List.map_cons, List.sum_cons] at hn
    rw [State.puts, List.take_replicate, List.drop_replicate, Nat.min_eq_left (by omega)]
    refine ih (State.write_wf _ _ hwf) (by omega) ?_
    obtain h0 | ⟨f, hf, hj⟩ := h
    · exact .inl (State.write_zeros hwf _ _ (.inl h0))
    · obtain rfl | hf := List.mem_cons.mp hf
      · exact .inl (State.write_zeros hwf _ _ (.inr hj))
      · exact .inr ⟨f, hf, hj⟩

end

/-! ## Die storage that passes on -/

theorem State.passUnit_frame (s : State) (die u : Nat) : ∃ m po du, s.passUnit die u = { s with mem := m, poison := po, dieUse := du } := by
  unfold State.passUnit
  split
  · exact ⟨s.mem, s.poison, s.dieUse, rfl⟩
  · split
    · exact ⟨s.mem, s.poison, s.dieUse, rfl⟩
    · exact ⟨_, _, _, rfl⟩

/-- What changes memory, its poison and the uses of die storage alone, again and again. -/
theorem foldl_units {α : Type} {g : State → α → State} (hg : ∀ u a, ∃ m po du, g u a = { u with mem := m, poison := po, dieUse := du }) (l : List α)
    (s : State) : ∃ m po du, l.foldl g s = { s with mem := m, poison := po, dieUse := du } := by
  induction l generalizing s with
  | nil => exact ⟨s.mem, s.poison, s.dieUse, rfl⟩
  | cons a l ih =>
    obtain ⟨m, po, du, h⟩ := ih (g s a)
    obtain ⟨m1, po1, du1, h1⟩ := hg s a
    exact ⟨m, po, du, h.trans (by rw [h1])⟩

theorem State.passUnits_frame (s : State) : ∃ m po du, s.passUnits = { s with mem := m, poison := po, dieUse := du } :=
  foldl_units (fun _ _ => foldl_units (fun v a => v.passUnit_frame _ a) _ _) _ _

theorem State.ungate_frame (s : State) (part : Nat) (su : Setup) : ∃ rs, s.ungate part su = { s with rows := rs } := by
  unfold State.ungate
  split
  · exact ⟨_, rfl⟩
  · exact ⟨s.rows, rfl⟩

/-! ## What is reached -/

theorem sum_pieces_le (f a n : Nat) : ((pieces f a n).map Prod.snd).sum ≤ n := by
  induction f generalizing a n with
  | zero => exact n.zero_le
  | succ f ih =>
    rw [pieces]
    split
    · exact n.zero_le
    · dsimp only
      rw [List.map_cons, List.sum_cons]
      have := ih ((a + min n (4096 - a % 4096)) % 2 ^ 64) (n - min n (4096 - a % 4096))
      have hmin := Nat.min_le_left n (4096 - a % 4096)
      omega

theorem State.reachPieces_sizes {s v : State} {port cx acc : Nat} {as : List Nat} {ps ks : List (Nat × Nat)}
    (h : s.reachPieces port cx acc as ps = .ok ks v) : ks.map Prod.snd = ps.map Prod.snd := by
  induction ps generalizing s ks v with
  | nil =>
    rw [State.reachPieces] at h
    obtain ⟨rfl, -⟩ := Reach.ok.inj h
    rfl
  | cons p ps ih =>
    rw [State.reachPieces] at h
    split at h
    · split at h
      · next hr =>
        obtain ⟨rfl, -⟩ := Reach.ok.inj h
        rw [List.map_cons, List.map_cons, ih hr]
      · next hf => exact absurd h (hf _ _)
    all_goals exact absurd h (by simp)

theorem State.reach_sizes {s v : State} {port cx a n acc : Nat} {ks : List (Nat × Nat)} (h : s.reach port cx a n acc = .ok ks v) :
    (ks.map Prod.snd).sum ≤ n := by
  unfold State.reach at h
  dsimp only at h
  split at h
  · rw [State.reachPieces_sizes h]
    exact sum_pieces_le ..
  · next hf => exact absurd h (hf _ _)

end Sys2Proof.Machine

namespace Sys2Proof.Safety

open Sys2Proof.Machine

section
variable {s : State} {cx tgt : Nat} {y : Ctx} {p : Pkt} {o : PartCtxOps}

/-- How far a packet has come is all that its mark changes. -/
theorem ctxMark_ctx (hy : s.ctx cx = some y) (n : Nat) :
    (s.ctxMark cx p n).ctx cx = some { y with pkts := { p with live := n } :: y.pkts.filter fun q => q.seq != p.seq } := by
  rw [State.ctxMark, State.ctx_modCtx, if_pos rfl, hy]
  rfl

theorem ctxMark_ctx_other (h : tgt ≠ cx) (n : Nat) : (s.ctxMark cx p n).ctx tgt = s.ctx tgt := by
  rw [State.ctxMark, State.ctx_modCtx, if_neg h]

theorem ctxMark_drained (h : tgt ≠ cx) (n : Nat) : (s.ctxMark cx p n).drained tgt = s.drained tgt := by
  have hctx := ctxMark_ctx_other (s := s) (p := p) h n
  obtain ⟨cs, hcs⟩ := State.modCtx_contexts s cx fun y => { y with pkts := { p with live := n } :: y.pkts.filter fun q => q.seq != p.seq }
  rw [State.ctxMark, hcs] at hctx ⊢
  rw [State.drained, State.drained, State.quiet, State.quiet, hctx]
  rfl

theorem ctxDiscard_none (h : s.ctx tgt = none) : s.ctxDiscard cx p tgt = s.ctxMark cx p 2 := by
  rw [State.ctxDiscard, h, State.modCtx, h]
  rfl

/-- A PART.CTX whose target does not exist makes it. -/
theorem ctxWork_creates (hne : cx ≠ 32 * o.p.toNat + o.c.toNat) (ht : s.ctx (32 * o.p.toNat + o.c.toNat) = none)
    (hd : s.drained (32 * o.p.toNat + o.c.toNat) = true) (hl : p.live = 0) : s.ctxWork cx p o = (s.ctxMark cx p 2).ctxReplace cx p o (32 * o.p.toNat + o.c.toNat) := by
  rw [State.ctxWork]
  dsimp only
  rw [if_neg (show ¬ p.live = 1 by omega), ht]
  dsimp only
  rw [hd, if_neg (by simp), if_neg (show ¬ p.live = 2 by omega), ctxDiscard_none ht, ctxMark_drained hne.symm, hd, ctxMark_ctx_other hne.symm, ht]
  rfl

/-- A write of zeros to the header of a stop ring that is reached. -/
theorem devWrite_header {v : State} {va : Nat} {ks : List (Nat × Nat)} (hw : s.pendW = [])
    (h : s.reach (ctxPort (s.firstDie (partOf tgt))) tgt va 64 3 = .ok ks v) :
    s.devWrite tgt 7 va (List.replicate 64 0) = v.puts ks (List.replicate 64 0) := by
  have htry : s.devTry (s.firstDie (partOf tgt)) tgt 7 va (List.replicate 64 0) = .ok (v.puts ks (List.replicate 64 0)) := by
    show s.devPut (s.firstDie (partOf tgt)) tgt va 3 (List.replicate 64 0) = _
    rw [State.devPut, List.length_replicate, h]
  rw [State.devWrite, State.devWriteAt, hw]
  dsimp only [List.find?_nil]
  rw [htry]

/-- The packet of a context that stands, where its record is not asked for. -/
theorem created_done {w : Ctx} (hw : s.pendW = []) (hc : s.ctx cx = some w) {q : Pkt} (hq : w.pkts.find? (fun q => q.seq == p.seq) = some q)
    (hr : q.crec = false) : s.created cx p.seq tgt = s.setCtx cx { w with pkts := w.pkts.filter fun q => q.seq != p.seq } := by
  rw [State.created, hw, List.any_nil, if_neg Bool.false_ne_true, State.complete, hc]
  dsimp only
  rw [hq]
  dsimp only
  rw [hr]
  rfl

/-- The state in which the new context's stop ring is reached. -/
def ctxMade (s : State) (cx : Nat) (p : Pkt) (o : PartCtxOps) : State :=
  (((s.ctxMark cx p 2).forget (32 * o.p.toNat + o.c.toNat)).setCtx (32 * o.p.toNat + o.c.toNat)
    (Ctx.create (setupOf o) (chainStart o.c.toNat o.p.toNat))).passUnits.ungate o.p.toNat (setupOf o)

theorem ctxMade_ctxs : (ctxMade s cx p o).ctxs =
    (((s.ctxMark cx p 2).forget (32 * o.p.toNat + o.c.toNat)).setCtx (32 * o.p.toNat + o.c.toNat)
      (Ctx.create (setupOf o) (chainStart o.c.toNat o.p.toNat))).ctxs ∧ (ctxMade s cx p o).pendW = (s.ctxMark cx p 2).pendW := by
  obtain ⟨rs, h⟩ := State.ungate_frame ((((s.ctxMark cx p 2).forget (32 * o.p.toNat + o.c.toNat)).setCtx (32 * o.p.toNat + o.c.toNat)
    (Ctx.create (setupOf o) (chainStart o.c.toNat o.p.toNat))).passUnits) o.p.toNat (setupOf o)
  obtain ⟨m, po, du, h2⟩ := State.passUnits_frame (((s.ctxMark cx p 2).forget (32 * o.p.toNat + o.c.toNat)).setCtx (32 * o.p.toNat + o.c.toNat)
    (Ctx.create (setupOf o) (chainStart o.c.toNat o.p.toNat)))
  rw [ctxMade, h, h2]
  exact ⟨rfl, rfl⟩

theorem ctxMade_canon (h : Memory.wf s.mem = true) : Memory.wf (ctxMade s cx p o).mem = true :=
  State.ungate_canon (State.passUnits_canon (State.setCtx_canon (State.forget_canon (State.modCtx_canon h ..) _) ..)) ..

/-- The new context is the only one of its number. -/
theorem ctxMade_lone (hne : cx ≠ 32 * o.p.toNat + o.c.toNat) (ht : s.ctx (32 * o.p.toNat + o.c.toNat) = none) :
    (ctxMade s cx p o).Lone (32 * o.p.toNat + o.c.toNat) (Ctx.create (setupOf o) (chainStart o.c.toNat o.p.toNat)) := by
  have hcs := (ctxMade_ctxs (s := s) (cx := cx) (p := p) (o := o)).1
  have hnone : findT (s.ctxMark cx p 2).ctxs (32 * o.p.toNat + o.c.toNat) = none := (ctxMark_ctx_other hne.symm 2).trans ht
  refine ⟨?_, fun e he hk => ?_⟩
  · rw [State.ctx, hcs]
    exact findT_putT_same ..
  · rw [hcs] at he
    obtain he | rfl := mem_putT he
    · exact absurd hk (findT_keys_ne hnone e he)
    · rfl

theorem ctxMade_has (hy : s.ctx cx = some y) : ((ctxMade s cx p o).ctx cx).isSome := by
  rw [State.ctx, (ctxMade_ctxs (s := s) (cx := cx) (p := p) (o := o)).1]
  exact State.setCtx_has (s := (s.ctxMark cx p 2).forget (32 * o.p.toNat + o.c.toNat)) (Option.isSome_iff_exists.mpr ⟨_, ctxMark_ctx hy 2⟩) _ _

theorem ctxMade_pendW (hw : s.pendW = []) : (ctxMade s cx p o).pendW = [] := by
  obtain ⟨cs, hcs⟩ := State.modCtx_contexts s cx fun y => { y with pkts := { p with live := 2 } :: y.pkts.filter fun q => q.seq != p.seq }
  rw [ctxMade_ctxs.2, State.ctxMark, hcs]
  exact hw

end

theorem puts_pendW {s : State} (ks : List (Nat × Nat)) (bs : List Byte) : (s.puts ks bs).pendW = s.pendW := by
  induction ks generalizing s bs with
  | nil => rfl
  | cons e ks ih =>
    obtain ⟨po, cs, fs, tx, h⟩ := s.write_frame e.1 (bs.take e.2)
    exact (ih _).trans (by rw [h])

/-- Settles O45: the new context waits for nothing, so the zeros written to its stop ring leave it as it was made. -/
theorem contextCreation : Obligations.ContextCreation := by
  unfold Obligations.ContextCreation
  intro s v cx y p o ks tgt s1 hwf hy hne ht hd hpw hl hcrec hen hs4 hs12 hreach t
  have hports : PortsOnly (ctxMade s cx p o) v := State.reach_ok_portsOnly hreach
  have hpwv : v.pendW = [] := by
    obtain ⟨ps, rfl⟩ := hports
    exact ctxMade_pendW hpw
  have hstill : (Ctx.create (setupOf o) (chainStart o.c.toNat o.p.toNat)).Still := ⟨rfl, rfl, rfl⟩
  have hlone := ((ctxMade_lone (p := p) hne ht).ports hports).puts hstill ks (List.replicate 64 0)
  have hhas : ((v.puts ks (List.replicate 64 0)).ctx cx).isSome := by
    refine State.puts_has ?_ _ _
    obtain ⟨ps, rfl⟩ := hports
    exact ctxMade_has hy
  obtain ⟨w, hw⟩ := Option.isSome_iff_exists.mp hhas
  have hcreate : ((s.ctxMark cx p 2).forget tgt).create tgt o = v.puts ks (List.replicate 64 0) := by
    rw [State.create]
    exact (if_neg (show ¬ o.sring.toNat % 16 = 0 by omega)).trans (devWrite_header (ctxMade_pendW hpw) hreach)
  have hmark : (v.puts ks (List.replicate 64 0)).ctxMark cx p 1 = (v.puts ks (List.replicate 64 0)).setCtx cx
      { w with pkts := { p with live := 1 } :: w.pkts.filter fun q => q.seq != p.seq } := by
    rw [State.ctxMark, State.modCtx, hw]
  have ht' : t = ((v.puts ks (List.replicate 64 0)).setCtx cx { w with pkts := { p with live := 1 } :: w.pkts.filter fun q => q.seq != p.seq }).setCtx cx
      { w with pkts := ({ p with live := 1 } :: w.pkts.filter fun q => q.seq != p.seq).filter fun q => q.seq != p.seq } := by
    refine (ctxWork_creates hne ht hd hl).trans ?_
    rw [State.ctxReplace]
    refine (if_neg hen).trans ?_
    rw [hcreate, hmark]
    exact created_done (s := (v.puts ks (List.replicate 64 0)).setCtx cx { w with pkts := { p with live := 1 } :: w.pkts.filter fun q => q.seq != p.seq })
      ((puts_pendW ..).trans hpwv) (State.ctx_setCtx ..) (q := { p with live := 1 }) (by simp) hcrec
  have hz : t.ctx tgt = some (Ctx.create (setupOf o) (chainStart o.c.toNat o.p.toNat)) := by
    rw [ht']
    exact ((hlone.setCtx hne _).setCtx hne _).1
  have hmem : t.mem = (v.puts ks (List.replicate 64 0)).mem := by rw [ht']; rfl
  have hwfv : Memory.wf v.mem = true := by
    obtain ⟨ps, rfl⟩ := hports
    exact ctxMade_canon hwf
  refine ⟨_, _, hz, rfl, rfl, rfl, rfl, rfl, rfl, rfl, rfl, rfl, rfl, rfl, rfl, rfl, rfl, rfl, rfl, rfl, rfl, rfl, rfl, rfl, rfl, fun e he b hb => ?_,
    by rw [ht']; exact State.ctx_setCtx .., fun q hq => ?_⟩
  · rw [hmem]
    exact State.puts_zeros hwfv (State.reach_sizes hreach) (.inr ⟨e, he, by omega, by omega⟩)
  · simpa using (List.mem_filter.mp hq).2

end Sys2Proof.Safety

end

section

namespace Sys2Proof.Machine

/-! ## Numbers in memory -/

theorem natOfBytes_append (as bs : List Byte) : natOfBytes (as ++ bs) = natOfBytes as + 2 ^ (8 * as.length) * natOfBytes bs := by
  induction as with
  | nil => simp [natOfBytes]
  | cons a as ih =>
    rw [List.cons_append, natOfBytes, ih, natOfBytes, List.length_cons, show 8 * (as.length + 1) = 8 * as.length + 8 by ring, pow_add]
    ring

theorem getBs_append (m : List Host.Cell) (k a b : Nat) : getBs m k (a + b) = getBs m k a ++ getBs m (k + a) b := by
  simp only [getBs, List.range_add, List.map_append, List.map_map]
  congr 2
  funext i
  exact congrArg (getB m) (Nat.add_assoc ..).symm

theorem length_getBs (m : List Host.Cell) (k n : Nat) : (getBs m k n).length = n := by
  rw [getBs, List.length_map, List.length_range]

/-- A number of so many bytes is the one of the first, with the one of the others above it. -/
theorem getN_add (m : List Host.Cell) (k a b : Nat) : getN m k (a + b) = getN m k a + 2 ^ (8 * a) * getN m (k + a) b := by
  rw [getN, getBs_append, natOfBytes_append, length_getBs]
  rfl

/-- The two counts of eight bytes each that a ring's header begins with. -/
theorem bits_getN_counts (m : List Host.Cell) (k : Nat) : bits (getN m k 16) 0 64 = getN m k 8 ∧ bits (getN m k 16) 64 64 = getN m (k + 8) 8 := by
  have hlo := getN_lt m k 8
  have hhi := getN_lt m (k + 8) 8
  have h := getN_add m k 8 8
  norm_num at hlo hhi h
  rw [h]
  simp only [bits]
  norm_num
  omega

end Sys2Proof.Machine

namespace Sys2Proof.Safety

open Sys2Proof.Machine

section
variable {s s1 s2 s3 : State} {die place cx n : Nat} {m : Msg} {ms : List Msg} {src dict tab : List Byte} {x : Ctx} {c : Cur} {r r1 : Receipt}

/-! ### Verdicts (R180) -/

/-- What a decision about a message reads: its source, its dictionary, its merge table. -/
def MsgReads (s : State) (die : Nat) (m : Msg) (src dict tab : List Byte) (t : State) : Prop :=
  ∃ s1 s2, s.msgRead die m m.srca m.slen = .ok src s1 ∧ s1.msgRead die m m.dict m.dlen = .ok dict s2 ∧ s2.msgRead die m m.merge (8 * m.nmerge) = .ok tab t

theorem messageDecided_reads (hm : (s.die die).msgs[place]? = some m) (hv : m.verdict = none) (hp : (s.port (inPort die)).miss = none)
    (hf : s.faulting m.cx = false) (h : MsgReads s die m src dict tab s3) :
    (((tableOf m.nmerge tab).findIdx? fun w => decide (2 ^ 40 ≤ w)) = none → exec (.messageDecided die place) s =
      .next (s3.modMsg die m.cx m.seq fun m' => { m' with verdict := some (verdict m src dict (tableOf m.nmerge tab)) })) ∧
    (∀ n, ((tableOf m.nmerge tab).findIdx? fun w => decide (2 ^ 40 ≤ w)) = some n → exec (.messageDecided die place) s =
      .next (s3.fault m.cx 4 0 63 15 (m.merge + 8 * n) 0 [])) := by
  obtain ⟨s1, s2, h1, h2, h3⟩ := h
  refine ⟨fun hn => ?_, fun n hn => ?_⟩ <;>
  · show execMessageDecided die place s = _
    rw [execMessageDecided, hm]
    dsimp only
    rw [if_neg (by simp [hv, hp, hf]), bind_ok h1, bind_ok h2, bind_ok h3, hn]

theorem findIdx_first {l : List Nat} {n w : Nat} (hw : l[n]? = some w) (hbad : 2 ^ 40 ≤ w) (hgood : ∀ i < n, ∀ v, l[i]? = some v → v < 2 ^ 40) :
    (l.findIdx? fun w => decide (2 ^ 40 ≤ w)) = some n := by
  obtain ⟨hlt, rfl⟩ := List.getElem?_eq_some_iff.mp hw
  rw [List.findIdx?_eq_some_iff_getElem]
  refine ⟨hlt, decide_eq_true hbad, fun i hi => ?_⟩
  rw [decide_eq_true_eq, Nat.not_le]
  exact hgood i hi _ (List.getElem?_eq_getElem (hi.trans hlt))

/-! ### Delivery (R180) -/

/-- The first message, with none of its context's before it, is the first to be delivered. -/
theorem messageDelivery_first (h : (s.die die).msgs = m :: ms) (ho : ∀ o ∈ ms, o.cx = m.cx → m.seq ≤ o.seq) {u : State} (hd : s.deliverMsg die m = some u) :
    exec (.messageDelivery die) s = .next u := by
  show execMessageDelivery die s = _
  rw [execMessageDelivery, h]
  dsimp only
  have hhead : ((m :: ms).all fun n => n.cx != m.cx || decide (m.seq ≤ n.seq)) = true := by
    rw [List.all_eq_true]
    intro o ho'
    obtain rfl | ho' := List.mem_cons.mp ho'
    · simp
    · by_cases hc : o.cx = m.cx
      · simp [hc, ho o ho' hc]
      · simp [hc]
  rw [List.filter_cons, if_pos hhead, List.findSome?_cons, hd]
  rfl

theorem deliverMsg_tokens {toks : List Nat} {h : ChanHdr} (hv : m.verdict = some (.inl toks)) (hp : s.chanPoison false m.ochan = none)
    (hh : chanHdr s.mem false m.ochan = some h) (hf : h.free ≠ 0) : s.deliverMsg die m = some (s.deliver die m toks h) := by
  rw [State.deliverMsg, hv]
  dsimp only
  rw [hp, hh]
  exact if_neg hf

theorem deliverMsg_record {reason stage off l : Nat} (hv : m.verdict = some (.inr (reason, stage, off))) (hp : s.poisoned m.qring 64 = none)
    (hl : qringLog s.mem m.qring = some l) (hroom : (getN s.mem m.qring 8 + 2 ^ 64 - getN s.mem (m.qring + 8) 8) % 2 ^ 64 < 2 ^ l) :
    s.deliverMsg die m = some (s.quarantined die m l reason stage off) := by
  obtain ⟨h1, h2⟩ := bits_getN_counts s.mem m.qring
  rw [State.deliverMsg, hv]
  dsimp only
  rw [hp, hl]
  dsimp only
  rw [h1, h2]
  exact if_neg (Nat.not_le.mpr hroom)

theorem messageDelivery_undecided (h : (s.die die).msgs = [m]) (hv : m.verdict = none) : exec (.messageDelivery die) s = .next s := by
  have hd : s.deliverMsg die m = none := by rw [State.deliverMsg, hv]
  show execMessageDelivery die s = _
  rw [execMessageDelivery, h]
  dsimp only
  rw [List.filter_cons]
  split <;> simp [hd]

/-! ### A WAIT's limit, a receipt's end, batches (R283, R310, R317) -/

theorem waitTimeout_reached {t : Nat} (hx : s.ctx cx = some x) (hc : x.cur = some c) (hu : c.until_ = some t) (ht : t ≤ s.tb) (hw : c.wok = false)
    (hf : s.faulting cx = false) : exec (.waitTimeout cx) s =
    .next (({ s with pendR := s.pendR.filter fun m => m.who != Who.ring cx } : State).endPkt cx c 6 0 0) := by
  show execWaitTimeout cx s = _
  rw [execWaitTimeout, hx]
  dsimp only
  rw [hc]
  dsimp only
  rw [hu]
  exact congrArg _ (if_neg (by simp [hw, hf, ht]))

theorem waitTimeout_before {t : Nat} (hx : s.ctx cx = some x) (hc : x.cur = some c) (hu : c.until_ = some t) (h : s.tb < t ∨ c.wok = true) :
    exec (.waitTimeout cx) s = .next s := by
  show execWaitTimeout cx s = _
  rw [execWaitTimeout, hx]
  dsimp only
  rw [hc]
  dsimp only
  rw [hu]
  exact congrArg _ (if_pos (by tauto))

/-- How a receipt goes on to its result once its items have been read again. -/
def afterRecheck (u : State) (cx : Nat) : State :=
  match (u.ctx cx).bind fun x => x.receipt with
  | some r => if r.step ≠ 5 then u else if r.faulted then u.joinBatch cx r else if u.faulting cx then u else u.chainResult cx r
  | none => u

/-- A receipt whose work is over. -/
theorem receiptFinish_over (hx : s.ctx cx = some x) (hr : x.receipt = some r) (hf : r.faulted = false) (hw : s.workOver cx x r = true) (hp : s.pendR = [])
    (hs : 4 ≤ r.step) : exec (.receiptFinish cx) s = .next (afterRecheck (if r.step ≤ 4 then s.recheck cx r else s) cx) := by
  show execReceiptFinish cx s = _
  rw [execReceiptFinish, hx]
  dsimp only
  rw [hr]
  exact congrArg _ (if_neg (by simp [hf, hw, hp, hs]))

theorem afterRecheck_chains {u : State} (hr : ((u.ctx cx).bind fun x => x.receipt) = some r) (hs : r.step = 5) (hf : r.faulted = false)
    (hn : u.faulting cx = false) : afterRecheck u cx = u.chainResult cx r := by
  rw [afterRecheck, hr]
  dsimp only
  rw [if_neg (by simp [hs]), if_neg (by simp [hf]), if_neg (by simp [hn])]

theorem closeLeaves_none (h : s.batch.closing = []) : s.closeLeaves = s := by
  rw [State.closeLeaves, h]
  exact congrArg (fun l => { s with batch := { s.batch with closing := l } }) h.symm

theorem batchDue_iff (h : s.batch.leaves ≠ []) : s.batchDue = true ↔ 4096 ≤ s.batch.leaves.length ∨ s.batch.tbo + 10 ^ 6 ≤ s.tb := by
  simp [State.batchDue, h]

theorem batchClose_eq (h : s.batch.closing = []) : exec .batchClose s = .next (if s.batchDue then s.closeBatch else s) := by
  show execBatchClose s = _
  rw [execBatchClose, closeLeaves_none h]

end

/-- Settles O50, event by event. -/
theorem messageEvents : Obligations.MessageEvents := by
  unfold Obligations.MessageEvents
  intro s s1 s2 s3 die place cx n vf m ms src dict tab x c r r1
  refine ⟨fun hm hv hp hf h1 h2 h3 => ?_, fun h ho => ⟨fun toks hd hv hp hh hfree => messageDelivery_first h ho (deliverMsg_tokens hv hp hh hfree),
    fun reason stage off l hv hp hl hroom => messageDelivery_first h ho (deliverMsg_record hv hp hl hroom), fun hv hms => messageDelivery_undecided (by rw [h, hms]) hv⟩,
    fun hx hvf => ?_, fun hx hvf => ?_, fun hx hc t hu => ⟨waitTimeout_reached hx hc hu, waitTimeout_before hx hc hu⟩, fun hx hr hf hw hp => ⟨fun h5 hnf => ?_, fun h4 hre hr1 h5 hf1 hnf => ?_⟩,
    fun hcl hne => ⟨fun hdue => ?_, fun hlen htb => ?_⟩⟩
  · obtain ⟨hok, hbad⟩ := messageDecided_reads hm hv hp hf ⟨s1, s2, h1, h2, h3⟩
    exact ⟨fun hall => hok (List.findIdx?_eq_none_iff.mpr fun w hw => decide_eq_false (Nat.not_le.mpr (hall w hw))),
      fun w hw hb hg => hbad n (findIdx_first hw hb hg)⟩
  · refine congrArg Host.Outcome.next ?_
    rw [State.modCtx, hx]
    exact congrArg (s.setCtx cx) (if_pos hvf)
  · refine congrArg Host.Outcome.next ?_
    rw [State.modCtx, hx]
    exact congrArg (s.setCtx cx) (if_neg hvf)
  · rw [receiptFinish_over hx hr hf hw hp (by omega), if_neg (by omega), afterRecheck_chains (by rw [hx, Option.bind_some, hr]) h5 hf hnf]
  · rw [receiptFinish_over hx hr hf hw hp (by omega), if_pos (by omega), hre, afterRecheck_chains hr1 h5 hf1 hnf]
  · exact (batchClose_eq hcl).trans (congrArg _ (if_pos ((batchDue_iff hne).mpr hdue)))
  · exact (batchClose_eq hcl).trans (congrArg _ (if_neg fun hb => ((batchDue_iff hne).mp hb).elim (Nat.not_le.mpr hlen) (Nat.not_le.mpr htb)))

end Sys2Proof.Safety

end

section

namespace Sys2Proof.Machine

/-! ## Faults of several contexts (R324, R327) -/

theorem State.setCtx_setCtx (s : State) (c : Nat) (x y : Ctx) : (s.setCtx c x).setCtx c y = s.setCtx c y :=
  congrArg (fun t => { s with ctxs := t }) (putT_putT_same ..)

section
variable {s : State} {c d : Nat} {x : Ctx}

/-- A change of a context that leaves it as it is. -/
theorem State.modCtx_id (hx : s.ctx c = some x) {f : Ctx → Ctx} (h : f x = x) : s.modCtx c f = s.setCtx c x := by
  rw [State.modCtx, hx]
  dsimp only
  rw [h]

theorem State.modCtx_of (hx : s.ctx c = some x) (f : Ctx → Ctx) : s.modCtx c f = s.setCtx c (f x) := by
  rw [State.modCtx, hx]

/-- A fault of one context leaves every other as it is. -/
theorem State.fault_ctx_other (h : c ≠ d) (cls det core row addr pc : Nat) (succ : List Nat) : (s.fault d cls det core row addr pc succ).ctx c = s.ctx c := by
  unfold State.fault
  split
  · rfl
  · split
    · exact State.ctx_setCtx_other s _ h
    · exact State.ctx_setCtx_other s _ h

/-- A context that has a fault of a class. -/
def State.FaultedAs (s : State) (c cls : Nat) : Prop := ∃ z g, s.ctx c = some z ∧ z.halt.fault = some g ∧ g.cls = cls

/-- The first fault of a context: its record is begun, and no debugger holds it any more. -/
theorem State.fault_first (hx : s.ctx c = some x) (hf : x.halt.fault = none) (cls det core row addr pc : Nat) (succ : List Nat) :
    (s.fault c cls det core row addr pc succ).ctx c = some { x with
      halt := { x.halt with fault := some ⟨cls, det, core, row, addr, pc, s.tb, pktSeq x, 0, 0, 0, succ⟩, stage := 1 }
      dbg := { x.dbg with state := 0, dumping := false } } := by
  rw [State.fault, hx]
  dsimp only
  rw [hf]
  exact State.ctx_setCtx ..

theorem State.fault_as (hx : s.ctx c = some x) (hf : x.halt.fault = none) (cls det core row addr pc : Nat) (succ : List Nat) :
    (s.fault c cls det core row addr pc succ).FaultedAs c cls :=
  ⟨_, _, State.fault_first hx hf .., rfl, rfl⟩

/-- A fault that is recorded stays so. -/
theorem State.FaultedAs.fault {k : Nat} (h : s.FaultedAs c k) (d cls det core row addr pc : Nat) (succ : List Nat) :
    (s.fault d cls det core row addr pc succ).FaultedAs c k := by
  obtain ⟨z, g, hz, hg, hk⟩ := h
  by_cases hd : c = d
  · subst hd
    rw [State.fault_later _ _ _ _ _ _ _ hz hg]
    exact ⟨_, _, State.ctx_setCtx .., rfl, hk⟩
  · exact ⟨z, g, (State.fault_ctx_other hd ..).trans hz, hg, hk⟩

section
variable {cls : Nat}

/-- The same fault of each of some contexts. -/
def State.faultAll (s : State) (cls : Nat) (cs : List Nat) : State := cs.foldl (fun s c => s.fault c cls 0 63 15 0 0 []) s

theorem State.faultAll_frame (s : State) (cls : Nat) (cs : List Nat) : ∃ xs fs, s.faultAll cls cs = { s with ctxs := xs, fcasts := fs } := by
  induction cs generalizing s with
  | nil => exact ⟨s.ctxs, s.fcasts, rfl⟩
  | cons c cs ih =>
    obtain ⟨xs, fs, h⟩ := ih (s.fault c cls 0 63 15 0 0 [])
    obtain ⟨xs1, fs1, h1⟩ := s.fault_frame c cls 0 63 15 0 0 []
    exact ⟨xs, fs, h.trans (by rw [h1])⟩

theorem State.faultAll_ctx_other {cs : List Nat} (h : c ∉ cs) : (s.faultAll cls cs).ctx c = s.ctx c := by
  induction cs generalizing s with
  | nil => rfl
  | cons d cs ih =>
    rw [List.mem_cons, not_or] at h
    exact (ih h.2).trans (State.fault_ctx_other h.1 ..)

theorem State.FaultedAs.all {k : Nat} (h : s.FaultedAs c k) (cls : Nat) (cs : List Nat) : (s.faultAll cls cs).FaultedAs c k := by
  induction cs generalizing s with
  | nil => exact h
  | cons d cs ih => exact ih (h.fault ..)

theorem State.faultAll_as {cs : List Nat} (h : c ∈ cs) (hx : s.ctx c = some x) (hf : x.halt.fault = none) : (s.faultAll cls cs).FaultedAs c cls := by
  induction cs generalizing s with
  | nil => exact absurd h List.not_mem_nil
  | cons d cs ih =>
    by_cases hd : c = d
    · subst hd
      exact (State.fault_as hx hf ..).all cls cs
    · exact ih ((List.mem_cons.mp h).resolve_left hd) ((State.fault_ctx_other hd ..).trans hx)

end

theorem mem_keys_of_findT {α : Type} {t : Tbl α} {k : Nat} {x : α} (h : findT t k = some x) : k ∈ t.map Prod.fst := by
  by_contra hk
  have hnone : findT t k = none := by
    induction t with
    | nil => rfl
    | cons a t ih =>
      obtain ⟨n, y⟩ := a
      rw [List.map_cons, List.mem_cons, not_or] at hk
      rw [findT, if_neg (Ne.symm hk.1)] at h ⊢
      exact ih h hk.2
  exact absurd (h.symm.trans hnone) (Option.some_ne_none x)

end

/-! ## Resuming (R329) -/

section
variable {s : State} {cx : Nat} {x : Ctx} {f : FaultRec}

/-- A context that may resume does, rewinding its ring where that is asked. -/
theorem State.askResume_done (hx : s.ctx cx = some x) (hf : x.halt.fault = some f) (hn : x.halt.nores = false) (hs : x.halt.stage = 4) (a : Nat) :
    (s.askResume cx a).ctx cx = some { x with halt := Halt.none, consumed := if a = 2 then BitVec.ofNat 64 f.pktseq else x.consumed } := by
  have hask : s.modCtx cx (fun x => if x.halt.fault.isSome && !x.halt.nores then { x with halt := { x.halt with resume := some a } } else x) =
      s.setCtx cx { x with halt := { x.halt with resume := some a } } :=
    (State.modCtx_of hx _).trans (congrArg _ (if_pos (by simp [hf, hn])))
  rw [State.askResume, hask, State.resumeNow, State.modCtx_of (State.ctx_setCtx ..), State.ctx_setCtx]
  dsimp only
  rw [if_pos ⟨hs, hn⟩, hf]
  rfl

/-- A context without a fault, or of which the host has taken the means to resume, resumes no more than it did. -/
theorem State.askResume_not (hx : s.ctx cx = some x) (h : x.halt.fault = none ∨ x.halt.nores = true) (hr : x.halt.resume = none) (a : Nat) :
    s.askResume cx a = s.setCtx cx x := by
  have hask : s.modCtx cx (fun x => if x.halt.fault.isSome && !x.halt.nores then { x with halt := { x.halt with resume := some a } } else x) = s.setCtx cx x := by
    refine State.modCtx_id hx (if_neg ?_)
    obtain h | h := h <;> simp [h]
  rw [State.askResume, hask, State.resumeNow, State.modCtx_id (State.ctx_setCtx ..) (by rw [hr]), State.setCtx_setCtx]

end

/-! ## Memory errors of the scheduler (R305) -/

theorem State.endByFallback_idle {s : State} {p die : Nat} (h : (s.fcast (16 * die + p)).run = none) : s.endByFallback p die = s := by
  rw [State.endByFallback, h]

end Sys2Proof.Machine

namespace Sys2Proof.Safety

open Sys2Proof.Machine

section
variable {s : State} {cx die p : Nat} {x : Ctx}

theorem machineCheck_eq (die : Nat) : exec (.machineCheck die) s = .next (State.modDie
    { s.faultAll 14 ((s.ctxs.map Prod.fst).filter fun c => s.worksOn c die) with events := s.events ++ [64 * 3 + die] } die fun d => { d with stopped := true }) :=
  rfl

theorem machineCheck_stops (hx : s.ctx cx = some x) : ∃ u, exec (.machineCheck die) s = .next u ∧ (u.die die).stopped = true ∧
    u.events = s.events ++ [64 * 3 + die] ∧ u.mem = s.mem ∧ (s.worksOn cx die = true → x.halt.fault = none → u.FaultedAs cx 14) ∧
    (s.worksOn cx die = false → u.ctx cx = some x) := by
  obtain ⟨xs, fs, h⟩ := s.faultAll_frame 14 ((s.ctxs.map Prod.fst).filter fun c => s.worksOn c die)
  refine ⟨_, machineCheck_eq die, congrArg Die.stopped (getT_putT_same ..), rfl, by rw [h]; rfl, fun hw hf => ?_, fun hw => ?_⟩
  · exact State.faultAll_as (List.mem_filter.mpr ⟨mem_keys_of_findT hx, hw⟩) hx hf
  · refine (State.faultAll_ctx_other (s := s) (cls := 14) fun hm => ?_).trans hx
    exact absurd ((List.mem_filter.mp hm).2.symm.trans hw) (by decide)

theorem runningImage_lost (h : (s.part p).image.isSome = true) : exec (.schedulerEccError (.runningImage p)) s =
    .next (([0, 1, 2, 3].foldl (fun u d => u.endByFallback p d) (s.modPart p fun x => { x with badImage := true })).partFault p 1) :=
  congrArg Host.Outcome.next (if_neg (by simp [Option.isSome_iff_ne_none.mp h]))

theorem runningImage_idle (h : (s.part p).image.isSome = true) (hrun : ∀ i < 4, (s.fcast (16 * i + p)).run = none) :
    exec (.schedulerEccError (.runningImage p)) s = .next (({ s.modPart p fun x => { x with badImage := true } with
      events := s.events ++ [64 * 5 + p] } : State).record (32 * p) ⟨0, 7, 1, 0, false⟩) := by
  have hidle (d : Nat) (hd : d < 4) : (s.modPart p fun x => { x with badImage := true }).endByFallback p d = s.modPart p fun x => { x with badImage := true } :=
    State.endByFallback_idle (hrun d hd)
  rw [runningImage_lost h, List.foldl_cons, hidle 0 (by decide), List.foldl_cons, hidle 1 (by decide), List.foldl_cons, hidle 2 (by decide), List.foldl_cons,
    hidle 3 (by decide)]
  rfl

/-- A halt whose work has stopped writes its record. -/
theorem faultRecordWrite_stopped {y : Ctx} {g : FaultRec} (hx : s.ctx cx = some x) (hs : x.halt.stage = 2) (hf : x.halt.fault.isSome = true)
    (hq : s.quiet cx = true) {s1 : State}
    (h1 : ((s.dropCmds cx).modCtx cx fun x => { x with slots := [], halt := { x.halt with stage := 3 } }) = s1) (hy : s1.ctx cx = some y)
    (hg : y.halt.fault = some g) (ha : y.setup.areaOk = true) : exec (.faultRecordWrite cx) s = .next (
      if (s1.devWrite cx 3 y.setup.area (faultBytes y g)).faultPending cx then s1.devWrite cx 3 y.setup.area (faultBytes y g)
      else ((s1.devWrite cx 3 y.setup.area (faultBytes y g)).haltEnd cx).resumeNow cx) := by
  show execFaultRecordWrite cx s = _
  rw [execFaultRecordWrite, hx]
  dsimp only
  rw [if_pos ⟨hs, hf, hq⟩, h1]
  simp only [hy, hg, ha, if_true]

end

/-- Settles O48, event by event. -/
theorem haltEvents : Obligations.HaltEvents := by
  unfold Obligations.HaltEvents
  intro s cx die p q x f hx faulted
  refine ⟨fun hf => ⟨_, _, _, rfl, State.fault_first hx hf .., rfl, rfl, rfl, rfl, rfl, rfl, rfl, rfl, rfl⟩, fun hf => ⟨_, rfl, ?_⟩,
    fun hf hn hs => ⟨⟨_, rfl, State.askResume_done hx hf hn hs 0⟩, ⟨_, rfl, State.askResume_done hx hf hn hs 2⟩⟩,
    fun h hr => ⟨congrArg _ (State.askResume_not hx h hr 0), congrArg _ (State.askResume_not hx h hr 2)⟩, fun hs hw => ?_,
    fun y g hs hf hq hy hg ha => faultRecordWrite_stopped hx hs hf hq rfl hy hg ha, machineCheck_stops hx, rfl, ?_, runningImage_lost, fun d hd => ?_,
    runningImage_idle, rfl, fun hq hf => ⟨_, congrArg Host.Outcome.next (if_pos ?_), State.fault_as hx hf ..⟩, fun hq => congrArg Host.Outcome.next (if_neg ?_)⟩
  · rw [State.fault_later _ _ _ _ _ _ _ hx hf]
    exact State.ctx_setCtx ..
  · show execFaultRecordWrite cx s = _
    rw [execFaultRecordWrite, hx]
    dsimp only
    rw [if_neg (by omega), if_pos ⟨hs, by simp [State.faultPending, hw]⟩]
  · show execSchedulerEccError (.corrected die cx) s = _
    rw [execSchedulerEccError, State.vfOf, hx]
    rfl
  · rw [State.endByFallback, hd]
  · rw [hx]
    exact hq
  · rw [hx]
    simp [hq]

end Sys2Proof.Safety

end

section

namespace Sys2Proof.Machine

/-! ## Counter banks (R351 to R355) -/

section
variable {s : State} {b vf : Nat}

theorem Bank.opens_of_held {k : Bank} (h : k.heldBy vf = true) : k.opens vf = true := by
  rw [Bank.opens, h]
  rfl

theorem Bank.not_opens {k : Bank} (h : k.heldBy vf = false) (ho : k.own ≠ 0) : k.opens vf = false := by
  simp [Bank.opens, h, ho]

theorem isBank_true (hb : b < 36) (hv : vf ≤ 64) : isBank vf b = true := decide_eq_true ⟨hv, hb⟩

/-- What the host takes from a guest comes back to it as it was. -/
theorem Bank.takeOver_aside (k : Bank) (n : Nat) : (k.takeOver n).aside = some ⟨k.ovf, k.snap, k.sel, k.cnt, k.icnt, k.iseq⟩ := rfl

end

/-! ## CXL.mem (R345) -/

theorem cxlUnits_zero (f a : Nat) : cxlUnits f a 0 = [] := by
  cases f <;> rfl

theorem cxlUnits_succ {n : Nat} (h : n ≠ 0) (f a : Nat) :
    cxlUnits (f + 1) a n = (a, min n (8 - a % 8)) :: cxlUnits f (a + min n (8 - a % 8)) (n - min n (8 - a % 8)) := if_neg h

/-- The units of a transfer cover it. -/
theorem sum_cxlUnits {f a n : Nat} (h : n + a % 8 ≤ 8 * f) : ((cxlUnits f a n).map Prod.snd).sum = n := by
  induction f generalizing a n with
  | zero =>
    obtain rfl : n = 0 := by omega
    rfl
  | succ f ih =>
    by_cases hn : n = 0
    · rw [hn, cxlUnits_zero]
      rfl
    · rw [cxlUnits_succ hn, List.map_cons, List.sum_cons]
      by_cases hk : n ≤ 8 - a % 8
      · rw [Nat.min_eq_left hk, Nat.sub_self, cxlUnits_zero]
        rfl
      · rw [Nat.min_eq_right (by omega), ih (by omega)]
        omega

/-- No unit reaches over a boundary of eight bytes. -/
theorem cxlUnits_within {f a n : Nat} : ∀ u ∈ cxlUnits f a n, u.2 ≤ 8 ∧ u.1 / 8 = (u.1 + u.2 - 1) / 8 := by
  induction f generalizing a n with
  | zero => exact fun u hu => absurd hu List.not_mem_nil
  | succ f ih =>
    by_cases hn : n = 0
    · rw [hn, cxlUnits_zero]
      exact fun u hu => absurd hu List.not_mem_nil
    · rw [cxlUnits_succ hn]
      intro u hu
      obtain rfl | hu := List.mem_cons.mp hu
      · dsimp only
        omega
      · exact ih u hu

/-- A transfer within eight bytes is one unit. -/
theorem unitsOf_one {a n : Nat} (ha : a % 8 = 0) (hn : n ≤ 8) (h0 : 0 < n) : unitsOf a n = [(a, n)] := by
  rw [unitsOf, cxlUnits_succ (by omega), Nat.min_eq_left (by omega), Nat.sub_self, cxlUnits_zero]

section
variable {s : State} {dec : Nat}

theorem State.decoder_some (hd : dec < 8) (hp : getT s.hdm dec 0 < 5) : s.decoder dec = some (getT s.hdm dec 0) := if_neg (by omega)

/-! ## Stops (R356) -/

theorem State.cutAll_none {cx : Nat} {x : Ctx} (hx : s.ctx cx = some x) (hp : x.pipes = []) (on : Nat → Bool) : s.cutAll cx on = s := by
  rw [State.cutAll, State.eachPipe, hx]
  dsimp only
  rw [hp]
  rfl

theorem LR.go_ok {α : Type} {r : LR α} {v : α} {t : State} (h : r = .ok v t) (cx : Nat) (fail : State → State) (f : α → State → State) :
    r.go cx fail f = f v t := by
  subst h
  rfl

end

end Sys2Proof.Machine

namespace Sys2Proof.Safety

open Sys2Proof.Machine

section
variable {s : State} {b vf cx : Nat} {x : Ctx}

/-! ### Banks -/

theorem claim_free (hb : b < 36) (hv : vf ≤ 64) (ho : (s.bank b).own = 0) :
    exec (.claim 0 b) s = .next (s.setBank b { s.bank b with own := 1, ovf := 0 }) ∧
    (vf ≠ 0 → exec (.claim vf b) s = .next (s.setBank b { s.bank b with own := 2, ovf := vf })) :=
  ⟨congrArg Host.Outcome.next ((if_neg (by simp [isBank_true hb])).trans ((if_pos rfl).trans (if_pos ho))),
    fun h0 => congrArg Host.Outcome.next ((if_neg (by simp [isBank_true hb hv])).trans ((if_neg h0).trans (if_pos ho)))⟩

theorem claim_held (ho : (s.bank b).own ≠ 0) (h0 : vf ≠ 0) : exec (.claim vf b) s = .next s := by
  refine congrArg Host.Outcome.next ?_
  by_cases hb : (!isBank vf b) = true
  · exact if_pos hb
  · exact (if_neg hb).trans ((if_neg h0).trans (if_neg ho))

theorem release_held (hh : (s.bank b).heldBy vf = true) (ha : (s.bank b).aside = none) :
    exec (.release vf b) s = .next (s.setBank b { s.bank b with own := 0, ovf := 0 }) := by
  refine congrArg Host.Outcome.next ((if_pos hh).trans ?_)
  simp only [ha]

theorem release_aside {g : BankSave} (hh : (s.bank b).heldBy vf = true) (ha : (s.bank b).aside = some g) :
    exec (.release vf b) s = .next (s.setBank b ⟨2, g.vf, g.snap, g.sel, g.cnt, g.icnt, g.iseq, none⟩) := by
  refine congrArg Host.Outcome.next ((if_pos hh).trans ?_)
  rw [ha]

/-- The host takes a guest's bank, and gives it back as it was. -/
theorem claim_taken (hb : b < 36) (ho : (s.bank b).own = 2) : ∃ u, exec (.claim 0 b) s = .next u ∧ (u.bank b).own = 1 ∧
    ∃ w, exec (.release 0 b) u = .next w ∧ w.bank b = { s.bank b with aside := none } := by
  have hu : exec (.claim 0 b) s = .next ({ s with freeCtr := s.freeCtr + 26 }.setBank b ((s.bank b).takeOver s.freeCtr)) :=
    congrArg Host.Outcome.next ((if_neg (by simp [isBank_true hb])).trans ((if_pos rfl).trans ((if_neg (by omega)).trans (if_pos ho))))
  have hbank : ({ s with freeCtr := s.freeCtr + 26 }.setBank b ((s.bank b).takeOver s.freeCtr)).bank b = (s.bank b).takeOver s.freeCtr := getT_putT_same ..
  refine ⟨_, hu, congrArg Bank.own hbank, _, release_aside (by rw [hbank]; rfl) (by rw [hbank]; rfl), (getT_putT_same ..).trans ?_⟩
  rw [← ho]

theorem counterLowRead_held (hb : b < 36) (hv : vf ≤ 64) (hh : (s.bank b).heldBy vf = true) (i : Fin 8) : ∃ u, exec (.counterLowRead vf b i.val) s = .next u ∧
    u.lastRead = bytesOfNat 4 (s.bank b).cnt[i].toNat ∧ (u.vf vf).shadow = ((s.bank b).cnt[i] >>> 32).setWidth 32 := by
  have hc : s.counterOf vf b i.val = (s.bank b).cnt[i] := by
    rw [State.counterOf, if_pos (Bank.opens_of_held hh), Bank.counter, if_pos i.isLt]
    simp [List.getD_eq_getElem?_getD]
  refine ⟨_, congrArg Host.Outcome.next (if_neg (by simp [isBank_true hb hv])), by rw [hc]; rfl, ?_⟩
  rw [hc]
  exact congrArg Vf.shadow (getT_putT_same ..)

/-! ### CXL.mem -/

theorem cxlMemRead_decoded {dec a n : Nat} (hp : s.phase = .complete) (hd : dec < 8) (hg : getT s.hdm dec 0 < 5) (ha : a + n ≤ 2 ^ 40) :
    exec (.cxlMemRead dec a n) s = .next { s with lastRead := (unitsOf a n).flatMap fun u => s.cxlRead (getT s.hdm dec 0) u, freeCtr := s.freeCtr + 1 } := by
  refine congrArg Host.Outcome.next ?_
  rw [State.decoder_some hd hg]
  exact if_neg (by simp [hp]; omega)

theorem cxlMemWrite_decoded {dec a n : Nat} (hp : s.phase = .complete) (hd : dec < 8) (hg : getT s.hdm dec 0 < 5) (ha : a + n ≤ 2 ^ 40) (k : Nat) :
    exec (.cxlMemWrite dec a n k) s = .next (s.cxlPut (getT s.hdm dec 0) (bytesOfNat n k) (unitsOf a n)) := by
  refine congrArg Host.Outcome.next ?_
  rw [State.decoder_some hd hg]
  exact if_neg (by simp [hp]; omega)

theorem cxl_beyond {dec a n : Nat} (h : 2 ^ 40 < a + n) (k : Nat) : exec (.cxlMemRead dec a n) s = .next s ∧ exec (.cxlMemWrite dec a n k) s = .next s := by
  refine ⟨congrArg Host.Outcome.next ?_, congrArg Host.Outcome.next ?_⟩
  · split
    · rfl
    · exact if_pos (.inr h)
  · split
    · rfl
    · exact if_pos (.inr h)

/-! ### Registers (R340) -/

theorem doorbell_register {v : Word} (hp : s.phase = .complete) (hx : s.ctx cx = some x) (hcx : cx < 512) (hv : vf ≤ 64) :
    exec (.registerWrite vf (0x10000 + 8 * cx) v) s = .next (s.setCtx cx (if x.setup.vf = vf then { x with doorbell := v } else x)) := by
  refine congrArg Host.Outcome.next ((if_neg (by simp [hp]; omega)).trans ((if_pos (by omega)).trans ?_))
  rw [show (0x10000 + 8 * cx - 0x10000) / 8 = cx by omega]
  exact State.modCtx_of hx _

theorem decoder_register {v : Word} {dec : Nat} (hp : s.phase = .complete) (hd : dec < 8) :
    exec (.registerWrite 0 (0xB2000 + 8 * dec) v) s = .next { s with hdm := putT s.hdm dec (v.toNat % 8) } := by
  show execRegisterWrite 0 (0xB2000 + 8 * dec) v s = _
  rw [execRegisterWrite]
  dsimp only
  rw [if_neg (by simp [hp]), if_neg (by omega), if_neg (by omega), if_neg (by simp), if_neg (by omega), if_neg (by omega), if_neg (by omega),
    if_neg (by omega), if_pos (by omega), show (0xB2000 + 8 * dec - 0xB2000) / 8 = dec by omega]

/-! ### Stops (R356) -/

/-- A stop of a context without pipelines. -/
theorem stopGo_plain {y : Ctx} (hx : s.ctx cx = some x) (h0 : x.dbg.state = 0) (hp : x.pipes = []) (hy : y = { x with dbg := { x.dbg with state := 1, dumping := false } }) :
    s.stopGo cx false = if (s.setCtx cx y).stopDone cx y then (s.setCtx cx y).setCtx cx { y with dbg := { y.dbg with state := 2 } } else s.setCtx cx y := by
  have hset : { x with dbg := { x.dbg with state := if x.dbg.state = 0 then 1 else x.dbg.state, dumping := if x.dbg.state = 0 then false else x.dbg.dumping } } = y := by
    rw [hy, h0]
    rfl
  have hy' : (s.setCtx cx y).ctx cx = some y := State.ctx_setCtx ..
  have hpipes : y.pipes = [] := by
    rw [hy]
    exact hp
  rw [State.stopGo, hx]
  dsimp only
  rw [hset, if_neg (by omega), State.cutAll_none hy' hpipes, hy']
  dsimp only
  rw [show y.dbg.dumping = false by rw [hy]]
  rfl

theorem debugStop_plain {y : Ctx} (hx : s.ctx cx = some x) (h0 : x.dbg.state = 0) (hp : x.pipes = [])
    (hy : y = { x with dbg := { x.dbg with state := 1, dumping := false } }) : ∃ u, exec (.debugStop cx) s = .next u ∧ u.mem = s.mem ∧
    ((s.setCtx cx y).stopDone cx y = true → u.ctx cx = some { y with dbg := { y.dbg with state := 2 } }) ∧
    ((s.setCtx cx y).stopDone cx y = false → u.ctx cx = some y) := by
  refine ⟨_, congrArg Host.Outcome.next (stopGo_plain hx h0 hp hy), ?_, fun hd => ?_, fun hd => ?_⟩
  · split <;> rfl
  · rw [if_pos hd]
    exact State.ctx_setCtx ..
  · rw [if_neg (by simp [hd])]
    exact State.ctx_setCtx ..

theorem liveDump_shown {s1 : State} {y : Ctx} (hp : s.pendR = []) (h1 : s.stopGo cx true = s1) (hy : s1.ctx cx = some y) (h3 : y.dbg.state = 3) :
    exec (.liveDump cx) s = .next (s1.dumpNow cx) := by
  refine congrArg Host.Outcome.next ((if_neg (by simp [hp])).trans ?_)
  rw [h1]
  exact if_pos (by simp [hy, h3])

/-! ### Migration (R330, R331) -/

theorem export_still (hx : s.ctx cx = some x) (ha : x.setup.areaOk = true) (hm : x.mig = 1) (hd : s.drainFrozen cx = false) (hs : s.still cx x = true) :
    exec (.exportCtx cx) s = .next (s.exportNow cx) := by
  show execExportCtx cx s = _
  rw [execExportCtx, hx]
  dsimp only
  rw [if_neg (by omega), if_neg (by simp [hd, ha]), if_pos hm, hx]
  exact congrArg _ (if_pos hs)

end

/-- Settles O51, event by event. -/
theorem hostEvents : Obligations.HostEvents := by
  unfold Obligations.HostEvents
  intro s s1 s2 s3 vf b k die cx dec a n v x y bank pair
  refine ⟨fun hb hv => ⟨claim_free hb hv, claim_held, claim_taken hb, fun hh => ⟨release_held hh, ?_, counterLowRead_held hb hv hh⟩, fun hh => ⟨?_, fun ho => ?_⟩⟩,
    ?_, ?_, fun hp hd hg ha => ?_, fun h => cxl_beyond h k, fun hp hx hcx hv => ⟨fun hvf => ?_, fun hvf => ?_, decoder_register hp⟩, fun hx => ⟨?_, rfl, ?_⟩,
    fun hx ha => ⟨export_still hx ha, ?_⟩, fun hx => ?_⟩
  · exact congrArg Host.Outcome.next (if_pos (by rw [isBank_true hb hv, Bank.opens_of_held hh]; rfl))
  · exact congrArg Host.Outcome.next (if_neg (by simp [show (s.bank b).heldBy vf = false from hh]))
  · exact congrArg Host.Outcome.next (if_neg (by simp [Bank.not_opens (show (s.bank b).heldBy vf = false from hh) ho]))
  · intro d
    refine ⟨rfl, rfl, fun hn => ?_⟩
    exact congrArg (fun e => Host.Outcome.next (s.setDie die e)) (if_pos hn)
  · intro hp hd hg ha han hn h0 key
    have hunits := unitsOf_one ha hn h0
    refine ⟨fun hst hpo => ?_, fun hst => ?_, fun hst => ?_⟩
    · rw [cxlMemRead_decoded hp hd hg han, hunits, List.flatMap_singleton, State.cxlRead, hst, if_neg (by simp [show s.poisoned (memKey (getT s.hdm dec 0) a) n = none from hpo])]
    · rw [cxlMemWrite_decoded hp hd hg han, hunits, State.cxlPut, if_pos hst, List.take_of_length_le (by simp [length_bytesOfNat])]
      rfl
    · rw [cxlMemWrite_decoded hp hd hg han, hunits, State.cxlPut, if_neg (by simp [hst])]
      rfl
  · intro q
    exact ⟨cxlMemWrite_decoded hp hd hg ha k, cxlMemRead_decoded hp hd hg ha, sum_cxlUnits (by omega), cxlUnits_within⟩
  · rw [doorbell_register hp hx hcx hv, if_pos hvf]
  · rw [doorbell_register hp hx hcx hv, if_neg hvf]
  · exact fun h0 hpipes => debugStop_plain hx h0 hpipes rfl
  · exact fun hp h1 hy h3 => liveDump_shown hp h1 hy h3
  · intro hp area d w hw cores arrays waits len u hu bs t
    show execImportCtx cx s = _
    rw [execImportCtx, hx]
    dsimp only
    rw [if_neg (by simp [ha]), if_neg (by simp [hp]), LR.go_ok hw, LR.go_ok hu]
  · exact congrArg Host.Outcome.next (State.modCtx_of hx _)

end Sys2Proof.Safety

end

section

namespace Sys2Proof.Machine

/-! ## The pool's refill (R70, R188) -/

section
variable {s : State} {p : Nat}

theorem State.undefer_frame (s : State) (p : Nat) (d : Option Nat) : ∃ fs, s.undefer p d = { s with fcasts := fs } := ⟨_, rfl⟩

theorem State.poolRose_frame (s : State) (p old : Nat) : ∃ fs, s.poolRose p old = { s with fcasts := fs } := by
  unfold State.poolRose
  split
  · exact s.undefer_frame p none
  · exact ⟨s.fcasts, rfl⟩

/-- One due command, paid where the pool holds its packets. -/
def State.payOne (p : Nat) (s : State) (d : Nat × Nat × Nat × Nat × Bool) : State :=
  match s.debit p d.2.2.2.1 with
  | some s => (s.tally d.1 d.2.2.2.2 d.2.2.2.1 0).modCtx d.1 fun x => x.paid d.2.1 d.2.2.1
  | none => s

theorem State.payDue_eq (s : State) (p : Nat) : s.payDue p = (s.dues p).foldl (State.payOne p) s := rfl

theorem State.payOne_keeps (p : Nat) (s : State) (d : Nat × Nat × Nat × Nat × Bool) :
    (s.payOne p d).mem = s.mem ∧ ((s.payOne p d).part p).carry = (s.part p).carry := by
  unfold State.payOne State.debit
  split
  case h_2 => exact ⟨rfl, rfl⟩
  case h_1 u hu =>
    split at hu
    · exact absurd hu (by simp)
    · obtain rfl := Option.some.inj hu
      refine ⟨(State.modCtx_mem ..).trans ?_, ?_⟩
      · unfold State.tally
        split
        · exact State.modCtx_mem ..
        · rfl
      · rw [(State.modCtx_dev ..).part, State.tally_part, State.part_modPart_same]

/-- What is paid from the pool leaves memory, and the time carried to the next refill. -/
theorem State.payDue_keeps (s : State) (p : Nat) : (s.payDue p).mem = s.mem ∧ ((s.payDue p).part p).carry = (s.part p).carry := by
  rw [State.payDue_eq]
  generalize s.dues p = l
  induction l generalizing s with
  | nil => exact ⟨rfl, rfl⟩
  | cons d l ih =>
    obtain ⟨hm, hc⟩ := ih (s.payOne p d)
    obtain ⟨hm1, hc1⟩ := s.payOne_keeps p d
    exact ⟨hm.trans hm1, hc.trans hc1⟩

theorem State.payDue_none (h : s.dues p = []) : s.payDue p = s := by
  rw [State.payDue, h]
  rfl

/-- One command waits for the pool, which does not hold its packets. -/
theorem State.payDue_short {d : Nat × Nat × Nat × Nat × Bool} (h : s.dues p = [d]) (hl : (s.part p).plevel < d.2.2.2.1) : s.payDue p = s := by
  rw [State.payDue, h, List.foldl_cons, List.foldl_nil, State.debit, if_pos hl]

/-- One command waits for the pool, which holds its packets. -/
theorem State.payDue_pays {cx q n m : Nat} (h : s.dues p = [(cx, q, n, m, false)]) (hl : m ≤ (s.part p).plevel) :
    s.payDue p = (s.modPart p fun x => { x with plevel := x.plevel - m }).modCtx cx fun x => x.paid q n := by
  rw [State.payDue, h, List.foldl_cons, List.foldl_nil, State.debit, if_neg (Nat.not_lt.mpr hl)]
  rfl

/-- The pool with a packet more, before anything is paid from it. -/
def State.refilled (s : State) (p : Nat) : State :=
  (s.modPart p fun x => { x with carry := x.carry - 10 ^ 6 }).modPart p fun x => { x with plevel := min (x.plevel + 1) x.pcap }

theorem State.refilled_part (s : State) (p : Nat) :
    (s.refilled p).part p = { s.part p with carry := (s.part p).carry - 10 ^ 6, plevel := min ((s.part p).plevel + 1) (s.part p).pcap } := by
  rw [State.refilled, State.part_modPart_same, State.part_modPart_same]

/-- A refill credits a packet and pays what is due from it. -/
theorem State.refill_credit (s : State) (p : Nat) : ∃ fs, (s.modPart p fun x => { x with carry := x.carry - 10 ^ 6 }).credit p 1 =
    { (s.refilled p).payDue p with fcasts := fs } := by
  rw [State.credit]
  dsimp only
  rw [if_neg (by decide)]
  exact State.poolRose_frame ..

/-! ## Lull (R321) -/

theorem rowsOf_nodup (core : Nat) : (rowsOf core).Nodup :=
  List.nodup_range.map fun _ _ h => Nat.add_left_cancel h

theorem mem_rowsOf {core r : Nat} : r ∈ rowsOf core ↔ r / 12 = core := by
  rw [rowsOf, List.mem_map]
  constructor
  · rintro ⟨i, hi, rfl⟩
    rw [List.mem_range] at hi
    omega
  · rintro rfl
    exact ⟨r % 12, List.mem_range.mpr (Nat.mod_lt _ (by decide)), by omega⟩

/-- The end of a Lull for one row. -/
def State.wakeRow (s : State) (core : Nat) (u : State) (r : Nat) : State :=
  match u.task r with
  | some t => if s.mayWake t.cx core then u.setTask r (some { t with froPre := false }) else u
  | none => u

/-- A task of a core whose Lull ends. -/
def State.woken (s : State) (core : Nat) (t : Task) : Task := if s.mayWake t.cx core then { t with froPre := false } else t

theorem State.wakeRow_frame (core : Nat) (u : State) (r : Nat) : ∃ rs, s.wakeRow core u r = { u with rows := rs } := by
  unfold State.wakeRow
  split
  · split
    · exact ⟨_, rfl⟩
    · exact ⟨u.rows, rfl⟩
  · exact ⟨u.rows, rfl⟩

theorem State.wakeRow_task (core : Nat) (u : State) (r : Nat) : (s.wakeRow core u r).task r = (u.task r).map (s.woken core) := by
  unfold State.wakeRow State.woken
  cases ht : u.task r with
  | none => simpa using ht
  | some t =>
    dsimp only
    split
    · rw [State.task_setTask]
      rename_i h
      rw [Option.map_some, if_pos h]
    · rename_i h
      rw [ht, Option.map_some, if_neg h]

theorem State.wakeRow_task_other (core : Nat) (u : State) {r q : Nat} (h : q ≠ r) : (s.wakeRow core u r).task q = u.task q := by
  unfold State.wakeRow
  split
  · split
    · exact State.task_setTask_other _ _ h
    · rfl
  · rfl

theorem State.wakeRows (core : Nat) {l : List Nat} (hl : l.Nodup) (u : State) : (∃ rs, l.foldl (s.wakeRow core) u = { u with rows := rs }) ∧
    ∀ r, (l.foldl (s.wakeRow core) u).task r = if r ∈ l then (u.task r).map (s.woken core) else u.task r := by
  induction l generalizing u with
  | nil => exact ⟨⟨u.rows, rfl⟩, fun r => (if_neg List.not_mem_nil).symm⟩
  | cons q l ih =>
    obtain ⟨hq, hl⟩ := List.nodup_cons.mp hl
    obtain ⟨⟨rs, h⟩, ht⟩ := ih hl (s.wakeRow core u q)
    obtain ⟨rs1, h1⟩ := s.wakeRow_frame core u q
    refine ⟨⟨rs, h.trans (by rw [h1])⟩, fun r => (ht r).trans ?_⟩
    by_cases hr : r = q
    · subst hr
      rw [if_neg hq, if_pos List.mem_cons_self, State.wakeRow_task]
    · rw [State.wakeRow_task_other _ _ hr]
      by_cases hm : r ∈ l
      · rw [if_pos hm, if_pos (List.mem_cons_of_mem _ hm)]
      · rw [if_neg hm, if_neg (by simp [hr, hm])]

end

end Sys2Proof.Machine

namespace Sys2Proof.Safety

open Sys2Proof.Machine

section
variable {s : State} {p die core row cx q n : Nat} {x : Ctx} {t : Task} {c : Commit} {d : Decision} {a : Act}

/-- A refill of the pool, and what its packet pays for. -/
theorem poolRefill_credit (hp : s.hasPart p = true) (hc : 10 ^ 6 ≤ (s.part p).carry) :
    ∃ u, exec (.poolRefill p) s = .next ((s.unfunded p).foldl State.frontDispatch u) ∧ u.mem = s.mem ∧
      (u.part p).carry = (s.part p).carry - 10 ^ 6 ∧ let level := min ((s.part p).plevel + 1) (s.part p).pcap
      (s.dues p = [] → u.ctxs = s.ctxs ∧ (u.part p).plevel = level) ∧
      (∀ m, s.dues p = [(cx, q, n, m, false)] → s.ctx cx = some x →
        (level < m → u.ctxs = s.ctxs ∧ (u.part p).plevel = level) ∧
        (m ≤ level → u.ctx cx = some (x.paid q n) ∧ (u.part p).plevel = level - m)) := by
  obtain ⟨fs, hu⟩ := s.refill_credit p
  have hpart := s.refilled_part p
  have hdues : (s.refilled p).dues p = s.dues p := rfl
  refine ⟨_, congrArg Host.Outcome.next (if_neg (by rw [hp]; simpa using hc)), ?_⟩
  rw [hu]
  have hcarry1 : ((s.refilled p).part p).carry = (s.part p).carry - 10 ^ 6 := by rw [hpart]
  have hlevel : ((s.refilled p).part p).plevel = min ((s.part p).plevel + 1) (s.part p).pcap := congrArg Part.plevel hpart
  obtain ⟨hmem, hcarry⟩ := (s.refilled p).payDue_keeps p
  refine ⟨hmem, hcarry.trans hcarry1, fun hd => ?_, fun m hd hx => ⟨fun hl => ?_, fun hl => ?_⟩⟩
  · rw [State.payDue_none (hdues.trans hd)]
    exact ⟨rfl, hlevel⟩
  · rw [State.payDue_short (hdues.trans hd) (by rw [hlevel]; exact hl)]
    exact ⟨rfl, hlevel⟩
  · have hpay := State.payDue_pays (hdues.trans hd) (by rw [hlevel]; exact hl)
    have hx' : ((s.refilled p).modPart p fun x => { x with plevel := x.plevel - m }).ctx cx = some x := hx
    rw [hpay, State.modCtx_of hx']
    refine ⟨State.ctx_setCtx .., ?_⟩
    show (((s.refilled p).modPart p fun x => { x with plevel := x.plevel - m }).part p).plevel = _
    rw [State.part_modPart_same]
    exact congrArg (· - m) hlevel

/-- The image that a decision runs: none where it is bad, or where the unit has deferred often enough. -/
def raiseImage (s : State) (die p : Nat) (r : Raise) : Image :=
  match (s.part p).image with
  | some i => if (s.part p).badImage || (decide (r.1 < 2) && (s.fcast (16 * die + p)).defers == 64) then ⟨[], 0⟩ else i
  | none => ⟨[], 0⟩

/-- The state in which a decision runs. -/
def raised (s : State) (die p : Nat) (r : Raise) (d : Decision) : State :=
  s.modFcast (16 * die + p) fun f => { f with dseq := f.dseq + 1, prev := some s.tb, faults := if r.1 = 2 then f.faults.drop 1 else f.faults, run := some d }

theorem decision_raised {r : Raise} (hn : (s.fcast (16 * die + p)).run = none) (hr : s.nextRaise die p = some r) :
    exec (.decision die p) s = .next (if (raiseImage s die p r).words.isEmpty then
      (raised s die p r (s.begin_ die p r (raiseImage s die p r))).decided die p (s.begin_ die p r (raiseImage s die p r))
        ((raised s die p r (s.begin_ die p r (raiseImage s die p r))).fallback p (s.begin_ die p r (raiseImage s die p r))) true false
      else raised s die p r (s.begin_ die p r (raiseImage s die p r))) := by
  show execDecision die p s = _
  rw [execDecision]
  dsimp only
  rw [if_neg (by simp [hn]), hr]
  rfl

theorem raiseImage_runs {r : Raise} {i : Image} (hi : (s.part p).image = some i) (hb : (s.part p).badImage = false)
    (hd : r.1 = 2 ∨ (s.fcast (16 * die + p)).defers ≠ 64) : raiseImage s die p r = i := by
  rw [raiseImage, hi]
  refine if_neg ?_
  obtain h2 | h64 := hd
  · simp [hb, h2]
  · simp [hb, h64]

theorem raiseImage_none {r : Raise} {i : Image} (hi : (s.part p).image = some i)
    (hd : (s.part p).badImage = true ∨ (r.1 < 2 ∧ (s.fcast (16 * die + p)).defers = 64)) : raiseImage s die p r = ⟨[], 0⟩ := by
  rw [raiseImage, hi]
  refine if_pos ?_
  obtain hb | ⟨h2, h64⟩ := hd
  · simp [hb]
  · simp [h2, h64]

/-- A decision that an image of the partition is to take, or the fallback at once. -/
theorem decision_begins {r : Raise} {i : Image} (hn : (s.fcast (16 * die + p)).run = none) (hr : s.nextRaise die p = some r) (hi : (s.part p).image = some i) :
    let k := 16 * die + p
    let f := s.fcast k
    let g := { f with dseq := f.dseq + 1, prev := some s.tb, faults := if r.1 = 2 then f.faults.drop 1 else f.faults, run := some (s.begin_ die p r i) }
    let e := { s.begin_ die p r i with image := ⟨[], 0⟩ }
    (i.words ≠ [] → (s.part p).badImage = false → r.1 = 2 ∨ f.defers ≠ 64 → exec (.decision die p) s = .next (s.setFcast k g)) ∧
    ((s.part p).badImage = true ∨ (r.1 < 2 ∧ f.defers = 64) → exec (.decision die p) s =
      .next ((s.setFcast k { g with run := some e }).decided die p e ((s.setFcast k { g with run := some e }).fallback p e) true false)) := by
  intro k f g e
  refine ⟨fun hw hb hd => ?_, fun hbad => ?_⟩
  · rw [decision_raised hn hr, raiseImage_runs hi hb hd, if_neg (by simpa using hw)]
    rfl
  · rw [decision_raised hn hr, raiseImage_none hi hbad]
    rfl

theorem lullResume_wakes (h10 : s.task (core * 12 + 10) = none) (h11 : s.task (core * 12 + 11) = none) :
    exec (.lullResume core) s = .next ((rowsOf core).foldl (s.wakeRow core) s) := by
  have hfree : (s.freeStandby core).length = 2 := by simp [State.freeStandby, h10, h11]
  show execLullResume core s = _
  rw [execLullResume, hfree]
  rfl

/-- A Lull that ends. -/
theorem lullResume_free (h10 : s.task (core * 12 + 10) = none) (h11 : s.task (core * 12 + 11) = none) : ∃ u, exec (.lullResume core) s = .next u ∧
    u.mem = s.mem ∧ u.ctxs = s.ctxs ∧ ∀ r, u.task r = (s.task r).map fun t =>
      if r / 12 = core ∧ ((s.ctx t.cx).all fun x => x.dbg.state == 0) = true ∧ s.offCore t.cx core = false ∧ s.awaySlice t.cx = false
      then { t with froPre := false } else t := by
  obtain ⟨⟨rs, hu⟩, ht⟩ := s.wakeRows core (rowsOf_nodup core) s
  refine ⟨(rowsOf core).foldl (s.wakeRow core) s, lullResume_wakes h10 h11, by rw [hu], by rw [hu], fun r => ?_⟩
  rw [ht r]
  by_cases hr : r / 12 = core
  · rw [if_pos (mem_rowsOf.mpr hr)]
    refine Option.map_congr fun t _ => ?_
    simp [State.woken, State.mayWake, hr, and_assoc]
  · rw [if_neg fun hm => hr (mem_rowsOf.mp hm)]
    simp [hr]

/-- A row that is gated. -/
theorem gateRow_gates (ht : s.task row = some t) (hs : s.stands row t = true) (hg : (s.row row).gated = false) (hf : stagingFits t = true)
    (hr : (s.core (row / 12)).part.any (fun p => (s.ctxsOf p).any fun c => (s.ctx c).any fun x => x.setup.overImages) = false) :
    exec (.rowGate row) s = .next (({ s.write (padKey (row / 12) (0x6E0000 + 0x18000 * (row % 12))) (rowImage s t) with
      freeCtr := s.freeCtr + 1 } : State).modRow row fun w => { w with gated := true }) := by
  refine congrArg Host.Outcome.next ?_
  rw [State.gateRow, ht]
  dsimp only
  rw [hs, hg, hr, hf]
  rfl

theorem rowGate_held (ht : s.task row = some t) (hs : s.stands row t = false) : exec (.rowGate row) s = .next s := by
  refine congrArg Host.Outcome.next ?_
  rw [State.gateRow, ht]
  exact if_pos (by simp [hs])

theorem stands_of (hc : t.commit = none) (h : (t.froDrain = true ∧ (s.translating row = true → s.drainRest t.cx (row / 12) = true)) ∨
    ((t.froPre = true ∨ t.froBrk = true) ∧ t.charged = false ∧ s.translating row = false)) : s.stands row t = true := by
  obtain ⟨hd, ht⟩ | ⟨hf, hch, ht⟩ := h
  · cases htr : s.translating row with
    | true => simp [State.stands, hc, hd, ht htr]
    | false => simp [State.stands, hc, hd, htr]
  · simp [State.stands, State.lulled, hc, hf, hch, ht]

/-- No context of a core's partition reaches the images of its rows. -/
theorem not_ranged (h : ∀ o c y, (s.core core).part = some o → c ∈ s.ctxsOf o → s.ctx c = some y →
    y.setup.padn = 0 ∨ 128 ≤ y.setup.padlo ∨ y.setup.padlo + y.setup.padn ≤ 110) :
    (s.core core).part.any (fun p => (s.ctxsOf p).any fun c => (s.ctx c).any fun x => x.setup.overImages) = false := by
  rw [← Bool.not_eq_true]
  intro hany
  obtain ⟨o, ho, hc⟩ : ∃ o, (s.core core).part = some o ∧ ((s.ctxsOf o).any fun c => (s.ctx c).any fun x => x.setup.overImages) = true := by
    simpa only [Option.any_eq_true] using hany
  obtain ⟨c, hc, hx⟩ := List.any_eq_true.mp hc
  obtain ⟨y, hy, hover⟩ : ∃ y, s.ctx c = some y ∧ y.setup.overImages = true := by simpa [Option.any_eq_true] using hx
  have := h o c y ho hc hy
  simp only [Setup.overImages, decide_eq_true_eq] at hover
  omega

/-- The channels of an activation that are in range, and of which nothing read is poisoned. -/
theorem chanBad_none {cores : List Nat} (he : s.entryPoison a = none) (hp : ∀ m ∈ cores, s.chanProt cx a m = none) (hc : s.checkPoison a cores = none) :
    s.chanBad cx a cores = none := by
  rw [State.chanBad, he]
  dsimp only
  rw [List.findSome?_eq_none_iff.mpr hp, hc]
  rfl

theorem activationReady_stamps (hx : s.ctx cx = some x) (ha : (x.acts.find? fun b => b.id == n) = some a) (hh : x.halt.halted = false)
    (hr : a.ready = none) (hw : a.wok = true) (he : s.entryPoison a = none)
    (hm : ∀ m ∈ s.checkCores cx (actImage s.mem x a), readyOn s.mem a m ≠ none ∧ s.chanProt cx a m = none)
    (hc : s.checkPoison a (s.checkCores cx (actImage s.mem x a)) = none)
    (hok : ∃ m ∈ s.checkCores cx (actImage s.mem x a), readyOn s.mem a m = some true ∧ s.unreleased a m = false) :
    ∃ u, exec (.activationReady cx n) s = .next u ∧ u.mem = s.mem ∧
      u.ctx cx = some { x with acts := x.acts.map fun b => if b.id = n then { b with ready := some s.tb } else b } := by
  have hbad := chanBad_none he (fun m h => (hm m h).2) hc
  have hnone : ((s.checkCores cx (actImage s.mem x a)).map fun n => readyOn s.mem a n).contains none = false := by
    rw [← Bool.not_eq_true, List.contains_iff_mem, List.mem_map]
    rintro ⟨m, h, hn⟩
    exact (hm m h).1 hn
  have hany : ((s.checkCores cx (actImage s.mem x a)).any fun n => readyOn s.mem a n == some true && !s.unreleased a n) = true := by
    obtain ⟨m, h, h1, h2⟩ := hok
    exact List.any_eq_true.mpr ⟨m, h, by simp [h1, h2]⟩
  have hexec : exec (.activationReady cx n) s = .next ((s.modCtx cx fun x => { x with
      acts := x.acts.map fun b => if b.id = n then { b with ready := some s.tb } else b }).undefer (partOf cx) none) := by
    show execActivationReady cx n s = _
    rw [execActivationReady, hx]
    dsimp only
    rw [ha]
    dsimp only
    rw [if_neg (by simp [hh]), he]
    dsimp only
    rw [if_neg (by simp [hw]), hbad]
    dsimp only
    rw [if_neg (by simpa using hnone), if_pos (by simp [hr, hany])]
  refine ⟨_, hexec, State.modCtx_mem .., ?_⟩
  rw [State.modCtx_of hx]
  exact State.ctx_setCtx ..

theorem isobarRound_passes {m : Nat} (hx : s.ctx cx = some x) (ha : (x.acts.find? fun b => b.id == n) = some a) (he : s.entryPoison a = none)
    (hp : ∀ k ∈ s.isobarCores cx x a, s.chanProt cx a k = none) (hc : s.checkPoison a (s.isobarCores cx x a) = none)
    (hw : ∀ k ∈ s.isobarCores cx x a, isobarWaits s.mem a k ≠ none)
    (hf : ((s.isobarCores cx x a).find? fun k => isobarWaits s.mem a k == some true) = some m) :
    exec (.isobarRound cx n) s = .next ((a.chans.filter fun c => c.out).foldl (fun s c => s.passIsobar c.quad (c.key m))
      ((a.chans.filter fun c => !c.out).foldl (fun s c => s.advance (c.key m) false 1) s)) := by
  have hany : ((s.isobarCores cx x a).any fun n => (isobarWaits s.mem a n).isNone) = false := by
    rw [List.any_eq_false]
    intro k hk
    simpa using hw k hk
  show execIsobarRound cx n s = _
  rw [execIsobarRound, hx]
  dsimp only
  rw [ha]
  dsimp only
  rw [chanBad_none he hp hc]
  dsimp only
  rw [if_neg (by simpa using hany), hf]

/-- What a queue without room goes on from. -/
theorem segmentLink_cases {e : QEnt} {seg : Nat} {rest : List Nat} {ks ls : List (Nat × Nat)} {s2 : State} (hx : s.ctx cx = some x)
    (hq : findT x.queues q = some e) (h0 : e.tailx = 0) (hf : s.faulting cx = false) :
    (x.free = [] → exec (.segmentLink cx q) s = .next (s.exhausted cx q)) ∧
    (x.free = seg :: rest → s.headPending cx = true → exec (.segmentLink cx q) s = .next s) ∧
    (x.free = seg :: rest → s.pendR = [] → s.headPending cx = false → s.reachLink cx seg (e.segs.getLast?.map Prod.fst) = .ok (ks, ls) s2 →
      exec (.segmentLink cx q) s = .next (s2.linkSegment cx q e seg rest ks ls)) := by
  have hgo : ¬ (e.tailx ≠ 0 ∨ s.faulting cx = true) := by simp [h0, hf]
  refine ⟨fun hfree => ?_, fun hfree hp => ?_, fun hfree hr hp hl => ?_⟩
  · show execSegmentLink cx q s = _
    rw [execSegmentLink, hx]
    dsimp only
    rw [hq]
    dsimp only
    rw [if_neg hgo, hfree]
  · show execSegmentLink cx q s = _
    rw [execSegmentLink, hx]
    dsimp only
    rw [hq]
    dsimp only
    rw [if_neg hgo, hfree]
    dsimp only
    rw [if_pos (by simp [hp])]
  · show execSegmentLink cx q s = _
    rw [execSegmentLink, hx]
    dsimp only
    rw [hq]
    dsimp only
    rw [if_neg hgo, hfree]
    dsimp only
    rw [if_neg (by simp [hp, hr]), hl]

theorem tlbiComplete_done (ht : s.task row = some t) (hc : t.commit = some c) (h4 : c.step = 4) (hs : c.syncs ≠ []) (htodo : c.todo = [])
    (hd : ∀ i ∈ c.syncs, s.syncDone t.cx row i = true) : exec (.tlbiComplete row) s =
    .next ((s.setTask row (some (t.withCommit { c with syncs := [], step := 5, wait := .none }))).commitGo row) := by
  have hleft : (c.syncs.filter fun i => !s.syncDone t.cx row i) = [] := by
    rw [List.filter_eq_nil_iff]
    intro i hi
    simp [hd i hi]
  show execTlbiComplete row s = _
  rw [execTlbiComplete, ht]
  dsimp only
  rw [hc]
  dsimp only
  rw [if_neg (by simp [h4, hs]), hleft, htodo]
  rfl

end

/-- Settles O46, event by event. -/
theorem schedulerEvents : Obligations.SchedulerEvents := by
  unfold Obligations.SchedulerEvents
  intro s p die core row cx q n x t c d a k f
  refine ⟨poolRefill_credit, fun hr hd => ?_, fun r i hn hr hi => decision_begins hn hr hi, rfl, lullResume_free, rowGate_held,
    fun ht hc hst hg hf hr => gateRow_gates ht (stands_of hc hst) hg (decide_eq_true hf) (not_ranged hr), fun hx ha hh hr hw he hm hc hok =>
      activationReady_stamps hx ha hh hr hw he hm hc hok, fun m hx ha he hp hc hw hf => isobarRound_passes hx ha he hp hc hw hf,
    fun e seg rest ks ls s2 hx hq h0 hf => segmentLink_cases hx hq h0 hf, fun ht hc hw => ?_, tlbiComplete_done⟩
  · show execOverrun die p s = _
    rw [execOverrun, show (s.fcast (16 * die + p)).run = some d from hr]
    exact congrArg _ (if_pos hd)
  · show execQueueRoom row s = _
    rw [execQueueRoom, ht, Option.bind_some, hc]
    exact congrArg _ (if_pos hw)

end Sys2Proof.Safety

end

section

namespace Sys2Proof.Machine

/-! ## The rows that the Front hosts (R208, R213) -/

theorem State.hostOf_row {s : State} {row cx : Nat} {p : Pipe} {h : Hosted} (e : s.hostOf row = some (cx, p, h)) : h.row = row := by
  unfold State.hostOf at e
  split at e
  · exact nomatch e
  · split at e
    · exact nomatch e
    · obtain ⟨o, ho, he⟩ := Option.map_eq_some_iff.mp e
      have hrow := List.find?_some ho
      cases he
      exact eq_of_beq hrow

/-- The link that an isobar passes to is that of the first position after `pos` that has not left (R210). -/
theorem Pipe.nextLink_spec {p : Pipe} {pos n : Nat} (e : p.nextLink pos = some n) :
    pos < n ∧ p.stage n ≠ 0 ∧ p.done.contains n = false ∧ ∀ m, pos < m → m < n → p.stage m ≠ 0 ∧ p.done.contains m = true := by
  obtain ⟨hfind, hstage⟩ := Option.filter_eq_some_iff.mp e
  have hs : p.stage n ≠ 0 := by simpa using hstage
  rw [List.find?_map] at hfind
  obtain ⟨i, hi, rfl⟩ := Option.map_eq_some_iff.mp hfind
  obtain ⟨hlast, -, hbefore⟩ := List.find?_range_eq_some.mp hi
  refine ⟨by omega, hs, by simpa [hs] using hlast, fun m hm hn => ?_⟩
  have hj := hbefore (m - pos - 1) (by omega)
  have hm' : pos + 1 + (m - pos - 1) = m := by omega
  simpa [hm'] using hj

/-! ## Handovers of the arrays (R216, log 16) -/

theorem State.foldl_handover {l : List Nat} (s : State) {n : Nat} (h : n ∈ l ∨ (s.core n).handover = true) :
    ((l.foldl (fun s n => s.modCore n fun c => { c with handover := true }) s).core n).handover = true := by
  induction l generalizing s with
  | nil => exact h.resolve_left List.not_mem_nil
  | cons m l ih =>
    refine ih _ ?_
    by_cases hn : n = m
    · subst hn
      exact .inr (congrArg Core.handover (getT_putT_same s.cores n _ _))
    · exact (h.imp_left fun hm => (List.mem_cons.mp hm).resolve_left hn).imp_right
        (congrArg Core.handover (getT_putT_other s.cores _ _ hn)).trans

theorem State.handovers_frame (s : State) (p : Nat) : ∃ cs, s.handovers p = { s with cores := cs } :=
  modCores_frame s

end Sys2Proof.Machine

namespace Sys2Proof.Safety

open Sys2Proof.Machine

variable {s s2 : State} {p row cx n v w till : Nat} {pl : Pipe} {h : Hosted} {ks : List (Nat × Nat)} {g : Coll}

/-! ## Slices (R216, R280) -/

section Slices

theorem sliceEnd_early (hsl : (s.part p).slice = some (v, till, false)) (ht : s.tb < till) : exec (.sliceEnd p) s = .next s := by
  change execSliceEnd p s = _
  rw [execSliceEnd, hsl]
  exact congrArg Host.Outcome.next (if_pos ht)

theorem sliceEnd_parks (hsl : (s.part p).slice = some (v, till, false)) (ht : till ≤ s.tb) :
    let s1 := s.modPart p fun x => { x with slice := some (v, till, true) }
    exec (.sliceEnd p) s = .next (((s1.ctxsOf p).filter fun c => s1.vfOf c == v).foldl (fun s c => s.parkAll c fun _ => true) s1) := by
  change execSliceEnd p s = _
  rw [execSliceEnd, hsl]
  exact congrArg Host.Outcome.next (if_neg ht.not_gt)

theorem sliceStart_running (hsl : (s.part p).slice = some (v, till, false)) : exec (.sliceStart p) s = .next s := by
  change execSliceStart p s = _
  rw [execSliceStart]
  dsimp only
  rw [hsl]
  exact congrArg Host.Outcome.next (if_pos (.inr (.inl rfl)))

theorem sliceStart_next (hsl : (s.part p).slice = some (v, till, true)) (hlen : (s.part p).slen ≠ 0) (hvac : s.vacated p = true)
    (hw : s.nextVf p (some v) = some w) :
    let s1 := s.modPart p fun x => { x with slice := some (w, s.tb + (s.part p).slen, false) }
    exec (.sliceStart p) s = .next (((s1.ctxsOf p).filter fun c => s1.vfOf c == w).foldl (fun s c => s.wake c) (s1.handovers p)) := by
  intro s1
  obtain ⟨cs, hcs⟩ := s1.handovers_frame p
  have hctxs : ((s1.handovers p).ctxsOf p).filter (fun c => (s1.handovers p).vfOf c == w) = (s1.ctxsOf p).filter fun c => s1.vfOf c == w := by
    rw [hcs]
    rfl
  rw [← hctxs]
  change execSliceStart p s = _
  rw [execSliceStart]
  dsimp only
  rw [hsl]
  refine congrArg Host.Outcome.next ((if_neg (by simp [hlen, hvac])).trans ?_)
  dsimp only [Option.map_some]
  rw [hw]
  rfl

end Slices

/-! ## Scrolls of a slot (R213, R214, R219) -/

section Scrolls
variable (hh : s.hostOf row = some (cx, pl, h))
include hh

section Save
variable (hst : h.st = .saving) (hps : s.pipeStalled cx pl.q row = false)
include hst hps

theorem scrollSave_poisoned {g : Nat} (hg : s.poisoned (pl.slotKey h.slot) (stSsize (pl.st (pl.stage h.pos))) = some g) (hf : s.faulting cx = false) :
    exec (.scrollSaveComplete row) s = .next (s.fault cx 12 0 pl.core (row % 12) (g * 256 - padKey pl.core 0) 0 []) := by
  change execScrollSaveComplete row s = _
  rw [execScrollSaveComplete, hh]
  dsimp only
  rw [if_neg (by simp [hst, hps]), hg]
  dsimp only
  rw [State.scrollBad, hf, State.hostOf_row hh]
  rfl

theorem scrollSave_leftBad {cls a : Nat} (hg : s.poisoned (pl.slotKey h.slot) (stSsize (pl.st (pl.stage h.pos))) = none)
    (hb : s.leftBad pl h = some (cls, a)) (hf : s.faulting cx = false) :
    exec (.scrollSaveComplete row) s = .next (s.fault cx cls 0 pl.core (row % 12) a 0 []) := by
  change execScrollSaveComplete row s = _
  rw [execScrollSaveComplete, hh]
  dsimp only
  rw [if_neg (by simp [hst, hps]), hg, hb]
  dsimp only
  rw [State.scrollBad, hf, State.hostOf_row hh]
  rfl

theorem scrollSave_writes (hg : s.poisoned (pl.slotKey h.slot) (stSsize (pl.st (pl.stage h.pos))) = none) (hb : s.leftBad pl h = none)
    (hk : s.areaKeys cx pl h 2 = (s2, some ks)) :
    exec (.scrollSaveComplete row) s = .next ((((s2.puts ks (getBs s2.mem (pl.slotKey h.slot) (stSsize (pl.st (pl.stage h.pos))))).saved cx pl h).parkGo
      cx pl.q).cutGo cx pl.q) := by
  change execScrollSaveComplete row s = _
  rw [execScrollSaveComplete, hh]
  dsimp only
  rw [if_neg (by simp [hst, hps]), hg, hb, hk]

end Save

theorem scrollRestore_reads (hst : h.st = .restoring) (hps : s.pipeStalled cx pl.q row = false) (hk : s.areaKeys cx pl h 1 = (s2, some ks))
    (hp : s2.poisonIn (stArea (pl.st (pl.stage h.pos))) ks = none) :
    let pl2 := (pl.setHost { h with st := .hosted, parking := false }).retire
    exec (.scrollRestoreComplete row) s =
      .next ((((((s2.write (pl.slotKey h.slot) (s2.gets ks)).capture pl.core).setPipe cx pl2).frontGo cx pl2.q).parkGo cx pl2.q).cutGo cx pl2.q) := by
  intro pl2
  change execScrollRestoreComplete row s = _
  rw [execScrollRestoreComplete, hh]
  dsimp only
  rw [if_neg (by simp [hst, hps]), hk]
  dsimp only
  rw [hp]

end Scrolls

/-! ## What the Front dispatches (R208, R211) -/

section Dispatch
variable (hh : s.hostOf row = some (cx, pl, h)) (hm : s.mayStage cx pl h = true) (hf : s.faulting cx = false)
include hh hm hf

theorem frontDispatch_poisoned {g : Nat} (hg : s.poisoned pl.recKey 56 = some g) :
    exec (.frontDispatch row) s = .next (s.fault cx 12 0 pl.core (row % 12) (g * 256 - padKey pl.core 0) 0 []) := by
  change Host.Outcome.next (s.frontDispatch row) = _
  rw [State.frontDispatch, hh]
  dsimp only
  rw [if_neg (by simp [hm, hf]), hg]

variable (hg : s.poisoned pl.recKey 56 = none)
include hg

theorem frontDispatch_recordBad (hr : s.recordOk pl = false) : exec (.frontDispatch row) s = .next (s.fault cx 8 0 pl.core (row % 12) 0 0 []) := by
  change Host.Outcome.next (s.frontDispatch row) = _
  rw [State.frontDispatch, hh]
  dsimp only
  rw [if_neg (by simp [hm, hf]), hg, hr]
  rfl

variable (hr : s.recordOk pl = true) (hq : s.ringPoison pl h.pos = none) (hready : pl.posReady s.mem h.pos = some true)
include hr hq hready

theorem frontDispatch_unpaid (hd : s.debit (partOf cx) (stPps (pl.st (pl.stage h.pos))) = none) : exec (.frontDispatch row) s = .next s := by
  change Host.Outcome.next (s.frontDispatch row) = _
  rw [State.frontDispatch, hh]
  dsimp only
  rw [if_neg (by simp [hm, hf]), hg, hr, hq, hready, hd]
  rfl

theorem frontDispatch_pays (hd : s.debit (partOf cx) (stPps (pl.st (pl.stage h.pos))) = some s2) : exec (.frontDispatch row) s =
    .next ((s2.place row (stageTask s2.mem cx (s2.vfOf cx) pl h)).setPipe cx (pl.setHost { h with busy := true })) := by
  change Host.Outcome.next (s.frontDispatch row) = _
  rw [State.frontDispatch, hh]
  dsimp only
  rw [if_neg (by simp [hm, hf]), hg, hr, hq, hready, hd]
  rfl

end Dispatch

/-! ## An isobar at a hosted position (R210) -/

section Round
variable (hh : s.hostOf row = some (cx, pl, h)) (hin : h.inPlace = true) (hbusy : h.busy = false) (hf : s.faulting cx = false)
  (hiso : isoHead s.mem pl.lf (pl.linkKey h.pos) = true)
include hiso

theorem roundBad_of_isoHead : s.roundBad pl h.pos = s.ringsBad pl (pl.linkKey h.pos :: (pl.isoKey h.pos).toList) :=
  if_pos (.inr hiso)

include hh hin hbusy hf

theorem frontIsobarRound_bad {cls a : Nat} (hb : s.ringsBad pl (pl.linkKey h.pos :: (pl.isoKey h.pos).toList) = some (cls, a)) :
    exec (.frontIsobarRound row) s = .next (s.fault cx cls 0 pl.core (row % 12) a 0 []) := by
  change execFrontIsobarRound row s = _
  rw [execFrontIsobarRound, hh]
  dsimp only
  rw [if_neg (by simp [hin, hbusy, hf]), roundBad_of_isoHead hiso, hb]

theorem frontIsobarRound_passes (hb : s.ringsBad pl (pl.linkKey h.pos :: (pl.isoKey h.pos).toList) = none)
    (hroom : ∀ k, pl.isoKey h.pos = some k → roomReady s.mem pl.lf k 1 = some true) :
    let s1 := s.advance (pl.linkKey h.pos) false 1
    let passed := match pl.nextLink h.pos with
      | some n => s1.ringPut pl.lf (pl.linkKey n) 0 3
      | none => s1
    exec (.frontIsobarRound row) s = .next ((passed.cutGo cx pl.q).frontGo cx pl.q) := by
  intro s1 passed
  have hall : (pl.isoKey h.pos).all (fun k => roomReady s.mem pl.lf k 1 == some true) = true :=
    by cases hk : pl.isoKey h.pos with
    | none => rfl
    | some k => exact beq_iff_eq.mpr (hroom k hk)
  change execFrontIsobarRound row s = _
  rw [execFrontIsobarRound, hh]
  dsimp only
  rw [if_neg (by simp [hin, hbusy, hf]), roundBad_of_isoHead hiso, hb]
  dsimp only
  exact congrArg Host.Outcome.next (if_neg (by simp [hiso, hall]))

end Round

/-! ## The end of a command (R172, R176) -/

theorem commandComplete_ends {x : Ctx} {c : Cmd} {k : Nat} (hx : s.ctx cx = some x) (hc : findCmd x k n = some c) (hfin : cmdFinished c = true)
    (hpkt : c.pkt = none) (hpipe : c.pipe = none) :
    let y := { x with eqs := putT x.eqs k { getEq x k with cmds := (getEq x k).cmds.filter fun d => d.seq != n } }
    let s1 := s.setCtx cx (unjoin { y with slots := slotDone y c.core c.w0 } k n).latch
    exec (.commandComplete cx k n) s = .next (if codeOf k = 1 then (s1.freeChan c).frontCore c.core else s1.freeChan c) := by
  intro y s1
  change execCommandComplete cx k n s = _
  rw [execCommandComplete, hx]
  dsimp only [Option.bind_some]
  rw [hc]
  dsimp only
  rw [hfin, hpkt, hpipe, State.modCtx_of hx]
  rfl

/-! ## Collectives (R197, R199, R356) -/

section Collectives
variable (hg : s.colls.find? (fun g => g.id == n) = some g)
include hg

theorem collectiveResult_unreached (h : s.unreached g.dests ≠ none) : exec (.collectiveResult n) s = .next s := by
  change execCollectiveResult n s = _
  rw [execCollectiveResult, hg]
  exact congrArg Host.Outcome.next (if_pos (Option.isSome_iff_ne_none.mpr h))

theorem collectiveResult_broken (h : s.unreached g.dests = none) (hb : g.broken = true) :
    exec (.collectiveResult n) s = .next (if g.members = [] then s else s.endColl g) := by
  change execCollectiveResult n s = _
  rw [execCollectiveResult, hg]
  dsimp only
  rw [h, hb]
  simp

theorem collectiveResult_open (hb : g.broken = false) (hfull : g.full = false) : exec (.collectiveResult n) s = .next s := by
  change execCollectiveResult n s = _
  rw [execCollectiveResult, hg]
  dsimp only
  rw [hb, hfull]
  simp

theorem collectiveResult_full (h : s.unreached g.dests = none) (hb : g.broken = false) (hfull : g.full = true) :
    let r := if g.kind = 2 then s.contribution g 0
      else treeRoot (combine g.dt (64 * g.len)) 11 ((List.range g.nmem).map fun i => s.contribution g i)
    let s1 := g.members.foldl (fun s m => if g.kind = 0 ∧ m.midx ≠ 0 then s else s.write m.dst r) s
    exec (.collectiveResult n) s = .next (g.members.foldl State.memberDone (s1.forgetColl g)) := by
  intro r s1
  change execCollectiveResult n s = _
  rw [execCollectiveResult, hg]
  dsimp only
  rw [h, hb, hfull]
  rfl

theorem collectiveFaultLimit_inTime (h : s.late g = []) : exec (.collectiveFaultLimit n) s = .next s := by
  change execCollectiveFaultLimit n s = _
  rw [execCollectiveFaultLimit, hg]
  dsimp only
  rw [h]
  rfl

theorem collectiveFaultLimit_late (h : s.late g ≠ []) :
    exec (.collectiveFaultLimit n) s = .next (((s.late g).foldl State.memberDone (s.collFault (s.late g))).keepColl
      { g with members := g.members.filter fun m => !(s.late g).contains m, remote := [], broken := true, dead := g.dead ++ (s.late g).map fun m => m.midx }) := by
  change execCollectiveFaultLimit n s = _
  rw [execCollectiveFaultLimit, hg]
  exact congrArg Host.Outcome.next (if_neg (mt List.isEmpty_iff.mp h))

end Collectives

theorem late_none (h : s.unreached g.dests = none) : s.late g = [] := by
  rw [State.late, h]

theorem late_some {u : Nat} (h : s.unreached g.dests = some u) :
    s.late g = g.members.filter fun m => decide (max m.since u + (s.part (partOf m.cx)).fault ≤ s.tb) := by
  rw [State.late, h]

theorem keepColl_done (hm : g.members = []) (hd : ∀ i ∈ g.own, i ∈ g.dead) : s.keepColl g = s.forgetColl g :=
  if_pos (by simpa [hm] using hd)

theorem keepColl_stays (hm : g.members ≠ [] ∨ ∃ i ∈ g.own, i ∉ g.dead) (ho : ∃ h ∈ s.colls, h.id = g.id) :
    s.keepColl g = { s with colls := s.colls.map fun h => if h.id = g.id then g else h } := by
  have hany : s.colls.any (fun h => h.id == g.id) = true := by simpa using ho
  have hkeep : ¬ (g.members.isEmpty && g.own.all g.dead.contains) = true := by
    simpa [imp_iff_not_or] using hm
  rw [State.keepColl, if_neg hkeep, if_pos hany]

/-! ## A barrier of the pod (R356, log 6) -/

section PodBarrier
variable {t : Task} {m : Commit} {u : Nat} (hno : ∀ o ∈ s.colls, o.id ≠ 2 ^ 16 + row) (ht : s.task row = some t) (hm : t.commit = some m) (hw : m.wait = .pod u)
include hno ht hm hw

theorem barrierLimit : exec (.collectiveFaultLimit (2 ^ 16 + row)) s = .next
    (if (s.unreached s.podPackages).any fun v => decide (max u v + (s.part (partOf t.cx)).fault ≤ s.tb) then
      (s.fault t.cx 9 0 t.core (row % 12) 0 t.pc.toNat []).commitGo row else s) := by
  have hnone : s.colls.find? (fun g => g.id == 2 ^ 16 + row) = none :=
    List.find?_eq_none.mpr fun o ho => by simpa using hno o ho
  change execCollectiveFaultLimit (2 ^ 16 + row) s = _
  rw [execCollectiveFaultLimit, hnone]
  dsimp only
  rw [if_neg (by omega), Nat.add_sub_cancel_left, ht]
  dsimp only
  rw [hm]
  dsimp only [Option.map_some]
  rw [hw]

theorem barrierLimit_reached (h : s.unreached s.podPackages = none) : exec (.collectiveFaultLimit (2 ^ 16 + row)) s = .next s := by
  rw [barrierLimit hno ht hm hw, h]
  rfl

theorem barrierLimit_passed {v : Nat} (h : s.unreached s.podPackages = some v) (hl : max u v + (s.part (partOf t.cx)).fault ≤ s.tb) :
    exec (.collectiveFaultLimit (2 ^ 16 + row)) s = .next ((s.fault t.cx 9 0 t.core (row % 12) 0 t.pc.toNat []).commitGo row) := by
  rw [barrierLimit hno ht hm hw, h]
  exact congrArg Host.Outcome.next (if_pos (decide_eq_true hl))

theorem barrierLimit_early {v : Nat} (h : s.unreached s.podPackages = some v) (hl : s.tb < max u v + (s.part (partOf t.cx)).fault) :
    exec (.collectiveFaultLimit (2 ^ 16 + row)) s = .next s := by
  rw [barrierLimit hno ht hm hw, h]
  exact congrArg Host.Outcome.next (if_neg (by simpa using hl))

end PodBarrier

/-- Settles O49, clause by clause of the statement: slices, scrolls, dispatches, isobars, the ends of commands, and collectives. -/
theorem frontEvents : Obligations.FrontEvents := by
  unfold Obligations.FrontEvents
  intro s s2 p row cx k n v till e x pl h ks c g
  refine ⟨fun hsl => ⟨sliceEnd_early hsl, sliceEnd_parks hsl⟩, fun hsl hlen => ⟨?_, ?_⟩, fun n hn _ => State.foldl_handover s (.inl hn),
    fun hh => ⟨?_, ?_, ?_, ?_, ?_, ?_, fun n hn => Pipe.nextLink_spec hn⟩, commandComplete_ends, fun hg => ⟨collectiveResult_full hg, collectiveResult_broken hg, ?_, ?_, ?_⟩, ?_⟩
  · intro he
    subst he
    exact sliceStart_running hsl
  · intro he
    subst he
    exact fun hvac w hw => sliceStart_next hsl hlen hvac hw
  · exact fun hst hps => ⟨fun cls a hg hb hf => scrollSave_leftBad hh hst hps hg hb hf, scrollSave_writes hh hst hps, fun g hg hf => scrollSave_poisoned hh hst hps hg hf⟩
  · exact scrollRestore_reads hh
  · exact fun g hm hf hg => frontDispatch_poisoned hh hm hf hg
  · exact frontDispatch_recordBad hh
  · exact fun hm hf hg hr hq hready => ⟨frontDispatch_unpaid hh hm hf hg hr hq hready, frontDispatch_pays hh hm hf hg hr hq hready⟩
  · exact fun hin hbusy hf hiso => ⟨fun cls a hb => frontIsobarRound_bad hh hin hbusy hf hiso hb, frontIsobarRound_passes hh hin hbusy hf hiso⟩
  · rintro (hu | ⟨hb, hfull⟩)
    · exact collectiveResult_unreached hg hu
    · exact collectiveResult_open hg hb hfull
  · exact fun hu => collectiveFaultLimit_inTime hg (late_none hu)
  · intro u hu
    rw [← late_some hu]
    exact ⟨collectiveFaultLimit_inTime hg, collectiveFaultLimit_late hg, fun hm hd => keepColl_done hm hd, fun hm ho => keepColl_stays hm ho⟩
  · intro t m u hno ht hm hw
    exact ⟨fun v hv => ⟨barrierLimit_passed hno ht hm hw hv, barrierLimit_early hno ht hm hw hv⟩, barrierLimit_reached hno ht hm hw⟩

end Sys2Proof.Safety

end
